-- ==== Sys2Proof/Word.lean ====
section
/-! DEFINITION. The word types of the Skovette Escarp (R4): halfwords of 16 bits, words of 32,
doublewords of 64, lines of 128 bytes, and masks of 32 lanes. -/

namespace Sys2Proof

/-- A doubleword: an A-slice register lane, a virtual address, an instruction word (R4, R231). -/
abbrev Word := BitVec 64

/-- One byte. -/
abbrev Byte := BitVec 8

/-- A mask of the 32 lanes of a warp: bit L is lane L (R191). -/
abbrev Mask := BitVec 32

/-- The two instruction streams of a warp (08). -/
inductive Slice where
  | a
  | c
  deriving DecidableEq, Repr

/-- The stream that a word issues from: a running split of one slice of one warp of one team (R188, R203). -/
structure StreamRef where
  /-- the team's serial number in the model -/
  team : Nat
  /-- `$warp` -/
  warp : Nat
  /-- the slice -/
  slice : Slice
  /-- `$split` -/
  split : Nat
  deriving DecidableEq, Repr

end Sys2Proof
end

