-- ==== Sys2Proof/Config.lean ====
section
/-! DEFINITION. What the implementation fixes, and the free values: opaque constants that nothing can
evaluate, so that a statement holds whatever they are. -/

namespace Sys2Proof.Config

/-- Cores, dies and stacks of the package (R2, R185). -/
def cores : Nat := 1024
def dies : Nat := 64
def stackCount : Nat := 32

/-- Capacities of R78. -/
def fCap : Nat := 8
def saCap : Nat := 16
def boqCap : Nat := 16
def backCap : Nat := 8

/-- Arithmetic-clock cycles that pass before a reading of `$clk`, at a free count (log entry 7). -/
opaque cycles : Nat → Nat

/-- A byte of a line read under another key identity than it was written under (R98, R99; log entry 2):
the reading identity, the writing identity, the byte's address, its stored byte. -/
opaque foreign : Nat → Nat → Nat → Byte → Byte

/-- Which of the values within the bound an f32 or f64 function returns (R301; log entry 10): the function,
the operand bits. -/
opaque ulpChoice : Nat → Word → Nat

/-- For each byte of an overlapping copy outside one tidepool, whether the engine had already written its
source byte (R351; log entry 11): the command's free count, the byte. -/
opaque overlap : Nat → Nat → Bool

/-- Which descriptor a walk finds in a table that breaks R30 (R44; log entry 12): context, address. -/
opaque badTable : Nat → Word → Nat

/-- What a firmware image carries, whose layout the spec does not give: its version number, its public key, its LMS signature
and the bytes that the signature covers (R427; log entry 13). -/
opaque imageVersion : List Nat → Nat
opaque imageKey : List Nat → List Byte
opaque imageSignature : List Nat → List Byte
opaque imageBody : List Nat → List Byte

/-- Of the part, fixed at manufacture: the hash of the firmware's public key, the serial number, the hash of the mask ROM, and
the certificate of the identity key (R427, R428; log entry 13). -/
opaque fusedKeyHash : List Byte
opaque serial : List Byte
opaque romHash : List Byte
opaque certificate : List Byte

/-- What an attestation report holds before its signature (R428): of the address-map entries that the function owns, their
registers. -/
structure Report where
  serial : List Byte
  romHash : List Byte
  firmwareHash : List Byte
  version : Nat
  fn : Nat
  slot : Nat
  entries : List (List Word)
  nonce : List Byte
  certificate : List Byte
  deriving DecidableEq, Repr

/-- The layout of a report, which the spec does not give (log entry 13). -/
opaque reportBytes : Report → List Byte

/-- The signature by the identity key, with a leaf, over bytes (R428; log entry 13). -/
opaque identitySign : List Byte → Nat → List Byte

/-- Whether the order that the transport adds a collective's contributions in puts i before j (R355): the
members' contributions in the order the transport chooses, as a permutation index. -/
opaque collectiveOrder : Nat → Nat → Nat

/-- A value that a rule calls unpredictable or leaves unstated, by kind and count (log entry 18). -/
opaque freeWord : Nat → Nat → Word

end Sys2Proof.Config
end

