-- ==== Sys2Proof/Syntax.lean ====
section
/-! DEFINITION. The instruction set as syntax: one constructor of `Instr` per row of the opcode table.
The first part are the instruction words of 10 to 14 and 02, 03; the second part are the event rows,
each one whole step of some other agent of the package (95). -/

namespace Sys2Proof

/-- The TYPE codes of R236, in code order. -/
inductive Ty where
  | none | z8 | z16 | z32 | z64 | i8 | i16 | i32 | i64
  | f16 | bf16 | f32 | f64 | bf16x2 | f16x2 | z128
  deriving DecidableEq, Repr

/-- The SCOPE codes of R237, in code order; code 7 traps. -/
inductive Scope where
  | none | warp | team | cluster | die | pkg | sys
  deriving DecidableEq, Repr

/-- The ORD codes of R237, in code order. -/
inductive Ordering where
  | none | acq | rel | ar
  deriving DecidableEq, Repr

/-- The guard field of R234: the negate bit and the predicate number. -/
structure Guard where
  neg : Bool
  p   : BitVec 3
  deriving DecidableEq, Repr

/-- What every guarded word carries: the switch marker S (R232) and the guard (R234). -/
structure Head where
  mark  : Bool
  guard : Guard
  deriving DecidableEq, Repr

/-- A register operand (R240, R241). `r n` is an on the A-slice and vn on the C-slice. -/
inductive Opd where
  /-- a0-a31 (A-slice) or v0-v127 (C-slice) -/
  | r (n : BitVec 7)
  /-- s0-s15 (A-slice) or s0-s31 (C-slice) -/
  | s (n : BitVec 5)
  /-- the constant registers of R242, codes 224 to 231 -/
  | k (n : BitVec 3)
  /-- f0-f3: a push on the A-slice, a pop on the C-slice -/
  | f (n : BitVec 2)
  /-- the store-address queue, code 244 -/
  | sa
  deriving DecidableEq, Repr

/-- The special registers of R272, in number order. -/
inductive SReg where
  | lane | warp | teamX | teamY | teamZ | stage | split | core | die | quarter | deadmask
  | hb | clk | slip | node | gridX | gridY | gridZ | nwarp | link
  deriving DecidableEq, Repr

/-- An operand given as an immediate or as a register (R331, R334). -/
inductive ImmOr (n : Nat) where
  | imm (v : BitVec n)
  | reg (o : Opd)
  deriving DecidableEq, Repr

/-- The command fields of R340, apart from those `acc.zero` replaces. -/
structure Cmd where
  /-- first register operand: 0-31 a0-a31, 32-47 s0-s15 -/
  dst   : BitVec 6
  /-- second register operand -/
  src   : BitVec 6
  /-- signed byte offset divided by 8 -/
  ofs   : BitVec 10
  /-- shape index -/
  shape : BitVec 5
  /-- the guard slot of a guarded command -/
  slot  : Option (BitVec 4)
  scope : Scope
  /-- completion target: 0 none, 1 rendezvous point, 2 arrival counter, 3 yield -/
  kind  : BitVec 2
  index : BitVec 5
  deriving DecidableEq, Repr

/-- The short opcodes of R246, in code order 0x00 to 0x1B. -/
inductive ShortOp where
  | nop | add | addI | sub | mul | mulI | min | max | movI | mov | and | andI | or | orI
  | xor | xorI | shl | shlI | shr | shrI | fadd | fsub | fmul | fmin | fmax | sarI | minu | maxu
  deriving DecidableEq, Repr

/-- One half of a short pair (R244): b is a register code's operand or the 11-bit immediate. -/
structure Half where
  op : ShortOp
  d  : BitVec 7
  a  : BitVec 7
  b  : ImmOr 11
  deriving DecidableEq, Repr

/-- The subcodes of ILLEGAL_INSTR (R248). -/
inductive Illegal where
  | opcode | slice | guard | field | modifier | pair | operand | shape
  deriving DecidableEq, Repr

/-- A control register of the package, by name and number (R46, R50, R91, R215, R225, R227, R405, R408,
R410, R411, R415, R422). The spec gives no offsets within a BAR (log entry 14). -/
inductive Reg where
  | amapBase (n : Nat) | amapLimit (n : Nat) | amapCtrl (n : Nat) | amapChan (n : Nat) | amapStatus
  | l2qcfg (n : Nat) | l2qocc (n : Nat)
  | ctxctl (c : Nat) | ctxrt (c : Nat) | ctxrtn (c : Nat) | ctxroot (c : Nat) | ctxtrap (c : Nat)
  | ctxsave (c : Nat) | ctxstat (c : Nat) | ctxtrapq (c : Nat)
  | fnsvc (n : Nat) | fnheld (n : Nat) | preempt | preemptst
  | hdmh (n : Nat) | hdmd (n : Nat) | fabid | ctxfab (c : Nat) | fabgrpa (g : Nat) | fabgrpb (g : Nat)
  | fnrst (n : Nat) | bootst | hlmbx (c : Nat) | hlhost | hldoor
  deriving DecidableEq, Repr

/-- What Headland removes from service as lost (R395). -/
inductive Loss where
  | die (d : Nat)
  | link (d e : Nat)
  | stack (j : Nat)
  | channel (stack pc : Nat)
  | control (core : Nat)
  deriving DecidableEq, Repr

/-- Where an uncorrectable or corrected error lies (R381, R396, R400). -/
inductive ErrSite where
  /-- a register, queue entry or tidepool word that lane `lane` of this warp reads -/
  | lane (team warp lane : Nat)
  /-- a half of a line in L2 data or HBM -/
  | half (line : Nat) (hi : Bool)
  /-- n symbol errors that a read of a half from HBM meets (R400, R421) -/
  | symbols (line : Nat) (hi : Bool) (n : Nat)
  /-- an L2 tag or directory entry -/
  | tag (line : Nat)
  /-- an entry of a core's range buffer -/
  | rangeBuffer (core n : Nat)
  /-- an instruction-cache line -/
  | icache (core line : Nat)
  /-- an L1 data line -/
  | l1 (core line : Nat)
  /-- a byte read by an engine for a command -/
  | engine (cmd : Nat)
  /-- no storage: the two copies of a WATCH warp differ, on a physical lane, in the word that the stream issues next; the
  two values folded (R397, log entry 17) -/
  | copies (st : StreamRef) (lane : Nat) (folded : Word)
  deriving DecidableEq, Repr

/-- What an agent removed from service is (R120). -/
inductive Agent where
  | core (n : Nat)
  | gather (cluster : Nat)
  deriving DecidableEq, Repr

/-- A request of a peer package (R408, R409). -/
inductive RemoteOp where
  | read (va : Word) (len : Nat)
  | write (va : Word) (bytes : List Byte)
  deriving DecidableEq, Repr

/-- A peer's reply to a remote command (R356, R410). A byte that is none could not be read or contributed; `part` says that
pieces with so many bytes were written and the others were refused (R346). -/
inductive Reply where
  | data (bytes : List (Option Byte))
  | done
  | part (written : Nat)
  | refused
  deriving DecidableEq, Repr

/-- One constructor per row of the opcode table. -/
inductive Instr where
  -- control flow (R250-R263)
  | nop (mark : Bool)
  | exit (h : Head)
  | br (h : Head) (rec : BitVec 14) (tgt : BitVec 26)
  | brQ (mark : Bool) (dropT dropF : BitVec 5) (rec : BitVec 14) (tgt : BitVec 26)
  | brB (h : Head) (dropT dropF : BitVec 5) (rec : BitVec 14) (tgt : BitVec 26)
  | brBack (mark : Bool) (dropT dropF : BitVec 5) (rec : BitVec 14) (tgt : BitVec 26)
  | call (mark : Bool) (tgt : BitVec 26)
  | ret (mark : Bool)
  | brInd (mark : Bool) (a : Opd)
  | callInd (mark : Bool) (a : Opd)
  | join (mark : Bool)
  | yield (mark : Bool)
  | splitYield (mark : Bool)
  | trap (h : Head) (code : BitVec 16)
  -- integer (R264-R271)
  | add (h : Head) (t : Ty) (sat : Bool) (d a b : Opd)
  | addImm (h : Head) (t : Ty) (sat : Bool) (d a : Opd) (imm : BitVec 26)
  | sub (h : Head) (t : Ty) (sat : Bool) (d a b : Opd)
  | mul (h : Head) (t : Ty) (d a b : Opd)
  | mulImm (h : Head) (t : Ty) (d a : Opd) (imm : BitVec 26)
  | mulhi (h : Head) (t : Ty) (d a b : Opd)
  | mad (h : Head) (t : Ty) (d a b c : Opd)
  | div (h : Head) (t : Ty) (d a b : Opd)
  | rem (h : Head) (t : Ty) (d a b : Opd)
  | min (h : Head) (t : Ty) (d a b : Opd)
  | max (h : Head) (t : Ty) (d a b : Opd)
  | abs (h : Head) (t : Ty) (sat : Bool) (d a : Opd)
  | neg (h : Head) (t : Ty) (sat : Bool) (d a : Opd)
  | sad (h : Head) (t : Ty) (d a b c : Opd)
  | lea (h : Head) (t : Ty) (s : BitVec 3) (d a b : Opd)
  | movImm (h : Head) (t : Ty) (d : Opd) (imm : BitVec 26)
  | mov (h : Head) (t : Ty) (d a : Opd)
  | movhi (h : Head) (t : Ty) (hi52 : Bool) (d a : Opd) (imm : BitVec 26)
  | and (h : Head) (t : Ty) (d a b : Opd)
  | andImm (h : Head) (t : Ty) (d a : Opd) (imm : BitVec 26)
  | or (h : Head) (t : Ty) (d a b : Opd)
  | orImm (h : Head) (t : Ty) (d a : Opd) (imm : BitVec 26)
  | xor (h : Head) (t : Ty) (d a b : Opd)
  | xorImm (h : Head) (t : Ty) (d a : Opd) (imm : BitVec 26)
  | not (h : Head) (t : Ty) (d a : Opd)
  | shl (h : Head) (t : Ty) (d a b : Opd)
  | shlImm (h : Head) (t : Ty) (d a : Opd) (imm : BitVec 26)
  | shr (h : Head) (t : Ty) (d a b : Opd)
  | shrImm (h : Head) (t : Ty) (d a : Opd) (imm : BitVec 26)
  | rot (h : Head) (t : Ty) (d a b : Opd)
  | popc (h : Head) (t : Ty) (d a : Opd)
  | clz (h : Head) (t : Ty) (d a : Opd)
  | brev (h : Head) (t : Ty) (d a : Opd)
  | bfe (h : Head) (t : Ty) (d a b : Opd)
  | bfi (h : Head) (t : Ty) (d a b c : Opd)
  | cmp (h : Head) (t : Ty) (cc : BitVec 3) (dp : BitVec 3) (a b : Opd)
  | cmpImm (h : Head) (t : Ty) (cc : BitVec 3) (dp : BitVec 3) (a : Opd) (imm : BitVec 26)
  | sel (h : Head) (t : Ty) (d a b : Opd) (cp : BitVec 3)
  | pand (h : Head) (dp ap bp : BitVec 3)
  | por (h : Head) (dp ap bp : BitVec 3)
  | pxor (h : Head) (dp ap bp : BitVec 3)
  | pnot (h : Head) (dp ap : BitVec 3)
  | leaPriv (h : Head) (d a b : Opd)
  | leaPrivSelf (h : Head) (d a : Opd)
  | srGet (h : Head) (d : Opd) (n : SReg)
  | srSet (h : Head) (n : SReg) (a : Opd)
  -- cross-lane (R275-R281)
  | shflIdx (h : Head) (t : Ty) (seg : BitVec 3) (d a b : Opd) (pd : Option (BitVec 3))
  | shflUp (h : Head) (t : Ty) (seg : BitVec 3) (d a b : Opd) (pd : Option (BitVec 3))
  | shflDown (h : Head) (t : Ty) (seg : BitVec 3) (d a b : Opd) (pd : Option (BitVec 3))
  | shflXor (h : Head) (t : Ty) (seg : BitVec 3) (d a b : Opd) (pd : Option (BitVec 3))
  | voteAny (h : Head) (dp ap : BitVec 3)
  | voteAll (h : Head) (dp ap : BitVec 3)
  | voteBallot (h : Head) (d : Opd) (ap : BitVec 3)
  | scan (h : Head) (t : Ty) (op : BitVec 3) (d a : Opd)
  | scanEx (h : Head) (t : Ty) (op : BitVec 3) (d a : Opd)
  | wred (h : Head) (t : Ty) (op : BitVec 3) (d a : Opd)
  | elect (h : Head) (dp : BitVec 3)
  | xch (h : Head) (t : Ty) (m : BitVec 2) (d a : Opd) (pd : Option (BitVec 3))
  | matchLanes (h : Head) (t : Ty) (d a : Opd)
  -- floating point (R297-R301)
  | fadd (h : Head) (t : Ty) (rm : BitVec 3) (d a b : Opd)
  | fsub (h : Head) (t : Ty) (rm : BitVec 3) (d a b : Opd)
  | fmul (h : Head) (t : Ty) (rm : BitVec 3) (d a b : Opd)
  | ffma (h : Head) (t : Ty) (rm : BitVec 3) (d a b c : Opd)
  | fmin (h : Head) (t : Ty) (d a b : Opd)
  | fmax (h : Head) (t : Ty) (d a b : Opd)
  | fabs (h : Head) (t : Ty) (d a : Opd)
  | fneg (h : Head) (t : Ty) (d a : Opd)
  | fcmp (h : Head) (t : Ty) (cc : BitVec 3) (dp : BitVec 3) (a b : Opd)
  | fclass (h : Head) (t : Ty) (d a : Opd)
  | frcp (h : Head) (t : Ty) (d a : Opd)
  | fsqrt (h : Head) (t : Ty) (rm : BitVec 3) (d a : Opd)
  | frsqrt (h : Head) (t : Ty) (d a : Opd)
  | fexp2 (h : Head) (t : Ty) (d a : Opd)
  | flog2 (h : Head) (t : Ty) (d a : Opd)
  | fsin (h : Head) (t : Ty) (d a : Opd)
  | fcos (h : Head) (t : Ty) (d a : Opd)
  | ftanh (h : Head) (t : Ty) (d a : Opd)
  | fdiv (h : Head) (t : Ty) (rm : BitVec 3) (d a b : Opd)
  | fdot2 (h : Head) (t : Ty) (rm : BitVec 3) (d a b c : Opd)
  | frnd (h : Head) (t : Ty) (rm : BitVec 3) (d a : Opd)
  | fscale (h : Head) (t : Ty) (rm : BitVec 3) (d a b : Opd)
  | hadd2 (h : Head) (t : Ty) (rm : BitVec 3) (d a b : Opd)
  | hmul2 (h : Head) (t : Ty) (rm : BitVec 3) (d a b : Opd)
  | hfma2 (h : Head) (t : Ty) (rm : BitVec 3) (d a b c : Opd)
  -- conversions and formats (R294-R296, R302-R308)
  | cvt (h : Head) (dt : Ty) (st : BitVec 4) (rm : BitVec 3) (isat : Bool) (d a : Opd)
  | cvtPk (h : Head) (fmt : BitVec 3) (hi : Bool) (rm : BitVec 3) (d a b c : Opd)
  | cvtUnpk (h : Head) (fmt : BitVec 3) (idx : BitVec 3) (d a : Opd)
  | mxPack (h : Head) (fmt : BitVec 3) (d a b : Opd)
  | mxUnpk (h : Head) (fmt : BitVec 3) (d a b : Opd)
  | mxScale (h : Head) (fmt : BitVec 3) (d a : Opd)
  | cvtF6 (h : Head) (e3m2 : Bool) (d a : Opd)
  | cvtI4 (h : Head) (signed hi : Bool) (d a : Opd)
  | fmtSetImm (h : Head) (v : BitVec 20)
  | fmtSetReg (h : Head) (a : Opd)
  | fmtGet (h : Head) (d : Opd)
  | fmtGetFlags (h : Head) (d : Opd)
  | fmtGetFlagsClr (h : Head) (d : Opd)
  | fmtSeed (h : Head) (a : Opd)
  -- memory, queues and synchronisation (R311-R339)
  | ld (h : Head) (t : Ty) (acq : Scope) (d a : Opd) (imm : BitVec 26)
  | st (h : Head) (t : Ty) (rel : Scope) (d a : Opd) (imm : BitVec 26)
  | ldx (h : Head) (t : Ty) (ctr : BitVec 4) (d a : Opd) (imm : BitVec 26)
  | ldIdx (h : Head) (t : Ty) (acq : Scope) (s : BitVec 3) (d a b : Opd)
  | stIdx (h : Head) (t : Ty) (rel : Scope) (s : BitVec 3) (d a b : Opd)
  | stq (h : Head) (t : Ty) (rel : Scope) (ce : Bool) (ctr : BitVec 4) (d : Opd)
  | redQ (h : Head) (t : Ty) (op : BitVec 3) (near rel : Bool) (sc : Scope) (ce : Bool)
      (ctr : BitVec 4) (d : Opd)
  | pf (h : Head) (l2 : Bool) (a : Opd) (imm : BitVec 26)
  | waitCnt (h : Head) (ctr : BitVec 4) (a : Option Opd) (imm : BitVec 26)
  | fence (h : Head) (sc : Scope)
  | atom (h : Head) (t : Ty) (op : BitVec 3) (sc : Scope) (ord : Ordering) (d a b : Opd)
  | cas (h : Head) (t : Ty) (sc : Scope) (ord : Ordering) (d a b c : Opd)
  | red (h : Head) (t : Ty) (op : BitVec 3) (near rel : Bool) (sc : Scope) (d a : Opd)
  | ll (h : Head) (t : Ty) (acq : Scope) (d a : Opd) (imm : BitVec 26)
  | sc (h : Head) (t : Ty) (scope : Scope) (ord : Ordering) (d a : Opd) (pd : BitVec 3)
  | waitAddr (h : Head) (t : Ty) (cc : BitVec 3) (sc : Scope) (dp : BitVec 3) (a b c : Opd)
  | rvInit (h : Head) (rv : BitVec 5) (na : ImmOr 8) (nb : ImmOr 16)
  | rvArr (h : Head) (rv : BitVec 5)
  | rvWait (h : Head) (rv : BitVec 5) (n : ImmOr 16)
  | rvTest (h : Head) (rv : BitVec 5) (dp : BitVec 3) (n : ImmOr 16)
  | gSet (h : Head) (slot : BitVec 4) (ap : BitVec 3)
  | sigq (h : Head) (a d : Opd)
  -- engines, matrix and system (R340-R370)
  | cp (h : Head) (c : Cmd)
  | cpFeed (h : Head) (c : Cmd)
  | cpYield (mark : Bool) (ofs : BitVec 16)
  | cpColl (h : Head) (c : Cmd)
  | cpPut (h : Head) (c : Cmd)
  | cpGet (h : Head) (c : Cmd)
  | mma (h : Head) (c : Cmd)
  | mmaTwin (h : Head) (c : Cmd)
  | mmaBud (mark : Bool) (d : Opd)
  | accZeroImm (h : Head) (dst : BitVec 6) (n : BitVec 16) (slot : Option (BitVec 4))
      (kind : BitVec 2) (index : BitVec 5)
  | accZeroReg (h : Head) (dst src : BitVec 6) (slot : Option (BitVec 4))
      (kind : BitVec 2) (index : BitVec 5)
  | accLd (h : Head) (d a : Opd)
  | accFin (h : Head) (chk : Bool) (shape : BitVec 5) (d a b c : Opd)
  | wb (h : Head) (a b : Opd)
  | ii (h : Head) (a b : Opd)
  | fbar (mark : Bool)
  | nodePost (h : Head) (a : Opd)
  | discard (h : Head) (a b : Opd)
  | rngInv (h : Head) (a : Opd)
  | rngInvAll (h : Head) (a : Opd)
  | rngSync (mark : Bool)
  | zline (h : Head) (a : Opd)
  | fenceHb (mark : Bool)
  | ebbSlide (h : Head) (d a b c : Opd)
  | ebbStat (h : Head) (d a : Opd)
  | halt (h : Head)
  | shortPair (mark : Bool) (h1 h2 : Half)
  -- a word that is none of them
  | illegalInstrWord (w : Word) (why : Illegal)
  -- EVENTS of the package itself. Results and scheduling of streams
  | loadReply (flight : Nat)
  | queueDataArrival (flight : Nat)
  | fairnessRotation (core quarter : Nat) (slice : Slice)
  -- range walkers
  | rangeWalkStart (die : Nat)
  | rangeWalkComplete (core ctx region : Nat)
  -- L1 and instruction cache
  | missFill (core entry : Nat)
  | instructionFetchFill (st : StreamRef) (addr : Word)
  -- messages, named by their serial number in the network
  | resteer (m : Nat)
  | stranded (m : Nat)
  | read (m : Nat)
  | data (m : Nat)
  | store (m : Nat)
  | homeAtomic (m : Nat)
  | homeReduction (m : Nat)
  | stack (m : Nat)
  | upd (m : Nat)
  | uack (m : Nat)
  | inv (m : Nat)
  | iack (m : Nat)
  | evn (m : Nat)
  | ureq (m : Nat)
  | ugrant (m : Nat)
  | gather (m : Nat)
  | delta (m : Nat)
  | nodelta (m : Nat)
  | dwb (m : Nat)
  | retry (m : Nat)
  | retryReissue (r : Nat)
  | discardAtHome (m : Nat)
  -- memory controllers
  | memoryRequestIssue (chan bank : Nat)
  | hotRowHoldEnd (chan bank fn : Nat)
  | refreshWindowEnd (chan bank : Nat)
  | memoryFill (line : Nat)
  -- the Ebb engines
  | slideStartCommit (slot : Nat)
  | ebbStep (slot : Nat)
  | ebbStepComplete (slot : Nat)
  | slideCompletionCommit (slot : Nat)
  | slideReport (slot : Nat)
  -- engines
  | emissionApply (n : Nat)
  | commandStart (cmd : Nat)
  | commandComplete (cmd : Nat)
  | mmaRunStart (cmd : Nat) (duplicateDiffers : Bool)
  | mmaRunEnd (cmd : Nat)
  -- waiting streams, halts and traps
  | heartbeatTick (die : Nat)
  | waitAddrWake (st : StreamRef)
  | stalemateDetect (team : Nat)
  | haltArrival (team warp : Nat) (slice : Slice) (skid : Nat)
  | trapRecordWrite (team : Nat) (blocks : List Nat)
  | resolveResume (ctx : Nat) (rec : Word)
  | resolveSkip (ctx : Nat) (rec : Word)
  | resolveDiscard (ctx : Nat) (rec : Word)
  -- nodes, teams and the partition
  | teamDispatch (ctx core : Nat)
  | nodeComplete (ctx : Nat) (node : Word)
  | partitionPeriod
  | poolStarvation (ctx : Nat)
  | heldCoreExpiry (core : Nat)
  | preemptComplete
  | teamSave (team : Nat) (blocks : List Nat)
  -- control registers with behaviour of their own
  | fnrstQuiesce (n : Nat)
  | fnrstRotate (n : Nat)
  | fnrstClear (n : Nat)
  | clearSpanDone (n : Nat)
  | fnrstIdle (n : Nat)
  -- Headland's mailbox commands: mailbox c of a context, or 64 of the host
  | sensors (mbx : Nat)
  | log (mbx : Nat)
  | attest (mbx : Nat)
  | fwstage (mbx : Nat)
  | fwcommit (mbx : Nat)
  | keyswap (mbx : Nat)
  | power (mbx : Nat)
  -- EVENTS that come from outside, or from a write of a register
  -- the peers' requests and the host's accesses
  | remoteRequest (tag : BitVec 16) (ctx : Nat) (op : RemoteOp) (ticket : Nat)
  | cxlMemRead (port : Nat) (addr : BitVec 52) (len tag : Nat)
  | cxlMemWrite (port : Nat) (addr : BitVec 52) (bytes : List Byte)
  | hostSharedRequest (port : Nat) (addr : BitVec 52)
  | hostOwnershipRequest (port : Nat) (addr : BitVec 52)
  | hostWriteback (port : Nat) (addr : BitVec 52) (bytes : List Byte)
  | backInvalidationResponse (line : Nat) (hi : Bool) (modified : Option (List Byte))
  | hostSnoop (line : Nat) (hi invalidate : Bool)
  | cxlCacheFill (line : Nat) (hi : Bool) (bytes : List Byte)
  | portLinkDown (port : Nat)
  | portLinkUp (port : Nat)
  -- contexts, losses and errors
  | contextFatal (ctx : Nat)
  | dieLoss (l : Loss)
  | uncorrectableError (e : ErrSite)
  | correctedError (e : ErrSite)
  | contextDestruction (ctx : Nat)
  | coreRemovedFromService (a : Agent)
  -- writes of control registers
  | ctxctlRunSet (ctx : Nat) (v : Word)
  | ctxctlRunClear (ctx : Nat) (v : Word)
  | amapEntryValidate (n : Nat) (v : Word)
  | amapWerrClear (v : Word)
  | hdmWindowValidate (n : Nat) (v : Word)
  | fnsvcWrite (n : Nat) (v : Word)
  | preemptGo (v : Word)
  | fnrstGo (n : Nat) (v : Word)
  | hldoorRing (v : Word)
  | registerWrite (r : Reg) (v : Word)
  -- cold start, clocks, temperature and power
  | coldStart (selfTest : Bool)
  | preheatComplete
  | preheatTimeout
  | hbmTrainingComplete (failure : Option (Nat × Bool))
  | droopStretch (die : Nat) (mhz : BitVec 16)
  | railRecover (die : Nat)
  | hbmCold (stack : Nat) (temp : BitVec 16)
  | warmingLoadEnd (stack : Nat)
  | hbmHot (stack : Nat) (temp : BitVec 16)
  | hbmCooled (stack : Nat)
  | junctionHot (die : Nat) (temp : BitVec 16)
  | junctionCooled (die : Nat)
  | powerOverCap (watts : BitVec 16)
  | retrainStart (stack pc : Nat)
  | tsvGroupDone (stack pc : Nat)
  -- the fabric
  | peerTimeout (cmd : Nat)
  | remoteResponse (cmd : Nat) (r : Reply)
  | fabricPortLoss (port : Nat)
  deriving DecidableEq, Repr

end Sys2Proof
end

