-- ==== Sys2Proof/Machine/Num.lean ====
section
/-! DEFINITION. Number formats and exact arithmetic (R282 to R290, R298, R301, R322): a finite value is a sign,
a natural mantissa and a power of two; a result is computed exactly and rounded once. -/

namespace Sys2Proof.Machine

/-- A floating-point format (R283). -/
structure Fmt where
  ebits : Nat
  fbits : Nat
  /-- 0: infinities and NaNs at the top exponent; 1: E4M3; 2: every code finite -/
  kind : Nat
  deriving DecidableEq, Repr

def Fmt.f16 : Fmt := ⟨5, 10, 0⟩
def Fmt.bf16 : Fmt := ⟨8, 7, 0⟩
def Fmt.f32 : Fmt := ⟨8, 23, 0⟩
def Fmt.f64 : Fmt := ⟨11, 52, 0⟩
def Fmt.f48 : Fmt := ⟨11, 36, 0⟩
def Fmt.e4m3 : Fmt := ⟨4, 3, 1⟩
def Fmt.e5m2 : Fmt := ⟨5, 2, 0⟩
def Fmt.e3m2 : Fmt := ⟨3, 2, 2⟩
def Fmt.e2m3 : Fmt := ⟨2, 3, 2⟩
def Fmt.e2m1 : Fmt := ⟨2, 1, 2⟩

def Fmt.bias (f : Fmt) : Nat := 2 ^ (f.ebits - 1) - 1
/-- Significant bits. -/
def Fmt.prec (f : Fmt) : Nat := f.fbits + 1
/-- Exponent of the unit of the subnormals. -/
def Fmt.qmin (f : Fmt) : Int := 1 - f.bias - f.fbits
/-- Exponent of the smallest normal. -/
def Fmt.emin (f : Fmt) : Int := 1 - f.bias
/-- Code of the largest finite magnitude. -/
def Fmt.maxCode (f : Fmt) : Nat :=
  match f.kind with
  | 0 => (2 ^ f.ebits - 1) * 2 ^ f.fbits - 1
  | 1 => 0x7E
  | _ => 2 ^ (f.ebits + f.fbits) - 1
/-- Code of infinity. -/
def Fmt.infCode (f : Fmt) : Nat := (2 ^ f.ebits - 1) * 2 ^ f.fbits
/-- The canonical NaN (R284). -/
def Fmt.nanCode (f : Fmt) : Nat :=
  if f.kind = 1 || f.fbits = 2 then 0x7F else (2 ^ f.ebits - 1) * 2 ^ f.fbits + 2 ^ (f.fbits - 1)
/-- The sign bit. -/
def Fmt.signBit (f : Fmt) (neg : Bool) : Nat := if neg then 2 ^ (f.ebits + f.fbits) else 0

/-- A value: NaN (signalling or not), infinity, or (-1)^neg * m * 2^e. -/
inductive Val where
  | nan (sig : Bool)
  | inf (neg : Bool)
  | fin (neg : Bool) (m : Nat) (e : Int)
  deriving DecidableEq, Repr

/-- Reads a code (R283, R284). -/
def Fmt.val (f : Fmt) (x : Nat) : Val :=
  let frac := x % 2 ^ f.fbits
  let ex := x / 2 ^ f.fbits % 2 ^ f.ebits
  let neg := x / 2 ^ (f.ebits + f.fbits) % 2 == 1
  if f.kind = 0 && ex = 2 ^ f.ebits - 1 then
    if frac = 0 then .inf neg else .nan (f.fbits != 2 && decide (frac < 2 ^ (f.fbits - 1)))
  else if f.kind = 1 && ex = 15 && frac = 7 then .nan false
  else if ex = 0 then .fin neg frac f.qmin
  else .fin neg (frac + 2 ^ f.fbits) (f.qmin + (ex - 1))

/-- Length in bits. -/
def bitLen (m : Nat) : Nat := if m = 0 then 0 else Nat.log2 m + 1

/-- Rounding modes (R287): 0 RNE, 1 RTZ, 2 RUP, 3 RDN, 4 STOCH. -/
abbrev Mode := Nat

/-- Whether the magnitude goes up: kept part k, remainder rem of 2^sh, draw r (R287, R288). -/
def roundsUp (mode : Mode) (r : Nat) (neg : Bool) (k rem sh : Nat) : Bool :=
  match mode with
  | 0 => decide (2 ^ sh < 2 * rem) || (2 * rem == 2 ^ sh && k % 2 == 1)
  | 1 => false
  | 2 => !neg && rem != 0
  | 3 => neg && rem != 0
  | _ => decide (65536 ≤ rem * 65536 / 2 ^ sh + r)

/-- m * 2^e in units of 2^q: the rounded count of units, and whether a remainder was lost. A remainder far below
the unit is replaced by one as far below every tie and draw. -/
def roundUnits (mode : Mode) (r : Nat) (neg : Bool) (m : Nat) (e q : Int) : Nat × Bool :=
  if q ≤ e then (m * 2 ^ (e - q).toNat, false)
  else
    let sh := (q - e).toNat
    if bitLen m + 20 < sh then
      if m = 0 then (0, false) else ((if roundsUp mode r neg 0 1 24 then 1 else 0), true)
    else
      let k := m / 2 ^ sh
      let rem := m % 2 ^ sh
      (if roundsUp mode r neg k rem sh then k + 1 else k, rem != 0)

/-- A rounding into a format before its range is applied. -/
structure Rounded where
  /-- code of the magnitude; meaningless on overflow -/
  code : Nat
  inexact : Bool
  tiny : Bool
  tooBig : Bool
  deriving DecidableEq, Repr

/-- Rounds a non-zero magnitude (R287): unbounded exponent first, then the format's range. -/
def Fmt.round (f : Fmt) (mode : Mode) (r : Nat) (neg : Bool) (m : Nat) (e : Int) : Rounded :=
  let qu : Int := e + bitLen m - f.prec
  let q := max qu f.qmin
  let (k, ix) := roundUnits mode r neg m e q
  let (k, q) := if k = 2 ^ f.prec then (2 ^ f.fbits, q + 1) else (k, q)
  let code := if k < 2 ^ f.fbits then k else ((q - f.qmin).toNat + 1) * 2 ^ f.fbits + (k - 2 ^ f.fbits)
  let ku := (roundUnits mode r neg m e qu).1
  let tiny := decide ((bitLen ku : Int) + qu - 1 < f.emin)
  ⟨code, ix, tiny && m != 0, decide (f.maxCode < code)⟩

/-- Exception flags (R293): bit 0 NX, 1 UF, 2 OF, 3 DZ, 4 NV. -/
abbrev Fl := BitVec 5
def flNX : Fl := 1
def flUFNX : Fl := 3
def flOFNX : Fl := 5
def flDZ : Fl := 8
def flNV : Fl := 16

/-- Infinity, rather than the largest finite, on overflow (R287). -/
def overInf (mode : Mode) (neg : Bool) : Bool :=
  match mode with
  | 0 => true
  | 1 => false
  | 2 => !neg
  | 3 => neg
  | _ => true

/-- Rounds (-1)^neg * m * 2^e into a format with infinities, with its flags (R287, R298). -/
def Fmt.put (f : Fmt) (mode : Mode) (r : Nat) (neg : Bool) (m : Nat) (e : Int) : Nat × Fl :=
  if m = 0 then (f.signBit neg, 0)
  else
    let x := f.round mode r neg m e
    if x.tooBig then (f.signBit neg + (if overInf mode neg then f.infCode else f.maxCode), flOFNX)
    else (f.signBit neg + x.code, if x.inexact then (if x.tiny then flUFNX else flNX) else 0)

/-- The canonical NaN, with NV when asked. -/
def Fmt.nan (f : Fmt) (nv : Bool) : Nat × Fl := (f.nanCode, if nv then flNV else 0)

def Val.isNan : Val → Bool
  | .nan _ => true
  | _ => false

def Val.isSig : Val → Bool
  | .nan b => b
  | _ => false

def Val.neg : Val → Val
  | .nan b => .nan b
  | .inf s => .inf (!s)
  | .fin s m e => .fin (!s) m e

/-- A signed mantissa. -/
def signed (neg : Bool) (m : Nat) : Int := if neg then -(m : Int) else m

/-- The exact sum of two finite values, as a signed mantissa and an exponent. -/
def sumExact (n1 : Bool) (m1 : Nat) (e1 : Int) (n2 : Bool) (m2 : Nat) (e2 : Int) : Int × Int :=
  let e := min e1 e2
  (signed n1 (m1 * 2 ^ (e1 - e).toNat) + signed n2 (m2 * 2 ^ (e2 - e).toNat), e)

/-- Rounds an exact sum; z1 and z2 are the signs of the operands, for an exact zero (R287). -/
def Fmt.putSum (f : Fmt) (mode : Mode) (z1 z2 : Bool) (s : Int × Int) : Nat × Fl :=
  if s.1 = 0 then (f.signBit (if z1 = z2 then z1 else mode == 3), 0)
  else f.put mode 0 (decide (s.1 < 0)) s.1.natAbs s.2

/-- Addition (R298). -/
def Fmt.add (f : Fmt) (mode : Mode) (x y : Val) : Nat × Fl :=
  match x, y with
  | .nan a, y => f.nan (a || y.isSig)
  | .inf _, .nan b => f.nan b
  | .fin .., .nan b => f.nan b
  | .inf a, .inf b => if a = b then (f.signBit a + f.infCode, 0) else f.nan true
  | .inf a, .fin .. => (f.signBit a + f.infCode, 0)
  | .fin .., .inf b => (f.signBit b + f.infCode, 0)
  | .fin n1 m1 e1, .fin n2 m2 e2 => f.putSum mode n1 n2 (sumExact n1 m1 e1 n2 m2 e2)

/-- The exact product, or the kind of invalid operation. -/
def mulVal (x y : Val) : Val × Bool :=
  match x, y with
  | .nan a, y => (.nan false, a || y.isSig)
  | .inf _, .nan b => (.nan false, b)
  | .fin .., .nan b => (.nan false, b)
  | .inf a, .inf b => (.inf (a != b), false)
  | .inf a, .fin b m _ => if m = 0 then (.nan false, true) else (.inf (a != b), false)
  | .fin a m _, .inf b => if m = 0 then (.nan false, true) else (.inf (a != b), false)
  | .fin n1 m1 e1, .fin n2 m2 e2 => (.fin (n1 != n2) (m1 * m2) (e1 + e2), false)

def Fmt.mul (f : Fmt) (mode : Mode) (x y : Val) : Nat × Fl :=
  match mulVal x y with
  | (.nan _, nv) => f.nan nv
  | (.inf s, _) => (f.signBit s + f.infCode, 0)
  | (.fin s m e, _) => f.put mode 0 s m e

/-- x * y + z with one rounding (R298). -/
def Fmt.fma (f : Fmt) (mode : Mode) (x y z : Val) : Nat × Fl :=
  let (p, nv) := mulVal x y
  let (v, fl) := f.add mode p z
  (v, if nv || z.isSig then fl ||| flNV else fl)

/-- Division (R298): enough quotient bits with the remainder as a last bit. -/
def Fmt.div (f : Fmt) (mode : Mode) (x y : Val) : Nat × Fl :=
  match x, y with
  | .nan a, y => f.nan (a || y.isSig)
  | .inf _, .nan b => f.nan b
  | .fin .., .nan b => f.nan b
  | .inf _, .inf _ => f.nan true
  | .inf a, .fin b .. => (f.signBit (a != b) + f.infCode, 0)
  | .fin a .., .inf b => (f.signBit (a != b), 0)
  | .fin a m1 e1, .fin b m2 e2 =>
    if m2 = 0 then (if m1 = 0 then f.nan true else (f.signBit (a != b) + f.infCode, flDZ))
    else if m1 = 0 then (f.signBit (a != b), 0)
    else
      let sh := f.prec + 4 + bitLen m2
      let n := m1 * 2 ^ sh
      f.put mode 0 (a != b) (2 * (n / m2) + (if n % m2 = 0 then 0 else 1)) (e1 - e2 - sh - 1)

/-- Integer square root, bit by bit from 2^k down. -/
def isqrt (n k acc : Nat) : Nat :=
  match k with
  | 0 => if (acc + 1) * (acc + 1) ≤ n then acc + 1 else acc
  | k + 1 => isqrt n k (if (acc + 2 ^ (k + 1)) * (acc + 2 ^ (k + 1)) ≤ n then acc + 2 ^ (k + 1) else acc)

/-- The square root of m * 2^e to `bits` bits and a last bit for the remainder: mantissa and exponent. -/
def sqrtDyadic (bits m : Nat) (e : Int) : Nat × Int :=
  let odd := (e % 2 != 0)
  let m := if odd then 2 * m else m
  let e := if odd then e - 1 else e
  let n := m * 2 ^ (2 * bits)
  let k := bitLen n / 2 + 1
  let s := isqrt n k 0
  (2 * s + (if s * s = n then 0 else 1), e / 2 - bits - 1)

/-- Square root (R298, R299). -/
def Fmt.sqrt (f : Fmt) (mode : Mode) (x : Val) : Nat × Fl :=
  match x with
  | .nan a => f.nan a
  | .inf neg => if neg then f.nan true else (f.infCode, 0)
  | .fin neg m e =>
    if m = 0 then (f.signBit neg, 0)
    else if neg then f.nan true
    else let (s, q) := sqrtDyadic (f.prec + 4) m e; f.put mode 0 false s q

/-! Functions with an error bound (R301) -/

/-- A non-zero magnitude known to many more bits than any format has: (lo + 1/2) * 2^e, or lo * 2^e when exact.
Formats of 16 bits take the nearest even. The others take the part's choice within the bound: the largest value
not above the exact one, up to `below` values under it, or up to `above` values over it. -/
def Fmt.bounded (f : Fmt) (fn : Nat) (x : Nat) (below above : Nat) (neg : Bool) (lo : Nat) (e : Int) (exact : Bool) :
    Nat × Fl :=
  if exact then f.put 0 0 neg lo e
  else if f.prec ≤ 11 then
    let v := f.put 0 0 neg (2 * lo + 1) (e - 1)
    (v.1, v.2 ||| flNX)
  else
    let d := f.round 1 0 neg (2 * lo + 1) (e - 1)
    if d.tooBig then (f.signBit neg + f.infCode, flOFNX)
    else
      let c := d.code + Config.ulpChoice fn (BitVec.ofNat 64 x) % (below + above + 1) - below
      (f.signBit neg + c, if f.maxCode < c then flOFNX else if d.tiny then flUFNX else flNX)

/-- Reciprocal. -/
def Fmt.rcp (f : Fmt) (bits : Nat) (x : Val) : Nat × Fl :=
  match x with
  | .nan a => f.nan a
  | .inf s => (f.signBit s, 0)
  | .fin s m e =>
    if m = 0 then (f.signBit s + f.infCode, flDZ)
    else
      let sh := f.prec + 20 + bitLen m
      let n := 2 ^ sh
      f.bounded 0 bits 0 1 s (n / m) (-e - sh) (n % m == 0)

/-- Reciprocal square root: from the root of 1 / m to many bits. -/
def Fmt.rsqrt (f : Fmt) (bits : Nat) (x : Val) : Nat × Fl :=
  match x with
  | .nan a => f.nan a
  | .inf neg => if neg then f.nan true else (0, 0)
  | .fin neg m e =>
    if m = 0 then (f.signBit neg + f.infCode, flDZ)
    else if neg then f.nan true
    else
      let odd := (e % 2 != 0)
      let m := if odd then 2 * m else m
      let e := if odd then e - 1 else e
      let sh := 2 * (f.prec + 20 + bitLen m)
      let n := 2 ^ sh / m
      let s := isqrt n (bitLen n / 2 + 1) 0
      f.bounded 1 bits 0 1 false s (-(e / 2) - sh / 2) (s * s * m == 2 ^ sh)

/-! Fixed point with 400 fraction bits, rounded down at each step; the sums err by less than 2^-380. -/

def fpBits : Nat := 400
def fpOne : Nat := 2 ^ 400
/-- ln 2, its reciprocal (log2 of e), and pi / 2 with 600 fraction bits. -/
def fpLn2 : Nat :=
  0xb17217f7d1cf79abc9e3b39803f2f6af40f343267298b62d8a0d175b8baafa2be7b876206debac98559552fb4afa1b10ed2e
def fpLog2e : Nat :=
  0x171547652b82fe1777d0ffda0d23a7d11d6aef551bad2b4b1164a2cd9a342648fbc3887eeaa2ed9ac49b25eeb82d7c167d521
def fpHalfPi : Nat :=
  0x1921fb54442d18469898cc51701b839a252049c1114cf98e804177d4c76273644a29410f31c6809bbdf2a33679a748636605614dbe4be286e9fc26adadaa3848bc90b6aecc4bcfd8de89885

def fpMul (a b : Nat) : Nat := a * b / fpOne

/-- The sum of y^k / k! from term k on, with its first term given. -/
def fpExpSum (y term k fuel : Nat) : Nat :=
  match fuel with
  | 0 => 0
  | n + 1 => term + fpExpSum y (fpMul term y / k) (k + 1) n

/-- 2^f for 0 <= f < 1. -/
def fpExp2 (x : Nat) : Nat := fpExpSum (fpMul x fpLn2) fpOne 1 110

/-- Sum of the terms (-1)^i y^i / ((k)(k+1)...), y = r^2, for sine (k = 2) and cosine (k = 1). -/
def fpTrig (y : Nat) (term k fuel : Nat) : Int :=
  match fuel with
  | 0 => 0
  | n + 1 => term - fpTrig y (fpMul term y / (k * (k + 1))) (k + 2) n

/-- Sine and cosine of 0 <= r < pi / 2. -/
def fpSin (r : Nat) : Nat := (fpTrig (fpMul r r) r 2 60).toNat
def fpCos (r : Nat) : Nat := (fpTrig (fpMul r r) fpOne 1 60).toNat

/-- Sum of z^(2i+1) / (2i+1). -/
def fpAtanh (z2 p k fuel : Nat) : Nat :=
  match fuel with
  | 0 => 0
  | n + 1 => p / k + fpAtanh z2 (fpMul p z2) (k + 2) n

/-- log2 of y, 1 <= y < 2. -/
def fpLog2 (y : Nat) : Nat :=
  let z := (y - fpOne) * fpOne / (y + fpOne)
  fpMul (2 * fpAtanh (fpMul z z) z 1 140) fpLog2e

/-- The error allowed for in a fixed-point result. -/
def fpErr : Nat := 2 ^ 20

/-- m * 2^e in fixed point, rounded down. -/
def fpOf (m : Nat) (e : Int) : Nat := if 0 ≤ e + 400 then m * 2 ^ (e + 400).toNat else m / 2 ^ (-(e + 400)).toNat

/-- Result of a function whose magnitude in fixed point is at least v less the error, scaled by 2^n. -/
def Fmt.fpPut (f : Fmt) (fn bits : Nat) (neg : Bool) (v : Nat) (n : Int) : Nat × Fl :=
  f.bounded fn bits 1 2 neg (v - fpErr) (n - 400) false

/-- 2^x (R301). -/
def Fmt.exp2 (f : Fmt) (bits : Nat) (x : Val) : Nat × Fl :=
  match x with
  | .nan a => f.nan a
  | .inf neg => (if neg then 0 else f.infCode, 0)
  | .fin neg m e =>
    if m = 0 then f.put 0 0 false 1 0
    else if 12 < (bitLen m : Int) + e then (if neg then f.bounded 2 bits 1 2 false 1 (-5000) false else (f.infCode, flOFNX))
    else
      let v := fpOf m e
      let exact := v % fpOne == 0 && decide (0 ≤ e + 400)
      let n : Int := if neg then -((v / fpOne : Nat) : Int) - (if v % fpOne = 0 then 0 else 1) else (v / fpOne : Nat)
      let fr := if neg then (fpOne - v % fpOne) % fpOne else v % fpOne
      if exact then f.put 0 0 false 1 n else f.fpPut 2 bits false (fpExp2 fr) n

/-- log2 x (R301). -/
def Fmt.log2 (f : Fmt) (bits : Nat) (x : Val) : Nat × Fl :=
  match x with
  | .nan a => f.nan a
  | .inf neg => if neg then f.nan true else (f.infCode, 0)
  | .fin neg m e =>
    if m = 0 then (f.signBit true + f.infCode, flDZ)
    else if neg then f.nan true
    else
      let n : Int := e + bitLen m - 1
      if m = 2 ^ (bitLen m - 1) then f.put 0 0 (decide (n < 0)) n.natAbs 0
      else
        let l := fpLog2 (m * 2 ^ (400 - (bitLen m - 1)))
        let z : Int := n * (fpOne : Int) + l
        f.fpPut 3 bits (decide (z < 0)) z.natAbs 0

/-- The quadrant and the rest of a magnitude modulo pi / 2. -/
def reduce (m : Nat) (e : Int) : Nat × Nat :=
  let x := if 0 ≤ e + 600 then m * 2 ^ (e + 600).toNat else m / 2 ^ (-(e + 600)).toNat
  (x / fpHalfPi % 4, x % fpHalfPi / 2 ^ 200)

/-- sin x and cos x (R301). -/
def Fmt.trig (f : Fmt) (bits : Nat) (cosine : Bool) (x : Val) : Nat × Fl :=
  match x with
  | .nan a => f.nan a
  | .inf _ => f.nan true
  | .fin neg m e =>
    if m = 0 then (if cosine then f.put 0 0 false 1 0 else (f.signBit neg, 0))
    else
      let (k, r) := reduce m e
      let k := if cosine then k + 1 else k
      let v := if k % 2 = 0 then fpSin r else fpCos r
      let s := (k / 2 % 2 == 1) != (neg && !cosine)
      f.fpPut (if cosine then 5 else 4) bits s v 0

/-- tanh x (R301): (1 - t) / (1 + t) with t = e^(-2|x|). -/
def Fmt.tanh (f : Fmt) (bits : Nat) (x : Val) : Nat × Fl :=
  match x with
  | .nan a => f.nan a
  | .inf neg => f.put 0 0 neg 1 0
  | .fin neg m e =>
    if m = 0 then (f.signBit neg, 0)
    else
      let t := if 8 < (bitLen m : Int) + e then 0 else
        let y := fpMul (2 * fpOf m e) fpLog2e
        let n := y / fpOne
        let fr := y % fpOne
        if fr = 0 then fpOne / 2 ^ n else fpExp2 (fpOne - fr) / 2 ^ (n + 1)
      f.fpPut 6 bits neg ((fpOne - t) * fpOne / (fpOne + t)) 0

/-! Conversion into 8-bit floats (R290) -/

/-- Infinity into an 8-bit float. -/
def Fmt.inf8 (f : Fmt) (sat neg : Bool) : Nat :=
  f.signBit neg + (if sat then f.maxCode else if f.kind = 1 then 0x7F else f.infCode)

/-- Rounds into an 8-bit float under SAT. -/
def Fmt.put8 (f : Fmt) (sat : Bool) (mode : Mode) (r : Nat) (neg : Bool) (m : Nat) (e : Int) : Nat × Fl :=
  if m = 0 then (f.signBit neg, 0)
  else
    let x := f.round mode r neg m e
    if x.tooBig then
      ((if sat || overInf mode neg then f.inf8 sat neg else f.signBit neg + f.maxCode), flOFNX)
    else (f.signBit neg + x.code, if x.inexact then (if x.tiny then flUFNX else flNX) else 0)

/-! Integers -/

/-- A value of n bits as two's complement. -/
def toInt (n x : Nat) : Int := if x % 2 ^ n < 2 ^ (n - 1) then ((x % 2 ^ n : Nat) : Int) else (x % 2 ^ n : Nat) - (2 ^ n : Nat)

/-- An integer wrapped to n bits. -/
def ofInt (n : Nat) (z : Int) : Nat := (z % (2 ^ n : Nat)).toNat

/-- Width of an integer type in bits, and whether it is signed. -/
def Ty.ibits : Ty → Nat
  | .z8 | .i8 => 8
  | .z16 | .i16 => 16
  | .z64 | .i64 => 64
  | _ => 32

def Ty.signed : Ty → Bool
  | .i8 | .i16 | .i32 | .i64 => true
  | _ => false

/-- The value of an operand of an integer type. -/
def Ty.int (t : Ty) (x : Nat) : Int := if Ty.signed t then toInt (Ty.ibits t) x else ((x % 2 ^ Ty.ibits t : Nat) : Int)

/-- The format of a floating-point type, element format for a pair. -/
def Ty.fmt : Ty → Fmt
  | .f16 | .f16x2 => .f16
  | .bf16 | .bf16x2 => .bf16
  | .f64 => .f64
  | _ => .f32

/-- Bytes of an element in memory (R39, R315). -/
def Ty.bytes : Ty → Nat
  | .z8 | .i8 => 1
  | .z16 | .i16 | .f16 | .bf16 => 2
  | .z64 | .i64 | .f64 => 8
  | .z128 => 16
  | _ => 4

/-! Atomic operations (R321, R322) -/

/-- A floating add of an atomic: exact, nearest even, no flags. -/
def addRne (f : Fmt) (x y : Nat) : Nat := (f.add 0 (f.val x) (f.val y)).1

/-- One operation on an element: old value, operand. -/
def redElem (op : BitVec 3) (t : Ty) (old x : Nat) : Nat :=
  match op.toNat with
  | 0 =>
    match t with
    | .f32 | .f64 => addRne (Ty.fmt t) old x
    | .bf16x2 | .f16x2 =>
        addRne (Ty.fmt t) (old % 65536) (x % 65536) + 65536 * addRne (Ty.fmt t) (old / 65536) (x / 65536)
    | _ => (old + x) % 2 ^ Ty.ibits t
  | 1 => Nat.land old x
  | 2 => Nat.lor old x
  | 3 => Nat.xor old x
  | 4 => if Ty.int t x < Ty.int t old then x else old
  | 5 => if Ty.int t old < Ty.int t x then x else old
  | _ => x

end Sys2Proof.Machine
end

