-- ==== Sys2Proof/WellFormed.lean ====
section
/-! DEFINITION. Which instructions of `Syntax` an instruction word of a slice can carry: the limits of
10 to 14 on operands, types, scopes and immediates, as a Bool per constructor. Event rows have no word. -/

namespace Sys2Proof

/-- How many registers an operand takes: one, an even pair of the C-slice, or the two halves of `.z128` (R243). -/
inductive Wd where
  | w32 | w64 | w128
  deriving DecidableEq, Repr

/-- The register width of an operand of a type (R243, R251). -/
def Ty.wd : Ty → Wd
  | .z64 | .i64 | .f64 => .w64
  | .z128 => .w128
  | _ => .w32

/-- The TYPE code 1 to 8 (R236). -/
def Ty.isInt : Ty → Bool
  | .z8 | .z16 | .z32 | .z64 | .i8 | .i16 | .i32 | .i64 => true
  | _ => false

/-- The four integer types of R251 and R264. -/
def Ty.isInt4 : Ty → Bool
  | .z32 | .i32 | .z64 | .i64 => true
  | _ => false

/-- The types of `fadd` (R299). -/
def Ty.isFloat : Ty → Bool
  | .f16 | .bf16 | .f32 | .f64 => true
  | _ => false

/-- The paired 16-bit types. -/
def Ty.isPair : Ty → Bool
  | .f16x2 | .bf16x2 => true
  | _ => false

/-- The types of the transcendental functions (R299). -/
def Ty.isShortFloat : Ty → Bool
  | .f16 | .bf16 | .f32 => true
  | _ => false

/-- The types of a load or store (R312). -/
def Ty.isMem (t : Ty) : Bool := t.isInt || t == .z128

/-- Codes 1 to 12 of R236, the destination types of `cvt` (R302). -/
def Ty.isCvt (t : Ty) : Bool := t.isInt || t.isFloat

/-- The operand types that an operation code of `red` and `red.q` accepts (R321). -/
def redTypes (op : BitVec 3) (t : Ty) : Bool :=
  if op = 0 then t.isInt4 || t == .f32 || t == .f64 || t.isPair
  else decide (op ≤ 5) && t.isInt4

/-- The operand types that an operation code of `atom` accepts (R321). -/
def atomTypes (op : BitVec 3) (t : Ty) : Bool :=
  redTypes op t || (op == 6 && (t == .z32 || t == .z64 || t == .z128))

/-- A register number a width may name: even for a pair. -/
def evenFor (w : Wd) (n : Nat) : Bool := w == .w32 || n % 2 == 0

/-- The register numbers that a slice's field may name at a width (R240, R241, R243). -/
def regOk (sl : Slice) (w : Wd) : Opd → Bool
  | .r n => match sl with
    | .a => decide (n.toNat < 32) && (w != .w128 || n.toNat % 2 == 0)
    | .c => evenFor w n.toNat
  | .s n => match sl with
    | .a => decide (n.toNat < 16) && (w != .w128 || n.toNat % 2 == 0)
    | .c => evenFor w n.toNat
  | _ => false

/-- A source operand of a slice (R240, R241, R243). -/
def srcOk (sl : Slice) (w : Wd) : Opd → Bool
  | .k _ => sl == .c && w != .w128
  | .f _ => sl == .c && w != .w128
  | .sa => false
  | o => regOk sl w o

/-- A destination operand of a slice (R240, R241, R243). -/
def dstOk (sl : Slice) (w : Wd) : Opd → Bool
  | .k _ => false
  | .f _ => sl == .a && w != .w128
  | .sa => sl == .a && w != .w128
  | o => regOk sl w o

/-- a0 to a31 only. -/
def aReg : Opd → Bool
  | .r n => decide (n.toNat < 32)
  | _ => false

/-- a0 to a31 and s0 to s15. -/
def aAny (o : Opd) : Bool := regOk .a .w32 o

/-- The scalar that holds an address of `br.ind` and `call.ind` (R258). -/
def scalarOk (sl : Slice) : Opd → Bool
  | .s n => regOk sl .w64 (.s n)
  | _ => false

/-- The address operand of `wb` and `ii` (R363). -/
def wbAddrOk (sl : Slice) (o : Opd) : Bool := regOk sl .w64 o

/-- The length operand of `wb` and `ii`: a register, on the C-slice a constant register too; a pop names none (R240, R363; log
entry 107). -/
def wbLenOk (sl : Slice) : Opd → Bool
  | .k _ => sl == .c
  | o => regOk sl .w32 o

/-- No two operands pop one queue (R243). -/
def popsDistinct : List Opd → Bool
  | .f n :: os => !os.contains (.f n) && popsDistinct os
  | _ :: os => popsDistinct os
  | [] => true

/-- The guard 0b1111 is no guard (R234). -/
def Guard.ok (g : Guard) : Bool := !(g.neg && g.p == 7)

/-- The unguarded form 0b0111. -/
def Guard.always (g : Guard) : Bool := !g.neg && g.p == 7

/-- A head that a word may carry. -/
def Head.ok (h : Head) : Bool := h.guard.ok

/-- A predicate that a word writes: p0 to p6. -/
def pdOk (p : BitVec 3) : Bool := p != 7

/-- An optional dead-source predicate (R275). -/
def pdOpt : Option (BitVec 3) → Bool
  | some p => pdOk p
  | none => true

/-- RMODE codes of R297. -/
def rmOk (rm : BitVec 3) : Bool := decide (rm ≤ 4)

/-- Conditions of R270. -/
def ccOk (cc : BitVec 3) : Bool := decide (cc ≤ 5)

/-- A shift count in the I layout (R266). -/
def shiftImm (t : Ty) (imm : BitVec 26) : Bool := decide (imm.toNat < (if t.wd == .w64 then 64 else 32))

/-- SCOPE and ORD of an atomic (R312). -/
def atomOrd (sc : Scope) (od : Ordering) : Bool := od == .none || sc != .none

/-- SCOPE, ORD and NEAR of a reduction (R312). -/
def redMods (near rel : Bool) (sc : Scope) : Bool :=
  sc != .warp && (!rel || sc != .none) && (!near || sc != .team)

/-- SCOPE and ORD of `sc` (R312). -/
def scMods (sc : Scope) (od : Ordering) : Bool := (sc == .none) == (od == .none)

/-- A rendezvous index that a word may hold (R330). -/
def rvOk (rv : BitVec 5) : Bool := decide (rv ≤ 23)

/-- A register or an immediate of `rv.*` (R331, R334). -/
def immOrOk {n : Nat} (sl : Slice) (lim : Nat) : ImmOr n → Bool
  | .imm v => decide (v.toNat ≤ lim)
  | .reg o => srcOk sl .w32 o

/-- The combinations of AFMT, BFMT and SCALE of R292. -/
def fmtCombo (af bf : BitVec 4) (scale : BitVec 2) : Bool :=
  let h (x : BitVec 4) := x == 1 || x == 2
  let e (x : BitVec 4) := x == 3 || x == 4
  let i (x : BitVec 4) := x == 5 || x == 6
  let m (x : BitVec 4) := x == 7
  (scale == 0 && ((h af && h bf) || (e af && e bf) || (i af && i bf))) ||
  (scale == 1 && (e af || m af) && (e bf || m bf))

/-- A valid format register value (R292). -/
def fmtValid (v : BitVec 32) : Bool :=
  v.extractLsb' 28 4 == 0 && !v.getLsbD 13 && v.extractLsb' 0 8 == 0 &&
  decide (v.extractLsb' 15 3 ≤ 4) && fmtCombo (v.extractLsb' 24 4) (v.extractLsb' 20 4) (v.extractLsb' 18 2)

/-- The format register value that the immediate form of `fmt.set` names (R294). -/
def fmtOfImm (v : BitVec 20) : BitVec 32 := 0#4 ++ v ++ 0#8

/-- Target codes of `cvt.pk` (R303). -/
def pkWide (f : BitVec 3) : Bool := f == 1 || f == 2
def pkByte (f : BitVec 3) : Bool := f == 3 || f == 4

/-- Element formats of the MX instructions (R306). -/
def mxFmt (f : BitVec 3) : Bool := f == 3 || f == 4 || f == 7

/-- Source code and index of `cvt.unpk` (R304). -/
def unpkOk (f idx : BitVec 3) : Bool :=
  (pkWide f && decide (idx ≤ 1)) || (pkByte f && decide (idx ≤ 3)) || f == 7

/-- The register width of a `cvt` source: 0 is F48 in an even pair (R302). -/
def cvtSrcWd (st : BitVec 4) : Wd := if st == 0 || st == 4 || st == 8 || st == 12 then .w64 else .w32

/-- The source code is an integer type. -/
def cvtSrcInt (st : BitVec 4) : Bool := st != 0 && decide (st ≤ 8)

/-- Types and modifiers of `cvt` (R302). -/
def cvtOk (dt : Ty) (st : BitVec 4) (rm : BitVec 3) (isat : Bool) : Bool :=
  dt.isCvt && decide (st ≤ 12) && rmOk rm && (!isat || (dt.isInt && cvtSrcInt st)) && !(st == 0 && dt.isInt)

/-- The immediate of `movhi` (R268). -/
def movhiImm (t : Ty) (hi52 : Bool) (imm : BitVec 26) : Bool :=
  if hi52 then decide (imm.toNat ≤ 4095) else t.wd == .w64 || decide (imm.toNat ≤ 63)

/-- The 64-bit special registers (R272). -/
def SReg.wide : SReg → Bool
  | .hb | .clk | .node | .link => true
  | _ => false

/-- A command register code, a0 to a31 or s0 to s15 (R340). -/
def cmdReg (c : BitVec 6) : Bool := decide (c.toNat < 48)

/-- An even a register of a command (R341). -/
def cmdPair (c : BitVec 6) : Bool := decide (c.toNat < 32) && c.toNat % 2 == 0

/-- KIND and INDEX of a completion target (R340). -/
def targetOk (kind : BitVec 2) (index : BitVec 5) : Bool :=
  if kind == 1 then rvOk index else if kind == 2 then decide (index ≤ 15) else index == 0

/-- Scopes 2 to 5 of a matrix command (R341). -/
def mmaScope : Scope → Bool
  | .team | .cluster | .die | .pkg => true
  | _ => false

/-- The short opcodes whose b field is a register (R246). -/
def ShortOp.regForm : ShortOp → Bool
  | .add | .sub | .mul | .min | .max | .and | .or | .xor | .shl | .shr
  | .fadd | .fsub | .fmul | .fmin | .fmax | .minu | .maxu => true
  | _ => false

/-- The short opcodes whose b field is a shift amount (R246). -/
def ShortOp.shiftForm : ShortOp → Bool
  | .shlI | .shrI | .sarI => true
  | _ => false

/-- The fields of one half of a short pair (R244, R246). -/
def Half.ok (h : Half) : Bool :=
  (match h.b with
   | .reg o => h.op.regForm && (match o with | .r _ | .s _ | .k _ => true | _ => false)
   | .imm v => !h.op.regForm && (!h.op.shiftForm || decide (v.toNat ≤ 31)) &&
       (!(h.op == .nop || h.op == .mov) || v == 0)) &&
  (!(h.op == .nop) || (h.d == 0 && h.a == 0)) && (!(h.op == .movI) || h.a == 0)

/-- The bank of the destination (R245). -/
def Half.dstBank (h : Half) : Option Nat := if h.op == .nop then none else some (h.d.toNat % 4)

/-- The banks of the vector sources (R245). -/
def Half.srcBanks (h : Half) : List Nat :=
  (if h.op == .nop || h.op == .movI then [] else [h.a.toNat % 4]) ++
  (match h.b with
   | .reg (.r n) => [n.toNat % 4]
   | _ => [])

/-- The bank rules of R245. -/
def pairOk (h1 h2 : Half) : Bool :=
  (match h1.dstBank, h2.dstBank with
   | some x, some y => x != y
   | _, _ => true) &&
  [0, 1, 2, 3].all fun b => decide ((h1.srcBanks ++ h2.srcBanks).countP (· == b) ≤ 2)

/-- An instruction word of the slice carries this instruction. -/
def Instr.wf (sl : Slice) : Instr → Bool
  | .nop _ | .ret _ | .join _ | .yield _ | .splitYield _ | .fbar _ | .fenceHb _ => true
  | .exit h | .halt h => h.ok
  | .br h rec _ =>
      if h.guard.always then rec == 0 else h.ok && sl == .a && rec != 0
  | .brQ _ _ _ rec _ => sl == .c && rec != 0
  | .brB h _ _ rec _ => h.ok && sl == .c && rec != 0
  | .brBack _ _ _ rec _ => sl == .a && rec != 0
  | .call _ _ => true
  | .brInd _ a | .callInd _ a => scalarOk sl a
  | .trap h _ => h.ok
  | .add h t _ d a b | .sub h t _ d a b => h.ok && t.isInt4 && dstOk sl t.wd d && srcOk sl t.wd a &&
      srcOk sl t.wd b && popsDistinct [a, b]
  | .mul h t d a b | .mulhi h t d a b | .div h t d a b | .rem h t d a b | .min h t d a b | .max h t d a b
  | .and h t d a b | .or h t d a b | .xor h t d a b | .shl h t d a b | .shr h t d a b | .bfe h t d a b =>
      h.ok && t.isInt4 && dstOk sl t.wd d && srcOk sl t.wd a && srcOk sl t.wd b && popsDistinct [a, b]
  | .rot h t d a b => h.ok && (t == .z32 || t == .z64) && dstOk sl t.wd d && srcOk sl t.wd a &&
      srcOk sl t.wd b && popsDistinct [a, b]
  | .mad h t d a b c | .sad h t d a b c | .bfi h t d a b c =>
      h.ok && t.isInt4 && dstOk sl t.wd d && srcOk sl t.wd a && srcOk sl t.wd b && srcOk sl t.wd c &&
      popsDistinct [a, b, c]
  | .addImm h t _ d a _ => h.ok && t.isInt4 && dstOk sl t.wd d && srcOk sl t.wd a
  | .mulImm h t d a _ | .andImm h t d a _ | .orImm h t d a _ | .xorImm h t d a _ =>
      h.ok && t.isInt4 && dstOk sl t.wd d && srcOk sl t.wd a
  | .shlImm h t d a imm | .shrImm h t d a imm =>
      h.ok && t.isInt4 && dstOk sl t.wd d && srcOk sl t.wd a && shiftImm t imm
  | .abs h t _ d a | .neg h t _ d a => h.ok && t.isInt4 && dstOk sl t.wd d && srcOk sl t.wd a
  | .mov h t d a | .not h t d a | .popc h t d a | .clz h t d a | .brev h t d a =>
      h.ok && t.isInt4 && dstOk sl t.wd d && srcOk sl t.wd a
  | .lea h t s d a b => h.ok && sl == .a && t.isInt4 && decide (s ≤ 7) && dstOk sl .w64 d && srcOk sl .w64 a &&
      srcOk sl .w64 b
  | .movImm h t d _ => h.ok && t.isInt4 && dstOk sl t.wd d
  | .movhi h t hi52 d a imm => h.ok && t.isInt4 && dstOk sl t.wd d && srcOk sl t.wd a &&
      (!hi52 || t.wd == .w64) && movhiImm t hi52 imm
  | .cmp h t cc dp a b => h.ok && t.isInt4 && ccOk cc && pdOk dp && srcOk sl t.wd a && srcOk sl t.wd b &&
      popsDistinct [a, b]
  | .cmpImm h t cc dp a _ => h.ok && t.isInt4 && ccOk cc && pdOk dp && srcOk sl t.wd a
  | .sel h t d a b _ => h.ok && (t.isInt4 || t == .f32 || t == .f64) && dstOk sl t.wd d && srcOk sl t.wd a &&
      srcOk sl t.wd b && popsDistinct [a, b]
  | .pand h dp _ _ | .por h dp _ _ | .pxor h dp _ _ => h.ok && pdOk dp
  | .pnot h dp _ => h.ok && pdOk dp
  | .leaPriv h d a b => h.ok && sl == .a && aReg d && aAny a && aAny b
  | .leaPrivSelf h d a => h.ok && sl == .a && aReg d && aAny a
  | .srGet h d n => h.ok && dstOk sl (if n.wide then .w64 else .w32) d
  | .srSet h n a => h.ok && srcOk sl (if n.wide then .w64 else .w32) a
  | .shflIdx h t seg d a b pd | .shflUp h t seg d a b pd | .shflDown h t seg d a b pd
  | .shflXor h t seg d a b pd =>
      h.ok && t.isInt4 && decide (seg ≤ 4) && dstOk sl t.wd d && srcOk sl t.wd a && srcOk sl .w32 b &&
      popsDistinct [a, b] && pdOpt pd
  | .voteAny h dp _ | .voteAll h dp _ => h.ok && pdOk dp
  | .voteBallot h d _ => h.ok && dstOk sl .w32 d
  | .scan h t op d a | .scanEx h t op d a | .wred h t op d a =>
      h.ok && t.isInt4 && ccOk op && dstOk sl t.wd d && srcOk sl t.wd a
  | .elect h dp => h.ok && pdOk dp
  | .xch h t m d a pd => h.ok && (t == .z32 || t == .z64) && m != 0 && dstOk sl t.wd d && srcOk sl t.wd a &&
      pdOpt pd
  | .matchLanes h t d a => h.ok && t.isInt4 && dstOk sl .w32 d && srcOk sl t.wd a
  | .fadd h t rm d a b | .fsub h t rm d a b | .fmul h t rm d a b | .fdiv h t rm d a b =>
      h.ok && sl == .c && t.isFloat && rmOk rm && dstOk sl t.wd d && srcOk sl t.wd a && srcOk sl t.wd b &&
      popsDistinct [a, b]
  | .ffma h t rm d a b c => h.ok && sl == .c && t.isFloat && rmOk rm && dstOk sl t.wd d && srcOk sl t.wd a &&
      srcOk sl t.wd b && srcOk sl t.wd c && popsDistinct [a, b, c]
  | .fmin h t d a b | .fmax h t d a b => h.ok && sl == .c && t.isFloat && dstOk sl t.wd d && srcOk sl t.wd a &&
      srcOk sl t.wd b && popsDistinct [a, b]
  | .fabs h t d a | .fneg h t d a => h.ok && sl == .c && (t.isFloat || t.isPair) && dstOk sl t.wd d &&
      srcOk sl t.wd a
  | .fcmp h t _ dp a b => h.ok && sl == .c && t.isFloat && pdOk dp && srcOk sl t.wd a && srcOk sl t.wd b &&
      popsDistinct [a, b]
  | .fclass h t d a => h.ok && sl == .c && t.isFloat && dstOk sl .w32 d && srcOk sl t.wd a
  | .frcp h t d a | .frsqrt h t d a => h.ok && sl == .c && t.isFloat && dstOk sl t.wd d && srcOk sl t.wd a
  | .fsqrt h t rm d a | .frnd h t rm d a => h.ok && sl == .c && t.isFloat && rmOk rm && dstOk sl t.wd d &&
      srcOk sl t.wd a
  | .fexp2 h t d a | .flog2 h t d a | .fsin h t d a | .fcos h t d a | .ftanh h t d a =>
      h.ok && sl == .c && t.isShortFloat && dstOk sl t.wd d && srcOk sl t.wd a
  | .fdot2 h t rm d a b c | .hfma2 h t rm d a b c => h.ok && sl == .c && t.isPair && rmOk rm && dstOk sl .w32 d &&
      srcOk sl .w32 a && srcOk sl .w32 b && srcOk sl .w32 c && popsDistinct [a, b, c]
  | .fscale h t rm d a b => h.ok && sl == .c && t.isFloat && rmOk rm && dstOk sl t.wd d && srcOk sl t.wd a &&
      srcOk sl .w32 b && popsDistinct [a, b]
  | .hadd2 h t rm d a b | .hmul2 h t rm d a b => h.ok && sl == .c && t.isPair && rmOk rm && dstOk sl .w32 d &&
      srcOk sl .w32 a && srcOk sl .w32 b && popsDistinct [a, b]
  | .cvt h dt sty rm isat d a => h.ok && sl == .c && cvtOk dt sty rm isat && dstOk sl dt.wd d &&
      srcOk sl (cvtSrcWd sty) a
  | .cvtPk h fmt hi rm d a b c => h.ok && sl == .c && rmOk rm && dstOk sl .w32 d && srcOk sl .w32 a &&
      srcOk sl .w32 b && ((pkByte fmt && srcOk sl .w32 c && popsDistinct [a, b, c]) ||
        (pkWide fmt && !hi && c == .r 0 && popsDistinct [a, b]))
  | .cvtUnpk h fmt idx d a => h.ok && sl == .c && unpkOk fmt idx && dstOk sl .w32 d && srcOk sl .w32 a
  | .mxPack h fmt d a b | .mxUnpk h fmt d a b => h.ok && sl == .c && mxFmt fmt && dstOk sl .w32 d &&
      srcOk sl .w32 a && srcOk sl .w32 b && popsDistinct [a, b]
  | .mxScale h fmt d a => h.ok && sl == .c && mxFmt fmt && dstOk sl .w32 d && srcOk sl .w32 a
  | .cvtF6 h _ d a => h.ok && sl == .c && dstOk sl .w32 d && srcOk sl .w32 a
  | .cvtI4 h _ _ d a => h.ok && sl == .c && dstOk sl .w32 d && srcOk sl .w32 a
  | .fmtSetImm h v => h.ok && fmtValid (fmtOfImm v)
  | .fmtSetReg h a => h.ok && srcOk sl .w32 a
  | .fmtGet h d | .fmtGetFlags h d | .fmtGetFlagsClr h d => h.ok && dstOk sl .w32 d
  | .fmtSeed h a => h.ok && srcOk sl .w32 a
  | .ld h t _ d a _ => h.ok && sl == .a && t.isMem && dstOk sl t.wd d && aAny a
  | .st h t _ d a _ => h.ok && sl == .a && t.isMem && srcOk sl t.wd d && aAny a
  | .ldx h t _ d a _ => h.ok && sl == .a && t.isMem && aReg d && dstOk sl t.wd d && aAny a
  | .ldIdx h t _ s d a b => h.ok && sl == .a && t.isMem && decide (s ≤ 4) && dstOk sl t.wd d && aAny a && aAny b
  | .stIdx h t _ s d a b => h.ok && sl == .a && t.isMem && decide (s ≤ 4) && srcOk sl t.wd d && aAny a && aAny b
  | .stq h t _ _ _ d => h.ok && sl == .c && t.isInt && srcOk sl t.wd d
  | .redQ h t op near rel sp _ _ d => h.ok && sl == .c && redTypes op t && redMods near rel sp && srcOk sl t.wd d
  | .pf h _ a _ => h.ok && sl == .a && aAny a
  | .waitCnt h _ a _ => h.ok && (match a with | some o => srcOk sl .w32 o | none => true)
  | .fence h sp => h.ok && sp != .none
  | .atom h t op sp od d a b => h.ok && sl == .a && atomTypes op t && atomOrd sp od && dstOk sl t.wd d && aAny a &&
      srcOk sl t.wd b
  | .cas h t sp od d a b c => h.ok && sl == .a && (t == .z32 || t == .z64 || t == .z128) && atomOrd sp od &&
      dstOk sl t.wd d && aAny a && srcOk sl t.wd b && srcOk sl t.wd c
  | .red h t op near rel sp d a => h.ok && sl == .a && redTypes op t && redMods near rel sp && srcOk sl t.wd d &&
      aAny a
  | .ll h t _ d a _ => h.ok && sl == .a && t.isInt4 && dstOk sl t.wd d && aAny a
  | .sc h t sp od d a pd => h.ok && sl == .a && t.isInt4 && scMods sp od && srcOk sl t.wd d && aAny a && pdOk pd
  | .waitAddr h t cc sp dp a b c => h.ok && sl == .a && t.isInt4 && ccOk cc && sp != .none && pdOk dp && aAny a &&
      aAny b && aAny c
  | .rvInit h rv na nb => h.ok && rvOk rv && immOrOk sl 32 na && immOrOk sl 65535 nb &&
      (match na, nb with | .reg x, .reg y => popsDistinct [x, y] | _, _ => true)
  | .rvArr h rv => h.ok && rvOk rv
  | .rvWait h rv n => h.ok && rvOk rv && immOrOk sl 65535 n
  | .rvTest h rv dp n => h.ok && rvOk rv && pdOk dp && immOrOk sl 65535 n
  | .gSet h _ _ => h.ok && sl == .c
  | .sigq h a d => h.ok && sl == .a && aAny a && aAny d
  | .cp h c => h.ok && sl == .a && cmdReg c.dst && cmdReg c.src && c.scope == .none && targetOk c.kind c.index
  | .cpFeed h c => h.ok && sl == .a && decide (c.dst ≤ 2) && cmdReg c.src && c.scope == .none &&
      targetOk c.kind c.index
  | .cpYield _ _ => sl == .a
  | .cpColl h c => h.ok && sl == .a && cmdReg c.dst && cmdReg c.src && c.scope == .sys && targetOk c.kind c.index
  | .cpPut h c => h.ok && sl == .a && cmdPair c.dst && cmdReg c.src && c.scope == .sys && targetOk c.kind c.index
  | .cpGet h c => h.ok && sl == .a && cmdReg c.dst && cmdPair c.src && c.scope == .sys && targetOk c.kind c.index
  | .mma h c | .mmaTwin h c => h.ok && sl == .a && cmdReg c.dst && c.src == 0 && mmaScope c.scope &&
      targetOk c.kind c.index
  | .mmaBud _ d => sl == .a && aReg d
  | .accZeroImm h dst _ _ kind index => h.ok && sl == .a && cmdReg dst && targetOk kind index
  | .accZeroReg h dst src _ kind index => h.ok && sl == .a && cmdReg dst && cmdReg src && targetOk kind index
  | .accLd h d a => h.ok && sl == .a && (aReg d || (match d with | .f _ => true | _ => false)) && aAny a
  | .accFin h _ _ d a b c => h.ok && sl == .a && aReg d && aAny a && aAny b && aReg c && regOk .a .w128 c
  | .wb h a b | .ii h a b => h.ok && wbAddrOk sl a && wbLenOk sl b
  | .nodePost h a => h.ok && sl == .a && aAny a
  | .discard h a b => h.ok && sl == .a && aAny a && aAny b
  | .rngInv h a | .rngInvAll h a => h.ok && sl == .a && aAny a
  | .rngSync _ => sl == .a
  | .zline h a => h.ok && sl == .a && aAny a
  | .ebbSlide h d a b c => h.ok && sl == .a && aReg d && aAny a && aAny b && aAny c
  | .ebbStat h d a => h.ok && sl == .a && aReg d && aAny a
  | .shortPair _ h1 h2 => sl == .c && h1.ok && h2.ok && pairOk h1 h2
  | .loadReply .. | .queueDataArrival .. | .fairnessRotation .. | .rangeWalkStart .. | .rangeWalkComplete ..
  | .missFill .. | .instructionFetchFill .. | .resteer .. | .stranded .. | .read .. | .data .. | .store ..
  | .homeAtomic .. | .homeReduction .. | .stack .. | .upd .. | .uack .. | .inv .. | .iack .. | .evn .. | .ureq ..
  | .ugrant .. | .gather .. | .delta .. | .nodelta .. | .dwb .. | .retry .. | .retryReissue .. | .discardAtHome ..
  | .memoryRequestIssue .. | .hotRowHoldEnd .. | .refreshWindowEnd .. | .memoryFill .. | .slideStartCommit ..
  | .ebbStep .. | .ebbStepComplete .. | .slideCompletionCommit .. | .slideReport .. | .cxlMemRead ..
  | .cxlMemWrite .. | .hostSharedRequest .. | .hostOwnershipRequest .. | .hostWriteback ..
  | .backInvalidationResponse .. | .hostSnoop .. | .cxlCacheFill .. | .portLinkDown .. | .portLinkUp ..
  | .emissionApply .. | .commandStart .. | .commandComplete .. | .mmaRunStart .. | .mmaRunEnd ..
  | .heartbeatTick .. | .waitAddrWake .. | .stalemateDetect .. | .haltArrival .. | .trapRecordWrite ..
  | .resolveResume .. | .resolveSkip .. | .resolveDiscard .. | .contextFatal .. | .dieLoss ..
  | .uncorrectableError .. | .correctedError .. | .teamDispatch .. | .nodeComplete .. | .partitionPeriod
  | .poolStarvation .. | .heldCoreExpiry .. | .preemptComplete | .ctxctlRunSet .. | .ctxctlRunClear ..
  | .amapEntryValidate .. | .amapWerrClear .. | .hdmWindowValidate .. | .fnsvcWrite .. | .preemptGo ..
  | .fnrstGo .. | .fnrstQuiesce .. | .fnrstRotate .. | .fnrstClear .. | .clearSpanDone .. | .fnrstIdle ..
  | .hldoorRing .. | .registerWrite .. | .sensors .. | .log .. | .attest .. | .fwstage .. | .fwcommit ..
  | .keyswap .. | .power .. | .coldStart .. | .preheatComplete | .hbmTrainingComplete .. | .droopStretch ..
  | .railRecover .. | .hbmCold .. | .hbmHot .. | .junctionHot .. | .powerOverCap .. | .retrainStart ..
  | .tsvGroupDone .. | .remoteRequest .. | .peerTimeout .. | .illegalInstrWord .. | .teamSave ..
  | .preheatTimeout | .warmingLoadEnd .. | .hbmCooled .. | .junctionCooled .. | .contextDestruction ..
  | .coreRemovedFromService .. | .remoteResponse .. | .fabricPortLoss .. => false

/-- The row is an event of another agent, not an instruction word. -/
def Instr.isEvent (i : Instr) : Bool := match i with
  | .loadReply .. | .queueDataArrival .. | .fairnessRotation .. | .rangeWalkStart .. | .rangeWalkComplete ..
  | .missFill .. | .instructionFetchFill .. | .resteer .. | .stranded .. | .read .. | .data .. | .store ..
  | .homeAtomic .. | .homeReduction .. | .stack .. | .upd .. | .uack .. | .inv .. | .iack .. | .evn .. | .ureq ..
  | .ugrant .. | .gather .. | .delta .. | .nodelta .. | .dwb .. | .retry .. | .retryReissue .. | .discardAtHome ..
  | .memoryRequestIssue .. | .hotRowHoldEnd .. | .refreshWindowEnd .. | .memoryFill .. | .slideStartCommit ..
  | .ebbStep .. | .ebbStepComplete .. | .slideCompletionCommit .. | .slideReport .. | .cxlMemRead ..
  | .cxlMemWrite .. | .hostSharedRequest .. | .hostOwnershipRequest .. | .hostWriteback ..
  | .backInvalidationResponse .. | .hostSnoop .. | .cxlCacheFill .. | .portLinkDown .. | .portLinkUp ..
  | .emissionApply .. | .commandStart .. | .commandComplete .. | .mmaRunStart .. | .mmaRunEnd ..
  | .heartbeatTick .. | .waitAddrWake .. | .stalemateDetect .. | .haltArrival .. | .trapRecordWrite ..
  | .resolveResume .. | .resolveSkip .. | .resolveDiscard .. | .contextFatal .. | .dieLoss ..
  | .uncorrectableError .. | .correctedError .. | .teamDispatch .. | .nodeComplete .. | .partitionPeriod
  | .poolStarvation .. | .heldCoreExpiry .. | .preemptComplete | .ctxctlRunSet .. | .ctxctlRunClear ..
  | .amapEntryValidate .. | .amapWerrClear .. | .hdmWindowValidate .. | .fnsvcWrite .. | .preemptGo ..
  | .fnrstGo .. | .fnrstQuiesce .. | .fnrstRotate .. | .fnrstClear .. | .clearSpanDone .. | .fnrstIdle ..
  | .hldoorRing .. | .registerWrite .. | .sensors .. | .log .. | .attest .. | .fwstage .. | .fwcommit ..
  | .keyswap .. | .power .. | .coldStart .. | .preheatComplete | .hbmTrainingComplete .. | .droopStretch ..
  | .railRecover .. | .hbmCold .. | .hbmHot .. | .junctionHot .. | .powerOverCap .. | .retrainStart ..
  | .tsvGroupDone .. | .remoteRequest .. | .peerTimeout .. | .teamSave ..
  | .preheatTimeout | .warmingLoadEnd .. | .hbmCooled .. | .junctionCooled .. | .contextDestruction ..
  | .coreRemovedFromService .. | .remoteResponse .. | .fabricPortLoss .. => true
  | _ => false

end Sys2Proof
end

