-- ==== Sys2Proof/Decode.lean ====
section
/-! DEFINITION. The decoder of instruction words (10), total on any 64 bits, which refuses a word by the
subcode of the first check of R248 that fails; after it the encoder, written from the same layouts. Check 9,
on the shape record of a command, is made when the word issues (R347). -/

namespace Sys2Proof

/-! Codes -/

/-- TYPE codes (R236). -/
def Ty.ofCode (c : BitVec 4) : Ty :=
  match c.toNat with
  | 0 => .none | 1 => .z8 | 2 => .z16 | 3 => .z32 | 4 => .z64 | 5 => .i8 | 6 => .i16 | 7 => .i32
  | 8 => .i64 | 9 => .f16 | 10 => .bf16 | 11 => .f32 | 12 => .f64 | 13 => .bf16x2 | 14 => .f16x2 | _ => .z128

def Ty.code : Ty → BitVec 4
  | .none => 0 | .z8 => 1 | .z16 => 2 | .z32 => 3 | .z64 => 4 | .i8 => 5 | .i16 => 6 | .i32 => 7
  | .i64 => 8 | .f16 => 9 | .bf16 => 10 | .f32 => 11 | .f64 => 12 | .bf16x2 => 13 | .f16x2 => 14 | .z128 => 15

/-- SCOPE codes (R237); code 7 is no scope. -/
def Scope.ofCode (c : BitVec 3) : Option Scope :=
  match c.toNat with
  | 0 => some .none | 1 => some .warp | 2 => some .team | 3 => some .cluster | 4 => some .die
  | 5 => some .pkg | 6 => some .sys | _ => none

def Scope.code : Scope → BitVec 3
  | .none => 0 | .warp => 1 | .team => 2 | .cluster => 3 | .die => 4 | .pkg => 5 | .sys => 6

/-- ORD codes (R237). -/
def Ordering.ofCode (c : BitVec 2) : Ordering :=
  match c.toNat with
  | 0 => .none | 1 => .acq | 2 => .rel | _ => .ar

def Ordering.code : Ordering → BitVec 2
  | .none => 0 | .acq => 1 | .rel => 2 | .ar => 3

/-- Register-field codes (R240, R241). -/
def Opd.ofCode (c : BitVec 8) : Option Opd :=
  if c.toNat < 128 then some (.r (c.extractLsb' 0 7))
  else if c.toNat < 160 then some (.s (c.extractLsb' 0 5))
  else if c.toNat < 224 then none
  else if c.toNat < 232 then some (.k (c.extractLsb' 0 3))
  else if c.toNat < 240 then none
  else if c.toNat < 244 then some (.f (c.extractLsb' 0 2))
  else if c.toNat = 244 then some .sa
  else none

def Opd.code : Opd → BitVec 8
  | .r n => 0#1 ++ n
  | .s n => 0b100#3 ++ n
  | .k n => 0b11100#5 ++ n
  | .f n => 0b111100#6 ++ n
  | .sa => 244

/-- Predicate codes 160 to 167 (R240). -/
def predOf (c : BitVec 8) : Option (BitVec 3) :=
  if c.extractLsb' 3 5 = 0b10100#5 then some (c.extractLsb' 0 3) else none

def predCode (p : BitVec 3) : BitVec 8 := 0b10100#5 ++ p

/-- Special register numbers (R272). -/
def SReg.ofNum : Nat → Option SReg
  | 0 => some .lane | 1 => some .warp | 2 => some .teamX | 3 => some .teamY | 4 => some .teamZ
  | 5 => some .stage | 6 => some .split | 7 => some .core | 8 => some .die | 9 => some .quarter
  | 10 => some .deadmask | 11 => some .hb | 12 => some .clk | 13 => some .slip | 14 => some .node
  | 15 => some .gridX | 16 => some .gridY | 17 => some .gridZ | 18 => some .nwarp | 19 => some .link
  | _ => none

def SReg.num : SReg → Nat
  | .lane => 0 | .warp => 1 | .teamX => 2 | .teamY => 3 | .teamZ => 4 | .stage => 5 | .split => 6
  | .core => 7 | .die => 8 | .quarter => 9 | .deadmask => 10 | .hb => 11 | .clk => 12 | .slip => 13
  | .node => 14 | .gridX => 15 | .gridY => 16 | .gridZ => 17 | .nwarp => 18 | .link => 19

/-- Short opcodes (R246). -/
def ShortOp.ofCode : Nat → Option ShortOp
  | 0x00 => some .nop | 0x01 => some .add | 0x02 => some .addI | 0x03 => some .sub | 0x04 => some .mul
  | 0x05 => some .mulI | 0x06 => some .min | 0x07 => some .max | 0x08 => some .movI | 0x09 => some .mov
  | 0x0A => some .and | 0x0B => some .andI | 0x0C => some .or | 0x0D => some .orI | 0x0E => some .xor
  | 0x0F => some .xorI | 0x10 => some .shl | 0x11 => some .shlI | 0x12 => some .shr | 0x13 => some .shrI
  | 0x14 => some .fadd | 0x15 => some .fsub | 0x16 => some .fmul | 0x17 => some .fmin | 0x18 => some .fmax
  | 0x19 => some .sarI | 0x1A => some .minu | 0x1B => some .maxu | _ => none

def ShortOp.num : ShortOp → Nat
  | .nop => 0x00 | .add => 0x01 | .addI => 0x02 | .sub => 0x03 | .mul => 0x04 | .mulI => 0x05
  | .min => 0x06 | .max => 0x07 | .movI => 0x08 | .mov => 0x09 | .and => 0x0A | .andI => 0x0B
  | .or => 0x0C | .orI => 0x0D | .xor => 0x0E | .xorI => 0x0F | .shl => 0x10 | .shlI => 0x11
  | .shr => 0x12 | .shrI => 0x13 | .fadd => 0x14 | .fsub => 0x15 | .fmul => 0x16 | .fmin => 0x17
  | .fmax => 0x18 | .sarI => 0x19 | .minu => 0x1A | .maxu => 0x1B

/-- The guard field (R234). -/
def Guard.ofBits (g : BitVec 4) : Guard := ⟨g.getLsbD 3, g.extractLsb' 0 3⟩

def Guard.bits (g : Guard) : BitVec 4 := BitVec.ofBool g.neg ++ g.p

/-! Layouts (R233). The outer fields S, D, opcode and guard, then 50 bits laid out by the opcode. -/

/-- A full-form word: S, opcode, guard and the 50 bits below. -/
def fullWord (mark : Bool) (op : BitVec 8) (g : BitVec 4) (body : BitVec 50) : Word :=
  BitVec.ofBool mark ++ 0#1 ++ op ++ g ++ body

/-- The R layout. -/
structure RBody where
  d : BitVec 8
  a : BitVec 8
  b : BitVec 8
  c : BitVec 8
  ty : BitVec 4
  scope : BitVec 3
  ord : BitVec 2
  op : BitVec 9
  deriving DecidableEq, Repr

def RBody.ofBits (w : BitVec 50) : RBody :=
  ⟨w.extractLsb' 42 8, w.extractLsb' 34 8, w.extractLsb' 26 8, w.extractLsb' 18 8, w.extractLsb' 14 4,
   w.extractLsb' 11 3, w.extractLsb' 9 2, w.extractLsb' 0 9⟩

def RBody.bits (r : RBody) : BitVec 50 :=
  r.d ++ r.a ++ r.b ++ r.c ++ r.ty ++ r.scope ++ r.ord ++ r.op

/-- The I and M layouts. -/
structure IBody where
  d : BitVec 8
  a : BitVec 8
  ty : BitVec 4
  sub : BitVec 4
  imm : BitVec 26
  deriving DecidableEq, Repr

def IBody.ofBits (w : BitVec 50) : IBody :=
  ⟨w.extractLsb' 42 8, w.extractLsb' 34 8, w.extractLsb' 30 4, w.extractLsb' 26 4, w.extractLsb' 0 26⟩

def IBody.bits (i : IBody) : BitVec 50 := i.d ++ i.a ++ i.ty ++ i.sub ++ i.imm

/-- The B layout (R239). -/
structure BBody where
  dropT : BitVec 5
  dropF : BitVec 5
  recon : BitVec 14
  tgt : BitVec 26
  deriving DecidableEq, Repr

def BBody.ofBits (w : BitVec 50) : BBody :=
  ⟨w.extractLsb' 45 5, w.extractLsb' 40 5, w.extractLsb' 26 14, w.extractLsb' 0 26⟩

def BBody.bits (b : BBody) : BitVec 50 := b.dropT ++ b.dropF ++ b.recon ++ b.tgt

/-- The command fields (R340). -/
structure CBody where
  dst : BitVec 6
  src : BitVec 6
  ofs : BitVec 10
  shape : BitVec 5
  g : BitVec 1
  slot : BitVec 4
  ty : BitVec 4
  scope : BitVec 3
  ord : BitVec 2
  kind : BitVec 2
  index : BitVec 5
  low : BitVec 2
  deriving DecidableEq, Repr

def CBody.ofBits (w : BitVec 50) : CBody :=
  ⟨w.extractLsb' 44 6, w.extractLsb' 38 6, w.extractLsb' 28 10, w.extractLsb' 23 5, w.extractLsb' 22 1,
   w.extractLsb' 18 4, w.extractLsb' 14 4, w.extractLsb' 11 3, w.extractLsb' 9 2, w.extractLsb' 7 2,
   w.extractLsb' 2 5, w.extractLsb' 0 2⟩

def CBody.bits (c : CBody) : BitVec 50 :=
  c.dst ++ c.src ++ c.ofs ++ c.shape ++ c.g ++ c.slot ++ c.ty ++ c.scope ++ c.ord ++ c.kind ++ c.index ++ c.low

/-- One half of a short pair (R244). -/
structure HBody where
  op : BitVec 6
  d : BitVec 7
  a : BitVec 7
  b : BitVec 11
  deriving DecidableEq, Repr

def HBody.ofBits (w : BitVec 31) : HBody :=
  ⟨w.extractLsb' 25 6, w.extractLsb' 18 7, w.extractLsb' 11 7, w.extractLsb' 0 11⟩

def HBody.bits (h : HBody) : BitVec 31 := h.op ++ h.d ++ h.a ++ h.b

/-! The checks of R248 -/

/-- A check: it passes, or the word fails with the subcode. -/
def need (b : Bool) (e : Illegal) : Except Illegal Unit := if b then .ok () else .error e

/-- A field that holds a code of its position, or the word fails with FIELD. -/
def field {α : Type} (o : Option α) (ok : α → Bool) : Except Illegal α :=
  match o with
  | some x => if ok x then .ok x else .error .field
  | none => .error .field

/-- A source field. -/
def srcF (sl : Slice) (w : Wd) (c : BitVec 8) : Except Illegal Opd := field (Opd.ofCode c) (srcOk sl w)

/-- A destination field. -/
def dstF (sl : Slice) (w : Wd) (c : BitVec 8) : Except Illegal Opd := field (Opd.ofCode c) (dstOk sl w)

/-- A field of the codes 0 to 31 and 128 to 143. -/
def anyF (c : BitVec 8) : Except Illegal Opd := field (Opd.ofCode c) aAny

/-- A field of the codes 0 to 31. -/
def regF (c : BitVec 8) : Except Illegal Opd := field (Opd.ofCode c) aReg

/-- A predicate destination, codes 160 to 166. -/
def pdF (c : BitVec 8) : Except Illegal (BitVec 3) := field (predOf c) pdOk

/-- A predicate source, codes 160 to 167. -/
def psF (c : BitVec 8) : Except Illegal (BitVec 3) := field (predOf c) fun _ => true

/-- An unused field. -/
def zeroF {n : Nat} (c : BitVec n) : Except Illegal Unit := need (c == 0) .field

/-- Must-be-zero modifier bits. -/
def zeroM {n : Nat} (c : BitVec n) : Except Illegal Unit := need (c == 0) .modifier

/-- A SCOPE code (R237). -/
def scopeM (c : BitVec 3) (ok : Scope → Bool) : Except Illegal Scope :=
  match Scope.ofCode c with
  | some s => if ok s then .ok s else .error .modifier
  | none => .error .modifier

/-- The dead-source predicate field with its PD bit (R275). -/
def pdOptF (pd : Bool) (c : BitVec 8) : Except Illegal (Option (BitVec 3)) :=
  if pd then (pdF c).map some else (zeroF c).map fun _ => none

/-- SCOPE and ORD 0 and the named OP bits 0. -/
def plain (r : RBody) (mask : BitVec 9) : Except Illegal Unit := do
  zeroM r.scope; zeroM r.ord; zeroM (r.op &&& ~~~mask)

/-- d, a, b with c unused. -/
def dab (sl : Slice) (wd wa wb : Wd) (r : RBody) : Except Illegal (Opd × Opd × Opd) := do
  let d ← dstF sl wd r.d
  let a ← srcF sl wa r.a
  let b ← srcF sl wb r.b
  zeroF r.c
  need (popsDistinct [a, b]) .field
  return (d, a, b)

/-- d, a, b, c. -/
def dabc (sl : Slice) (w : Wd) (r : RBody) : Except Illegal (Opd × Opd × Opd × Opd) := do
  let d ← dstF sl w r.d
  let a ← srcF sl w r.a
  let b ← srcF sl w r.b
  let c ← srcF sl w r.c
  need (popsDistinct [a, b, c]) .field
  return (d, a, b, c)

/-- d, a with b and c unused. -/
def da (sl : Slice) (wd wa : Wd) (r : RBody) : Except Illegal (Opd × Opd) := do
  let d ← dstF sl wd r.d
  let a ← srcF sl wa r.a
  zeroF r.b
  zeroF r.c
  return (d, a)

/-- Three-register operation of the types `ok`. -/
def op3 (sl : Slice) (r : RBody) (ok : Ty → Bool) (mask : BitVec 9) (mk : Ty → Opd → Opd → Opd → Instr) :
    Except Illegal Instr := do
  let t := Ty.ofCode r.ty
  let (d, a, b) ← dab sl t.wd t.wd t.wd r
  need (ok t) .modifier
  plain r mask
  return mk t d a b

/-- Four-register operation. -/
def op4 (sl : Slice) (r : RBody) (ok : Ty → Bool) (mask : BitVec 9) (mk : Ty → Opd → Opd → Opd → Opd → Instr) :
    Except Illegal Instr := do
  let t := Ty.ofCode r.ty
  let (d, a, b, c) ← dabc sl t.wd r
  need (ok t) .modifier
  plain r mask
  return mk t d a b c

/-- Two-register operation. -/
def op2 (sl : Slice) (r : RBody) (ok : Ty → Bool) (mask : BitVec 9) (mk : Ty → Opd → Opd → Instr) :
    Except Illegal Instr := do
  let t := Ty.ofCode r.ty
  let (d, a) ← da sl t.wd t.wd r
  need (ok t) .modifier
  plain r mask
  return mk t d a

/-- The I layout with d and a (R268). -/
def opI (sl : Slice) (i : IBody) (sub : BitVec 4 → Bool) (imm : Ty → BitVec 26 → Bool)
    (mk : Ty → Opd → Opd → Instr) : Except Illegal Instr := do
  let t := Ty.ofCode i.ty
  let d ← dstF sl t.wd i.d
  let a ← srcF sl t.wd i.a
  need (t.isInt4 && sub i.sub) .modifier
  need (imm t i.imm) .operand
  return mk t d a

/-- RMODE in OP bits 2:0 (R297). -/
def rmode (r : RBody) : BitVec 3 := r.op.extractLsb' 0 3

/-- Predicate logic (R271). -/
def opP (r : RBody) (mk : BitVec 3 → BitVec 3 → BitVec 3 → Instr) : Except Illegal Instr := do
  let d ← pdF r.d
  let a ← psF r.a
  let b ← psF r.b
  zeroF r.c
  zeroM r.ty
  plain r 0
  return mk d a b

/-- A shuffle (R276). -/
def opShfl (sl : Slice) (r : RBody)
    (mk : Ty → BitVec 3 → Opd → Opd → Opd → Option (BitVec 3) → Instr) : Except Illegal Instr := do
  let t := Ty.ofCode r.ty
  let d ← dstF sl t.wd r.d
  let a ← srcF sl t.wd r.a
  let b ← srcF sl .w32 r.b
  need (popsDistinct [a, b]) .field
  let pd ← pdOptF (r.op.getLsbD 0) r.c
  let seg := r.op.extractLsb' 1 3
  need (t.isInt4 && decide (seg ≤ 4)) .modifier
  plain r 0xF
  return mk t seg d a b pd

/-- A scan or warp reduction (R278). -/
def opScan (sl : Slice) (r : RBody) (mk : Ty → BitVec 3 → Opd → Opd → Instr) : Except Illegal Instr := do
  let t := Ty.ofCode r.ty
  let (d, a) ← da sl t.wd t.wd r
  let op := rmode r
  need (t.isInt4 && ccOk op) .modifier
  plain r 7
  return mk t op d a

/-- The fields SUB bits 29:27 and 26 of a load or store (R312): no scope, or a scope with the bit. -/
def memScope (sub : BitVec 4) : Except Illegal Scope := do
  let s ← scopeM (sub.extractLsb' 1 3) fun _ => true
  need ((s == .none) == !sub.getLsbD 0) .modifier
  return s

/-- SCOPE and ORD of `ld.idx`, `st.idx` and `stq`: none, or a scope with the ordering (R312). -/
def idxScope (r : RBody) (od : Ordering) : Except Illegal Scope := do
  let s ← scopeM r.scope fun _ => true
  need (Ordering.ofCode r.ord == (if s == .none then .none else od)) .modifier
  return s

/-- SCOPE, ORD and NEAR of a reduction (R312). -/
def redScope (r : RBody) : Except Illegal (Scope × Bool × Bool) := do
  let s ← scopeM r.scope fun _ => true
  let near := r.op.getLsbD 3
  let rel := r.ord == 2
  need ((r.ord == 0 || r.ord == 2) && redMods near rel s) .modifier
  return (s, near, rel)

/-- An immediate or a register of `rv.wait` and `rv.test` in fields b and c (R334). -/
def rvPhaseF (sl : Slice) (r : RBody) : Except Illegal (ImmOr 16) := do
  if r.op.getLsbD 6 then return .imm (r.b ++ r.c)
  let o ← srcF sl .w32 r.b
  zeroF r.c
  return .reg o

/-- A rendezvous index in OP bits 4:0 with TYPE, SCOPE and ORD 0 (R330). -/
def rvIndex (r : RBody) (mask : BitVec 9) : Except Illegal (BitVec 5) := do
  let rv := r.op.extractLsb' 0 5
  need (r.ty == 0 && rvOk rv) .modifier
  plain r (mask ||| 0x1F)
  return rv

/-- The guard slot of a command (R340). -/
def slotM (c : CBody) : Except Illegal (Option (BitVec 4)) := do
  if c.g == 1 then return some c.slot
  zeroM c.slot
  return none

/-- A command (R341). -/
def opCmd (c : CBody) (dst src : BitVec 6 → Bool) (scope : Scope → Bool) (mk : Cmd → Instr) :
    Except Illegal Instr := do
  need (dst c.dst && src c.src) .field
  zeroM c.ty
  let s ← scopeM c.scope scope
  zeroM c.ord
  zeroM c.low
  let slot ← slotM c
  need (targetOk c.kind c.index) .modifier
  return mk ⟨c.dst, c.src, c.ofs, c.shape, slot, s, c.kind, c.index⟩

/-- `acc.zero` (R340, R362). -/
def opAccZero (h : Head) (c : CBody) : Except Illegal Instr := do
  let cr := c.low.getLsbD 0
  need (cmdReg c.dst && c.shape == 0 && (!cr || (cmdReg c.src && c.ofs == 0))) .field
  zeroM c.ty
  zeroM c.scope
  zeroM c.ord
  need (!c.low.getLsbD 1) .modifier
  let slot ← slotM c
  need (targetOk c.kind c.index) .modifier
  if cr then return .accZeroReg h c.dst c.src slot c.kind c.index
  return .accZeroImm h c.dst (c.src ++ c.ofs) slot c.kind c.index

/-- An address operand and what else it names, all in the R layout with no modifiers: codes of `anyF`. -/
def opAddr (r : RBody) (mk : Opd → Instr) : Except Illegal Instr := do
  zeroF r.d
  let a ← anyF r.a
  zeroF r.b
  zeroF r.c
  zeroM r.ty
  plain r 0
  return mk a

/-! The opcode map (R247) -/

/-- The opcode is reserved. -/
def opReserved (op : BitVec 8) : Bool :=
  let n := op.toNat
  (n == 0x0E || n == 0x0F) || (0x3D ≤ n && n ≤ 0x3F) || (0x4D ≤ n && n ≤ 0x4F) || (0x69 ≤ n && n ≤ 0x6F) ||
  (0x7B ≤ n && n ≤ 0x7F) || (0x96 ≤ n && n ≤ 0x9F) || (0xAC ≤ n && n ≤ 0xBF) || (0xC5 ≤ n && n ≤ 0xEF) ||
  (0xF7 ≤ n && n ≤ 0xFF)

/-- The opcode is legal on the A-slice only. -/
def opOnlyA (op : BitVec 8) : Bool :=
  let n := op.toNat
  n == 0x05 || n == 0x1E || n == 0x3A || (0x80 ≤ n && n ≤ 0x84) || n == 0x87 || (0x8A ≤ n && n ≤ 0x8F) ||
  n == 0x95 || (0xA0 ≤ n && n ≤ 0xAB) || n == 0xC3 || n == 0xC4 || (0xF0 ≤ n && n ≤ 0xF2) || n == 0xF4 || n == 0xF5

/-- The opcode is legal on the C-slice only. -/
def opOnlyC (op : BitVec 8) : Bool :=
  let n := op.toNat
  n == 0x03 || n == 0x04 || (0x50 ≤ n && n ≤ 0x68) || (0x70 ≤ n && n ≤ 0x77) || n == 0x85 || n == 0x86 || n == 0x94

/-- The opcode is legal in the slice. -/
def opSlice (sl : Slice) (op : BitVec 8) : Bool :=
  match sl with
  | .a => !opOnlyC op
  | .c => !opOnlyA op

/-- The words that must be unguarded (R234, R253, R258, R353, R361). -/
def opUnguarded (op : BitVec 8) : Bool :=
  let n := op.toNat
  n == 0x00 || n == 0x03 || (0x05 ≤ n && n ≤ 0x0C) || n == 0xA2 || n == 0xA8 || n == 0xC2 || n == 0xF1 || n == 0xF3

/-- The guard of the opcode (R234, R253). -/
def guardOk (sl : Slice) (op : BitVec 8) (g : Guard) : Bool :=
  g.ok && (!(opUnguarded op || (op == 0x02 && sl == .c)) || g.always)

/-- The fields of a full-form word whose opcode, slice and guard have passed: checks 5 to 7. Destination d of `match` is one
register under every type, for R279 writes it 32 bits; R251 could be read to ask for an even pair (log entry 123). -/
def decodeBody (sl : Slice) (op : BitVec 8) (h : Head) (body : BitVec 50) : Except Illegal Instr :=
  let r := RBody.ofBits body
  let i := IBody.ofBits body
  let b := BBody.ofBits body
  let c := CBody.ofBits body
  let z (x : Instr) : Except Illegal Instr := do zeroF body; return x
  match op.toNat with
  | 0x00 => z (.nop h.mark)
  | 0x01 => z (.exit h)
  | 0x02 => do
      need (b.dropT == 0 && b.dropF == 0 && (h.guard.always == (b.recon == 0))) .operand
      return .br h b.recon b.tgt
  | 0x03 => do need (b.recon != 0) .operand; return .brQ h.mark b.dropT b.dropF b.recon b.tgt
  | 0x04 => do need (b.recon != 0) .operand; return .brB h b.dropT b.dropF b.recon b.tgt
  | 0x05 => do need (b.recon != 0) .operand; return .brBack h.mark b.dropT b.dropF b.recon b.tgt
  | 0x06 => do need (b.dropT == 0 && b.dropF == 0 && b.recon == 0) .operand; return .call h.mark b.tgt
  | 0x07 => z (.ret h.mark)
  | 0x08 => do
      zeroF r.d
      let a ← field (Opd.ofCode r.a) (scalarOk sl)
      zeroF r.b; zeroF r.c; zeroM r.ty; plain r 0
      return .brInd h.mark a
  | 0x09 => do
      zeroF r.d
      let a ← field (Opd.ofCode r.a) (scalarOk sl)
      zeroF r.b; zeroF r.c; zeroM r.ty; plain r 0
      return .callInd h.mark a
  | 0x0A => z (.join h.mark)
  | 0x0B => z (.yield h.mark)
  | 0x0C => z (.splitYield h.mark)
  | 0x0D => do
      need (i.d == 0 && i.a == 0 && i.ty == 0 && i.sub == 0) .modifier
      need (i.imm.extractLsb' 16 10 == 0) .operand
      return .trap h (i.imm.extractLsb' 0 16)
  | 0x10 => op3 sl r Ty.isInt4 1 fun t => .add h t (r.op.getLsbD 0)
  | 0x11 => opI sl i (fun s => s &&& 0xE == 0) (fun _ _ => true) fun t d a => .addImm h t (i.sub.getLsbD 0) d a i.imm
  | 0x12 => op3 sl r Ty.isInt4 1 fun t => .sub h t (r.op.getLsbD 0)
  | 0x13 => op3 sl r Ty.isInt4 0 (.mul h)
  | 0x14 => opI sl i (· == 0) (fun _ _ => true) fun t d a => .mulImm h t d a i.imm
  | 0x15 => op3 sl r Ty.isInt4 0 (.mulhi h)
  | 0x16 => op4 sl r Ty.isInt4 0 (.mad h)
  | 0x17 => op3 sl r Ty.isInt4 0 (.div h)
  | 0x18 => op3 sl r Ty.isInt4 0 (.rem h)
  | 0x19 => op3 sl r Ty.isInt4 0 (.min h)
  | 0x1A => op3 sl r Ty.isInt4 0 (.max h)
  | 0x1B => op2 sl r Ty.isInt4 1 fun t => .abs h t (r.op.getLsbD 0)
  | 0x1C => op2 sl r Ty.isInt4 1 fun t => .neg h t (r.op.getLsbD 0)
  | 0x1D => op4 sl r Ty.isInt4 0 (.sad h)
  | 0x1E => do
      let (d, a, bb) ← dab sl .w64 .w64 .w64 r
      let t := Ty.ofCode r.ty
      need t.isInt4 .modifier
      plain r 7
      return .lea h t (rmode r) d a bb
  | 0x1F => do
      let t := Ty.ofCode i.ty
      let d ← dstF sl t.wd i.d
      zeroF i.a
      need (t.isInt4 && i.sub == 0) .modifier
      return .movImm h t d i.imm
  | 0x20 => op2 sl r Ty.isInt4 0 (.mov h)
  | 0x21 =>
      let hi52 := i.sub.getLsbD 0
      opI sl i (fun s => s == 0 || (s == 1 && (Ty.ofCode i.ty).wd == .w64)) (fun t v => movhiImm t hi52 v)
        fun t d a => .movhi h t hi52 d a i.imm
  | 0x22 => op3 sl r Ty.isInt4 0 (.and h)
  | 0x23 => opI sl i (· == 0) (fun _ _ => true) fun t d a => .andImm h t d a i.imm
  | 0x24 => op3 sl r Ty.isInt4 0 (.or h)
  | 0x25 => opI sl i (· == 0) (fun _ _ => true) fun t d a => .orImm h t d a i.imm
  | 0x26 => op3 sl r Ty.isInt4 0 (.xor h)
  | 0x27 => opI sl i (· == 0) (fun _ _ => true) fun t d a => .xorImm h t d a i.imm
  | 0x28 => op2 sl r Ty.isInt4 0 (.not h)
  | 0x29 => op3 sl r Ty.isInt4 0 (.shl h)
  | 0x2A => opI sl i (· == 0) shiftImm fun t d a => .shlImm h t d a i.imm
  | 0x2B => op3 sl r Ty.isInt4 0 (.shr h)
  | 0x2C => opI sl i (· == 0) shiftImm fun t d a => .shrImm h t d a i.imm
  | 0x2D => op3 sl r (fun t => t == .z32 || t == .z64) 0 (.rot h)
  | 0x2E => op2 sl r Ty.isInt4 0 (.popc h)
  | 0x2F => op2 sl r Ty.isInt4 0 (.clz h)
  | 0x30 => op2 sl r Ty.isInt4 0 (.brev h)
  | 0x31 => op3 sl r Ty.isInt4 0 (.bfe h)
  | 0x32 => op4 sl r Ty.isInt4 0 (.bfi h)
  | 0x33 => do
      let t := Ty.ofCode r.ty
      let dp ← pdF r.d
      let a ← srcF sl t.wd r.a
      let bb ← srcF sl t.wd r.b
      zeroF r.c
      need (popsDistinct [a, bb]) .field
      need (t.isInt4 && ccOk (rmode r)) .modifier
      plain r 7
      return .cmp h t (rmode r) dp a bb
  | 0x34 => do
      let t := Ty.ofCode i.ty
      let dp ← pdF i.d
      let a ← srcF sl t.wd i.a
      let cc := i.sub.extractLsb' 0 3
      need (t.isInt4 && ccOk cc && !i.sub.getLsbD 3) .modifier
      return .cmpImm h t cc dp a i.imm
  | 0x35 => do
      let t := Ty.ofCode r.ty
      let d ← dstF sl t.wd r.d
      let a ← srcF sl t.wd r.a
      let bb ← srcF sl t.wd r.b
      need (popsDistinct [a, bb]) .field
      let cp ← psF r.c
      need (t.isInt4 || t == .f32 || t == .f64) .modifier
      plain r 0
      return .sel h t d a bb cp
  | 0x36 => opP r (.pand h)
  | 0x37 => opP r (.por h)
  | 0x38 => opP r (.pxor h)
  | 0x39 => do
      let d ← pdF r.d
      let a ← psF r.a
      zeroF r.b; zeroF r.c; zeroM r.ty; plain r 0
      return .pnot h d a
  | 0x3A => do
      let d ← regF r.d
      let a ← anyF r.a
      let self := r.op.getLsbD 0
      let bb ← anyF r.b
      need (!self || r.b == 0) .field
      zeroF r.c; zeroM r.ty; plain r 1
      if self then return .leaPrivSelf h d a
      return .leaPriv h d a bb
  | 0x3B => do
      let n := SReg.ofNum i.imm.toNat
      let d ← dstF sl (if (n.map SReg.wide).getD false then .w64 else .w32) i.d
      zeroF i.a; zeroM i.ty; zeroM i.sub
      match n with
      | some n => return .srGet h d n
      | none => .error .operand
  | 0x3C => do
      let n := SReg.ofNum i.imm.toNat
      zeroF i.d
      let a ← srcF sl (if (n.map SReg.wide).getD false then .w64 else .w32) i.a
      zeroM i.ty; zeroM i.sub
      match n with
      | some n => return .srSet h n a
      | none => .error .operand
  | 0x40 => opShfl sl r (.shflIdx h)
  | 0x41 => opShfl sl r (.shflUp h)
  | 0x42 => opShfl sl r (.shflDown h)
  | 0x43 => opShfl sl r (.shflXor h)
  | 0x44 => do
      let d ← pdF r.d
      let a ← psF r.a
      zeroF r.b; zeroF r.c; zeroM r.ty; plain r 0
      return .voteAny h d a
  | 0x45 => do
      let d ← pdF r.d
      let a ← psF r.a
      zeroF r.b; zeroF r.c; zeroM r.ty; plain r 0
      return .voteAll h d a
  | 0x46 => do
      let d ← dstF sl .w32 r.d
      let a ← psF r.a
      zeroF r.b; zeroF r.c; zeroM r.ty; plain r 0
      return .voteBallot h d a
  | 0x47 => opScan sl r (.scan h)
  | 0x48 => opScan sl r (.scanEx h)
  | 0x49 => opScan sl r (.wred h)
  | 0x4A => do
      let d ← pdF r.d
      zeroF r.a; zeroF r.b; zeroF r.c; zeroM r.ty; plain r 0
      return .elect h d
  | 0x4B => do
      let t := Ty.ofCode r.ty
      let d ← dstF sl t.wd r.d
      let a ← srcF sl t.wd r.a
      zeroF r.b
      let pd ← pdOptF (r.op.getLsbD 2) r.c
      let m := r.op.extractLsb' 0 2
      need ((t == .z32 || t == .z64) && m != 0) .modifier
      plain r 7
      return .xch h t m d a pd
  | 0x4C => do
      let t := Ty.ofCode r.ty
      let (d, a) ← da sl .w32 t.wd r
      need t.isInt4 .modifier
      plain r 0
      return .matchLanes h t d a
  | 0x50 => op3 sl r (fun t => t.isFloat && rmOk (rmode r)) 7 fun t => .fadd h t (rmode r)
  | 0x51 => op3 sl r (fun t => t.isFloat && rmOk (rmode r)) 7 fun t => .fsub h t (rmode r)
  | 0x52 => op3 sl r (fun t => t.isFloat && rmOk (rmode r)) 7 fun t => .fmul h t (rmode r)
  | 0x53 => op4 sl r (fun t => t.isFloat && rmOk (rmode r)) 7 fun t => .ffma h t (rmode r)
  | 0x54 => op3 sl r Ty.isFloat 0 (.fmin h)
  | 0x55 => op3 sl r Ty.isFloat 0 (.fmax h)
  | 0x56 => op2 sl r (fun t => t.isFloat || t.isPair) 0 (.fabs h)
  | 0x57 => op2 sl r (fun t => t.isFloat || t.isPair) 0 (.fneg h)
  | 0x58 => do
      let t := Ty.ofCode r.ty
      let dp ← pdF r.d
      let a ← srcF sl t.wd r.a
      let bb ← srcF sl t.wd r.b
      zeroF r.c
      need (popsDistinct [a, bb]) .field
      need t.isFloat .modifier
      plain r 7
      return .fcmp h t (rmode r) dp a bb
  | 0x59 => do
      let t := Ty.ofCode r.ty
      let (d, a) ← da sl .w32 t.wd r
      need t.isFloat .modifier
      plain r 0
      return .fclass h t d a
  | 0x5A => op2 sl r Ty.isFloat 0 (.frcp h)
  | 0x5B => op2 sl r (fun t => t.isFloat && rmOk (rmode r)) 7 fun t => .fsqrt h t (rmode r)
  | 0x5C => op2 sl r Ty.isFloat 0 (.frsqrt h)
  | 0x5D => op2 sl r Ty.isShortFloat 0 (.fexp2 h)
  | 0x5E => op2 sl r Ty.isShortFloat 0 (.flog2 h)
  | 0x5F => op2 sl r Ty.isShortFloat 0 (.fsin h)
  | 0x60 => op2 sl r Ty.isShortFloat 0 (.fcos h)
  | 0x61 => op2 sl r Ty.isShortFloat 0 (.ftanh h)
  | 0x62 => op3 sl r (fun t => t.isFloat && rmOk (rmode r)) 7 fun t => .fdiv h t (rmode r)
  | 0x63 => do
      let t := Ty.ofCode r.ty
      let d ← dstF sl .w32 r.d
      let a ← srcF sl t.wd r.a
      let bb ← srcF sl t.wd r.b
      let cc ← srcF sl .w32 r.c
      need (popsDistinct [a, bb, cc]) .field
      need (t.isPair && rmOk (rmode r)) .modifier
      plain r 7
      return .fdot2 h t (rmode r) d a bb cc
  | 0x64 => op2 sl r (fun t => t.isFloat && rmOk (rmode r)) 7 fun t => .frnd h t (rmode r)
  | 0x65 => do
      let t := Ty.ofCode r.ty
      let (d, a, bb) ← dab sl t.wd t.wd .w32 r
      need (t.isFloat && rmOk (rmode r)) .modifier
      plain r 7
      return .fscale h t (rmode r) d a bb
  | 0x66 => op3 sl r (fun t => t.isPair && rmOk (rmode r)) 7 fun t => .hadd2 h t (rmode r)
  | 0x67 => op3 sl r (fun t => t.isPair && rmOk (rmode r)) 7 fun t => .hmul2 h t (rmode r)
  | 0x68 => op4 sl r (fun t => t.isPair && rmOk (rmode r)) 7 fun t => .hfma2 h t (rmode r)
  | 0x70 => do
      let dt := Ty.ofCode r.ty
      let sty := r.op.extractLsb' 0 4
      let rm := r.op.extractLsb' 4 3
      let isat := r.op.getLsbD 7
      let (d, a) ← da sl dt.wd (cvtSrcWd sty) r
      need (cvtOk dt sty rm isat) .modifier
      plain r 0xFF
      return .cvt h dt sty rm isat d a
  | 0x71 => do
      let fmt := rmode r
      let hi := r.op.getLsbD 3
      let rm := r.op.extractLsb' 4 3
      let d ← dstF sl .w32 r.d
      let a ← srcF sl .w32 r.a
      let bb ← srcF sl .w32 r.b
      let cc ← srcF sl .w32 r.c
      need (popsDistinct [a, bb, cc] && (!pkWide fmt || r.c == 0)) .field
      need (r.ty == Ty.f32.code && (pkByte fmt || (pkWide fmt && !hi)) && rmOk rm) .modifier
      plain r 0x7F
      return .cvtPk h fmt hi rm d a bb cc
  | 0x72 => do
      let (d, a) ← da sl .w32 .w32 r
      let fmt := rmode r
      let idx := r.op.extractLsb' 3 3
      need (r.ty == Ty.f32.code && unpkOk fmt idx) .modifier
      plain r 0x3F
      return .cvtUnpk h fmt idx d a
  | 0x73 => do
      let (d, a, bb) ← dab sl .w32 .w32 .w32 r
      need (r.ty == Ty.f32.code && mxFmt (rmode r)) .modifier
      plain r 7
      return .mxPack h (rmode r) d a bb
  | 0x74 => do
      let (d, a, bb) ← dab sl .w32 .w32 .w32 r
      need (r.ty == Ty.f32.code && mxFmt (rmode r)) .modifier
      plain r 7
      return .mxUnpk h (rmode r) d a bb
  | 0x75 => do
      let (d, a) ← da sl .w32 .w32 r
      need (r.ty == Ty.f32.code && mxFmt (rmode r)) .modifier
      plain r 7
      return .mxScale h (rmode r) d a
  | 0x76 => do
      let (d, a) ← da sl .w32 .w32 r
      zeroM r.ty
      plain r 1
      return .cvtF6 h (r.op.getLsbD 0) d a
  | 0x77 => do
      let (d, a) ← da sl .w32 .w32 r
      zeroM r.ty
      plain r 3
      return .cvtI4 h (r.op.getLsbD 0) (r.op.getLsbD 1) d a
  | 0x78 => do
      zeroF i.d
      if i.sub == 1 then
        let a ← srcF sl .w32 i.a
        zeroM i.ty
        need (i.imm == 0) .operand
        return .fmtSetReg h a
      else
        zeroF i.a
        need (i.ty == 0 && i.sub == 0) .modifier
        let v := i.imm.extractLsb' 0 20
        need (i.imm.extractLsb' 20 6 == 0 && fmtValid (fmtOfImm v)) .operand
        return .fmtSetImm h v
  | 0x79 => do
      let d ← dstF sl .w32 r.d
      zeroF r.a; zeroF r.b; zeroF r.c; zeroM r.ty; plain r 3
      need (!(r.op.getLsbD 1 && !r.op.getLsbD 0)) .modifier
      if r.op.getLsbD 1 then return .fmtGetFlagsClr h d
      if r.op.getLsbD 0 then return .fmtGetFlags h d
      return .fmtGet h d
  | 0x7A => do
      zeroF r.d
      let a ← srcF sl .w32 r.a
      zeroF r.b; zeroF r.c; zeroM r.ty; plain r 0
      return .fmtSeed h a
  | 0x80 => do
      let t := Ty.ofCode i.ty
      let d ← dstF sl t.wd i.d
      let a ← anyF i.a
      need t.isMem .modifier
      let s ← memScope i.sub
      return .ld h t s d a i.imm
  | 0x81 => do
      let t := Ty.ofCode i.ty
      let d ← srcF sl t.wd i.d
      let a ← anyF i.a
      need t.isMem .modifier
      let s ← memScope i.sub
      return .st h t s d a i.imm
  | 0x82 => do
      let t := Ty.ofCode i.ty
      let d ← field (Opd.ofCode i.d) fun o => aReg o && dstOk sl t.wd o
      let a ← anyF i.a
      need t.isMem .modifier
      return .ldx h t i.sub d a i.imm
  | 0x83 => do
      let t := Ty.ofCode r.ty
      let d ← dstF sl t.wd r.d
      let a ← anyF r.a
      let bb ← anyF r.b
      zeroF r.c
      need (t.isMem && decide (rmode r ≤ 4)) .modifier
      let s ← idxScope r .acq
      zeroM (r.op &&& 0x1F8)
      return .ldIdx h t s (rmode r) d a bb
  | 0x84 => do
      let t := Ty.ofCode r.ty
      let d ← srcF sl t.wd r.d
      let a ← anyF r.a
      let bb ← anyF r.b
      zeroF r.c
      need (t.isMem && decide (rmode r ≤ 4)) .modifier
      let s ← idxScope r .rel
      zeroM (r.op &&& 0x1F8)
      return .stIdx h t s (rmode r) d a bb
  | 0x85 => do
      let t := Ty.ofCode r.ty
      let d ← srcF sl t.wd r.d
      need (r.a == 244) .field
      zeroF r.b; zeroF r.c
      need t.isInt .modifier
      let s ← idxScope r .rel
      zeroM (r.op &&& 0xF)
      return .stq h t s (r.op.getLsbD 4) (r.op.extractLsb' 5 4) d
  | 0x86 => do
      let t := Ty.ofCode r.ty
      let d ← srcF sl t.wd r.d
      need (r.a == 244) .field
      zeroF r.b; zeroF r.c
      need (redTypes (rmode r) t) .modifier
      let (s, near, rel) ← redScope r
      return .redQ h t (rmode r) near rel s (r.op.getLsbD 4) (r.op.extractLsb' 5 4) d
  | 0x87 => do
      zeroF i.d
      let a ← anyF i.a
      zeroM i.ty
      zeroM (i.sub &&& 0xE)
      return .pf h (i.sub.getLsbD 0) a i.imm
  | 0x88 => do
      zeroF i.d
      if i.ty == 3 then
        let a ← srcF sl .w32 i.a
        return .waitCnt h i.sub (some a) i.imm
      else
        zeroF i.a
        zeroM i.ty
        return .waitCnt h i.sub none i.imm
  | 0x89 => do
      zeroF r.d; zeroF r.a; zeroF r.b; zeroF r.c; zeroM r.ty
      let s ← scopeM r.scope (· != .none)
      zeroM r.ord; zeroM r.op
      return .fence h s
  | 0x8A => do
      let t := Ty.ofCode r.ty
      let d ← dstF sl t.wd r.d
      let a ← anyF r.a
      let bb ← srcF sl t.wd r.b
      zeroF r.c
      need (atomTypes (rmode r) t) .modifier
      let od := Ordering.ofCode r.ord
      let s ← scopeM r.scope fun s => atomOrd s od
      zeroM (r.op &&& 0x1F8)
      return .atom h t (rmode r) s od d a bb
  | 0x8B => do
      let t := Ty.ofCode r.ty
      let d ← dstF sl t.wd r.d
      let a ← anyF r.a
      let bb ← srcF sl t.wd r.b
      let cc ← srcF sl t.wd r.c
      need (t == .z32 || t == .z64 || t == .z128) .modifier
      let od := Ordering.ofCode r.ord
      let s ← scopeM r.scope fun s => atomOrd s od
      zeroM r.op
      return .cas h t s od d a bb cc
  | 0x8C => do
      let t := Ty.ofCode r.ty
      let d ← srcF sl t.wd r.d
      let a ← anyF r.a
      zeroF r.b; zeroF r.c
      need (redTypes (rmode r) t) .modifier
      let (s, near, rel) ← redScope r
      zeroM (r.op &&& 0x1F0)
      return .red h t (rmode r) near rel s d a
  | 0x8D => do
      let t := Ty.ofCode i.ty
      let d ← dstF sl t.wd i.d
      let a ← anyF i.a
      need t.isInt4 .modifier
      let s ← memScope i.sub
      return .ll h t s d a i.imm
  | 0x8E => do
      let t := Ty.ofCode r.ty
      let d ← srcF sl t.wd r.d
      let a ← anyF r.a
      zeroF r.b
      let pd ← pdF r.c
      need t.isInt4 .modifier
      let od := Ordering.ofCode r.ord
      let s ← scopeM r.scope fun s => scMods s od
      zeroM r.op
      return .sc h t s od d a pd
  | 0x8F => do
      let t := Ty.ofCode r.ty
      let dp ← pdF r.d
      let a ← anyF r.a
      let bb ← anyF r.b
      let cc ← anyF r.c
      need (t.isInt4 && ccOk (rmode r)) .modifier
      let s ← scopeM r.scope (· != .none)
      zeroM r.ord
      zeroM (r.op &&& 0x1F8)
      return .waitAddr h t (rmode r) s dp a bb cc
  | 0x90 => do
      zeroF r.d
      let na : ImmOr 8 ← if r.op.getLsbD 5 then .ok (.imm r.a) else (srcF sl .w32 r.a).map .reg
      let nb ← rvPhaseF sl r
      need (match na, nb with | .reg x, .reg y => popsDistinct [x, y] | _, _ => true) .field
      let rv ← rvIndex r 0x60
      need (immOrOk sl 32 na) .operand
      return .rvInit h rv na nb
  | 0x91 => do
      zeroF r.d; zeroF r.a; zeroF r.b; zeroF r.c
      let rv ← rvIndex r 0
      return .rvArr h rv
  | 0x92 => do
      zeroF r.d; zeroF r.a
      let n ← rvPhaseF sl r
      let rv ← rvIndex r 0x40
      return .rvWait h rv n
  | 0x93 => do
      let dp ← pdF r.d
      zeroF r.a
      let n ← rvPhaseF sl r
      let rv ← rvIndex r 0x40
      return .rvTest h rv dp n
  | 0x94 => do
      zeroF r.d
      let p ← psF r.a
      zeroF r.b; zeroF r.c; zeroM r.ty; plain r 0xF
      return .gSet h (r.op.extractLsb' 0 4) p
  | 0x95 => do
      let d ← anyF r.d
      let a ← anyF r.a
      zeroF r.b; zeroF r.c; zeroM r.ty; plain r 0
      return .sigq h a d
  | 0xA0 => opCmd c cmdReg cmdReg (· == .none) (.cp h)
  | 0xA1 => opCmd c (fun d => decide (d ≤ 2)) cmdReg (· == .none) (.cpFeed h)
  | 0xA2 => do
      zeroF (body.extractLsb' 34 16)
      zeroF (body.extractLsb' 0 18)
      return .cpYield h.mark (r.b ++ r.c)
  | 0xA3 => opCmd c cmdReg cmdReg (· == .sys) (.cpColl h)
  | 0xA4 => opCmd c cmdPair cmdReg (· == .sys) (.cpPut h)
  | 0xA5 => opCmd c cmdReg cmdPair (· == .sys) (.cpGet h)
  | 0xA6 => opCmd c cmdReg (· == 0) mmaScope (.mma h)
  | 0xA7 => opCmd c cmdReg (· == 0) mmaScope (.mmaTwin h)
  | 0xA8 => do
      let d ← regF r.d
      zeroF (body.extractLsb' 0 42)
      return .mmaBud h.mark d
  | 0xA9 => opAccZero h c
  | 0xAA => do
      let d ← field (Opd.ofCode r.d) fun o => aReg o || (match o with | .f _ => true | _ => false)
      let a ← anyF r.a
      zeroF r.b; zeroF r.c; zeroM r.ty; plain r 0
      return .accLd h d a
  | 0xAB => do
      let d ← regF r.d
      let a ← anyF r.a
      let bb ← anyF r.b
      let cc ← field (Opd.ofCode r.c) fun o => aReg o && regOk .a .w128 o
      zeroM r.ty
      plain r 0x1F8
      return .accFin h (r.op.getLsbD 3) (r.op.extractLsb' 4 5) d a bb cc
  | 0xC0 => do
      zeroF r.d
      let a ← field (Opd.ofCode r.a) (wbAddrOk sl)
      let bb ← field (Opd.ofCode r.b) (wbLenOk sl)
      zeroF r.c; zeroM r.ty; plain r 0
      return .wb h a bb
  | 0xC1 => do
      zeroF r.d
      let a ← field (Opd.ofCode r.a) (wbAddrOk sl)
      let bb ← field (Opd.ofCode r.b) (wbLenOk sl)
      zeroF r.c; zeroM r.ty; plain r 0
      return .ii h a bb
  | 0xC2 => z (.fbar h.mark)
  | 0xC3 => opAddr r (.nodePost h)
  | 0xC4 => do
      zeroF r.d
      let a ← anyF r.a
      let bb ← anyF r.b
      zeroF r.c; zeroM r.ty; plain r 0
      return .discard h a bb
  | 0xF0 => do
      zeroF r.d
      let a ← anyF r.a
      zeroF r.b; zeroF r.c; zeroM r.ty; plain r 1
      if r.op.getLsbD 0 then return .rngInvAll h a
      return .rngInv h a
  | 0xF1 => z (.rngSync h.mark)
  | 0xF2 => opAddr r (.zline h)
  | 0xF3 => z (.fenceHb h.mark)
  | 0xF4 => do
      let d ← regF r.d
      let a ← anyF r.a
      let bb ← anyF r.b
      let cc ← anyF r.c
      zeroM r.ty; plain r 0
      return .ebbSlide h d a bb cc
  | 0xF5 => do
      let d ← regF r.d
      let a ← anyF r.a
      zeroF r.b; zeroF r.c; zeroM r.ty; plain r 0
      return .ebbStat h d a
  | 0xF6 => z (.halt h)
  | _ => .error .opcode

/-- One half of a short pair: checks 2, 5 and 7 (R244, R246, R248). -/
def decodeHalf (w : BitVec 31) : Except Illegal Half := do
  let h := HBody.ofBits w
  match ShortOp.ofCode h.op.toNat with
  | none => .error .opcode
  | some op =>
    let b : ImmOr 11 ←
      if op.regForm then do
        zeroF (h.b.extractLsb' 8 3)
        let o ← field (Opd.ofCode (h.b.extractLsb' 0 8)) fun o => match o with
          | .r _ | .s _ | .k _ => true
          | _ => false
        pure (.reg o)
      else pure (.imm h.b)
    need (!(op == .nop) || (h.d == 0 && h.a == 0)) .field
    need (!(op == .movI) || h.a == 0) .field
    need (!(op == .nop || op == .mov) || h.b == 0) .field
    need (!op.shiftForm || decide (h.b.toNat ≤ 31)) .operand
    return ⟨op, h.d, h.a, b⟩

/-- The instruction that a word is in a slice, or the subcode of ILLEGAL_INSTR (R248). -/
def decode (sl : Slice) (w : Word) : Except Illegal Instr := do
  let mark := w.getLsbD 63
  if w.getLsbD 62 then
    need (sl == .c) .slice
    let h1 ← decodeHalf (w.extractLsb' 31 31)
    let h2 ← decodeHalf (w.extractLsb' 0 31)
    need (pairOk h1 h2) .pair
    return .shortPair mark h1 h2
  else
    let op := w.extractLsb' 54 8
    let g := Guard.ofBits (w.extractLsb' 50 4)
    need (!opReserved op) .opcode
    need (opSlice sl op) .slice
    need (guardOk sl op g) .guard
    decodeBody sl op ⟨mark, g⟩ (w.extractLsb' 0 50)

/-! The encoder -/

/-- The unguarded form 0b0111. -/
def noGuard : Guard := ⟨false, 7⟩

/-- An R-layout word. -/
def encR (h : Head) (op : BitVec 8) (r : RBody) : Word := fullWord h.mark op h.guard.bits r.bits

/-- An I- or M-layout word. -/
def encI (h : Head) (op : BitVec 8) (i : IBody) : Word := fullWord h.mark op h.guard.bits i.bits

/-- A B-layout word. -/
def encB (h : Head) (op : BitVec 8) (b : BBody) : Word := fullWord h.mark op h.guard.bits b.bits

/-- A Z-layout word. -/
def encZ (h : Head) (op : BitVec 8) : Word := fullWord h.mark op h.guard.bits 0

/-- A command word. -/
def encC (h : Head) (op : BitVec 8) (c : Cmd) : Word :=
  fullWord h.mark op h.guard.bits
    (CBody.bits ⟨c.dst, c.src, c.ofs, c.shape, BitVec.ofBool c.slot.isSome, c.slot.getD 0, 0, c.scope.code, 0,
      c.kind, c.index, 0⟩)

/-- R layout with SCOPE and ORD 0. -/
def encP (h : Head) (op : BitVec 8) (d a b c : BitVec 8) (t : Ty) (x : BitVec 9) : Word :=
  encR h op ⟨d, a, b, c, t.code, 0, 0, x⟩

/-- The code of the dead-source predicate. -/
def pdOptCode : Option (BitVec 3) → BitVec 8
  | some p => predCode p
  | none => 0

/-- Fields b and c of `rv.wait`. -/
def rvPhaseBits : ImmOr 16 → BitVec 16 × BitVec 1
  | .imm v => (v, 1)
  | .reg o => (o.code ++ 0#8, 0)

/-- One half of a short pair. -/
def encHalf (h : Half) : BitVec 31 :=
  HBody.bits ⟨BitVec.ofNat 6 h.op.num, h.d, h.a, match h.b with
    | .imm v => v
    | .reg o => 0#3 ++ o.code⟩

/-- SUB of a load or store: the scope, and bit 26 when there is one. -/
def memSub (s : Scope) : BitVec 4 := s.code ++ BitVec.ofBool (s != .none)

/-- The word of an instruction (R233 to R246); an event row has none and gives 0. -/
def encode (i : Instr) : Word :=
  let u (m : Bool) : Head := ⟨m, noGuard⟩
  match i with
  | .nop m => encZ (u m) 0x00
  | .exit h => encZ h 0x01
  | .br h rec tgt => encB h 0x02 ⟨0, 0, rec, tgt⟩
  | .brQ m dt df rec tgt => encB (u m) 0x03 ⟨dt, df, rec, tgt⟩
  | .brB h dt df rec tgt => encB h 0x04 ⟨dt, df, rec, tgt⟩
  | .brBack m dt df rec tgt => encB (u m) 0x05 ⟨dt, df, rec, tgt⟩
  | .call m tgt => encB (u m) 0x06 ⟨0, 0, 0, tgt⟩
  | .ret m => encZ (u m) 0x07
  | .brInd m a => encP (u m) 0x08 0 a.code 0 0 .none 0
  | .callInd m a => encP (u m) 0x09 0 a.code 0 0 .none 0
  | .join m => encZ (u m) 0x0A
  | .yield m => encZ (u m) 0x0B
  | .splitYield m => encZ (u m) 0x0C
  | .trap h code => encI h 0x0D ⟨0, 0, 0, 0, 0#10 ++ code⟩
  | .add h t sat d a b => encP h 0x10 d.code a.code b.code 0 t (0#8 ++ BitVec.ofBool sat)
  | .addImm h t sat d a imm => encI h 0x11 ⟨d.code, a.code, t.code, 0#3 ++ BitVec.ofBool sat, imm⟩
  | .sub h t sat d a b => encP h 0x12 d.code a.code b.code 0 t (0#8 ++ BitVec.ofBool sat)
  | .mul h t d a b => encP h 0x13 d.code a.code b.code 0 t 0
  | .mulImm h t d a imm => encI h 0x14 ⟨d.code, a.code, t.code, 0, imm⟩
  | .mulhi h t d a b => encP h 0x15 d.code a.code b.code 0 t 0
  | .mad h t d a b c => encP h 0x16 d.code a.code b.code c.code t 0
  | .div h t d a b => encP h 0x17 d.code a.code b.code 0 t 0
  | .rem h t d a b => encP h 0x18 d.code a.code b.code 0 t 0
  | .min h t d a b => encP h 0x19 d.code a.code b.code 0 t 0
  | .max h t d a b => encP h 0x1A d.code a.code b.code 0 t 0
  | .abs h t sat d a => encP h 0x1B d.code a.code 0 0 t (0#8 ++ BitVec.ofBool sat)
  | .neg h t sat d a => encP h 0x1C d.code a.code 0 0 t (0#8 ++ BitVec.ofBool sat)
  | .sad h t d a b c => encP h 0x1D d.code a.code b.code c.code t 0
  | .lea h t s d a b => encP h 0x1E d.code a.code b.code 0 t (0#6 ++ s)
  | .movImm h t d imm => encI h 0x1F ⟨d.code, 0, t.code, 0, imm⟩
  | .mov h t d a => encP h 0x20 d.code a.code 0 0 t 0
  | .movhi h t hi52 d a imm => encI h 0x21 ⟨d.code, a.code, t.code, 0#3 ++ BitVec.ofBool hi52, imm⟩
  | .and h t d a b => encP h 0x22 d.code a.code b.code 0 t 0
  | .andImm h t d a imm => encI h 0x23 ⟨d.code, a.code, t.code, 0, imm⟩
  | .or h t d a b => encP h 0x24 d.code a.code b.code 0 t 0
  | .orImm h t d a imm => encI h 0x25 ⟨d.code, a.code, t.code, 0, imm⟩
  | .xor h t d a b => encP h 0x26 d.code a.code b.code 0 t 0
  | .xorImm h t d a imm => encI h 0x27 ⟨d.code, a.code, t.code, 0, imm⟩
  | .not h t d a => encP h 0x28 d.code a.code 0 0 t 0
  | .shl h t d a b => encP h 0x29 d.code a.code b.code 0 t 0
  | .shlImm h t d a imm => encI h 0x2A ⟨d.code, a.code, t.code, 0, imm⟩
  | .shr h t d a b => encP h 0x2B d.code a.code b.code 0 t 0
  | .shrImm h t d a imm => encI h 0x2C ⟨d.code, a.code, t.code, 0, imm⟩
  | .rot h t d a b => encP h 0x2D d.code a.code b.code 0 t 0
  | .popc h t d a => encP h 0x2E d.code a.code 0 0 t 0
  | .clz h t d a => encP h 0x2F d.code a.code 0 0 t 0
  | .brev h t d a => encP h 0x30 d.code a.code 0 0 t 0
  | .bfe h t d a b => encP h 0x31 d.code a.code b.code 0 t 0
  | .bfi h t d a b c => encP h 0x32 d.code a.code b.code c.code t 0
  | .cmp h t cc dp a b => encP h 0x33 (predCode dp) a.code b.code 0 t (0#6 ++ cc)
  | .cmpImm h t cc dp a imm => encI h 0x34 ⟨predCode dp, a.code, t.code, 0#1 ++ cc, imm⟩
  | .sel h t d a b cp => encP h 0x35 d.code a.code b.code (predCode cp) t 0
  | .pand h dp ap bp => encP h 0x36 (predCode dp) (predCode ap) (predCode bp) 0 .none 0
  | .por h dp ap bp => encP h 0x37 (predCode dp) (predCode ap) (predCode bp) 0 .none 0
  | .pxor h dp ap bp => encP h 0x38 (predCode dp) (predCode ap) (predCode bp) 0 .none 0
  | .pnot h dp ap => encP h 0x39 (predCode dp) (predCode ap) 0 0 .none 0
  | .leaPriv h d a b => encP h 0x3A d.code a.code b.code 0 .none 0
  | .leaPrivSelf h d a => encP h 0x3A d.code a.code 0 0 .none 1
  | .srGet h d n => encI h 0x3B ⟨d.code, 0, 0, 0, BitVec.ofNat 26 n.num⟩
  | .srSet h n a => encI h 0x3C ⟨0, a.code, 0, 0, BitVec.ofNat 26 n.num⟩
  | .shflIdx h t seg d a b pd =>
      encP h 0x40 d.code a.code b.code (pdOptCode pd) t (0#5 ++ seg ++ BitVec.ofBool pd.isSome)
  | .shflUp h t seg d a b pd =>
      encP h 0x41 d.code a.code b.code (pdOptCode pd) t (0#5 ++ seg ++ BitVec.ofBool pd.isSome)
  | .shflDown h t seg d a b pd =>
      encP h 0x42 d.code a.code b.code (pdOptCode pd) t (0#5 ++ seg ++ BitVec.ofBool pd.isSome)
  | .shflXor h t seg d a b pd =>
      encP h 0x43 d.code a.code b.code (pdOptCode pd) t (0#5 ++ seg ++ BitVec.ofBool pd.isSome)
  | .voteAny h dp ap => encP h 0x44 (predCode dp) (predCode ap) 0 0 .none 0
  | .voteAll h dp ap => encP h 0x45 (predCode dp) (predCode ap) 0 0 .none 0
  | .voteBallot h d ap => encP h 0x46 d.code (predCode ap) 0 0 .none 0
  | .scan h t op d a => encP h 0x47 d.code a.code 0 0 t (0#6 ++ op)
  | .scanEx h t op d a => encP h 0x48 d.code a.code 0 0 t (0#6 ++ op)
  | .wred h t op d a => encP h 0x49 d.code a.code 0 0 t (0#6 ++ op)
  | .elect h dp => encP h 0x4A (predCode dp) 0 0 0 .none 0
  | .xch h t m d a pd =>
      encP h 0x4B d.code a.code 0 (pdOptCode pd) t (0#6 ++ BitVec.ofBool pd.isSome ++ m)
  | .matchLanes h t d a => encP h 0x4C d.code a.code 0 0 t 0
  | .fadd h t rm d a b => encP h 0x50 d.code a.code b.code 0 t (0#6 ++ rm)
  | .fsub h t rm d a b => encP h 0x51 d.code a.code b.code 0 t (0#6 ++ rm)
  | .fmul h t rm d a b => encP h 0x52 d.code a.code b.code 0 t (0#6 ++ rm)
  | .ffma h t rm d a b c => encP h 0x53 d.code a.code b.code c.code t (0#6 ++ rm)
  | .fmin h t d a b => encP h 0x54 d.code a.code b.code 0 t 0
  | .fmax h t d a b => encP h 0x55 d.code a.code b.code 0 t 0
  | .fabs h t d a => encP h 0x56 d.code a.code 0 0 t 0
  | .fneg h t d a => encP h 0x57 d.code a.code 0 0 t 0
  | .fcmp h t cc dp a b => encP h 0x58 (predCode dp) a.code b.code 0 t (0#6 ++ cc)
  | .fclass h t d a => encP h 0x59 d.code a.code 0 0 t 0
  | .frcp h t d a => encP h 0x5A d.code a.code 0 0 t 0
  | .fsqrt h t rm d a => encP h 0x5B d.code a.code 0 0 t (0#6 ++ rm)
  | .frsqrt h t d a => encP h 0x5C d.code a.code 0 0 t 0
  | .fexp2 h t d a => encP h 0x5D d.code a.code 0 0 t 0
  | .flog2 h t d a => encP h 0x5E d.code a.code 0 0 t 0
  | .fsin h t d a => encP h 0x5F d.code a.code 0 0 t 0
  | .fcos h t d a => encP h 0x60 d.code a.code 0 0 t 0
  | .ftanh h t d a => encP h 0x61 d.code a.code 0 0 t 0
  | .fdiv h t rm d a b => encP h 0x62 d.code a.code b.code 0 t (0#6 ++ rm)
  | .fdot2 h t rm d a b c => encP h 0x63 d.code a.code b.code c.code t (0#6 ++ rm)
  | .frnd h t rm d a => encP h 0x64 d.code a.code 0 0 t (0#6 ++ rm)
  | .fscale h t rm d a b => encP h 0x65 d.code a.code b.code 0 t (0#6 ++ rm)
  | .hadd2 h t rm d a b => encP h 0x66 d.code a.code b.code 0 t (0#6 ++ rm)
  | .hmul2 h t rm d a b => encP h 0x67 d.code a.code b.code 0 t (0#6 ++ rm)
  | .hfma2 h t rm d a b c => encP h 0x68 d.code a.code b.code c.code t (0#6 ++ rm)
  | .cvt h dt sty rm isat d a =>
      encP h 0x70 d.code a.code 0 0 dt (0#1 ++ BitVec.ofBool isat ++ rm ++ sty)
  | .cvtPk h fmt hi rm d a b c =>
      encP h 0x71 d.code a.code b.code c.code .f32 (0#2 ++ rm ++ BitVec.ofBool hi ++ fmt)
  | .cvtUnpk h fmt idx d a => encP h 0x72 d.code a.code 0 0 .f32 (0#3 ++ idx ++ fmt)
  | .mxPack h fmt d a b => encP h 0x73 d.code a.code b.code 0 .f32 (0#6 ++ fmt)
  | .mxUnpk h fmt d a b => encP h 0x74 d.code a.code b.code 0 .f32 (0#6 ++ fmt)
  | .mxScale h fmt d a => encP h 0x75 d.code a.code 0 0 .f32 (0#6 ++ fmt)
  | .cvtF6 h e d a => encP h 0x76 d.code a.code 0 0 .none (0#8 ++ BitVec.ofBool e)
  | .cvtI4 h sg hi d a => encP h 0x77 d.code a.code 0 0 .none (0#7 ++ BitVec.ofBool hi ++ BitVec.ofBool sg)
  | .fmtSetImm h v => encI h 0x78 ⟨0, 0, 0, 0, 0#6 ++ v⟩
  | .fmtSetReg h a => encI h 0x78 ⟨0, a.code, 0, 1, 0⟩
  | .fmtGet h d => encP h 0x79 d.code 0 0 0 .none 0
  | .fmtGetFlags h d => encP h 0x79 d.code 0 0 0 .none 1
  | .fmtGetFlagsClr h d => encP h 0x79 d.code 0 0 0 .none 3
  | .fmtSeed h a => encP h 0x7A 0 a.code 0 0 .none 0
  | .ld h t s d a imm => encI h 0x80 ⟨d.code, a.code, t.code, memSub s, imm⟩
  | .st h t s d a imm => encI h 0x81 ⟨d.code, a.code, t.code, memSub s, imm⟩
  | .ldx h t ctr d a imm => encI h 0x82 ⟨d.code, a.code, t.code, ctr, imm⟩
  | .ldIdx h t s sh d a b =>
      encR h 0x83 ⟨d.code, a.code, b.code, 0, t.code, s.code, if s = .none then 0 else 1, 0#6 ++ sh⟩
  | .stIdx h t s sh d a b =>
      encR h 0x84 ⟨d.code, a.code, b.code, 0, t.code, s.code, if s = .none then 0 else 2, 0#6 ++ sh⟩
  | .stq h t s ce ctr d =>
      encR h 0x85 ⟨d.code, 244, 0, 0, t.code, s.code, if s = .none then 0 else 2,
        ctr ++ BitVec.ofBool ce ++ 0#4⟩
  | .redQ h t op near rel s ce ctr d =>
      encR h 0x86 ⟨d.code, 244, 0, 0, t.code, s.code, if rel then 2 else 0,
        ctr ++ BitVec.ofBool ce ++ BitVec.ofBool near ++ op⟩
  | .pf h l2 a imm => encI h 0x87 ⟨0, a.code, 0, 0#3 ++ BitVec.ofBool l2, imm⟩
  | .waitCnt h ctr a imm => match a with
      | some o => encI h 0x88 ⟨0, o.code, 3, ctr, imm⟩
      | none => encI h 0x88 ⟨0, 0, 0, ctr, imm⟩
  | .fence h s => encR h 0x89 ⟨0, 0, 0, 0, 0, s.code, 0, 0⟩
  | .atom h t op s od d a b =>
      encR h 0x8A ⟨d.code, a.code, b.code, 0, t.code, s.code, od.code, 0#6 ++ op⟩
  | .cas h t s od d a b c => encR h 0x8B ⟨d.code, a.code, b.code, c.code, t.code, s.code, od.code, 0⟩
  | .red h t op near rel s d a =>
      encR h 0x8C ⟨d.code, a.code, 0, 0, t.code, s.code, if rel then 2 else 0,
        0#5 ++ BitVec.ofBool near ++ op⟩
  | .ll h t s d a imm => encI h 0x8D ⟨d.code, a.code, t.code, memSub s, imm⟩
  | .sc h t s od d a pd => encR h 0x8E ⟨d.code, a.code, 0, predCode pd, t.code, s.code, od.code, 0⟩
  | .waitAddr h t cc s dp a b c =>
      encR h 0x8F ⟨predCode dp, a.code, b.code, c.code, t.code, s.code, 0, 0#6 ++ cc⟩
  | .rvInit h rv na nb =>
      let ab : BitVec 8 × BitVec 1 := match na with | .imm v => (v, 1) | .reg o => (o.code, 0)
      let bc := rvPhaseBits nb
      encP h 0x90 0 ab.1 (bc.1.extractLsb' 8 8) (bc.1.extractLsb' 0 8) .none (0#2 ++ bc.2 ++ ab.2 ++ rv)
  | .rvArr h rv => encP h 0x91 0 0 0 0 .none (0#4 ++ rv)
  | .rvWait h rv n =>
      let bc := rvPhaseBits n
      encP h 0x92 0 0 (bc.1.extractLsb' 8 8) (bc.1.extractLsb' 0 8) .none (0#2 ++ bc.2 ++ 0#1 ++ rv)
  | .rvTest h rv dp n =>
      let bc := rvPhaseBits n
      encP h 0x93 (predCode dp) 0 (bc.1.extractLsb' 8 8) (bc.1.extractLsb' 0 8) .none (0#2 ++ bc.2 ++ 0#1 ++ rv)
  | .gSet h slot ap => encP h 0x94 0 (predCode ap) 0 0 .none (0#5 ++ slot)
  | .sigq h a d => encP h 0x95 d.code a.code 0 0 .none 0
  | .cp h c => encC h 0xA0 c
  | .cpFeed h c => encC h 0xA1 c
  | .cpYield m ofs => encP (u m) 0xA2 0 0 (ofs.extractLsb' 8 8) (ofs.extractLsb' 0 8) .none 0
  | .cpColl h c => encC h 0xA3 c
  | .cpPut h c => encC h 0xA4 c
  | .cpGet h c => encC h 0xA5 c
  | .mma h c => encC h 0xA6 c
  | .mmaTwin h c => encC h 0xA7 c
  | .mmaBud m d => encP (u m) 0xA8 d.code 0 0 0 .none 0
  | .accZeroImm h dst n slot kind index =>
      fullWord h.mark 0xA9 h.guard.bits
        (CBody.bits ⟨dst, n.extractLsb' 10 6, n.extractLsb' 0 10, 0, BitVec.ofBool slot.isSome, slot.getD 0, 0, 0, 0,
          kind, index, 0⟩)
  | .accZeroReg h dst src slot kind index =>
      fullWord h.mark 0xA9 h.guard.bits
        (CBody.bits ⟨dst, src, 0, 0, BitVec.ofBool slot.isSome, slot.getD 0, 0, 0, 0, kind, index, 1⟩)
  | .accLd h d a => encP h 0xAA d.code a.code 0 0 .none 0
  | .accFin h chk shape d a b c =>
      encP h 0xAB d.code a.code b.code c.code .none (shape ++ BitVec.ofBool chk ++ 0#3)
  | .wb h a b => encP h 0xC0 0 a.code b.code 0 .none 0
  | .ii h a b => encP h 0xC1 0 a.code b.code 0 .none 0
  | .fbar m => encZ (u m) 0xC2
  | .nodePost h a => encP h 0xC3 0 a.code 0 0 .none 0
  | .discard h a b => encP h 0xC4 0 a.code b.code 0 .none 0
  | .rngInv h a => encP h 0xF0 0 a.code 0 0 .none 0
  | .rngInvAll h a => encP h 0xF0 0 a.code 0 0 .none 1
  | .rngSync m => encZ (u m) 0xF1
  | .zline h a => encP h 0xF2 0 a.code 0 0 .none 0
  | .fenceHb m => encZ (u m) 0xF3
  | .ebbSlide h d a b c => encP h 0xF4 d.code a.code b.code c.code .none 0
  | .ebbStat h d a => encP h 0xF5 d.code a.code 0 0 .none 0
  | .halt h => encZ h 0xF6
  | .shortPair m h1 h2 => BitVec.ofBool m ++ 1#1 ++ encHalf h1 ++ encHalf h2
  | _ => 0

/-- The instruction that the decoder reads from a table word: the A-slice's reading of the low 64 bits, and
the C-slice's where the A-slice has none (R232). -/
def decodeTableWord (_nbits w : Nat) : Option Instr :=
  match decode .a (BitVec.ofNat 64 w) with
  | .ok i => some i
  | .error _ => match decode .c (BitVec.ofNat 64 w) with
    | .ok i => some i
    | .error _ => none

end Sys2Proof
end

