-- ==== Sys2Proof/Machine/State.lean ====
section
/-! DEFINITION. The state of the package as plain data: everything the spec gives the machine, the things in
flight between its agents, and the model's own agenda of turns. `State.reset` is the machine at power-on
(R6, R414). A `Table` is a list of numbered entries; an entry that is not listed has the default the
accessor of `Ops` names. -/

namespace Sys2Proof.Machine

/-- Numbered entries, ascending. -/
abbrev Table (α : Type) := List (Nat × α)

/-- A byte of an operand FIFO, and whether its value is open: the feed that appended it met poison there, or an
uncorrectable error took it. -/
abbrev FifoByte := Byte × Bool

/-! Warps -/

/-- Why a word of a split has not issued, for R339 and the trap record (R387). -/
inductive Wait where
  | none
  /-- a pop, `br.q` or `br.back`: queue 0-3 f0-f3, 4 sa, 5 branch outcomes, 6 back -/
  | pop (q : Nat) (m : Mask)
  /-- a push into a full queue, or of a load past the slip limit -/
  | push (q : Nat) (load : Bool)
  /-- a fifth unmatched command or resolution of a guard slot -/
  | guard (g : Nat)
  /-- `wait.cnt`: counter and threshold -/
  | counter (ck : Nat) (theta : BitVec 32)
  /-- `rv.wait` for a phase; or a third `rv.arr`, or a command that would credit phase P + 2 -/
  | rendezvous (rv : Nat) (phase : Option (BitVec 32))
  /-- `wait.addr`: scope, deadline tick, the watched lines or blocks, whether these are of the tidepool, and whether
  a change or 64 ticks have woken the split for another pass -/
  | addr (sc : Scope) (deadline : Nat) (lines : List Nat) (tide woken : Bool)
  /-- `xch` for its partner: m -/
  | exchange (m : Nat)
  /-- an engine queue that holds 16 commands -/
  | engine
  /-- earlier accesses of the stream (R132 to R138, R363) -/
  | order
  /-- an unmatched guarded command of the warp, behind which a rendezvous instruction waits (R14, R200) -/
  | behind
  /-- the thirteenth word past an access whose translation has not ended (R383), or a word whose own span awaits a walk -/
  | translation
  /-- an instruction fetch -/
  | fetch
  /-- `fence.hb`: the tick count when its earlier accesses were complete (R136) -/
  | heartbeat (tick : Nat)
  /-- the word raised a decode trap: the split issues nothing after it (R383) -/
  | trapped
  deriving DecidableEq, Repr

/-- A fault met by an access (R40, R201). -/
structure Fault40 where
  code : Nat
  sub  : Nat
  addr : Word
  lanes : Mask
  pc   : Word
  deriving DecidableEq, Repr

/-! Results and accesses in flight -/

/-- One register or predicate write (R189). -/
inductive Write where
  | vec (r lane : Nat) (v : Word)
  | scal (r lane : Nat) (v : Word)
  | pred (p lane : Nat) (b : Bool)
  /-- exceptions of a lane, for the flag word (R293) -/
  | flag (lane : Nat) (f : BitVec 5)
  deriving DecidableEq, Repr

/-- Where an access puts what it reads. -/
inductive Dst where
  | none
  | reg (o : Opd)
  /-- entry of queue q (0-3 forward, 4 sa); 99 when it was discarded (R316) -/
  | queue (q entry : Nat)
  | counter (o : Opd) (ck : Nat)
  | pred (p : Nat)
  deriving DecidableEq, Repr

/-- What an access does at memory. -/
inductive AccOp where
  | load
  | store
  | prefetch (l2 : Bool)
  | atom (op : BitVec 3)
  | cas
  | red (op : BitVec 3) (near : Bool)
  | ll
  | sc
  | zline
  | discard
  | accLd
  deriving DecidableEq, Repr

/-- How far a piece has come. -/
inductive PSt where
  | wait | sent | done
  deriving DecidableEq, Repr

/-- The descriptor attributes an access was translated with (R31, R36). -/
structure Xlat where
  ctx : Nat
  index : Nat
  /-- virtual base -/
  base : Word
  key : Nat
  fn : Nat
  cache : BitVec 2
  sc : Bool
  acc : Bool
  moving : Bool
  align : Nat
  /-- physical addresses of range offset 0, now and, while moving, before -/
  pa : Nat
  oldpa : Nat
  blocks : Nat
  tideLine : Nat
  deriving DecidableEq, Repr

/-- A piece of one lane's access within one physical line (R38, R68). -/
structure Piece where
  lane : Nat
  /-- global virtual address, or tidepool offset -/
  va  : Word
  /-- position in the lane's element -/
  pos : Nat
  len : Nat
  /-- team whose tidepool allocation holds it; none for memory -/
  tide : Option Nat
  line : Nat
  lo   : Nat
  xl   : Option Xlat
  st   : PSt
  /-- bytes to store, or bytes read -/
  data : List Byte
  bad  : Bool
  deriving DecidableEq, Repr

/-- An outstanding result or access (R189, R383). -/
structure Flight where
  id : Nat
  stream : StreamRef
  owner : Mask
  pc : Word
  /-- results computed at issue; an access leaves this empty until it is bound -/
  writes : List Write
  op : Option AccOp
  dst : Dst
  ty : Ty
  scope : Scope
  acq : Bool
  rel : Bool
  /-- address, data and comparand of each active lane -/
  lanes : List (Nat × Word × List Byte × List Byte)
  /-- its translation has not ended: a range walk is awaited -/
  walking : Bool
  /-- lanes not translated yet -/
  todo : Mask
  /-- faults met so far: lane, trap code, subcode, address -/
  faults : List (Nat × Nat × Nat × Word)
  pieces : List Piece
  /-- words its stream has issued, from its own on, while its translation had not ended (R383) -/
  past : Nat
  /-- counter of `stq` and `red.q` with CE -/
  ctr : Option Nat
  stamp : BitVec 32
  /-- its trap was raised; RESUME reissues it (R390) -/
  faulted : Bool
  /-- a release or fence of .team or wider has followed it in its stream (R138) -/
  fenced : Bool
  /-- accesses of the other slice that it comes after: those before the push of a `stq`'s address (R140) -/
  after : List Nat
  deriving DecidableEq, Repr

/-! Queues and streams -/

/-- One entry of f0-f3 or sa (R191, R201). -/
structure QEntry where
  id     : Nat
  tag    : Mask
  stamp  : Nat
  /-- data of the lanes that have arrived -/
  vals   : Table Word
  /-- lanes whose data are still in flight -/
  flying : Mask
  poisonFault : Mask
  poisonData  : Mask
  record : Option Fault40
  /-- an entry of `sa`: the A-slice's accesses that precede its push and were not complete (R140) -/
  after : List Nat
  /-- the faulting lanes of the load that pushed it, as an access that RESUME reissues (R390) -/
  lost : List Flight
  deriving DecidableEq, Repr

/-- One entry of the branch-outcome queue or the back queue (R191, R193). -/
structure Outcome where
  tag   : Mask
  /-- number of the outcome; for the back queue the limit L of R193 -/
  num   : Nat
  taken : Mask
  deriving DecidableEq, Repr

/-- A running split of a slice (R203). -/
structure Split where
  num   : Nat
  pc    : Word
  mask  : Mask
  /-- reconvergence address -/
  recon : Option Word
  /-- format register (R291) -/
  fmt   : BitVec 32
  /-- `$link` (R258) -/
  link  : Word
  /-- words fetched and not yet issued, with their addresses (R379) -/
  fetched : List (Word × Word)
  /-- parked after a marked word until its outstanding results are made (R189) -/
  parked : Bool
  /-- parked in `cp.yield` with this continuation (R353) -/
  cont  : Option Word
  wait  : Wait
  /-- the deadline that its `wait.addr` first computed, until the word has issued (R328) -/
  deadline : Option Nat
  deriving DecidableEq, Repr

/-- An entry of the reconvergence stack (R204). -/
inductive StackEntry where
  | join (recon : Word) (mask : Mask) (outer : Option Word) (fmt : BitVec 32)
  /-- park: it follows a marked word whose results its lanes still await -/
  | pending (pc : Word) (mask : Mask) (recon : Option Word) (fmt : BitVec 32) (link : Word) (park : Bool)
  deriving DecidableEq, Repr

/-- Lanes parked at their reconvergence address, with their split's link (R206, R259). -/
structure Parked where
  at_  : Word
  mask : Mask
  link : Word
  deriving DecidableEq, Repr

/-- An `xch` that waits for its partner (R280): its operands, and the split that holds it. -/
structure Offer where
  m : Nat
  split : Nat
  mask : Mask
  mark : Bool
  ty : Ty
  d : Opd
  a : Opd
  pd : Option (BitVec 3)
  deriving DecidableEq, Repr

/-- What uses an image of a descriptor, or is a store that something waits for: an access, emission or gather-buffer entry by
its serial number, or a request on its way to its home by the number of its message. -/
inductive User where
  | access (id : Nat)
  | request (id : Nat)
  deriving DecidableEq, Repr

/-- One slice of a warp. Register r of lane l is entry 32 r + l. -/
structure SliceState where
  regs  : Table Word
  scal  : Table Word
  preds : Table Mask
  counters : Table (BitVec 32)
  /-- error marks of commands that advanced a counter and that no acquire has observed (R346) -/
  marks : List (Nat × Fault40)
  flags : BitVec 32
  /-- generator states (R289) -/
  gens  : Table (BitVec 32)
  splits : List Split
  /-- newest first -/
  stack : List StackEntry
  parked : List Parked
  exited : Mask
  ended  : Bool
  /-- one more than the last branch outcome each lane has popped (R193) -/
  lastPop : Table Nat
  /-- `xch` words that wait for their partners, oldest first: a word pairs with the partner's oldest of its m, so
  that the i-th of each side pair (R280) -/
  offers : List Offer
  /-- accesses translated with images that an `rng.inv` of this slice has invalidated (R368) -/
  invs : List User
  /-- words the stream may still issue once a halt has reached it (R384) -/
  halt  : Option Nat
  skid  : Nat
  deriving DecidableEq, Repr

/-- Unmatched commands and resolutions of a guard slot (R198). -/
structure GSlot where
  cmds : List Nat
  res  : List Bool
  deriving DecidableEq, Repr

/-- An LL reservation (R326, R329). -/
structure Resv where
  tide : Bool
  /-- physical line, or 128-byte block of tidepool offset -/
  line : Nat
  addr : Nat
  width : Nat
  deriving DecidableEq, Repr

/-- A warp (R190). -/
structure Warp where
  quarter : Nat
  stage   : Nat
  dead : Mask
  slip : BitVec 32
  f0 : List QEntry
  f1 : List QEntry
  f2 : List QEntry
  f3 : List QEntry
  sa : List QEntry
  boq : List Outcome
  /-- branch outcomes pushed so far -/
  pushed : Nat
  back : List Outcome
  slots : Table GSlot
  resv : Table Resv
  /-- commands with KIND 3 not yet signalled (R344) -/
  yields : Nat
  a : SliceState
  c : SliceState
  retired : Bool
  /-- this warp's own cause in a trap record (R385) -/
  cause : Option (Nat × Nat)
  deriving DecidableEq, Repr

/-! Teams -/

/-- A rendezvous point (R330). -/
structure Rv where
  init : Bool
  ea : Nat
  eb : Nat
  p  : BitVec 32
  /-- arrivals and bytes of phases P and P + 1 -/
  arr0 : Nat
  arr1 : Nat
  by0 : Nat
  by1 : Nat
  /-- lane masks of each warp for phases P and P + 1, and the warps that have arrived -/
  lanes0 : Table Mask
  lanes1 : Table Mask
  in0 : List Nat
  in1 : List Nat
  /-- warps retired with every lane dead whose fall of EA waits for the next phase (R211) -/
  fall : Nat
  /-- error marks observed with a phase (R346): phase number and fault -/
  marks : List (Nat × Fault40)
  deriving DecidableEq, Repr

/-- A team trap (R382, R386). -/
structure Trap where
  code : Nat
  sub  : Nat
  addr : Word
  lanes : Mask
  warp : Nat
  slice : Slice
  engine : Bool
  pop  : Bool
  pc   : Word
  apc  : Word
  detail : Word
  /-- the split that raised it and the access that faulted, for RESUME and SKIP (R390) -/
  split : Nat
  access : Option Nat
  deriving DecidableEq, Repr

/-- What a team is doing. -/
inductive TStatus where
  | running
  /-- halting for a trap (R384) -/
  | trapping
  /-- halting for a pre-emption (R228) -/
  | saving
  /-- saved: blocks of the save area, by number -/
  | saved (blocks : List Nat)
  /-- trapped, with its record's address and blocks; header-only when image is false -/
  | trapped (rec : Word) (blocks : List Nat) (image : Bool)
  deriving DecidableEq, Repr

/-- A team (R185, R186, R224). -/
structure Team where
  ctx  : Nat
  /-- `$node` -/
  node : Word
  /-- linear index in the grid -/
  n : Nat
  x : Nat
  y : Nat
  z : Nat
  gx : Nat
  gy : Nat
  gz : Nat
  /-- warps, C granules and A granules of each stage -/
  stages : List (Nat × Nat × Nat)
  entries : List Word
  flags : BitVec 16
  nrv : Nat
  privBase : Word
  privSize : Nat
  /-- bytes of the tidepool allocation, and those that are not 0 -/
  tpSize : Nat
  tide : List Host.Cell
  core : Nat
  root : Bool
  status : TStatus
  primary : Option Trap
  /-- the first value from 1 to 3 written to RESOLVE of its trap record (R390) -/
  resolve : Option Nat
  /-- serial number of the placement (R228) -/
  placed : Nat
  /-- number of the node's posting: teams of one posting are teams of one node (R380) -/
  post : Nat
  /-- its trap record is chained and still to be handed over, once the writes of these counts are complete (R389, R391) -/
  telling : Option (List Nat)
  warps : Table Warp
  rvs : Table Rv
  /-- FIFO bytes saved with the team (R352) -/
  fifoA : List FifoByte
  fifoB : List FifoByte
  /-- and those of a twin's odd core (R377) -/
  fifoOdd : List FifoByte
  deriving DecidableEq, Repr

/-! Messages -/

/-- An end of a message: a core, a home slice (die * 16 + slice), or another agent by number (R116). -/
inductive Node where
  | core (n : Nat)
  | home (n : Nat)
  | agent (n : Nat)
  deriving DecidableEq, Repr

/-- What a request carries besides its line (R65, R103). -/
structure Req where
  /-- flight of the access; none for a request of no stream -/
  flight : Option Nat
  ctx : Nat
  index : Nat
  /-- range offset of its first byte, and its place in the line -/
  off : Nat
  lo : Nat
  moving : Bool
  key : Nat
  fn : Nat
  cache : BitVec 2
  stamp : BitVec 32
  agent : Nat
  deriving DecidableEq, Repr

/-- Per-lane operands of an atomic at home: lane, byte in line, operand, comparand. -/
abbrev LaneOp := Nat × Nat × List Byte × List Byte

/-- The messages of R103, with the requests and answers they carry. -/
inductive Body where
  /-- alloc: the L1 will keep the line; home: a load performed at home (R82); halves: those it reads -/
  | read (r : Req) (alloc home : Bool) (halves : List Bool)
  /-- valid: the halves that the bytes are current in (R123, R125) -/
  | data (r : Req) (bytes : List Byte) (poison : BitVec 2) (valid : List Bool) (alloc : Bool)
  | store (r : Req) (bytes : List (Nat × Byte)) (sc zero : Bool)
  | discard (r : Req) (lo len : Nat) (whole : Bool)
  /-- the place of an agent that is no core in a line's forward queue (R115): the access itself is made by the agent's
  own step; `flight` numbers the agent's thing that waits -/
  | claim (r : Req)
  | atomic (r : Req) (op : AccOp) (ty : Ty) (ops : List LaneOp)
  | reduce (r : Req) (op : BitVec 3) (ty : Ty) (words : List (Nat × List Byte))
  | accLd (r : Req)
  | stack (r : Req) (bytes : List (Nat × Byte)) (drop : Bool)
  | upd (bytes : List (Nat × Byte)) (ack : Nat)
  | uack (ack : Nat)
  | inv (ack : Nat)
  | iack (ack : Nat)
  | evn
  | ureq (r : Req) (op : BitVec 3) (ty : Ty) (words : List (Nat × List Byte))
  | ugrant (r : Req) (op : BitVec 3) (ty : Ty) (words : List (Nat × List Byte))
  | gather (ack : Nat)
  | delta (ack : Nat) (op : BitVec 3) (ty : Ty) (words : List (Nat × List Byte))
  | nodelta (ack : Nat)
  | dwb (op : BitVec 3) (ty : Ty) (words : List (Nat × List Byte))
  | retry (inner : Nat)
  | resteer (r : Req) (tide : Nat)
  | stranded (r : Req)
  deriving DecidableEq, Repr

/-- A message in flight. -/
structure Msg where
  id : Nat
  src : Node
  dst : Node
  line : Nat
  body : Body
  deriving DecidableEq, Repr

/-- An acknowledgement count at home (R105, R110, R118). -/
structure Ack where
  id : Nat
  line : Nat
  left : Nat
  /-- what completes: a store's STACK, an invalidation round, a gather, the invalidations of a settle -/
  round : Bool
  gather : Bool
  settle : Bool
  /-- to whom STACK goes, and with the drop flag -/
  reply : Option (Node × Req)
  deriving DecidableEq, Repr

/-- A settle of a line in progress (R112), a blocking transaction: the host-held halves that it takes back, whether the
line is evicted at its end, the DISCARD that it completes, and the age of the request that caused it. -/
structure Settle where
  line : Nat
  halves : List Bool
  evict : Bool
  /-- a discard: deltas and modified data that come back are dropped (R95) -/
  drop : Bool
  reply : Option (Node × Req)
  stamp : BitVec 32
  agent : Nat
  /-- the function whose request caused it: the write-back of an evicted line is a request of it (R93, R94) -/
  fn : Nat
  /-- L1 copies stay: only deltas are gathered (R124) -/
  keep : Bool
  /-- the host request that has won against a back-invalidation and is performed at its end (R126): its number, its
  function, the address of its half, and whether it is for ownership -/
  grant : Option (Nat × Nat × Nat × Bool)
  deriving DecidableEq, Repr

/-- A reduction of a pair type that its home has begun (R325, R374): the request with the writes that are still to be made,
the acknowledgement counts of those made, whether one of them was a round, whose end takes the writer's copy (R110), and
whether STACK answers it. -/
structure Part where
  m : Msg
  acks : List Nat
  drop : Bool
  reply : Bool
  deriving DecidableEq, Repr

/-- The network and the requests that wait at homes (R115). -/
structure Net where
  msgs : List Msg
  acks : List Ack
  settles : List Settle
  /-- reductions begun at their homes and not complete -/
  parts : List Part
  /-- forward queues: requests that wait for their line, per home -/
  forwards : List Msg
  /-- bounced requests that their agents will reissue after 16 cycles -/
  retries : List Msg
  /-- age stamps of requests of agents that are no cores and hold no place yet (R116): agent, number of the thing, stamp -/
  stamps : List (Nat × Nat × BitVec 32)
  next : Nat
  deriving DecidableEq, Repr

/-! Lines -/

/-- The directory entry of R101, apart from POISON. -/
structure DirEntry where
  hhi : BitVec 2
  hlo : BitVec 2
  mode : BitVec 2
  coarse : Bool
  ptrs : List Nat
  dies : BitVec 64
  deriving DecidableEq, Repr

/-- A line of an L2 slice (R81, R89, R90, R98, R125). -/
structure L2Line where
  key : Nat
  dirty : Bool
  owner : Nat
  streaming : Bool
  used : Nat
  dir : DirEntry
  /-- CXL.cache valid bits of a host-memory line: bytes 0-63 and 64-127 -/
  vlo : Bool
  vhi : Bool
  /-- a blocking transaction is open (R115) -/
  blocked : Bool
  /-- held for one uncached access to host memory alone (R87) -/
  transient : Bool
  deriving DecidableEq, Repr

/-- A request of a memory controller's bank queue (R93). -/
structure McReq where
  fn : Nat
  line : Nat
  write : Bool
  row : Nat
  dropped : Bool
  deriving DecidableEq, Repr

/-- A bank of a pseudo-channel (R93, R94). Banks are numbered channel * 64 + bank. -/
structure Bank where
  reqs : List McReq
  turn : Nat
  openRow : Option Nat
  counts : Table Nat
  /-- functions held, each with the row whose count caused it -/
  held : List (Nat × Nat)
  deriving DecidableEq, Repr

/-- Physical memory beside its bytes (R97 to R101, R421). -/
structure Lines where
  l2 : Table L2Line
  /-- key identity under which a line was last written; unlisted: the cleared mark -/
  keyed : Table Nat
  /-- POISON of a line, bit 0 for bytes 0-63 -/
  poison : Table (BitVec 2)
  banks : Table Bank
  /-- pseudo-channels under retraining: TSV group and mirror log -/
  training : Table (Nat × List Nat)
  /-- HBM coding: inline ECC rather than RS(72,64) (R414, R420) -/
  inline : Bool
  /-- temperature of a pseudo-channel's last training, by stack * 64 + pseudo-channel (R421) -/
  trained : Table (BitVec 16)
  /-- lines whose fill the controller has issued -/
  fills : List Nat
  tick : Nat
  deriving DecidableEq, Repr

/-! Cores -/

/-- A line of an L1 (R81). -/
structure L1Line where
  line : Nat
  key : Nat
  bytes : List Byte
  used : Nat
  deriving DecidableEq, Repr

/-- A U-state delta line (R117). -/
structure DLine where
  line : Nat
  key : Nat
  fn : Nat
  op : BitVec 3
  ty : Ty
  words : List (Nat × List Byte)
  used : Nat
  deriving DecidableEq, Repr

/-- A miss entry (R82). -/
structure Miss where
  id : Nat
  line : Nat
  key : Nat
  /-- flights that joined -/
  flights : List Nat
  /-- no later load joins: the window of 32 cycles has ended -/
  closed : Bool
  /-- the block of a moving range that its loads are of: context, index and block (R66, R371) -/
  block : Option (Nat × Nat × Nat)
  /-- the fill has arrived -/
  fill : Option (List Byte × BitVec 2 × List Bool × Bool)
  /-- bytes that have reached the line since, for the copy alone: the loads that joined are older -/
  later : List (Nat × Byte)
  deriving DecidableEq, Repr

/-- An instruction-cache line (R378). -/
structure ILine where
  line : Nat
  key : Nat
  bytes : List Byte
  used : Nat
  deriving DecidableEq, Repr

/-- A range-buffer entry (R41). -/
structure RBuf where
  ctx : Nat
  index : Nat
  d0 : Word
  d1 : Word
  d2 : Word
  d3 : Word
  used : Nat
  deriving DecidableEq, Repr

/-- What waits for a walk and is no access of a stream: an engine command, or the word that a split holds; and an
instruction fetch of a split. -/
inductive Walker where
  | cmd (id : Nat)
  | word (st : StreamRef)
  | fetch (st : StreamRef)
  deriving DecidableEq, Repr

/-- A pending-walk entry (R43). -/
structure PendWalk where
  ctx : Nat
  /-- address that the walk searches for -/
  va : Word
  region : Nat
  started : Bool
  /-- what waits for it besides the accesses of streams -/
  waiters : List Walker
  deriving DecidableEq, Repr

/-- What a walk has found for what waited and is no access of a stream's flight (R43, R44): the image that translates it,
whether or not the range buffer still holds it at the next attempt, or the fault it meets there. -/
structure Answer where
  who : Walker
  ctx : Nat
  region : Nat
  found : Sum (Nat × Nat) RBuf
  deriving DecidableEq, Repr

/-- The matrix budget of R361. -/
structure Budget where
  last : Nat
  lastTe : Nat
  level : Nat
  deriving DecidableEq, Repr

/-- A core (R76). -/
structure Core where
  l1 : List L1Line
  deltas : List DLine
  misses : List Miss
  icache : List ILine
  ranges : List RBuf
  walks : List PendWalk
  answers : List Answer
  fifoA : List FifoByte
  fifoB : List FifoByte
  /-- team that owns the FIFOs (R352) -/
  fifoOwner : Option Nat
  budget : Budget
  inService : Bool
  /-- posting of the node whose team was most recently dispatched to it (R380) -/
  lastNode : Option Nat
  /-- serial number of the latest placement of a team on it (R228) -/
  placed : Nat
  /-- function for which the core is held, and the tick since when (R228) -/
  heldFor : Option (Nat × Nat)
  /-- context whose CORES node it is reserved for (R224) -/
  reservedFor : Option Nat
  /-- the cluster's L1s are fused (R83), kept at each of its cores -/
  fused : Bool
  /-- the favoured stream of each quarter and slice: key quarter * 2 + slice -/
  favour : Table StreamRef
  tick : Nat
  deriving DecidableEq, Repr

/-! Engines -/

/-- What a command is (R340). -/
inductive CmdKind where
  | cp | feed (fifo : Nat) | coll | put | get | mma | twin | accZero (n : Nat) | accFin (chk : Bool)
  deriving DecidableEq, Repr

/-- How far a command has come. -/
inductive CmdSt where
  | queued
  /-- a true match has been made or none is needed -/
  | running
  /-- its writes are made; bytes credited; error mark -/
  | moved (bytes : Nat)
  /-- a fault stopped it (R345) -/
  | faulted
  deriving DecidableEq, Repr

/-- A command in an engine queue (R342). -/
structure Command where
  id : Nat
  team : Nat
  warp : Nat
  split : Nat
  pc : Word
  kind : CmdKind
  dst : Word
  src : Word
  src2 : Word
  /-- lane that supplied the operands -/
  lane : Nat
  shape : List Word
  slot : Option Nat
  /-- none: unmatched -/
  verdict : Option Bool
  scope : Scope
  tkind : Nat
  tindex : Nat
  /-- rendezvous phase it credits: 0 for P, 1 for P + 1 at issue, as a phase number -/
  phase : BitVec 32
  fmt : BitVec 32
  st : CmdSt
  error : Option Fault40
  /-- `acc.fin`: destination register, active lanes, and the outstanding result they await -/
  reg : Option Opd
  mask : Mask
  result : Option Nat
  /-- the status that it will give -/
  status : Option Nat
  /-- a fence of .team or wider orders it after these flights (R138) -/
  after : List Nat
  /-- toggle estimate and charge, once ready (R360), and times passed over; for a feed, bytes appended so far -/
  te : Option (Nat × Nat)
  passed : Nat
  /-- bytes that a run has consumed: of the A stream, of the B stream, and of the B stream of a twin's odd core -/
  gotA : List FifoByte
  gotB : List FifoByte
  gotOdd : List FifoByte
  /-- a peer's reply that has arrived and is not landed yet -/
  reply : Option Reply
  /-- age of its accesses (R116) -/
  stamp : BitVec 32
  /-- acknowledgement counts of its writes, for its completion (R138) -/
  acks : List Nat
  /-- numbers of the bytes of a copy whose pieces have been performed (R345, R350) -/
  pieces : List Nat
  deriving DecidableEq, Repr

/-- An emission in flight (R167). -/
structure Emission where
  id : Nat
  cmd : Nat
  team : Nat
  core : Nat
  /-- the image that translated its line, and the line's range offset -/
  xl : Xlat
  off : Nat
  vals : List (BitVec 48)
  poison : BitVec 16
  tag : BitVec 8
  scope : Nat
  check : Word
  count : Nat
  deriving DecidableEq, Repr

/-- An entry of a cluster's gather buffer (R172, R444). -/
structure GEntry where
  team : Nat
  ctx : Nat
  index : Nat
  /-- range offset of the line's first byte, plus 128 so that it is never negative -/
  off : Nat
  /-- the line's address when the entry was taken; a slide steers it afresh -/
  pa : Nat
  key : Nat
  fn : Nat
  cache : BitVec 2
  /-- an accumulator image of 128 bytes, or none for a reduction entry -/
  acc : Option (List Byte)
  op : BitVec 3
  ty : Ty
  words : List (Nat × List Byte)
  /-- serial number -/
  id : Nat
  deriving DecidableEq, Repr

/-- A flushed entry of a gather buffer whose reductions are not complete (R105, R137): its team, the lines that it changes,
and the acknowledgement counts and begun reductions awaited. -/
structure Flushed where
  team : Nat
  lines : List Nat
  ids : List Nat
  deriving DecidableEq, Repr

/-- The engines, the pools of range walkers and the fabric's commands in flight. -/
structure Engines where
  cmds : List Command
  emissions : List Emission
  /-- gather buffers, oldest entry first, by cluster -/
  buffers : Table (List GEntry)
  flushed : List Flushed
  /-- collectives issued on each group so far (R410) -/
  groups : Table Nat
  /-- the core that each die's pool of range walkers served last (R42) -/
  walkLast : Table Nat
  deriving DecidableEq, Repr

/-! The Ebb engines -/

/-- A slide slot (R52, R61). -/
structure Slot where
  state : Nat
  ctx : Nat
  index : Nat
  code : Nat
  tide : Nat
  old : Nat
  new_ : Nat
  n : Nat
  /-- blocks in passage that have been read, with their bytes, and those written -/
  read : Table (List Byte × BitVec 2)
  written : List Nat
  /-- the steering entries stand in the L2 slices -/
  steering : Bool
  /-- completion doubleword, and the issuing context -/
  cdw : Word
  issuer : Nat
  /-- acceptance number, for the engine's order -/
  order : Nat
  key : Nat
  abandoned : Bool
  /-- accesses that its next commit waits for: stores of the issuing stream (R59), users of old images (R62) -/
  after : List User
  /-- tick count once a commit's acknowledgements are all there, for the fence that ends it (R62) -/
  tick : Option Nat
  /-- acknowledgement counts of the engine's writes that were not complete when it made them (R62, R64) -/
  acks : List Nat
  deriving DecidableEq, Repr

/-- The Ebb engines: slots 0 to 255. -/
structure Ebb where
  slots : Table Slot
  next : Nat
  deriving DecidableEq, Repr

/-! Nodes and cores held -/

/-- A posted node that is not DONE (R219 to R223). -/
structure PNode where
  ctx : Nat
  va : Word
  prio : Nat
  /-- READY, or WAITING -/
  ready : Bool
  /-- number of its posting -/
  post : Nat
  /-- order in which it became READY -/
  since : Nat
  /-- the record as posting read it (R220) -/
  record : List Byte
  /-- tick of its last dispatch, or of its becoming READY, and whether its starvation holds later nodes back (R223) -/
  tick : Nat
  starved : Bool
  total : Nat
  nextTeam : Nat
  retired : Nat
  root : Bool
  /-- DONE has been written; the acknowledgement counts of that write (R105, R221) -/
  ending : Option (List Nat)
  deriving DecidableEq, Repr

/-- The pre-emption in progress (R227, R228, R230). -/
structure Preempt where
  ctx : Nat
  ben : Option Nat
  want : Nat
  cores : List Nat
  /-- teams that have still to leave these cores -/
  teams : List Nat
  nospace : Bool
  /-- a full context switch (R230) rather than a request of PREEMPT -/
  full : Bool
  deriving DecidableEq, Repr

/-- The node and placement controller. -/
structure Sched where
  nodes : List PNode
  next : Nat
  /-- sum of HELD over the samples of the period, and their number (R226) -/
  sums : Table Nat
  samples : Nat
  preempt : Option Preempt
  switches : List Preempt
  /-- contexts that were saved whole and whose root program is to be restored before all else (R230) -/
  resumed : List Nat
  /-- unresolved trap records of each context, oldest first (R386) -/
  records : Table (List Word)
  deriving DecidableEq, Repr

/-! Headland and the host -/

/-- An entry of the event log (R401). -/
structure Event where
  seq : Nat
  tick : BitVec 64
  type_ : Nat
  fn : Nat
  ctx : Nat
  agent : Nat
  addr : Word
  detail : Word
  deriving DecidableEq, Repr

/-- A firmware bank (R427). -/
structure Bank427 where
  bytes : List Host.Cell
  deriving DecidableEq, Repr

/-- A span that the clearing engine still has to clear (R413). -/
structure Span where
  fn : Nat
  base : Nat
  len : Nat
  /-- lines cleared so far -/
  cleared : Nat
  /-- physical address of its clear-list record -/
  record : Option Nat
  deriving DecidableEq, Repr

/-- A mailbox request that has been carried out and whose answer is not complete (R424): the mailbox, its SEQ, whether DONESEQ
is written, and the writes whose completion is awaited (R105). -/
structure Answering where
  mbx : Nat
  seq : Nat
  done : Bool
  ids : List Nat
  deriving DecidableEq, Repr

/-- Headland (R414 to R428). -/
structure Headland where
  /-- the step of R414 whose end is awaited, 0 before any; 6 once the ports may open -/
  step : Nat
  recovery : Bool
  active : Nat
  bank0 : Bank427
  bank1 : Bank427
  tryNext : Bool
  rollback : Nat
  log : List Event
  logNext : Nat
  /-- own wake word of each context, and of the host mailbox at 64 (R422) -/
  wakes : Table Word
  cap : BitVec 16
  /-- owner and key identity of each key slot (R99, R416) -/
  slotOwner : Table Nat
  slotKey : Table Nat
  nextKey : Nat
  /-- sensors (R426) -/
  intake : BitVec 16
  power : BitVec 16
  dieTemp : Table (BitVec 16)
  hbmTemp : Table (BitVec 16)
  /-- HBM stacks whose warming load runs; dies held at 1.6 GHz (R419) -/
  warming : List Nat
  hot : List Nat
  /-- HBM stacks whose neighbouring arrays run at half RATE, and steps of RATE taken away by power (R419) -/
  hotStacks : List Nat
  lowered : Nat
  leaf : Nat
  spans : List Span
  /-- dies, and pseudo-channels of stacks, that Headland has removed as lost (R395) -/
  lostDies : List Nat
  lostChannels : List (Nat × Nat)
  /-- the mailbox served last, and answers that are not complete (R424) -/
  lastMbx : Nat
  answered : List Answering
  /-- halves of host memory that Headland has read in recovery mode for the request in service, by address / 64 (R415) -/
  pulled : Table (List Byte)
  /-- functions whose ROTATE goes on (R412) -/
  rotating : List Nat
  /-- ticks for which module power has exceeded the cap, and for which it has stayed below 95 % of it (R419) -/
  overTicks : Nat
  underTicks : Nat
  deriving DecidableEq, Repr

/-- What a command asks of peers (R356, R408, R410). -/
inductive FabricTo where
  /-- a peer handle, and the remote address of each byte -/
  | put (handle : Word) (addrs : List Word)
  | get (handle : Word) (addrs : List Word)
  /-- the i-th collective of a group, with the fabric numbers of its members in rank order, OP, WFMT and COLS -/
  | coll (group i : Nat) (members : List Nat) (op wfmt cols : Nat)
  /-- the i-th collective of a group gives REMOTE at every member -/
  | reject (group i : Nat)
  deriving DecidableEq, Repr

/-- A reply to the host, or a message out of the package, as an output. -/
inductive Out where
  | read (tag : Nat) (bytes : List Byte) (poison : Bool)
  | written (addr : BitVec 52)
  | granted (addr : BitVec 52) (owned : Bool) (bytes : List Byte) (poison : Bool)
  /-- the answer to a host snoop: the half's modified bytes, or none -/
  | answer (addr : BitVec 52) (bytes : List Byte)
  | snoop (addr : BitVec 52) (invalidate : Bool)
  | msix (fn vector : Nat)
  | fetch (addr : BitVec 52) (port : Nat)
  | store (addr : BitVec 52) (bytes : List Byte)
  /-- a command's request to peers, under the tag of the issuing context (R408), and the bytes that it sends; none: it could
  not read the byte (R346) -/
  | fabric (cmd tag : Nat) (dest : FabricTo) (bytes : List (Option Byte))
  /-- the answer to a peer's request; none: the byte is poisoned -/
  | remote (ticket : Nat) (bytes : List (Option Byte)) (ok : Bool)
  deriving DecidableEq, Repr

/-- A request of a peer that waits for what it touches (R409, R115). -/
structure RemoteWait where
  tag : BitVec 16
  ctx : Nat
  op : RemoteOp
  ticket : Nat
  deriving DecidableEq, Repr

/-- What the host asks for. -/
inductive HostAsk where
  | shared | own
  | read (len tag : Nat)
  | write (bytes : List Byte)
  | snoop (invalidate : Bool)
  /-- a write-back of an owned half (R124) -/
  | back (bytes : List Byte)
  deriving DecidableEq, Repr

/-- A host access that waits, with its arrival stamp (R116, R122, R126), at a host address; a snoop at a device address. -/
structure HostWait where
  id : Nat
  stamp : BitVec 32
  agent : Nat
  ask : HostAsk
  addr : Nat
  deriving DecidableEq, Repr

/-- The host side (R402 to R407) and the fabric's ports. -/
structure HostSide where
  ports : Table Bool
  out : List Out
  /-- back-invalidations sent and not answered: line, half, write, device stamp and agent -/
  backInv : List (Nat × Bool × Bool × BitVec 32 × Nat)
  waits : List HostWait
  /-- outputs that wait until writes are complete (R105): the answers to CXL.mem writes (R143) and to peers' requests
  (R409), and interrupts that follow a controller's write (R424), each with the acknowledgement counts awaited -/
  pending : List (Out × List Nat)
  /-- the port through which the host holds a half owned -/
  owners : List (Nat × Bool × Nat)
  /-- halves of host memory asked of the host and not arrived (R125) -/
  fetches : List (Nat × Bool)
  fabricDown : List Nat
  /-- requests of peers that wait -/
  remotes : List RemoteWait
  deriving DecidableEq, Repr

/-- Clocks (R186, R417, R418). -/
structure Time where
  hb : Table Nat
  /-- the serial number that was next when the die last ticked, from which cycles within the tick are counted -/
  since : Table Nat
  clk : Table Nat
  stretching : Table (BitVec 16)
  stretches : Table (BitVec 32)
  /-- clocks that a die has run at before: the tick at which each ended, and its MHz (R426) -/
  past : Table (List (Nat × BitVec 16))
  /-- stretches in the current window of 820 ticks, with the lowest frequency -/
  window : Table (Nat × Nat)
  deriving DecidableEq, Repr

/-- One turn of the model's agenda: an event of some agent, or a stream that issues. -/
inductive Turn where
  | event (i : Instr)
  | issue (st : StreamRef)
  deriving DecidableEq, Repr

/-- A quarter's favour in a slice is to pass to the next ready stream after one, of its warp alone or of all (R188, R262). -/
structure Pass where
  core : Nat
  quarter : Nat
  slice : Slice
  after : Option StreamRef
  warp : Bool
  deriving DecidableEq, Repr

/-- The model's own fields: which agent moves next. Not the spec's. -/
structure Agenda where
  /-- turns still to take, first first -/
  tape : List Turn
  /-- turns taken past the end of the tape -/
  round : Nat
  /-- the stream that issues in this step -/
  cur : Option StreamRef
  /-- counter that free values are taken at -/
  free : Nat
  /-- serial number of the next flight, team or queue entry -/
  next : Nat
  /-- favours that the turn under way has passed: none stands between two steps -/
  passes : List Pass
  deriving DecidableEq, Repr

/-- The machine. -/
structure State where
  mem : List Host.Cell
  lines : Lines
  net : Net
  cores : Table Core
  teams : Table Team
  flights : List Flight
  engines : Engines
  /-- control registers by number (`Reg.key`); unlisted: the reset value of the field maps -/
  ctl : Table Word
  ebb : Ebb
  sched : Sched
  head : Headland
  host : HostSide
  time : Time
  agenda : Agenda
  deriving DecidableEq, Repr

/-- Fault reasons: none. Every fault of the spec is a trap, a poisoned value, an error mark or a log entry,
each a next state; no meaning of this model ends in a fault, so nothing raises one. Safe. -/
inductive Fault where
  deriving DecidableEq, Repr

/-- Refusals of the model. -/
inductive Refusal where
  /-- An arm of `exec` that has no meaning yet. Safe. -/
  | notModelled (mnemonic : String)
  /-- A word was given to `exec` while no running split issues (`agenda.cur`): no machine of the spec issues
  a word without a stream. `step` never does so. Safe. -/
  | noStream
  deriving DecidableEq, Repr

/-! Reset -/

/-- The reset directory entry (R101). -/
def DirEntry.reset : DirEntry := ⟨0, 0, 0, false, [], 0⟩

/-- A core at power-on; its budget status has the Reset column of R361. -/
def Core.reset : Core :=
  { l1 := [], deltas := [], misses := [], icache := [], ranges := [], walks := [], answers := [], fifoA := [], fifoB := [],
    fifoOwner := none, budget := ⟨0, 0, 0xFFFF⟩, inService := true, lastNode := none, placed := 0, heldFor := none,
    reservedFor := none, fused := false, favour := [], tick := 0 }

/-- A slide slot at power-on: FREE (R61). -/
def Slot.reset : Slot := ⟨0, 0, 0, 0, 0, 0, 0, 0, [], [], false, 0, 0, 0, 0, false, [], none, []⟩

/-- Headland at power-on: step 1 of R414 has not ended. -/
def Headland.reset : Headland :=
  { step := 0, recovery := false, active := 0, bank0 := ⟨[]⟩, bank1 := ⟨[]⟩, tryNext := false, rollback := 0,
    log := [], logNext := 0, wakes := [], cap := 0, slotOwner := [], slotKey := [], nextKey := 1, intake := 0,
    power := 0, dieTemp := [], hbmTemp := [], warming := [], hot := [], hotStacks := [], lowered := 0, leaf := 0, spans := [],
    lostDies := [], lostChannels := [], lastMbx := 64, answered := [], pulled := [], rotating := [], overTicks := 0, underTicks := 0 }

/-- The machine right after power-on: every register at the Reset column of its field map, memory with
nothing listed, and no cold start step ended (R6, R414). -/
def State.reset : State :=
  { mem := [],
    lines := ⟨[], [], [], [], [], true, [], [], 0⟩,
    net := ⟨[], [], [], [], [], [], [], 0⟩,
    cores := [],
    teams := [],
    flights := [],
    engines := ⟨[], [], [], [], [], []⟩,
    ctl := [],
    ebb := ⟨[], 0⟩,
    sched := ⟨[], 0, [], 0, none, [], [], []⟩,
    head := Headland.reset,
    host := ⟨[], [], [], [], [], [], [], [], []⟩,
    time := ⟨[], [], [], [], [], [], []⟩,
    agenda := ⟨[], 0, none, 0, 0, []⟩ }

end Sys2Proof.Machine
end

