-- ==== Sys2Proof/Machine/Ops.lean ====
section
/-! DEFINITION. The named operations on tables, memory, lanes, teams and splits; merging and parking of
splits; and the raising of a team trap, the one operation that takes an exception (R383 to R385). -/

namespace Sys2Proof.Machine

/-! Tables -/

/-- The entry of a table, if listed. -/
def tget? {α : Type} (t : Table α) (k : Nat) : Option α :=
  match t with
  | [] => none
  | (i, a) :: t => if i = k then some a else tget? t k

/-- The entry, or its default. -/
def tget {α : Type} (t : Table α) (k : Nat) (d : α) : α := (tget? t k).getD d

/-- Puts an entry in its place. -/
def tset {α : Type} (t : Table α) (k : Nat) (a : α) : Table α :=
  match t with
  | [] => [(k, a)]
  | (i, b) :: t => if k < i then (k, a) :: (i, b) :: t else if k = i then (k, a) :: t else (i, b) :: tset t k a

/-- Removes an entry. -/
def tdel {α : Type} (t : Table α) (k : Nat) : Table α := t.filter (·.1 != k)

/-- Changes an entry that is listed. -/
def tmod {α : Type} (t : Table α) (k : Nat) (f : α → α) : Table α :=
  match tget? t k with
  | some a => tset t k (f a)
  | none => t

/-! Memory: the home value of every physical byte, held once (log entry 2) -/

/-- What a byte that is not listed reads as: the cleared mark of R100 and R416 (log entry 1). -/
def memDefault : Byte := 0

/-- The canonical form: addresses strictly rising, and no entry equal to the default. -/
def Memory.wf (m : List Host.Cell) : Bool :=
  match m with
  | [] => true
  | (i, b) :: m => b != memDefault && m.all (fun c => decide (i < c.1)) && Memory.wf m

/-- One byte. -/
def memRead (m : List Host.Cell) (a : Nat) : Byte :=
  match m with
  | [] => memDefault
  | (i, b) :: m => if i = a then b else memRead m a

/-- Writes one byte and keeps the canonical form. -/
def memWrite (m : List Host.Cell) (a : Nat) (b : Byte) : List Host.Cell :=
  match m with
  | [] => if b = memDefault then [] else [(a, b)]
  | (i, c) :: m =>
      if a < i then (if b = memDefault then (i, c) :: m else (a, b) :: (i, c) :: m)
      else if a = i then (if b = memDefault then m else (a, b) :: m)
      else (i, c) :: memWrite m a b

/-- Consecutive bytes. -/
def memReads (m : List Host.Cell) (a n : Nat) : List Byte := (List.range n).map fun i => memRead m (a + i)

/-- Writes consecutive bytes, first first. -/
def memWrites (m : List Host.Cell) (a : Nat) (bs : List Byte) : List Host.Cell :=
  match bs with
  | [] => m
  | b :: bs => memWrites (memWrite m a b) (a + 1) bs

/-- Little-endian value of bytes (R4). -/
def leNat (bs : List Byte) : Nat :=
  match bs with
  | [] => 0
  | b :: bs => b.toNat + 256 * leNat bs

/-- The n little-endian bytes of a value. -/
def leBytes (n v : Nat) : List Byte :=
  match n with
  | 0 => []
  | n + 1 => BitVec.ofNat 8 v :: leBytes n (v / 256)

/-- Little-endian doubleword. -/
def leWord (bs : List Byte) : Word := BitVec.ofNat 64 (leNat bs)

/-! Lanes -/

/-- Lane l alone. -/
def laneBit (l : Nat) : Mask := 1#32 <<< l

/-- The lanes of a mask, ascending. -/
def lanesOf (m : Mask) : List Nat := (List.range 32).filter m.getLsbD

/-- The mask of the lanes that satisfy p. -/
def maskOf (p : Nat → Bool) : Mask := ((List.range 32).filter p).foldl (fun m l => m ||| laneBit l) 0

/-- The lowest lane of a mask. -/
def lowLane (m : Mask) : Option Nat := (List.range 32).find? m.getLsbD

/-- m lies within n. -/
def within_ (m n : Mask) : Bool := m &&& ~~~n == 0

/-! Teams, warps, slices and splits -/

/-- The slice of a warp. -/
def Warp.slice (w : Warp) : Slice → SliceState
  | .a => w.a
  | .c => w.c

def Warp.setSlice (w : Warp) (sl : Slice) (x : SliceState) : Warp :=
  match sl with
  | .a => { w with a := x }
  | .c => { w with c := x }

/-- Live lanes of a slice: neither exited nor dead. -/
def Warp.live (w : Warp) (sl : Slice) : Mask := ~~~(w.slice sl).exited &&& ~~~w.dead

def State.team? (s : State) (t : Nat) : Option Team := tget? s.teams t

def State.modTeam (s : State) (t : Nat) (f : Team → Team) : State := { s with teams := tmod s.teams t f }

def State.modWarp (s : State) (t w : Nat) (f : Warp → Warp) : State :=
  s.modTeam t fun tm => { tm with warps := tmod tm.warps w f }

def State.modSlice (s : State) (t w : Nat) (sl : Slice) (f : SliceState → SliceState) : State :=
  s.modWarp t w fun wp => wp.setSlice sl (f (wp.slice sl))

/-- Changes the split of that number. -/
def SliceState.modSplit (x : SliceState) (n : Nat) (f : Split → Split) : SliceState :=
  { x with splits := x.splits.map fun sp => if sp.num = n then f sp else sp }

def State.modSplit (s : State) (r : StreamRef) (f : Split → Split) : State :=
  s.modSlice r.team r.warp r.slice fun x => x.modSplit r.split f

/-- A core, at its power-on contents when nothing has changed it. -/
def State.core (s : State) (n : Nat) : Core := tget s.cores n Core.reset

def State.modCore (s : State) (n : Nat) (f : Core → Core) : State :=
  { s with cores := tset s.cores n (f (s.core n)) }

/-- The issuing stream, looked up. -/
structure Issue where
  ref : StreamRef
  tm : Team
  wp : Warp
  sl : SliceState
  sp : Split
  deriving DecidableEq, Repr

/-- Looks a stream up. -/
def State.issue? (s : State) (r : StreamRef) : Option Issue :=
  match s.team? r.team with
  | none => none
  | some tm =>
    match tget? tm.warps r.warp with
    | none => none
    | some wp =>
      match (wp.slice r.slice).splits.find? (·.num == r.split) with
      | none => none
      | some sp => some ⟨r, tm, wp, wp.slice r.slice, sp⟩

/-! Flights -/

/-- The flight holds an outstanding result in the sense of R189. -/
def Flight.isResult (f : Flight) : Bool :=
  !f.writes.isEmpty || (match f.dst with | .reg _ | .pred _ => true | _ => false)

/-- The flight belongs to the stream, and to its program order (R128): its lanes meet the mask. -/
def Flight.ofStream (f : Flight) (r : StreamRef) (m : Mask) : Bool :=
  f.stream.team == r.team && f.stream.warp == r.warp && f.stream.slice == r.slice && f.owner &&& m != 0

/-- Outstanding results of lanes of a slice. -/
def State.outstanding (s : State) (r : StreamRef) (m : Mask) : Bool :=
  s.flights.any fun f => f.ofStream r m && f.isResult

def State.flight? (s : State) (id : Nat) : Option Flight := s.flights.find? (·.id == id)

def State.modFlight (s : State) (id : Nat) (f : Flight → Flight) : State :=
  { s with flights := s.flights.map fun x => if x.id = id then f x else x }

def State.dropFlight (s : State) (id : Nat) : State := { s with flights := s.flights.filter (·.id != id) }

/-! Parking, merging and pending splits (R204 to R206, R259) -/

/-- The lowest free split number. -/
def SliceState.freeNum (x : SliceState) : Option Nat :=
  [0, 1, 2, 3].find? fun n => !x.splits.any (·.num == n)

/-- Takes dead and exited lanes out of every mask (R206, R209). The offer of an exchange goes with its split. -/
def SliceState.shrink (x : SliceState) (live : Mask) : SliceState :=
  { x with
    splits := (x.splits.map fun sp => { sp with mask := sp.mask &&& live }).filter (·.mask != 0)
    offers := x.offers.filter fun o => x.splits.any fun sp => sp.num == o.split && sp.mask &&& live != 0
    stack := (x.stack.map fun e => match e with
      | .join r m o f => .join r (m &&& live) o f
      | .pending p m r f l k => .pending p (m &&& live) r f l k).filter fun e => match e with
      | .join _ m _ _ => m != 0
      | .pending _ m .. => m != 0
    parked := (x.parked.map fun p => { p with mask := p.mask &&& live }).filter (·.mask != 0) }

/-- A split that stands at its reconvergence address and waits for no result parks there. -/
def SliceState.parkOne (x : SliceState) : Option SliceState :=
  match x.splits.find? fun sp => sp.recon == some sp.pc && !sp.parked && sp.cont.isNone && sp.wait != .trapped with
  | none => none
  | some sp => some
      { x with splits := x.splits.filter (·.num != sp.num), parked := ⟨sp.pc, sp.mask, sp.link⟩ :: x.parked }

/-- Lanes parked at an address. -/
def SliceState.parkedAt (x : SliceState) (a : Word) : Mask :=
  (x.parked.filter (·.at_ == a)).foldl (fun m p => m ||| p.mask) 0

/-- The newest join entry whose lanes are all parked at its address. -/
def SliceState.joinReady (x : SliceState) : Option (Word × Mask × Option Word × BitVec 32) :=
  x.stack.findSome? fun e => match e with
    | .join r m o f => if within_ m (x.parkedAt r) then some (r, m, o, f) else none
    | .pending .. => none

/-- Starts a split with the lowest free number, or leaves it pending. -/
def SliceState.start (x : SliceState) (pc : Word) (m : Mask) (rc : Option Word) (fmt : BitVec 32) (link : Word)
    (park : Bool) : SliceState :=
  match x.freeNum with
  | some n => { x with splits := x.splits ++ [⟨n, pc, m, rc, fmt, link, [], park, none, .none, none⟩] }
  | none => { x with stack := .pending pc m rc fmt link park :: x.stack }

/-- The parked splits of a complete join entry merge (R206); the link is that of the lowest lane (R259). -/
def SliceState.mergeOne (x : SliceState) : Option SliceState :=
  match x.joinReady with
  | none => none
  | some (r, m, o, f) =>
    let link := match lowLane m with
      | some l => ((x.parked.find? fun (p : Parked) => p.at_ == r && p.mask.getLsbD l).map Parked.link).getD 0
      | none => 0
    let x := { x with
      stack := x.stack.erase (.join r m o f)
      parked := (x.parked.map fun (p : Parked) => if p.at_ == r then { p with mask := p.mask &&& ~~~m } else p).filter
        (fun p => p.mask != 0) }
    some (x.start r m o f link false)

/-- A pending entry starts while a split number is free (R206): the oldest first. -/
def SliceState.startOne (x : SliceState) : Option SliceState :=
  match x.freeNum with
  | none => none
  | some _ =>
    match x.stack.reverse.find? (fun e => match e with | .pending .. => true | .join .. => false) with
    | some (.pending pc m rc f l k) =>
        some ({ x with stack := x.stack.erase (.pending pc m rc f l k) }.start pc m rc f l k)
    | _ => none

/-- Parking, merging and starting until none is possible. -/
def SliceState.settleLoop (x : SliceState) (fuel : Nat) : SliceState :=
  match fuel with
  | 0 => x
  | n + 1 => match x.parkOne with
    | some y => y.settleLoop n
    | none => match x.mergeOne with
      | some y => y.settleLoop n
      | none => match x.startOne with
        | some y => y.settleLoop n
        | none => x

/-- The slice after its masks have changed: 160 rounds reach the fixed point, since each parks a split, takes
a join entry or starts a pending entry of a stack of 32. -/
def SliceState.settle (x : SliceState) (live : Mask) : SliceState := (x.shrink live).settleLoop 160

/-- Settles one slice of a warp and notes its end (R208). -/
def Warp.settle (w : Warp) (sl : Slice) : Warp :=
  let x := (w.slice sl).settle (w.live sl)
  w.setSlice sl { x with ended := x.ended || w.live sl == 0 }

/-- What an access or result of a slice belongs to once splits have merged: the lanes of every split whose lanes it meets.
A merged split has the accesses of both sides before it in its program order, also when lanes exit later (R128, R189). -/
def Flight.widen (f : Flight) (sps : List Split) : Flight :=
  { f with owner := sps.foldl (fun (m : Mask) sp => if f.owner &&& sp.mask != 0 then m ||| sp.mask else m) f.owner }

/-- The splits of a slice of a warp. -/
def State.splitsOf (s : State) (t w : Nat) (sl : Slice) : List Split :=
  match (s.team? t).bind fun tm => tget? tm.warps w with
  | none => []
  | some wp => (wp.slice sl).splits

/-- The flights of a slice take the lanes of the splits that they stand before. -/
def State.widenOwners (s : State) (t w : Nat) (sl : Slice) : State :=
  { s with flights := s.flights.map fun f =>
      if f.stream.team == t && f.stream.warp == w && f.stream.slice == sl then f.widen (s.splitsOf t w sl) else f }

def State.settle (s : State) (t w : Nat) (sl : Slice) : State := (s.modWarp t w (·.settle sl)).widenOwners t w sl

/-! Traps: the one operation that takes an exception -/

/-- A trap of a word, not per lane. -/
def Trap.ofWord (i : Issue) (code sub : Nat) (detail : Word) : Trap :=
  { code := code, sub := sub, addr := 0, lanes := 0xFFFFFFFF, warp := i.ref.warp, slice := i.ref.slice,
    engine := false, pop := false, pc := i.sp.pc, apc := 0, detail := detail, split := i.ref.split, access := none }

/-- A trap reaches the team's halt controller (R385): the first is the primary trap and starts the halt, a
later one becomes its warp's own cause; a team that was being saved is trapped instead. -/
def Team.trap (tm : Team) (tr : Trap) : Team :=
  let own : Team := { tm with warps := tmod tm.warps tr.warp fun w =>
    { w with cause := match w.cause with | some c => some c | none => some (tr.code, tr.sub) } }
  match tm.status with
  | .running => { tm with status := .trapping, primary := some tr }
  | .saving => { tm with status := .trapping, primary := some tr }
  | .trapping => own
  | .saved _ => tm
  | .trapped .. => tm

/-- Raises a team trap (R383 to R385). -/
def State.raise (s : State) (t : Nat) (tr : Trap) : State := s.modTeam t (·.trap tr)

/-- A decode trap: the word takes no effect and its split issues nothing after it (R383). -/
def State.raiseAt (s : State) (i : Issue) (tr : Trap) : State :=
  (s.modSplit i.ref fun sp => { sp with wait := .trapped }).raise i.ref.team tr

/-- A decode trap by code and subcode. -/
def State.decodeTrap (s : State) (i : Issue) (code sub : Nat) (detail : Word) : State :=
  s.raiseAt i (Trap.ofWord i code sub detail)

/-! Issuing a word -/

/-- The team may issue: it runs, or it is halting and the halt has left the stream words to issue (R384). -/
def Issue.allowed (i : Issue) : Bool :=
  (match i.tm.status with
   | .running => true
   | .trapping | .saving => i.sl.halt.getD 12 != 0 
   | .saved _ | .trapped .. => false) &&
  !i.wp.retired && !i.sp.parked && i.sp.cont.isNone && i.sp.wait != .trapped

/-- What `past` of an access counts from that RESUME or a restore issues again before any word of its team (R390). -/
def pastAll : Nat := 64

/-- The thirteenth word past an access whose translation has not ended, or has ended in a trap, waits (R383, R384); every word
of its team waits for an access that is issued again after its trap (R390). -/
def State.translationWait (s : State) (i : Issue) : Bool :=
  s.flights.any fun f => (f.walking || f.faulted) && f.stream.team == i.ref.team && (decide (pastAll ≤ f.past) ||
    (f.stream.warp == i.ref.warp && f.stream.slice == i.ref.slice && decide (13 ≤ f.past)))

/-- The word does not issue yet, and why. -/
def State.waitAt (s : State) (i : Issue) (w : Wait) : State := s.modSplit i.ref fun sp => { sp with wait := w }

/-- Active lanes under a guard (R234, R250). -/
def Issue.active (i : Issue) (g : Guard) : Mask :=
  let p : Mask := if g.p = 7 then 0xFFFFFFFF else tget i.sl.preds g.p.toNat 0
  i.sp.mask &&& (if g.neg then ~~~p else p)

/-- A word has issued: the words its stream has issued past untranslated accesses, and its skid (R383, R384). -/
def State.counted (s : State) (r : StreamRef) : State :=
  { s.modSlice r.team r.warp r.slice (fun x => match x.halt with
      | some k => { x with halt := some (k - 1), skid := x.skid + 1 }
      | none => x) with
    flights := s.flights.map fun f =>
      if (f.walking || f.faulted) && f.stream.team == r.team && f.stream.warp == r.warp && f.stream.slice == r.slice
      then { f with past := f.past + 1 } else f }

/-- The target of an unguarded `br` or a `call` at an address (R239, R379). -/
def aheadTarget (a w : Word) : Option Word :=
  if (w.extractLsb' 54 9 == 0x02#9 || w.extractLsb' 54 9 == 0x06#9) && w.extractLsb' 50 4 == 7#4
  then some (a + (w.extractLsb' 0 26).signExtend 64 * 8) else none

/-- The address is one of the 16 from `pc` on. -/
def aheadOf (pc a : Word) : Bool := decide ((a - pc).toNat < 128)

/-- The words of a list near an address, and on from the targets of the unguarded `br` and `call` words found. -/
def reachOn (pc : Word) (ws found : List (Word × Word)) (fuel : Nat) : List (Word × Word) :=
  match fuel with
  | 0 => found
  | fuel + 1 =>
    let targets := found.filterMap fun (w : Word × Word) => aheadTarget w.1 w.2
    reachOn pc ws (ws.filter fun (w : Word × Word) => aheadOf pc w.1 || targets.any fun t => aheadOf t w.1) fuel

/-- The words already fetched that stay so once the split stands at `pc`: those at sequential addresses from it, and at the
targets of unguarded `br` and `call` words among the words that stay (R379). -/
def fetchReach (pc : Word) (ws : List (Word × Word)) : List (Word × Word) :=
  reachOn pc ws (ws.filter fun (w : Word × Word) => aheadOf pc w.1) ws.length

/-- Changes the issuing split, as long as it still stands: lanes may have died, and another split may have taken its
number. -/
def State.modIssuer (s : State) (i : Issue) (f : Split → Split) : State :=
  s.modSplit i.ref fun sp => if within_ sp.mask i.sp.mask then f sp else sp

/-- A word has issued: the split moves to an address, a marked word parks it while results are outstanding
(R189), splits park and merge, and words fetched for other ways are dropped (R379). -/
def State.advanceTo (s : State) (i : Issue) (mark : Bool) (pc : Word) : State :=
  let s := s.counted i.ref
  let park := mark && s.outstanding i.ref i.sp.mask
  (s.modIssuer i fun sp =>
    { sp with
      pc := pc, parked := park, wait := .none, deadline := none
      fetched := fetchReach pc (sp.fetched.filter fun (w : Word × Word) => w.1 != sp.pc) }).settle
    i.ref.team i.ref.warp i.ref.slice

/-- The word has issued and the split goes on at PC + 8. -/
def State.advance (s : State) (i : Issue) (mark : Bool) : State :=
  s.advanceTo i mark (i.sp.pc + 8)

/-- A word that translations hold back waits; a `wait.addr` keeps its deadline. -/
def State.holdBack (s : State) (i : Issue) : State :=
  match i.sp.wait with
  | .addr .. => s
  | _ => s.waitAt i .translation

/-- A word of the issuing stream: its meaning runs when the stream may issue, and otherwise nothing happens.
Without an issuing stream it is refused. -/
def word (s : State) (k : Issue → State) : Host.Outcome State Fault Refusal :=
  match s.agenda.cur with
  | none => .refused .noStream
  | some r =>
    match s.issue? r with
    | none => .refused .noStream
    | some i =>
      .next (if i.allowed then (if s.translationWait i then s.holdBack i else k i) else s)

/-! Results -/

/-- A fresh serial number. -/
def State.fresh (s : State) : Nat := s.agenda.next

def State.bump (s : State) : State := { s with agenda := { s.agenda with next := s.agenda.next + 1 } }

/-- The next free value's count. -/
def State.bumpFree (s : State) : State := { s with agenda := { s.agenda with free := s.agenda.free + 1 } }

/-- Counts the free values that an operation may have taken. -/
def State.tookFree (s : State) (n : Nat) : State := { s with agenda := { s.agenda with free := s.agenda.free + n } }

/-- A flight of a stream with nothing in it. -/
def Flight.empty (id : Nat) (i : Issue) (owner : Mask) : Flight :=
  { id := id, stream := i.ref, owner := owner, pc := i.sp.pc, writes := [], op := none, dst := .none, ty := .none,
    scope := .none, acq := false, rel := false, lanes := [], walking := false, todo := 0, faults := [], pieces := [], past := 0,
    ctr := none, stamp := 0, faulted := false, fenced := false, after := [] }

/-- Results computed at issue become outstanding (R189, R252). They are those of the whole split, so that both
splits of a divergence inherit them. -/
def State.results (s : State) (i : Issue) (ws : List Write) : State :=
  if ws.isEmpty then s
  else { s.bump with flights := s.flights ++ [{ Flight.empty s.fresh i i.sp.mask with writes := ws }] }

/-- The lane that a write belongs to. -/
def Write.lane : Write → Nat
  | .vec _ l _ => l
  | .scal _ l _ => l
  | .pred _ l _ => l
  | .flag l _ => l

/-- Makes one write in a slice. -/
def SliceState.put (x : SliceState) : Write → SliceState
  | .vec r l v => { x with regs := tset x.regs (32 * r + l) v }
  | .scal r _ v => { x with scal := tset x.scal r v }
  | .pred p l b =>
      let m := tget x.preds p 0
      { x with preds := tset x.preds p (if b then m ||| laneBit l else m &&& ~~~laneBit l) }
  | .flag _ f => { x with flags := x.flags ||| f.setWidth 32 }

/-- Makes the writes of lanes that have not died (R209). -/
def Warp.puts (w : Warp) (sl : Slice) (ws : List Write) : Warp :=
  w.setSlice sl ((ws.filter fun x => !w.dead.getLsbD x.lane).foldl SliceState.put (w.slice sl))

/-- Splits of a slice whose outstanding results are all made resume, and pending ones need not park (R189). -/
def State.unpark (s : State) (t w : Nat) (sl : Slice) : State :=
  (s.modSlice t w sl fun x => { x with
    splits := x.splits.map fun sp =>
      if sp.parked && !(s.outstanding ⟨t, w, sl, sp.num⟩ sp.mask) then { sp with parked := false } else sp
    stack := x.stack.map fun e => match e with
      | .pending p m r f l k => .pending p m r f l (k && s.outstanding ⟨t, w, sl, 0⟩ m)
      | .join r m o f => .join r m o f }).settle t w sl

/-- A core's die. -/
def dieOf (core : Nat) : Nat := core / 16

/-- The heartbeat count of a die (R186). -/
def State.hb (s : State) (die : Nat) : Nat := tget s.time.hb die 0

/-- The cycle within a die's current tick, of 256: the model counts no cycles, and lets a free number of them pass with each
serial number that it gives out (log entry 7). -/
def State.cycle (s : State) (die : Nat) : Nat :=
  let since := tget s.time.since die 0
  min 255 ((List.range (s.agenda.next - since)).foldl (fun n i => n + (Config.freeWord 51 (since + i)).toNat % 256) 0)

/-- An age stamp (R116). -/
def State.stamp (s : State) (die : Nat) : BitVec 32 := BitVec.ofNat 32 (s.hb die * 256 + s.cycle die)

/-- An entry of the event log (R401); the log keeps the last 65,536 (R425). -/
def State.logEvent (s : State) (type_ fn ctx agent : Nat) (addr detail : Word) : State :=
  let h := s.head
  let e : Event := ⟨h.logNext, BitVec.ofNat 64 (s.hb 0), type_, fn, ctx, agent, addr, detail⟩
  { s with head := { h with log := (h.log ++ [e]).drop (h.log.length + 1 - 65536), logNext := h.logNext + 1 } }

end Sys2Proof.Machine
end

