-- ==== Sys2Proof/Machine/Regs.lean ====
section
/-! DEFINITION. The control registers: their numbers, reset values and fields (R46, R50, R91, R215, R225, R227,
R392, R405, R408, R410, R411, R415, R422); the address map (R46 to R49, R85); signals to the host (R407). -/

namespace Sys2Proof.Machine

/-- A number for each register; the offsets within a BAR are not in the spec (log entry 14). -/
def Reg.key : Reg → Nat
  | .amapBase n => n | .amapLimit n => 1024 + n | .amapCtrl n => 2048 + n | .amapChan n => 3072 + n
  | .amapStatus => 4096
  | .l2qcfg n => 5120 + n | .l2qocc n => 6144 + n
  | .ctxctl c => 7168 + c | .ctxrt c => 8192 + c | .ctxrtn c => 9216 + c | .ctxroot c => 10240 + c
  | .ctxtrap c => 11264 + c | .ctxsave c => 12288 + c | .ctxstat c => 13312 + c | .ctxtrapq c => 14336 + c
  | .fnsvc n => 15360 + n | .fnheld n => 16384 + n | .preempt => 17408 | .preemptst => 17409
  | .hdmh n => 18432 + n | .hdmd n => 19456 + n | .fabid => 20480 | .ctxfab c => 21504 + c
  | .fabgrpa g => 22528 + g | .fabgrpb g => 23552 + g
  | .fnrst n => 24576 + n | .bootst => 25600 | .hlmbx c => 26624 + c | .hlhost => 27648 | .hldoor => 27649

/-- The index that a register's number may have. -/
def Reg.inRange : Reg → Bool
  | .amapBase n | .amapLimit n | .amapCtrl n | .amapChan n => n < 16
  | .l2qcfg n | .l2qocc n | .fnsvc n | .fnheld n | .hdmh n | .hdmd n | .fnrst n => n < 64
  | .ctxctl c | .ctxrt c | .ctxrtn c | .ctxroot c | .ctxtrap c | .ctxsave c | .ctxstat c | .ctxtrapq c
  | .ctxfab c | .hlmbx c => c < 64
  | .fabgrpa g | .fabgrpb g => g < 256
  | .amapStatus | .preempt | .preemptst | .fabid | .bootst | .hlhost | .hldoor => true

/-- The Reset column: 0 for every register but L2QCFGn, whose TARGET is 0xFFFF (R91). -/
def Reg.resetValue : Reg → Word
  | .l2qcfg _ => 0x0000FFFF00000000
  | _ => 0

/-- The value a register holds. -/
def State.reg (s : State) (r : Reg) : Word := tget s.ctl (Reg.key r) (Reg.resetValue r)

/-- Stores a value in a register. -/
def State.setReg (s : State) (r : Reg) (v : Word) : State := { s with ctl := tset s.ctl (Reg.key r) v }

/-- Bits hi down to lo of a word as a number. -/
def bits (v : Word) (lo n : Nat) : Nat := (v.extractLsb' lo n).toNat

/-- Replaces a field of a word. -/
def setBits (v : Word) (lo n x : Nat) : Word :=
  let mask : Word := BitVec.ofNat 64 ((2 ^ n - 1) * 2 ^ lo)
  (v &&& ~~~mask) ||| (BitVec.ofNat 64 (x % 2 ^ n) <<< lo)

/-! Contexts (R215) -/

def State.ctxExists (s : State) (c : Nat) : Bool := decide (c < 64) && (s.reg (.ctxctl c)).getLsbD 63
def State.ctxPriv (s : State) (c : Nat) : Bool := (s.reg (.ctxctl c)).getLsbD 62
def State.ctxRun (s : State) (c : Nat) : Bool := (s.reg (.ctxctl c)).getLsbD 61
def State.ctxFn (s : State) (c : Nat) : Nat := bits (s.reg (.ctxctl c)) 52 6
def State.ctxTvec (s : State) (c : Nat) : Nat := bits (s.reg (.ctxctl c)) 0 11
def State.rtBase (s : State) (c : Nat) : Nat := bits (s.reg (.ctxrt c)) 7 45 * 128
/-- RTCOUNT as written: the spec does not say what a value above 16,384 does (R30; log entry 105). -/
def State.rtCount (s : State) (c : Nat) : Nat := bits (s.reg (.ctxrtn c)) 0 15
def State.ctxState (s : State) (c : Nat) : Nat := bits (s.reg (.ctxstat c)) 60 4
def State.saveBase (s : State) (c : Nat) : Word := s.reg (.ctxsave c) &&& ~~~0xFFFF#64
def State.saveSize (s : State) (c : Nat) : Nat := bits (s.reg (.ctxsave c)) 0 16

/-- STATE of CTXSTATc: 0 OFF, 1 STARTING, 2 RUNNING, 3 SAVING, 4 SAVED, 5 FAILED. -/
def State.setCtxState (s : State) (c st : Nat) : State :=
  s.setReg (.ctxstat c) (setBits (s.reg (.ctxstat c)) 60 4 st)

/-! Functions -/

/-- The FNRSTn STATE field: 0 IDLE (R411). -/
def State.fnState (s : State) (n : Nat) : Nat := bits (s.reg (.fnrst n)) 60 3

/-- The function is in reset, from GO until IDLE. -/
def State.fnInReset (s : State) (n : Nat) : Bool := (s.reg (.fnrst n)).getLsbD 63

/-- The key slot that a function owns (R406, R416), by Headland's table. -/
def State.slotOf (s : State) (fn : Nat) : Option Nat :=
  (s.head.slotOwner.find? fun e => e.2 == fn).map Prod.fst

/-- The key identity that a slot holds (R99). -/
def State.keyId (s : State) (slot : Nat) : Nat := tget s.head.slotKey slot 0

/-- MSI-X vectors of a function (R407). -/
def vectors (fn : Nat) : Nat := if fn = 0 then 64 else 16

/-- Signals a vector (R407): dropped and logged beyond the table; dropped without log while the function is
in reset (R412); the PF's own messages are not. -/
def State.signal (s : State) (fn v : Nat) : State :=
  if fn != 0 && s.fnInReset fn then s
  else if v < vectors fn then { s with host := { s.host with out := s.host.out ++ [.msix fn v] } }
  else s.logEvent 0x0A fn 0xFF 0xFFFF 0 (BitVec.ofNat 64 v)

/-- Signals the owning function's TVEC of a context. -/
def State.signalCtx (s : State) (c : Nat) : State := s.signal (s.ctxFn c) (s.ctxTvec c)

/-! The address map -/

/-- One entry of the address map, from its registers. -/
structure Amap where
  n : Nat
  base : Nat
  limit : Nat
  valid : Bool
  owned : Bool
  owner : Nat
  gran : Nat
  type_ : Nat
  coff : Nat
  stackSet : BitVec 32
  chans : Word
  deriving DecidableEq, Repr

def State.amapOf (s : State) (n : Nat) (ctrl : Word) : Amap :=
  { n := n, base := bits (s.reg (.amapBase n)) 16 36 * 65536, limit := bits (s.reg (.amapLimit n)) 16 36 * 65536 + 65535,
    valid := ctrl.getLsbD 63, owned := ctrl.getLsbD 62, owner := bits ctrl 56 6, gran := bits ctrl 52 4,
    type_ := bits ctrl 50 2, coff := bits ctrl 32 15, stackSet := ctrl.extractLsb' 0 32, chans := s.reg (.amapChan n) }

def State.amap (s : State) (n : Nat) : Amap := s.amapOf n (s.reg (.amapCtrl n))

/-- The valid entries. -/
def State.amaps (s : State) : List Amap := ((List.range 16).map s.amap).filter (·.valid)

/-- The valid entry that holds a physical address. -/
def State.amapAt (s : State) (pa : Nat) : Option Amap := s.amaps.find? fun e => decide (e.base ≤ pa ∧ pa ≤ e.limit)

/-- A function may use the entry (R48). -/
def Amap.usable (e : Amap) (fn : Nat) : Bool := !e.owned || e.owner == fn

/-- A physical span lies in one valid entry that the function may use (R34, R48). -/
def State.spanOk (s : State) (fn pa len : Nat) : Bool :=
  s.amaps.any fun e => e.usable fn && decide (e.base ≤ pa ∧ pa + len ≤ e.limit + 1)

/-- The same, in an HBM entry (R60). -/
def State.spanHbm (s : State) (fn pa len : Nat) : Bool :=
  s.amaps.any fun e => e.usable fn && e.type_ == 0 && decide (e.base ≤ pa ∧ pa + len ≤ e.limit + 1)

/-- Set bits of a word, ascending. -/
def setBitsOf {n : Nat} (v : BitVec n) : List Nat := (List.range n).filter v.getLsbD

/-- The stack, pseudo-channel within it and address within that, of an address of an HBM entry (R47). -/
def Amap.place (e : Amap) (pa : Nat) : Nat × Nat × Nat :=
  let ss := setBitsOf e.stackSet
  let cs := setBitsOf e.chans
  let m := max 1 ss.length
  let c := max 1 cs.length
  let off := pa - e.base
  let g := 2 ^ (8 + e.gran)
  let k := off / g
  let j := k % (m * c)
  (ss.getD (j % m) 0, cs.getD (j / m) 0, e.coff * 65536 + k / (m * c) * g + off % g)

/-- The pseudo-channels of an entry, as stack * 64 + channel. -/
def Amap.channels (e : Amap) : List Nat :=
  (setBitsOf e.stackSet).flatMap fun st => (setBitsOf e.chans).map fun ch => st * 64 + ch

/-- The channel span of R47: first byte and the byte after the last. -/
def Amap.span (e : Amap) : Nat × Nat :=
  let size := e.limit + 1 - e.base
  let g := 2 ^ (8 + e.gran)
  let mc := max 1 (setBitsOf e.stackSet).length * max 1 (setBitsOf e.chans).length
  (e.coff * 65536, e.coff * 65536 + (size + mc * g - 1) / (mc * g) * g)

/-- The home slice of a physical address, die * 16 + slice (R85): the slice that fronts its pseudo-channel, or
slice 0 of the compute die of the port of a host entry (R402). An address in no entry has home 0. -/
def State.homeOf (s : State) (pa : Nat) : Nat :=
  match s.amapAt pa with
  | none => 0
  | some e =>
    if e.type_ == 0 then
      let (st, ch, _) := e.place pa
      (2 * st + ch / 32) * 16 + ch % 32 / 2
    else (if e.n % 2 == 0 then 2 else 5) * 16

/-- The address lies in host memory (TYPE 0b01). -/
def State.isHost (s : State) (pa : Nat) : Bool :=
  match s.amapAt pa with
  | some e => e.type_ == 1
  | none => false

/-- The global bank index of a line's pseudo-channel: stack * 64 + channel. -/
def State.channelOf (s : State) (pa : Nat) : Nat :=
  match s.amapAt pa with
  | some e => let (st, ch, _) := e.place pa; st * 64 + ch
  | none => 0

end Sys2Proof.Machine
end

