-- ==== Sys2Proof/Machine/Range.lean ====
section
/-! DEFINITION. Windows, range descriptors and translation (R16 to R45, R53, R65): what an address means to a
team, which fault it raises, and where its bytes lie. -/

namespace Sys2Proof.Machine

/-! Home bytes under a key (R97 to R100) -/

/-- The physical line of an address. -/
def lineOf (pa : Nat) : Nat := pa / 128

/-- The bytes of a line as the holder of a key slot reads them: zeros under the cleared mark, the stored bytes
under the identity that wrote them, otherwise values unrelated to them. -/
def State.homeByte (s : State) (slot pa : Nat) : Byte :=
  match tget? s.lines.keyed (lineOf pa) with
  | none => memRead s.mem pa
  | some k =>
    if k = s.keyId slot || s.isHost pa then memRead s.mem pa
    else Config.foreign (s.keyId slot) k pa (memRead s.mem pa)

/-- Consecutive home bytes under a key slot. -/
def State.homeBytes (s : State) (slot pa n : Nat) : List Byte := (List.range n).map fun i => s.homeByte slot (pa + i)

/-- The line is homed on a lost die, or stored in lost memory (R395). -/
def State.lost (s : State) (line : Nat) : Bool :=
  !(s.head.lostDies.isEmpty && s.head.lostChannels.isEmpty) &&
  (s.head.lostDies.contains (s.homeOf (line * 128) / 16) ||
   (s.amapAt (line * 128)).any fun e => e.type_ == 0 &&
     s.head.lostChannels.contains ((e.place (line * 128)).1, (e.place (line * 128)).2.1))

/-- POISON of a line (R101); lost lines always meet poison (R395). -/
def State.poisonOf (s : State) (line : Nat) : BitVec 2 := if s.lost line then 3 else tget s.lines.poison line 0

/-- Takes a line over to a key slot: a write replaces the mark, and bytes written under another identity stand
from then on as the slot's holder read them. -/
def State.rekey (s : State) (slot line : Nat) : State :=
  match tget? s.lines.keyed line with
  | none => { s with lines := { s.lines with keyed := tset s.lines.keyed line (s.keyId slot) } }
  | some k =>
    if k = s.keyId slot then s
    else { s with
      mem := memWrites s.mem (line * 128) (s.homeBytes slot (line * 128) 128)
      lines := { s.lines with keyed := tset s.lines.keyed line (s.keyId slot) } }

/-- Sets POISON bits of a line. -/
def State.setPoison (s : State) (line : Nat) (p : BitVec 2) : State :=
  { s with lines := { s.lines with
      poison := if p = 0 then tdel s.lines.poison line else tset s.lines.poison line p } }

/-! Descriptors (R31) -/

/-- A range descriptor, as its fields. -/
structure Desc where
  valid : Bool
  key : Nat
  moving : Bool
  base : Nat
  rd : Bool
  wr : Bool
  ex : Bool
  sc : Bool
  acc : Bool
  cache : BitVec 2
  blocks : Nat
  tide : Nat
  gen : Nat
  pa : Nat
  align : Nat
  oldpa : Nat
  reserved : Bool
  deriving DecidableEq, Repr

/-- ALIGN codes (R33). -/
def alignOf (c : Nat) : Nat :=
  match c with
  | 0 => 4 | 1 => 8 | 2 => 16 | _ => 128

def Desc.ofWords (d0 d1 d2 d3 : Word) : Desc :=
  { valid := d0.getLsbD 63, key := bits d0 57 6, moving := d0.getLsbD 56, base := bits d0 7 49 * 128,
    rd := d0.getLsbD 6, wr := d0.getLsbD 5, ex := d0.getLsbD 4, sc := d0.getLsbD 3, acc := d0.getLsbD 2,
    cache := d0.extractLsb' 0 2, blocks := bits d1 32 32 + 1, tide := bits d1 0 32, gen := bits d2 52 12,
    pa := bits d2 2 50 * 4, align := alignOf (bits d2 0 2), oldpa := bits d3 2 50 * 4,
    reserved := bits d3 52 12 != 0 || bits d3 0 2 != 0 }

/-- Bytes of the span (R32). -/
def Desc.size (d : Desc) : Nat := d.blocks * 128

/-- The address lies in the span. -/
def Desc.covers (d : Desc) (v : Word) : Bool := decide (d.base ≤ v.toNat ∧ v.toNat < d.base + d.size)

/-- The conditions of R34, for a function. -/
def State.descOk (s : State) (fn : Nat) (d : Desc) : Bool :=
  decide (d.base + d.size ≤ 2 ^ 56) && !(d.sc && d.acc) &&
  (!d.acc || (!d.ex && d.align == 128 && decide (d.cache ≤ 1))) &&
  d.pa % d.align == 0 && (!d.moving || (d.oldpa % d.align == 0 && decide (d.tide ≤ d.blocks))) &&
  !d.reserved && s.spanOk fn d.pa d.size && (!d.moving || s.spanOk fn d.oldpa d.size)

/-- A fault of translation (R40). -/
abbrev XFault := Nat × Nat

def noMap : XFault := (1, 0x01)
def permFault : XFault := (1, 0x02)
def descFault : XFault := (1, 0x03)
def keyFault : XFault := (1, 0x04)
def windowFault : XFault := (1, 0x05)
def tideFault : XFault := (1, 0x06)
def peerFault : XFault := (1, 0x07)
def privFault : XFault := (1, 0x08)
def targetFault : XFault := (1, 0x09)
def strandedFault : XFault := (1, 0x0A)
def alignFault : XFault := (2, 0x10)
def accFault : XFault := (3, 0x20)

/-- The checks of R34 and R35 on a descriptor that a lookup reached. -/
def State.descFault? (s : State) (ctx : Nat) (d : Desc) : Option XFault :=
  let fn := s.ctxFn ctx
  if !s.descOk fn d then some descFault
  else if tget? s.head.slotOwner d.key != some fn then some keyFault
  else none

/-- A descriptor of a context's table, read from memory under the function's slot. R121 says nothing of one whose line is
poisoned: the model uses the stored bytes (log entry 112). -/
def State.descAt (s : State) (ctx i : Nat) : Desc × Word × Word × Word × Word :=
  let a := s.rtBase ctx + 32 * i
  let w (k : Nat) : Word := leWord (s.homeBytes ((s.slotOf (s.ctxFn ctx)).getD 0) (a + 8 * k) 8)
  (Desc.ofWords (w 0) (w 1) (w 2) (w 3), w 0, w 1, w 2, w 3)

/-- The table stands in strictly ascending order without overlap (R30). -/
def State.tableOrdered (s : State) (ctx : Nat) : Bool :=
  (List.range (s.rtCount ctx - 1)).all fun i =>
    let d := (s.descAt ctx i).1
    let e := (s.descAt ctx (i + 1)).1
    decide (d.base + d.size ≤ e.base)

/-- What a walk finds for an address (R42, R44): the covering descriptor's index. In a table that breaks R30,
any of the covering ones or none, by a free choice (log entry 12). -/
def State.walk (s : State) (ctx : Nat) (v : Word) : Option Nat :=
  let hits := (List.range (s.rtCount ctx)).filter fun i =>
    let d := (s.descAt ctx i).1
    d.valid && d.covers v
  if s.tableOrdered ctx then hits.head?
  else hits[Config.badTable ctx v % (hits.length + 1)]?

/-- A range-buffer entry's descriptor. -/
def RBuf.desc (r : RBuf) : Desc := Desc.ofWords r.d0 r.d1 r.d2 r.d3

/-- A hit in a core's range buffer (R41). -/
def State.rbHit (s : State) (core ctx : Nat) (v : Word) : Option RBuf :=
  (s.core core).ranges.find? fun r => r.ctx == ctx && r.desc.covers v

/-! Windows (R16 to R25) -/

/-- What an access needs (R37). -/
inductive Need where
  | rd | wr | rw | ex | accRd | accWr | accRw | none_
  /-- write permission of a range of either kind: `zline` and `discard` (R184, R369) -/
  | wrAny
  deriving DecidableEq, Repr

/-- The place an address names, before range translation. -/
inductive Place where
  | global (v : Word)
  | tide (team off : Nat)
  | fault (f : XFault)
  deriving DecidableEq, Repr

/-- Warps of a team (R185). -/
def Team.nwarps (tm : Team) : Nat := (tm.stages.map (·.1)).foldl (· + ·) 0

/-- The thread number of R23. -/
def Team.thread (tm : Team) (w l : Nat) : Nat := (tm.n * tm.nwarps + w) * 32 + l

/-- FLAGS bits of R217. -/
def Team.fuse (tm : Team) : Bool := tm.flags.getLsbD 0
def Team.twin (tm : Team) : Bool := tm.flags.getLsbD 1
def Team.coresFlag (tm : Team) : Bool := tm.flags.getLsbD 2
def Team.share (tm : Team) : Bool := tm.flags.getLsbD 3
def Team.watch (tm : Team) : Bool := tm.flags.getLsbD 4

/-- The team is resident on its core: not saved and its trap record not written. -/
def Team.resident (tm : Team) : Bool :=
  match tm.status with
  | .running | .trapping | .saving => true
  | .saved _ | .trapped .. => false

/-- The group of a SHARE node's team: four consecutive linear indices, one per core of a cluster (R21). -/
def Team.group (tm : Team) : Nat := tm.n / 4

/-- The team of the same node resident on core k of the cluster (R20): for SHARE nodes. Where teams of several groups of
the node stand on core k, the one of the own group; with none of the own group there, none (R21; log entry 93). -/
def State.peer? (s : State) (tm : Team) (k : Nat) : Option Nat :=
  (s.teams.find? fun e => e.2.resident && e.2.core == tm.core / 4 * 4 + k && e.2.ctx == tm.ctx &&
    e.2.node == tm.node && e.2.group == tm.group).map (·.1)

/-- The place of an access of `len` bytes by a thread of a team (R16 to R24). Window 0xB is the caller's: any other
access through it raises ACC_FAULT, also with bits 59:56 set, where R17 and R40 both apply and the spec gives no order
(log entry 94). -/
def State.place (s : State) (t : Nat) (tm : Team) (w lane : Nat) (v : Word) (len : Nat) : Place :=
  let win := bits v 60 4
  if win ≤ 7 then (if bits v 56 7 = 0 then .global (v &&& 0x00FFFFFFFFFFFFFF#64) else .fault windowFault)
  else if win = 8 then
    if bits v 21 39 != 0 then .fault windowFault
    else if bits v 0 21 + len ≤ tm.tpSize then .tide t (bits v 0 21) else .fault tideFault
  else if win = 9 then
    if bits v 21 37 != 0 then .fault windowFault
    else if !tm.share then .fault peerFault
    else
      let own := tm.core % 4 = bits v 58 2
      match if own then some t else s.peer? tm (bits v 58 2) with
      | none => .fault peerFault
      | some p =>
        match s.team? p with
        | none => .fault peerFault
        | some pt => if bits v 0 21 + len ≤ pt.tpSize then .tide p (bits v 0 21) else .fault tideFault
  else if win = 0xA then
    let o := bits v 0 60
    if o + len ≤ tm.privSize then
      let g := tm.privBase + BitVec.ofNat 64 (tm.thread w lane * tm.privSize + o)
      if bits g 56 8 = 0 then .global g else .fault windowFault
    else .fault privFault
  else if win = 0xB then .fault accFault
  else .fault windowFault

/-! Translation (R36, R37) -/

/-- The permission rows of R37, the accumulator rows first. -/
def Desc.permits (d : Desc) : Need → Option XFault
  | .accRd => if !d.acc then some accFault else if d.rd then none else some permFault
  | .accWr => if !d.acc then some accFault else if d.wr then none else some permFault
  | .accRw => if !d.acc then some accFault else if d.rd && d.wr then none else some permFault
  | .ex => if d.ex then none else some permFault
  | .none_ => none
  | .wrAny => if d.wr then none else some permFault
  | .rd => if d.acc then some accFault else if d.rd then none else some permFault
  | .wr => if d.acc then some accFault else if d.wr then none else some permFault
  | .rw => if d.acc then some accFault else if d.rd && d.wr then none else some permFault

/-- What an access carries once translated. -/
def Desc.xlat (d : Desc) (ctx index fn : Nat) : Xlat :=
  { ctx := ctx, index := index, base := BitVec.ofNat 64 d.base, key := d.key, fn := fn, cache := d.cache, sc := d.sc,
    acc := d.acc, moving := d.moving, align := d.align, pa := d.pa, oldpa := d.oldpa, blocks := d.blocks,
    tideLine := d.tide }

/-- The block of a moving range lies at NEW (R53). -/
def movedBlock (pa oldpa tide k : Nat) : Bool := if pa < oldpa then decide (k < tide) else decide (tide ≤ k)

/-- The physical address of a range offset (R36, R53, R65). -/
def Xlat.addr (x : Xlat) (o : Nat) : Nat :=
  if x.moving then (if movedBlock x.pa x.oldpa x.tideLine (o / 128) then x.pa + o else x.oldpa + o) else x.pa + o

/-- The result of a lookup. -/
inductive Look where
  | hit (x : Xlat)
  | miss
  | fault (f : XFault)
  deriving DecidableEq, Repr

/-- Checks a found descriptor for an access to v. -/
def State.lookDesc (s : State) (ctx index : Nat) (d : Desc) (need : Need) : Look :=
  match s.descFault? ctx d with
  | some f => .fault f
  | none =>
    match d.permits need with
    | some f => .fault f
    | none => .hit (d.xlat ctx index (s.ctxFn ctx))

/-- Lookup through a core's range buffer (R36, R41). -/
def State.look (s : State) (core ctx : Nat) (v : Word) (need : Need) : Look :=
  match s.rbHit core ctx v with
  | some r => s.lookDesc ctx r.index r.desc need
  | none => .miss

/-- Lookup by a walk of the table: the engines' and controllers' translation, and the end of a core's walk. -/
def State.lookWalk (s : State) (ctx : Nat) (v : Word) (need : Need) : Look :=
  match s.walk ctx v with
  | none => .fault noMap
  | some i => s.lookDesc ctx i (s.descAt ctx i).1 need

/-- The physical address of a translated global address. -/
def Xlat.pa? (x : Xlat) (v : Word) : Nat := x.addr (v - x.base).toNat

/-- An access of `len` consecutive bytes split at physical lines, and at blocks while the range moves
(R38, R68): position, length, address of each piece. -/
def Xlat.split (x : Xlat) (v : Word) (pos len fuel : Nat) : List (Nat × Nat × Nat) :=
  match fuel with
  | 0 => []
  | fuel + 1 =>
    if len = 0 then []
    else
      let o := (v - x.base).toNat + pos
      let a := x.addr o
      let n := min len (min (128 - a % 128) (if x.moving then 128 - o % 128 else 128))
      (pos, n, a) :: x.split v (pos + n) (len - n) fuel

/-! Steering (R53, R54, R65, R75) -/

/-- The active slide of a descriptor, whose steering entries stand in the slices: the later one, where one that is ending
still has its entries. -/
def State.slideOf (s : State) (ctx index : Nat) : Option Slot :=
  (s.ebb.slots.filter fun e => e.2.steering && e.2.ctx == ctx && e.2.index == index).foldl (fun (b : Option Slot) e =>
    match b with
    | none => some e.2
    | some y => if y.order < e.2.order then some e.2 else some y) none

/-- A block of a slide is in passage, from its marking until T has passed it (R54). -/
def Slot.passing (x : Slot) (k : Nat) : Bool := (tget? x.read k).isSome

/-- The place of a range offset under a slide. -/
def Slot.addr (x : Slot) (o : Nat) : Nat := if movedBlock x.new_ x.old x.tide (o / 128) then x.new_ + o else x.old + o

/-- The slide places a range offset: it lies in one of the slide's blocks, at a place that the context's function may
use. After software has broken the rules of R75 an offset may lie outside, and then the image that translated it, which
R34 has checked, places it (R75). -/
def State.steers (s : State) (x : Slot) (o : Nat) : Bool :=
  decide (o / 128 < x.n) && s.spanOk (s.ctxFn x.ctx) (x.addr o) 1

/-- Where a byte of a translated range lies at its home (R54, R65). -/
inductive Spot where
  | at_ (pa : Nat)
  | passing
  | stranded
  deriving DecidableEq, Repr

def State.spot (s : State) (x : Xlat) (o : Nat) : Spot :=
  match s.slideOf x.ctx x.index with
  | none => if x.moving then .stranded else .at_ (x.pa + o)
  | some y =>
    if !s.steers y o then .at_ (x.addr o)
    else if y.passing (o / 128) then .passing else .at_ (y.addr o)

/-- The physical address of a range offset that an entry or an engine holds with the address `pa` it had. -/
def State.steer (s : State) (ctx index o pa : Nat) : Nat :=
  match s.slideOf ctx index with
  | some x => if s.steers x o then x.addr o else pa
  | none => pa

/-- The block of a range offset is in passage. -/
def State.inPassing (s : State) (ctx index o : Nat) : Bool :=
  (s.slideOf ctx index).any fun x => s.steers x o && x.passing (o / 128)

/-- Controllers translate a span of a context byte by byte of its lines: physical pieces, each placed by the slide of a
moving range (R65), or the fault of the first address that has one. -/
def State.spanPieces (s : State) (ctx : Nat) (v : Word) (len : Nat) (need : Need) (fuel : Nat) :
    Except (XFault × Word) (List (Xlat × Nat × Nat × Nat)) :=
  match fuel with
  | 0 => .ok []
  | fuel + 1 =>
    if len = 0 then .ok []
    else if bits v 56 8 != 0 then .error (windowFault, v)
    else
      match s.lookWalk ctx v need with
      | .fault f => .error (f, v)
      | .miss => .error (noMap, v)
      | .hit x =>
        let o := (v - x.base).toNat
        if s.spot x o = .stranded then .error (strandedFault, v)
        else
          let a := s.steer x.ctx x.index o (x.addr o)
          let n := min len (min (128 - a % 128) (128 - o % 128))
          match s.spanPieces ctx (v + BitVec.ofNat 64 n) (len - n) need fuel with
          | .error e => .error e
          | .ok ps => .ok ((x, o, a, n) :: ps)

/-! Writes at home (R121, R183, R390) -/

/-- The line lies in an accumulator range of some context (R163, R183). -/
def State.accLine (s : State) (line : Nat) : Bool :=
  (List.range 64).any fun c => (List.range (s.rtCount c)).any fun i =>
    let d := (s.descAt c i).1
    let in_ (a : Nat) : Bool := decide (lineOf a ≤ line) && decide (line * 128 < a + d.size)
    d.valid && d.acc && (in_ d.pa || (d.moving && in_ d.oldpa))

/-- A byte lies in a poisoned half; any POISON bit of an accumulator line covers both halves (R183). -/
def State.poisonedAt (s : State) (pa : Nat) : Bool :=
  let p := s.poisonOf (lineOf pa)
  p != 0 && (p.getLsbD (pa % 128 / 64) || s.accLine (lineOf pa))

/-- The value that RESOLVE of a trap record holds, when a line that it lies in has changed (R390). -/
def State.resolveWord (s : State) (ctx : Nat) (rec_ : Word) (line : Nat) : Option Nat :=
  match s.spanPieces ctx (rec_ + 64) 8 .rd 4 with
  | .ok ps =>
    if ps.any fun p => lineOf p.2.2.1 == line then
      some (leNat (ps.flatMap fun p => s.homeBytes p.1.key p.2.2.1 p.2.2.2))
    else none
  | .error _ => none

/-- The device watches RESOLVE of the unresolved records: the first value from 1 to 3 written there is the one that it acts
on (R390). -/
def State.noteResolve (s : State) (line : Nat) : State :=
  { s with teams := s.teams.map fun (e : Nat × Team) => match e.2.status, e.2.resolve with
    | .trapped r _ _, none => (match s.resolveWord e.2.ctx r line with
      | some v => if 1 ≤ v ∧ v ≤ 3 then (e.1, { e.2 with resolve := some v }) else e
      | none => e)
    | _, _ => e }

/-- A write of bytes of one line at home that leaves its POISON bits: a change that is no store of whole halves. -/
def State.homeMerge (s : State) (slot line : Nat) (bytes : List (Nat × Byte)) : State :=
  let s := s.rekey slot line
  ({ s with mem := bytes.foldl (fun (m : List Host.Cell) (b : Nat × Byte) => memWrite m (line * 128 + b.1) b.2) s.mem } :
    State).noteResolve line

/-- POISON of a line after a write of bytes: a half that is wholly covered loses its bit (R121). An accumulator line stays
poisoned until both halves have been covered (R183). -/
def State.poisonAfter (s : State) (line : Nat) (bytes : List (Nat × Byte)) : BitVec 2 :=
  let covered (h : Nat) : Bool := (List.range 64).all fun i => bytes.any (·.1 == 64 * h + i)
  let p := s.poisonOf line
  if p = 0 then 0 else BitVec.ofBool (p.getLsbD 1 && !covered 1) ++ BitVec.ofBool (p.getLsbD 0 && !covered 0)

/-- A write of bytes of one line at home. -/
def State.homePut (s : State) (slot line : Nat) (bytes : List (Nat × Byte)) : State :=
  (s.homeMerge slot line bytes).setPoison line (s.poisonAfter line bytes)

end Sys2Proof.Machine
end

