-- ==== Sys2Proof/Machine/Home.lean ====
section
/-! DEFINITION. Home slices: messages and their order (R103, R104), routes (R3), L2 lines and their victims (R89),
the memory controller's queues (R93), and deltas (R118). -/

namespace Sys2Proof.Machine

/-! Messages -/

/-- Sends a message. -/
def State.send (s : State) (src dst : Node) (line : Nat) (b : Body) : State :=
  { s with net := { s.net with msgs := s.net.msgs ++ [⟨s.net.next, src, dst, line, b⟩], next := s.net.next + 1 } }

/-- The message of that number, when it is the oldest of its pair (R104). -/
def State.deliverable (s : State) (m : Nat) : Option Msg :=
  match s.net.msgs.find? (·.id == m) with
  | none => none
  | some x =>
    match s.net.msgs.find? fun y => y.src == x.src && y.dst == x.dst with
    | some y => if y.id = x.id then some x else none
    | none => none

/-- Takes a message out of the network. -/
def State.take (s : State) (m : Nat) : State :=
  { s with net := { s.net with msgs := s.net.msgs.filter (·.id != m) } }

/-- The home slice of a line. -/
def State.homeNode (s : State) (line : Nat) : Node := .home (s.homeOf (line * 128))

/-! The mesh of gateways (R3, R92) -/

/-- The die of an agent, or the die whose gateway it joins: host-side I/O dies 0 and 1 at dies 2 and 5, scale-out I/O dies
0 and 1 at dies 58 and 61, the controllers at die 0 (R3, R116). -/
def agentDie (a : Nat) : Nat :=
  if a = 0 then 2 else if a = 1 then 5 else if a = 2 then 58 else if a = 3 then 61
  else if a < 68 then a - 4
  else if a < 324 then (a - 68) / 4
  else if a < 1348 then (a - 324) / 16
  else if a < 2372 then (a - 1348) / 16
  else if a < 3396 then (a - 2372) / 16
  else 0

def Node.die : Node → Nat
  | .core n => n / 16
  | .home n => n / 16
  | .agent a => agentDie a

/-- Row and column of a die, and the hop distance of two dies (R3). -/
def rowOf (d : Nat) : Nat := d / 8
def colOf (d : Nat) : Nat := d % 8
def hops (a b : Nat) : Nat :=
  (rowOf a - rowOf b) + (rowOf b - rowOf a) + ((colOf a - colOf b) + (colOf b - colOf a))

/-- The next die of the route from one die to another. The spec fixes one route of gateways for each pair (R104) and does
not say which; the model goes along the row first (log entry 97). -/
def hopTo (a b : Nat) : Nat :=
  if colOf a < colOf b then a + 1 else if colOf b < colOf a then a - 1
  else if rowOf a < rowOf b then a + 8 else a - 8

/-- The gateways of a route, each with the way that the transfer leaves it, or, at the last, that it came by. -/
def routeFrom (a b last fuel : Nat) : List (Nat × Nat) :=
  match fuel with
  | 0 => []
  | fuel + 1 =>
    if a = b then [(a, last)]
    else
      let n := hopTo a b
      let way := if n = a + 1 then 0 else if n + 1 = a then 1 else if n = a + 8 then 2 else 3
      (a, way) :: routeFrom n b way fuel

def route (a b : Nat) : List (Nat × Nat) := if a = b then [] else routeFrom a b 0 16

/-- The core whose L1 serves a line for a core: the slice of a fused L1 (R83). -/
def State.l1Core (s : State) (core line : Nat) : Nat :=
  if (s.core core).fused then core / 4 * 4 + line % 4 else core

/-! L2 lines -/

def State.l2? (s : State) (line : Nat) : Option L2Line := tget? s.lines.l2 line

def State.setL2 (s : State) (line : Nat) (x : L2Line) : State :=
  { s with lines := { s.lines with l2 := tset s.lines.l2 line x } }

def State.modL2 (s : State) (line : Nat) (f : L2Line → L2Line) : State :=
  { s with lines := { s.lines with l2 := tmod s.lines.l2 line f } }

def State.modDir (s : State) (line : Nat) (f : DirEntry → DirEntry) : State :=
  s.modL2 line fun x => { x with dir := f x.dir }

/-- The directory entry of a line, at its reset value when the line is not present (R102). -/
def State.dir (s : State) (line : Nat) : DirEntry := ((s.l2? line).map (·.dir)).getD DirEntry.reset

/-- The directory entry as the 76 bits of R101. -/
def DirEntry.bits (d : DirEntry) (poison : BitVec 2) : BitVec 76 :=
  let body : BitVec 64 := if d.coarse then d.dies else
    BitVec.ofNat 64 (d.ptrs.length * 2 ^ 40 + d.ptrs.getD 3 0 * 2 ^ 30 + d.ptrs.getD 2 0 * 2 ^ 20 +
      d.ptrs.getD 1 0 * 2 ^ 10 + d.ptrs.getD 0 0)
  d.hhi ++ d.hlo ++ poison ++ d.mode ++ BitVec.ofBool d.coarse ++ 0#3 ++ body

/-- The set of a slice that holds a line: the address within the slice's channels, by lines, modulo 2,048 sets
(the spec gives the size only; log entry 15). -/
def State.l2Set (s : State) (line : Nat) : Nat :=
  match s.amapAt (line * 128) with
  | some e => if e.type_ == 0 then (e.place (line * 128)).2.2 / 128 % 2048 else line % 2048
  | none => line % 2048

/-- Lines a function owns in a slice. -/
def State.occupancy (s : State) (home fn : Nat) : Nat :=
  (s.lines.l2.filter fun e => e.2.owner == fn && !e.2.transient && s.homeOf (e.1 * 128) == home).length

/-- The function is over its target in a slice (R89, R91). -/
def State.overTarget (s : State) (home fn : Nat) : Bool :=
  let t := bits (s.reg (.l2qcfg fn)) 32 16
  decide (t < 49152) && decide (t < s.occupancy home fn)

/-- A block of a moving range is in passage on the line: from its marking until T has passed it (R54). -/
def State.inPassage (s : State) (line : Nat) : Bool :=
  s.ebb.slots.any fun e => e.2.steering && e.2.read.any fun b =>
    lineOf (e.2.old + 128 * b.1) == line || lineOf (e.2.old + 128 * b.1 + 127) == line ||
      lineOf (e.2.new_ + 128 * b.1) == line || lineOf (e.2.new_ + 128 * b.1 + 127) == line

/-- The least recently used of a list of lines. -/
def lruOf (ls : List (Nat × L2Line)) : Option (Nat × L2Line) :=
  ls.foldl (fun b e => match b with
    | none => some e
    | some x => if e.2.used < x.2.used then some e else some x) none

/-- Two lines lie in one set of one slice. -/
def State.sameSet (s : State) (a b : Nat) : Bool :=
  s.homeOf (a * 128) == s.homeOf (b * 128) && s.l2Set a == s.l2Set b

/-- A reduction begun at the line's home has writes still to make (R374). -/
def State.begun (s : State) (line : Nat) : Bool :=
  s.net.parts.any fun p => p.m.line == line && (match p.m.body with
    | .reduce _ _ _ ws => !ws.isEmpty
    | _ => false)

/-- The line that a slice evicts to allocate one (R89). -/
def State.victim (s : State) (line : Nat) : Option Nat :=
  let home := s.homeOf (line * 128)
  let cand := s.lines.l2.filter fun e => s.sameSet e.1 line && !e.2.transient &&
    !e.2.blocked && !(s.net.acks.any fun a => a.line == e.1) && !s.inPassage e.1 && !s.begun e.1
  let overOwn (e : Nat × L2Line) : Bool := s.overTarget home e.2.owner
  let pick := [cand.filter fun e => e.2.streaming && overOwn e, cand.filter overOwn,
    cand.filter fun e => e.2.streaming, cand]
  (pick.findSome? lruOf).map Prod.fst

/-! The memory controller's queues (R93) -/

/-- The bank of an address: pseudo-channel * 64 + bank, and the row. The spec gives neither the banks nor the
rows of a pseudo-channel (log entry 15). -/
def State.bankOf (s : State) (pa : Nat) : Nat × Nat :=
  match s.amapAt pa with
  | some e => let (_, _, a) := e.place pa; (s.channelOf pa * 64 + a / 1024 % 64, a / 65536)
  | none => (0, 0)

def Bank.reset : Bank := ⟨[], 0, none, [], []⟩

/-- Requests of a function in a bank's queue. -/
def Bank.load (b : Bank) (fn : Nat) : Nat := (b.reqs.filter (·.fn == fn)).length

/-- The function's queue of the line's bank has room (R93). -/
def State.mcRoom (s : State) (fn line : Nat) : Bool :=
  decide ((tget s.lines.banks (s.bankOf (line * 128)).1 Bank.reset).load fn < 16)

/-- Queues a fill or write-back of a line. -/
def State.mcPush (s : State) (fn line : Nat) (write : Bool) : State :=
  let (b, row) := s.bankOf (line * 128)
  let k := tget s.lines.banks b Bank.reset
  { s with lines := { s.lines with
      banks := tset s.lines.banks b { k with reqs := k.reqs ++ [⟨fn, line, write, row, false⟩] } } }

/-- A write-back of the line is queued and not dropped (R86). -/
def State.backPending (s : State) (line : Nat) : Bool :=
  s.lines.banks.any fun e => e.2.reqs.any fun r => r.line == line && r.write && !r.dropped

/-- A fill of the line is queued or under way (R86). -/
def State.fillPending (s : State) (line : Nat) : Bool :=
  s.lines.fills.contains line || s.lines.banks.any fun e => e.2.reqs.any fun r => r.line == line && !r.write

/-! Copies -/

/-- An element operation on bytes (R321, R322). -/
def redBytes (op : BitVec 3) (t : Ty) (old x : List Byte) : List Byte :=
  leBytes old.length (redElem op t (leNat old) (leNat x))

/-- INV at a core: its copy of the line goes, and a fill that has come is not installed; nothing else of the core
changes (R110, R113, R373). -/
def Core.dropCopy (c : Core) (line : Nat) : Core :=
  { c with
    l1 := c.l1.filter (·.line != line)
    misses := c.misses.map fun m =>
      if m.line = line then { m with fill := m.fill.map fun f => (f.1, f.2.1, f.2.2.1, false) } else m }

/-- A core's copy and deltas of a line go. -/
def Core.dropLine (c : Core) (line : Nat) : Core :=
  { c.dropCopy line with deltas := c.deltas.filter (·.line != line) }

/-- A `wait.addr` that watches a line which has changed is woken (R328). -/
def Split.wake (line : Nat) (sp : Split) : Split :=
  match sp.wait with
  | .addr sc d ls t _ => if ls.contains line then { sp with wait := .addr sc d ls t true } else sp
  | _ => sp

def SliceState.wake (x : SliceState) (line : Nat) : SliceState := { x with splits := x.splits.map (Split.wake line) }

def Warp.wake (w : Warp) (line : Nat) : Warp := { w with a := w.a.wake line, c := w.c.wake line }

/-- A line has changed: LL reservations of it are cleared (R326), and what watches it is woken. -/
def Warp.clearResv (w : Warp) (tide : Bool) (line : Nat) : Warp :=
  ({ w with resv := w.resv.filter fun r => !(r.2.tide == tide && r.2.line == line) } : Warp).wake line

/-- A core's copy of a line has changed. -/
def State.wakeLine (s : State) (line : Nat) : State :=
  { s with teams := s.teams.map fun e => (e.1, { e.2 with warps := e.2.warps.map fun w => (w.1, w.2.wake line) }) }

/-- A physical line has changed at its home. -/
def State.clearResv (s : State) (line : Nat) : State :=
  { s with teams := s.teams.map fun e =>
    (e.1, { e.2 with warps := e.2.warps.map fun w => (w.1, w.2.clearResv false line) }) }

/-- DATA of the line still under way will not be allocated. -/
def Msg.unalloc (line : Nat) (m : Msg) : Msg :=
  match m.body with
  | .data r b p v _ => if m.line = line then { m with body := .data r b p v false } else m
  | _ => m

/-- The delta lines of a line held by cores, ascending by core. -/
def State.deltasOf (s : State) (line : Nat) : List DLine :=
  s.cores.flatMap fun (c : Nat × Core) => c.2.deltas.filter (·.line == line)

/-- Combines deltas into a line at home (R118): a change of the line, which clears reservations and wakes what watches
it (R326, R328). A poisoned half takes them too and stays poisoned (R120; log entry 95). -/
def State.combine (s : State) (d : DLine) : State :=
  (d.words.foldl (fun (s : State) (w : Nat × List Byte) =>
    let old := s.homeBytes d.key (d.line * 128 + w.1) w.2.length
    s.homeMerge d.key d.line ((redBytes d.op d.ty old w.2).zipIdx.map fun b => (w.1 + b.2, b.1))) s).clearResv d.line

/-- A near reduction of a flight on a line has reached the home. -/
def Flight.endNear (f : Flight) (id : Option Nat) (line : Nat) : Flight :=
  if some f.id = id then
    { f with pieces := f.pieces.map fun (p : Piece) => if p.st == .sent && p.line == line then { p with st := .done } else p }
  else f

/-- Deltas of a line that are on their way between a core and the home are combined too: those of DWB and DELTA, and
those that a UGRANT hands back (R104, R118). -/
def State.absorb (s : State) (line : Nat) : State :=
  let key := ((s.l2? line).map L2Line.key).getD 0
  let fn := ((s.l2? line).map L2Line.owner).getD 0
  (s.net.msgs.filter fun (m : Msg) => m.line == line).foldl (fun (s : State) (m : Msg) =>
    match m.body with
    | .dwb op ty ws => (s.take m.id).combine ⟨line, key, fn, op, ty, ws, 0⟩
    | .delta ack op ty ws =>
      let s := s.combine ⟨line, key, fn, op, ty, ws, 0⟩
      { s with net := { s.net with msgs := s.net.msgs.map fun (x : Msg) =>
          if x.id = m.id then { x with body := .nodelta ack } else x } }
    | .ugrant r op ty ws =>
      let s := (s.take m.id).combine ⟨line, key, fn, op, ty, ws, 0⟩
      { s with flights := s.flights.map fun (f : Flight) => f.endNear r.flight line }
    | _ => s) s

/-- Takes every copy of a line away at one instant, after a loss that no message can settle (R396): deltas are
combined, every L1 copy is dropped, and the entry holds no copy. Host-held halves are left to the caller. -/
def State.settleLine (s : State) (line : Nat) : State :=
  let s := ((s.deltasOf line).foldl (fun s d => s.combine d) s).absorb line
  let s := { s with
    cores := s.cores.map fun (c : Nat × Core) => (c.1, c.2.dropLine line)
    net := { s.net with msgs := s.net.msgs.map (Msg.unalloc line) } }
  s.modDir line fun d => { d with mode := 0, coarse := false, ptrs := [], dies := 0 }

/-! Host memory (R402, R403) -/

/-- The port of a host entry's address. -/
def State.portOf (s : State) (pa : Nat) : Nat :=
  match s.amapAt pa with
  | some e => e.n % 2
  | none => 0

def State.portUp (s : State) (p : Nat) : Bool := tget s.host.ports p false

/-- The physical function's driver reaches the control space: a port's link is up, and the package is not in recovery
mode (R404, R415). -/
def State.pfOpen (s : State) : Bool := !s.head.recovery && (s.portUp 0 || s.portUp 1)

/-- The address that the host knows an address of a host entry by (R47). -/
def State.hostAddr (s : State) (pa : Nat) : BitVec 52 :=
  match s.amapAt pa with
  | some e => BitVec.ofNat 52 (pa - e.base)
  | none => 0

def halfBit (h : Bool) : BitVec 2 := if h then 2 else 1

/-- The first byte of a half of a line. -/
def halfAddr (line : Nat) (h : Bool) : Nat := line * 128 + if h then 64 else 0

/-- Poisons halves of a line, with a log entry; both of an accumulator line (R183). -/
def State.poisonHalves (s : State) (line : Nat) (p : BitVec 2) : State :=
  (s.setPoison line (tget s.lines.poison line 0 ||| (if p != 0 && s.accLine line then 3 else p))).logEvent 0x03 0xFF 0xFF
    0xFFFF (BitVec.ofNat 64 (line * 128)) 0

/-- Writes a modified half back to the host; when it cannot be sent, it is dropped, and the half is poisoned and logged
(R403). -/
def State.hostBack (s : State) (line key : Nat) (h : Bool) : State :=
  let pa := halfAddr line h
  if s.portUp (s.portOf pa) then
    { s with host := { s.host with out := s.host.out ++ [.store (s.hostAddr pa) (s.homeBytes key pa 64)] } }
  else (s.poisonHalves line (halfBit h)).logEvent 0x0A 0xFF 0xFF 0xFFFF (BitVec.ofNat 64 pa) 0

/-- Sets a valid bit of a host-memory line. -/
def L2Line.setValid (x : L2Line) (h : Bool) : L2Line := if h then { x with vhi := true } else { x with vlo := true }

def L2Line.valid (x : L2Line) (h : Bool) : Bool := if h then x.vhi else x.vlo

/-- Asks the host for a half of host memory (R125); through a port that is down it fails, and the half is
poisoned (R403). -/
def State.fetchHalf (s : State) (line : Nat) (h : Bool) : State :=
  let pa := line * 128 + if h then 64 else 0
  let p := s.portOf pa
  if s.host.fetches.contains (line, h) then s
  else if s.portUp p then
    { s with host := { s.host with
        fetches := s.host.fetches ++ [(line, h)]
        out := s.host.out ++ [.fetch (s.hostAddr pa) p] } }
  else (s.modL2 line (·.setValid h)).poisonHalves line (halfBit h)

/-- A present line of host memory lacks these halves. -/
def State.missing (s : State) (line : Nat) (hs : List Bool) : List Bool :=
  if s.isHost (line * 128) then
    match s.l2? line with
    | some x => hs.filter fun h => !x.valid h
    | none => hs
  else []

/-! Blocking transactions (R112, R115, R118, R122) -/

/-- Opens or closes a blocking transaction. -/
def State.block (s : State) (line : Nat) (b : Bool) : State := s.modL2 line fun x => { x with blocked := b }

/-- Cores of the marked dies of a coarse entry. -/
def coresOf (dies : BitVec 64) : List Nat :=
  (setBitsOf dies).flatMap fun d => (List.range 16).map fun k => d * 16 + k

/-- The holders that an entry names. -/
def DirEntry.holders (d : DirEntry) : List Nat := if d.coarse then coresOf d.dies else d.ptrs

/-- Home bytes at positions of a line, as the holder of a key reads them. -/
def State.bytesNow (s : State) (key line : Nat) (ps : List Nat) : List (Nat × Byte) :=
  ps.map fun p => (p, s.homeByte key (line * 128 + p))

/-- Opens an acknowledgement count for messages to cores. -/
def State.openAck (s : State) (line : Nat) (dsts : List Nat) (round gather settle : Bool) (reply : Option (Node × Req))
    (body : Nat → Body) : State :=
  let id := s.net.next
  let s := { s with net := { s.net with
    next := id + 1, acks := s.net.acks ++ [Ack.mk id line dsts.length round gather settle reply] } }
  dsts.foldl (fun (s : State) (c : Nat) => s.send (s.homeNode line) (.core c) line (body id)) s

/-- A change of bytes of a line is carried to the copies (R106, R110): UPD to the pointers other than the writer, or a
round of INV to the cores of the marked dies; none when no copy stands. -/
def State.carry (s : State) (line key writer : Nat) (ps : List Nat) (reply : Option (Node × Req)) : Option State :=
  let d := s.dir line
  let targets := if d.mode = 1 then d.holders.filter (· != writer) else []
  if targets.isEmpty then none
  else
    let bytes := s.bytesNow key line ps
    some ((if d.coarse then s.block line true else s).openAck line targets d.coarse false false reply fun id =>
      if d.coarse then .inv id else .upd bytes id)

/-- Starts a gather (R118). -/
def State.startGather (s : State) (line : Nat) : State :=
  (s.block line true).openAck line (s.dir line).holders false true false none .gather

/-- A half of a line that the host owns or shares (R122). -/
def State.hostHalf (s : State) (line : Nat) (hi : Bool) : BitVec 2 :=
  let d := s.dir line
  if hi then d.hhi else d.hlo

def State.setHostHalf (s : State) (line : Nat) (hi : Bool) (v : BitVec 2) : State :=
  s.modDir line fun d => if hi then { d with hhi := v } else { d with hlo := v }

/-- The halves of a line that a span of bytes touches. -/
def halvesOf (lo len : Nat) : List Bool :=
  (if lo < 64 then [false] else []) ++ (if 64 < lo + len then [true] else [])

/-- Halves that an access must first take back from the host (R122): owned ones, and for a write shared ones. -/
def State.hostHeld (s : State) (line : Nat) (halves : List Bool) (write : Bool) : List Bool :=
  halves.filter fun h => s.hostHalf line h == 2 || (write && s.hostHalf line h == 1)

/-- The halves of a line that the host holds. -/
def State.hostHolds (s : State) (line : Nat) : List Bool := [false, true].filter fun h => s.hostHalf line h != 0

/-- Sends the back-invalidations that are not already under way; the line is blocked until they are answered (R115, R122,
R126). -/
def State.snoopHost (s : State) (line : Nat) (halves : List Bool) (write : Bool) (stamp : BitVec 32) (agent : Nat) :
    State :=
  (halves.foldl (fun (s : State) h =>
    if s.host.backInv.any fun b => b.1 == line && b.2.1 == h then s
    else { s with host := { s.host with
      backInv := s.host.backInv ++ [(line, h, write, stamp, agent)]
      out := s.host.out ++ [.snoop (BitVec.ofNat 52 (halfAddr line h)) write] } }) s).block line true

/-- Drops the tag of a line with no copies, writing it back when it is dirty (R102): the write-back is a request of the
function that caused it. -/
def State.dropL2 (s : State) (line fn : Nat) : State :=
  match s.l2? line with
  | none => s
  | some x =>
    let s := if !x.dirty then s
      else if s.isHost (line * 128) then
        ((if x.vlo then [false] else []) ++ (if x.vhi then [true] else [])).foldl (fun (s : State) h => s.hostBack line x.key h) s
      else s.mcPush fn line true
    { s with lines := { s.lines with l2 := tdel s.lines.l2 line } }

end Sys2Proof.Machine
end

