-- ==== Sys2Proof/Machine/Settle.lean ====
section
/-! DEFINITION. What a home slice does with its lines besides messages: reductions that it has begun (R374), settling
(R112), allocation and eviction (R81, R87, R89, R90), the forward queue (R115, R116), and the atomic accesses at home that
controllers, engines and the host make (log entry 9). -/

namespace Sys2Proof.Machine

/-! Reductions of a home (R121, R324, R325, R374) -/

/-- Bytes at consecutive offsets from lo. -/
def bytesAt (lo : Nat) (bs : List Byte) : List (Nat × Byte) := bs.zipIdx.map fun b => (lo + b.2, b.1)

/-- A line that no L2 slice holds is written on memory (R87); a present one becomes dirty. -/
def State.changed (s : State) (line : Nat) : State :=
  ({ s with lines := { s.lines with tick := s.lines.tick + 1 } } : State).modL2 line fun x =>
    { x with dirty := true, used := s.lines.tick + 1 }

/-- The core of a node; 1024 for another agent. -/
def Node.core? : Node → Nat
  | .core n => n
  | .home _ | .agent _ => 1024

/-- The range offset of a piece's first byte. -/
def Piece.off (p : Piece) : Nat :=
  match p.xl with
  | some x => (p.va - x.base).toNat
  | none => 0

/-- The piece went out in the request: same line, same descriptor image and, while the range moves, same block. -/
def Piece.inReq (p : Piece) (line : Nat) (r : Req) : Bool :=
  p.st == .sent && p.tide.isNone && p.line == line && (p.xl.any fun x => x.index == r.index && x.moving == r.moving) &&
    (!r.moving || p.off / 128 == r.off / 128)

/-- Positions that a request's flight writes in a line; a request of no flight from a core is a wake word's reduction of 8
bytes (R336). -/
def State.positions (s : State) (line : Nat) (r : Req) : List Nat :=
  match r.flight with
  | none => (List.range 8).map fun i => r.lo + i
  | some id => match s.flight? id with
    | none => []
    | some f => (f.pieces.filter fun p => p.inReq line r).flatMap fun p => (List.range p.len).map fun i => p.lo + i

/-- Sends STACK, with the home's value of the bytes at this moment (R105, R134). -/
def State.sendStack (s : State) (dst : Node) (r : Req) (line : Nat) (drop : Bool) : State :=
  s.send (s.homeNode line) dst line (.stack r (s.bytesNow r.key line (s.positions line r)) drop)

/-- The reductions of halfwords that a request of a pair type makes, low halfword first (R325, R374). -/
def halfItems (ws : List (Nat × List Byte)) : List (Nat × List Byte) :=
  ws.flatMap fun w => if w.2.length = 4 then [(w.1, w.2.take 2), (w.1 + 2, w.2.drop 2)] else [w]

/-- Inserts by ascending position. -/
def insertPos (l : List (Nat × List Byte)) (w : Nat × List Byte) : List (Nat × List Byte) :=
  match l with
  | [] => [w]
  | x :: l => if w.1 < x.1 then w :: x :: l else x :: insertPos l w

/-- The halfword writes of a request of a pair type, in ascending order (R374). -/
def pairItems (ws : List (Nat × List Byte)) : List (Nat × List Byte) := (halfItems ws).foldl insertPos []

/-- The element type is a pair of halfwords. -/
def Ty.isPair (ty : Ty) : Bool := ty == .bf16x2 || ty == .f16x2

/-- A reduction of one element, or of one half of a pair, on the bytes that stand. -/
def redPart (op : BitVec 3) (ty : Ty) (old x : List Byte) : List Byte :=
  if x.length = 2 then (redBytes op ty (old ++ [0, 0]) (x ++ [0, 0])).take 2 else redBytes op ty old x

/-- Reductions of a request at home, each a write of its own; those on a poisoned half are not performed, and logged
(R121). Reservations on the line go if any is performed (R326). -/
def State.reduceAt (s : State) (line : Nat) (r : Req) (op : BitVec 3) (ty : Ty) (ws : List (Nat × List Byte)) : State :=
  let ok (w : Nat × List Byte) : Bool := !s.poisonedAt (line * 128 + w.1)
  let s' := ws.foldl (fun (t : State) (w : Nat × List Byte) =>
    let pa := line * 128 + w.1
    if !ok w then t.logEvent 0x0B r.fn r.ctx 0xFFFF (BitVec.ofNat 64 pa) 0
    else t.homeMerge r.key line (bytesAt w.1 (redPart op ty (t.homeBytes r.key pa w.2.length) w.2))) s
  if ws.any ok then (s'.clearResv line).changed line else s'

def partPositions (ws : List (Nat × List Byte)) : List Nat :=
  ws.flatMap fun w => (List.range w.2.length).map fun i => w.1 + i

/-- The writes that a begun reduction has still to make. -/
def Part.rest (p : Part) : List (Nat × List Byte) :=
  match p.m.body with
  | .reduce _ _ _ ws => ws
  | _ => []

def Part.withRest (p : Part) (ws : List (Nat × List Byte)) : Part :=
  match p.m.body with
  | .reduce r op ty _ => { p with m := { p.m with body := .reduce r op ty ws } }
  | _ => p

/-- A count of acknowledgements is open, or a reduction begun at its home is not complete: what waits for completion names
either by its number. -/
def State.openId (s : State) (id : Nat) : Bool := (s.net.acks.any fun a => a.id == id) || s.net.parts.any fun p => p.m.id == id

/-- The counts and begun reductions that stand since an older state. -/
def State.openSince (s old : State) : List Nat :=
  ((s.net.acks.map Ack.id ++ s.net.parts.map fun p => p.m.id).filter fun id => decide (old.net.next ≤ id))

/-- Flushed entries whose reductions are complete are forgotten, and outputs that waited for writes go out (R105). -/
def State.completions (s : State) : State :=
  let fl := s.engines.flushed.map fun f => { f with ids := f.ids.filter s.openId }
  let ps := s.host.pending.map fun p => (p.1, p.2.filter s.openId)
  { s with
    engines := { s.engines with flushed := fl.filter fun f => !f.ids.isEmpty }
    host := { s.host with
      pending := ps.filter fun p => !p.2.isEmpty
      out := s.host.out ++ (ps.filter fun p => p.2.isEmpty).map Prod.fst } }

/-- Puts a begun reduction back, or ends it when all its writes are made and acknowledged: STACK goes out (R105, R374). -/
def State.putPart (s : State) (p : Part) : State :=
  if p.rest.isEmpty && p.acks.isEmpty then
    let s := { s with net := { s.net with parts := s.net.parts.filter fun q => q.m.id != p.m.id } }
    let s := match p.reply, p.m.body with
      | true, .reduce r .. => s.sendStack p.m.src r p.m.line p.drop
      | _, _ => s
    s.completions
  else { s with net := { s.net with parts := s.net.parts.map fun q => if q.m.id = p.m.id then p else q } }

/-- The home makes the next k writes of a begun reduction, and carries them to the copies. -/
def State.stepPart (s : State) (p : Part) (k : Nat) : State :=
  match p.m.body with
  | .reduce r op ty ws =>
    let s := s.reduceAt p.m.line r op ty (ws.take k)
    let q := p.withRest (ws.drop k)
    match s.carry p.m.line r.key p.m.src.core? (partPositions (ws.take k)) none with
    | some t => t.putPart { q with acks := q.acks ++ [s.net.next] }
    | none => s.putPart q
  | _ => s

/-- A free choice of how many writes a home makes before it turns to another request: at least one. -/
def State.someWrites (s : State) (n : Nat) : Nat := 1 + (Config.freeWord 48 s.agenda.free).toNat % max 1 n

/-- The home begins a reduction of a pair type: it makes some of its writes (R374). -/
def State.beginPart (s : State) (p : Part) : State :=
  ({ s.bumpFree with net := { s.net with parts := s.net.parts ++ [p] } } : State).stepPart p (s.someWrites p.rest.length)

/-- A line carries a blocking transaction (R115). -/
def State.busy (s : State) (line : Nat) : Bool := (s.l2? line).any (·.blocked)

/-- Before a transaction that needs the line whole, the reductions begun there make their other writes: every access that the
home has accepted comes first (R54). True when none of them has opened a round. -/
def State.calm (s : State) (line : Nat) : State × Bool :=
  let s := (s.net.parts.filter fun p => p.m.line == line && !p.rest.isEmpty).foldl
    (fun (s : State) p => if s.busy line then s else s.stepPart p p.rest.length) s
  (s, !s.busy line && !s.begun line)

/-! Host-held halves -/

/-- An output to the host. -/
def State.reply_ (s : State) (o : Out) : State := { s with host := { s.host with out := s.host.out ++ [o] } }

/-- Sets a half's host state and the port of its owner. -/
def State.hostHas (s : State) (line : Nat) (hi : Bool) (v : BitVec 2) (port : Option Nat) : State :=
  let s := s.setHostHalf line hi v
  let rest := s.host.owners.filter fun o => !(o.1 == line && o.2.1 == hi)
  { s with host := { s.host with owners := rest ++ (port.map fun p => (line, hi, p)).toList } }

/-- The key slot of a function's host accesses (R406). -/
def State.hostSlot (s : State) (fn : Nat) : Nat := (s.slotOf fn).getD 0

/-- The place of the request's agent in a queue. -/
def Msg.claimOf (m : Msg) (r : Req) : Bool :=
  match m.body with
  | .claim q => q.agent == r.agent && q.flight == r.flight
  | _ => false

/-- The request of an agent that is no core, for the thing of it that the number names. -/
def Req.ofAgent (agent serial : Nat) (stamp : BitVec 32) (key fn : Nat) (cache : BitVec 2) : Req :=
  { flight := some serial, ctx := 0, index := 0, off := 0, lo := 0, moving := false, key := key, fn := fn, cache := cache,
    stamp := stamp, agent := agent }

/-- The agent's requests for a thing of it wait no longer. -/
def State.unclaim (s : State) (agent serial : Nat) : State :=
  let r := Req.ofAgent agent serial 0 0 0 0
  { s with net := { s.net with
      forwards := s.net.forwards.filter fun m => !m.claimOf r
      retries := s.net.retries.filter fun m => !m.claimOf r
      stamps := s.net.stamps.filter fun x => !(x.1 == agent && x.2.1 == serial) } }

/-- The host's access is over. -/
def State.hostDone (s : State) (w : HostWait) : State :=
  ({ s with host := { s.host with waits := s.host.waits.erase w } } : State).unclaim w.agent w.id

/-- A half is granted to the host, with its bytes. -/
def State.grant (s : State) (w : HostWait) (fn a : Nat) (own : Bool) : State :=
  let s := s.hostHas (lineOf a) (decide (64 ≤ a % 128)) (if own then 2 else 1) (if own then some w.agent else none)
  let bad := s.poisonedAt a
  (s.reply_ (.granted (BitVec.ofNat 52 w.addr) own (if bad then [] else s.homeBytes (s.hostSlot fn) a 64) bad)).hostDone w

/-! Settling (R112) -/

/-- A line may be dropped now: it is clean, or host memory, or its write-back has room and none of it is under way (R86,
R93). -/
def State.backRoom (s : State) (line fn : Nat) : Bool :=
  match s.l2? line with
  | none => true
  | some x => !x.dirty || s.isHost (line * 128) || (s.mcRoom fn line && !s.backPending line)

/-- A store to the line is not complete (R105): acknowledgements are awaited, or a reduction is begun. -/
def State.storesOpen (s : State) (line : Nat) : Bool :=
  (s.net.acks.any fun a => a.line == line) || s.net.parts.any fun p => p.m.line == line

/-- No copy of the line stands outside its home. -/
def State.lineSettled (s : State) (line : Nat) : Bool :=
  (s.dir line).mode == 0 && (s.hostHolds line).isEmpty && !(s.net.acks.any fun a => a.line == line)

/-- A blocking transaction of a line other than a settle has still an answer to come. -/
def State.open_ (s : State) (line : Nat) : Bool :=
  s.fillPending line || (s.host.fetches.any fun f => f.1 == line) || (s.host.backInv.any fun b => b.1 == line) ||
    s.net.acks.any fun a => a.line == line && (a.round || a.gather || a.settle)

/-- The settle of a line that goes on: the first of them. -/
def State.settle? (s : State) (line : Nat) : Option Settle := s.net.settles.find? fun x => x.line == line

/-- A settle of a request for nothing but L1 copies and deltas. -/
def Settle.ofReq (line : Nat) (r : Req) (halves : List Bool) (evict : Bool) : Settle :=
  ⟨line, halves, evict, false, none, r.stamp, r.agent, r.fn, false, none⟩

/-- A settle has had all its answers: MODE 0b00, FORM 0, CNT 0, the DISCARD is answered, an evicted line goes, and a host
request that has won is granted (R126). -/
def State.endSettle (s : State) (x : Settle) : State :=
  let s := if x.keep then s else s.modDir x.line fun d => { d with mode := 0, coarse := false, ptrs := [], dies := 0 }
  let s := { s with net := { s.net with settles := s.net.settles.erase x } }
  let s := match x.reply with
    | some (n, r) => s.send (s.homeNode x.line) n x.line (.stack r [] true)
    | none => s
  let s := match x.grant with
    | some (id, fn, a, own) => (match s.host.waits.find? fun w => w.id == id with
      | some w => s.grant w fn a own
      | none => s)
    | none => s
  let s := if x.drop then s.modL2 x.line fun y => { y with dirty := false } else s
  if x.evict then s.dropL2 x.line x.fn else s

/-- The next phase of a settle (R112): gather, then back-invalidation, then invalidation, then its end; true once it has
ended. An end that needs a write-back waits for room in its own function's queue. -/
def State.settleOn (s : State) (x : Settle) : State × Bool :=
  let held := x.halves.filter fun h => s.hostHalf x.line h != 0
  if (s.net.acks.any fun a => a.line == x.line) || s.fillPending x.line || s.host.fetches.any fun f => f.1 == x.line then
    (s, false)
  else if (s.dir x.line).mode = 2 then (s.startGather x.line, false)
  else if !held.isEmpty then (s.snoopHost x.line held true x.stamp x.agent, false)
  else if (s.dir x.line).mode = 1 && !x.keep then
    (s.openAck x.line (s.dir x.line).holders false false true none .inv, false)
  else if x.evict && !s.backRoom x.line x.fn then (s, false)
  else (s.endSettle x, true)

/-- Starts a settle; true when it has ended at once. -/
def State.startSettle (s : State) (x : Settle) : State × Bool :=
  match s.calm x.line with
  | (s, false) => (s, false)
  | (s, true) =>
    match ({ s.block x.line true with net := { s.net with settles := s.net.settles ++ [x] } } : State).settleOn x with
    | (s, true) => (s.block x.line false, true)
    | (s, false) => (s, false)

/-! Allocation (R81, R87, R89, R90) -/

/-- A fresh L2 line. -/
def L2Line.fresh (key fn : Nat) (cache : BitVec 2) (used : Nat) : L2Line :=
  ⟨key, false, fn, cache == 2, used, DirEntry.reset, false, false, false, cache == 3⟩

/-- Room for a line in its set: with the set full, the line that R89 names is settled and evicted; false while that is
under way, or when every line of the set is pinned. -/
def State.makeRoom (s : State) (line : Nat) (r : Req) : State × Bool :=
  if (s.lines.l2.filter fun e => s.sameSet e.1 line && !e.2.transient).length < 24 then (s, true)
  else if s.net.settles.any fun x => x.evict && s.sameSet x.line line then (s, false)
  else match s.victim line with
    | none => (s, false)
    | some v => s.startSettle (Settle.ofReq v r [false, true] true)

/-- A line present under another key is settled, written back and dropped, to be fetched anew (R98); true when the line
is not, or no longer, under another key. -/
def State.unkey (s : State) (line : Nat) (r : Req) : State × Bool :=
  if (s.l2? line).any fun x => x.key != r.key then s.startSettle (Settle.ofReq line r [false, true] true)
  else (s, true)

/-- Notes a use of a present line. -/
def State.touch (s : State) (line : Nat) (dirty : Bool) : State :=
  let s := { s with lines := { s.lines with tick := s.lines.tick + 1 } }
  s.modL2 line fun x => { x with used := s.lines.tick, dirty := x.dirty || dirty }

/-- A line is brought in for a request, which its fill must precede (R86, R89, R93, R125): not while no line of its set can be
evicted, or the function's bank queue is full. An access under CACHE 0b11 takes no line of a set: what is brought in serves
it alone (R87). A line of no address-map entry has no memory to be read from. -/
def State.startFill (s : State) (line : Nat) (r : Req) (hs : List Bool) : State × Bool :=
  let host := s.isHost (line * 128)
  let none_ := (s.amapAt (line * 128)).isNone
  if s.fillPending line || (!host && !none_ && !s.mcRoom r.fn line) then (s, false)
  else
    match if r.cache = 3 then (s, true) else s.makeRoom line r with
    | (s, false) => (s, false)
    | (s, true) =>
      let s := { s with lines := { s.lines with tick := s.lines.tick + 1 } }
      let s := s.setL2 line (L2Line.fresh r.key r.fn r.cache s.lines.tick)
      if host then
        let s := hs.foldl (fun (s : State) (h : Bool) => s.fetchHalf line h) s
        (s.block line (s.host.fetches.any fun f => f.1 == line), true)
      else if none_ then (s, true)
      else ((s.mcPush r.fn line false).block line true, true)

/-- A cacheable access finds a line that an uncached one has brought in: it takes its place in its set, once there is room. -/
def State.adopt (s : State) (line : Nat) (r : Req) : State × Bool :=
  if r.cache != 3 && (s.l2? line).any (·.transient) then
    match s.makeRoom line r with
    | (s, false) => (s, false)
    | (s, true) => (s.modL2 line fun x => { x with transient := false, owner := r.fn, streaming := r.cache == 2 }, true)
  else (s, true)

/-- An uncached access has been performed: what was brought in for it goes, written to memory when it was changed, once the
queue of its function has room (R87, R93). -/
def State.endTransient (s : State) (line : Nat) : State :=
  match s.l2? line with
  | some x => if x.transient && !x.blocked && (s.dir line).mode == 0 && !s.begun line && s.backRoom line x.owner
      then s.dropL2 line x.owner else s
  | none => s

/-- The owner of a line that a host access allocates (R90). -/
def State.hostOwner (s : State) (pa : Nat) : Nat :=
  match s.amapAt pa with
  | some e => if e.owned then e.owner else 0
  | none => 0

/-! The forward queue (R115, R116) -/

def Body.req? : Body → Option Req
  | .read r .. | .data r .. | .store r .. | .discard r .. | .claim r | .atomic r .. | .reduce r .. | .accLd r | .stack r ..
  | .ureq r .. | .ugrant r .. | .resteer r _ | .stranded r => some r
  | .upd .. | .uack _ | .inv _ | .iack _ | .evn | .gather _ | .delta .. | .nodelta _ | .dwb .. | .retry _ => none

/-- Older than: by stamp, then by agent number. -/
def Req.older (a b : Req) : Bool := (a.stamp - b.stamp).msb || (a.stamp == b.stamp && decide (a.agent < b.agent))

/-- Inserts a message by age. -/
def insertAge (m : Msg) (l : List Msg) : List Msg :=
  match l with
  | [] => [m]
  | x :: l =>
    match m.body.req?, x.body.req? with
    | some a, some b =>
      if a.older b || (a.stamp == b.stamp && a.agent == b.agent && decide (m.id < x.id)) then m :: x :: l
      else x :: insertAge m l
    | _, _ => m :: x :: l

/-- The message discards a whole line. -/
def Msg.wholeDiscard (m : Msg) : Bool :=
  match m.body with
  | .discard _ _ _ whole => whole
  | _ => false

/-- The order in which a home takes queued forwards of a line, given as they arrived: by age, but nothing that arrived
after a discard of the line goes before it (R96). -/
def queueOrder (ms acc : List Msg) : List Msg :=
  match ms with
  | [] => acc
  | m :: ms => if m.wholeDiscard then acc ++ m :: queueOrder ms [] else queueOrder ms (insertAge m acc)

/-- The number by which a core's claims for the word of a split, or for its fetch, are known. -/
def streamSerial (r : StreamRef) (fetch : Bool) : Nat :=
  (((r.team * 32 + r.warp) * 2 + (if r.slice == .c then 1 else 0)) * 4 + r.split) * 2 + (if fetch then 1 else 0)

/-- The split that such a number names. -/
def serialRef (n : Nat) : StreamRef :=
  ⟨n / 512, n / 16 % 32, if n / 8 % 2 = 1 then .c else .a, n / 2 % 4⟩

/-- The numbers from here on name the range walks of a core. -/
def walkBase : Nat := 2 ^ 60

/-- What an agent's request is for still stands: a word or a fetch of a split that may issue, a range walk, a gather-buffer
entry, a slide, a command, an emission, a host's or a peer's access, a node, a trapped team; a step of Headland or the clearing
engine comes again until it is made. -/
def State.claimLive (s : State) (q : Req) : Bool :=
  let id := q.flight.getD 0
  if q.agent < 2 then s.host.waits.any fun w => w.id == id
  else if q.agent < 4 then s.host.remotes.any fun w => w.ticket == id
  else if q.agent < 68 then s.ebb.slots.any fun e => e.1 == id % 256 && e.2.state != 0
  else if q.agent < 324 then s.engines.buffers.any fun b => b.1 == q.agent - 68 && b.2.any fun e => e.id == id
  else if q.agent < 1348 then
    if id < walkBase then (s.issue? (serialRef id)).any Issue.allowed
    else (s.core (q.agent - 324)).walks.any fun w => w.ctx + w.region * 64 + walkBase == id
  else if q.agent < 3396 then
    s.engines.cmds.any (fun c => c.id == id && c.st != .faulted) || s.engines.emissions.any fun e => e.id == id
  else if q.agent = 3396 then
    -- kinds of `nodeSerial`: the completion of a node, its posting by a word that waits, its dispatch
    let mine (n : PNode) : Bool := n.va.toNat == id / 256 && n.ctx == id / 4 % 64
    if id % 4 = 1 then s.teams.any fun e => e.2.ctx == id / 4 % 64 && e.2.warps.any fun w =>
      w.2.a.splits.any (fun p => p.wait == .order) || w.2.c.splits.any fun p => p.wait == .order
    else if id % 4 = 3 then (s.team? (id / 4)).isSome
    else s.sched.nodes.any mine
  else true

/-- The message waits for nothing any more: its agent has gone. -/
def State.stale (s : State) (m : Msg) : Bool :=
  match m.body with
  | .claim q => !s.claimLive q
  | _ => false

/-- The requests that wait for a line. -/
def State.waitingOn (s : State) (line : Nat) : List Msg :=
  s.net.forwards.filter fun (m : Msg) => m.line == line && !s.stale m

/-- The queued forwards of a line in the order in which they are taken. -/
def State.queueOn (s : State) (line : Nat) : List Msg := queueOrder (s.waitingOn line) []

/-- The forward queue of a line's home has room. -/
def State.queueRoom (s : State) (line : Nat) : Bool :=
  let home := s.homeOf (line * 128)
  decide ((s.net.forwards.filter fun x => s.homeOf (x.line * 128) == home).length < 64)

/-- The agent's request waits for its line; with the queue full it is one of those that their agents reissue, with its
first age stamp (R115). -/
def State.claim (s : State) (line : Nat) (r : Req) : State :=
  if s.net.forwards.any fun m => m.line == line && m.claimOf r then s
  else
    let m : Msg := ⟨s.net.next, .agent r.agent, s.homeNode line, line, .claim r⟩
    let old := s.net.retries.find? fun m => m.line == line && m.claimOf r
    let rest := s.net.retries.filter fun m => !(m.line == line && m.claimOf r)
    let net := { s.net with next := s.net.next + 1 }
    if s.queueRoom line then { s with net := { net with forwards := net.forwards ++ [old.getD m], retries := rest } }
    else { s with net := { net with retries := rest ++ [old.getD m] } }

/-- The transfers between dies that messages of a function make or will bring about: its requests, each also with the answer
that it will get, and the answers; INV and IACK are not among them (R373; log entry 97). -/
def Msg.transfers (m : Msg) : List (Nat × Nat × Nat) :=
  match m.body.req? with
  | none => []
  | some r =>
    (r.fn, m.src.die, m.dst.die) :: (match m.body with
      | .data .. | .stack .. | .ugrant .. | .resteer .. | .stranded .. => []
      | _ => [(r.fn, m.dst.die, m.src.die)])

/-- The answers that homes have still to send to performed requests. -/
def State.answersDue (s : State) : List (Nat × Nat × Nat) :=
  let due (line : Nat) (x : Option (Node × Req)) : List (Nat × Nat × Nat) :=
    (x.map fun y => (y.2.fn, (s.homeNode line).die, y.1.die)).toList
  s.net.acks.flatMap (fun a => due a.line a.reply) ++ s.net.settles.flatMap (fun x => due x.line x.reply) ++
    s.net.parts.flatMap fun p => if p.reply then due p.m.line (p.m.body.req?.map fun r => (p.m.src, r)) else []

/-- Among the transfers, the function has XLINES in flight through a gateway on the way from a die to another, in that
direction (R91, R92). -/
def State.gateFull (s : State) (ts : List (Nat × Nat × Nat)) (fn a b : Nat) : Bool :=
  let x := bits (s.reg (.l2qcfg fn)) 0 12
  x != 0 && a != b &&
    (let mine := ts.filter fun t => t.1 == fn
     (route a b).any fun g => decide (x ≤ (mine.filter fun t => (route t.2.1 t.2.2).contains g).length))

/-- A request of the function from a die to another waits at its source: it, or the answer that it will get, would exceed
XLINES at a gateway (R92). `ms` are the messages that it is counted with. -/
def State.gateOf (s : State) (ms : List Msg) (fn a b : Nat) : Bool :=
  bits (s.reg (.l2qcfg fn)) 0 12 != 0 &&
    (let ts := ms.flatMap Msg.transfers ++ s.answersDue
     s.gateFull ts fn a b || s.gateFull ts fn b a)

def State.gate (s : State) (fn a b : Nat) : Bool := s.gateOf (s.net.msgs ++ s.net.forwards) fn a b

/-- It is the turn of an agent's request on a line: no transaction is open, and no other request is before it (R115). -/
def State.turnOf (s : State) (line : Nat) (r : Req) : Bool :=
  !s.busy line && (match (s.queueOn line).head? with
    | none => true
    | some m => m.claimOf r)

/-- A line that an access of an agent needs is there, with its halves; otherwise it is brought in (R86, R89, R93, R125). -/
def State.roomFor (s : State) (line : Nat) (r : Req) (hs : List Bool) : State × Bool :=
  match s.l2? line with
  | none => match s.startFill line r hs with
    | (s, false) => (s, false)
    | (s, true) => (s, !s.busy line)
  | some _ => match s.adopt line r with
    | (s, false) => (s, false)
    | (s, true) =>
      let ms := s.missing line hs
      if ms.isEmpty then (s, true)
      else
        let s := ms.foldl (fun (s : State) h => s.fetchHalf line h) s
        if (s.missing line hs).isEmpty then (s, true) else (s.block line true, false)

/-- What must come before an access to halves of a line that carries no transaction (R98, R112, R118, R122, R125): true
when nothing must; otherwise that has been started. `snoop` is false for the host's own requests; `near` is true for a `.near`
reduction, which starts no gather. -/
def State.readyFor (s : State) (line : Nat) (r : Req) (hs : List Bool) (write snoop near : Bool) : State × Bool :=
  match s.unkey line r with
  | (s, false) => (s, false)
  | (s, true) => match s.roomFor line r hs with
    | (s, false) => (s, false)
    | (s, true) =>
      let held := if snoop then s.hostHeld line hs write else []
      if ((s.dir line).mode != 2 || near) && held.isEmpty then (s, true)
      else match s.calm line with
        | (s, false) => (s, false)
        | (s, true) =>
          if (s.dir line).mode = 2 && !near then (s.startGather line, false)
          else (s.snoopHost line held write r.stamp r.agent, false)

def State.ready (s : State) (line : Nat) (r : Req) (hs : List Bool) (write snoop : Bool) : State × Bool :=
  s.readyFor line r hs write snoop false

/-- The request of an agent that holds no place yet may leave its source (R92). -/
def State.admitted (s : State) (line : Nat) (r : Req) : Bool :=
  (s.net.forwards.any fun m => m.line == line && m.claimOf r) ||
    !s.gateOf ((s.net.msgs ++ s.net.forwards).filter fun m => !m.claimOf r) r.fn (agentDie r.agent) (s.homeNode line).die

/-- The age stamp of an agent's request is kept until it is made (R116). -/
def State.keepStamp (s : State) (r : Req) : State :=
  let n := r.flight.getD 0
  if s.net.stamps.any fun x => x.1 == r.agent && x.2.1 == n then s
  else { s with net := { s.net with stamps := s.net.stamps ++ [(r.agent, n, r.stamp)] } }

/-- A request of an agent for halves of a line (R115): true when the access may be made now. What must come first is
started, and the request takes its place in the forward queue; a flush that a home itself causes goes before the requests
that wait for the line. -/
def State.askAs (s : State) (line : Nat) (r : Req) (hs : List Bool) (write snoop first : Bool) : State × Bool :=
  if !s.admitted line r then (s.keepStamp r, false)
  else if (if first then s.busy line else !s.turnOf line r) then ((s.keepStamp r).claim line r, false)
  else match s.ready line r hs write snoop with
    | (s, true) => (s, true)
    | (s, false) => ((s.keepStamp r).claim line r, false)

def State.ask (s : State) (line : Nat) (r : Req) (hs : List Bool) (write snoop : Bool) : State × Bool :=
  s.askAs line r hs write snoop false

/-! Accesses at home by controllers, engines and the host, whose turn has come -/

/-- A read of bytes of one line at home. -/
def State.homeRead (s : State) (slot line lo len : Nat) : State × List Byte :=
  let s := if (s.dir line).mode = 2 then s.settleLine line else s
  let bs := s.homeBytes slot (line * 128 + lo) len
  (s.endTransient line, bs)

/-- A store of bytes of one line at home, which the access has found ready: reservations are cleared, the bytes are written,
and the copies are told (R81, R87, R105, R106, R110, R121, R326). -/
def State.homeStore (s : State) (slot line : Nat) (bytes : List (Nat × Byte)) : State :=
  let s := if (s.dir line).mode = 2 then s.settleLine line else s
  let s := ((s.clearResv line).homePut slot line bytes).touch line true
  ((s.carry line slot 1024 (bytes.map Prod.fst) none).getD s).endTransient line

/-- A controller's store to pieces of a translated span, in order. -/
def State.storePieces (s : State) (ps : List (Xlat × Nat × Nat × Nat)) (bs : List Byte) : State :=
  match ps with
  | [] => s
  | (x, _, a, n) :: ps =>
    (s.homeStore x.key (lineOf a) (bytesAt (a % 128) (bs.take n))).storePieces ps (bs.drop n)

/-- A controller's read of the pieces of a translated span. -/
def State.readPieces (s : State) (ps : List (Xlat × Nat × Nat × Nat)) : State × List Byte × Bool :=
  match ps with
  | [] => (s, [], false)
  | (x, _, a, n) :: ps =>
    let (s, b) := s.homeRead x.key (lineOf a) (a % 128) n
    let bad := (List.range n).any fun i => s.poisonedAt (a + i)
    let (s, bs, bad') := s.readPieces ps
    (s, b ++ bs, bad || bad')

/-- Writes to virtual memory of a context by a controller; none when a byte faults. -/
def State.ctxWrite (s : State) (ctx : Nat) (v : Word) (bs : List Byte) : Option State :=
  match s.spanPieces ctx v bs.length .wr (bs.length / 64 + 4) with
  | .ok ps => some (s.storePieces ps bs)
  | .error _ => none

/-- Reads virtual memory of a context by a controller; none when a byte faults. -/
def State.ctxRead (s : State) (ctx : Nat) (v : Word) (n : Nat) : Option (State × List Byte) :=
  match s.spanPieces ctx v n .rd (n / 64 + 4) with
  | .ok ps => let (s, b, _) := s.readPieces ps; some (s, b)
  | .error _ => none

/-- A physical write by a controller under a slot, line by line. -/
def State.physWrite (s : State) (slot pa : Nat) (bs : List Byte) (fuel : Nat) : State :=
  match fuel with
  | 0 => s
  | fuel + 1 =>
    if bs.isEmpty then s
    else
      let n := 128 - pa % 128
      (s.homeStore slot (lineOf pa) (bytesAt (pa % 128) (bs.take n))).physWrite slot (pa + n) (bs.drop n) fuel

/-! The turn of a controller's accesses (R115, R116, R122) -/

/-- What an access of a controller touches: bytes of a context, or physical bytes under a slot of a function. -/
inductive Touch where
  | ctx (c : Nat) (v : Word) (len : Nat) (write : Bool)
  | phys (slot fn pa len : Nat) (write : Bool)
  deriving DecidableEq, Repr

/-- Lines, with the halves touched, of consecutive physical bytes. -/
def linesIn (pa len fuel : Nat) : List (Nat × List Bool) :=
  match fuel with
  | 0 => []
  | fuel + 1 =>
    if len = 0 then []
    else
      let n := min len (128 - pa % 128)
      (lineOf pa, halvesOf (pa % 128) n) :: linesIn (pa + n) (len - n) fuel

/-- The lines of a span with slot, function, cacheability and halves, and whether the access changes them; a span that
faults has none. -/
def State.spanLines (s : State) : Touch → List (Nat × Nat × Nat × BitVec 2 × List Bool × Bool)
  | .ctx c v len w =>
    match s.spanPieces c v len (if w then .wr else .rd) (len / 64 + 4) with
    | .ok ps => ps.map fun p => (lineOf p.2.2.1, p.1.key, p.1.fn, p.1.cache, halvesOf (p.2.2.1 % 128) p.2.2.2, w)
    | .error _ => []
  | .phys slot fn pa len w => (linesIn pa len (len / 128 + 2)).map fun l => (l.1, slot, fn, 0, l.2, w)

/-- A block that a span of a context lies in is in passage. -/
def State.spanPassing (s : State) : Touch → Bool
  | .ctx c v len w =>
    match s.spanPieces c v len (if w then .wr else .rd) (len / 64 + 4) with
    | .ok ps => ps.any fun p => s.inPassing p.1.ctx p.1.index p.2.1
    | .error _ => false
  | .phys .. => false

/-- The age stamp that an agent's request keeps (R116), or a fresh one of its die. -/
def State.stampOf (s : State) (agent serial : Nat) : BitVec 32 :=
  match s.net.stamps.find? fun x => x.1 == agent && x.2.1 == serial with
  | some x => x.2.2
  | none => s.stamp (agentDie agent)

/-- The lines of a context's range table with halves that the host owns: a controller that translates there takes them back
first (R122). -/
def State.tableOwned (s : State) (ctx : Nat) : List (Nat × Nat × Nat × BitVec 2 × List Bool × Bool) :=
  let fn := s.ctxFn ctx
  (linesIn (s.rtBase ctx) (32 * s.rtCount ctx) (s.rtCount ctx / 4 + 2)).filterMap fun l =>
    let hs := l.2.filter fun h => s.hostHalf l.1 h == 2
    if hs.isEmpty then none else some (l.1, (s.slotOf fn).getD 0, fn, 0, hs, false)

/-- What the translation of a touch reads first. -/
def State.touchTable (s : State) : Touch → List (Nat × Nat × Nat × BitVec 2 × List Bool × Bool)
  | .ctx c .. => s.tableOwned c
  | .phys .. => []

/-- An agent asks for lines, each with slot, function, cacheability and halves, and whether the access changes them; true
when the access may be made now, and then none of its requests waits any longer. -/
def State.askAll (s : State) (agent serial : Nat) (stamp : BitVec 32)
    (lines : List (Nat × Nat × Nat × BitVec 2 × List Bool × Bool)) : State × Bool :=
  match lines.foldl (fun (acc : State × Bool) l =>
    match acc.1.ask l.1 (Req.ofAgent agent serial stamp l.2.1 l.2.2.1 l.2.2.2.1) l.2.2.2.2.1 l.2.2.2.2.2 true with
    | (s, ok) => (s, acc.2 && ok)) (s, true) with
  | (s, true) => (s.unclaim agent serial, true)
  | (s, false) => (s, false)

/-- A controller, stamped by its die's heartbeat, asks for all that an access of it touches: first what its translation
reads. Blocks in passage are waited for (R65). -/
def State.agentAsk (s : State) (agent serial : Nat) (spans : List Touch) : State × Bool :=
  let r := Req.ofAgent agent serial (s.stampOf agent serial) 0 0 0
  match spans.flatMap s.touchTable with
  | [] =>
    if spans.any s.spanPassing then (s.keepStamp r, false)
    else s.askAll agent serial r.stamp (spans.flatMap s.spanLines)
  | ls => match s.askAll agent serial r.stamp ls with
    | (s, _) => (s.keepStamp r, false)

end Sys2Proof.Machine
end

