-- ==== Sys2Proof/Machine/Teams.lean ====
section
/-! DEFINITION. Rendezvous points (R330 to R333), guard slots (R198 to R200), the end of streams, the death of
lanes and the retirement of warps and teams (R8, R194, R208 to R211). -/

namespace Sys2Proof.Machine

/-! Rendezvous points -/

def Rv.reset : Rv := ⟨false, 0, 0, 0, 0, 0, 0, 0, [], [], [], [], 0, []⟩

def Team.rv (tm : Team) (k : Nat) : Rv := tget tm.rvs k Rv.reset

def Team.setRv (tm : Team) (k : Nat) (r : Rv) : Team := { tm with rvs := tset tm.rvs k r }

/-- The open phase is complete (R333). -/
def Rv.met (r : Rv) : Bool := r.init && r.arr0 == r.ea && r.by0 == r.eb

/-- Phase P + 1 opens, with the falls of EA that waited for it (R211, R333). -/
def Rv.next (r : Rv) : Rv :=
  { r with
    p := r.p + 1, ea := r.ea - r.fall, fall := 0, arr0 := r.arr1, arr1 := 0, by0 := r.by1, by1 := 0,
    lanes0 := r.lanes1, lanes1 := [], in0 := r.in1, in1 := [] }

/-- Judges the open phase, and each phase that opens (R333). At most two phases hold counts and, since INIT
forbids two zeros, a phase without counts is never complete but by a fall of EA to 0. -/
def Rv.judge (r : Rv) (fuel : Nat) : Rv :=
  match fuel with
  | 0 => r
  | n + 1 => if r.met then r.next.judge n else r

/-- The lanes that a warp's arrival awaits: live, and not exited from both slices (R332). -/
def Warp.awaited (w : Warp) : Mask := ~~~w.dead &&& ~~~(w.a.exited &&& w.c.exited)

/-- A warp arrives in a phase once its mask, not empty, holds every awaited lane. -/
def Rv.arrive (r : Rv) (w : Nat) (awaited : Mask) : Rv :=
  let m0 := tget r.lanes0 w 0
  let m1 := tget r.lanes1 w 0
  let r := if !r.in0.contains w && m0 != 0 && within_ awaited m0
    then { r with arr0 := r.arr0 + 1, in0 := w :: r.in0 } else r
  if !r.in1.contains w && m1 != 0 && within_ awaited m1
    then { r with arr1 := r.arr1 + 1, in1 := w :: r.in1 } else r

/-- `rv.arr` of lanes of a warp; none while it has arrived in both phases (R332). -/
def Rv.arr (r : Rv) (w : Nat) (m awaited : Mask) : Option Rv :=
  if !r.in0.contains w then
    some (({ r with lanes0 := tset r.lanes0 w (tget r.lanes0 w 0 ||| m) }.arrive w awaited).judge 4)
  else if !r.in1.contains w then
    some (({ r with lanes1 := tset r.lanes1 w (tget r.lanes1 w 0 ||| m) }.arrive w awaited).judge 4)
  else none

/-- The phase that a command of a warp credits; none while it would be P + 2 (R332). -/
def Rv.creditPhase (r : Rv) (w : Nat) : Option (BitVec 32) :=
  if !r.in0.contains w then some r.p else if !r.in1.contains w then some (r.p + 1) else none

/-- Credits bytes to a phase; none when they would take it past EB (R333). -/
def Rv.credit (r : Rv) (phase : BitVec 32) (n : Nat) : Option Rv :=
  if phase = r.p then
    if r.init && decide (r.eb < r.by0 + n) then none else some ({ r with by0 := r.by0 + n }.judge 4)
  else if phase = r.p + 1 then
    if r.init && decide (r.eb < r.by1 + n) then none else some ({ r with by1 := r.by1 + n }.judge 4)
  else if n = 0 then some r else none

/-- Phase n is complete (R334). -/
def Rv.complete (r : Rv) (n : BitVec 32) : Bool := r.init && !(r.p - 1 - n).msb

/-- A warp whose lanes are all dead leaves the expected count (R211). A fall of EA to 0 while EB is 0 meets every later phase at
once, and the spec does not say where that ends: the model judges four phases (log entry 106). -/
def Rv.fallOf (r : Rv) (w : Nat) : Rv :=
  if !r.init || r.ea = 0 then r
  else if !r.in0.contains w then { r with ea := r.ea - 1 }.judge 4
  else { r with fall := r.fall + 1 }

/-- Applies a change to every rendezvous point of a team. -/
def Team.mapRvs (tm : Team) (f : Rv → Rv) : Team := { tm with rvs := tm.rvs.map fun e => (e.1, f e.2) }

/-- Lanes that exited or died may complete a warp's arrivals (R332). -/
def Team.recheck (tm : Team) (w : Nat) : Team :=
  match tget? tm.warps w with
  | some wp => tm.mapRvs fun r => (r.arrive w wp.awaited).judge 4
  | none => tm

/-! Guard slots -/

def Warp.slot (w : Warp) (g : Nat) : GSlot := tget w.slots g ⟨[], []⟩

def Warp.setSlot (w : Warp) (g : Nat) (x : GSlot) : Warp := { w with slots := tset w.slots g x }

/-- A command that names a slot is matched with its oldest unmatched resolution, or waits unmatched (R198). -/
def Warp.guardCommand (w : Warp) (g cmd : Nat) : Warp × Option Bool :=
  let x := w.slot g
  match x.res with
  | b :: bs => (w.setSlot g { x with res := bs }, some b)
  | [] => (w.setSlot g { x with cmds := x.cmds ++ [cmd] }, none)

/-- Sets the verdict of a command. -/
def State.setVerdict (s : State) (cmd : Nat) (b : Bool) : State :=
  { s with engines := { s.engines with
      cmds := s.engines.cmds.map fun c => if c.id = cmd then { c with verdict := some b } else c } }

/-- A resolution of a slot matches the oldest unmatched command, or waits unmatched (R198, R199). -/
def State.resolve (s : State) (t w g : Nat) (b : Bool) : State :=
  match (s.team? t).bind fun tm => tget? tm.warps w with
  | none => s
  | some wp =>
    let x := wp.slot g
    match x.cmds with
    | c :: cs => (s.modWarp t w (·.setSlot g { x with cmds := cs })).setVerdict c b
    | [] => s.modWarp t w (·.setSlot g { x with res := x.res ++ [b] })

/-! The end of streams -/

/-- The C-slice has ended: its queues are freed (R194). -/
def Warp.freeC (w : Warp) : Warp := { w with f0 := [], f1 := [], f2 := [], f3 := [], sa := [], boq := [] }

/-- The A-slice has ended: the back queue is freed and unmatched resolutions are dropped (R194, R200). -/
def Warp.freeA (w : Warp) : Warp :=
  { w with back := [], slots := w.slots.map fun g => (g.1, { g.2 with res := [] }) }

/-- Unmatched commands of a warp. -/
def Warp.unmatched (w : Warp) : List Nat := w.slots.flatMap fun g => g.2.cmds

/-- Both streams have ended: the warp retires, with what it still held lost (R8, R260). -/
def Warp.retire (w : Warp) : Warp := { w with retired := true, resv := [], slots := [] }

/-- The consequences of ended streams of a warp, each of which may be drawn again without effect. -/
def State.closeWarp (s : State) (t w : Nat) : State :=
  match (s.team? t).bind fun tm => tget? tm.warps w with
  | none => s
  | some wp =>
    let s := if wp.c.ended then
        (wp.unmatched.foldl (fun s c => s.setVerdict c false) s).modWarp t w fun x =>
          { x.freeC with slots := x.slots.map fun g => (g.1, { g.2 with cmds := [] }) }
      else s
    let s := if wp.a.ended then s.modWarp t w (·.freeA) else s
    if wp.a.ended && wp.c.ended then s.modWarp t w (·.retire) else s

/-! Dead lanes -/

/-- Takes lanes out of the tags of a queue; entries without lanes are freed (R209). -/
def dropTags (q : List QEntry) (m : Mask) : List QEntry :=
  (q.map fun e => { e with tag := e.tag &&& ~~~m }).filter fun e => e.tag != 0

def dropOutcomes (q : List Outcome) (m : Mask) : List Outcome :=
  (q.map fun e => { e with tag := e.tag &&& ~~~m }).filter fun e => e.tag != 0

/-- Lanes of a warp die (R209). -/
def Warp.kill (w : Warp) (m : Mask) : Warp :=
  let w := { w with
    dead := w.dead ||| m
    f0 := dropTags w.f0 m, f1 := dropTags w.f1 m, f2 := dropTags w.f2 m, f3 := dropTags w.f3 m
    sa := dropTags w.sa m, boq := dropOutcomes w.boq m, back := dropOutcomes w.back m
    resv := w.resv.filter fun r => !m.getLsbD r.1 }
  (w.settle .a).settle .c

/-- Accesses of dead lanes that have not been performed are not made (R209). -/
def Flight.killLanes (f : Flight) (t w : Nat) (m : Mask) : Flight :=
  if f.stream.team = t && f.stream.warp = w then
    { f with
      pieces := f.pieces.filter fun p => !(p.st == .wait && m.getLsbD p.lane)
      lanes := f.lanes.filter fun l => !m.getLsbD l.1
      todo := f.todo &&& ~~~m
      faults := f.faults.filter fun x => !m.getLsbD x.1 }
  else f

/-- Lanes of a warp die: both slices, the queues and the rendezvous points take note, a warp all of whose lanes are
dead retires, and the death is logged (R209, R211, R401). -/
def State.kill (s : State) (t w : Nat) (m : Mask) : State :=
  if m = 0 then s
  else
    let was := ((s.team? t).bind fun tm => tget? tm.warps w).any fun (wp : Warp) => wp.retired
    let s := { s.modWarp t w (·.kill m) with flights := s.flights.map fun (f : Flight) => f.killLanes t w m }
    let s := s.closeWarp t w
    let s := match s.team? t with
      | some tm => s.logEvent 0x02 (s.ctxFn tm.ctx) tm.ctx (324 + tm.core) 0 (m.setWidth 64)
      | none => s
    let gone := ((s.team? t).bind fun tm => tget? tm.warps w).any fun (wp : Warp) => wp.dead == 0xFFFFFFFF
    s.modTeam t fun tm =>
      if gone && !was then tm.mapRvs (·.fallOf w) else tm.recheck w

/-! Retirement of teams -/

/-- The node of a team, among the posted ones. -/
def PNode.isOf (n : PNode) (tm : Team) : Bool := n.ctx == tm.ctx && n.va == tm.node

/-- A team whose warps have all retired and whose loads, stores and commands have ended: its core no longer
waits for it (R8). -/
def State.finished (s : State) (t : Nat) (tm : Team) : Bool :=
  tm.status == .running && tm.warps.all (·.2.retired) &&
  !(s.flights.any fun f => f.stream.team == t) && !(s.engines.cmds.any fun c => c.team == t)

/-- The FIFOs of a core are emptied when the team that owns them goes (R352). -/
def Core.freeFifos (c : Core) (t : Nat) : Core :=
  if c.fifoOwner = some t then { c with fifoA := [], fifoB := [], fifoOwner := none } else c

/-- The L1s of a cluster hold no line, no delta and no open miss. -/
def State.l1Clear (s : State) (cluster : Nat) : Bool :=
  (List.range 4).all fun k =>
    let c := s.core (cluster * 4 + k)
    c.l1.isEmpty && c.deltas.isEmpty && c.misses.isEmpty

/-- The homes settle every line that an L1 of the cluster holds, before it enters or leaves fused mode (R84, R112). -/
def State.clearL1s (s : State) (cluster : Nat) : State :=
  (((List.range 4).flatMap fun k =>
    let c := s.core (cluster * 4 + k)
    c.l1.map L1Line.line ++ c.deltas.map DLine.line).eraseDups).foldl (fun (s : State) (line : Nat) =>
      if (s.l2? line).any (fun x => !x.blocked) && !s.net.acks.any (fun a => a.line == line) then
        (s.startSettle (Settle.ofReq line (Req.ofAgent 3396 0 0 0 0 0) [] false)).1
      else s) s

/-- The L1s of a cluster take a mode, once they are empty (R84). -/
def State.setFused (s : State) (cluster : Nat) (b : Bool) : State :=
  (List.range 4).foldl (fun (s : State) (k : Nat) =>
    if (s.core (cluster * 4 + k)).fused == b then s else s.modCore (cluster * 4 + k) fun c => { c with fused := b }) s

/-- The cluster of a FUSE team leaves fused mode when its last such team has gone (R84, R224): its L1s are settled, and the
mode changes once they are empty, at the latest when a team of another mode is dispatched to it. -/
def State.unfuse (s : State) (cluster : Nat) : State :=
  if s.teams.any fun (e : Nat × Team) => e.2.resident && e.2.core / 4 == cluster && e.2.fuse then s
  else if !(List.range 4).any fun k => (s.core (cluster * 4 + k)).fused then s
  else if s.l1Clear cluster then s.setFused cluster false else s.clearL1s cluster

end Sys2Proof.Machine
end

