-- ==== Sys2Proof/Machine/Gather.lean ====
section
/-! DEFINITION. Accumulator line images (R164 to R169), the cluster gather buffers (R172, R444) and their flushes
(R137), with the steering of what they hold (R65, R72). -/

namespace Sys2Proof.Machine

/-! Accumulator lines -/

/-- Bytes lo to lo + n - 1 of an image as a number. -/
def fieldOf (img : List Byte) (lo n : Nat) : Nat := leNat ((img.drop lo).take n)

/-- Replaces bytes of an image. -/
def setField (img : List Byte) (lo n v : Nat) : List Byte := img.take lo ++ leBytes n v ++ img.drop (lo + n)

/-- Value i of an accumulator image. -/
def accVal (img : List Byte) (i : Nat) : Nat := fieldOf img (6 * i) 6

/-- STATE of an image: 0 ZEROED, 1 OPEN, 2 FINALISED (R165). -/
def accState (img : List Byte) : Nat := fieldOf img 100 2 / 2 ^ 14

/-- Addition of F48 values (R169). -/
def add48 (x y : Nat) : Nat := addRne Fmt.f48 x y

/-- Applies an emission to an image (R168): values, a poison bit per value, tag, scope, check word and the
contributions to count; the reserved bits of STSC stay (R180). -/
def accApply (img : List Byte) (vals : List Nat) (poison : BitVec 16) (tag scope check count : Nat) : List Byte :=
  let stsc := fieldOf img 100 2
  let st := stsc / 2 ^ 14
  let late := st == 2 || stsc / 2 ^ 13 % 2 == 1
  let old := fieldOf img 96 4
  let sum := old + count
  let ovf := decide (0xFFFFFFFF < sum) || stsc / 2 ^ 12 % 2 == 1
  let img1 := (List.range 16).foldl (fun img i => setField img (6 * i) 6 (add48 (accVal img i) (vals.getD i 0))) img
  let vp := (List.range 8).foldl (fun v j =>
    if poison.getLsbD (2 * j) || poison.getLsbD (2 * j + 1) then Nat.lor v (2 ^ j) else v) (fieldOf img 103 1)
  let st' := if st = 0 then 1 else st
  let stsc' := st' * 2 ^ 14 + (if late then 2 ^ 13 else 0) + (if ovf then 2 ^ 12 else 0) + stsc / 2 ^ 11 % 2 * 2 ^ 11 +
    max (stsc / 2 ^ 8 % 8) scope * 2 ^ 8 + stsc % 2 ^ 8
  let oldTag := fieldOf img 102 1
  let tag' := if old = 0 then tag else if oldTag = tag then oldTag else 0xFF
  let img2 := setField (setField (setField img1 96 4 (min sum 0xFFFFFFFF)) 100 2 stsc') 102 1 tag'
  setField (setField img2 103 1 vp) 104 8 ((fieldOf img 104 8 + check) % 2 ^ 64)

/-- The all-zero image. -/
def accZero : List Byte := List.replicate 128 0

/-! Gather buffers -/

def State.buffer (s : State) (cluster : Nat) : List GEntry := tget s.engines.buffers cluster []

def State.setBuffer (s : State) (cluster : Nat) (l : List GEntry) : State :=
  { s with engines := { s.engines with buffers := tset s.engines.buffers cluster l } }

/-- Places of an entry's bytes: position in the line and physical address. -/
def State.entryPlaces (s : State) (e : GEntry) : List (Nat × Nat) :=
  match e.acc with
  | some _ => [(0, s.steer e.ctx e.index (e.off - 128) e.pa)]
  | none => e.words.map fun w => (w.1, s.steer e.ctx e.index (e.off + w.1 - 128) (e.pa + w.1))

/-- One reduction performed at home by a controller (R324): not performed, and logged, on a poisoned half (R121). -/
def State.homeReduce (s : State) (key fn : Nat) (op : BitVec 3) (ty : Ty) (pa : Nat) (x : List Byte) : State :=
  if s.poisonedAt pa then s.logEvent 0x0B fn 0xFF 0xFFFF (BitVec.ofNat 64 pa) 0
  else s.homeStore key (lineOf pa) (bytesAt (pa % 128) (redBytes op ty (s.homeBytes key pa x.length) x))

/-- An emission applied at a line's home (R168): not applied, and logged, on a poisoned line. -/
def State.homeEmission (s : State) (key fn pa : Nat) (vals : List Nat) (poison : BitVec 16)
    (tag scope check count : Nat) : State :=
  if s.poisonOf (lineOf pa) != 0 then s.logEvent 0x0B fn 0xFF 0xFFFF (BitVec.ofNat 64 pa) 0
  else
    let (s, img) := s.homeRead key (lineOf pa) 0 128
    s.homeStore key (lineOf pa) (bytesAt 0 (accApply img vals poison tag scope check count))

/-- Poison of a pair of values as the two bits of an emission. -/
def pairPoison (v : Nat) : BitVec 16 :=
  BitVec.ofNat 16 ((List.range 8).foldl (fun p j => if v / 2 ^ j % 2 = 1 then p + 3 * 4 ^ j else p) 0)

/-- A buffer's agent number (R116). -/
def bufferAgent (cluster : Nat) : Nat := 68 + cluster

/-- The reductions of an entry that lie on a line, as a request of its buffer. -/
def State.entryPart (s : State) (cluster : Nat) (e : GEntry) (line : Nat) : Part :=
  let ws := (e.words.map fun w => (s.steer e.ctx e.index (e.off + w.1 - 128) (e.pa + w.1), w.2)).filter fun w =>
    lineOf w.1 == line
  let r : Req := { Req.ofAgent (bufferAgent cluster) e.id 0 e.key e.fn e.cache with ctx := e.ctx, index := e.index }
  ⟨⟨s.net.next, .agent (bufferAgent cluster), s.homeNode line, line,
    .reduce r e.op e.ty (pairItems (ws.map fun w => (w.1 % 128, w.2)))⟩, [], false, false⟩

/-- Performs an entry at home (R172, R444): reductions of a pair type halfword by halfword (R325, R374). -/
def State.performEntry (s : State) (cluster : Nat) (e : GEntry) : State :=
  match e.acc with
  | some img =>
    s.homeEmission e.key e.fn (s.steer e.ctx e.index (e.off - 128) e.pa) ((List.range 16).map (accVal img))
      (pairPoison (fieldOf img 103 1)) (fieldOf img 102 1) 1 (fieldOf img 104 8) (fieldOf img 96 4)
  | none =>
    if e.ty.isPair then
      (((s.entryPlaces e).map fun p => lineOf p.2).eraseDups).foldl (fun (s : State) line =>
        ({ s with net := { s.net with next := s.net.next + 1 } } : State).beginPart (s.entryPart cluster e line)) s
    else e.words.foldl (fun (s : State) (w : Nat × List Byte) =>
      s.homeReduce e.key e.fn e.op e.ty (s.steer e.ctx e.index (e.off + w.1 - 128) (e.pa + w.1)) w.2) s

/-- A block that the entry has bytes in is in passage (R54). -/
def State.entryPassing (s : State) (e : GEntry) : Bool :=
  match e.acc with
  | some _ => s.inPassing e.ctx e.index (e.off - 128)
  | none => e.words.any fun w => s.inPassing e.ctx e.index (e.off + w.1 - 128)

/-- The lines that an entry's flush changes, with the halves. -/
def State.entryLines (s : State) (e : GEntry) : List (Nat × List Bool) :=
  let hs := (s.entryPlaces e).flatMap fun p =>
    (if e.acc.isSome then [false, true] else [decide (64 ≤ p.2 % 128)]).map fun h => (lineOf p.2, h)
  ((hs.map Prod.fst).eraseDups).map fun l => (l, [false, true].filter fun h => hs.contains (l, h))

/-- Takes an entry out of its buffer; its requests wait no longer. -/
def State.dropEntry (s : State) (cluster : Nat) (e : GEntry) : State :=
  (s.setBuffer cluster ((s.buffer cluster).filter fun x => x.id != e.id)).unclaim (bufferAgent cluster) e.id

/-- The reductions of a flushed entry that are not complete are noted for its team (R105, R137). -/
def State.noteFlush (s old : State) (team : Nat) (lines : List Nat) : State :=
  match s.openSince old with
  | [] => s
  | ids => { s with engines := { s.engines with flushed := s.engines.flushed ++ [⟨team, lines, ids⟩] } }

/-- Flushes one entry, once its lines are ready for it (R115, R118, R122) and its blocks are not in passage (R54, R65). A
flush that a home itself causes, for a step, a discard or a command on the line, goes before the requests that wait for the
line. -/
def State.flushEntry (s : State) (cluster : Nat) (byHome : Bool) (e : GEntry) : State :=
  let agent := bufferAgent cluster
  let r := Req.ofAgent agent e.id (s.stampOf agent e.id) e.key e.fn e.cache
  if s.entryPassing e then s.keepStamp r
  else
    let lines := s.entryLines e
    match lines.foldl (fun (acc : State × Bool) (l : Nat × List Bool) =>
      let go := acc.1.askAs l.1 r l.2 true true byHome
      (go.1, acc.2 && go.2)) (s, true) with
    | (s, true) => ((s.dropEntry cluster e).performEntry cluster e).noteFlush s e.team (lines.map Prod.fst)
    | (s, false) => s

/-- Flushes the entries that satisfy a condition, oldest first. -/
def State.flushWhere (s : State) (cluster : Nat) (byHome : Bool) (p : GEntry → Bool) : State :=
  (((s.buffer cluster).filter p)).foldl (fun (s : State) (e : GEntry) => s.flushEntry cluster byHome e) s

/-- Flushes a team's entries (R137). -/
def State.flushTeam (s : State) (t : Nat) : State :=
  match s.team? t with
  | some tm => s.flushWhere (tm.core / 4) false fun e => e.team == t
  | none => s

/-- The entry lies on a physical line. -/
def State.entryOn (s : State) (line : Nat) (e : GEntry) : Bool := (s.entryPlaces e).any fun p => lineOf p.2 == line

/-- Flushes a team's entries on some physical lines; whether none is left (R176). -/
def State.flushedOn (s : State) (t : Nat) (lines : List Nat) : State × Bool :=
  match s.team? t with
  | some tm =>
    let mine (s : State) (e : GEntry) : Bool := e.team == t && lines.any fun l => s.entryOn l e
    let s := s.flushWhere (tm.core / 4) true (mine s)
    (s, !((s.buffer (tm.core / 4)).any (mine s)))
  | none => (s, true)

/-- Drops a team's entries unperformed (R182). -/
def State.loseTeam (s : State) (t : Nat) : State :=
  match s.team? t with
  | some tm => ((s.buffer (tm.core / 4)).filter fun e => e.team == t).foldl (fun (s : State) e => s.dropEntry (tm.core / 4) e) s
  | none => s

/-- The team has pending entries, or reductions of flushed ones that are not complete (R133, R137). -/
def State.gathering (s : State) (t : Nat) : Bool :=
  (s.engines.flushed.any fun f => f.team == t) ||
  (match s.team? t with
   | some tm => (s.buffer (tm.core / 4)).any fun e => e.team == t
   | none => false)

/-- Flushes every team's entries on a physical line (R55, R95, R173). -/
def State.flushLine (s : State) (line : Nat) : State :=
  s.engines.buffers.foldl (fun (s : State) (b : Nat × List GEntry) => s.flushWhere b.1 true (s.entryOn line)) s

/-- Flushes every team's entries on a line; whether none is left. -/
def State.flushedLine (s : State) (line : Nat) : State × Bool :=
  let s := s.flushLine line
  (s, !(s.engines.buffers.any fun b => b.2.any (s.entryOn line)))

/-- Drops every team's entries on a line without performing them (R95). -/
def State.dropEntries (s : State) (line : Nat) : State :=
  s.engines.buffers.foldl (fun (s : State) (b : Nat × List GEntry) =>
    (b.2.filter (s.entryOn line)).foldl (fun (s : State) e => s.dropEntry b.1 e) s) s

/-- Two entries cover the same line for the same team. -/
def GEntry.same (e : GEntry) (team ctx index off : Nat) : Bool :=
  e.team == team && e.ctx == ctx && e.index == index && e.off == off

/-- Combines words into a delta line (R117, R444): a touched word is combined, an untouched one takes the
operand. -/
def combineWords (op : BitVec 3) (ty : Ty) (old : List (Nat × List Byte)) (ws : List (Nat × List Byte)) :
    List (Nat × List Byte) :=
  ws.foldl (fun acc w =>
    if acc.any fun x => x.1 == w.1 then acc.map fun x => if x.1 = w.1 then (x.1, redBytes op ty x.2 w.2) else x
    else acc ++ [w]) old

/-- Makes room in a full buffer: the oldest entry is flushed first. -/
def State.bufferRoom (s : State) (cluster : Nat) : State :=
  if (s.buffer cluster).length < 64 then s
  else match s.buffer cluster with
    | e :: _ => s.flushEntry cluster false e
    | [] => s

/-- Puts an entry into a buffer that has room for it after a flush; false while the flush is under way. -/
def State.bufferPut (s : State) (cluster : Nat) (n : GEntry) (room : Bool) : State × Bool :=
  if room then (s.setBuffer cluster (s.buffer cluster ++ [n]), true) else (s, false)

/-- A new entry takes the place of one of the same line that it does not combine with, or a free one. -/
def State.bufferNew (s : State) (cluster : Nat) (n : GEntry) (old : Option GEntry) : State × Bool :=
  match old with
  | some e =>
    let s := s.flushEntry cluster false e
    s.bufferPut cluster n (!((s.buffer cluster).any fun x => x.id == e.id))
  | none =>
    let s := s.bufferRoom cluster
    s.bufferPut cluster n (decide ((s.buffer cluster).length < 64))

/-- An entry of a buffer changes. -/
def State.setEntry (s : State) (cluster : Nat) (e x : GEntry) : State :=
  s.setBuffer cluster ((s.buffer cluster).map fun y => if y = e then x else y)

/-- A reduction reaches the buffer (R444); false while the buffer makes room. -/
def State.bufferReduce (s : State) (cluster : Nat) (n : GEntry) : State × Bool :=
  match (s.buffer cluster).find? fun e => e.same n.team n.ctx n.index n.off with
  | some e =>
    if e.acc.isNone && e.op == n.op && e.ty == n.ty then
      (s.setEntry cluster e { e with words := combineWords e.op e.ty e.words n.words }, true)
    else s.bufferNew cluster n (some e)
  | none => s.bufferNew cluster n none

/-- A `.team` emission reaches the buffer (R172); false while the buffer makes room. -/
def State.bufferEmission (s : State) (cluster : Nat) (n : GEntry) (vals : List Nat) (poison : BitVec 16)
    (tag check : Nat) : State × Bool :=
  let new_ : GEntry := { n with acc := some (accApply accZero vals poison tag 1 check 1) }
  match (s.buffer cluster).find? fun e => e.same n.team n.ctx n.index n.off with
  | some e =>
    match e.acc with
    | some img => (s.setEntry cluster e { e with acc := some (accApply img vals poison tag 1 check 1) }, true)
    | none => s.bufferNew cluster new_ (some e)
  | none => s.bufferNew cluster new_ none

end Sys2Proof.Machine
end

