-- ==== Sys2Proof/Machine/Nodes.lean ====
section
/-! DEFINITION. Node records and their posting (R216 to R220, R365), signals to wake words (R222, R336), and the
completion of nodes (R221, R222). -/

namespace Sys2Proof.Machine

/-! Reductions of controllers in a context's memory (R221, R222, R336) -/

/-- The controllers' agent numbers (R116): nodes and traps, Headland, clearing. -/
def nodeAgent : Nat := 3396
def headAgent : Nat := 3397
def clearAgent : Nat := 3398

/-- A reduction of a controller in a context's memory, under its range table and the rule of R39, once its line is ready
(`State.agentAsk`); none when it faults. -/
def State.ctxReduce (s : State) (ctx : Nat) (v : Word) (op : BitVec 3) (ty : Ty) (x : Word) : Option State :=
  let w := Ty.bytes ty
  if bits v 56 8 != 0 then none
  else match s.lookWalk ctx v .wr with
    | .hit r =>
      if r.align < w || v.toNat % w != 0 then none
      else match s.spot r (v - r.base).toNat with
        | .at_ pa => some (s.homeReduce r.key r.fn op ty pa (leBytes w x.toNat))
        | .passing | .stranded => none
    | .miss | .fault _ => none

/-- The address of a context's wake word: the first doubleword of ARG of its root program's record. -/
def State.wakeAddr (s : State) (ctx : Nat) : Word := s.reg (.ctxroot ctx) + 192

/-- The bytes of a context's wake word, for the turn of an OR into it. -/
def State.wakeTouch (s : State) (ctx : Nat) : Touch := .ctx ctx (s.wakeAddr ctx) 8 true

/-- ORs a value into a context's wake word; a fault is logged and the signal lost. -/
def State.orWake (s : State) (ctx : Nat) (v : Word) : State :=
  match s.ctxReduce ctx (s.wakeAddr ctx) 2 .z64 v with
  | some s => s
  | none => s.logEvent 0x0A (s.ctxFn ctx) ctx 3397 (s.wakeAddr ctx) 0

/-! The record (R217) -/

/-- A field of a record. -/
def recField (r : List Byte) (off n : Nat) : Nat := leNat ((r.drop off).take n)

def recEntry (r : List Byte) (k : Nat) : Word := BitVec.ofNat 64 (recField r (8 * k) 8)
def recWarps (r : List Byte) (k : Nat) : Nat := recField r (72 + k) 1
def recV (r : List Byte) (k : Nat) : Nat := recField r (76 + k) 1
def recA (r : List Byte) (k : Nat) : Nat := recField r (80 + k) 1
def recStages (r : List Byte) : Nat := recField r 70 1
def recFlags (r : List Byte) : BitVec 16 := BitVec.ofNat 16 (recField r 90 2)
def recTpool (r : List Byte) : Nat := recField r 84 4
def recTarget (r : List Byte) : Word := BitVec.ofNat 64 (recField r 120 8)
def recSucc (r : List Byte) (k : Nat) : Word := BitVec.ofNat 64 (recField r (128 + 8 * k) 8)
def recTotal (r : List Byte) : Nat := recField r 64 2 * recField r 66 2 * recField r 68 2

/-- What a team asks of a core. -/
structure Fit where
  ctx : Nat
  node : Word
  warps : Nat
  vgran : Nat
  agran : Nat
  tide : Nat
  flags : BitVec 16
  deriving DecidableEq, Repr

/-- Rounded up to a multiple of 256 (R79). -/
def tideSize (n : Nat) : Nat := (n + 255) / 256 * 256

/-- WATCH doubles a warp's slots and granules (R224). -/
def watchFactor (flags : BitVec 16) : Nat := if flags.getLsbD 4 then 2 else 1

def fitOf (ctx : Nat) (node : Word) (stages : List (Nat × Nat × Nat)) (tide : Nat) (flags : BitVec 16) : Fit :=
  let k := watchFactor flags
  let sum (f : Nat × Nat × Nat → Nat) : Nat := stages.foldl (fun acc x => acc + f x) 0
  ⟨ctx, node, k * sum (fun x => x.1), k * sum (fun x => x.1 * x.2.1), k * sum (fun x => x.1 * x.2.2), tide, flags⟩

def recStageList (r : List Byte) : List (Nat × Nat × Nat) :=
  (List.range (min 4 (recStages r))).map fun k => (recWarps r k, recV r k, recA r k)

def recFit (ctx : Nat) (node : Word) (r : List Byte) : Fit :=
  fitOf ctx node (recStageList r) (tideSize (recTpool r)) (recFlags r)

/-- Teams of one shape that a core can hold. -/
def Fit.perCore (f : Fit) : Nat :=
  let by_ (cap use : Nat) : Nat := if use = 0 then 8 else cap / use
  min 8 (min (by_ 32 f.warps) (min (by_ 256 f.vgran) (min (by_ 128 f.agran) (by_ 1572864 f.tide))))

/-- Cores that a CORES node needs at once (R219 GRID, R224): two for each TWIN team; for SHARE groups the four of a
cluster, and those of a last smaller group that stands alone on one. -/
def Fit.coresFor (f : Fit) (total : Nat) : Nat :=
  let p := max 1 f.perCore
  let groups := (total + 3) / 4
  if f.flags.getLsbD 1 then 2 * total
  else if f.flags.getLsbD 3 then
    (if (groups - 1) % p = 0 then 4 * ((groups - 1) / p) + (total - 4 * (groups - 1)) else 4 * ((groups + p - 1) / p))
  else (total + p - 1) / p

/-- TARGET breaks R222. -/
def badTarget (t : Word) : Bool :=
  bits t 56 6 != 0 ||
  (match bits t 62 2 with
   | 0 => false
   | 1 => bits t 0 2 != 0
   | 2 => bits t 11 45 != 0
   | _ => bits t 0 56 != 0)

/-- The refusal code of R219 for a record that could be read; 0 when it passes. -/
def State.recCode (s : State) (ctx : Nat) (va : Word) (r : List Byte) : Nat :=
  let st := recStages r
  let f := recFit ctx va r
  let present := List.range (min 4 st)
  let absent := (List.range 4).drop st
  let fn := s.reg (.fnsvc (s.ctxFn ctx))
  let priv := recField r 104 8
  let size := recField r 112 4
  if bits va 0 8 != 0 then 1
  else if recField r 97 1 != 0 then 2
  else if recTotal r = 0 || st = 0 || 4 < st ||
    present.any (fun k => recWarps r k = 0 || 32 < recWarps r k || recV r k = 0 || 16 < recV r k || recA r k = 0 ||
      8 < recA r k || recEntry r (2 * k) = 0 || bits (recEntry r (2 * k)) 0 3 != 0 || recEntry r (2 * k + 1) = 0 ||
      bits (recEntry r (2 * k + 1)) 0 3 != 0) ||
    absent.any (fun k => recWarps r k != 0 || recV r k != 0 || recA r k != 0) ||
    32 < present.foldl (fun acc k => acc + recWarps r k) 0 then 3
  else if 256 < f.vgran || 128 < f.agran || 32 < f.warps || 1572864 < recTpool r || 24 < recField r 88 1 then 4
  else if priv % 128 != 0 || size % 16 != 0 || 262144 < size then 5
  else if recField r 90 2 / 32 != 0 || recField r 71 1 / 4 != 0 || recField r 89 1 != 0 || recField r 99 5 != 0 ||
    recField r 116 4 != 0 || ((recFlags r).getLsbD 1 && (recFlags r).getLsbD 3) then 6
  else if 8 < recField r 96 1 || (List.range (recField r 96 1)).any (fun k =>
    recSucc r k = 0 || bits (recSucc r k) 0 8 != 0) then 7
  else if (recFlags r).getLsbD 2 && min 1024 (bits fn 32 11 + bits fn 0 11) < f.coresFor (recTotal r) then 8
  else if 65536 ≤ (s.sched.nodes.filter fun n => n.ctx == ctx).length then 9
  else if badTarget (recTarget r) then 10
  else 0

/-! Posting (R216, R219, R220) -/

/-- Writes STATE and CODE of a record, each where it can be written (R219). -/
def State.setRecord (s : State) (ctx : Nat) (va : Word) (state code : Nat) : State :=
  let s := (s.ctxWrite ctx (va + 97) [BitVec.ofNat 8 state]).getD s
  (s.ctxWrite ctx (va + 98) [BitVec.ofNat 8 code]).getD s

/-- What that writes. -/
def setTouches (ctx : Nat) (va : Word) : List Touch := [.ctx ctx (va + 97) 1 true, .ctx ctx (va + 98) 1 true]

/-- The record can be read and written throughout in its context. -/
def State.recordOpen (s : State) (ctx : Nat) (va : Word) : Bool :=
  match s.spanPieces ctx va 256 .rw 8 with
  | .ok _ => true
  | .error _ => false

/-- Tick of the scheduler, that of die 0. -/
def State.now (s : State) : Nat := s.hb 0

/-- What a posting reads and writes of a record. -/
def recTouches (ctx : Nat) (va : Word) : List Touch := .ctx ctx va 256 false :: setTouches ctx va

/-- The number by which the controller's claims for a node are known, by kind of step. -/
def nodeSerial (ctx : Nat) (va : Word) (kind : Nat) : Nat := (va.toNat * 64 + ctx) * 4 + kind

/-- Posts a record, once its lines are ready (`recTouches`): whether it was accepted. A record of the device's own has its
priority given and no predecessors. -/
def State.postNode (s : State) (ctx : Nat) (va : Word) (root : Bool) (prio : Option Nat) : State × Bool :=
  if !s.recordOpen ctx va then (s.setRecord ctx va 5 1, false)
  else match s.ctxRead ctx va 256 with
    | none => (s.setRecord ctx va 5 1, false)
    | some (s, r) =>
      match s.recCode ctx va r with
      | 0 =>
        let ready := root || recField r 92 4 = 0
        let n : PNode :=
          { ctx := ctx, va := va, prio := prio.getD (recField r 71 1), ready := ready, post := s.fresh,
            since := s.sched.next, record := r, tick := s.now, starved := false, total := recTotal r, nextTeam := 0,
            retired := 0, root := root, ending := none }
        (({ s.bump with sched := { s.sched with nodes := s.sched.nodes ++ [n], next := s.sched.next + 1 } } : State).setRecord
          ctx va (if ready then 2 else 1) 0, true)
      | c => (s.setRecord ctx va 5 c, false)

/-- A record that passes R219 describes no grid of one team of one warp. -/
def State.rootShape (s : State) (ctx : Nat) (va : Word) : Bool :=
  match s.ctxRead ctx va 256 with
  | some (_, r) => s.recCode ctx va r != 0 || (recTotal r == 1 && recStages r == 1 && recWarps r 0 == 1)
  | none => true

/-- A STARTING context whose root program has still to be posted; not while its function is in reset (log entry 117). -/
def State.rootAwaited (s : State) (ctx : Nat) : Bool :=
  s.ctxState ctx == 1 && !s.fnInReset (s.ctxFn ctx) && !(s.sched.nodes.any fun n => n.ctx == ctx && n.root)

/-- Headland posts a STARTING context's root program, once its record may be read and written: one team of one warp, or the
context fails (R216). A record that R219 refuses says so in its STATE and CODE. -/
def State.postRoot (s : State) (ctx : Nat) : State :=
  let va := s.reg (.ctxroot ctx)
  let fail (s : State) : State := (s.setCtxState ctx 5).signalCtx ctx
  if !s.rootAwaited ctx then s
  else match s.agentAsk headAgent (64 + ctx) (recTouches ctx va) with
    | (s, false) => s
    | (s, true) =>
      if !s.rootShape ctx va then fail s
      else match s.postNode ctx va true (some 3) with
        | (s, true) => s
        | (s, false) => fail s

/-! Completion (R221, R222) -/

/-- Signals a node's TARGET. -/
def State.signalTarget (s : State) (ctx : Nat) (t : Word) : State :=
  match bits t 62 2 with
  | 0 => s
  | 1 =>
    let v : Word := BitVec.ofNat 64 (bits t 0 56)
    (match s.ctxReduce ctx v 0 .z32 1 with
     | some s => s
     | none => s.logEvent 0x0A (s.ctxFn ctx) ctx 3396 v 0)
  | 2 => s.signal (s.ctxFn ctx) (bits t 0 11)
  | _ => s.orWake ctx (1#64 <<< 62)

/-- A record's PRED can be read and written in its context. -/
def State.predOpen (s : State) (ctx : Nat) (va : Word) : Bool :=
  match s.spanPieces ctx (va + 92) 4 .rw 4 with
  | .ok _ => true
  | .error _ => false

/-- Subtracts 1 from a successor's PRED; the successor becomes READY when it reaches 0 and it was WAITING. -/
def State.decrement (s : State) (ctx : Nat) (va : Word) : State :=
  match s.predOpen ctx va, s.ctxRead ctx (va + 92) 4 with
  | true, some (s, b) =>
    let p := leNat b
    if p = 0 then s.logEvent 0x09 (s.ctxFn ctx) ctx 3396 va 0
    else
      let s := (s.ctxWrite ctx (va + 92) (leBytes 4 (p - 1))).getD s
      if p = 1 && s.sched.nodes.any fun n => n.ctx == ctx && n.va == va && !n.ready then
        let s := s.setRecord ctx va 2 0
        let up (n : PNode) : PNode :=
          if n.ctx = ctx && n.va = va && !n.ready then
            { n with ready := true, since := s.sched.next, tick := s.now } else n
        { s with sched := { s.sched with nodes := s.sched.nodes.map up, next := s.sched.next + 1 } }
      else s
  | _, _ => s.logEvent 0x0A (s.ctxFn ctx) ctx 3396 va 0

/-- The bytes of a record that the device writes itself, or that software may write, or that the device never reads. -/
def deviceByte (i : Nat) : Bool := (decide (92 ≤ i) && decide (i < 96)) || i == 97 || i == 98 || decide (192 ≤ i)

/-- The record that the device reads at a dispatch or a completion (R218): the one that posting read; where software has
written it since, unpredictable bytes, of which the device uses none that R219 would refuse (log entry 60). -/
def State.recordNow (s : State) (n : PNode) : List Byte :=
  match s.spanPieces n.ctx n.va 256 .rd 8 with
  | .error _ => n.record
  | .ok ps =>
    let cur := (s.readPieces ps).2.1
    let same (b : Byte × Nat) : Bool := deviceByte b.2 || cur[b.2]? == some b.1
    if n.record.zipIdx.all same then n.record
    else
      let r := n.record.zipIdx.map fun b =>
        if same b then b.1 else (Config.freeWord 49 (s.agenda.free + b.2)).setWidth 8
      if s.recCode n.ctx n.va r = 0 then r else n.record

/-- A posted node as the device reads it now. -/
def PNode.now (n : PNode) (s : State) : PNode := { n with record := s.recordNow n }

/-- Successors of a node. -/
def PNode.succs (n : PNode) : List Word := (List.range (min 8 (recField n.record 96 1))).map (recSucc n.record)

/-- What the end of a completion touches: TARGET and the successors. -/
def State.completeTouches (s : State) (n : PNode) : List Touch :=
  let t := recTarget n.record
  (if bits t 62 2 = 1 then [Touch.ctx n.ctx (BitVec.ofNat 64 (bits t 0 56)) 4 true]
   else if bits t 62 2 = 3 then [s.wakeTouch n.ctx] else []) ++
  n.succs.flatMap fun v => Touch.ctx n.ctx (v + 92) 4 true :: setTouches n.ctx v

/-- The node's completion begins: DONE is written. -/
def State.doneNode (s : State) (n : PNode) : State :=
  let t := s.setRecord n.ctx n.va 4 0
  let mark (m : PNode) : PNode := if m.ctx = n.ctx && m.va = n.va then { m with ending := some (t.openSince s) } else m
  { t with sched := { t.sched with nodes := t.sched.nodes.map mark } }

/-- Once that write is complete: TARGET, then the successors. -/
def State.completeNode (s : State) (n : PNode) : State :=
  let s := { s with sched := { s.sched with nodes := s.sched.nodes.filter fun m => !(m.ctx == n.ctx && m.va == n.va) } }
  let s := s.signalTarget n.ctx (recTarget n.record)
  n.succs.foldl (fun (s : State) va => s.decrement n.ctx va) s

/-! The ready pool (R223) -/

/-- Teams of a node that were saved. -/
def PNode.savedIn (n : PNode) (s : State) : List (Nat × Team) :=
  s.teams.filter fun e => n.isOf e.2 && (match e.2.status with | .saved _ => true | _ => false)

/-- The node stands before another in the pool. -/
def PNode.before (a b : PNode) : Bool := decide (b.prio < a.prio) || (a.prio == b.prio && decide (a.since < b.since))

def insertNode (l : List PNode) (n : PNode) : List PNode :=
  match l with
  | [] => [n]
  | m :: l => if n.before m then n :: m :: l else m :: insertNode l n

/-- The ready pool of a context, first first: nodes that have teams to dispatch. -/
def State.pool (s : State) (ctx : Nat) : List PNode :=
  (s.sched.nodes.filter fun n => n.ctx == ctx && n.ready &&
    (decide (n.nextTeam < n.total) || !(n.savedIn s).isEmpty)).foldl insertNode []

/-- The first node of a context's pool is a CORES node, for which freed cores are held (R224). -/
def State.coresFirst (s : State) (ctx : Nat) : Bool :=
  s.ctxState ctx == 2 && ((s.pool ctx).head?.any fun n => (recFlags n.record).getLsbD 2)

/-- The context for which a core is reserved. -/
def State.reserved (s : State) (core : Nat) : Option Nat := (s.core core).reservedFor.filter s.coresFirst

/-- NODE_COMPLETE: every team of the node has retired, its writes complete. STATE becomes DONE; once that is complete (R105),
TARGET is signalled and the successors are decremented, in this order. A root program's team never retires of its own
accord (R216). -/
def execNodeComplete (ctx : Nat) (node : Word) (s : State) : Host.Outcome State Fault Refusal :=
  .next (match s.sched.nodes.find? fun n => n.ctx == ctx && n.va == node with
    | none => s
    | some n =>
      match n.ending with
      | none =>
        if !n.ready || n.retired != n.total || n.nextTeam < n.total then s
        else match s.agentAsk nodeAgent (nodeSerial ctx node 0) (setTouches ctx node) with
          | (s, true) => s.doneNode n
          | (s, false) => s
      | some ids =>
        if ids.any s.openId then s
        else
          let n := n.now s
          match s.agentAsk nodeAgent (nodeSerial ctx node 0) (s.completeTouches n) with
          | (s, true) => (s.completeNode n).tookFree 256
          | (s, false) => s)

end Sys2Proof.Machine
end

