-- ==== Sys2Proof/Machine/Requests.lean ====
section
/-! DEFINITION. What a home slice does with a request (R65, R81 to R92, R95, R98, R105 to R119, R121 to R127, R324,
R326, R327): steering, the forward queue, fills, gathers, back-invalidations, and the performing of each kind. -/

namespace Sys2Proof.Machine

/-! Requests -/

/-- The body is a request to a home. -/
def Body.isRequest : Body → Bool
  | .read .. | .store .. | .discard .. | .atomic .. | .reduce .. | .accLd _ | .ureq .. => true
  | _ => false

/-- Halves of a line that positions touch. -/
def halvesAt (ps : List (Nat × Nat)) : List Bool :=
  [false, true].filter fun h => ps.any fun p => (halvesOf p.1 p.2).contains h

/-- The halves that a request reads or changes. -/
def Body.halves : Body → List Bool
  | .read _ _ _ hs => hs
  | .store _ bytes _ zero => if zero then [false, true] else halvesAt (bytes.map fun b => (b.1, 1))
  | .discard _ lo len _ => halvesOf lo len
  | .atomic _ _ _ ops => halvesAt (ops.map fun o => (o.2.1, 1))
  | .reduce _ _ _ ws | .ureq _ _ _ ws => halvesAt (ws.map fun w => (w.1, 1))
  | .accLd _ => [false, true]
  | _ => []

/-- The request changes memory. -/
def Body.writes : Body → Bool
  | .store .. | .discard .. | .reduce .. | .ureq .. => true
  | .atomic _ op _ _ => op != .ll
  | _ => false

/-- Changes the pieces of a request's flight. -/
def State.modReq (s : State) (line : Nat) (r : Req) (f : Piece → Piece) : State :=
  match r.flight with
  | none => s
  | some id => s.modFlight id fun x => { x with pieces := x.pieces.map fun p => if p.inReq line r then f p else p }

/-! Directory -/

/-- Adds a core to an entry (R106, R109, R111). -/
def DirEntry.add (d : DirEntry) (core : Nat) (mode : BitVec 2) : DirEntry :=
  let dieBit : BitVec 64 := 1#64 <<< dieOf core
  if d.coarse then
    if d.dies = 0 then { d with coarse := false, ptrs := [core], mode := mode }
    else { d with dies := d.dies ||| dieBit, mode := mode }
  else if d.ptrs.contains core then { d with mode := mode }
  else if d.ptrs.length < 4 then { d with ptrs := d.ptrs ++ [core], mode := mode }
  else { d with
    coarse := true, mode := mode, ptrs := []
    dies := d.ptrs.foldl (fun m c => m ||| (1#64 <<< dieOf c)) dieBit }

/-- Removes a pointer (R108). -/
def DirEntry.drop (d : DirEntry) (core : Nat) : DirEntry :=
  if d.coarse then d
  else
    let ps := d.ptrs.filter (· != core)
    { d with ptrs := ps, mode := if ps.isEmpty then 0 else d.mode }

/-- A change of bytes of a line is carried to the copies (R106, R110): UPD to the other pointers, or a round of
INV to the cores of the marked dies. STACK follows the last acknowledgement, or at once. -/
def State.propagate (s : State) (line : Nat) (src : Node) (r : Req) (ps : List Nat) (reply : Bool) : State :=
  match s.carry line r.key src.core? ps (if reply then some (src, r) else none) with
  | some s => s
  | none => if reply then s.sendStack src r line false else s

/-! The forward queue (R115, R116) -/

/-- RETRY: the request's agent will reissue it (R115). -/
def State.bounce (s : State) (m : Msg) : State :=
  ({ s with net := { s.net with retries := s.net.retries ++ [m] } }).send (s.homeNode m.line) m.src m.line (.retry m.id)

/-- A request waits for its line, or gets RETRY from a full queue (R115). -/
def State.forward (s : State) (m : Msg) : State :=
  if s.queueRoom m.line then
    { s with net := { s.net with forwards := s.net.forwards ++ [m] } }
  else s.bounce m

/-! Performing a request -/

/-- Valid halves of a line that the home may hand out: not owned by the host, and arrived (R123, R125). -/
def State.handOut (s : State) (line : Nat) : List Bool :=
  [false, true].filter fun h => s.hostHalf line h != 2 && !(s.missing line [h]).contains h

/-- READ (R106, R109, R111, R123): the data, and a pointer when the L1 is to keep the line. -/
def State.performRead (s : State) (m : Msg) (r : Req) (alloc : Bool) : State :=
  let valid := s.handOut m.line
  let keep := alloc && valid.length == 2 && s.poisonOf m.line == 0 && (s.l2? m.line).any fun x => !x.transient
  let s := if keep then s.modDir m.line fun d => d.add m.src.core? 1 else s
  s.send (s.homeNode m.line) m.src m.line
    (.data r (s.homeBytes r.key (m.line * 128) 128) (s.poisonOf m.line) valid keep)

/-- STORE (R105, R106, R110, R121, R326). -/
def State.performStore (s : State) (m : Msg) (r : Req) (bytes : List (Nat × Byte)) : State :=
  let s := (s.clearResv m.line).homePut r.key m.line bytes
  (s.changed m.line).propagate m.line m.src r (bytes.map Prod.fst) true

/-- One lane's atomic on bytes: the new bytes, if any are written (R323). -/
def laneOp (op : AccOp) (ty : Ty) (old : List Byte) (x c : List Byte) : Option (List Byte) :=
  match op with
  | .atom o => some (redBytes o ty old x)
  | .cas => if old = x then some c else none
  | _ => none

/-- The lane's reservation covers exactly this location (R326, R327). -/
def Warp.reserves (w : Warp) (lane : Nat) (tide : Bool) (line addr width : Nat) : Bool :=
  match tget? w.resv lane with
  | some r => r == ⟨tide, line, addr, width⟩
  | none => false

/-- The warp of a flight. -/
def State.flightWarp (s : State) (f : Flight) : Option Warp :=
  (s.team? f.stream.team).bind fun tm => tget? tm.warps f.stream.warp

/-- One lane of an atomic, `ll` or `sc` at home: the new state, and the positions written. -/
def State.performLane (s : State) (m : Msg) (r : Req) (op : AccOp) (ty : Ty) (o : LaneOp) : State × List Nat :=
  let (lane, pos, x, c) := o
  let pa := m.line * 128 + pos
  let w := Ty.bytes ty
  let put (s : State) (b : List Byte) (bad : Bool) : State :=
    s.modReq m.line r fun p => if p.lane = lane then { p with data := b, bad := bad } else p
  if (List.range w).any fun i => s.poisonedAt (pa + i) then (put s [] true, [])
  else
    let old := s.homeBytes r.key pa w
    match op, r.flight.bind s.flight? with
    | .ll, some f =>
      (put (s.modWarp f.stream.team f.stream.warp fun wp =>
        { wp with resv := tset wp.resv lane ⟨false, m.line, pa, w⟩ }) old false, [])
    | .sc, some f =>
      let ok := (s.flightWarp f).any fun wp => wp.reserves lane false m.line pa w
      let s := if ok then (s.clearResv m.line).homePut r.key m.line (bytesAt pos x) else s
      let s := s.modWarp f.stream.team f.stream.warp fun wp => { wp with resv := tdel wp.resv lane }
      (put s [if ok then 1 else 0] false, if ok then (List.range w).map fun i => pos + i else [])
    | op, _ =>
      match laneOp op ty old x c with
      | some new => (put ((s.clearResv m.line).homePut r.key m.line (bytesAt pos new)) old false,
          (List.range w).map fun i => pos + i)
      | none => (put s old false, [])

/-- A fetching atomic, CAS, `ll` or `sc` request: its lanes consecutively, in ascending order (R119, R323). -/
def State.performAtomic (s : State) (m : Msg) (r : Req) (op : AccOp) (ty : Ty) (ops : List LaneOp) : State :=
  let (s, ps) := ops.foldl (fun (acc : State × List Nat) (o : LaneOp) =>
    let (s, ps) := acc.1.performLane m r op ty o
    (s, acc.2 ++ ps)) (s, [])
  if ps.isEmpty then s.sendStack m.src r m.line false else (s.changed m.line).propagate m.line m.src r ps true

/-- A reduction at home (R121, R324). One of a pair type is made halfword by halfword, low before high and words in
ascending order (R374): after any of the writes, by a free choice, the home turns to other requests, and makes the rest in
later steps. It is complete when all its acknowledgements have come. -/
def State.performReduce (s : State) (m : Msg) (r : Req) (op : BitVec 3) (ty : Ty) (ws : List (Nat × List Byte)) :
    State :=
  if ty.isPair then s.beginPart ⟨{ m with body := .reduce r op ty (pairItems ws) }, [], false, true⟩
  else (s.reduceAt m.line r op ty ws).propagate m.line m.src r (partPositions ws) true

/-- Marks the queued write-backs of a line as dropped (R95). -/
def Bank.dropWrites (b : Bank) (line : Nat) : Bank :=
  { b with reqs := b.reqs.map fun (q : McReq) => if q.line = line && q.write then { q with dropped := true } else q }

/-- Reductions begun on a line make no more writes: a discard overwrites what they would change. -/
def State.cutParts (s : State) (line : Nat) : State :=
  (s.net.parts.filter fun p => p.m.line == line).foldl (fun (s : State) (p : Part) => s.putPart (p.withRest [])) s

/-- A discard of a whole line at its home (R95): pending buffer reductions go unperformed, reservations are cleared, queued
write-backs are dropped, the line reads zero, and a full-line write of zeros is queued. The copies in L1s, deltas and
host-held halves are then invalidated, what they still hold is dropped, and the L2 copy goes without a write-back. -/
def State.discardLine (s : State) (r : Req) (line : Nat) (reply : Option (Node × Req)) : State :=
  let s := { s with lines := { s.lines with
    banks := s.lines.banks.map fun (b : Nat × Bank) => (b.1, b.2.dropWrites line) } }
  let s := (((s.dropEntries line).cutParts line).clearResv line).homePut r.key line (bytesAt 0 accZero)
  let s := if s.isHost (line * 128) then [false, true].foldl (fun (s : State) h => s.hostBack line r.key h) s
    else s.mcPush r.fn line true
  let s := s.modL2 line fun x => { x with dirty := false, key := r.key }
  match s.l2? line with
  | none => match reply with
    | some (n, q) => s.send (s.homeNode line) n line (.stack q [] true)
    | none => s
  | some x =>
    let t : Settle := { Settle.ofReq line r [false, true] true with drop := true, reply := reply }
    if x.blocked then { s with net := { s.net with settles := s.net.settles ++ [t] } } else (s.startSettle t).1

/-- DISCARD of part of a line: a store of zeros (R95, R366). -/
def State.performDiscard (s : State) (m : Msg) (r : Req) (lo len : Nat) : State :=
  let bytes := bytesAt lo (List.replicate len (0 : Byte))
  let s := (s.clearResv m.line).homePut r.key m.line bytes
  (s.changed m.line).propagate m.line m.src r (bytes.map Prod.fst) true

/-- `acc.ld` reads the line at home in one instant (R174, R158). -/
def State.performAccLd (s : State) (m : Msg) (r : Req) : State :=
  let bad := s.poisonOf m.line != 0
  let img := s.homeBytes r.key (m.line * 128) 128
  (s.modReq m.line r fun p => { p with data := img, bad := bad }).sendStack m.src r m.line false

/-- UREQ (R117): update-only state; or the reduction at home, when shared copies stand, when a half that it touches is
poisoned (R121), or when no line of the slice can hold the entry (R87). -/
def State.performUreq (s : State) (m : Msg) (r : Req) (op : BitVec 3) (ty : Ty) (ws : List (Nat × List Byte)) : State :=
  if (s.dir m.line).mode = 1 || (s.l2? m.line).all (·.transient) || ws.any fun w => s.poisonedAt (m.line * 128 + w.1) then
    s.performReduce m r op ty ws
  else
    (s.modDir m.line fun d => d.add m.src.core? 2).send (s.homeNode m.line) m.src m.line (.ugrant r op ty ws)

/-- Performs a request whose line is ready for it, a use of the line (R89). -/
def State.perform (s : State) (m : Msg) : State :=
  let s := { s with lines := { s.lines with tick := s.lines.tick + 1 } }
  let s := s.modL2 m.line fun x => { x with used := s.lines.tick }
  let s : State := match m.body with
  | .read r alloc _ _ => s.performRead m r alloc
  | .store r bytes _ _ => s.performStore m r bytes
  | .discard r lo len _ => s.performDiscard m r lo len
  | .atomic r op ty ops => s.performAtomic m r op ty ops
  | .reduce r op ty ws => s.performReduce m r op ty ws
  | .accLd r => s.performAccLd m r
  | .ureq r op ty ws => s.performUreq m r op ty ws
  | _ => s
  s.endTransient m.line

/-- What steering says of a request (R65). -/
inductive Steered where
  | go
  | hold
  | resteer (tide : Nat)
  | stranded
  deriving DecidableEq, Repr

/-- The slides of a descriptor whose steering entries stand in the slices, the latest first: one that is ending may still
have its entries when the next has begun (R62). -/
def State.slidesOf (s : State) (ctx index : Nat) : List Slot :=
  match s.slideOf ctx index with
  | none => []
  | some x => x :: ((s.ebb.slots.filter fun e => e.2.steering && e.2.ctx == ctx && e.2.index == index).map Prod.snd).erase x

/-- R65 by one steering entry, for a range offset that the slide places (R75), at an address that is its OLD or NEW; none
otherwise. -/
def State.steerBy (s : State) (off a : Nat) (x : Slot) : Option Steered :=
  if !s.steers x off || (a != x.new_ + off && a != x.old + off) then none
  else if x.passing (off / 128) then some .hold
  else if x.addr off = a then some .go
  else some (.resteer x.tide)

/-- R65, for a range offset sent to an address. A request whose image knows other places than the slides is performed where
it was sent (R75). -/
def State.judge (s : State) (ctx index off : Nat) (moving : Bool) (a : Nat) : Steered :=
  match s.slidesOf ctx index with
  | [] => if moving then .stranded else .go
  | xs => (xs.findSome? (s.steerBy off a)).getD .go

def State.steering (s : State) (m : Msg) (r : Req) : Steered := s.judge r.ctx r.index r.off r.moving (m.line * 128 + r.lo)

/-- Scopes .cluster and wider. -/
def Scope.wide : Scope → Bool
  | .none | .warp | .team => false
  | .cluster | .die | .pkg | .sys => true

/-- The request may not be performed while a store to the line is incomplete: a load performed at home, at
.cluster or wider, an LL, or another acquire there (R133, R143). -/
def State.awaitsStores (s : State) (m : Msg) : Bool :=
  let acquire := match m.body with
    | .read _ _ home _ => home
    | .atomic r op _ _ => op == .ll || (r.flight.bind s.flight?).any fun f => f.acq && Scope.wide f.scope
    | _ => false
  acquire && s.storesOpen m.line

/-- The request is the near kind that U state admits. -/
def Body.isNear : Body → Bool
  | .ureq .. => true
  | _ => false

/-- A READ that waits for the host to give a half back is answered without allocation (R123). -/
def Msg.unkept (m : Msg) : Msg :=
  match m.body with
  | .read r _ home hs => { m with body := .read r false home hs }
  | _ => m

/-- The halves that a request needs: a grant of update-only state spans both, since an L1 may hold a line only while the host
owns neither (R123). -/
def State.needs (s : State) (m : Msg) : List Bool :=
  if m.body.isNear && (s.dir m.line).mode != 1 then [false, true] else m.body.halves

/-- A home takes a request whose line carries no transaction (R98, R115, R118, R122, R125): it performs it, or starts what
must come first. -/
def State.homeGo (s : State) (m : Msg) (r : Req) : State :=
  match s.readyFor m.line r (s.needs m) m.body.writes true m.body.isNear with
  | (s, false) => s.forward (if s.host.backInv.any fun b => b.1 == m.line then m.unkept else m)
  | (s, true) =>
    if s.awaitsStores m then s.forward m
    else match m.body with
      | .discard .. =>
        match s.flushedLine m.line with
        | (s, true) => s.perform m
        | (s, false) => s.forward m
      | _ => s.perform m

/-- The home sends a request on to where its block lies: RESTEER goes to the issuer; a wake word's reduction, which no
access of a stream stands behind, is reissued to the place itself. -/
def State.resteer (s : State) (m : Msg) (r : Req) (t : Nat) : State :=
  match m.body, r.flight, s.slideOf r.ctx r.index with
  | .reduce _ op ty [(_, b)], none, some x =>
    let a := x.addr r.off
    s.send m.src (s.homeNode (lineOf a)) (lineOf a) (.reduce { r with lo := a % 128, moving := true } op ty [(a % 128, b)])
  | _, _, _ => s.send (s.homeNode m.line) m.src m.line (.resteer r t)

/-- STRANDED goes to the issuer; a wake word's reduction is a lost signal (R336). -/
def State.stranded (s : State) (m : Msg) (r : Req) : State :=
  match m.body, r.flight with
  | .reduce .., none => s.logEvent 0x0A r.fn r.ctx 3397 (BitVec.ofNat 64 (m.line * 128 + r.lo)) 0
  | _, _ => s.send (s.homeNode m.line) m.src m.line (.stranded r)

/-- A home takes a request (R65, R115): it answers it, lets it wait, or starts what must come first. A discard of a whole
line takes effect when it reaches the home, whatever transaction is open (R95). An agent's place in the queue stays there
until the agent's own step. -/
def State.homeTake (s : State) (m : Msg) : State :=
  match m.body with
  | .claim _ => if s.stale m then s else { s with net := { s.net with forwards := s.net.forwards ++ [m] } }
  | body => match body.req? with
    | none => s
    | some r =>
      match s.steering m r with
      | .stranded => s.stranded m r
      | .resteer t => s.resteer m r t
      | .hold => s.forward m
      | .go =>
        if m.wholeDiscard then
          if s.isHost (m.line * 128) || s.mcRoom r.fn m.line then s.discardLine r m.line (some (m.src, r)) else s.forward m
        else if (s.l2? m.line).any (·.blocked) then s.forward m
        else s.homeGo m r

/-- A request arrives: behind others that wait for its line it waits too (R115), and behind one of its own sender
that RETRY sent back it is sent back too, so that the sender's order to the line is kept (R104, R134). -/
def State.arrive (s : State) (m : Msg) : State :=
  if s.net.retries.any fun x => x.line == m.line && x.src == m.src then s.bounce m
  else if !m.wholeDiscard && !(s.waitingOn m.line).isEmpty then s.forward m
  else s.homeTake m

/-- Those of a list of messages that keep their places, then the new ones. -/
def keepPlaces (old new : List Msg) : List Msg :=
  (old.filterMap fun x => new.find? fun y => y.id == x.id) ++ new.filter fun y => !old.any fun x => x.id == y.id

/-- Takes queued forwards of one line in order, until one has to wait again. -/
def State.drainList (s : State) (line : Nat) (ms : List Msg) : State :=
  match ms with
  | [] => s
  | m :: ms =>
    if (s.l2? line).any (·.blocked) then s
    else
      let old := s.net.forwards
      let s := ({ s with net := { s.net with forwards := old.filter fun (x : Msg) => x.id != m.id } } : State).homeTake m
      if s.net.forwards.any fun x => x.id == m.id then
        { s with net := { s.net with forwards := keepPlaces old s.net.forwards } }
      else s.drainList line ms

/-- The line is free: the home takes the queued forwards of the line, oldest first, until one blocks it again
(R115). -/
def State.drain (s : State) (line : Nat) : State := s.drainList line (s.queueOn line)

/-- Requests that wait for room in a set or a bank queue are tried again, line by line. -/
def State.drainHome (s : State) (home : Nat) : State :=
  (((s.net.forwards.filter fun (m : Msg) => s.homeOf (m.line * 128) == home).map Msg.line).eraseDups).foldl
    (fun (s : State) (line : Nat) => if (s.l2? line).any (·.blocked) then s else s.drain line) s

/-- Claims whose agents have gone leave the queues. -/
def State.sweepClaims (s : State) : State :=
  let old (x : Nat × Nat × BitVec 32) : Bool := !s.claimLive (Req.ofAgent x.1 x.2.1 x.2.2 0 0 0)
  if s.net.forwards.any s.stale || s.net.retries.any s.stale || s.net.stamps.any old then
    { s with net := { s.net with
        forwards := s.net.forwards.filter fun m => !s.stale m
        retries := s.net.retries.filter fun m => !s.stale m
        stamps := s.net.stamps.filter fun x => !old x } }
  else s

/-- Requests whose line is free of transactions and of older requests go on: a flush, an agent's access or the end of
a passage has let them. -/
def State.drainFree (s : State) : State :=
  let s := s.sweepClaims
  ((s.net.forwards.map Msg.line).eraseDups).foldl
    (fun (s : State) (line : Nat) => if (s.l2? line).any (·.blocked) then s else s.drain line) s

/-- A line is free of transactions, which may also make room in its set. -/
def State.unblock (s : State) (line : Nat) : State :=
  ((s.block line false).drain line).drainHome (s.homeOf (line * 128))

/-- A blocking transaction of a line ends: a settle goes on with its next phase, and otherwise the line is free. -/
def State.closeLoop (s : State) (line fuel : Nat) : State :=
  match fuel with
  | 0 => s
  | fuel + 1 => match s.settle? line with
    | none => if s.open_ line then s else s.unblock line
    | some x => match s.settleOn x with
      | (s, true) => s.closeLoop line fuel
      | (s, false) => s

def State.close (s : State) (line : Nat) : State := s.closeLoop line (s.net.settles.length + 1)

/-- Settles that wait for room in a bank queue go on. -/
def State.closeHome (s : State) (home : Nat) : State :=
  (((s.net.settles.filter fun x => s.homeOf (x.line * 128) == home).map Settle.line).eraseDups).foldl State.close s

/-- A begun reduction has one acknowledgement count less to wait for. -/
def State.partAcked (s : State) (a : Ack) : State :=
  match s.net.parts.find? fun p => p.acks.contains a.id with
  | none => s
  | some p => s.putPart { p with acks := p.acks.erase a.id, drop := p.drop || a.round }

/-- An acknowledgement arrives (R105, R110, R118). When the count is met: STACK goes out; a round leaves no copy;
a gather leaves the line in MODE 0b00. -/
def State.acked (s : State) (id : Nat) : State :=
  match s.net.acks.find? (·.id == id) with
  | none => s
  | some a =>
    if 1 < a.left then
      { s with net := { s.net with acks := s.net.acks.map fun x => if x.id = id then { x with left := x.left - 1 } else x } }
    else
      let s := { s with net := { s.net with acks := s.net.acks.filter (·.id != id) } }
      let s := (s.partAcked a).completions
      let s := match a.reply with
        | some (n, r) => s.sendStack n r a.line a.round
        | none => s
      let s := if a.round then s.modDir a.line fun d => { d with dies := 0, mode := 0 }
        else if a.gather || a.settle then s.modDir a.line fun d => { d with mode := 0, ptrs := [], dies := 0 } else s
      if a.round || a.gather || a.settle || (s.settle? a.line).isSome then s.close a.line else s.drain a.line

end Sys2Proof.Machine
end

