-- ==== Sys2Proof/Machine/Retire.lean ====
section
/-! DEFINITION. The retirement of teams (R8, R137, R216, R221, R352): what a team gives back once its warps have
retired and everything it issued has ended. -/

namespace Sys2Proof.Machine

/-- The cores that a team takes. -/
def Team.cores (tm : Team) : List Nat := if tm.twin then [tm.core, tm.core + 1] else [tm.core]

/-- A team stands on the core, or takes it as the odd core of its twin. -/
def State.occupied (s : State) (core : Nat) : Bool :=
  s.teams.any fun e => e.2.resident && e.2.cores.contains core

/-- A core whose last team has gone is held for the CORES node that stands first in the pool of its context (R224). -/
def State.reserveFreed (s : State) (ctx core : Nat) : State :=
  if !s.occupied core && s.coresFirst ctx then s.modCore core fun c => { c with reservedFor := some ctx } else s

/-- Error marks that nothing of a team has observed (R346). -/
def Team.unobserved (tm : Team) : List Fault40 :=
  tm.rvs.flatMap (fun (r : Nat × Rv) => r.2.marks.map Prod.snd) ++
  tm.warps.flatMap fun (w : Nat × Warp) => (w.2.a.marks ++ w.2.c.marks).map Prod.snd

/-- They are logged. -/
def State.logUnobserved (s : State) (tm : Team) : State :=
  tm.unobserved.foldl (fun (s : State) (e : Fault40) =>
    s.logEvent 0x06 (s.ctxFn tm.ctx) tm.ctx (324 + tm.core) e.addr e.pc) s

/-- What walks have found for words of a team, and what its words and fetches wait for, goes with it. -/
def Walker.ofTeam (t : Nat) : Walker → Bool
  | .cmd _ => false
  | .word r | .fetch r => r.team == t

def Core.forgetTeam (c : Core) (t : Nat) : Core :=
  { c with
    answers := c.answers.filter fun x => !x.who.ofTeam t
    walks := c.walks.map fun w => { w with waiters := w.waiters.filter fun x => !x.ofTeam t } }

/-- A team leaves its core: its FIFOs are emptied, its node counts it, and a FUSE cluster may leave fused mode. The root
program's team counts as one that has retired only when its trap is resolved by DISCARD (R216, R390). -/
def State.removeTeam (s : State) (t : Nat) (tm : Team) (discard : Bool) : State :=
  let nodes := s.sched.nodes.map fun (n : PNode) =>
    if n.isOf tm && (!n.root || discard) then { n with retired := n.retired + 1 } else n
  let s := { s.logUnobserved tm with teams := tdel s.teams t, sched := { s.sched with nodes := nodes } }
  let s := s.modCore tm.core fun c => (c.freeFifos t).forgetTeam t
  let s := if tm.twin then s.modCore (tm.core + 1) (·.freeFifos t) else s
  let s := if tm.fuse then s.unfuse (tm.core / 4) else s
  if tm.resident then tm.cores.foldl (fun (s : State) c => s.reserveFreed tm.ctx c) s else s

/-- A team retires once its gather-buffer entries are flushed. The end of a root program fails its context, which is
signalled (R216). -/
def State.reap (s : State) (t : Nat) : State :=
  match s.team? t with
  | none => s
  | some tm =>
    if s.finished t tm then
      let s := s.flushTeam t
      if s.gathering t then s
      else
        let s := s.removeTeam t tm false
        if tm.root then (s.setCtxState tm.ctx 5).signalCtx tm.ctx else s
    else s

/-- Every team that can retire does. -/
def State.reapAll (s : State) : State := (s.teams.map Prod.fst).foldl State.reap s

end Sys2Proof.Machine
end

