-- ==== Sys2Proof/Machine/Operands.lean ====
section
/-! DEFINITION. Operands (R192, R202, R240 to R243, R250 to R252): reading registers, constants and queue entries;
pops and pushes; and the delivery of results. -/

namespace Sys2Proof.Machine

/-! Registers -/

/-- The constant registers of R242, as 32-bit and 64-bit operands. -/
def constReg (n : Nat) (lane w : Nat) : Word :=
  if w = 32 then
    match n with
    | 0 => 0 | 1 => 1 | 2 => 0xFFFFFFFF | 3 => 0x3F800000 | 4 => 0x3F000000 | 5 => 0x40000000
    | 6 => BitVec.ofNat 64 lane | _ => 0x80000000
  else
    match n with
    | 0 => 0 | 1 => 1 | 2 => 0xFFFFFFFFFFFFFFFF | 3 => 0x3FF0000000000000 | 4 => 0x3FE0000000000000
    | 5 => 0x4000000000000000 | 6 => BitVec.ofNat 64 lane | _ => 0x8000000000000000

/-- The low 32 bits of a word. -/
def low32 (v : Word) : Word := v &&& 0xFFFFFFFF#64

/-- A pair of 32-bit registers (R243). -/
def pairOf (lo hi : Word) : Word := low32 lo ||| (hi <<< 32)

/-- Register r of a lane. -/
def SliceState.vec (x : SliceState) (r lane : Nat) : Word := tget x.regs (32 * r + lane) 0

def SliceState.scalar (x : SliceState) (r : Nat) : Word := tget x.scal r 0

/-- A predicate of a lane; p7 reads true (R271). -/
def SliceState.pred (x : SliceState) (p lane : Nat) : Bool := p == 7 || (tget x.preds p 0).getLsbD lane

/-- A register operand of width w in a lane. A queue or `sa` operand is not read here. -/
def SliceState.read (x : SliceState) (sl : Slice) (lane w : Nat) : Opd → Word
  | .r n =>
    match sl with
    | .a => if w = 32 then low32 (x.vec n.toNat lane) else x.vec n.toNat lane
    | .c => if w = 32 then low32 (x.vec n.toNat lane) else pairOf (x.vec n.toNat lane) (x.vec (n.toNat + 1) lane)
  | .s n =>
    match sl with
    | .a => if w = 32 then low32 (x.scalar n.toNat) else x.scalar n.toNat
    | .c => if w = 32 then low32 (x.scalar n.toNat) else pairOf (x.scalar n.toNat) (x.scalar (n.toNat + 1))
  | .k n => constReg n.toNat lane w
  | .f _ | .sa => 0

/-! Queues -/

/-- Queues by number: 0 to 3 f0-f3, 4 `sa`. -/
def Warp.queue (w : Warp) : Nat → List QEntry
  | 0 => w.f0 | 1 => w.f1 | 2 => w.f2 | 3 => w.f3 | _ => w.sa

def Warp.setQueue (w : Warp) (q : Nat) (l : List QEntry) : Warp :=
  match q with
  | 0 => { w with f0 := l } | 1 => { w with f1 := l } | 2 => { w with f2 := l } | 3 => { w with f3 := l }
  | _ => { w with sa := l }

/-- Capacities of R78. -/
def queueCap (q : Nat) : Nat := if q < 4 then Config.fCap else Config.saCap

/-- The queue that an operand names. -/
def Opd.queue? : Opd → Option Nat
  | .f n => some n.toNat
  | .sa => some 4
  | .r _ | .s _ | .k _ => none

/-- A push need not wait for room (R194, R196). -/
def Warp.canPush (w : Warp) (q : Nat) : Bool := w.c.ended || decide ((w.queue q).length < queueCap q)

/-- The oldest entry whose tag holds the mask (R192). -/
def findEntry (q : List QEntry) (m : Mask) : Option QEntry := q.find? fun e => within_ m e.tag

/-- Removes lanes from the tag of one entry, and the entry once no lane is left. -/
def takeEntry (q : List QEntry) (id : Nat) (m : Mask) : List QEntry :=
  (q.map fun e => if e.id = id then { e with tag := e.tag &&& ~~~m } else e).filter fun e => e.tag != 0

/-- The outcome of the pops of one word (R192, R202). -/
inductive Popped where
  | wait (q : Nat)
  | fault (f : Fault40)
  /-- the warp with the entries taken, the entries in order, and the lanes that die -/
  | ok (w : Warp) (es : List QEntry) (died : Mask)
  deriving DecidableEq, Repr

/-- The record of a poisoned entry. -/
def QEntry.fault (e : QEntry) : Fault40 := e.record.getD ⟨0, 0, 0, 0, 0⟩

/-- Pops queues in order with one mask, all together (R243). -/
def Warp.pops (w : Warp) (m : Mask) : List Nat → Popped
  | [] => .ok w [] 0
  | q :: qs =>
    match findEntry (w.queue q) m with
    | none => .wait q
    | some e =>
      if e.flying &&& m != 0 then .wait q
      else
        match (w.setQueue q (takeEntry (w.queue q) e.id m)).pops m qs with
        | .wait q => .wait q
        | .fault f => if e.poisonFault &&& m != 0 then .fault e.fault else .fault f
        | .ok w' es died =>
          if e.poisonFault &&& m != 0 then .fault e.fault else .ok w' (e :: es) (died ||| (e.poisonData &&& m))

/-- A pop of a FAULT entry is a team trap at the popping word; its record holds the entry's (R202, R387). -/
def Trap.ofPop (i : Issue) (f : Fault40) : Trap :=
  { code := f.code, sub := f.sub, addr := f.addr, lanes := f.lanes, warp := i.ref.warp, slice := i.ref.slice,
    engine := false, pop := true, pc := i.sp.pc, apc := f.pc, detail := 0, split := i.ref.split, access := none }

/-- How a word reads source k in a lane at a width. -/
abbrev Rd := Nat → Nat → Nat → Word

/-- The reader of a word's sources, given the entries popped for the queue fields in order. -/
def reader (i : Issue) (srcs : List Opd) (es : List QEntry) : Rd := fun k lane w =>
  match srcs[k]? with
  | none => 0
  | some o =>
    match Opd.queue? o with
    | none => i.sl.read i.ref.slice lane w o
    | some _ =>
      match es[((srcs.take k).filter fun (x : Opd) => (Opd.queue? x).isSome).length]? with
      | some e => let v := tget e.vals lane 0; if w = 32 then low32 v else v
      | none => 0

/-- Reads the sources of a word for the lanes m, popping what they name. The continuation gets the state before the
pops, for a precise trap, the state after them, and the lanes that go on. -/
def State.withSources (s : State) (i : Issue) (m : Mask) (srcs : List Opd) (k : State → State → Mask → Rd → State) :
    State :=
  let qs := srcs.filterMap Opd.queue?
  if qs.isEmpty || m = 0 then k s s m (reader i srcs [])
  else
    match i.wp.pops m qs with
    | .wait q => s.waitAt i (.pop q m)
    | .fault f => s.raiseAt i (Trap.ofPop i f)
    | .ok w es died =>
      let s' := s.modWarp i.ref.team i.ref.warp fun _ => w
      if died = 0 then k s s' m (reader i srcs es)
      else (k s (s'.kill i.ref.team i.ref.warp died) (m &&& ~~~died) (reader i srcs es)).reapAll

/-! Delivery -/

/-- Writes of one lane's value to a register. -/
def vecWrites (sl : Slice) (r lane w : Nat) (v : Word) : List Write :=
  match sl with
  | .a => [.vec r lane v]
  | .c => if w = 32 then [.vec r lane (low32 v)] else [.vec r lane (low32 v), .vec (r + 1) lane (v >>> 32)]

def scalWrites (sl : Slice) (r lane w : Nat) (v : Word) : List Write :=
  match sl with
  | .a => [.scal r lane v]
  | .c => if w = 32 then [.scal r lane (low32 v)] else [.scal r lane (low32 v), .scal (r + 1) lane (v >>> 32)]

/-- The register writes of a word's values; a scalar takes the lowest lane's (R243). -/
def destWrites (sl : Slice) (d : Opd) (w : Nat) (vals : List (Nat × Word)) : List Write :=
  match d with
  | .r n => vals.flatMap fun (v : Nat × Word) => vecWrites sl n.toNat v.1 w v.2
  | .s n => (vals.take 1).flatMap fun (v : Nat × Word) => scalWrites sl n.toNat v.1 w v.2
  | .k _ | .f _ | .sa => []

/-- A new queue entry (R191). -/
def QEntry.fresh (id : Nat) (tag : Mask) (stamp : Nat) (vals : Table Word) (flying : Mask) (after : List Nat) : QEntry :=
  ⟨id, tag, stamp, vals, flying, 0, 0, none, after, []⟩

/-- Every piece has been performed: a load is bound, a store complete. -/
def Flight.bound (f : Flight) : Bool := !f.walking && f.pieces.all fun p => p.st == .done

/-- The access takes part in ordering: a prefetch does not (R315). -/
def Flight.orders (f : Flight) : Bool :=
  match f.op with
  | some (.prefetch _) | none => false
  | some _ => true

/-- Accesses of the A-slice's lanes that are not complete: a push of an address to `sa` comes after them (R140). -/
def State.beforePush (s : State) (t w : Nat) (m : Mask) : List Nat :=
  (s.flights.filter fun f => f.orders && (!f.bound || f.faulted) && f.ofStream ⟨t, w, .a, 0⟩ m).map Flight.id

/-- Pushes an entry, which an ended C-slice discards (R194). -/
def State.push (s : State) (t w q : Nat) (m : Mask) (vals : Table Word) (flying : Mask) : State :=
  let after := if q = 4 then s.beforePush t w m else []
  (s.modWarp t w fun wp =>
    if wp.c.ended then wp else wp.setQueue q (wp.queue q ++ [QEntry.fresh s.fresh m wp.pushed vals flying after])).bump

/-- Delivers values to a destination: register writes become outstanding, a queue takes an entry (R250, R252). -/
def State.deliver (s : State) (i : Issue) (m : Mask) (d : Opd) (w : Nat) (vals : List (Nat × Word)) : State :=
  match Opd.queue? d with
  | some q => if m = 0 then s else s.push i.ref.team i.ref.warp q m vals 0
  | none => s.results i (destWrites i.ref.slice d w vals)

/-- The values of the lanes of a mask. -/
def laneVals (m : Mask) (f : Nat → Word) : List (Nat × Word) := (lanesOf m).map fun l => (l, f l)

/-- Predicate writes. -/
def predWrites (p : BitVec 3) (m : Mask) (f : Nat → Bool) : List Write := (lanesOf m).map fun l => .pred p.toNat l (f l)

/-- The word must wait for room in the queue that its destination names. -/
def Issue.pushWait (i : Issue) (d : Opd) : Option Nat :=
  match Opd.queue? d with
  | some q => if i.wp.canPush q then none else some q
  | none => none

/-- A word that computes a value in each active lane from its sources (R250 to R252). -/
def State.lanewise (s : State) (i : Issue) (h : Head) (srcs : List Opd) (d : Opd) (w : Nat)
    (f : Mask → Rd → Nat → Word) : State :=
  let m := i.active h.guard
  if m = 0 then s.advance i h.mark
  else
    match i.pushWait d with
    | some q => s.waitAt i (.push q false)
    | none => s.withSources i m srcs fun _ s m rd => (s.deliver i m d w (laneVals m (f m rd))).advance i h.mark

/-- A word that computes a predicate in each active lane. -/
def State.lanewisePred (s : State) (i : Issue) (h : Head) (srcs : List Opd) (p : BitVec 3)
    (f : Mask → Rd → Nat → Bool) : State :=
  let m := i.active h.guard
  if m = 0 then s.advance i h.mark
  else s.withSources i m srcs fun _ s m rd => (s.results i (predWrites p m (f m rd))).advance i h.mark

/-- Operand width of an integer type (R251). -/
def Ty.w : Ty → Nat
  | .z64 | .i64 | .f64 => 64
  | _ => 32

/-- A result of an integer type as a register holds it: on the A-slice a 32-bit result is extended (R251). -/
def extendTo (sl : Slice) (t : Ty) (v : Nat) : Word :=
  match sl with
  | .c => BitVec.ofNat 64 v
  | .a => if Ty.w t = 64 then BitVec.ofNat 64 v
          else if Ty.signed t then (BitVec.ofNat 32 v).signExtend 64 else (BitVec.ofNat 32 v).setWidth 64

end Sys2Proof.Machine
end

