-- ==== Sys2Proof/Machine/Flags.lean ====
section
/-! DEFINITION. The format register, the flag word, the generators and FP_TRAP (R287 to R293): what every word of 12
that may raise an exception has in common. -/

namespace Sys2Proof.Machine

/-! The format register (R291) -/

def fmtRM (f : BitVec 32) : Nat := (f.extractLsb' 15 3).toNat
def fmtSat (f : BitVec 32) : Bool := f.getLsbD 14
def fmtA (f : BitVec 32) : Nat := (f.extractLsb' 24 4).toNat
def fmtB (f : BitVec 32) : Nat := (f.extractLsb' 20 4).toNat
def fmtBlock (f : BitVec 32) : Bool := f.extractLsb' 18 2 == 1
/-- The trap enables, bit by bit as the flag word. -/
def fmtTraps (f : BitVec 32) : Fl := f.extractLsb' 8 5
/-- The reset value. -/
def fmtReset : BitVec 32 := 0x01100000

/-- The rounding of an arithmetic word (R297): `.dyn` takes RM, and STOCH reads as RNE. -/
def arithMode (fmt : BitVec 32) (rm : BitVec 3) : Mode :=
  if rm = 4 then (if fmtRM fmt = 4 then 0 else fmtRM fmt) else rm.toNat

/-- The rounding of a conversion (R302): `.dyn` takes RM, STOCH included. -/
def convMode (fmt : BitVec 32) (rm : BitVec 3) : Mode := if rm = 4 then fmtRM fmt else rm.toNat

/-! Generators (R289) -/

/-- One advance of a generator. -/
def genStep (g : BitVec 32) : BitVec 32 :=
  let g := g ^^^ (g <<< 13)
  let g := g ^^^ (g >>> 17)
  g ^^^ (g <<< 5)

/-- The state at warp start. -/
def genStart (lane : Nat) : BitVec 32 := BitVec.ofNat 32 ((lane + 1) * 0x9E3779B9)

def SliceState.gen (x : SliceState) (lane : Nat) : BitVec 32 := tget x.gens lane (genStart lane)

/-- The generator of a lane after n draws. -/
def genAfter (g : BitVec 32) (n : Nat) : BitVec 32 :=
  match n with
  | 0 => g
  | n + 1 => genAfter (genStep g) n

/-- The k-th of the lane's next draws, from 0. -/
def SliceState.draw (x : SliceState) (lane k : Nat) : Nat := bits ((genAfter (x.gen lane) (k + 1)).setWidth 64) 16 16

/-- n draws are taken in each lane of a mask. -/
def SliceState.drew (x : SliceState) (m : Mask) (n : Nat) : SliceState :=
  if n = 0 then x
  else { x with gens := (lanesOf m).foldl (fun (t : Table (BitVec 32)) l => tset t l (genAfter (x.gen l) n)) x.gens }

/-! FP_TRAP (R293) -/

/-- The lanes that raised an exception. -/
def raisedIn (rs : List (Nat × Word × Fl)) (bit : Nat) : Mask :=
  rs.foldl (fun (m : Mask) (r : Nat × Word × Fl) => if r.2.2.getLsbD bit then m ||| laneBit r.1 else m) 0

/-- The first enabled exception that was raised, in the order NV, DZ, OF, UF, NX: its subcode and lanes. -/
def fpTrap (fmt : BitVec 32) (rs : List (Nat × Word × Fl)) : Option (Nat × Mask) :=
  [4, 3, 2, 1, 0].findSome? fun bit =>
    if (fmtTraps fmt).getLsbD bit && raisedIn rs bit != 0 then some (0x44 - bit, raisedIn rs bit) else none

/-- Flag writes of the lanes that raised something. -/
def flagWrites (rs : List (Nat × Word × Fl)) : List Write :=
  (rs.filter fun (r : Nat × Word × Fl) => r.2.2 != 0).map fun r => .flag r.1 r.2.2

/-- A word whose active lanes each compute a value and its exceptions (R250, R293, R297). `draws` is the number of
elements that a lane produces under STOCH. A trapping word writes, pops and draws nothing, but its flags stay. -/
def State.fpWord (s : State) (i : Issue) (h : Head) (srcs : List Opd) (draws : Nat)
    (mk : List (Nat × Word) → List Write) (f : Mask → Rd → Nat → Word × Fl) : State :=
  let m := i.active h.guard
  if m = 0 then s.advance i h.mark
  else s.withSources i m srcs fun s0 s m rd =>
    let rs : List (Nat × Word × Fl) := (lanesOf m).map fun l => (l, f m rd l)
    match fpTrap i.sp.fmt rs with
    | some (sub, lanes) =>
      (s0.modSlice i.ref.team i.ref.warp i.ref.slice fun x => (flagWrites rs).foldl SliceState.put x).raiseAt i
        { Trap.ofWord i 8 sub (lanes.setWidth 64) with lanes := lanes }
    | none =>
      ((s.modSlice i.ref.team i.ref.warp i.ref.slice (·.drew m draws)).results i
        (mk (rs.map fun r => (r.1, r.2.1)) ++ flagWrites rs)).advance i h.mark

/-- Register writes of width w. -/
def regResult (i : Issue) (d : Opd) (w : Nat) : List (Nat × Word) → List Write := destWrites i.ref.slice d w

/-- Predicate writes: true where the value is not 0. -/
def predResult (p : BitVec 3) (vs : List (Nat × Word)) : List Write := vs.map fun v => .pred p.toNat v.1 (v.2 != 0)

/-- A result and its flags as a word. -/
def fpOut (r : Nat × Fl) : Word × Fl := (BitVec.ofNat 64 r.1, r.2)

/-- The code of an operand of a floating type: the low bits of its register (R297). -/
def fpCode (t : Ty) (v : Word) : Nat :=
  match t with
  | .f16 | .bf16 => v.toNat % 65536
  | _ => v.toNat

end Sys2Proof.Machine
end

