-- ==== Sys2Proof/Machine/Translate.lean ====
section
/-! DEFINITION. The translation of the accesses of a word (R16 to R25, R34 to R43, R174, R201, R383): each lane into
pieces or a fault; the waits for range walks; and what a fault does once the translation has ended. -/

namespace Sys2Proof.Machine

/-! What an access asks for -/

/-- The permission of R37. -/
def AccOp.need : AccOp → Need
  | .load | .prefetch _ => .rd
  | .store => .wr
  | .atom _ | .cas | .ll | .sc => .rw
  | .red .. => .wr
  | .zline | .discard => .wrAny
  | .accLd => .accRd

/-- Bytes of a lane's access: whole lines for `zline` and `acc.ld`; a prefetch names one byte. -/
def AccOp.len (op : AccOp) (t : Ty) : Nat :=
  match op with
  | .prefetch _ => 1
  | .zline | .accLd => 128
  | .load | .store | .atom _ | .cas | .red .. | .ll | .sc | .discard => Ty.bytes t

/-- The access is an atomic, a reduction, an LL or an SC, whose alignment R22 and R39 check. -/
def AccOp.aligned : AccOp → Bool
  | .atom _ | .cas | .red .. | .ll | .sc => true
  | .load | .store | .prefetch _ | .zline | .discard | .accLd => false

/-- The access changes memory: a store, an atomic, a reduction, SC, `zline` or `discard`. -/
def AccOp.stores : AccOp → Bool
  | .store | .atom _ | .cas | .red .. | .sc | .zline | .discard => true
  | .load | .prefetch _ | .ll | .accLd => false

/-- The access returns something to its lanes. -/
def AccOp.loads : AccOp → Bool
  | .load | .atom _ | .cas | .ll | .sc | .accLd => true
  | .store | .red .. | .zline | .discard | .prefetch _ => false

/-! One lane -/

/-- The outcome of a completed walk of a region (R44): context, region, and the fault of what waited for it, if the walk
installed nothing. -/
abbrev Walked := Nat × Nat × Option XFault

/-- The region of R43. -/
def regionOf (v : Word) : Nat := bits v 12 44

/-- What a completed walk says to an access that waited for it: none when the access is replayed and may walk again. -/
def walkedFault (w : Option Walked) (ctx : Nat) (v : Word) : Option XFault :=
  match w with
  | none => none
  | some (c, r, f) => if c != ctx || r != regionOf v then none else f

/-- The result of translating a lane's access. -/
inductive LaneX where
  | ok (ps : List Piece)
  | miss (v : Word)
  | fault (f : XFault) (v : Word)
  deriving DecidableEq, Repr

/-- Bytes from range offset o that stay in one physical line and, while the range moves, in one block and in one
line at either location (R38, R68). -/
def Xlat.run (x : Xlat) (o : Nat) : Nat :=
  if x.moving then min (128 - (x.pa + o) % 128) (min (128 - (x.oldpa + o) % 128) (128 - o % 128))
  else 128 - (x.pa + o) % 128

/-- The piece of a translated access at a position. -/
def Xlat.piece (x : Xlat) (lane : Nat) (v : Word) (pos n : Nat) (data : List Byte) : Piece :=
  let a := x.addr (v - x.base).toNat
  ⟨lane, v, pos, n, none, lineOf a, a % 128, some x, .wait, (data.drop pos).take n, false⟩

/-- Translates the bytes of a lane's global access from position pos on. `width` is the width that R39 checks. Permission
is checked before it: the spec gives PERM and ALIGN_FAULT no order (log entry 96). -/
def State.xlatFrom (s : State) (core ctx : Nat) (need : Need) (width : Option Nat) (walked : Option Walked)
    (lane : Nat) (v : Word) (data : List Byte) (pos len fuel : Nat) : LaneX :=
  match fuel with
  | 0 => .ok []
  | fuel + 1 =>
    if len = 0 then .ok []
    else
      let a := v + BitVec.ofNat 64 pos
      if bits a 56 8 != 0 then .fault windowFault a
      else match s.look core ctx a need with
        | .fault f => .fault f a
        | .miss =>
          match walkedFault walked ctx a with
          | some f => .fault f a
          | none => .miss a
        | .hit x =>
          if (match width with | some w => decide (x.align < w) || a.toNat % w != 0 | none => false) then
            .fault alignFault a
          else
            let o := (a - x.base).toNat
            let n := min len (min (x.run o) (x.blocks * 128 - o))
            match s.xlatFrom core ctx need width walked lane v data (pos + n) (len - n) fuel with
            | .ok ps => .ok (x.piece lane a pos n data :: ps)
            | e => e

/-- A lane's accumulator line of `acc.ld` (R174): the line of its address through window 0xB. -/
def accLane (v : Word) : Except XFault Word :=
  if bits v 60 4 != 0xB then .error accFault
  else if bits v 56 4 != 0 then .error windowFault
  else .ok (v &&& 0x00FFFFFFFFFFFF80#64)

/-- The offset of a lane of `acc.ld` names a value or the metadata; it is judged once the line has been translated
(R174). -/
def accOffset (v : Word) : Bool := bits v 0 7 = 96 || (bits v 0 7 < 96 && bits v 0 7 % 6 = 0)

/-- Translates a lane's access. The alignment of `zline` is checked before its window and its translation: the spec gives
them no order (log entry 96). -/
def State.xlatLane (s : State) (f : Flight) (tm : Team) (op : AccOp) (walked : Option Walked) (lane : Nat)
    (v : Word) (data : List Byte) : LaneX :=
  let len := AccOp.len op f.ty
  let width := if op.aligned then some (Ty.bytes f.ty) else none
  let go (g : Word) : LaneX := s.xlatFrom tm.core tm.ctx op.need width walked lane g data 0 len 300
  match op with
  | .accLd =>
    match accLane v with
    | .error e => .fault e v
    | .ok g => match go g with
      | .ok ps => if accOffset v then .ok ps else .fault alignFault v
      | e => e
  | _ =>
    if op = .zline && bits v 0 7 != 0 then .fault alignFault v
    else match s.place f.stream.team tm f.stream.warp lane v len with
      | .fault e => .fault e v
      | .global g => go g
      | .tide t off =>
        if (match width with | some w => off % w != 0 | none => false) then .fault alignFault v
        else .ok [⟨lane, BitVec.ofNat 64 off, 0, len, some t, off / 128, off % 128, none, .wait, data, false⟩]

/-! Walks -/

/-- Notes a use of a range-buffer entry. -/
def Core.useRange (c : Core) (ctx index : Nat) : Core :=
  { c with
    tick := c.tick + 1
    ranges := c.ranges.map fun (r : RBuf) => if r.ctx = ctx && r.index = index then { r with used := c.tick + 1 } else r }

/-- Installs a descriptor in a range buffer of 128 entries, least recently used first out (R41). -/
def Core.install (c : Core) (r : RBuf) : Core :=
  let l := c.ranges.filter fun (x : RBuf) => !(x.ctx == r.ctx && x.index == r.index)
  let l := if l.length < 128 then l else
    match l.foldl (fun (b : Option RBuf) x => match b with
      | none => some x
      | some y => if x.used < y.used then some x else some y) none with
    | some y => l.erase y
    | none => l
  { c with tick := c.tick + 1, ranges := l ++ [{ r with used := c.tick + 1 }] }

/-- The pending-walk entry takes what waits for it besides accesses of streams. -/
def PendWalk.join (w : PendWalk) (who : Option Walker) : PendWalk :=
  { w with waiters := w.waiters ++ who.toList.filter fun x => !w.waiters.contains x }

/-- A miss waits on the pending-walk entry of its region, and takes a free entry when there is none (R43). -/
def State.joinWalk (s : State) (core ctx : Nat) (v : Word) (who : Option Walker) : State :=
  let c := s.core core
  let mine (w : PendWalk) : Bool := w.ctx == ctx && w.region == regionOf v
  if c.walks.any mine then
    if who.isNone then s
    else s.modCore core fun c => { c with walks := c.walks.map fun w => if mine w then w.join who else w }
  else if c.walks.length < 16 then
    s.modCore core fun c => { c with walks := c.walks ++ [⟨ctx, v, regionOf v, false, who.toList⟩] }
  else s

/-- What walks have found for an access that waited: an image that covers its address, or its region's fault (R44). -/
def Core.answerFor (c : Core) (who : Walker) (ctx : Nat) (v : Word) : Option (Sum XFault RBuf) :=
  (c.answers.find? fun x => x.who == who && x.ctx == ctx && (match x.found with
    | .inl _ => x.region == regionOf v
    | .inr r => r.desc.covers v)).map Answer.found

/-- What waited has been translated, or is gone. -/
def Core.forget (c : Core) (who : Walker) : Core := { c with answers := c.answers.filter fun x => x.who != who }

def State.forget (s : State) (core : Nat) (who : Walker) : State :=
  if (s.core core).answers.any fun x => x.who == who then s.modCore core (·.forget who) else s

/-- The lookup of an access that is no access of a stream's flight (R36, R41, R43): an engine command's, a fetch's, or one
that a word makes before it issues. A hit is a use of the descriptor; a miss waits for a walk, and what the walk found
is met at the next attempt. -/
def State.lookFor (s : State) (core ctx : Nat) (who : Walker) (v : Word) (need : Need) : State × Look :=
  match s.look core ctx v need with
  | .hit x => (s.modCore core fun c => c.useRange x.ctx x.index, .hit x)
  | .fault f => (s.forget core who, .fault f)
  | .miss => match (s.core core).answerFor who ctx v with
    | some (.inr r) => (s, s.lookDesc ctx r.index r.desc need)
    | some (.inl f) => (s.forget core who, .fault f)
    | none => (s.joinWalk core ctx v (some who), .miss)

/-! The end of a translation -/

/-- Changes an entry of a queue. -/
def Warp.modEntry (w : Warp) (q id : Nat) (f : QEntry → QEntry) : Warp :=
  w.setQueue q ((w.queue q).map fun e => if e.id = id then f e else e)

/-- The faulting lanes, and the fault of the lowest (R40, R201). -/
def Flight.fault? (f : Flight) : Option Fault40 :=
  let m := f.faults.foldl (fun (m : Mask) x => m ||| laneBit x.1) 0
  match f.faults.foldl (fun (b : Option (Nat × Nat × Nat × Word)) x => match b with
    | none => some x
    | some y => if x.1 < y.1 then some x else some y) none with
  | some (_, c, u, a) => some ⟨c, u, a, m, f.pc⟩
  | none => none

/-- Two faults of one access: all their lanes, and what the lowest of them met (R201). -/
def Fault40.merge (x y : Fault40) : Fault40 :=
  let first := if (lowLane x.lanes).getD 32 ≤ (lowLane y.lanes).getD 32 then x else y
  { first with lanes := x.lanes ||| y.lanes }

/-- The access is a load of the A-slice into a queue, whose faults and poison its entry takes (R40, R201, R314). -/
def Flight.poisons (f : Flight) : Bool :=
  f.stream.slice == .a && (f.op == some .load || f.op == some .accLd) &&
  (match f.dst with | .queue .. => true | _ => false)

/-- The lanes of a mask of an access, none of which has been performed, to be issued again (R390). -/
def Flight.anew (f : Flight) (m : Mask) : Flight :=
  let ls := f.lanes.filter fun l => m.getLsbD l.1
  { f with
    faulted := false, walking := true, faults := [], pieces := [], past := 1, lanes := ls
    todo := ls.foldl (fun (m : Mask) l => m ||| laneBit l.1) 0 }

/-- A fault of an access: the poison of its queue entry, which keeps the faulting lanes' access for a reissue (R201, R390),
or a team trap, in which no piece is performed and the flight stays for a reissue (R40, R383, R390). -/
def State.accessFault (s : State) (f : Flight) (x : Fault40) : State :=
  match f.poisons, f.dst with
  | true, .queue q id =>
    (s.modWarp f.stream.team f.stream.warp (·.modEntry q id fun e =>
      { e with poisonFault := e.poisonFault ||| x.lanes, flying := e.flying &&& ~~~x.lanes
               record := some (match e.record with | some y => y.merge x | none => x)
               lost := e.lost ++ [f.anew x.lanes] })).modFlight
      f.id fun y => { y with
        walking := false, faults := []
        pieces := y.pieces.filter fun p => !x.lanes.getLsbD p.lane
        lanes := y.lanes.filter fun l => !x.lanes.getLsbD l.1 }
  | _, _ =>
    (s.modFlight f.id fun y => { y with
        walking := false, faulted := true, pieces := [], faults := []
        lanes := y.lanes.filter fun l => x.lanes.getLsbD l.1 }).raise f.stream.team
      { code := x.code, sub := x.sub, addr := x.addr, lanes := x.lanes, warp := f.stream.warp, slice := f.stream.slice,
        engine := false, pop := false, pc := f.pc, apc := 0, detail := 0, split := f.stream.split, access := some f.id }

/-- The translation of a flight has ended once every lane has pieces or a fault. -/
def State.endTranslation (s : State) (id : Nat) : State :=
  match s.flight? id with
  | none => s
  | some f =>
    if !f.walking || f.todo != 0 then s
    else match f.fault? with
      | none => s.modFlight id fun y => { y with walking := false }
      | some x => s.accessFault f x

/-- The pieces of a lane, by position, with those that a new translation gives; what has been performed stays as it is. -/
def mergePieces (old ps : List Piece) : List Piece :=
  (ps.filter fun p => !old.any fun q => decide (q.pos ≤ p.pos) && decide (p.pos < q.pos + q.len)).foldl
    (fun (l : List Piece) p => (l.takeWhile fun q => decide (q.pos < p.pos)) ++ [p] ++ l.dropWhile fun q => decide (q.pos < p.pos))
    old

/-- Translates one lane of a flight. -/
def State.resolveLane (s : State) (id : Nat) (tm : Team) (op : AccOp) (walked : Option Walked) (lane : Nat) : State :=
  match s.flight? id with
  | none => s
  | some f =>
    match f.lanes.find? fun l => l.1 == lane with
    | none => s.modFlight id fun y => { y with todo := y.todo &&& ~~~laneBit lane }
    | some (_, v, data, _) =>
      match s.xlatLane f tm op walked lane v data with
      | .miss a => s.joinWalk tm.core tm.ctx a none
      | .fault e a => s.modFlight id fun y =>
          { y with todo := y.todo &&& ~~~laneBit lane, faults := y.faults ++ [(lane, e.1, e.2, a)] }
      | .ok ps =>
        let s := s.modFlight id fun y => { y with
          todo := y.todo &&& ~~~laneBit lane
          pieces := y.pieces.filter (fun p => p.lane != lane) ++ mergePieces (y.pieces.filter fun p => p.lane == lane) ps }
        ps.foldl (fun (s : State) (p : Piece) => match p.xl with
          | some x => s.modCore tm.core fun c => c.useRange x.ctx x.index
          | none => s) s

/-- Translates the lanes of a flight that are not translated yet. -/
def State.resolveFlight (s : State) (id : Nat) (walked : Option Walked) : State :=
  match s.flight? id with
  | none => s
  | some f =>
    if !f.walking then s
    else match s.team? f.stream.team, f.op with
      | some tm, some op => if !tm.resident then s else
        ((lanesOf f.todo).foldl (fun (s : State) (l : Nat) => s.resolveLane id tm op walked l) s).endTranslation id
      | _, _ => s

end Sys2Proof.Machine
end

