-- ==== Sys2Proof/Machine/Access.lean ====
section
/-! DEFINITION. How translated accesses reach memory (R38, R66 to R69, R80 to R84, R92, R117, R121, R132 to R137, R324,
R326, R329, R444): L1 hits and miss entries, the order a stream keeps, requests to the homes, the tidepool, and the end
of accesses that return nothing. -/

namespace Sys2Proof.Machine

/-! L1 -/

/-- The copy of a line under a key. -/
def Core.l1Line? (c : Core) (line key : Nat) : Option L1Line := c.l1.find? fun x => x.line == line && x.key == key

def Core.delta? (c : Core) (line key : Nat) : Option DLine := c.deltas.find? fun x => x.line == line && x.key == key

/-- Notes a use of a copy. -/
def Core.useLine (c : Core) (line key : Nat) : Core :=
  { c with
    tick := c.tick + 1
    l1 := c.l1.map fun (x : L1Line) => if x.line = line && x.key = key then { x with used := c.tick + 1 } else x }

/-- Sends the deltas of a line home (R117). -/
def State.sendDwb (s : State) (core : Nat) (d : DLine) : State :=
  s.send (.core core) (s.homeNode d.line) d.line (.dwb d.op d.ty d.words)

/-- The set of a line: bits 13:7 of the address (R372). The lines of a fused L1's core have equal bits 8:7, and the spec
gives their sets no bits: the model takes 15:9 (log entry 15). -/
def Core.l1Set (c : Core) (line : Nat) : Nat := if c.fused then line / 4 % 128 else line % 128

/-- The least of a list of uses. -/
def leastUse (l : List Nat) : Option Nat :=
  l.foldl (fun (b : Option Nat) x => match b with
    | none => some x
    | some y => if x < y then some x else some y) none

/-- Makes room in an L1 set of 16 ways (R76, R372): of the copies and delta lines, the least recently used goes, a copy
with EVN (R108), a delta line with DWB (R117). -/
def State.l1Room (s : State) (core line : Nat) : State :=
  let c := s.core core
  let copies := c.l1.filter fun (x : L1Line) => c.l1Set x.line == c.l1Set line
  let ds := c.deltas.filter fun (x : DLine) => c.l1Set x.line == c.l1Set line
  if copies.length + ds.length < 16 then s
  else
    let least := leastUse (copies.map L1Line.used ++ ds.map DLine.used)
    match copies.find? (fun x => some x.used == least), ds.find? (fun d => some d.used == least) with
    | some x, _ =>
      (s.modCore core fun c => { c with l1 := c.l1.erase x }).send (.core core) (s.homeNode x.line) x.line .evn
    | none, some d => (s.modCore core fun c => { c with deltas := c.deltas.erase d }).sendDwb core d
    | none, none => s

/-- Installs a copy. -/
def State.l1Install (s : State) (core line key : Nat) (bytes : List Byte) : State :=
  (s.l1Room core line).modCore core fun c =>
    { c with
      tick := c.tick + 1
      l1 := (c.l1.filter fun (x : L1Line) => x.line != line) ++ [⟨line, key, bytes, c.tick + 1⟩] }

/-! Pieces -/

/-- Where a piece starts: in its tidepool allocation, or in physical memory. -/
def Piece.start (p : Piece) : Nat :=
  match p.tide with
  | some _ => p.va.toNat
  | none => p.line * 128 + p.lo

/-- Two pieces have bytes in common. -/
def Piece.overlaps (p q : Piece) : Bool :=
  p.tide == q.tide && decide (p.start < q.start + q.len) && decide (q.start < p.start + p.len)

def Piece.moving (p : Piece) : Bool := p.xl.any (·.moving)

/-- The block of a moving range that a piece lies in: context, index and block. -/
def Piece.block (p : Piece) : Option (Nat × Nat × Nat) :=
  match p.xl with
  | some x => if x.moving then some (x.ctx, x.index, p.off / 128) else none
  | none => none

def Piece.sc (p : Piece) : Bool := p.xl.any (·.sc)

/-- The same descriptor. -/
def Piece.sameRange (p q : Piece) : Bool :=
  match p.xl, q.xl with
  | some x, some y => x.ctx == y.ctx && x.index == y.index
  | _, _ => false

/-- Pieces of one access that go out in one request (R38): one tidepool allocation; or one line, one descriptor and,
while it moves, one block. -/
def Piece.joins (p q : Piece) : Bool :=
  match p.tide with
  | some t => q.tide == some t
  | none => q.tide.isNone && p.line == q.line && p.sameRange q && p.moving == q.moving &&
      (!p.moving || p.off / 128 == q.off / 128)

/-- The pieces of a flight that wait and join p, by lane. -/
def Flight.group (f : Flight) (p : Piece) : List Piece :=
  (List.range 32).flatMap fun l => f.pieces.filter fun q => q.lane == l && q.st == .wait && p.joins q

/-- Inserts a piece by ascending address. -/
def insertPiece (l : List Piece) (p : Piece) : List Piece :=
  match l with
  | [] => [p]
  | q :: l => if p.va.toNat < q.va.toNat then p :: q :: l else q :: insertPiece l p

/-- One waiting piece of each group; in an SC range in ascending order of offset (R38, R68). -/
def Flight.groups (f : Flight) : List Piece :=
  let reps := (f.pieces.filter fun p => p.st == .wait).foldl
    (fun (l : List Piece) p => if l.any p.joins then l else l ++ [p]) []
  if reps.any Piece.sc then reps.foldl insertPiece [] else reps

/-- Changes the pieces of a group. -/
def State.modGroup (s : State) (id : Nat) (g : Piece) (h : Piece → Piece) : State :=
  s.modFlight id fun f => { f with pieces := f.pieces.map fun q => if q.st == .wait && g.joins q then h q else q }

def Piece.sent (p : Piece) : Piece := { p with st := .sent }
def Piece.finish (p : Piece) : Piece := { p with st := .done }

/-- Takes a piece's bytes out of a line. -/
def Piece.fill (p : Piece) (bytes : List Byte) (bad : Bool) : Piece :=
  { p with st := .done, data := (bytes.drop p.lo).take p.len, bad := bad }

/-! The order that a stream keeps -/


/-- Every message of the access has left the core (R133). -/
def Flight.allSent (f : Flight) : Bool := !f.walking && f.pieces.all fun p => p.st != .wait

def Flight.isLoad (f : Flight) : Bool := f.op.any AccOp.loads
def Flight.isStore (f : Flight) : Bool := f.op.any AccOp.stores


/-- A load that is performed at home (R82, R133, R135). -/
def Flight.homeLoad (f : Flight) (p : Piece) : Bool := (f.acq && Scope.wide f.scope) || p.sc

/-- The access is a load that the L1 may serve. -/
def Flight.plainLoad (f : Flight) (p : Piece) : Bool := f.op == some .load && !f.homeLoad p

/-- The core of a flight. -/
def State.flightCore (s : State) (f : Flight) : Nat := ((s.team? f.stream.team).map (·.core)).getD 0

/-- Accesses of the stream before a flight. -/
def State.before (s : State) (f : Flight) : List Flight :=
  (s.flights.takeWhile fun e => e.id != f.id).filter fun e => e.op.isSome && e.ofStream f.stream f.owner

/-- Two pieces of a moving range lie in one block. -/
def Piece.sameBlock (p q : Piece) : Bool := p.sameRange q && p.off / 128 == q.off / 128

/-- A piece to a block of a moving range goes out only after every earlier piece of its stream to the block has been
performed, in their original order (R66). -/
def heldMoving (before : List Flight) (f : Flight) (ps : List Piece) : Bool :=
  ps.any fun p => p.moving &&
    ((before.any fun e => e.pieces.any fun q => q.st != .done && q.sameBlock p) ||
      (f.pieces.any fun q => q.st == .sent && q.sameBlock p) ||
      (f.pieces.takeWhile fun q => !ps.contains q).any fun q => q.st == .wait && q.sameBlock p)

/-- In an SC range the pieces of one access are performed in ascending order (R38, R68), after every earlier access to an
SC range (R135). -/
def heldSc (before : List Flight) (f : Flight) (ps : List Piece) : Bool :=
  ps.any Piece.sc &&
    ((before.any fun e => e.pieces.any fun q => q.sc && q.st != .done) ||
      f.pieces.any fun q => q.sc && (q.st == .sent || (q.st == .wait && ps.all fun p => decide (q.va.toNat < p.va.toNat))))

/-- The bytes of an access whose trap was raised: it has performed none, and is reissued or dropped when the trap is
resolved; what R132 orders after it waits (R390). -/
def State.faultMeets (s : State) (e : Flight) (p : Piece) : Bool :=
  e.faulted && (match s.team? e.stream.team, e.op with
    | some tm, some op => e.lanes.any fun l =>
        let n := AccOp.len op e.ty
        let meets (a : Nat) : Bool := decide (a < p.va.toNat + p.len) && decide (p.va.toNat < a + n)
        (match s.place e.stream.team tm e.stream.warp l.1 l.2.1 n with
         | .global g => p.tide.isNone && meets g.toNat
         | .tide t off => p.tide == some t && meets off
         | .fault _ => false)
    | _, _ => false)

/-- Earlier accesses hold a group of pieces back (R38, R66, R80, R132, R134, R135, R140). -/
def State.held (s : State) (f : Flight) (ps : List Piece) : Bool :=
  let before := s.before f
  before.any (fun e => e.walking && !e.faulted) ||
  (before.any fun e => ps.any (s.faultMeets e)) ||
  (before.any fun e => e.pieces.any fun q => ps.any fun p => q.overlaps p &&
    (q.st == .wait || (q.st == .sent && e.isLoad && f.isLoad && !(e.plainLoad q && f.plainLoad p)))) ||
  heldSc before f ps || heldMoving before f ps ||
  (f.after.any fun id => (s.flight? id).any fun e => !e.bound || e.faulted) ||
  (ps.any fun p => p.tide.isNone && s.net.retries.any fun m =>
    m.line == p.line && m.src == .core (s.l1Core (s.flightCore f) p.line))

/-- Stores of the core that are not complete write bytes of the group: they are pending in the copy (R134). -/
def State.pendingBytes (s : State) (l1 line : Nat) (ps : List Piece) : Bool :=
  s.flights.any fun e => e.isStore && s.l1Core (s.flightCore e) line == l1 &&
    e.pieces.any fun q => q.st == .sent && ps.any q.overlaps

/-- An entry of the gather buffer has bytes in common with a span. -/
def State.entryMeets (s : State) (e : GEntry) (p : Piece) : Bool :=
  let meets (a n : Nat) : Bool := decide (a < p.start + p.len) && decide (p.start < a + n)
  match e.acc with
  | some _ => meets (s.steer e.ctx e.index (e.off - 128) e.pa) 128
  | none => e.words.any fun w => meets (s.steer e.ctx e.index (e.off + w.1 - 128) (e.pa + w.1)) w.2.length

/-- Flushes the team's entries that a group touches (R137). -/
def State.flushFor (s : State) (tm : Team) (t : Nat) (ps : List Piece) : State :=
  s.flushWhere (tm.core / 4) false fun e => e.team == t && ps.any fun p => p.tide.isNone && s.entryMeets e p

/-- No entry of the team that the group touches is left, and no reduction of a flushed one on its lines is incomplete. -/
def State.flushedFor (s : State) (tm : Team) (t : Nat) (ps : List Piece) : Bool :=
  !((s.buffer (tm.core / 4)).any fun e => e.team == t && ps.any fun p => p.tide.isNone && s.entryMeets e p) &&
    !(s.engines.flushed.any fun f => f.team == t && ps.any fun p => p.tide.isNone && f.lines.contains p.line)

/-! Requests -/

/-- A request of a core waits at its source for a gateway (R92). -/
def State.gated (s : State) (core line fn : Nat) : Bool := s.gate fn (dieOf core) (s.homeNode line).die

/-- What a request carries besides its line. -/
def Flight.req (f : Flight) (core : Nat) (x : Xlat) (p : Piece) (flight : Option Nat) : Req :=
  { flight := flight, ctx := x.ctx, index := x.index, off := p.off, lo := p.lo, moving := x.moving, key := x.key,
    fn := x.fn, cache := x.cache, stamp := f.stamp, agent := 324 + core }

/-- One byte of each place: where several lanes write a byte, the spec does not say which stays (log entry 19). -/
def mergeBytes (free : Nat) (l : List (Nat × Byte)) : List (Nat × Byte) :=
  l.foldl (fun (acc : List (Nat × Byte)) b =>
    if acc.any fun x => x.1 == b.1 then acc
    else
      let c := l.filter fun x => x.1 == b.1
      let k := if c.length ≤ 1 then 0 else (Config.freeWord 40 (free + acc.length)).toNat % c.length
      acc ++ [c.getD k b]) []

/-- The bytes that a group of store pieces writes, by place from `base`. -/
def storeBytes (ps : List Piece) (base : Nat) : List (Nat × Byte) :=
  ps.flatMap fun p => p.data.zipIdx.map fun b => (p.start - base + b.2, b.1)

/-- The reduction that the active lanes of a group make of one element each, by place (R324). -/
def mergeReds (op : BitVec 3) (ty : Ty) (ps : List Piece) : List (Nat × List Byte) :=
  combineWords op ty [] (ps.map fun p => (p.lo, p.data))

/-- The lane's operands. -/
def Flight.laneOps (f : Flight) (ps : List Piece) : List LaneOp :=
  ps.map fun p => (p.lane, p.lo, p.data, ((f.lanes.find? fun l => l.1 == p.lane).map (·.2.2.2)).getD [])

/-- Sends a group's request and marks it sent. -/
def State.sendGroup (s : State) (id : Nat) (g : Piece) (l1 : Nat) (b : Body) : State :=
  (s.modGroup id g Piece.sent).send (.core l1) (s.homeNode g.line) g.line b

/-- What an open miss entry will give is not older than a load that meets it now: its READ is still to be performed at the
home, or its DATA is on the way with the core entered as a sharer, so that no store is complete without it (R105, R106). -/
def State.missFresh (s : State) (l1 : Nat) (m : Miss) : Bool :=
  (s.net.msgs ++ s.net.forwards ++ s.net.retries).any fun x =>
    x.line == m.line && (match x.body with
      | .read r _ home _ => x.src == .core l1 && !home && r.flight.isNone && r.key == m.key
      | .data r _ _ _ alloc => x.dst == .core l1 && r.flight.isNone && r.key == m.key && alloc
      | _ => false)

/-- A load meets an open miss entry (R82). Within the entry's 32 cycles, whose end a free choice places (log entry 42), it
joins, as long as what the entry will give is not older than the load (R131), and in a moving range if it is of the same
block (R66). A later one waits for the fill. -/
def State.joinMiss (s : State) (f : Flight) (l1 : Nat) (g : Piece) (ps : List Piece) (m : Miss) : State :=
  if m.closed || m.fill.isSome || m.block != g.block || s.pendingBytes l1 g.line ps then s
  else
    let late := (Config.freeWord 50 s.agenda.free).getLsbD 0 || !s.missFresh l1 m
    let change (y : Miss) : Miss := if late then { y with closed := true } else { y with flights := y.flights ++ [f.id] }
    ((if late then s else s.modGroup f.id g Piece.sent).modCore l1 fun c =>
      { c with misses := c.misses.map fun (y : Miss) => if y.id = m.id then change y else y }).bumpFree

/-- What the L1 holds at the place of a piece is the piece's: in a moving range a lagging image may name a place from which
the block has gone, and the access then goes to the home, which sends it on (R63, R65, R69). -/
def State.holdsPlace (s : State) (x : Xlat) (g : Piece) : Bool :=
  !x.moving || s.judge x.ctx x.index g.off true g.start == .go

/-- A plain load: a hit in the L1, a miss that joins an open entry, or a new entry with its READ (R81, R82). None is served
from before a store of the core to its bytes (R134). -/
def State.sendLoad (s : State) (f : Flight) (core l1 : Nat) (x : Xlat) (g : Piece) (ps : List Piece) : State :=
  let c := s.core l1
  let hs := halvesAt (ps.map fun p => (p.lo, p.len))
  if s.pendingBytes l1 g.line ps then s
  else match (c.l1Line? g.line x.key).filter fun _ => s.holdsPlace x g with
  | some cp => (s.modGroup f.id g fun p => p.fill cp.bytes false).modCore l1 fun c => c.useLine g.line x.key
  | none => match c.misses.find? fun m => m.line == g.line && m.key == x.key with
    | some m => s.joinMiss f l1 g ps m
    | none =>
      if 256 ≤ c.misses.length || s.gated core g.line x.fn then s
      else
        let entry : Miss := ⟨s.fresh, g.line, x.key, [f.id], false, g.block, none, []⟩
        (s.bump.modCore l1 fun c => { c with misses := c.misses ++ [entry] }).sendGroup f.id g l1
          (.read (f.req core x g none) (x.cache == 0 && !x.acc) false hs)

/-- A prefetch brings its line into the L1, or into L2 only; it is finished once its READ has left (R315). -/
def State.sendPrefetch (s : State) (f : Flight) (core l1 : Nat) (x : Xlat) (g : Piece) (l2 : Bool) : State :=
  let c := s.core l1
  let finished := s.modGroup f.id g Piece.finish
  if x.cache = 3 then finished
  else if !l2 && ((c.l1Line? g.line x.key).isSome || c.misses.any fun m => m.line == g.line && m.key == x.key) then finished
  else if s.gated core g.line x.fn then s
  else
    let read (alloc : Bool) : Body := .read (f.req core x g none) alloc false (halvesAt [(g.lo, g.len)])
    if l2 then finished.send (.core l1) (s.homeNode g.line) g.line
      (.read (f.req core x g (some f.id)) false false (halvesAt [(g.lo, g.len)]))
    else if 256 ≤ c.misses.length then s
    else
      let entry : Miss := ⟨s.fresh, g.line, x.key, [], false, g.block, none, []⟩
      (finished.bump.modCore l1 fun c => { c with misses := c.misses ++ [entry] }).send (.core l1) (s.homeNode g.line)
        g.line (read (x.cache == 0))

/-- Combines a `.near` reduction into the delta line of the L1 (R117): one of another tag first goes home. The line does not
become the most recently used: that is by its allocation, or by a load (R372). -/
def State.addDelta (s : State) (l1 : Nat) (d : DLine) (n : DLine) : State :=
  let put (x : DLine) (c : Core) : Core :=
    { c with deltas := c.deltas.map fun (y : DLine) => if y = d then { x with used := d.used } else y }
  if d.op = n.op && d.ty = n.ty then s.modCore l1 (put { d with words := combineWords d.op d.ty d.words n.words })
  else (s.sendDwb l1 d).modCore l1 (put n)

/-- A `.near` reduction: in the L1 when it holds update-only state, otherwise UREQ (R117). -/
def State.sendNear (s : State) (f : Flight) (core l1 : Nat) (x : Xlat) (g : Piece) (op : BitVec 3) (ps : List Piece) :
    State :=
  let ws := mergeReds op f.ty ps
  match ((s.core l1).delta? g.line x.key).filter fun _ => s.holdsPlace x g with
  | some d => (s.modGroup f.id g Piece.finish).addDelta l1 d ⟨g.line, x.key, x.fn, op, f.ty, ws, 0⟩
  | none => if s.gated core g.line x.fn then s else s.sendGroup f.id g l1 (.ureq (f.req core x g (some f.id)) op f.ty ws)

/-- A `.team` reduction: combined in the cluster's gather buffer (R324, R444). -/
def State.sendTeamRed (s : State) (f : Flight) (tm : Team) (x : Xlat) (g : Piece) (op : BitVec 3) (ps : List Piece) :
    State :=
  let e : GEntry :=
    { team := f.stream.team, ctx := x.ctx, index := x.index, off := g.off + 128 - g.lo, pa := g.line * 128, key := x.key,
      fn := x.fn, cache := x.cache, acc := none, op := op, ty := f.ty, words := mergeReds op f.ty ps, id := s.fresh }
  match s.bump.bufferReduce (tm.core / 4) e with
  | (s, true) => s.modGroup f.id g Piece.finish
  | (s, false) => s

/-- Sends a group to the memory of a global address. -/
def State.sendGlobal (s : State) (f : Flight) (tm : Team) (op : AccOp) (x : Xlat) (g : Piece) (ps : List Piece) : State :=
  let core := tm.core
  let l1 := s.l1Core core g.line
  let r := f.req core x g (some f.id)
  let go (b : Body) : State :=
    if s.gated core g.line x.fn then s else s.sendGroup f.id g l1 b
  match op with
  | .load =>
    if f.homeLoad g then go (.read r false true (halvesAt (ps.map fun p => (p.lo, p.len))))
    else s.sendLoad f core l1 x g ps
  | .store =>
    (go (.store r (mergeBytes s.agenda.free (storeBytes ps (g.line * 128))) x.sc false)).tookFree 128
  | .zline => go (.store r (ps.foldl (fun acc p => if acc.any fun b => b.1 == p.lo then acc
      else acc ++ bytesAt p.lo (List.replicate p.len 0)) []) x.sc (ps.any fun p => p.len == 128))
  | .discard => go (.discard r g.lo g.len (g.len == 128))
  | .accLd => go (.accLd r)
  | .prefetch l2 => s.sendPrefetch f core l1 x g l2
  | .atom _ | .cas | .ll | .sc => go (.atomic r op f.ty (f.laneOps ps))
  | .red o near =>
    if near then s.sendNear f core l1 x g o ps
    else if f.scope = .team then s.sendTeamRed f tm x g o ps
    else go (.reduce r o f.ty (mergeReds o f.ty ps))

/-! The tidepool (R19 to R22, R80, R329) -/

/-- A 128-byte block of a tidepool allocation, as reservations name it. -/
def tideBlock (team off : Nat) : Nat := team * 65536 + off / 128

def State.clearTide (s : State) (block : Nat) : State :=
  { s with teams := s.teams.map fun (e : Nat × Team) =>
    (e.1, { e.2 with warps := e.2.warps.map fun (w : Nat × Warp) => (w.1, w.2.clearResv true block) }) }

/-- Writes bytes of an allocation and clears the reservations on their blocks. -/
def State.tideWrite (s : State) (t : Nat) (bytes : List (Nat × Byte)) : State :=
  let s := s.modTeam t fun tm =>
    { tm with tide := bytes.foldl (fun (m : List Host.Cell) (b : Nat × Byte) => memWrite m b.1 b.2) tm.tide }
  ((bytes.map fun b => tideBlock t b.1).eraseDups).foldl State.clearTide s

def State.tideRead (s : State) (t off n : Nat) : List Byte :=
  match s.team? t with
  | some tm => memReads tm.tide off n
  | none => List.replicate n 0

/-- One lane of an atomic, reduction, `ll` or `sc` on a tidepool, and what it returns. -/
def State.tideLane (s : State) (f : Flight) (op : AccOp) (t : Nat) (p : Piece) (c : List Byte) : State × List Byte :=
  let old := s.tideRead t p.start p.len
  let rv : Resv := ⟨true, tideBlock t p.start, t * 2097152 + p.start, p.len⟩
  let mine (s : State) (h : Table Resv → Table Resv) : State :=
    s.modWarp f.stream.team f.stream.warp fun w => { w with resv := h w.resv }
  match op with
  | .red o _ => (s.tideWrite t (bytesAt p.start (redBytes o f.ty old p.data)), old)
  | .ll => (mine s fun l => tset l p.lane rv, old)
  | .sc =>
    let ok := (s.flightWarp f).any fun w => tget? w.resv p.lane == some rv
    let s := if ok then s.tideWrite t (bytesAt p.start p.data) else s
    (mine s fun l => tdel l p.lane, [if ok then 1 else 0])
  | op =>
    match laneOp op f.ty old p.data c with
    | some new => (s.tideWrite t (bytesAt p.start new), old)
    | none => (s, old)

/-- Performs a group on a tidepool allocation. -/
def State.tidePerform (s : State) (f : Flight) (op : AccOp) (t : Nat) (g : Piece) (ps : List Piece) : State :=
  match op with
  | .store =>
    ((s.tideWrite t (mergeBytes s.agenda.free (storeBytes ps 0))).tookFree 512).modGroup f.id g Piece.finish
  | .load | .prefetch _ => s.modGroup f.id g fun p => { p with st := .done, data := s.tideRead t p.start p.len }
  | .zline | .discard =>
    (ps.foldl (fun (s : State) (p : Piece) => s.tideWrite t (bytesAt p.start (List.replicate p.len 0))) s).modGroup f.id g
      Piece.finish
  | .accLd => s.modGroup f.id g Piece.finish
  | .red o _ =>
    let ws := combineWords o f.ty [] (ps.map fun p => (p.start, p.data))
    (ws.foldl (fun (s : State) (w : Nat × List Byte) =>
      s.tideWrite t (bytesAt w.1 (redBytes o f.ty (s.tideRead t w.1 w.2.length) w.2))) s).modGroup f.id g Piece.finish
  | .atom _ | .cas | .ll | .sc =>
    ps.foldl (fun (s : State) (p : Piece) =>
      let c := ((f.lanes.find? fun l => l.1 == p.lane).map (·.2.2.2)).getD []
      let (s, out) := s.tideLane f op t p c
      s.modGroup f.id g fun q => if q.lane = p.lane then { q with st := .done, data := out } else q) s

/-! The pump -/

/-- Sends one group if nothing holds it back. -/
def State.pumpGroup (s : State) (id : Nat) (g : Piece) : State :=
  match s.flight? id with
  | none => s
  | some f =>
    match f.op, s.team? f.stream.team with
    | some op, some tm =>
      let ps := f.group g
      let pf := match op with | .prefetch _ => true | _ => false
      let combines := match op with | .red _ near => !near && f.scope == .team | .discard => true | _ => false
      if ps.isEmpty || (if pf then heldMoving (s.before f) f ps else s.held f ps) then s
      else
        let s := if pf || combines then s else s.flushFor tm f.stream.team ps
        if !pf && !combines && !s.flushedFor tm f.stream.team ps then s
        else match g.tide, g.xl with
          | some t, _ => s.tidePerform f op t g ps
          | none, some x => s.sendGlobal f tm op x g ps
          | none, none => s
    | _, _ => s

/-- Sends what can be sent of one flight. -/
def State.pumpFlight (s : State) (id : Nat) : State :=
  let s := s.endTranslation id
  match s.flight? id with
  | none => s
  | some f =>
    if f.op.isNone || f.walking || f.faulted || !(s.team? f.stream.team).any (fun (tm : Team) => tm.resident) then s
    else f.groups.foldl (fun (s : State) (g : Piece) => s.pumpGroup id g) s

/-- An arrival counter of a slice advances by one (R13, R318). -/
def SliceState.count (x : SliceState) (ck : Nat) : SliceState :=
  { x with counters := tset x.counters ck (tget x.counters ck 0 + 1) }

/-- The flight is over once all its pieces are: it returns nothing to its stream. -/
def Flight.returnsNothing (f : Flight) : Bool :=
  match f.op with
  | some op => !op.loads && !f.walking && !f.faulted && f.pieces.all fun p => p.st == .done
  | none => false

/-- Drops the accesses that are over and return nothing; one with CE advances its counter (R317). -/
def State.finishStores (s : State) : State :=
  (s.flights.filter Flight.returnsNothing).foldl (fun (s : State) (f : Flight) =>
    let s := s.dropFlight f.id
    match f.ctr with
    | some ck => s.modSlice f.stream.team f.stream.warp f.stream.slice (·.count ck)
    | none => s) s

/-- Sends every waiting piece that may go, oldest access first, and ends what is over. -/
def State.pump (s : State) : State :=
  (((s.flights.map Flight.id).foldl State.pumpFlight s).finishStores).reapAll.drainFree

end Sys2Proof.Machine
end

