-- ==== Sys2Proof/Machine/Memory.lean ====
section
/-! DEFINITION. Loads, stores, atomics and reductions (R311 to R327), queue stores, the delivery of what they read
(R13, R189, R201, R209, R316), and the range walkers (R42 to R44). -/

namespace Sys2Proof.Machine

/-! What stands before an access (R132, R133) -/

/-- Earlier accesses of the issuing stream; a prefetch has no effect on ordering (R315). One whose trap was raised is not
complete: what R132 orders after it waits until the trap is resolved (R390). -/
def State.earlier (s : State) (i : Issue) : List Flight :=
  s.flights.filter fun e => e.orders && e.ofStream i.ref i.sp.mask

/-- The access is complete, and is not to be made again. -/
def Flight.ended (f : Flight) : Bool := f.bound && !f.faulted

/-- Every earlier acquire is bound. -/
def State.afterAcquires (s : State) (i : Issue) : Bool := (s.earlier i).all fun e => !e.acq || e.ended

/-- The earlier side of a release or fence at a scope (R133, R137): whether it holds, with the team's gather-buffer
entries flushed when the scope is wider than .team. -/
def State.release (s : State) (i : Issue) (sc : Scope) : State × Bool :=
  let es := s.earlier i
  if Scope.wide sc then
    let s := s.flushTeam i.ref.team
    (s, es.all Flight.ended && !s.gathering i.ref.team)
  else (s, es.all fun e => !e.faulted && if e.isLoad then e.bound else e.allSent)

/-- Scopes .team and wider. -/
def Scope.team_ : Scope → Bool
  | .none | .warp => false
  | .team | .cluster | .die | .pkg | .sys => true

/-- The earlier accesses of the stream now stand before a release or fence of .team or wider (R138). -/
def State.fence_ (s : State) (i : Issue) (sc : Scope) : State :=
  if Scope.team_ sc then
    { s with flights := s.flights.map fun (f : Flight) =>
      if f.op.isSome && f.ofStream i.ref i.sp.mask then { f with fenced := true } else f }
  else s

/-! Launching an access -/

/-- What a word asks of memory. -/
structure Ask where
  op : AccOp
  ty : Ty
  acq : Bool
  rel : Bool
  scope : Scope
  dst : Dst
  ctr : Option Nat
  /-- accesses of the other slice that it comes after (R140) -/
  after : List Nat
  deriving DecidableEq, Repr

/-- An access without ordering, result or counter. -/
def Ask.plain (op : AccOp) (ty : Ty) : Ask := ⟨op, ty, false, false, .none, .none, none, []⟩

/-- Operands of the active lanes: address, data, comparand. -/
abbrev Lanes := List (Nat × Word × List Byte × List Byte)

/-- Limit of `$slip` for a forward queue (R196). -/
def Warp.slipLimit (w : Warp) (q : Nat) : Nat := (w.slip.extractLsb' (4 * q) 4).toNat

/-- A load or `acc.ld` must wait for room in its queue, or for the slip limit (R194, R196). -/
def Warp.loadWaits (w : Warp) (q : Nat) : Bool :=
  !w.canPush q || (!w.c.ended && decide (q < 4) && decide (w.slipLimit q ≤ (w.queue q).length))

/-- The destination of a result. -/
def Dst.ofOpd (d : Opd) : Dst :=
  match Opd.queue? d with
  | some q => .queue q 0
  | .none => .reg d

/-- What keeps an access from issuing; a release or fence may have flushed the team's entries meanwhile. R196 names loads
and `acc.ld` for the slip limit; the model holds a fetching atomic, `cas` or `ll` that pushes a queue to it as well (log
entry 98). -/
def State.mayAccess (s : State) (i : Issue) (a : Ask) : State × Option Wait :=
  if !s.afterAcquires i then (s, some .order)
  else
    match a.dst with
    | .queue q _ =>
      if i.wp.loadWaits q then (s, some (.push q true))
      else if a.rel then let (s, ok) := s.release i a.scope; (s, if ok then none else some .order) else (s, none)
    | _ => if a.rel then let (s, ok) := s.release i a.scope; (s, if ok then none else some .order) else (s, none)

/-- The access of a word becomes outstanding; what can be sent is sent (R133, R316). -/
def State.launch (s : State) (i : Issue) (a : Ask) (m : Mask) (lanes : Lanes) : State :=
  let entry := s.fresh
  let (s, dst) : State × Dst := match a.dst with
    | .queue q _ => (s.push i.ref.team i.ref.warp q m [] m, if i.wp.c.ended then .queue 99 entry else .queue q entry)
    | d => (s, d)
  let s := if a.rel then s.fence_ i a.scope else s
  let f : Flight :=
    { Flight.empty s.fresh i i.sp.mask with
      op := some a.op, dst := dst, ty := a.ty, scope := a.scope, acq := a.acq, rel := a.rel, lanes := lanes,
      walking := true, todo := m, ctr := a.ctr, stamp := s.stamp (dieOf i.tm.core),
      fenced := a.rel && Scope.team_ a.scope, after := a.after }
  (({ s.bump with flights := s.flights ++ [f] } : State).resolveFlight f.id none).pump

/-- A word with an access: it waits, or issues. -/
def State.memWord (s : State) (i : Issue) (mark : Bool) (a : Ask) (m : Mask) (lanes : Lanes) : State :=
  if m = 0 then s.advance i mark
  else
    match s.mayAccess i a with
    | (s, some w) => s.waitAt i w
    | (s, none) => (s.launch i a m lanes).advance i mark

/-! Operands -/

/-- The next register, of a .z128 pair. -/
def Opd.next : Opd → Opd
  | .r n => .r (n + 1)
  | .s n => .s (n + 1)
  | .k n => .k (n + 1)
  | .f n => .f n
  | .sa => .sa

/-- A 64-bit register of the A-slice in a lane. -/
def Issue.reg (i : Issue) (o : Opd) (l : Nat) : Word := i.sl.read i.ref.slice l 64 o

/-- The low bytes of a register, or of a .z128 pair. -/
def Issue.dataOf (i : Issue) (t : Ty) (o : Opd) (l : Nat) : List Byte :=
  if t = .z128 then leBytes 8 (i.reg o l).toNat ++ leBytes 8 (i.reg (Opd.next o) l).toNat
  else leBytes (Ty.bytes t) (i.reg o l).toNat

/-- Operands of the lanes of a mask. -/
def lanesWith (m : Mask) (addr : Nat → Word) (data comp : Nat → List Byte) : Lanes :=
  (lanesOf m).map fun l => (l, addr l, data l, comp l)

/-- No bytes. -/
def noBytes (_ : Nat) : List Byte := []

/-- Base plus signed displacement. -/
def Issue.addrM (i : Issue) (a : Opd) (imm : BitVec 26) (l : Nat) : Word := i.reg a l + imm.signExtend 64

/-- Base plus scaled index. -/
def Issue.addrIdx (i : Issue) (a b : Opd) (sh : BitVec 3) (l : Nat) : Word := i.reg a l + (i.reg b l <<< sh.toNat)

/-- A load's ordering: an acquire at its scope, or none. -/
def Ask.load (op : AccOp) (t : Ty) (acq : Scope) (dst : Dst) : Ask := ⟨op, t, acq != .none, false, acq, dst, none, []⟩

def Ask.store (t : Ty) (rel : Scope) : Ask := ⟨.store, t, false, rel != .none, rel, .none, none, []⟩

def Ordering.acqs : Ordering → Bool
  | .none | .rel => false
  | .acq | .ar => true

def Ordering.rels : Ordering → Bool
  | .none | .acq => false
  | .rel | .ar => true

/-! Loads and stores (R315, R316, R318) -/

def execLd (h : Head) (t : Ty) (acq : Scope) (d a : Opd) (imm : BitVec 26) (s : State) :
    Host.Outcome State Fault Refusal :=
  word s fun i =>
    let m := i.active h.guard
    s.memWord i h.mark (.load .load t acq (Dst.ofOpd d)) m (lanesWith m (i.addrM a imm) noBytes noBytes)

def execSt (h : Head) (t : Ty) (rel : Scope) (d a : Opd) (imm : BitVec 26) (s : State) :
    Host.Outcome State Fault Refusal :=
  word s fun i =>
    let m := i.active h.guard
    s.memWord i h.mark (.store t rel) m (lanesWith m (i.addrM a imm) (i.dataOf t d) noBytes)

def execLdx (h : Head) (t : Ty) (ctr : BitVec 4) (d a : Opd) (imm : BitVec 26) (s : State) :
    Host.Outcome State Fault Refusal :=
  word s fun i =>
    let m := i.active h.guard
    if m = 0 then (s.modSlice i.ref.team i.ref.warp i.ref.slice (·.count ctr.toNat)).advance i h.mark
    else s.memWord i h.mark (.load .load t .none (.counter d ctr.toNat)) m (lanesWith m (i.addrM a imm) noBytes noBytes)

def execLdIdx (h : Head) (t : Ty) (acq : Scope) (sh : BitVec 3) (d a b : Opd) (s : State) :
    Host.Outcome State Fault Refusal :=
  word s fun i =>
    let m := i.active h.guard
    s.memWord i h.mark (.load .load t acq (Dst.ofOpd d)) m (lanesWith m (i.addrIdx a b sh) noBytes noBytes)

def execStIdx (h : Head) (t : Ty) (rel : Scope) (sh : BitVec 3) (d a b : Opd) (s : State) :
    Host.Outcome State Fault Refusal :=
  word s fun i =>
    let m := i.active h.guard
    s.memWord i h.mark (.store t rel) m (lanesWith m (i.addrIdx a b sh) (i.dataOf t d) noBytes)

/-- `pf` has no effect on ordering, so it waits for nothing (R315). -/
def execPf (h : Head) (l2 : Bool) (a : Opd) (imm : BitVec 26) (s : State) : Host.Outcome State Fault Refusal :=
  word s fun i =>
    let m := i.active h.guard
    if m = 0 then s.advance i h.mark
    else (s.launch i (.plain (.prefetch l2) .z8) m (lanesWith m (i.addrM a imm) noBytes noBytes)).advance i h.mark

/-! Atomics (R321 to R323, R326, R327) -/

def Ask.atomic (op : AccOp) (t : Ty) (sc : Scope) (ord : Ordering) (dst : Dst) : Ask :=
  ⟨op, t, Ordering.acqs ord, Ordering.rels ord, sc, dst, none, []⟩

def execAtom (h : Head) (t : Ty) (op : BitVec 3) (sc : Scope) (ord : Ordering) (d a b : Opd) (s : State) :
    Host.Outcome State Fault Refusal :=
  word s fun i =>
    let m := i.active h.guard
    s.memWord i h.mark (.atomic (.atom op) t sc ord (Dst.ofOpd d)) m (lanesWith m (i.reg a) (i.dataOf t b) noBytes)

/-- `cas` carries its comparand b as the operand and its new value c as the second (R323). -/
def execCas (h : Head) (t : Ty) (sc : Scope) (ord : Ordering) (d a b c : Opd) (s : State) :
    Host.Outcome State Fault Refusal :=
  word s fun i =>
    let m := i.active h.guard
    s.memWord i h.mark (.atomic .cas t sc ord (Dst.ofOpd d)) m (lanesWith m (i.reg a) (i.dataOf t b) (i.dataOf t c))

/-- A reduction; scope 0 means .pkg (R312). -/
def Ask.red (op : BitVec 3) (near : Bool) (t : Ty) (rel : Bool) (sc : Scope) (ctr : Option Nat) : Ask :=
  ⟨.red op near, t, false, rel, if sc = .none then .pkg else sc, .none, ctr, []⟩

def execRed (h : Head) (t : Ty) (op : BitVec 3) (near rel : Bool) (sc : Scope) (d a : Opd) (s : State) :
    Host.Outcome State Fault Refusal :=
  word s fun i =>
    let m := i.active h.guard
    s.memWord i h.mark (.red op near t rel sc none) m (lanesWith m (i.reg a) (i.dataOf t d) noBytes)

def execLl (h : Head) (t : Ty) (acq : Scope) (d a : Opd) (imm : BitVec 26) (s : State) :
    Host.Outcome State Fault Refusal :=
  word s fun i =>
    let m := i.active h.guard
    s.memWord i h.mark (.load .ll t acq (Dst.ofOpd d)) m (lanesWith m (i.addrM a imm) noBytes noBytes)

def execSc (h : Head) (t : Ty) (scope : Scope) (ord : Ordering) (d a : Opd) (pd : BitVec 3) (s : State) :
    Host.Outcome State Fault Refusal :=
  word s fun i =>
    let m := i.active h.guard
    s.memWord i h.mark (.atomic .sc t scope ord (.pred pd.toNat)) m (lanesWith m (i.reg a) (i.dataOf t d) noBytes)

/-! Queue stores (R313, R317) -/

/-- The accesses that precede the push of the address which the split pops next (R140). -/
def Issue.addressAfter (i : Issue) : List Nat :=
  match i.wp.pops i.sp.mask [4] with
  | .ok _ es _ => es.flatMap QEntry.after
  | .wait _ | .fault _ => []

/-- `stq` and `red.q`: pops with the split's whole mask, performs in the active lanes, after the accesses that precede the
push of the address (R140). -/
def State.queueStore (s : State) (i : Issue) (h : Head) (a : Ask) (d : Opd) : State :=
  let act := i.active h.guard
  match if act = 0 then (s, none) else s.mayAccess i a with
  | (s, some w) => s.waitAt i w
  | (s, none) => s.withSources i i.sp.mask [.sa, d] fun _ s m rd =>
    let m := m &&& act
    if m = 0 then
      (match a.ctr with
        | some ck => s.modSlice i.ref.team i.ref.warp i.ref.slice (·.count ck)
        | none => s).advance i h.mark
    else
      let w := if Ty.bytes a.ty = 8 then 64 else 32
      (s.launch i { a with after := i.addressAfter } m
        (lanesWith m (fun l => rd 0 l 64) (fun l => leBytes (Ty.bytes a.ty) (rd 1 l w).toNat) noBytes)).advance i h.mark

def execStq (h : Head) (t : Ty) (rel : Scope) (ce : Bool) (ctr : BitVec 4) (d : Opd) (s : State) :
    Host.Outcome State Fault Refusal :=
  word s fun i => s.queueStore i h { Ask.store t rel with ctr := if ce then some ctr.toNat else none } d

def execRedQ (h : Head) (t : Ty) (op : BitVec 3) (near rel : Bool) (sc : Scope) (ce : Bool) (ctr : BitVec 4) (d : Opd)
    (s : State) : Host.Outcome State Fault Refusal :=
  word s fun i => s.queueStore i h (.red op near t rel sc (if ce then some ctr.toNat else none)) d

/-! `acc.ld` (R174, R362) -/

def execAccLd (h : Head) (d a : Opd) (s : State) : Host.Outcome State Fault Refusal :=
  word s fun i =>
    let m := i.active h.guard
    s.memWord i h.mark (.load .accLd .z64 .none (Dst.ofOpd d)) m (lanesWith m (i.reg a) noBytes noBytes)

/-! Results -/

/-- Bytes read for a lane, in order. -/
def Flight.laneBytes (f : Flight) (l : Nat) : List Byte := (f.pieces.filter fun p => p.lane == l).flatMap (·.data)

/-- A loaded value extended to 64 bits (R315). -/
def loadWord (t : Ty) (bs : List Byte) : Word :=
  let v := leNat bs
  match t with
  | .i8 => (BitVec.ofNat 8 v).signExtend 64
  | .i16 => (BitVec.ofNat 16 v).signExtend 64
  | .i32 => (BitVec.ofNat 32 v).signExtend 64
  | _ => BitVec.ofNat 64 v

/-- What `acc.ld` takes from the image at the lane's offset, and whether the value's pair is poisoned (R174). -/
def accValue (img : List Byte) (v : Word) : Word × Bool :=
  let o := bits v 0 7
  if o = 96 then (BitVec.ofNat 64 (fieldOf img 96 8), false)
  else (BitVec.ofNat 64 (fieldOf img o 6), fieldOf img 103 1 / 2 ^ (o / 12) % 2 == 1)

/-- The value of a lane, and whether the lane met poison. -/
def Flight.value (f : Flight) (l : Nat) : Word × Bool :=
  let poison := f.pieces.any fun p => p.lane == l && p.bad
  match f.op, f.lanes.find? fun x => x.1 == l with
  | some .accLd, some (_, v, _, _) => let (x, bad) := accValue (f.laneBytes l) v; (x, poison || bad)
  | _, _ => (loadWord f.ty (f.laneBytes l), poison)

/-- The lanes of a flight that still stand. -/
def Flight.mask (f : Flight) : Mask := f.lanes.foldl (fun (m : Mask) l => m ||| laneBit l.1) 0

/-- Register and predicate writes of a flight for its good lanes. -/
def Flight.resultWrites (f : Flight) (m : Mask) : List Write :=
  let regs (o : Opd) : List Write :=
    destWrites f.stream.slice o 64 (laneVals m fun l => (f.value l).1) ++
    (if f.ty = .z128 then destWrites f.stream.slice (Opd.next o) 64 (laneVals m fun l => leWord ((f.laneBytes l).drop 8))
     else [])
  match f.dst with
  | .reg o | .counter o _ => regs o
  | .pred p => (lanesOf m).map fun l => .pred p l ((f.value l).1 != 0)
  | .none | .queue .. => []

/-- A result that can be written. -/
def Flight.returns (f : Flight) : Bool :=
  match f.op, f.dst with
  | none, .reg _ => !f.writes.isEmpty
  | none, _ => true
  | some _, .reg _ | some _, .pred _ | some _, .counter .. => f.bound && !f.faulted
  | some _, _ => false

/-- LOAD_REPLY: an outstanding result is written; lanes that met poison die (R13, R189, R209). -/
def State.reply (s : State) (f : Flight) : State :=
  let t := f.stream.team
  let w := f.stream.warp
  let dead : Mask := ((s.flightWarp f).map fun (x : Warp) => x.dead).getD 0xFFFFFFFF
  let bad := if f.op.isNone then 0 else maskOf fun l => f.mask.getLsbD l && (f.value l).2
  let s := s.dropFlight f.id
  let s := s.modWarp t w fun x => x.puts f.stream.slice
    (if f.op.isNone then f.writes else f.resultWrites (f.mask &&& ~~~dead &&& ~~~bad))
  let s := match f.dst with
    | .counter _ ck => s.modSlice t w f.stream.slice (·.count ck)
    | _ => s
  ((s.kill t w (bad &&& ~~~dead)).unpark t w f.stream.slice).pump

def execLoadReply (flight : Nat) (s : State) : Host.Outcome State Fault Refusal :=
  .next (match s.flight? flight with
    | some f => if f.returns then s.reply f else s
    | none => s)

/-- QUEUE_DATA_ARRIVAL: the values reach their entry. Lanes of a load that met poison are poisoned there (R201, R316);
those of an atomic or `ll` die (R121, R323). -/
def State.arrival (s : State) (f : Flight) (q entry : Nat) : State :=
  let t := f.stream.team
  let w := f.stream.warp
  let dead : Mask := ((s.flightWarp f).map fun (x : Warp) => x.dead).getD 0xFFFFFFFF
  let bad := maskOf fun l => f.mask.getLsbD l && (f.value l).2
  let s := (s.dropFlight f.id).modWarp t w fun x => x.modEntry q entry fun e =>
    { e with
      vals := (laneVals (f.mask &&& ~~~bad) fun l => (f.value l).1).foldl
        (fun (t : Table Word) v => tset t v.1 v.2) e.vals
      flying := e.flying &&& ~~~f.mask
      poisonData := if f.poisons then e.poisonData ||| bad else e.poisonData }
  (if f.poisons then s else s.kill t w (bad &&& ~~~dead)).pump

def execQueueDataArrival (flight : Nat) (s : State) : Host.Outcome State Fault Refusal :=
  .next (match s.flight? flight with
    | some f => match f.dst with
      | .queue q entry => if f.bound && !f.faulted then s.arrival f q entry else s
      | _ => s
    | none => s)

/-! Range walks (R42 to R44) -/

/-- Walks of a die's cores that walkers perform. -/
def State.walking (s : State) (die : Nat) : Nat :=
  ((List.range 16).map fun k => ((s.core (die * 16 + k)).walks.filter (·.started)).length).foldl (· + ·) 0

/-- RANGE_WALK_START: a free walker takes the oldest waiting walk of the next core (R42). -/
def execRangeWalkStart (die : Nat) (s : State) : Host.Outcome State Fault Refusal :=
  .next (if Config.dies ≤ die || 32 ≤ s.walking die then s
    else
      let last := tget s.engines.walkLast die 15
      match ((List.range 16).map fun k => (last + 1 + k) % 16).find? fun k =>
          (s.core (die * 16 + k)).walks.any fun w => !w.started with
      | none => s
      | some k =>
        match (s.core (die * 16 + k)).walks.find? fun w => !w.started with
        | none => s
        | some w =>
          let s := s.modCore (die * 16 + k) fun c => { c with walks := c.walks.map fun (x : PendWalk) =>
            if x = w then { x with started := true } else x }
          { s with engines := { s.engines with walkLast := tset s.engines.walkLast die k } })

/-- A flight stands before another where the faults of one cycle are taken in turn: by warp, and the A-slice first (R385). -/
def Flight.trapsFirst (a b : Flight) : Bool :=
  decide (a.stream.warp < b.stream.warp) ||
    (a.stream.warp == b.stream.warp && a.stream.slice == .a && b.stream.slice == .c)

def insertFirst (l : List Flight) (f : Flight) : List Flight :=
  match l with
  | [] => [f]
  | g :: l => if f.trapsFirst g then f :: g :: l else g :: insertFirst l f

/-- Translates again every access of a core that waits for a walk; of the faults that they meet together, that of the lowest
warp is first (R385). -/
def State.resolveCore (s : State) (core : Nat) (walked : Option Walked) : State :=
  (((s.flights.filter fun f => f.walking && s.flightCore f == core).foldl insertFirst []).map Flight.id).foldl
    (fun (s : State) (id : Nat) => s.resolveFlight id walked) s

/-- The descriptors that a walker's binary search reads, by index (R42). -/
def State.searchPath (s : State) (ctx : Nat) (v : Word) (lo hi fuel : Nat) : List Nat :=
  match fuel with
  | 0 => []
  | fuel + 1 =>
    if hi ≤ lo then []
    else
      let m := (lo + hi) / 2
      let d := (s.descAt ctx m).1
      m :: (if v.toNat < d.base then s.searchPath ctx v lo m fuel
        else if d.base + d.size ≤ v.toNat then s.searchPath ctx v (m + 1) hi fuel
        else [])

/-- The number by which a core's claims for a walk of a region are known. -/
def walkSerial (ctx region : Nat) : Nat := walkBase + region * 64 + ctx

/-- The walker reads a line of the table through the L2, as a request of its core: false while what must come first is under
way. A line that lies in no address-map entry has no home that could hold it: the model reads the stored bytes (log entry
112). -/
def State.walkLine (s : State) (ctx core region line : Nat) : State × Bool :=
  if (s.amapAt (line * 128)).isNone then (s, true)
  else
    let agent := 324 + core
    let n := walkSerial ctx region
    let r := Req.ofAgent agent n (s.stampOf agent n) ((s.slotOf (s.ctxFn ctx)).getD 0) (s.ctxFn ctx) 0
    match s.ask line r [false, true] false true with
    | (s, true) => (s.touch line false, true)
    | (s, false) => (s, false)

/-- The lines of a walk. -/
def State.walkLines (s : State) (ctx core : Nat) (v : Word) : State × Bool :=
  match (((s.searchPath ctx v 0 (s.rtCount ctx) 16).map fun i => lineOf (s.rtBase ctx + 32 * i)).eraseDups).foldl
    (fun (acc : State × Bool) line => match acc.1.walkLine ctx core (regionOf v) line with
      | (s, ok) => (s, acc.2 && ok)) (s, true) with
  | (s, true) => (s.unclaim (324 + core) (walkSerial ctx (regionOf v)), true)
  | (s, false) => (s, false)

/-- What a walk comes to: the descriptor to install, or the fault of what waits for it (R44). -/
def State.walkResult (s : State) (ctx : Nat) (v : Word) : Except XFault RBuf :=
  match s.walk ctx v with
  | none => .error noMap
  | some i =>
    let (d, d0, d1, d2, d3) := s.descAt ctx i
    match s.descFault? ctx d with
    | some f => .error f
    | none => .ok ⟨ctx, i, d0, d1, d2, d3, 0⟩

/-- The walk ends: a descriptor is installed, and what was found is left for what waited besides the accesses of streams. -/
def Core.endWalk (c : Core) (w : PendWalk) (r : Except XFault RBuf) : Core :=
  let found : Sum XFault RBuf := match r with | .ok e => .inr e | .error f => .inl f
  let c := { c with
    walks := c.walks.filter (· != w), answers := c.answers ++ w.waiters.map fun who => ⟨who, w.ctx, w.region, found⟩ }
  match r with
  | .ok e => c.install e
  | .error _ => c

/-- RANGE_WALK_COMPLETE: the descriptors of the search are read through the L2; the one found is installed if it passes
R34 and R35, and the accesses that waited are replayed (R42 to R44). -/
def execRangeWalkComplete (core ctx region : Nat) (s : State) : Host.Outcome State Fault Refusal :=
  .next (match (s.core core).walks.find? fun w => w.started && w.ctx == ctx && w.region == region with
    | none => s
    | some w => match s.walkLines ctx core w.va with
      | (s, false) => s
      | (s, true) =>
        let r := s.walkResult ctx w.va
        let fault := match r with | .ok _ => none | .error f => some f
        ((s.modCore core fun c => c.endWalk w r).resolveCore core (some (ctx, region, fault))).pump)

end Sys2Proof.Machine
end

