-- ==== Sys2Proof/Machine/Coherence.lean ====
section
/-! DEFINITION. The messages between cores and homes as they arrive (R65, R82, R103 to R119, R123, R134), and the
memory controllers' queues (R93, R94). Each message is taken in the order of its pair (R104). -/

namespace Sys2Proof.Machine

/-- Takes the message m when it may arrive and its body is of the kind that `k` reads. -/
def State.receive (s : State) (m : Nat) (k : State → Msg → Option State) : Host.Outcome State Fault Refusal :=
  .next (match s.deliverable m with
    | none => s
    | some x => (k (s.take m) x).getD s)

/-! Requests at their homes (R65, R81, R95, R98, R105, R106, R117, R119, R324) -/

/-- READ, and the read of an accumulator line for `acc.ld` (R174, R179). -/
def execRead (m : Nat) (s : State) : Host.Outcome State Fault Refusal :=
  s.receive m fun s x => match x.body with
    | .read .. | .accLd _ => some (s.arrive x)
    | _ => none

/-- STORE, and the full-line write of `zline` (R369). -/
def execStore (m : Nat) (s : State) : Host.Outcome State Fault Refusal :=
  s.receive m fun s x => match x.body with
    | .store .. => some (s.arrive x)
    | _ => none

def execHomeAtomic (m : Nat) (s : State) : Host.Outcome State Fault Refusal :=
  s.receive m fun s x => match x.body with
    | .atomic .. => some (s.arrive x)
    | _ => none

/-- A reduction arrives; or the home makes more writes of one of a pair type that it has begun (R374). -/
def execHomeReduction (m : Nat) (s : State) : Host.Outcome State Fault Refusal :=
  match s.net.parts.find? fun p => p.m.id == m && !p.rest.isEmpty with
  | some p => .next (if s.busy p.m.line then s else
      ((s.bumpFree.stepPart p (s.someWrites p.rest.length)).endTransient p.m.line).drainHome (s.homeOf (p.m.line * 128)))
  | none => s.receive m fun s x => match x.body with
    | .reduce .. => some (s.arrive x)
    | _ => none

def execDiscardAtHome (m : Nat) (s : State) : Host.Outcome State Fault Refusal :=
  s.receive m fun s x => match x.body with
    | .discard .. => some (s.arrive x)
    | _ => none

def execUreq (m : Nat) (s : State) : Host.Outcome State Fault Refusal :=
  s.receive m fun s x => match x.body with
    | .ureq .. => some (s.arrive x)
    | _ => none

/-! Answers at cores -/

/-- A piece lies in a half of a line. -/
def Piece.inHalf (p : Piece) (h : Bool) : Bool := (halvesOf p.lo p.len).contains h

/-- A piece takes its bytes from an answer, or waits to ask again for a half that it lacks (R123, R125). -/
def Piece.answer (p : Piece) (bytes : List Byte) (poison : BitVec 2) (valid : List Bool) : Piece :=
  if (halvesOf p.lo p.len).all valid.contains then
    p.fill bytes ((poison.getLsbD 0 && p.inHalf false) || (poison.getLsbD 1 && p.inHalf true))
  else { p with st := .wait }

/-- DATA answers a load performed at home, or fills a miss entry. A load that finds a half missing asks again. -/
def execData (m : Nat) (s : State) : Host.Outcome State Fault Refusal :=
  s.receive m fun s x => match x.body with
    | .data r bytes poison valid alloc =>
      match r.flight with
      | some _ => some ((s.modReq x.line r fun p => p.answer bytes poison valid).pump)
      | none => some (s.modCore x.dst.core? fun c => { c with misses := c.misses.map fun (y : Miss) =>
          if y.line = x.line && y.key = r.key && y.fill.isNone then { y with fill := some (bytes, poison, valid, alloc) }
          else y })
    | _ => none

/-- The pieces of the loads that joined a miss entry. -/
def State.modMiss (s : State) (e : Miss) (h : Piece → Piece) : State :=
  e.flights.foldl (fun (s : State) (id : Nat) => s.modFlight id fun f =>
    { f with pieces := f.pieces.map fun (p : Piece) =>
        if p.st == .sent && p.tide.isNone && p.line == e.line && (p.xl.any fun x => x.key == e.key) && p.block == e.block &&
          f.plainLoad p then h p else p }) s

def State.dropMiss (s : State) (core : Nat) (e : Miss) : State :=
  s.modCore core fun c => { c with misses := c.misses.filter fun (y : Miss) => y.id != e.id }

/-- Bytes at positions of a line are replaced. -/
def patch (line : List Byte) (bytes : List (Nat × Byte)) : List Byte :=
  bytes.foldl (fun (l : List Byte) b => l.set b.1 b.2) line

/-- MISS_FILL: the line is installed when the home said so, and every load that joined is answered (R82). -/
def execMissFill (core entry : Nat) (s : State) : Host.Outcome State Fault Refusal :=
  .next (match (s.core core).misses.find? fun e => e.id == entry with
    | none => s
    | some e =>
      match e.fill with
      | none => s
      | some (bytes, poison, valid, alloc) =>
        let s := s.dropMiss core e
        let s := if alloc then s.l1Install core e.line e.key (patch bytes e.later) else s
        (s.modMiss e fun p => p.answer bytes poison valid).pump)

/-- A core applies new bytes to its copy of a line, and to the copy that a fill which has arrived will become (R81, R106). -/
def Core.patchLine (c : Core) (line : Nat) (bytes : List (Nat × Byte)) : Core :=
  { c with
    l1 := c.l1.map fun (x : L1Line) => if x.line = line then { x with bytes := patch x.bytes bytes } else x
    misses := c.misses.map fun (x : Miss) =>
      if x.line = line && x.fill.isSome then { x with later := x.later ++ bytes } else x }

/-- STACK: the access is complete; the writer's copy takes the home's value, and goes after a coarse round (R105,
R110, R134). -/
def execStack (m : Nat) (s : State) : Host.Outcome State Fault Refusal :=
  s.receive m fun s x => match x.body with
    | .stack r bytes drop =>
      let s := s.modReq x.line r Piece.finish
      some ((s.modCore x.dst.core? fun c =>
        let c := c.patchLine x.line bytes
        if drop then c.dropCopy x.line else c).wakeLine x.line |>.pump)
    | _ => none

def execUpd (m : Nat) (s : State) : Host.Outcome State Fault Refusal :=
  s.receive m fun s x => match x.body with
    | .upd bytes ack => some (((s.modCore x.dst.core? fun c => c.patchLine x.line bytes).wakeLine x.line).send x.dst x.src x.line (.uack ack))
    | _ => none

/-- INV: the core's copy goes, and it answers whether or not it held one (R110, R113, R373). -/
def execInv (m : Nat) (s : State) : Host.Outcome State Fault Refusal :=
  s.receive m fun s x => match x.body with
    | .inv ack => some ((s.modCore x.dst.core? fun c => c.dropCopy x.line).send x.dst x.src x.line (.iack ack))
    | _ => none

/-- RESTEER: the issuer's image takes the home's T if that lies further on, and the piece goes out again (R65). -/
def Xlat.steerTo (x : Xlat) (t : Nat) : Xlat :=
  { x with tideLine := if x.pa < x.oldpa then max x.tideLine t else min x.tideLine t }

def Piece.resteer (p : Piece) (t : Nat) : Piece :=
  match p.xl with
  | none => p
  | some x =>
    let x := x.steerTo t
    let a := x.addr p.off
    { p with xl := some x, line := lineOf a, lo := a % 128, st := .wait }

/-- The image of a descriptor in a range buffer takes the home's T. -/
def RBuf.steerTo (r : RBuf) (t : Nat) : RBuf :=
  let d := r.desc
  if d.moving then
    { r with d1 := setBits r.d1 0 32 (if d.pa < d.oldpa then max d.tide t else min d.tide t) }
  else r

/-- The miss entry that a READ without a flight fills. -/
def State.missOf (s : State) (core line key : Nat) : Option Miss :=
  (s.core core).misses.find? fun e => e.line == line && e.key == key && e.fill.isNone

/-- The core of the agent that sent a request. -/
def Req.core (r : Req) : Nat := r.agent - 324

def execResteer (m : Nat) (s : State) : Host.Outcome State Fault Refusal :=
  s.receive m fun s x => match x.body with
    | .resteer r t =>
      let s := s.modCore r.core fun c => { c with ranges := c.ranges.map fun (e : RBuf) =>
        if e.ctx = r.ctx && e.index = r.index then e.steerTo t else e }
      match r.flight with
      | some _ => some ((s.modReq x.line r fun p => p.resteer t).pump)
      | none =>
        match s.missOf x.dst.core? x.line r.key with
        | none => some s
        | some e => some (((s.modMiss e fun p => p.resteer t).dropMiss x.dst.core? e).pump)
    | _ => none

/-- STRANDED: the slide was abandoned, and the access faults (R74). -/
def State.strand (s : State) (id : Nat) (bad : Piece → Bool) : State :=
  match s.flight? id with
  | none => s
  | some f =>
    let ps := f.pieces.filter bad
    match lowLane (maskOf fun l => ps.any fun p => p.lane == l) with
    | none => s
    | some l =>
      s.accessFault f ⟨strandedFault.1, strandedFault.2, ((ps.find? fun p => p.lane == l).map Piece.va).getD 0,
        maskOf fun l => ps.any fun p => p.lane == l, f.pc⟩

def execStranded (m : Nat) (s : State) : Host.Outcome State Fault Refusal :=
  s.receive m fun s x => match x.body with
    | .stranded r =>
      match r.flight with
      | some id => some ((s.strand id fun p => p.inReq x.line r).pump)
      | none =>
        match s.missOf x.dst.core? x.line r.key with
        | none => some s
        | some e => some (((e.flights.foldl (fun (s : State) (id : Nat) => s.strand id fun p => p.inReq x.line r)
            s).dropMiss x.dst.core? e).pump)
    | _ => none

/-! Acknowledgements and notices at homes -/

def execUack (m : Nat) (s : State) : Host.Outcome State Fault Refusal :=
  s.receive m fun s x => match x.body with
    | .uack ack => some (s.acked ack).pump
    | _ => none

def execIack (m : Nat) (s : State) : Host.Outcome State Fault Refusal :=
  s.receive m fun s x => match x.body with
    | .iack ack => some (s.acked ack).pump
    | _ => none

/-- EVN removes a pointer (R108); in coarse form and while a round, a gather or a settle of the line is in flight it is
ignored (R109, R114). -/
def execEvn (m : Nat) (s : State) : Host.Outcome State Fault Refusal :=
  s.receive m fun s x => match x.body with
    | .evn =>
      some (if (s.net.acks.any fun a => a.line == x.line && (a.round || a.gather || a.settle)) || (s.settle? x.line).isSome
        then s else s.modDir x.line fun d => d.drop x.src.core?)
    | _ => none

/-! Update-only state (R117, R118) -/

/-- UGRANT: the L1 holds a delta line with the reduction that asked for it. -/
def execUgrant (m : Nat) (s : State) : Host.Outcome State Fault Refusal :=
  s.receive m fun s x => match x.body with
    | .ugrant r op ty ws =>
      let core := x.dst.core?
      let n : DLine := ⟨x.line, r.key, r.fn, op, ty, ws, 0⟩
      let s := s.modReq x.line r Piece.finish
      some ((match (s.core core).delta? x.line r.key with
        | some d => s.addDelta core d n
        | none => (s.l1Room core x.line).modCore core fun c =>
          { c with tick := c.tick + 1, deltas := c.deltas ++ [{ n with used := c.tick + 1 }] }).pump)
    | _ => none

/-- GATHER: a holder answers with its touched words and drops the delta line, or with NODELTA. -/
def execGather (m : Nat) (s : State) : Host.Outcome State Fault Refusal :=
  s.receive m fun s x => match x.body with
    | .gather ack =>
      match (s.core x.dst.core?).deltas.find? fun d => d.line == x.line with
      | some d => some ((s.modCore x.dst.core? fun c => { c with deltas := c.deltas.erase d }).send x.dst x.src x.line
          (.delta ack d.op d.ty d.words))
      | none => some (s.send x.dst x.src x.line (.nodelta ack))
    | _ => none

/-- Deltas of a line as they reach its home; a discard under way drops them (R95). -/
def State.deltaHome (s : State) (line : Nat) (op : BitVec 3) (ty : Ty) (ws : List (Nat × List Byte)) : State :=
  if s.net.settles.any fun x => x.line == line && x.drop then s
  else match s.l2? line with
  | some x => (s.combine ⟨line, x.key, x.owner, op, ty, ws, 0⟩).changed line
  | none => s

/-- DELTA: combined in the order of arrival, with the operation's own rounding (R118). -/
def execDelta (m : Nat) (s : State) : Host.Outcome State Fault Refusal :=
  s.receive m fun s x => match x.body with
    | .delta ack op ty ws => some ((s.deltaHome x.line op ty ws).acked ack)
    | _ => none

def execNodelta (m : Nat) (s : State) : Host.Outcome State Fault Refusal :=
  s.receive m fun s x => match x.body with
    | .nodelta ack => some (s.acked ack)
    | _ => none

def execDwb (m : Nat) (s : State) : Host.Outcome State Fault Refusal :=
  s.receive m fun s x => match x.body with
    | .dwb op ty ws => some (s.deltaHome x.line op ty ws)
    | _ => none

/-! RETRY (R115) -/

/-- RETRY reaches the requester, which will reissue the request after 16 cycles. -/
def execRetry (m : Nat) (s : State) : Host.Outcome State Fault Refusal :=
  s.receive m fun s x => match x.body with
    | .retry _ => some s
    | _ => none

/-- The bounced request waits at its source for a gateway (R92). -/
def State.retryGated (s : State) (x : Msg) : Bool :=
  x.body.req?.any fun r => s.gate r.fn x.src.die (s.homeNode x.line).die

/-- RETRY_REISSUE: the bounced request of number r goes out again with its number and its first age stamp, once its RETRY has
arrived and a gateway lets it pass; the oldest of its sender to the line first. The place that an agent asked for is taken
once the queue has room. -/
def execRetryReissue (r : Nat) (s : State) : Host.Outcome State Fault Refusal :=
  .next (match s.net.retries.find? fun x => x.id == r with
    | none => s
    | some x =>
      if s.net.msgs.any (fun y => y.body == .retry r) ||
          (s.net.retries.find? fun y => y.src == x.src && y.line == x.line).any (fun y => y.id != r) ||
          s.retryGated x then s
      else
        let t := { s with net := { s.net with retries := s.net.retries.filter fun (y : Msg) => y.id != r } }
        match x.body with
        | .claim _ => if s.queueRoom x.line then { t with net := { t.net with forwards := t.net.forwards ++ [x] } } else s
        | _ => { t with net := { t.net with msgs := t.net.msgs ++ [x] } })

/-! Memory controllers (R86, R93, R94) -/

/-- The request may not overtake an older one of its line. -/
def McReq.free (reqs : List McReq) (q : McReq) : Bool := (reqs.find? fun x => x.line == q.line) == some q

/-- A function's next request of a bank: a row hit first, otherwise the oldest. Writes wait while the mirror log of the
channel's training is full (R421). -/
def Bank.pick (b : Bank) (full : Bool) (fn : Nat) : Option McReq :=
  let qs := b.reqs.filter fun q => q.fn == fn && q.free b.reqs && !(full && q.write && !q.dropped)
  match qs.find? fun q => some q.row == b.openRow with
  | some q => some q
  | none => qs.head?

/-- The next request of a bank: the functions in turn, those held left out. -/
def Bank.next (b : Bank) (full : Bool) : Option McReq :=
  (List.range 64).findSome? fun k =>
    let fn := (b.turn + 1 + k) % 64
    if b.held.any fun h => h.1 == fn then none else b.pick full fn

/-- Lines of a mirror log of 16 MiB (R421). -/
def mirrorCap : Nat := 131072

/-- The mirror log of a training channel is full. -/
def State.mirrorFull (s : State) (chan : Nat) : Bool :=
  (tget? s.lines.training chan).any fun t => decide (mirrorCap ≤ t.2.length)

def mirrorLine (line : Nat) (t : Nat × List Nat) : Nat × List Nat :=
  if t.2.contains line then t else (t.1, line :: t.2)

/-- A write to a training channel also goes to its mirror log. -/
def State.mirror (s : State) (chan line : Nat) : State :=
  { s with lines := { s.lines with training := tmod s.lines.training chan (mirrorLine line) } }

/-- MEMORY_REQUEST_ISSUE: a write-back that a `discard` dropped is skipped (R95); an activation that brings a row to
1,024 refreshes its neighbours and holds the function's queue of the bank (R94). R401 leaves DETAIL of the event to its
type; the model packs stack, pseudo-channel and bank into it (log entry 99). -/
def execMemoryRequestIssue (chan bank : Nat) (s : State) : Host.Outcome State Fault Refusal :=
  let k := chan * 64 + bank
  .next (match tget? s.lines.banks k with
    | none => s
    | some b =>
      match b.next (s.mirrorFull chan) with
      | none => s
      | some q =>
        let act := !q.dropped && b.openRow != some q.row
        let n := tget b.counts q.row 0 + (if act then 1 else 0)
        let hot := act && n == 1024
        let b : Bank :=
          { b with
            reqs := b.reqs.erase q, turn := q.fn, openRow := if q.dropped then b.openRow else some q.row
            counts := if act then tset b.counts q.row n else b.counts
            held := if hot then b.held ++ [(q.fn, q.row)] else b.held }
        let s := { s with lines := { s.lines with
          banks := tset s.lines.banks k b
          fills := if q.write then s.lines.fills else s.lines.fills ++ [q.line] } }
        let s := if q.write && !q.dropped then s.mirror chan q.line else s
        let s := if hot then s.logEvent 0x07 q.fn 0xFF 0xFFFF 0
            (BitVec.ofNat 64 (chan / 64 * 65536 + chan % 64 * 256 + bank)) else s
        (s.closeHome (s.homeOf (q.line * 128))).drainHome (s.homeOf (q.line * 128)))

/-- HOT_ROW_HOLD_END: 2 µs after the neighbour refresh, the function's queue is served again and the row's count
returns to 0. -/
def execHotRowHoldEnd (chan bank fn : Nat) (s : State) : Host.Outcome State Fault Refusal :=
  .next { s with lines := { s.lines with banks := tmod s.lines.banks (chan * 64 + bank) fun b =>
    { b with
      held := b.held.filter fun h => h.1 != fn
      counts := b.counts.filter fun c => !(b.held.contains (fn, c.1)) } } }

/-- REFRESH_WINDOW_END: after 32 ms the counts of a bank start again. -/
def execRefreshWindowEnd (chan bank : Nat) (s : State) : Host.Outcome State Fault Refusal :=
  .next { s with lines := { s.lines with banks := tmod s.lines.banks (chan * 64 + bank) fun b => { b with counts := [] } } }

/-- MEMORY_FILL: a line's fill returns, and what waited for it goes on (R86, R115). -/
def execMemoryFill (line : Nat) (s : State) : Host.Outcome State Fault Refusal :=
  .next (if s.lines.fills.contains line then
    ({ s with lines := { s.lines with fills := s.lines.fills.erase line } } : State).close line
  else s)

end Sys2Proof.Machine
end

