-- ==== Sys2Proof/Machine/Integer.lean ====
section
/-! DEFINITION. Integer arithmetic and logic, comparison, selection, predicate logic, `lea.priv` and the special
registers (R26 to R29, R264 to R274). -/

namespace Sys2Proof.Machine

/-! Element functions (R264 to R270): operands and results as numbers below 2^n -/

/-- Clamps to the range of a type (R265). -/
def clampTo (t : Ty) (z : Int) : Nat :=
  let n := Ty.ibits t
  let lo : Int := if Ty.signed t then -((2 ^ (n - 1) : Nat) : Int) else 0
  let hi : Int := if Ty.signed t then ((2 ^ (n - 1) : Nat) : Int) - 1 else ((2 ^ n : Nat) : Int) - 1
  ofInt n (max lo (min hi z))

/-- Wraps, or clamps under `.sat`. -/
def wrapSat (t : Ty) (sat : Bool) (z : Int) : Nat := if sat then clampTo t z else ofInt (Ty.ibits t) z

def intAdd (t : Ty) (sat : Bool) (x y : Nat) : Nat := wrapSat t sat (Ty.int t x + Ty.int t y)
def intSub (t : Ty) (sat : Bool) (x y : Nat) : Nat := wrapSat t sat (Ty.int t x - Ty.int t y)
def intMul (t : Ty) (x y : Nat) : Nat := ofInt (Ty.ibits t) (Ty.int t x * Ty.int t y)
def intMulhi (t : Ty) (x y : Nat) : Nat := ofInt (Ty.ibits t) (Ty.int t x * Ty.int t y / ((2 ^ Ty.ibits t : Nat) : Int))
def intMad (t : Ty) (x y z : Nat) : Nat := ofInt (Ty.ibits t) (Ty.int t x * Ty.int t y + Ty.int t z)
def intDiv (t : Ty) (x y : Nat) : Nat :=
  if Ty.int t y = 0 then 2 ^ Ty.ibits t - 1 else ofInt (Ty.ibits t) (Int.tdiv (Ty.int t x) (Ty.int t y))
def intRem (t : Ty) (x y : Nat) : Nat :=
  if Ty.int t y = 0 then ofInt (Ty.ibits t) (Ty.int t x)
  else ofInt (Ty.ibits t) (Int.tmod (Ty.int t x) (Ty.int t y))
def intMin (t : Ty) (x y : Nat) : Nat := ofInt (Ty.ibits t) (min (Ty.int t x) (Ty.int t y))
def intMax (t : Ty) (x y : Nat) : Nat := ofInt (Ty.ibits t) (max (Ty.int t x) (Ty.int t y))
def intAbs (t : Ty) (sat : Bool) (x : Nat) : Nat := wrapSat t sat (Ty.int t x).natAbs
def intNeg (t : Ty) (sat : Bool) (x : Nat) : Nat := wrapSat t sat (-(Ty.int t x))
def intSad (t : Ty) (x y z : Nat) : Nat :=
  ofInt (Ty.ibits t) (((Ty.int t x - Ty.int t y).natAbs : Int) + Ty.int t z)
def intNot (t : Ty) (x : Nat) : Nat := 2 ^ Ty.ibits t - 1 - x % 2 ^ Ty.ibits t

/-- Number of 1 bits among the low n. -/
def popcount (n x : Nat) : Nat := ((List.range n).filter fun i => x / 2 ^ i % 2 == 1).length
/-- Leading 0 bits of n. -/
def leadingZeros (n x : Nat) : Nat := n - bitLen (x % 2 ^ n)
/-- The n bits reversed. -/
def bitReverse (n x : Nat) : Nat :=
  (List.range n).foldl (fun r i => 2 * r + x / 2 ^ i % 2) 0

def shiftLeft (n x c : Nat) : Nat := if n ≤ c then 0 else x * 2 ^ c % 2 ^ n
def shiftRight (t : Ty) (x c : Nat) : Nat :=
  let n := Ty.ibits t
  ofInt n (Ty.int t x / ((2 ^ (min c n) : Nat) : Int))
def rotateLeft (n x c : Nat) : Nat := (x * 2 ^ (c % n) + x % 2 ^ n / 2 ^ (n - c % n)) % 2 ^ n

/-- The field of a descriptor: position, and length cut at the top (R267). -/
def fieldBits (n d : Nat) : Nat × Nat :=
  let q := d % 256
  let k := d / 256 % 256
  (q, min (q + k) n - q)

def bitExtract (t : Ty) (x d : Nat) : Nat :=
  let n := Ty.ibits t
  let (q, k) := fieldBits n d
  if d / 256 % 256 = 0 || n ≤ q then 0
  else
    let v := x % 2 ^ n / 2 ^ q % 2 ^ k
    if Ty.signed t then ofInt n (toInt k v) else v

def bitInsert (n x y d : Nat) : Nat :=
  let (q, k) := fieldBits n d
  if d / 256 % 256 = 0 || n ≤ q then x % 2 ^ n
  else x % 2 ^ q + y % 2 ^ k * 2 ^ q + x % 2 ^ n / 2 ^ (q + k) * 2 ^ (q + k)

/-- Conditions of R270; codes above 5 do not occur. -/
def condInt (t : Ty) (cc : BitVec 3) (x y : Nat) : Bool :=
  let a := Ty.int t x
  let b := Ty.int t y
  match cc.toNat with
  | 0 => a == b | 1 => a != b | 2 => decide (a < b) | 3 => decide (a ≤ b) | 4 => decide (b < a) | _ => decide (b ≤ a)

/-- An immediate sign-extended to n bits (R268). -/
def immOf (t : Ty) (imm : BitVec 26) : Nat := ofInt (Ty.ibits t) imm.toInt

/-! Words of one, two and three sources -/

def State.int1 (s : State) (i : Issue) (h : Head) (t : Ty) (d a : Opd) (f : Nat → Nat) : State :=
  s.lanewise i h [a] d (Ty.w t) fun _ rd l => extendTo i.ref.slice t (f (rd 0 l (Ty.w t)).toNat)

def State.int2 (s : State) (i : Issue) (h : Head) (t : Ty) (d a b : Opd) (f : Nat → Nat → Nat) : State :=
  s.lanewise i h [a, b] d (Ty.w t) fun _ rd l =>
    extendTo i.ref.slice t (f (rd 0 l (Ty.w t)).toNat (rd 1 l (Ty.w t)).toNat)

def State.int3 (s : State) (i : Issue) (h : Head) (t : Ty) (d a b c : Opd) (f : Nat → Nat → Nat → Nat) : State :=
  s.lanewise i h [a, b, c] d (Ty.w t) fun _ rd l =>
    extendTo i.ref.slice t (f (rd 0 l (Ty.w t)).toNat (rd 1 l (Ty.w t)).toNat (rd 2 l (Ty.w t)).toNat)

/-! Meanings -/

def execAdd (h : Head) (t : Ty) (sat : Bool) (d a b : Opd) (s : State) : Host.Outcome State Fault Refusal :=
  word s fun i => s.int2 i h t d a b (intAdd t sat)

def execAddImm (h : Head) (t : Ty) (sat : Bool) (d a : Opd) (imm : BitVec 26) (s : State) :
    Host.Outcome State Fault Refusal :=
  word s fun i => s.int1 i h t d a fun x => intAdd t sat x (immOf t imm)

def execSub (h : Head) (t : Ty) (sat : Bool) (d a b : Opd) (s : State) : Host.Outcome State Fault Refusal :=
  word s fun i => s.int2 i h t d a b (intSub t sat)

def execMul (h : Head) (t : Ty) (d a b : Opd) (s : State) : Host.Outcome State Fault Refusal :=
  word s fun i => s.int2 i h t d a b (intMul t)

def execMulImm (h : Head) (t : Ty) (d a : Opd) (imm : BitVec 26) (s : State) : Host.Outcome State Fault Refusal :=
  word s fun i => s.int1 i h t d a fun x => intMul t x (immOf t imm)

def execMulhi (h : Head) (t : Ty) (d a b : Opd) (s : State) : Host.Outcome State Fault Refusal :=
  word s fun i => s.int2 i h t d a b (intMulhi t)

def execMad (h : Head) (t : Ty) (d a b c : Opd) (s : State) : Host.Outcome State Fault Refusal :=
  word s fun i => s.int3 i h t d a b c (intMad t)

def execDiv (h : Head) (t : Ty) (d a b : Opd) (s : State) : Host.Outcome State Fault Refusal :=
  word s fun i => s.int2 i h t d a b (intDiv t)

def execRem (h : Head) (t : Ty) (d a b : Opd) (s : State) : Host.Outcome State Fault Refusal :=
  word s fun i => s.int2 i h t d a b (intRem t)

def execMin (h : Head) (t : Ty) (d a b : Opd) (s : State) : Host.Outcome State Fault Refusal :=
  word s fun i => s.int2 i h t d a b (intMin t)

def execMax (h : Head) (t : Ty) (d a b : Opd) (s : State) : Host.Outcome State Fault Refusal :=
  word s fun i => s.int2 i h t d a b (intMax t)

def execAbs (h : Head) (t : Ty) (sat : Bool) (d a : Opd) (s : State) : Host.Outcome State Fault Refusal :=
  word s fun i => s.int1 i h t d a (intAbs t sat)

def execNeg (h : Head) (t : Ty) (sat : Bool) (d a : Opd) (s : State) : Host.Outcome State Fault Refusal :=
  word s fun i => s.int1 i h t d a (intNeg t sat)

def execSad (h : Head) (t : Ty) (d a b c : Opd) (s : State) : Host.Outcome State Fault Refusal :=
  word s fun i => s.int3 i h t d a b c (intSad t)

/-- `lea` (R269): the type describes the index; the sum is always of 64 bits. -/
def execLea (h : Head) (t : Ty) (sh : BitVec 3) (d a b : Opd) (s : State) : Host.Outcome State Fault Refusal :=
  word s fun i => s.lanewise i h [a, b] d 64 fun _ rd l =>
    rd 0 l 64 + extendTo .a t (rd 1 l (Ty.w t)).toNat <<< sh.toNat

def execMovImm (h : Head) (t : Ty) (d : Opd) (imm : BitVec 26) (s : State) : Host.Outcome State Fault Refusal :=
  word s fun i => s.lanewise i h [] d (Ty.w t) fun _ _ _ => extendTo i.ref.slice t (immOf t imm)

def execMov (h : Head) (t : Ty) (d a : Opd) (s : State) : Host.Outcome State Fault Refusal :=
  word s fun i => s.int1 i h t d a fun x => x

/-- `movhi` (R268). -/
def movhiOf (t : Ty) (hi52 : Bool) (imm : BitVec 26) (x : Nat) : Nat :=
  if hi52 then x % 2 ^ 52 + imm.toNat % 2 ^ 12 * 2 ^ 52
  else if Ty.w t = 64 then x % 2 ^ 26 + imm.toNat * 2 ^ 26
  else x % 2 ^ 26 + imm.toNat % 2 ^ 6 * 2 ^ 26

def execMovhi (h : Head) (t : Ty) (hi52 : Bool) (d a : Opd) (imm : BitVec 26) (s : State) :
    Host.Outcome State Fault Refusal :=
  word s fun i => s.int1 i h t d a (movhiOf t hi52 imm)

def execAnd (h : Head) (t : Ty) (d a b : Opd) (s : State) : Host.Outcome State Fault Refusal :=
  word s fun i => s.int2 i h t d a b Nat.land

def execAndImm (h : Head) (t : Ty) (d a : Opd) (imm : BitVec 26) (s : State) : Host.Outcome State Fault Refusal :=
  word s fun i => s.int1 i h t d a fun x => Nat.land x (immOf t imm)

def execOr (h : Head) (t : Ty) (d a b : Opd) (s : State) : Host.Outcome State Fault Refusal :=
  word s fun i => s.int2 i h t d a b Nat.lor

def execOrImm (h : Head) (t : Ty) (d a : Opd) (imm : BitVec 26) (s : State) : Host.Outcome State Fault Refusal :=
  word s fun i => s.int1 i h t d a fun x => Nat.lor x (immOf t imm)

def execXor (h : Head) (t : Ty) (d a b : Opd) (s : State) : Host.Outcome State Fault Refusal :=
  word s fun i => s.int2 i h t d a b Nat.xor

def execXorImm (h : Head) (t : Ty) (d a : Opd) (imm : BitVec 26) (s : State) : Host.Outcome State Fault Refusal :=
  word s fun i => s.int1 i h t d a fun x => Nat.xor x (immOf t imm)

def execNot (h : Head) (t : Ty) (d a : Opd) (s : State) : Host.Outcome State Fault Refusal :=
  word s fun i => s.int1 i h t d a (intNot t)

def execShl (h : Head) (t : Ty) (d a b : Opd) (s : State) : Host.Outcome State Fault Refusal :=
  word s fun i => s.int2 i h t d a b (shiftLeft (Ty.ibits t))

def execShlImm (h : Head) (t : Ty) (d a : Opd) (imm : BitVec 26) (s : State) : Host.Outcome State Fault Refusal :=
  word s fun i => s.int1 i h t d a fun x => shiftLeft (Ty.ibits t) x imm.toNat

def execShr (h : Head) (t : Ty) (d a b : Opd) (s : State) : Host.Outcome State Fault Refusal :=
  word s fun i => s.int2 i h t d a b (shiftRight t)

def execShrImm (h : Head) (t : Ty) (d a : Opd) (imm : BitVec 26) (s : State) : Host.Outcome State Fault Refusal :=
  word s fun i => s.int1 i h t d a fun x => shiftRight t x imm.toNat

def execRot (h : Head) (t : Ty) (d a b : Opd) (s : State) : Host.Outcome State Fault Refusal :=
  word s fun i => s.int2 i h t d a b (rotateLeft (Ty.ibits t))

def execPopc (h : Head) (t : Ty) (d a : Opd) (s : State) : Host.Outcome State Fault Refusal :=
  word s fun i => s.int1 i h t d a (popcount (Ty.ibits t))

def execClz (h : Head) (t : Ty) (d a : Opd) (s : State) : Host.Outcome State Fault Refusal :=
  word s fun i => s.int1 i h t d a (leadingZeros (Ty.ibits t))

def execBrev (h : Head) (t : Ty) (d a : Opd) (s : State) : Host.Outcome State Fault Refusal :=
  word s fun i => s.int1 i h t d a (bitReverse (Ty.ibits t))

def execBfe (h : Head) (t : Ty) (d a b : Opd) (s : State) : Host.Outcome State Fault Refusal :=
  word s fun i => s.int2 i h t d a b (bitExtract t)

def execBfi (h : Head) (t : Ty) (d a b c : Opd) (s : State) : Host.Outcome State Fault Refusal :=
  word s fun i => s.int3 i h t d a b c (bitInsert (Ty.ibits t))

def execCmp (h : Head) (t : Ty) (cc : BitVec 3) (dp : BitVec 3) (a b : Opd) (s : State) :
    Host.Outcome State Fault Refusal :=
  word s fun i => s.lanewisePred i h [a, b] dp fun _ rd l =>
    condInt t cc (rd 0 l (Ty.w t)).toNat (rd 1 l (Ty.w t)).toNat

def execCmpImm (h : Head) (t : Ty) (cc : BitVec 3) (dp : BitVec 3) (a : Opd) (imm : BitVec 26) (s : State) :
    Host.Outcome State Fault Refusal :=
  word s fun i => s.lanewisePred i h [a] dp fun _ rd l => condInt t cc (rd 0 l (Ty.w t)).toNat (immOf t imm)

def execSel (h : Head) (t : Ty) (d a b : Opd) (cp : BitVec 3) (s : State) : Host.Outcome State Fault Refusal :=
  word s fun i => s.lanewise i h [a, b] d (Ty.w t) fun _ rd l =>
    extendTo i.ref.slice t (rd (if i.sl.pred cp.toNat l then 0 else 1) l (Ty.w t)).toNat

def execPand (h : Head) (dp ap bp : BitVec 3) (s : State) : Host.Outcome State Fault Refusal :=
  word s fun i => s.lanewisePred i h [] dp fun _ _ l => i.sl.pred ap.toNat l && i.sl.pred bp.toNat l

def execPor (h : Head) (dp ap bp : BitVec 3) (s : State) : Host.Outcome State Fault Refusal :=
  word s fun i => s.lanewisePred i h [] dp fun _ _ l => i.sl.pred ap.toNat l || i.sl.pred bp.toNat l

def execPxor (h : Head) (dp ap bp : BitVec 3) (s : State) : Host.Outcome State Fault Refusal :=
  word s fun i => s.lanewisePred i h [] dp fun _ _ l => i.sl.pred ap.toNat l != i.sl.pred bp.toNat l

def execPnot (h : Head) (dp ap : BitVec 3) (s : State) : Host.Outcome State Fault Refusal :=
  word s fun i => s.lanewisePred i h [] dp fun _ _ l => !i.sl.pred ap.toNat l

/-! `lea.priv` (R26 to R29) -/

/-- A trap of a word in some lanes, with the address of the lowest. -/
def Trap.ofLanes (i : Issue) (f : XFault) (lanes : Mask) (addr : Word) : Trap :=
  { Trap.ofWord i f.1 f.2 0 with lanes := lanes, addr := addr }

/-- The alias of a private pointer for a thread number (R24, R29); none when it faults. -/
def Team.alias_ (tm : Team) (x : Word) (t : Nat) : Option Word :=
  if bits x 60 4 != 0xA || decide (tm.privSize ≤ bits x 0 60) then none
  else some (tm.privBase + BitVec.ofNat 64 (t * tm.privSize + bits x 0 60))

/-- `lea.priv` in either form: the thread number of each lane, none when it is out of range. -/
def State.leaPriv (s : State) (i : Issue) (h : Head) (d a : Opd) (thread : Nat → Option Nat) : State :=
  let m := i.active h.guard
  if m = 0 then s.advance i h.mark
  else
    let val (l : Nat) : Option Word := (thread l).bind fun t => i.tm.alias_ (i.sl.read .a l 64 a) t
    let bad := maskOf fun l => m.getLsbD l && (val l).isNone
    match lowLane bad with
    | some l => s.raiseAt i (Trap.ofLanes i privFault bad (i.sl.read .a l 64 a))
    | none => (s.deliver i m d 64 (laneVals m fun l => (val l).getD 0)).advance i h.mark

def execLeaPriv (h : Head) (d a b : Opd) (s : State) : Host.Outcome State Fault Refusal :=
  word s fun i => s.leaPriv i h d a fun l =>
    let t := (i.sl.read .a l 64 b).toNat
    if t < 32 * i.tm.nwarps * (i.tm.gx * i.tm.gy * i.tm.gz) then some t else none

def execLeaPrivSelf (h : Head) (d a : Opd) (s : State) : Host.Outcome State Fault Refusal :=
  word s fun i => s.leaPriv i h d a fun l => some (i.tm.thread i.ref.warp l)

/-! Special registers (R186, R272 to R274) -/

/-- The value of a special register in a lane. -/
def State.special (s : State) (i : Issue) (lane : Nat) : SReg → Word
  | .lane => BitVec.ofNat 64 lane
  | .warp => BitVec.ofNat 64 i.ref.warp
  | .teamX => BitVec.ofNat 64 i.tm.x
  | .teamY => BitVec.ofNat 64 i.tm.y
  | .teamZ => BitVec.ofNat 64 i.tm.z
  | .stage => BitVec.ofNat 64 i.wp.stage
  | .split => BitVec.ofNat 64 i.ref.split
  | .core => BitVec.ofNat 64 i.tm.core
  | .die => BitVec.ofNat 64 (dieOf i.tm.core)
  | .quarter => BitVec.ofNat 64 i.wp.quarter
  | .deadmask => i.wp.dead.setWidth 64
  | .hb => BitVec.ofNat 64 (s.hb (dieOf i.tm.core))
  | .clk => BitVec.ofNat 64 (tget s.time.clk (dieOf i.tm.core) 0)
  | .slip => i.wp.slip.setWidth 64
  | .node => i.tm.node
  | .gridX => BitVec.ofNat 64 i.tm.gx
  | .gridY => BitVec.ofNat 64 i.tm.gy
  | .gridZ => BitVec.ofNat 64 i.tm.gz
  | .nwarp => BitVec.ofNat 64 i.tm.nwarps
  | .link => i.sp.link

/-- Width of a special register as an operand: 64 bits for the registers of that width (R272, R273). -/
def SReg.w : SReg → Nat
  | .hb | .clk | .node | .link => 64
  | _ => 32

/-- The arithmetic clock of a die has gone on by some cycles since it was last read (R186; log entry 7). -/
def State.tickClk (s : State) (die : Nat) : State :=
  ({ s with time := { s.time with
      clk := tset s.time.clk die (tget s.time.clk die 0 + 1 + Config.cycles s.agenda.free) } }).bumpFree

def execSrGet (h : Head) (d : Opd) (n : SReg) (s : State) : Host.Outcome State Fault Refusal :=
  word s fun i =>
    let s := if n = .clk then s.tickClk (dieOf i.tm.core) else s
    s.lanewise i h [] d (match i.ref.slice with | .a => 64 | .c => SReg.w n) fun _ _ l => s.special i l n

/-- A legal value of `$slip` (R196). -/
def slipOk (v : BitVec 32) : Bool :=
  v.extractLsb' 16 16 == 0 && [0, 4, 8, 12].all fun k => decide (1 ≤ bits (v.setWidth 64) k 4 ∧ bits (v.setWidth 64) k 4 ≤ 8)

/-- `sr.set` (R274): from the lowest active lane. `$slip` has 32 bits, and the spec is silent on bits 63:32 of an A-slice source:
the model takes the value as a whole, so that it is no legal one unless they are 0 (log entry 111). -/
def execSrSet (h : Head) (n : SReg) (a : Opd) (s : State) : Host.Outcome State Fault Refusal :=
  word s fun i =>
    let m := i.active h.guard
    if m = 0 then s.advance i h.mark
    else s.withSources i m [a] fun s0 s m rd =>
      match lowLane m with
      | none => s.advance i h.mark
      | some l =>
        let v := rd 0 l (match i.ref.slice with | .a => 64 | .c => SReg.w n)
        match n with
        | .slip =>
          if i.ref.slice = .a && v.extractLsb' 32 32 == 0#32 && slipOk (v.setWidth 32) then
            (s.modWarp i.ref.team i.ref.warp fun w => { w with slip := v.setWidth 32 }).advance i h.mark
          else s0.decodeTrap i 6 0x39 0
        | .link => (s.modIssuer i fun sp => { sp with link := v }).advance i h.mark
        | _ => s0.decodeTrap i 6 0x39 0

end Sys2Proof.Machine
end

