-- ==== Sys2Proof/Machine/Sync.lean ====
section
/-! DEFINITION. Fences, counters, `wait.addr`, rendezvous points, guard slots and soft interrupts (R13, R14, R319, R320,
R328 to R336). -/

namespace Sys2Proof.Machine

/-- The lowest active lane's value of source k. -/
def rdLow (rd : Rd) (m : Mask) (k w : Nat) : Word := rd k ((lowLane m).getD 0) w

/-! Error marks (R346, R388) -/

/-- The team trap of the acquire that observes an error mark: its PC and address are the command's. -/
def Trap.ofMark (i : Issue) (f : Fault40) : Trap :=
  { code := 12, sub := f.sub, addr := f.addr, lanes := 0xFFFFFFFF, warp := i.ref.warp, slice := i.ref.slice,
    engine := true, pop := false, pc := f.pc, apc := 0,
    detail := (i.sp.pc >>> 3 <<< 8) ||| BitVec.ofNat 64 f.sub, split := i.ref.split, access := none }

/-! Counters -/

/-- a is at or past b modulo 2^32. -/
def atLeast (a b : BitVec 32) : Bool := !(a - b).msb

def execWaitCnt (h : Head) (ctr : BitVec 4) (a : Option Opd) (imm : BitVec 26) (s : State) :
    Host.Outcome State Fault Refusal :=
  word s fun i =>
    let m := i.active h.guard
    if m = 0 then s.advance i h.mark
    else s.withSources i m a.toList fun s0 s m rd =>
      let base : BitVec 32 := if a.isSome then (rdLow rd m 0 32).setWidth 32 else 0
      let theta := base + imm.setWidth 32
      if !atLeast (tget i.sl.counters ctr.toNat 0) theta then s0.waitAt i (.counter ctr.toNat theta)
      else match i.sl.marks.find? fun (x : Nat × Fault40) => x.1 == ctr.toNat with
        | some x =>
          (s0.modSlice i.ref.team i.ref.warp i.ref.slice fun y => { y with marks := y.marks.erase x }).raiseAt i
            (Trap.ofMark i x.2)
        | none => s.advance i h.mark

/-! Fences -/

/-- `fence` (R133, R137, R138, R320). -/
def execFence (h : Head) (sc : Scope) (s : State) : Host.Outcome State Fault Refusal :=
  word s fun i =>
    if i.active h.guard = 0 then s.advance i h.mark
    else if !s.afterAcquires i then s.waitAt i .order
    else
      let (s, ok) := s.release i sc
      if ok then (s.fence_ i sc).advance i h.mark else s.waitAt i .order

/-! `wait.addr` (R328, R329) -/

/-- One read of a `wait.addr` pass. -/
inductive Peek where
  | wait
  | fault (f : XFault)
  | poison
  | val (v : Nat)
  deriving DecidableEq, Repr

/-- An earlier access of the stream to these bytes is not complete (R132, R134); in an SC range, any to an SC range
(R135). -/
def State.ownBefore (s : State) (i : Issue) (p : Piece) : Bool :=
  (s.earlier i).any fun e => e.walking || s.faultMeets e p ||
    e.pieces.any fun q => q.st != .done && (q.overlaps p || (p.sc && q.sc))

/-- Where a lane of `wait.addr` looks: bytes of a tidepool, an offset of a range, its fault, or nowhere yet, while a range
walk is awaited. -/
inductive Watch where
  | tide (team off : Nat)
  | range (x : Xlat) (o : Nat)
  | fault (f : XFault)
  | walk
  deriving DecidableEq, Repr

/-- The location of one lane. -/
def State.watch (s : State) (i : Issue) (lane : Nat) (v : Word) (w : Nat) : State × Watch :=
  match s.place i.ref.team i.tm i.ref.warp lane v w with
  | .fault f => (s, .fault f)
  | .tide t off => (s, if off % w != 0 then .fault alignFault else .tide t off)
  | .global g =>
    match s.lookFor i.tm.core i.tm.ctx (.word i.ref) g .rd with
    | (s, .fault f) => (s, .fault f)
    | (s, .miss) => (s, .walk)
    | (s, .hit x) => (s, if g.toNat % w != 0 then .fault alignFault else .range x (g - x.base).toNat)

/-- The locations of the lanes. -/
def State.watches (s : State) (i : Issue) (a : Opd) (w : Nat) (m : Mask) : State × List (Nat × Watch) :=
  (lanesOf m).foldl (fun (acc : State × List (Nat × Watch)) l =>
    let (s, x) := acc.1.watch i l (i.reg a l) w
    (s, acc.2 ++ [(l, x)])) (s, [])

/-- The request of a word for a line at its home. -/
def State.wordReq (s : State) (i : Issue) (x : Xlat) : Req :=
  let agent := 324 + i.tm.core
  let serial := streamSerial i.ref false
  Req.ofAgent agent serial (s.stampOf agent serial) x.key x.fn x.cache

/-- The word's requests at homes wait no longer. -/
def State.unclaimWord (s : State) (i : Issue) : State := s.unclaim (324 + i.tm.core) (streamSerial i.ref false)

/-- Reads bytes of one physical line under the word's scope: at home for .cluster and wider or in an SC range, where an
incomplete store to the line is waited for (R133); otherwise from the core's copy when it holds one, which is a use of it
(R372). -/
def State.peekLine (s : State) (i : Issue) (sc : Scope) (x : Xlat) (o pa w : Nat) : State × Peek :=
  let line := lineOf pa
  let p : Piece := ⟨0, x.base + BitVec.ofNat 64 o, 0, w, none, line, pa % 128, some x, .wait, [], false⟩
  let s := s.flushFor i.tm i.ref.team [p]
  let l1 := s.l1Core i.tm.core line
  let atHome := Scope.wide sc || x.sc
  if s.ownBefore i p || !s.flushedFor i.tm i.ref.team [p] then (s, .wait)
  else match if atHome then none else (s.core l1).l1Line? line x.key with
    | some c =>
      if s.pendingBytes l1 line [p] then (s, .wait)
      else (s.modCore l1 fun c => c.useLine line x.key, .val (leNat ((c.bytes.drop (pa % 128)).take w)))
    | none =>
      match s.ask line (s.wordReq i x) (halvesOf (pa % 128) w) false true with
      | (s, false) => (s, .wait)
      | (s, true) =>
        if atHome && s.storesOpen line then (s, .wait)
        else if (List.range w).any fun k => s.poisonedAt (pa + k) then (s, .poison)
        else let (s, b) := (s.touch line false).homeRead x.key line (pa % 128) w; (s, .val (leNat b))

/-- Bytes of a location that lie in the line of its first byte: a range of ALIGN 4 may place it across two lines. -/
def headBytes (pa w : Nat) : Nat := min w (128 - pa % 128)

/-- Reads one lane's location. -/
def State.peek (s : State) (i : Issue) (sc : Scope) (w : Nat) (at_ : Watch) : State × Peek :=
  match at_ with
  | .walk => (s, .wait)
  | .fault f => (s, .fault f)
  | .tide t off =>
    let p : Piece := ⟨0, BitVec.ofNat 64 off, 0, w, some t, off / 128, off % 128, none, .wait, [], false⟩
    (s, if s.ownBefore i p then .wait else .val (leNat (s.tideRead t off w)))
  | .range x o =>
    match s.spot x o with
    | .passing => (s, .wait)
    | .stranded => (s, .fault strandedFault)
    | .at_ pa =>
      let k := headBytes pa w
      match s.peekLine i sc x o pa k with
      | (s, .val v) =>
        if k = w then (s, .val v)
        else match s.peekLine i sc x (o + k) (pa + k) (w - k) with
          | (s, .val u) => (s, .val (v + u * 2 ^ (8 * k)))
          | r => r
      | r => r

/-- The watched lines of a pass: blocks of tidepools, or physical lines. -/
def State.watchedLines (s : State) (w : Nat) (ls : List (Nat × Watch)) : List Nat × Bool :=
  (ls.flatMap fun l => match l.2 with
    | .tide t off => [tideBlock t off]
    | .range x o =>
      let a := s.steer x.ctx x.index o (x.addr o)
      if headBytes a w = w then [lineOf a] else [lineOf a, lineOf a + 1]
    | .fault _ | .walk => [],
   ls.any fun l => match l.2 with
    | .tide .. => true
    | .range .. | .fault _ | .walk => false)

/-- Reads every active lane in turn. -/
def State.peeks (s : State) (i : Issue) (sc : Scope) (w : Nat) (ls : List (Nat × Watch)) : State × List (Nat × Peek) :=
  ls.foldl (fun (acc : State × List (Nat × Peek)) l =>
    let (s, p) := acc.1.peek i sc w l.2
    (s, acc.2 ++ [(l.1, p)])) (s, [])

/-- The trap of an access that faults in lanes at the word itself. -/
def Trap.ofFaults (i : Issue) (fs : List (Nat × XFault × Word)) : Trap :=
  match fs with
  | [] => Trap.ofWord i 0 0 0
  | (_, f, v) :: _ =>
    { Trap.ofWord i f.1 f.2 0 with addr := v, lanes := fs.foldl (fun (m : Mask) x => m ||| laneBit x.1) 0 }

/-- The end of a pass that is over: nothing of it waits any longer. -/
def State.endPass (s : State) (i : Issue) : State := (s.unclaimWord i).forget i.tm.core (.word i.ref)

/-- One pass of `wait.addr` over the lanes m. The split keeps the deadline first computed, also through a trap (R328). A pass that cannot be made yet is tried again when the stream comes to issue;
one that has found no match sleeps. -/
def State.waitAddrPass (s : State) (i : Issue) (mark : Bool) (t : Ty) (cc : BitVec 3) (sc : Scope) (dp : BitVec 3)
    (a b : Opd) (m : Mask) (deadline : Nat) : State :=
  let w := Ty.bytes t
  let s := s.modSplit i.ref fun sp => { sp with deadline := some deadline }
  let (s, ls) := s.watches i a w m
  let (lines, tide) := s.watchedLines w ls
  let wait (s : State) (again : Bool) : State := s.waitAt i (.addr sc deadline lines tide again)
  let faultsOf (l : List (Nat × Peek)) : List (Nat × XFault × Word) := l.filterMap fun v => match v.2 with
    | .fault f => some (v.1, f, i.reg a v.1)
    | .wait | .poison | .val _ => none
  let early := faultsOf (ls.filterMap fun l => match l.2 with
    | .fault f => some (l.1, .fault f)
    | .walk | .tide .. | .range .. => none)
  if ls.any fun l => l.2 == .walk then wait s true
  else if !early.isEmpty then (s.endPass i).raiseAt i (Trap.ofFaults i early)
  else
    let (s, vs) := s.peeks i sc w ls
    if !(faultsOf vs).isEmpty then (s.endPass i).raiseAt i (Trap.ofFaults i (faultsOf vs))
    else if vs.any fun v => v.2 == .wait then wait s true
    else
      let s := s.endPass i
      let died := maskOf fun l => vs.any fun v => v.1 == l && v.2 == .poison
      let ok (l : Nat) : Bool := vs.any fun v => v.1 == l && (match v.2 with
        | .val x => condInt t cc x ((i.reg b l).toNat % 2 ^ (8 * w))
        | .wait | .fault _ | .poison => false)
      let m := m &&& ~~~died
      let s := if died = 0 then s else s.kill i.ref.team i.ref.warp died
      if (lanesOf m).all ok || deadline ≤ s.hb (dieOf i.tm.core) then
        ((s.results i (predWrites dp m ok)).advance i mark).reapAll
      else (wait s false).reapAll

def execWaitAddr (h : Head) (t : Ty) (cc : BitVec 3) (sc : Scope) (dp : BitVec 3) (a b c : Opd) (s : State) :
    Host.Outcome State Fault Refusal :=
  word s fun i =>
    let m := i.active h.guard
    if m = 0 then s.advance i h.mark
    else if !s.afterAcquires i then s.waitAt i .order
    else
      let now := s.hb (dieOf i.tm.core)
      match i.sp.wait with
      | .addr _ deadline _ _ woken =>
        if woken || decide (deadline ≤ now) then s.waitAddrPass i h.mark t cc sc dp a b m deadline else s
      | _ =>
        let timeout := bits (i.reg c ((lowLane m).getD 0)) 0 32
        s.waitAddrPass i h.mark t cc sc dp a b m (i.sp.deadline.getD (now + timeout))

/-- WAIT_ADDR_WAKE: 64 ticks have passed, and the split makes another pass (R328). A change of a watched line wakes it at
once. -/
def execWaitAddrWake (st : StreamRef) (s : State) : Host.Outcome State Fault Refusal :=
  .next (s.modSplit st fun sp => match sp.wait with
    | .addr sc d ls t _ => { sp with wait := .addr sc d ls t true }
    | _ => sp)

/-! Rendezvous points -/

/-- An unmatched guarded command of the warp holds its A-slice's rendezvous instructions behind it (R14, R200). -/
def State.behindGuard (s : State) (r : StreamRef) : Bool :=
  r.slice == .a && s.engines.cmds.any fun c => c.team == r.team && c.warp == r.warp && c.verdict.isNone

/-- An `rv.*` word: the point's index is checked, and with no active lane nothing happens. -/
def State.rvWord (s : State) (i : Issue) (h : Head) (rv : BitVec 5) (k : Mask → State) : State :=
  let m := i.active h.guard
  if m = 0 then s.advance i h.mark
  else if i.tm.nrv ≤ rv.toNat then s.decodeTrap i 10 0x50 (rv.setWidth 64)
  else if s.behindGuard i.ref then s.waitAt i .behind
  else k m

/-- The operands of an `rv.*` word that name registers. -/
def ImmOr.opd {n : Nat} : ImmOr n → List Opd
  | .imm _ => []
  | .reg o => [o]

/-- The value of such an operand: the immediate, or the lowest active lane's register, source k. -/
def ImmOr.val {n : Nat} (x : ImmOr n) (rd : Rd) (m : Mask) (k : Nat) : Nat :=
  match x with
  | .imm v => v.toNat
  | .reg _ => (rdLow rd m k 32).toNat

def execRvInit (h : Head) (rv : BitVec 5) (na : ImmOr 8) (nb : ImmOr 16) (s : State) :
    Host.Outcome State Fault Refusal :=
  word s fun i => s.rvWord i h rv fun m =>
    s.withSources i m (ImmOr.opd na ++ ImmOr.opd nb) fun s0 s m rd =>
      let r := i.tm.rv rv.toNat
      let a := match na with | .imm v => v.toNat | .reg _ => ImmOr.val na rd m 0 % 64
      let b := ImmOr.val nb rd m (ImmOr.opd na).length
      let d : Word := rv.setWidth 64
      if r.init then s0.decodeTrap i 10 0x51 d
      else if (a = 0 && b = 0) || i.tm.nwarps < a then s0.decodeTrap i 10 0x52 d
      else if b < r.by0 || b < r.by1 then s0.decodeTrap i 10 0x53 d
      else (s.modTeam i.ref.team fun tm =>
        tm.setRv rv.toNat (({ tm.rv rv.toNat with init := true, ea := a, eb := b } : Rv).judge 4)).advance i h.mark

def execRvArr (h : Head) (rv : BitVec 5) (s : State) : Host.Outcome State Fault Refusal :=
  word s fun i => s.rvWord i h rv fun m =>
    match (i.tm.rv rv.toNat).arr i.ref.warp m i.wp.awaited with
    | none => s.waitAt i (.rendezvous rv.toNat none)
    | some r => (s.modTeam i.ref.team fun tm => tm.setRv rv.toNat r).advance i h.mark

/-- The oldest error mark of a phase is observed (R346). -/
def State.observeRv (s : State) (i : Issue) (rv : Nat) (n : BitVec 32) : Option State :=
  match (i.tm.rv rv).marks.find? fun (x : Nat × Fault40) => x.1 == n.toNat with
  | some x =>
    some ((s.modTeam i.ref.team fun tm => tm.setRv rv { tm.rv rv with marks := (tm.rv rv).marks.erase x }).raiseAt i
      (Trap.ofMark i x.2))
  | none => none

def execRvWait (h : Head) (rv : BitVec 5) (n : ImmOr 16) (s : State) : Host.Outcome State Fault Refusal :=
  word s fun i => s.rvWord i h rv fun m =>
    s.withSources i m (ImmOr.opd n) fun s0 s m rd =>
      let ph := BitVec.ofNat 32 (ImmOr.val n rd m 0)
      if (i.tm.rv rv.toNat).complete ph then
        match s0.observeRv i rv.toNat ph with
        | some s => s
        | none => s.advance i h.mark
      else s0.waitAt i (.rendezvous rv.toNat (some ph))

def execRvTest (h : Head) (rv : BitVec 5) (dp : BitVec 3) (n : ImmOr 16) (s : State) :
    Host.Outcome State Fault Refusal :=
  word s fun i => s.rvWord i h rv fun m =>
    s.withSources i m (ImmOr.opd n) fun s0 s m rd =>
      let ph := BitVec.ofNat 32 (ImmOr.val n rd m 0)
      let done := (i.tm.rv rv.toNat).complete ph
      match if done then s0.observeRv i rv.toNat ph else none with
      | some s => s
      | none => (s.results i (predWrites dp m fun _ => done)).advance i h.mark

/-! Guard slots -/

/-- `g.set` (R198, R199, R335). Once the A-slice has ended no further command can come, and a resolution that meets no
unmatched command is dropped as the unmatched ones were (R200). -/
def execGSet (h : Head) (slot : BitVec 4) (ap : BitVec 3) (s : State) : Host.Outcome State Fault Refusal :=
  word s fun i =>
    match lowLane (i.active h.guard) with
    | none => s.advance i h.mark
    | some l =>
      if i.wp.a.ended && (i.wp.slot slot.toNat).cmds.isEmpty then s.advance i h.mark
      else if 4 ≤ (i.wp.slot slot.toNat).res.length then s.waitAt i (.guard slot.toNat)
      else (s.resolve i.ref.team i.ref.warp slot.toNat (i.sl.pred ap.toNat l)).advance i h.mark

/-! Soft interrupts (R336) -/

/-- The OR into a context's wake word goes out as a reduction, which the issuing warp does not wait for (R336); true once it
has. The spec does not say which agent translates it: the model looks the word up in the target's table at once, past the
issuing core's range buffer and walkers (log entry 110). While the range moves the core holds the word until its block has a
place; a fault is logged and the signal lost. -/
def State.sendWake (s : State) (i : Issue) (ctx : Nat) (v : Word) : State × Bool :=
  let a := s.wakeAddr ctx
  match if bits a 56 8 != 0 then .fault windowFault else s.lookWalk ctx a .wr with
  | .fault _ | .miss => (s.orWake ctx v, true)
  | .hit x =>
    if x.align < 8 || a.toNat % 8 != 0 then (s.orWake ctx v, true)
    else if x.moving || (s.slideOf x.ctx x.index).isSome then
      match s.agentAsk (324 + i.tm.core) (streamSerial i.ref false) [s.wakeTouch ctx] with
      | (s, true) => (s.orWake ctx v, true)
      | (s, false) => (s, false)
    else
      let o := (a - x.base).toNat
      let pa := x.pa + o
      if s.gated i.tm.core (lineOf pa) x.fn then (s, false)
      else
        let r : Req := { flight := none, ctx := x.ctx, index := x.index, off := o, lo := pa % 128, moving := false, key := x.key,
                         fn := x.fn, cache := x.cache, stamp := s.stamp (dieOf i.tm.core), agent := 324 + i.tm.core }
        (s.send (.core i.tm.core) (s.homeNode (lineOf pa)) (lineOf pa)
          (.reduce r 2 .z64 [(pa % 128, leBytes 8 v.toNat)]), true)

/-- `sigq`: target 64 is the issuing context's wake word at Headland (R422). -/
def execSigq (h : Head) (a d : Opd) (s : State) : Host.Outcome State Fault Refusal :=
  word s fun i =>
    match lowLane (i.active h.guard) with
    | none => s.advance i h.mark
    | some l =>
      let t := (i.reg a l).toNat
      if 64 < t then s.decodeTrap i 1 0x09 0
      else if t != 64 && !(s.ctxExists t && s.ctxRun t && s.ctxFn t == s.ctxFn i.tm.ctx && !s.fnInReset (s.ctxFn t)) then
        s.decodeTrap i 1 0x09 0
      else if !s.afterAcquires i then s.waitAt i .order
      else
        let (s, ok) := s.release i .sys
        if !ok then s.waitAt i .order
        else
          let out : State × Bool := if t = 64 then
            ({ s with head := { s.head with
                wakes := tset s.head.wakes i.tm.ctx (tget s.head.wakes i.tm.ctx 0 ||| i.reg d l) } }, true)
            else s.sendWake i t (i.reg d l)
          match out with
          | (s, true) => (s.fence_ i .sys).advance i h.mark
          | (s, false) => s.waitAt i .order

end Sys2Proof.Machine
end

