-- ==== Sys2Proof/Machine/Fetch.lean ====
section
/-! DEFINITION. Instruction fetch and the instruction cache (R18, R37, R142, R378 to R380), and the reading of shape
records (R347). -/

namespace Sys2Proof.Machine

/-! The instruction cache -/

def Core.iline? (c : Core) (line key : Nat) : Option ILine := c.icache.find? fun x => x.line == line && x.key == key

/-- The cached line that a fetch hits: not one of what is lost, which meets poison at home (R395). -/
def State.codeLine? (s : State) (core line key : Nat) : Option ILine :=
  if s.lost line then none else (s.core core).iline? line key

/-- Notes a use of a line. -/
def Core.useILine (c : Core) (line key : Nat) : Core :=
  { c with
    tick := c.tick + 1
    icache := c.icache.map fun x => if x.line = line && x.key = key then { x with used := c.tick + 1 } else x }

/-- Installs a line in a set of 8 ways (R76); the low line bits choose the set (log entry 15). -/
def Core.iInstall (c : Core) (line key : Nat) (bytes : List Byte) : Core :=
  let l := c.icache.filter fun x => !(x.line == line && x.key == key)
  let inSet := l.filter fun x => x.line % 64 == line % 64
  let l := if inSet.length < 8 then l else
    match inSet.foldl (fun (b : Option ILine) x => match b with
      | none => some x
      | some y => if x.used < y.used then some x else some y) none with
    | some y => l.erase y
    | none => l
  { c with tick := c.tick + 1, icache := l ++ [⟨line, key, bytes, c.tick + 1⟩] }

/-- The outcome of reading code through the instruction cache. -/
inductive Code where
  | ok (bs : List Byte)
  | fault (f : XFault) (v : Word)
  | poison
  | wait
  deriving DecidableEq, Repr

/-- Who reads code: a split's fetch, or its word for a shape record. -/
structure Reader where
  core : Nat
  ctx : Nat
  ref : StreamRef
  fetch : Bool
  deriving DecidableEq, Repr

def Reader.walker (q : Reader) : Walker := if q.fetch then .fetch q.ref else .word q.ref
def Reader.serial (q : Reader) : Nat := streamSerial q.ref q.fetch
def Reader.agent (q : Reader) : Nat := 324 + q.core

/-- A line of code from its home, whose turn has come (R115, R378); a line with a poisoned half is not installed (R121). -/
def State.codeFill (s : State) (q : Reader) (line : Nat) (x : Xlat) (hs : List Bool) : State × Option (List Byte) :=
  match s.ask line (Req.ofAgent q.agent q.serial (s.stampOf q.agent q.serial) x.key x.fn x.cache) hs false true with
  | (s, false) => (s, none)
  | (s, true) =>
    let s := s.unclaim q.agent q.serial
    let whole := (s.missing line [false, true]).isEmpty && (s.hostHeld line [false, true] false).isEmpty
    let (s, bs) := (s.touch line false).homeRead x.key line 0 128
    if s.poisonOf line = 0 && whole then (s.modCore q.core fun c => c.iInstall line x.key bs, some bs) else (s, some bs)

/-- Reads code bytes: translated through the range buffer, from the instruction cache or else from home (R18). A moving
range is steered as for a load (R69), and the line it gives hits by its physical address and key (R378; log entry 109). -/
def State.code (s : State) (q : Reader) (v : Word) (n fuel : Nat) : State × Code :=
  match fuel with
  | 0 => (s, .ok [])
  | fuel + 1 =>
    if n = 0 then (s, .ok [])
    else if bits v 56 8 != 0 then (s, .fault windowFault v)
    else match s.lookFor q.core q.ctx q.walker v .ex with
      | (s, .fault f) => (s, .fault f v)
      | (s, .miss) => (s, .wait)
      | (s, .hit x) =>
        let o := (v - x.base).toNat
        match s.spot x o with
        | .passing => (s, .wait)
        | .stranded => (s, .fault strandedFault v)
        | .at_ pa =>
          let k := min n (min (128 - pa % 128) (128 - o % 128))
          let line : State × Option (List Byte) := match s.codeLine? q.core (lineOf pa) x.key with
            | some c => (s.modCore q.core fun c => c.useILine (lineOf pa) x.key, some c.bytes)
            | none => s.codeFill q (lineOf pa) x (halvesOf (pa % 128) k)
          match line with
          | (s, none) => (s, .wait)
          | (s, some bs) =>
            if (s.codeLine? q.core (lineOf pa) x.key).isNone && (List.range k).any fun j => s.poisonedAt (pa + j) then
              (s, .poison)
            else match s.code q (v + BitVec.ofNat 64 k) (n - k) fuel with
              | (s, .ok more) => (s, .ok ((bs.drop (pa % 128)).take k ++ more))
              | r => r

/-- All lanes of the issuing split meet poison and die (R121, R209). -/
def State.killSplit (s : State) (i : Issue) : State := (s.kill i.ref.team i.ref.warp i.sp.mask).reapAll

/-- A fault of a fetch is a team trap at the fetching PC. -/
def State.fetchFault (s : State) (i : Issue) (f : XFault) (v : Word) : State :=
  s.raiseAt i (Trap.ofLanes i f 0xFFFFFFFF v)

/-! Fetching words (R379) -/

/-- A split may fetch an address: one of the 16 words from its PC on, or from the target of an unguarded `br` or `call`
that it has fetched. Of the 16 words that it may hold, one place is the PC's. -/
def Split.mayFetch (sp : Split) (a : Word) : Bool :=
  let room := if a = sp.pc || sp.fetched.any fun w => w.1 == sp.pc then 16 else 15
  bits a 0 3 == 0 && decide (sp.fetched.length < room) && !(sp.fetched.any fun w => w.1 == a) &&
  (aheadOf sp.pc a || sp.fetched.any fun w => (aheadTarget w.1 w.2).any fun t => aheadOf t a)

/-- A fetched word joins the split's, which no longer waits for it. -/
def Split.fetch (sp : Split) (a w : Word) : Split :=
  { sp with
    fetched := sp.fetched ++ [(a, w)]
    wait := if a = sp.pc && sp.wait == .fetch then .none else sp.wait }

/-- INSTRUCTION_FETCH_FILL: a word is fetched, through a fill where the cache lacks it. A fault or poison at an address
that is not the PC is met when the word is to issue. -/
def execInstructionFetchFill (st : StreamRef) (addr : Word) (s : State) : Host.Outcome State Fault Refusal :=
  .next (match s.issue? st with
    | none => s
    | some i =>
      if !i.allowed || !i.sp.mayFetch addr then s
      else match s.code ⟨i.tm.core, i.tm.ctx, st, true⟩ addr 8 4 with
        | (s', .ok bs) => (s'.forget i.tm.core (.fetch st)).modSplit st fun sp => sp.fetch addr (leWord bs)
        | (s', .wait) => s'
        | (s', .poison) => if addr = i.sp.pc then s'.killSplit i else s
        | (s', .fault f v) => if addr = i.sp.pc then s'.fetchFault i f v else s)

/-! Shape records (R347 to R349) -/

/-- Address of record k of a stage. -/
def Team.shapeAddr (tm : Team) (stage k : Nat) : Word :=
  tm.entries.getD (2 * stage) 0 - BitVec.ofNat 64 (32 * (k + 1))

/-- Bytes of an element type in a shape record. -/
def shapeBytes (r : List Word) : Nat := Ty.bytes (Ty.ofCode ((r.getD 0 0).extractLsb' 56 4))

def shapeKind (r : List Word) : Nat := bits (r.getD 0 0) 60 4
def shapeCols (r : List Word) : Nat := bits (r.getD 0 0) 0 32
def shapeRows (r : List Word) : Nat := bits (r.getD 1 0) 32 32
def shapeK (r : List Word) : Nat := bits (r.getD 1 0) 0 32
def shapeOfmt (r : List Word) : Nat := bits (r.getD 0 0) 52 4

/-- Bytes of an element of a finalised tile. -/
def ofmtBytes (f : Nat) : Nat :=
  match f with
  | 1 | 2 => 2
  | 3 | 4 => 1
  | 8 => 4
  | _ => 8

/-- What a command asks of its record's kind (R341). -/
inductive ShapeUse where
  | copy | lin | mma | twin | fin
  deriving DecidableEq, Repr

/-- The limits of R349. -/
def shapeOk (u : ShapeUse) (r : List Word) : Bool :=
  let k := shapeKind r
  let cols := shapeCols r
  let rows := shapeRows r
  let z := shapeBytes r
  let ety := bits (r.getD 0 0) 56 4
  let pitch (p n : Nat) : Bool := p == 0 || decide (n ≤ p)
  let lin := k == 1 && decide (1 ≤ ety ∧ ety ≤ 12 ∧ 1 ≤ cols ∧ cols * z ≤ 2 ^ 32 - 1)
  let tile := k == 2 && decide (1 ≤ ety ∧ ety ≤ 12 ∧ 1 ≤ cols ∧ 1 ≤ rows ∧ cols * rows * z ≤ 2 ^ 32 - 1) &&
    pitch (r.getD 2 0).toNat (cols * z) && pitch (r.getD 3 0).toNat (cols * z)
  let mma (step hi : Nat) := k == 3 && rows % 16 == 0 && decide (16 ≤ rows ∧ rows ≤ 64) && shapeK r % 32 == 0 &&
    decide (32 ≤ shapeK r ∧ shapeK r ≤ 8192) && cols % step == 0 && decide (step ≤ cols ∧ cols ≤ hi)
  match u with
  | .copy => lin || tile
  | .lin => lin
  | .mma => mma 16 64
  | .twin => mma 32 128
  | .fin => k == 4 && [1, 2, 3, 4, 8, 9].contains (shapeOfmt r) && decide (1 ≤ rows) && cols % 16 == 0 &&
      decide (16 ≤ cols ∧ rows * cols / 16 ≤ 256) && pitch (r.getD 3 0).toNat (cols * ofmtBytes (shapeOfmt r))

/-- Reads and checks a command's record when its word issues, whether or not a lane is active. -/
def State.withShape (s : State) (i : Issue) (w : Word) (u : ShapeUse) (k : Nat) (go : State → List Word → State) :
    State :=
  match s.code ⟨i.tm.core, i.tm.ctx, i.ref, false⟩ (i.tm.shapeAddr i.wp.stage k) 32 6 with
  | (s, .wait) => s.waitAt i .fetch
  | (s, .poison) => s.killSplit i
  | (s, .fault f v) => s.fetchFault i f v
  | (s, .ok bs) =>
    let r := (List.range 4).map fun j => leWord ((bs.drop (8 * j)).take 8)
    let s := s.forget i.tm.core (.word i.ref)
    if shapeOk u r then go s r else s.decodeTrap i 4 0x37 w

end Sys2Proof.Machine
end

