-- ==== Sys2Proof/Machine/Commands.lean ====
section
/-! DEFINITION. Engine commands (R14, R138, R198 to R200, R340 to R346, R353): their words, the queues they wait in, and
the signal at their end. -/

namespace Sys2Proof.Machine

/-! Commands in their queues -/

def State.cmd? (s : State) (id : Nat) : Option Command := s.engines.cmds.find? fun c => c.id == id

def State.modCmd (s : State) (id : Nat) (f : Command → Command) : State :=
  { s with engines := { s.engines with cmds := s.engines.cmds.map fun (c : Command) => if c.id = id then f c else c } }

def State.dropCmd (s : State) (id : Nat) : State :=
  { s with engines := { s.engines with cmds := s.engines.cmds.filter fun (c : Command) => c.id != id } }

/-- The command goes to the matrix array. -/
def Command.matrix (c : Command) : Bool :=
  match c.kind with
  | .mma | .twin => true
  | .cp | .feed _ | .coll | .put | .get | .accZero _ | .accFin _ => false

def Command.isFeed (c : Command) : Bool :=
  match c.kind with
  | .feed _ => true
  | .mma | .twin | .cp | .coll | .put | .get | .accZero _ | .accFin _ => false

/-- Some pieces of a copy have been performed, and others have not (R350). -/
def Command.inPieces (c : Command) : Bool := !c.pieces.isEmpty

/-- The command takes bytes to or from the operand FIFOs (R352). -/
def Command.usesFifo (c : Command) : Bool := c.matrix || c.isFeed

/-- The warp's commands in one engine's queue. A command holds its place until it has signalled. -/
def State.queueOf (s : State) (t w : Nat) (matrix : Bool) : List Command :=
  s.engines.cmds.filter fun c => c.team == t && c.warp == w && c.matrix == matrix

/-! Issue (R14, R342) -/

/-- A register of the coding of DST (R340), in a lane. -/
def Issue.code6 (i : Issue) (c : BitVec 6) (l : Nat) : Word :=
  if c.toNat < 32 then i.reg (.r (c.setWidth 7)) l else i.reg (.s ((c - 32).setWidth 5)) l

/-- The next register, of an even one (R356). -/
def Issue.code6next (i : Issue) (c : BitVec 6) (l : Nat) : Word := i.code6 (c + 1) l

/-- OFS as a byte offset. -/
def cmdOffset (c : Cmd) : Word := c.ofs.signExtend 64 * 8

/-- Accesses that the command's own must follow: the stream's acquires, and what stands before a release or fence of
.team or wider (R138, R342). -/
def State.cmdAfter (s : State) (i : Issue) : List Nat :=
  ((s.earlier i).filter fun f => f.acq || f.fenced).map Flight.id

/-- A command of a word before its operands are filled in. -/
def Command.blank (s : State) (i : Issue) (lane : Nat) (kind : CmdKind) (shape : List Word) : Command :=
  { id := s.fresh, team := i.ref.team, warp := i.ref.warp, split := i.ref.split, pc := i.sp.pc, kind := kind,
    dst := 0, src := 0, src2 := 0, lane := lane, shape := shape, slot := none, verdict := some true, scope := .none,
    tkind := 0, tindex := 0, phase := 0, fmt := i.sp.fmt, st := .queued, error := none, reg := none, mask := 0,
    result := none, status := none, after := s.cmdAfter i, te := none, passed := 0, gotA := [], gotB := [], gotOdd := [], reply := none,
    stamp := s.stamp (dieOf i.tm.core), acks := [], pieces := [] }

/-- Puts a command in its queue; a guarded one meets its slot (R198, R200). -/
def State.addCommand (s : State) (i : Issue) (c : Command) : State :=
  let s := { s.bump with engines := { s.engines with cmds := s.engines.cmds ++ [c] } }
  let s := if c.tkind = 3 then s.modWarp i.ref.team i.ref.warp fun w => { w with yields := w.yields + 1 } else s
  match c.slot with
  | none => s
  | some g =>
    match i.wp.guardCommand g c.id with
    | (_, some b) =>
      (s.modWarp i.ref.team i.ref.warp fun w => (w.guardCommand g c.id).1).modCmd c.id fun x => { x with verdict := some b }
    | (_, none) =>
      if i.wp.c.ended then s.modCmd c.id fun x => { x with verdict := some false }
      else (s.modWarp i.ref.team i.ref.warp fun w => (w.guardCommand g c.id).1).modCmd c.id fun x =>
        { x with verdict := none }

/-- The waits and checks of a command at issue: its rendezvous point exists, its queue and guard slot have room, and its
phase can be credited (R330, R332, R341, R342). -/
def State.enqueue (s : State) (i : Issue) (mark : Bool) (c : Command) : State :=
  if c.tkind = 1 && decide (i.tm.nrv ≤ c.tindex) then s.decodeTrap i 10 0x50 (BitVec.ofNat 64 c.tindex)
  else if 16 ≤ (s.queueOf i.ref.team i.ref.warp c.matrix).length then s.waitAt i .engine
  else if c.slot.any fun g => decide (4 ≤ (i.wp.slot g).cmds.length) then s.waitAt i (.guard (c.slot.getD 0))
  else if c.tkind = 1 then
    match (i.tm.rv c.tindex).creditPhase i.ref.warp with
    | none => s.waitAt i (.rendezvous c.tindex none)
    | some p => (s.addCommand i { c with phase := p }).advance i mark
  else (s.addCommand i c).advance i mark

/-- A command word: its record is read and checked first; then the lowest active lane supplies the operands. -/
def State.cmdWord (s : State) (h : Head) (w : Instr) (u : ShapeUse) (c : Cmd) (kind : CmdKind)
    (build : Issue → Nat → Command → Command) : Host.Outcome State Fault Refusal :=
  word s fun i => s.withShape i (encode w) u c.shape.toNat fun s r =>
    match lowLane (i.active h.guard) with
    | none => s.advance i h.mark
    | some l => s.enqueue i h.mark (build i l { Command.blank s i l kind r with
        slot := c.slot.map BitVec.toNat, scope := c.scope, tkind := c.kind.toNat, tindex := c.index.toNat })

def execCp (h : Head) (c : Cmd) (s : State) : Host.Outcome State Fault Refusal :=
  s.cmdWord h (.cp h c) .copy c .cp fun i l x => { x with dst := i.code6 c.dst l, src := i.code6 c.src l + cmdOffset c }

def execCpFeed (h : Head) (c : Cmd) (s : State) : Host.Outcome State Fault Refusal :=
  s.cmdWord h (.cpFeed h c) .copy c (.feed c.dst.toNat) fun i l x => { x with src := i.code6 c.src l + cmdOffset c }

def execCpColl (h : Head) (c : Cmd) (s : State) : Host.Outcome State Fault Refusal :=
  s.cmdWord h (.cpColl h c) .lin c .coll fun i l x => { x with dst := i.code6 c.dst l, src := i.code6 c.src l + cmdOffset c }

def execCpPut (h : Head) (c : Cmd) (s : State) : Host.Outcome State Fault Refusal :=
  s.cmdWord h (.cpPut h c) .copy c .put fun i l x =>
    { x with dst := i.code6 c.dst l, src2 := i.code6next c.dst l, src := i.code6 c.src l + cmdOffset c }

def execCpGet (h : Head) (c : Cmd) (s : State) : Host.Outcome State Fault Refusal :=
  s.cmdWord h (.cpGet h c) .copy c .get fun i l x =>
    { x with dst := i.code6 c.dst l, src := i.code6 c.src l + cmdOffset c, src2 := i.code6next c.src l }

def execMma (h : Head) (c : Cmd) (s : State) : Host.Outcome State Fault Refusal :=
  s.cmdWord h (.mma h c) .mma c .mma fun i l x => { x with dst := i.code6 c.dst l + cmdOffset c }

def execMmaTwin (h : Head) (c : Cmd) (s : State) : Host.Outcome State Fault Refusal :=
  s.cmdWord h (.mmaTwin h c) .twin c .twin fun i l x => { x with dst := i.code6 c.dst l + cmdOffset c }

/-- `acc.zero` (R173, R362). -/
def State.accZeroWord (s : State) (h : Head) (dst : BitVec 6) (slot : Option (BitVec 4)) (kind : BitVec 2)
    (index : BitVec 5) (n : Issue → Nat → Nat) : Host.Outcome State Fault Refusal :=
  word s fun i =>
    match lowLane (i.active h.guard) with
    | none => s.advance i h.mark
    | some l => s.enqueue i h.mark { Command.blank s i l (.accZero (n i l)) [] with
        dst := i.code6 dst l, slot := slot.map BitVec.toNat, tkind := kind.toNat, tindex := index.toNat }

def execAccZeroImm (h : Head) (dst : BitVec 6) (n : BitVec 16) (slot : Option (BitVec 4)) (kind : BitVec 2)
    (index : BitVec 5) (s : State) : Host.Outcome State Fault Refusal :=
  s.accZeroWord h dst slot kind index fun _ _ => n.toNat + 1

def execAccZeroReg (h : Head) (dst src : BitVec 6) (slot : Option (BitVec 4)) (kind : BitVec 2) (index : BitVec 5)
    (s : State) : Host.Outcome State Fault Refusal :=
  s.accZeroWord h dst slot kind index fun i l =>
    let n := bits (i.code6 src l) 0 16
    if n = 0 then 65536 else n

/-- `acc.fin` (R175, R362): a command without slot or target, whose status its lanes await as an outstanding result. -/
def execAccFin (h : Head) (chk : Bool) (shape : BitVec 5) (d a b c : Opd) (s : State) :
    Host.Outcome State Fault Refusal :=
  word s fun i => s.withShape i (encode (.accFin h chk shape d a b c)) .fin shape.toNat fun s r =>
    let m := i.active h.guard
    match lowLane m with
    | none => s.advance i h.mark
    | some l =>
      if 16 ≤ (s.queueOf i.ref.team i.ref.warp false).length then s.waitAt i .engine
      else
        let f : Flight := { Flight.empty s.fresh i i.sp.mask with dst := .reg d }
        let s' : State := { s.bump with flights := s.flights ++ [f] }
        (s'.addCommand i { Command.blank s' i l (.accFin chk) (r ++ [i.reg (Opd.next c) l]) with
          dst := i.reg b l, src := i.reg a l, src2 := i.reg c l, reg := some d, mask := m, result := some f.id }).advance i
            h.mark

/-- RATE of a core's array under the power policy (R419): never below 1. -/
def State.rateOf (s : State) (core : Nat) : Nat :=
  max 1 ((16 - s.head.lowered) / (if s.head.hotStacks.contains (dieOf core / 2) then 2 else 1))

/-- The core's runs that are ready and wait for their budget. -/
def State.readyRuns (s : State) (core : Nat) : List Command :=
  s.engines.cmds.filter fun c => c.matrix && c.st == .queued && c.te.isSome &&
    (s.team? c.team).any fun (tm : Team) => tm.resident && tm.core == core

/-- A core's bucket has gained units over the free number of cycles since it was last looked at (R360). -/
def State.fillBucket (s : State) (core : Nat) : State :=
  s.modCore core fun c => { c with budget := { c.budget with
    level := min 65535 (c.budget.level + Config.cycles s.agenda.free * s.rateOf core / 16) } }

/-- A bucket lets a run of a charge start: it holds it, or is full. -/
def Budget.covers (b : Budget) (charge : Nat) : Bool := decide (charge ≤ b.level) || b.level == 65535

/-- The status of R361. WAITS counts the ready runs whose charge the bucket does not let start; a run that waits for the
array alone is not among them. -/
def State.budgetStatus (s : State) (core : Nat) : Word :=
  let b := (s.core core).budget
  let waits := (s.readyRuns core).filter fun c => !b.covers ((c.te.map Prod.snd).getD 0)
  BitVec.ofNat 64 (min b.last 65535 * 2 ^ 48 + b.lastTe % 16 * 2 ^ 44 + min b.level 65535 * 2 ^ 16 + s.rateOf core * 2 ^ 8 +
    min waits.length 255)

/-- `mma.bud` (R361): the bucket as it stands when it is read. -/
def execMmaBud (mark : Bool) (d : Opd) (s : State) : Host.Outcome State Fault Refusal :=
  word s fun i =>
    let s := (s.fillBucket i.tm.core).bumpFree
    (s.deliver i i.sp.mask d 64 (laneVals i.sp.mask fun _ => s.budgetStatus i.tm.core)).advance i mark

/-! `cp.yield` (R353) -/

/-- Key of the error marks of yield commands among a slice's marks. -/
def yieldMark : Nat := 99

/-- Splits parked in `cp.yield` restart at their continuations; the first observes an error mark (R346). -/
def State.restartYields (s : State) (t w : Nat) : State :=
  match (s.team? t).bind fun tm => tget? tm.warps w with
  | none => s
  | some wp =>
    if wp.yields != 0 then s
    else match wp.a.splits.find? fun sp => sp.cont.isSome with
      | none => s
      | some first =>
        let r : StreamRef := ⟨t, w, .a, first.num⟩
        match s.issue? r, wp.a.marks.find? fun (x : Nat × Fault40) => x.1 == yieldMark with
        | some i, some x =>
          (s.modSlice t w .a fun y => { y with marks := y.marks.erase x }).raiseAt i (Trap.ofMark i x.2)
        | _, _ =>
          (s.modSlice t w .a fun y => { y with splits := y.splits.map fun (sp : Split) => match sp.cont with
            | some a => { sp with pc := a, cont := none, wait := .none, fetched := fetchReach a sp.fetched }
            | none => sp }).settle t w .a

def execCpYield (mark : Bool) (ofs : BitVec 16) (s : State) : Host.Outcome State Fault Refusal :=
  word s fun i =>
    let target := i.sp.pc + ofs.signExtend 64 * 8
    ((s.modIssuer i fun sp => { sp with cont := some target }).advanceTo i mark i.sp.pc).restartYields i.ref.team i.ref.warp

/-! Signals (R138, R171, R199, R332, R333, R344, R346) -/

/-- The engine trap of a command (R345, R383). -/
def Trap.ofCommand (c : Command) (code sub : Nat) (addr detail : Word) : Trap :=
  { code := code, sub := sub, addr := addr, lanes := 0xFFFFFFFF, warp := c.warp, slice := .a, engine := true, pop := false,
    pc := c.pc, apc := 0, detail := detail, split := c.split, access := none }

/-- The core that a command's engine belongs to. -/
def State.cmdCore (s : State) (c : Command) : Nat := ((s.team? c.team).map Team.core).getD 0

/-- Nothing of a command waits any longer, neither for a line nor for a walk. -/
def State.unclaimCmd (s : State) (c : Command) : State :=
  (s.unclaim (1348 + s.cmdCore c) c.id).forget (s.cmdCore c) (.cmd c.id)

/-- A fault stops a command; its target is not signalled. -/
def State.engineFault (s : State) (c : Command) (f : XFault) (addr : Word) : State :=
  ((s.modCmd c.id fun x => { x with st := .faulted }).unclaimCmd c).raise c.team (Trap.ofCommand c f.1 f.2 addr 0)

/-- A command's signal: it has moved `bytes`, and leaves its queue. -/
def State.signalCommand (s : State) (c : Command) (bytes : Nat) : State :=
  let s := (s.unclaimCmd c).dropCmd c.id
  let s := match c.tkind, c.error with
    | 0, some e => (match s.team? c.team with
      | some tm => s.logEvent 0x06 (s.ctxFn tm.ctx) tm.ctx (324 + tm.core) e.addr c.pc
      | none => s)
    | 1, e => (match (s.team? c.team).map fun (tm : Team) => (tm.rv c.tindex).credit c.phase bytes with
      | some (some r) =>
        s.modTeam c.team fun tm => tm.setRv c.tindex { r with
          marks := r.marks ++ (e.map fun x => (c.phase.toNat, x)).toList }
      | some none => s.raise c.team (Trap.ofCommand c 10 0x53 0 (BitVec.ofNat 64 c.tindex))
      | none => s)
    | 2, e => s.modSlice c.team c.warp .a fun x =>
        { x.count c.tindex with marks := x.marks ++ (e.map fun y => (c.tindex, y)).toList }
    | 3, e =>
      ((s.modWarp c.team c.warp fun w => { w with yields := w.yields - 1 }).modSlice c.team c.warp .a fun x =>
        { x with marks := x.marks ++ (e.map fun y => (yieldMark, y)).toList }).restartYields c.team c.warp
    | _, _ => s
  s.reapAll

/-- Marks a command as having made its writes since the state `old`; its completion waits for their acknowledgements (R105,
R138). -/
def State.moved (s : State) (old : State) (c : Command) (bytes : Nat) (e : Option Fault40) : State :=
  s.modCmd c.id fun x => { x with st := .moved bytes, error := e, acks := x.acks ++ s.openSince old }

/-- The status of `acc.fin` becomes the result that the command's lanes await. -/
def State.finResult (s : State) (c : Command) : State :=
  match c.result, c.reg, c.status with
  | some id, some d, some status =>
    s.modFlight id fun f => { f with writes := destWrites .a d 64 (laneVals c.mask fun _ => BitVec.ofNat 64 status) }
  | _, _, _ => s

/-- COMMAND_COMPLETE: every write of the command is complete, and each of its emissions applied; its target is signalled.
The status of `acc.fin` is then there for LOAD_REPLY to write, its destination stores complete (R178). -/
def execCommandComplete (cmd : Nat) (s : State) : Host.Outcome State Fault Refusal :=
  .next (match s.cmd? cmd with
    | none => s
    | some c =>
      match c.st with
      | .moved n =>
        if (s.engines.emissions.any fun e => e.cmd == cmd) || c.acks.any s.openId then s
        else (s.finResult c).signalCommand c n
      | .queued | .running | .faulted => s)

end Sys2Proof.Machine
end

