-- ==== Sys2Proof/Machine/Control.lean ====
section
/-! DEFINITION. Control flow (R193, R194, R197, R204, R205, R253 to R263): branches and their queues, divergence,
calls and returns, the end of lanes, joins, yields, and `trap`. -/

namespace Sys2Proof.Machine

/-! Addresses (R239) -/

/-- PC + 8 times the target offset. -/
def Issue.target (i : Issue) (off : BitVec 26) : Word := i.sp.pc + off.signExtend 64 * 8

/-- PC + 8 times the reconvergence offset. -/
def Issue.recon (i : Issue) (off : BitVec 14) : Word := i.sp.pc + off.signExtend 64 * 8

/-! Drop sets (R193) -/

/-- Takes lanes out of the entries of a queue whose stamp is at most a limit. -/
def dropUpTo (limit : Nat) (q : List QEntry) (m : Mask) : List QEntry :=
  (q.map fun e => if e.stamp ≤ limit then { e with tag := e.tag &&& ~~~m } else e).filter fun e => e.tag != 0

/-- Applies one side's drop set to f0-f3 and `sa`. -/
def Warp.dropSet (w : Warp) (limit : Nat) (set : BitVec 5) (m : Mask) : Warp :=
  [0, 1, 2, 3, 4].foldl (fun (w : Warp) (q : Nat) =>
    if set.getLsbD q then w.setQueue q (dropUpTo limit (w.queue q) m) else w) w

/-- Applies the drop sets of both sides of a branch that sends the lanes t of m to its target. -/
def Warp.dropSides (w : Warp) (limit : Nat) (dropT dropF : BitVec 5) (m t : Mask) : Warp :=
  (w.dropSet limit dropT t).dropSet limit dropF (m &&& ~~~t)

/-! Divergence (R204, R205) -/

/-- The divergence of a split has no room for its entries (R204): a join entry, and a pending entry when no split
number is free. -/
def SliceState.overflows (x : SliceState) : Bool :=
  decide (32 < x.stack.length + 1 + (if x.freeNum.isNone then 1 else 0))

/-- The lanes t of the issuing split, some but not all of them, go to the target and the others fall through (R205).
Both ways inherit the outstanding results, so each parks after a marked word. -/
def State.diverge (s : State) (i : Issue) (mark : Bool) (target recon : Word) (t : Mask) : State :=
  let f := i.sp.mask &&& ~~~t
  let park := mark && s.outstanding i.ref i.sp.mask
  let s := s.counted i.ref
  (s.modSlice i.ref.team i.ref.warp i.ref.slice fun x =>
    ({ (x.modSplit i.ref.split fun sp => { sp with
        pc := i.sp.pc + 8, mask := f, recon := some recon, parked := park, wait := .none
        fetched := fetchReach (i.sp.pc + 8) (sp.fetched.filter fun (w : Word × Word) => w.1 != i.sp.pc) }) with
      stack := .join recon i.sp.mask i.sp.recon i.sp.fmt :: x.stack } : SliceState).start
        target t (some recon) i.sp.fmt i.sp.link park).settle i.ref.team i.ref.warp i.ref.slice

/-- The split's lanes t go to the target and the others to PC + 8 (R254, R255). -/
def State.branch (s : State) (i : Issue) (mark : Bool) (target recon : Word) (t : Mask) : State :=
  if t = i.sp.mask then s.advanceTo i mark target
  else if t = 0 then s.advance i mark
  else s.diverge i mark target recon t

/-- A branch that sends the lanes t to its target cannot diverge for want of a stack entry (R257). -/
def Issue.overflow (i : Issue) (t : Mask) : Bool := t != 0 && t != i.sp.mask && i.sl.overflows

/-- The lanes of the split whose guard is true. -/
def Issue.taken (i : Issue) (g : Guard) : Mask := i.active g

/-! The outcome queues (R191, R192, R197) -/

/-- The oldest outcome whose tag holds a mask. -/
def findOutcome (q : List Outcome) (m : Mask) : Option Outcome := q.find? fun e => within_ m e.tag

/-- Takes the lanes of a mask out of the oldest outcome that holds them. -/
def takeOutcome (q : List Outcome) (m : Mask) : List Outcome :=
  match q with
  | [] => []
  | x :: q =>
    if within_ m x.tag then (if x.tag &&& ~~~m = 0 then q else { x with tag := x.tag &&& ~~~m } :: q)
    else x :: takeOutcome q m

/-- The limit L of R193: one more than the latest outcome that any lane of the mask has popped, or 0. -/
def SliceState.dropLimit (x : SliceState) (m : Mask) : Nat :=
  (lanesOf m).foldl (fun n l => max n (tget x.lastPop l 0)) 0

/-- Pushes an outcome onto the branch-outcome queue; after the end of the C-slice none is recorded (R194). -/
def Warp.pushOutcome (w : Warp) (m t : Mask) : Warp :=
  if w.c.ended then w else { w with boq := w.boq ++ [⟨m, w.pushed, t⟩], pushed := w.pushed + 1 }

/-- Pushes an outcome with its limit onto the back queue; after the end of the A-slice none is recorded (R194). -/
def Warp.pushBack (w : Warp) (m t : Mask) (limit : Nat) : Warp :=
  if w.a.ended then w else { w with back := w.back ++ [⟨m, limit, t⟩] }

/-- The lanes of a C-slice split have popped branch outcome k. -/
def SliceState.popped (x : SliceState) (m : Mask) (k : Nat) : SliceState :=
  { x with lastPop := (lanesOf m).foldl (fun (t : Table Nat) l => tset t l (k + 1)) x.lastPop }

/-! Branches -/

/-- `br` (R254): unguarded it only moves the split. -/
def execBr (h : Head) (rc : BitVec 14) (tgt : BitVec 26) (s : State) : Host.Outcome State Fault Refusal :=
  word s fun i =>
    if h.guard = ⟨false, 7⟩ then s.advanceTo i h.mark (i.target tgt)
    else
      let t := i.taken h.guard
      if !i.wp.c.ended && decide (Config.boqCap ≤ i.wp.boq.length) then s.waitAt i (.push 5 false)
      else if i.overflow t then s.decodeTrap i 7 0x3A 0
      else (s.modWarp i.ref.team i.ref.warp (·.pushOutcome i.sp.mask t)).branch i h.mark (i.target tgt) (i.recon rc) t

/-- `br.q` (R255). -/
def execBrQ (mark : Bool) (dropT dropF : BitVec 5) (rc : BitVec 14) (tgt : BitVec 26) (s : State) :
    Host.Outcome State Fault Refusal :=
  word s fun i =>
    match findOutcome i.wp.boq i.sp.mask with
    | none => s.waitAt i (.pop 5 i.sp.mask)
    | some e =>
      let t := i.sp.mask &&& e.taken
      if i.overflow t then s.decodeTrap i 7 0x3A 0
      else
        (s.modWarp i.ref.team i.ref.warp fun w =>
          let w := { w with boq := takeOutcome w.boq i.sp.mask, c := w.c.popped i.sp.mask e.num }
          w.dropSides e.num dropT dropF i.sp.mask t).branch i mark (i.target tgt) (i.recon rc) t

/-- `br.b` (R254). -/
def execBrB (h : Head) (dropT dropF : BitVec 5) (rc : BitVec 14) (tgt : BitVec 26) (s : State) :
    Host.Outcome State Fault Refusal :=
  word s fun i =>
    let t := i.taken h.guard
    if !i.wp.a.ended && decide (Config.backCap ≤ i.wp.back.length) then s.waitAt i (.push 6 false)
    else if i.overflow t then s.decodeTrap i 7 0x3A 0
    else
      let limit := i.sl.dropLimit i.sp.mask
      (s.modWarp i.ref.team i.ref.warp fun w =>
        (w.pushBack i.sp.mask t limit).dropSides limit dropT dropF i.sp.mask t).branch i h.mark (i.target tgt)
        (i.recon rc) t

/-- `br.back` (R255). -/
def execBrBack (mark : Bool) (dropT dropF : BitVec 5) (rc : BitVec 14) (tgt : BitVec 26) (s : State) :
    Host.Outcome State Fault Refusal :=
  word s fun i =>
    match findOutcome i.wp.back i.sp.mask with
    | none => s.waitAt i (.pop 6 i.sp.mask)
    | some e =>
      let t := i.sp.mask &&& e.taken
      if i.overflow t then s.decodeTrap i 7 0x3A 0
      else
        (s.modWarp i.ref.team i.ref.warp fun w =>
          ({ w with back := takeOutcome w.back i.sp.mask } : Warp).dropSides e.num dropT dropF i.sp.mask t).branch i
          mark (i.target tgt) (i.recon rc) t

/-! Calls and returns (R258, R259) -/

/-- The split goes to an address, which must be a multiple of 8 (R231). -/
def State.jump (s : State) (i : Issue) (mark : Bool) (pc : Word) (link : Word) : State :=
  if bits pc 0 3 != 0 then s.raiseAt i { Trap.ofWord i 2 0x10 0 with addr := pc }
  else (s.modSplit i.ref fun sp => { sp with link := link }).advanceTo i mark pc

/-- The 64-bit value of a scalar operand. -/
def Issue.scalar64 (i : Issue) (a : Opd) : Word := i.sl.read i.ref.slice 0 64 a

def execCall (mark : Bool) (tgt : BitVec 26) (s : State) : Host.Outcome State Fault Refusal :=
  word s fun i => s.jump i mark (i.target tgt) (i.sp.pc + 8)

def execRet (mark : Bool) (s : State) : Host.Outcome State Fault Refusal :=
  word s fun i => s.jump i mark i.sp.link i.sp.link

def execBrInd (mark : Bool) (a : Opd) (s : State) : Host.Outcome State Fault Refusal :=
  word s fun i => s.jump i mark (i.scalar64 a) i.sp.link

def execCallInd (mark : Bool) (a : Opd) (s : State) : Host.Outcome State Fault Refusal :=
  word s fun i => s.jump i mark (i.scalar64 a) (i.sp.pc + 8)

/-! Ending, joining, yielding (R260 to R263) -/

/-- Consequences of ended lanes: rendezvous arrivals, the warp's and the team's retirement (R8, R194, R332). -/
def State.closed (s : State) (t w : Nat) : State := ((s.modTeam t (·.recheck w)).closeWarp t w).reapAll

/-- `exit` (R208, R260): the active lanes leave the stream and the others go on at PC + 8. -/
def execExit (h : Head) (s : State) : Host.Outcome State Fault Refusal :=
  word s fun i =>
    let m := i.active h.guard
    if m = 0 then s.advance i h.mark
    else
      let s := s.modSlice i.ref.team i.ref.warp i.ref.slice fun x =>
        ({ x with exited := x.exited ||| m } : SliceState).modSplit i.ref.split fun sp =>
          { sp with mask := sp.mask &&& ~~~m }
      let s := if m = i.sp.mask then (s.counted i.ref).settle i.ref.team i.ref.warp i.ref.slice
        else s.advance i h.mark
      s.closed i.ref.team i.ref.warp

/-- `join` (R261): the split stands at its reconvergence address; without one it is `nop`. -/
def execJoin (mark : Bool) (s : State) : Host.Outcome State Fault Refusal :=
  word s fun i => s.advanceTo i mark (i.sp.recon.getD (i.sp.pc + 8))

def execNop (mark : Bool) (s : State) : Host.Outcome State Fault Refusal := word s fun i => s.advance i mark

/-- Running splits of a slice on a quarter of a core, in a fixed order: team, warp, split. -/
def State.streamsOn (s : State) (core quarter : Nat) (sl : Slice) : List StreamRef :=
  s.teams.flatMap fun (e : Nat × Team) =>
    if e.2.core = core then
      e.2.warps.flatMap fun (w : Nat × Warp) =>
        if w.2.quarter = quarter then (w.2.slice sl).splits.map fun sp => ⟨e.1, w.1, sl, sp.num⟩ else []
    else []


/-- The next of a list after r, in round-robin order. -/
def nextAfter (l : List StreamRef) (r : StreamRef) : Option StreamRef :=
  ((l.dropWhile (· != r)).drop 1 ++ l.takeWhile (· != r)).head?

/-- The number of a quarter's favour in a slice. -/
def favourKey (quarter : Nat) : Slice → Nat
  | .a => 2 * quarter
  | .c => 2 * quarter + 1

def State.favour (s : State) (core quarter : Nat) (sl : Slice) (r : StreamRef) : State :=
  s.modCore core fun c => { c with favour := tset c.favour (favourKey quarter sl) r }

/-- The favour of a quarter passes to the next ready stream (R188, R262): in the same step, which looks whose words would
issue (`State.settleFavour`). -/
def State.passFavour (s : State) (p : Pass) : State := { s with agenda := { s.agenda with passes := s.agenda.passes ++ [p] } }

def execYield (mark : Bool) (s : State) : Host.Outcome State Fault Refusal :=
  word s fun i => (s.advance i mark).passFavour ⟨i.tm.core, i.wp.quarter, i.ref.slice, some i.ref, false⟩

def execSplitYield (mark : Bool) (s : State) : Host.Outcome State Fault Refusal :=
  word s fun i => (s.advance i mark).passFavour ⟨i.tm.core, i.wp.quarter, i.ref.slice, some i.ref, true⟩

/-- FAIRNESS_ROTATION: after 64 cycles the favour passes to the next ready stream (R188). -/
def execFairnessRotation (core quarter : Nat) (slice : Slice) (s : State) : Host.Outcome State Fault Refusal :=
  .next (if core < Config.cores && quarter < 4 then
    s.passFavour ⟨core, quarter, slice, tget? (s.core core).favour (favourKey quarter slice), false⟩
  else s)

/-- `trap` (R263). -/
def execTrap (h : Head) (code : BitVec 16) (s : State) : Host.Outcome State Fault Refusal :=
  word s fun i =>
    if i.active h.guard = 0 then s.advance i h.mark else s.decodeTrap i 9 0x48 (code.setWidth 64)

end Sys2Proof.Machine
end

