-- ==== Sys2Proof/Machine/Float.lean ====
section
/-! DEFINITION. Floating-point arithmetic of the C-slice (R297 to R301). -/

namespace Sys2Proof.Machine

/-! Element functions -/

/-- x - y. -/
def Fmt.sub (f : Fmt) (mode : Mode) (x y : Val) : Nat × Fl := f.add mode x y.neg

/-- The sign of x - y for finite or infinite values. -/
def cmpVal (x y : Val) : Int :=
  match x, y with
  | .inf a, .inf b => if a = b then 0 else if a then -1 else 1
  | .inf a, _ => if a then -1 else 1
  | _, .inf b => if b then 1 else -1
  | .fin n1 m1 e1, .fin n2 m2 e2 => (sumExact n1 m1 e1 (!n2) m2 e2).1
  | _, _ => 0

/-- The value is negative or -0. -/
def Val.isNeg : Val → Bool
  | .nan _ => false
  | .inf s => s
  | .fin s _ _ => s

/-- `fmin` and `fmax` (R300), on codes. -/
def Fmt.minmax (f : Fmt) (isMax : Bool) (x y : Nat) : Nat × Fl :=
  let a := f.val x
  let b := f.val y
  let nv : Fl := if a.isSig || b.isSig then flNV else 0
  if a.isNan && b.isNan then (f.nanCode, nv)
  else if a.isNan then (y, nv)
  else if b.isNan then (x, nv)
  else
    let c := cmpVal a b
    let aLess := decide (c < 0) || (c == 0 && a.isNeg)
    (if aLess != isMax then x else y, nv)

/-- `fcmp` (R300). -/
def fcond (cc : BitVec 3) (x y : Val) : Bool × Fl :=
  let un := x.isNan || y.isNan
  let c := cmpVal x y
  let r := match cc.toNat with
    | 0 => !un && c == 0
    | 1 => un || c != 0
    | 2 => !un && decide (c < 0)
    | 3 => !un && decide (c ≤ 0)
    | 4 => !un && decide (0 < c)
    | 5 => !un && decide (0 ≤ c)
    | 6 => un
    | _ => !un
  (r, if x.isSig || y.isSig then flNV else 0)

/-- `fclass` (R300). -/
def Fmt.class (f : Fmt) (x : Nat) : Nat :=
  match f.val x with
  | .nan sig => if sig then 2 ^ 8 else 2 ^ 9
  | .inf neg => if neg then 2 ^ 0 else 2 ^ 7
  | .fin neg m _ =>
    if m = 0 then (if neg then 2 ^ 3 else 2 ^ 4)
    else if m < 2 ^ f.fbits then (if neg then 2 ^ 2 else 2 ^ 5)
    else if neg then 2 ^ 1 else 2 ^ 6

/-- `frnd` (R299). -/
def Fmt.rint (f : Fmt) (mode : Mode) (x : Val) : Nat × Fl :=
  match x with
  | .nan sig => f.nan sig
  | .inf neg => (f.signBit neg + f.infCode, 0)
  | .fin neg m e =>
    if 0 ≤ e then f.put 0 0 neg m e
    else ((f.put 0 0 neg (roundUnits mode 0 neg m e 0).1 0).1, 0)

/-- `fscale` (R299). -/
def Fmt.scale (f : Fmt) (mode : Mode) (x : Val) (n : Int) : Nat × Fl :=
  match x with
  | .nan sig => f.nan sig
  | .inf neg => (f.signBit neg + f.infCode, 0)
  | .fin neg m e => f.put mode 0 neg m (e + n)

/-- The value is an infinity. -/
def Val.isInf : Val → Bool
  | .inf _ => true
  | _ => false

/-- The sum of terms, each with the invalid operations that formed it, rounded once (R299): for `fdot2`. -/
def Fmt.sumOf (f : Fmt) (mode : Mode) (ts : List (Val × Bool)) : Nat × Fl :=
  let nv := ts.any fun t => t.2 || t.1.isSig
  let infs := (ts.map Prod.fst).filter Val.isInf
  if ts.any fun t => t.1.isNan then f.nan nv
  else if infs.any Val.isNeg && infs.any fun v => !v.isNeg then f.nan true
  else match infs with
    | v :: _ => (f.signBit v.isNeg + f.infCode, if nv then flNV else 0)
    | [] =>
      let (z, e) := ts.foldl (fun (acc : Int × Int) (t : Val × Bool) => match t.1 with
        | .fin n m e => sumExact (decide (acc.1 < 0)) acc.1.natAbs acc.2 n m e
        | _ => acc) (0, 0)
      if z = 0 then
        let negs := ts.all fun t => t.1.isNeg
        let poss := ts.all fun t => !t.1.isNeg
        (f.signBit (if negs then true else if poss then false else mode == 3), 0)
      else f.put mode 0 (decide (z < 0)) z.natAbs e

/-- `fdot2`: two products of an element format and a binary32 addend. -/
def dot2 (f : Fmt) (mode : Mode) (x y z : Nat) : Nat × Fl :=
  let p0 := mulVal (f.val (x % 65536)) (f.val (y % 65536))
  let p1 := mulVal (f.val (x / 65536 % 65536)) (f.val (y / 65536 % 65536))
  Fmt.f32.sumOf mode [p0, p1, (Fmt.f32.val z, false)]

/-- A function of both elements of a pair. -/
def pairwise (f : Nat → Nat → Nat → Nat × Fl) (x y z : Nat) : Nat × Fl :=
  let a := f (x % 65536) (y % 65536) (z % 65536)
  let b := f (x / 65536 % 65536) (y / 65536 % 65536) (z / 65536 % 65536)
  (a.1 + 65536 * b.1, a.2 ||| b.2)

/-- Clears or inverts the sign of an element, or of both of a pair (R299). -/
def signOp (t : Ty) (neg : Bool) (x : Nat) : Nat :=
  let one (f : Fmt) (x : Nat) : Nat :=
    let s := 2 ^ (f.ebits + f.fbits)
    if neg then (if x / s % 2 = 1 then x - s else x + s) else (if x / s % 2 = 1 then x - s else x)
  match t with
  | .f16x2 | .bf16x2 => one (Ty.fmt t) (x % 65536) + 65536 * one (Ty.fmt t) (x / 65536 % 65536)
  | _ => one (Ty.fmt t) x

/-! Words of one, two and three sources of one type -/

def State.fp1 (s : State) (i : Issue) (h : Head) (t : Ty) (d a : Opd) (f : Nat → Nat × Fl) : State :=
  s.fpWord i h [a] 0 (regResult i d (Ty.w t)) fun _ rd l => fpOut (f (fpCode t (rd 0 l (Ty.w t))))

def State.fp2 (s : State) (i : Issue) (h : Head) (t : Ty) (d a b : Opd) (f : Nat → Nat → Nat × Fl) : State :=
  s.fpWord i h [a, b] 0 (regResult i d (Ty.w t)) fun _ rd l =>
    fpOut (f (fpCode t (rd 0 l (Ty.w t))) (fpCode t (rd 1 l (Ty.w t))))

def State.fp3 (s : State) (i : Issue) (h : Head) (t : Ty) (d a b c : Opd) (f : Nat → Nat → Nat → Nat × Fl) : State :=
  s.fpWord i h [a, b, c] 0 (regResult i d (Ty.w t)) fun _ rd l =>
    fpOut (f (fpCode t (rd 0 l (Ty.w t))) (fpCode t (rd 1 l (Ty.w t))) (fpCode t (rd 2 l (Ty.w t))))

/-! Meanings -/

def execFadd (h : Head) (t : Ty) (rm : BitVec 3) (d a b : Opd) (s : State) : Host.Outcome State Fault Refusal :=
  word s fun i => s.fp2 i h t d a b fun x y =>
    (Ty.fmt t).add (arithMode i.sp.fmt rm) ((Ty.fmt t).val x) ((Ty.fmt t).val y)

def execFsub (h : Head) (t : Ty) (rm : BitVec 3) (d a b : Opd) (s : State) : Host.Outcome State Fault Refusal :=
  word s fun i => s.fp2 i h t d a b fun x y =>
    (Ty.fmt t).sub (arithMode i.sp.fmt rm) ((Ty.fmt t).val x) ((Ty.fmt t).val y)

def execFmul (h : Head) (t : Ty) (rm : BitVec 3) (d a b : Opd) (s : State) : Host.Outcome State Fault Refusal :=
  word s fun i => s.fp2 i h t d a b fun x y =>
    (Ty.fmt t).mul (arithMode i.sp.fmt rm) ((Ty.fmt t).val x) ((Ty.fmt t).val y)

def execFfma (h : Head) (t : Ty) (rm : BitVec 3) (d a b c : Opd) (s : State) : Host.Outcome State Fault Refusal :=
  word s fun i => s.fp3 i h t d a b c fun x y z =>
    (Ty.fmt t).fma (arithMode i.sp.fmt rm) ((Ty.fmt t).val x) ((Ty.fmt t).val y) ((Ty.fmt t).val z)

def execFmin (h : Head) (t : Ty) (d a b : Opd) (s : State) : Host.Outcome State Fault Refusal :=
  word s fun i => s.fp2 i h t d a b ((Ty.fmt t).minmax false)

def execFmax (h : Head) (t : Ty) (d a b : Opd) (s : State) : Host.Outcome State Fault Refusal :=
  word s fun i => s.fp2 i h t d a b ((Ty.fmt t).minmax true)

def execFabs (h : Head) (t : Ty) (d a : Opd) (s : State) : Host.Outcome State Fault Refusal :=
  word s fun i => s.fp1 i h t d a fun x => (signOp t false x, 0)

def execFneg (h : Head) (t : Ty) (d a : Opd) (s : State) : Host.Outcome State Fault Refusal :=
  word s fun i => s.fp1 i h t d a fun x => (signOp t true x, 0)

def execFcmp (h : Head) (t : Ty) (cc : BitVec 3) (dp : BitVec 3) (a b : Opd) (s : State) :
    Host.Outcome State Fault Refusal :=
  word s fun i => s.fpWord i h [a, b] 0 (predResult dp) fun _ rd l =>
    let r := fcond cc ((Ty.fmt t).val (fpCode t (rd 0 l (Ty.w t)))) ((Ty.fmt t).val (fpCode t (rd 1 l (Ty.w t))))
    (if r.1 then 1 else 0, r.2)

/-- `fclass`: the mask is of 32 bits whatever the type. -/
def execFclass (h : Head) (t : Ty) (d a : Opd) (s : State) : Host.Outcome State Fault Refusal :=
  word s fun i => s.fpWord i h [a] 0 (regResult i d 32) fun _ rd l =>
    fpOut ((Ty.fmt t).class (fpCode t (rd 0 l (Ty.w t))), 0)

def execFrcp (h : Head) (t : Ty) (d a : Opd) (s : State) : Host.Outcome State Fault Refusal :=
  word s fun i => s.fp1 i h t d a fun x => (Ty.fmt t).rcp x ((Ty.fmt t).val x)

def execFsqrt (h : Head) (t : Ty) (rm : BitVec 3) (d a : Opd) (s : State) : Host.Outcome State Fault Refusal :=
  word s fun i => s.fp1 i h t d a fun x => (Ty.fmt t).sqrt (arithMode i.sp.fmt rm) ((Ty.fmt t).val x)

def execFrsqrt (h : Head) (t : Ty) (d a : Opd) (s : State) : Host.Outcome State Fault Refusal :=
  word s fun i => s.fp1 i h t d a fun x => (Ty.fmt t).rsqrt x ((Ty.fmt t).val x)

def execFexp2 (h : Head) (t : Ty) (d a : Opd) (s : State) : Host.Outcome State Fault Refusal :=
  word s fun i => s.fp1 i h t d a fun x => (Ty.fmt t).exp2 x ((Ty.fmt t).val x)

def execFlog2 (h : Head) (t : Ty) (d a : Opd) (s : State) : Host.Outcome State Fault Refusal :=
  word s fun i => s.fp1 i h t d a fun x => (Ty.fmt t).log2 x ((Ty.fmt t).val x)

def execFsin (h : Head) (t : Ty) (d a : Opd) (s : State) : Host.Outcome State Fault Refusal :=
  word s fun i => s.fp1 i h t d a fun x => (Ty.fmt t).trig x false ((Ty.fmt t).val x)

def execFcos (h : Head) (t : Ty) (d a : Opd) (s : State) : Host.Outcome State Fault Refusal :=
  word s fun i => s.fp1 i h t d a fun x => (Ty.fmt t).trig x true ((Ty.fmt t).val x)

def execFtanh (h : Head) (t : Ty) (d a : Opd) (s : State) : Host.Outcome State Fault Refusal :=
  word s fun i => s.fp1 i h t d a fun x => (Ty.fmt t).tanh x ((Ty.fmt t).val x)

def execFdiv (h : Head) (t : Ty) (rm : BitVec 3) (d a b : Opd) (s : State) : Host.Outcome State Fault Refusal :=
  word s fun i => s.fp2 i h t d a b fun x y =>
    (Ty.fmt t).div (arithMode i.sp.fmt rm) ((Ty.fmt t).val x) ((Ty.fmt t).val y)

def execFdot2 (h : Head) (t : Ty) (rm : BitVec 3) (d a b c : Opd) (s : State) : Host.Outcome State Fault Refusal :=
  word s fun i => s.fp3 i h t d a b c fun x y z => dot2 (Ty.fmt t) (arithMode i.sp.fmt rm) x y z

def execFrnd (h : Head) (t : Ty) (rm : BitVec 3) (d a : Opd) (s : State) : Host.Outcome State Fault Refusal :=
  word s fun i => s.fp1 i h t d a fun x => (Ty.fmt t).rint (arithMode i.sp.fmt rm) ((Ty.fmt t).val x)

/-- `fscale`: the exponent is one register, read as `.i32`, whatever the type. -/
def execFscale (h : Head) (t : Ty) (rm : BitVec 3) (d a b : Opd) (s : State) : Host.Outcome State Fault Refusal :=
  word s fun i => s.fpWord i h [a, b] 0 (regResult i d (Ty.w t)) fun _ rd l =>
    fpOut ((Ty.fmt t).scale (arithMode i.sp.fmt rm) ((Ty.fmt t).val (fpCode t (rd 0 l (Ty.w t))))
      (toInt 32 (rd 1 l 32).toNat))

def execHadd2 (h : Head) (t : Ty) (rm : BitVec 3) (d a b : Opd) (s : State) : Host.Outcome State Fault Refusal :=
  word s fun i => s.fp2 i h t d a b fun x y =>
    pairwise (fun x y _ => (Ty.fmt t).add (arithMode i.sp.fmt rm) ((Ty.fmt t).val x) ((Ty.fmt t).val y)) x y 0

def execHmul2 (h : Head) (t : Ty) (rm : BitVec 3) (d a b : Opd) (s : State) : Host.Outcome State Fault Refusal :=
  word s fun i => s.fp2 i h t d a b fun x y =>
    pairwise (fun x y _ => (Ty.fmt t).mul (arithMode i.sp.fmt rm) ((Ty.fmt t).val x) ((Ty.fmt t).val y)) x y 0

def execHfma2 (h : Head) (t : Ty) (rm : BitVec 3) (d a b c : Opd) (s : State) : Host.Outcome State Fault Refusal :=
  word s fun i => s.fp3 i h t d a b c fun x y z =>
    pairwise (fun x y z => (Ty.fmt t).fma (arithMode i.sp.fmt rm) ((Ty.fmt t).val x) ((Ty.fmt t).val y)
      ((Ty.fmt t).val z)) x y z

end Sys2Proof.Machine
end

