-- ==== Sys2Proof/Machine/Convert.lean ====
section
/-! DEFINITION. Conversions, MX blocks and the format register's words (R294 to R296, R302 to R308). -/

namespace Sys2Proof.Machine

/-! `cvt` (R302) -/

/-- Rounds a value into a floating format: infinities and NaNs as R298 has them. -/
def Fmt.convert (f : Fmt) (mode : Mode) (r : Nat) (x : Val) : Nat × Fl :=
  match x with
  | .nan sig => f.nan sig
  | .inf neg => (f.signBit neg + f.infCode, 0)
  | .fin neg m e => f.put mode r neg m e

/-- The limits of an integer type. -/
def Ty.lo (t : Ty) : Int := if Ty.signed t then -((2 ^ (Ty.ibits t - 1) : Nat) : Int) else 0
def Ty.hi (t : Ty) : Int :=
  if Ty.signed t then ((2 ^ (Ty.ibits t - 1) : Nat) : Int) - 1 else ((2 ^ Ty.ibits t : Nat) : Int) - 1

/-- An integer as its type's register holds it: narrower than 32 bits, extended (R282). -/
def Ty.ofZ (t : Ty) (z : Int) : Nat := ofInt (max 32 (Ty.ibits t)) z

/-- A float rounded to an integer and clamped. -/
def floatToInt (t : Ty) (mode : Mode) (r : Nat) (x : Val) : Nat × Fl :=
  match x with
  | .nan _ => (0, flNV)
  | .inf neg => (Ty.ofZ t (if neg then Ty.lo t else Ty.hi t), flNV)
  | .fin neg m e =>
    let (k, ix) := roundUnits mode r neg m e 0
    let z := signed neg k
    if z < Ty.lo t then (Ty.ofZ t (Ty.lo t), flNV)
    else if Ty.hi t < z then (Ty.ofZ t (Ty.hi t), flNV)
    else (Ty.ofZ t z, if ix then flNX else 0)

/-- The source of `cvt`: F48 for code 0, else a type. -/
def cvtFmt (st : BitVec 4) : Fmt := if st = 0 then .f48 else Ty.fmt (Ty.ofCode st)

/-- One conversion: destination type, source code, mode, draw, ISAT, source bits. -/
def convert (dt : Ty) (st : BitVec 4) (mode : Mode) (r : Nat) (isat : Bool) (x : Nat) : Nat × Fl :=
  let sty := Ty.ofCode st
  if cvtSrcInt st then
    let z := Ty.int sty x
    if dt.isInt then
      let z := if isat then max (Ty.lo dt) (min (Ty.hi dt) z) else z
      (Ty.ofZ dt (if Ty.signed dt then toInt (Ty.ibits dt) (ofInt (Ty.ibits dt) z) else ofInt (Ty.ibits dt) z), 0)
    else (Ty.fmt dt).convert mode r (.fin (decide (z < 0)) z.natAbs 0)
  else
    let v := (cvtFmt st).val (if st = 0 then x % 2 ^ 48 else fpCode sty (BitVec.ofNat 64 x))
    if dt.isInt then floatToInt dt mode r v else (Ty.fmt dt).convert mode r v

/-- Elements drawn for: one when the mode is STOCH (R289). -/
def drawsFor (mode : Mode) (n : Nat) : Nat := if mode = 4 then n else 0

/-- Width of the source's registers. -/
def cvtSrcW (st : BitVec 4) : Nat := if cvtSrcWd st == .w64 then 64 else 32

def execCvt (h : Head) (dt : Ty) (st : BitVec 4) (rm : BitVec 3) (isat : Bool) (d a : Opd) (s : State) :
    Host.Outcome State Fault Refusal :=
  word s fun i =>
    let mode := convMode i.sp.fmt rm
    s.fpWord i h [a] (drawsFor mode 1) (regResult i d (Ty.w dt)) fun _ rd l =>
      fpOut (convert dt st mode (i.sl.draw l 0) isat (rd 0 l (cvtSrcW st)).toNat)

/-! `cvt.pk` and `cvt.unpk` (R303, R304) -/

/-- The element formats by their code in the format register (R291). -/
def elemFmt (code : Nat) : Fmt :=
  match code with
  | 1 => .bf16 | 2 => .f16 | 3 => .e4m3 | 4 => .e5m2 | _ => .e2m1

/-- Conversion of a binary32 value into an 8-bit format (R290). -/
def Fmt.convert8 (f : Fmt) (sat : Bool) (mode : Mode) (r : Nat) (x : Val) : Nat × Fl :=
  match x with
  | .nan sig => f.nan sig
  | .inf neg => (f.inf8 sat neg, 0)
  | .fin neg m e => f.put8 sat mode r neg m e

def execCvtPk (h : Head) (fmt : BitVec 3) (hi : Bool) (rm : BitVec 3) (d a b c : Opd) (s : State) :
    Host.Outcome State Fault Refusal :=
  word s fun i =>
    let mode := convMode i.sp.fmt rm
    let f := elemFmt fmt.toNat
    let srcs := if pkByte fmt then [a, b, c] else [a, b]
    s.fpWord i h srcs (drawsFor mode 2) (regResult i d 32) fun _ rd l =>
      let x := Fmt.f32.val (rd 0 l 32).toNat
      let y := Fmt.f32.val (rd 1 l 32).toNat
      if pkByte fmt then
        let p := f.convert8 (fmtSat i.sp.fmt) mode (i.sl.draw l 0) x
        let q := f.convert8 (fmtSat i.sp.fmt) mode (i.sl.draw l 1) y
        let c := (rd 2 l 32).toNat
        let pair := p.1 + 256 * q.1
        fpOut (if hi then c % 65536 + 65536 * pair else c / 65536 * 65536 + pair, p.2 ||| q.2)
      else
        let p := f.convert mode (i.sl.draw l 0) x
        let q := f.convert mode (i.sl.draw l 1) y
        fpOut (p.1 + 65536 * q.1, p.2 ||| q.2)

/-- The element of an index in a word. -/
def elemAt (fmt : BitVec 3) (idx x : Nat) : Nat :=
  if pkWide fmt then x / 65536 ^ idx % 65536 else if pkByte fmt then x / 256 ^ idx % 256 else x / 16 ^ idx % 16

def execCvtUnpk (h : Head) (fmt : BitVec 3) (idx : BitVec 3) (d a : Opd) (s : State) :
    Host.Outcome State Fault Refusal :=
  word s fun i => s.fpWord i h [a] 0 (regResult i d 32) fun _ rd l =>
    fpOut (Fmt.f32.convert 0 0 ((elemFmt fmt.toNat).val (elemAt fmt idx.toNat (rd 0 l 32).toNat)))

/-! Sub-byte formats (R305) -/

/-- The four bytes of a word from a function of their index. -/
def fourBytes (f : Nat → Nat) : Nat := f 0 + 256 * f 1 + 65536 * f 2 + 16777216 * f 3

/-- The E4M3 code of an E2M3 or E3M2 element, with its sign and zero kept. -/
def f6ToE4m3 (e3m2 : Bool) (x : Nat) : Nat :=
  match (if e3m2 then Fmt.e3m2 else Fmt.e2m3).val (x % 64) with
  | .fin neg m e => (Fmt.e4m3.put 0 0 neg m e).1
  | _ => 0

def execCvtF6 (h : Head) (e3m2 : Bool) (d a : Opd) (s : State) : Host.Outcome State Fault Refusal :=
  word s fun i => s.lanewise i h [a] d 32 fun _ rd l =>
    BitVec.ofNat 64 (fourBytes fun k => f6ToE4m3 e3m2 ((rd 0 l 32).toNat / 64 ^ k))

def execCvtI4 (h : Head) (signed hi : Bool) (d a : Opd) (s : State) : Host.Outcome State Fault Refusal :=
  word s fun i => s.lanewise i h [a] d 32 fun _ rd l =>
    BitVec.ofNat 64 (fourBytes fun k =>
      let n := (rd 0 l 32).toNat / 16 ^ ((if hi then 4 else 0) + k) % 16
      if signed && decide (8 ≤ n) then n + 240 else n)

/-! MX blocks (R306 to R308) -/

/-- emax of the element formats. -/
def mxEmax (fmt : BitVec 3) : Int := if fmt = 3 then 8 else if fmt = 4 then 15 else 2

/-- Floor of log2 of a finite non-zero binary32 magnitude. -/
def logOf : Val → Option Int
  | .fin _ m e => if m = 0 then none else some (bitLen m - 1 + e)
  | _ => none

/-- The scale of a block's values (R306). -/
def mxScaleOf (fmt : BitVec 3) (vs : List Val) : Nat :=
  if vs.any fun v => v.isNan || v.isInf then 0xFF
  else match vs.filterMap logOf with
    | [] => 0x7F
    | x :: xs => (max (-127) (min 127 ((xs.foldl max x) - mxEmax fmt)) + 127).toNat

def execMxScale (h : Head) (fmt : BitVec 3) (d a : Opd) (s : State) : Host.Outcome State Fault Refusal :=
  word s fun i => s.lanewise i h [a] d 32 fun m rd _ =>
    BitVec.ofNat 64 (mxScaleOf fmt ((lanesOf m).map fun l => Fmt.f32.val (rd 0 l 32).toNat))

/-- Quantises one value under a scale (R307). -/
def mxQuant (fmt : BitVec 3) (mode : Mode) (r sc : Nat) (x : Val) : Nat × Fl :=
  let f := elemFmt fmt.toNat
  let nan := if fmt = 7 then 0 else 0x7F
  if sc = 0xFF then (nan, 0)
  else match x with
    | .nan _ => (nan, flNV)
    | .inf neg => (f.signBit neg + f.maxCode, flOFNX)
    | .fin neg m e =>
      if m = 0 then (f.signBit neg, 0)
      else
        let q := f.round mode r neg m (e + 127 - sc)
        if q.tooBig then (f.signBit neg + f.maxCode, flOFNX) else (f.signBit neg + q.code, if q.inexact then flNX else 0)

/-- `mx.pack`: each lane's element, and the words of its group. -/
def execMxPack (h : Head) (fmt : BitVec 3) (d a b : Opd) (s : State) : Host.Outcome State Fault Refusal :=
  word s fun i =>
    let mode := fmtRM i.sp.fmt
    let g := if fmt = 7 then 8 else 4
    let base := if fmt = 7 then 16 else 256
    s.fpWord i h [a, b] (drawsFor mode 1) (regResult i d 32) fun m rd l =>
      let q (k : Nat) : Nat × Fl :=
        mxQuant fmt mode (i.sl.draw k 0) ((rd 1 k 32).toNat % 256) (Fmt.f32.val (rd 0 k 32).toNat)
      let w := (List.range g).foldl (fun w k =>
        let j := l / g * g + k
        w + (if m.getLsbD j then (q j).1 else 0) * base ^ k) 0
      (BitVec.ofNat 64 w, (q l).2)

/-- `mx.unpk` (R308). -/
def mxUnpack (fmt : BitVec 3) (lane x sc : Nat) : Nat × Fl :=
  let idx := if fmt = 7 then lane % 8 else lane % 4
  if sc = 0xFF then (Fmt.f32.nanCode, 0)
  else match (elemFmt fmt.toNat).val (elemAt fmt idx x) with
    | .nan _ => (Fmt.f32.nanCode, 0)
    | .inf neg => (Fmt.f32.signBit neg + Fmt.f32.infCode, 0)
    | .fin neg m e => Fmt.f32.put 0 0 neg m (e + sc - 127)

def execMxUnpk (h : Head) (fmt : BitVec 3) (d a b : Opd) (s : State) : Host.Outcome State Fault Refusal :=
  word s fun i => s.fpWord i h [a, b] 0 (regResult i d 32) fun _ rd l =>
    fpOut (mxUnpack fmt l (rd 0 l 32).toNat ((rd 1 l 32).toNat % 256))

/-! The format register's words (R294 to R296) -/

/-- `fmt.set` in its immediate form: the decoder has checked the value (R294). -/
def execFmtSetImm (h : Head) (v : BitVec 20) (s : State) : Host.Outcome State Fault Refusal :=
  word s fun i =>
    (if i.active h.guard = 0 then s else s.modIssuer i fun sp => { sp with fmt := fmtOfImm v }).advance i h.mark

def execFmtSetReg (h : Head) (a : Opd) (s : State) : Host.Outcome State Fault Refusal :=
  word s fun i =>
    let m := i.active h.guard
    if m = 0 then s.advance i h.mark
    else s.withSources i m [a] fun s0 s m rd =>
      match lowLane m with
      | none => s.advance i h.mark
      | some l =>
        let v : BitVec 32 := (rd 0 l 32).setWidth 32
        if fmtValid v then (s.modIssuer i fun sp => { sp with fmt := v }).advance i h.mark
        else s0.decodeTrap i 6 0x39 0

def execFmtGet (h : Head) (d : Opd) (s : State) : Host.Outcome State Fault Refusal :=
  word s fun i => s.lanewise i h [] d 32 fun _ _ _ => i.sp.fmt.setWidth 64

def execFmtGetFlags (h : Head) (d : Opd) (s : State) : Host.Outcome State Fault Refusal :=
  word s fun i => s.lanewise i h [] d 32 fun _ _ _ => i.sl.flags.setWidth 64

/-- `fmt.get.flags.clr` clears the flag word once the word issues with an active lane. -/
def execFmtGetFlagsClr (h : Head) (d : Opd) (s : State) : Host.Outcome State Fault Refusal :=
  word s fun i =>
    let s := if i.active h.guard = 0 || (i.pushWait d).isSome then s
      else s.modSlice i.ref.team i.ref.warp i.ref.slice fun x => { x with flags := 0 }
    s.lanewise i h [] d 32 fun _ _ _ => i.sl.flags.setWidth 64

/-- `fmt.seed` (R296). -/
def execFmtSeed (h : Head) (a : Opd) (s : State) : Host.Outcome State Fault Refusal :=
  word s fun i =>
    let m := i.active h.guard
    if m = 0 then s.advance i h.mark
    else s.withSources i m [a] fun _ s m rd =>
      (s.modSlice i.ref.team i.ref.warp i.ref.slice fun x =>
        { x with gens := (lanesOf m).foldl (fun (t : Table (BitVec 32)) l =>
          let v : BitVec 32 := (rd 0 l 32).setWidth 32
          tset t l (if v = 0 then 0x9E3779B9 else v)) x.gens }).advance i h.mark

end Sys2Proof.Machine
end

