-- ==== Sys2Proof/Machine/Copies.lean ====
section
/-! DEFINITION. What the copy engine does (R25, R173, R180, R345, R346, R350 to R356, R408 to R410): copies, feeds of the
operand FIFOs, `acc.zero`, remote transfers and collectives. A copy's pieces are performed in any order (R350; log entry 8). -/

namespace Sys2Proof.Machine

/-! Where a command's bytes lie -/

/-- The place of one byte of a command. -/
inductive Site where
  | tide (t off : Nat)
  | mem (x : Xlat) (pa : Nat)
  /-- its block is in passage (R54) -/
  | passing
  /-- a range walk is needed for this global address -/
  | walk (g : Word)
  | fault (f : XFault)
  deriving DecidableEq, Repr

/-- Where a lookup of a global address leads. -/
def State.siteOf (s : State) (g : Word) : Look → Site
  | .fault f => .fault f
  | .miss => .walk g
  | .hit x =>
    match s.spot x (g - x.base).toNat with
    | .at_ pa => .mem x pa
    | .passing => .passing
    | .stranded => .fault strandedFault

/-- The lookup of an engine's command: through the core's range buffer, or what a walk has found for it (R36, R43). -/
def State.lookCmd (s : State) (core ctx id : Nat) (need : Need) (g : Word) : Look :=
  match s.look core ctx g need with
  | .miss => (match (s.core core).answerFor (.cmd id) ctx g with
    | some (.inr r) => s.lookDesc ctx r.index r.desc need
    | some (.inl f) => .fault f
    | none => .miss)
  | l => l

/-- An address of a command; window 0xA is that of the lane that supplied its operands (R25). -/
def State.site (s : State) (c : Command) (tm : Team) (need : Need) (v : Word) : Site :=
  match s.place c.team tm c.warp c.lane v 1 with
  | .fault f => .fault f
  | .tide t off => .tide t off
  | .global g => s.siteOf g (s.lookCmd tm.core tm.ctx c.id need g)

/-- The line of a place: tidepool blocks, then physical lines. -/
def Site.key : Site → Nat × Nat
  | .tide t off => (0, tideBlock t off)
  | .mem _ pa => (1, lineOf pa)
  | .passing | .walk _ => (2, 0)
  | .fault _ => (3, 0)

def Site.fault? : Site → Option XFault
  | .fault f => some f
  | .tide .. | .mem .. | .passing | .walk _ => none

def Site.walk? : Site → Option Word
  | .walk g => some g
  | .tide .. | .mem .. | .passing | .fault _ => none

/-- A physical line of a place as its agent asks for it, with the half. -/
def Site.line? : Site → Option ((Nat × Nat × Nat × BitVec 2) × Bool)
  | .mem x pa => some ((lineOf pa, x.key, x.fn, x.cache), decide (64 ≤ pa % 128))
  | .tide .. | .passing | .walk _ | .fault _ => none

/-- The physical lines of places, with the halves. -/
def siteLines (l : List Site) (write : Bool) : List (Nat × Nat × Nat × BitVec 2 × List Bool × Bool) :=
  let hs := (l.filterMap Site.line?).eraseDups
  ((hs.map Prod.fst).eraseDups).map fun k =>
    (k.1, k.2.1, k.2.2.1, k.2.2.2, [false, true].filter fun h => hs.contains (k, h), write)

/-- The places may be read and written now by an agent: no block is in passage (R54), and it is the agent's turn on every
line (R98, R115, R118, R122, R125). What must come first is started. The uses of lines that are read are noted (R89). -/
def State.sitesAsk (s : State) (agent serial : Nat) (stamp : BitVec 32) (rd wr : List Site) : State × Bool :=
  if (rd ++ wr).contains .passing then (s.keepStamp (Req.ofAgent agent serial stamp 0 0 0), false)
  else match s.askAll agent serial stamp (siteLines rd false ++ siteLines wr true) with
    | (s, true) => ((siteLines rd false).foldl (fun (s : State) l => s.touch l.1 false) s, true)
    | (s, false) => (s, false)

/-- The lines that an access has read, and that were brought in for it alone, go (R87). -/
def State.readsDone (s : State) (rd : List Site) : State :=
  (siteLines rd false).foldl (fun (s : State) l => s.endTransient l.1) s

/-- The range-buffer entries that translated places have been used (R41). -/
def State.useRanges (s : State) (core : Nat) (l : List Site) : State :=
  ((l.filterMap fun x => match x with
    | .mem x _ => some (x.ctx, x.index)
    | _ => none).eraseDups).foldl (fun (s : State) e => s.modCore core fun c => c.useRange e.1 e.2) s

/-- Whether the engine of a command may read and write the places now. Range walks that they need are joined first (R43). -/
def State.cmdReady (s : State) (c : Command) (tm : Team) (rd wr : List Site) : State × Bool :=
  let walks := (rd ++ wr).filterMap Site.walk?
  if !walks.isEmpty then (walks.foldl (fun (s : State) g => s.joinWalk tm.core tm.ctx g (some (.cmd c.id))) s, false)
  else match s.sitesAsk (1348 + tm.core) c.id c.stamp rd wr with
    | (s, true) => ((s.useRanges tm.core (rd ++ wr)).forget tm.core (.cmd c.id), true)
    | (s, false) => (s, false)

/-- The byte at a place, and whether it is poisoned. -/
def State.siteByte (s : State) : Site → Byte × Bool
  | .tide t off => ((s.tideRead t off 1).getD 0 0, false)
  | .mem x pa => (s.homeByte x.key pa, s.poisonedAt pa)
  | .passing | .walk _ | .fault _ => (0, false)

/-- The byte at a place, or none where it is poisoned. -/
def State.siteRead (s : State) (x : Site) : Option Byte :=
  let b := s.siteByte x
  if b.2 then none else some b.1

/-- Writes bytes at their places, each line or allocation in one store. -/
def State.writeSites (s : State) (ws : List (Site × Byte)) : State :=
  let teams := (ws.filterMap fun w => match w.1 with | .tide t _ => some t | _ => none).eraseDups
  let s := teams.foldl (fun (s : State) (t : Nat) =>
    s.tideWrite t (ws.filterMap fun w => match w.1 with | .tide t' off => if t' = t then some (off, w.2) else none | _ => none)) s
  let lines := (ws.filterMap fun w => w.1.line?.map Prod.fst).eraseDups
  lines.foldl (fun (s : State) (l : Nat × Nat × Nat × BitVec 2) =>
    s.homeStore l.2.1 l.1 (ws.filterMap fun w => match w.1 with
      | .mem x pa => if (lineOf pa, x.key, x.fn, x.cache) = l then some (pa % 128, w.2) else none
      | _ => none)) s

/-! Faults (R345) -/

/-- When addresses of a command fault, the pieces that the engine had performed by then: any of those that do not fault
(log entry 8). -/
def keepPiece (free : Nat) (bad : List (Nat × Nat × Nat × Nat)) (k : Nat × Nat × Nat × Nat) (n : Nat) : Bool :=
  bad.isEmpty || (!bad.contains k && (Config.freeWord 41 (free + n)).getLsbD 0)

/-- The fault that the engine meets: one of those it may meet first, by a free choice. -/
def State.meetFault (s : State) (c : Command) (fs : List (XFault × Word)) : State :=
  match fs[(Config.freeWord 42 s.agenda.free).toNat % max 1 fs.length]? with
  | some (f, v) => (s.engineFault c f v).bumpFree
  | none => s

/-! Copies (R350, R351) -/

/-- Bytes that a record describes. -/
def copyBytes (r : List Word) : Nat := (if shapeKind r = 1 then 1 else shapeRows r) * (shapeCols r * shapeBytes r)

/-- Offset of byte n of a copy from its base, under a pitch. -/
def rowOffset (r : List Word) (pitch : Word) (n : Nat) : Word :=
  let w := shapeCols r * shapeBytes r
  BitVec.ofNat 64 (n / max 1 w) * (if pitch = 0 then BitVec.ofNat 64 w else pitch) + BitVec.ofNat 64 (n % max 1 w)

def srcAddr (c : Command) (n : Nat) : Word := c.src + rowOffset c.shape (c.shape.getD 2 0) n
def dstAddr (c : Command) (n : Nat) : Word := c.dst + rowOffset c.shape (c.shape.getD 3 0) n

/-- One byte of a copy: its number, where it comes from and where it goes. -/
structure Move where
  n : Nat
  src : Site
  dst : Site
  deriving DecidableEq, Repr

def Move.key (m : Move) : Nat × Nat × Nat × Nat := (m.src.key.1, m.src.key.2, m.dst.key.1, m.dst.key.2)

/-- The value that a byte of a copy gets: the source's value at the start, or, where source and destination overlap
outside one tidepool allocation, perhaps one the command has already written (R351). -/
def moveVal (free : Nat) (old : Nat → Byte) (ms : List Move) (m : Move) (fuel : Nat) : Byte :=
  match fuel with
  | 0 => old m.n
  | fuel + 1 =>
    match m.src with
    | .mem _ pa =>
      match ms.find? fun x => match x.dst with | .mem _ q => q == pa | _ => false with
      | some x => if Config.overlap free m.n then moveVal free old ms x fuel else old m.n
      | none => old m.n
    | .tide t off =>
      match ms.find? fun x => x.dst == .tide t off with
      | some x =>
        if (match m.dst with | .tide t' _ => t' == t | _ => false) then old m.n
        else if Config.overlap free m.n then moveVal free old ms x fuel else old m.n
      | none => old m.n
    | .passing | .walk _ | .fault _ => old m.n

/-- The error mark of a command. -/
def Command.mark (c : Command) (sub : Nat) (addr : Word) : Fault40 := ⟨12, sub, addr, 0xFFFFFFFF, c.pc⟩

/-- The first of two error marks. -/
def firstMark (a b : Option Fault40) : Option Fault40 :=
  match a with
  | some x => some x
  | none => b

/-- What the engine performs as a whole: bytes of one source line and one destination line (R38), or all that both lies and
goes in one tidepool allocation (R351). -/
def Move.unit (m : Move) : Nat × Nat × Nat × Nat :=
  match m.src, m.dst with
  | .tide t _, .tide t' _ => if t = t' then (4, t, 4, t) else m.key
  | _, _ => m.key

/-- The units that the engine performs next, in no promised order (R350): a free choice, of one at least. -/
def nextUnits (free : Nat) (us : List (Nat × Nat × Nat × Nat)) : List (Nat × Nat × Nat × Nat) :=
  let l := (us.zipIdx.filter fun u => (Config.freeWord 41 (free + u.2)).getLsbD 0).map Prod.fst
  if l.isEmpty then us.take 1 else l

/-- The mark that a byte of a copy gives: the peer refuses it, or its source is poisoned (R346). -/
def State.moveMark (s : State) (c : Command) (refused : Move → Option Fault40) (m : Move) : Option Fault40 :=
  firstMark (refused m) (if (s.siteByte m.src).2 then some (c.mark 0x70 (srcAddr c m.n)) else none)

/-- The engine performs pieces of a copy that it has not performed, all of one line pair at once: bytes that give a mark leave
their destinations unchanged, and an address that faults stops the command (R345, R346, R350, R351). At the end the command
credits `credit` of the number of bytes written. -/
def State.moveStep (s : State) (c : Command) (tm : Team) (ms : List Move) (stop : Move → List (XFault × Word))
    (refused : Move → Option Fault40) (credit : Nat → Nat) : State :=
  let todo := ms.filter fun m => !c.pieces.contains m.n
  let units := (todo.map Move.unit).eraseDups
  let pick := todo.filter fun m => (nextUnits s.agenda.free units).contains m.unit
  let faults := pick.flatMap stop
  if !faults.isEmpty then s.meetFault c faults
  else
    let live := pick.filter fun m => (refused m).isNone
    match s.cmdReady c tm (live.map Move.src) (live.map Move.dst) with
    | (s, false) => s
    | (s, true) =>
      let good := live.filter fun m => (s.moveMark c refused m).isNone
      let e := firstMark c.error (pick.findSome? (s.moveMark c refused))
      let old (n : Nat) : Byte := ((live.find? fun m => m.n == n).map fun m => (s.siteByte m.src).1).getD 0
      let t := ((s.writeSites (good.map fun m => (m.dst, moveVal s.agenda.free old good m good.length))).readsDone
        (live.map Move.src)).tookFree (max 1 units.length)
      let written := c.passed + good.length
      let t := t.modCmd c.id fun x => { x with pieces := c.pieces ++ pick.map Move.n, passed := written, error := e }
      if pick.length = todo.length then t.moved s c (credit written) e
      else t.modCmd c.id fun x => { x with st := .running, acks := x.acks ++ t.openSince s }

/-- The bytes of a copy, each with where it comes from and where it goes. -/
def copyMoves (c : Command) (src dst : Word → Site) : List Move :=
  (List.range (copyBytes c.shape)).map fun n => ⟨n, src (srcAddr c n), dst (dstAddr c n)⟩

/-- The fault at the source, or at the destination, of a byte of a copy. -/
def Move.srcFault (c : Command) (m : Move) : List (XFault × Word) := (m.src.fault?.map fun f => (f, srcAddr c m.n)).toList
def Move.dstFault (c : Command) (m : Move) : List (XFault × Word) := (m.dst.fault?.map fun f => (f, dstAddr c m.n)).toList

/-- `cp`: what it credits is the size of its shape (R350). -/
def State.startCp (s : State) (c : Command) (tm : Team) : State :=
  s.moveStep c tm (copyMoves c (s.site c tm .rd) (s.site c tm .wr)) (fun m => m.srcFault c ++ m.dstFault c) (fun _ => none)
    fun _ => copyBytes c.shape

/-! Operand FIFOs (R352) -/

def fifoCap : Nat := 131072

/-- The core of a feed's FIFO: `bfifo.odd` is that of the twin's odd core. -/
def fifoCore (tm : Team) (fifo : Nat) : Nat := if fifo = 2 then tm.core + 1 else tm.core

/-- A team takes a core's FIFOs, unless another still holds them. -/
def State.takeFifos (s : State) (core t : Nat) : Option State :=
  let c := s.core core
  let take := s.modCore core fun x => { x with fifoOwner := some t }
  match c.fifoOwner with
  | none => some take
  | some o =>
    if o = t then some s
    else if c.fifoA.isEmpty && c.fifoB.isEmpty && !(s.engines.cmds.any fun x => x.team == o && x.usesFifo) then some take
    else none

def Core.fifo (c : Core) (fifo : Nat) : List FifoByte := if fifo = 0 then c.fifoA else c.fifoB

def Core.append (c : Core) (fifo : Nat) (bs : List FifoByte) : Core :=
  if fifo = 0 then { c with fifoA := c.fifoA ++ bs } else { c with fifoB := c.fifoB ++ bs }

/-- Sites of consecutive bytes of a feed up to the first fault. -/
def feedRun (l : List (Nat × Site)) : List (Nat × Site) := l.takeWhile fun x => x.2.fault?.isNone

/-- A feed appends what fits, in row order; a poisoned byte's value is open (R346). -/
def State.startFeed (s : State) (c : Command) (tm : Team) (fifo : Nat) : State :=
  if fifo = 2 && !tm.twin then
    (s.modCmd c.id fun x => { x with st := .faulted }).raise c.team (Trap.ofCommand c 12 0x72 0 0)
  else match s.takeFifos (fifoCore tm fifo) c.team with
    | none => s
    | some s =>
      let total := copyBytes c.shape
      let room := fifoCap - ((s.core (fifoCore tm fifo)).fifo fifo).length
      let next : List (Nat × Site) := (List.range (min room (total - c.passed))).map fun k =>
        (c.passed + k, s.site c tm .rd (srcAddr c (c.passed + k)))
      let run := feedRun next
      match next.head?, run with
      | some (n, .fault f), _ => s.engineFault c f (srcAddr c n)
      | _, run =>
        match s.cmdReady c tm (run.map Prod.snd) [] with
        | (s, false) => s
        | (s, true) =>
          let poisoned := run.find? fun x => (s.siteByte x.2).2
          let bs := run.map fun (x : Nat × Site) =>
            let b := s.siteByte x.2
            if b.2 then ((Config.freeWord 43 (s.agenda.free + x.1)).setWidth 8, true) else (b.1, false)
          let e := match c.error with
            | some e => some e
            | none => poisoned.map fun (x : Nat × Site) => c.mark 0x70 (srcAddr c x.1)
          let done := c.passed + run.length
          let s := ((s.readsDone (run.map Prod.snd)).modCore (fifoCore tm fifo) (·.append fifo bs)).tookFree
            (if poisoned.isSome then total else 0)
          if done = total then s.moved s c total e
          else s.modCmd c.id fun x => { x with st := .running, passed := done, error := e }

/-! `acc.zero` (R173) -/

/-- The line at an address of an accumulator command (R163): only a global address in an ACC range has one. -/
def State.accSite (s : State) (c : Command) (tm : Team) (need : Need) (v : Word) : Site :=
  match s.site c tm need v with
  | .tide .. => .fault accFault
  | x => x

/-- Both halves of the lines of places. -/
def wholeLines (l : List Site) : List Site :=
  l.flatMap fun x => match x with
    | .mem x pa => [.mem x (pa / 128 * 128), .mem x (pa / 128 * 128 + 64)]
    | y => [y]

/-- Address of line k of a tile. -/
def tileLine (base : Word) (k : Nat) : Word := base + BitVec.ofNat 64 (128 * k)

/-- `acc.zero`. An address that is not aligned raises ALIGN_FAULT before its window is looked at: the spec gives ALIGN_FAULT
and ACC_FAULT no order (log entry 101). -/
def State.startAccZero (s : State) (c : Command) (tm : Team) (n : Nat) : State :=
  if bits c.dst 0 7 != 0 then s.engineFault c alignFault c.dst
  else
    let ls : List (Nat × Site) := (List.range n).map fun k => (k, s.accSite c tm .accWr (tileLine c.dst k))
    let faults : List (XFault × Word) := ls.filterMap fun l => l.2.fault?.map fun f => (f, tileLine c.dst l.1)
    let kept := (ls.filter fun l => l.2.fault?.isNone &&
      (faults.isEmpty || (Config.freeWord 41 (s.agenda.free + l.1)).getLsbD 0)).map Prod.snd
    match s.cmdReady c tm [] (wholeLines kept) with
    | (s, false) => s
    | (s, true) =>
      let (s, ok) := kept.foldl (fun (acc : State × Bool) (l : Site) => match l with
        | .mem _ pa => let (s, b) := acc.1.flushedLine (lineOf pa); (s, acc.2 && b)
        | _ => acc) (s, true)
      if !ok then s
      else
        let s' := s.writeSites (kept.flatMap fun (l : Site) => match l with
          | .mem x pa => (List.range 128).map fun k => (Site.mem x (pa / 128 * 128 + k), (0 : Byte))
          | _ => [])
        if faults.isEmpty then s'.moved s c (128 * n) none else (s'.tookFree n).meetFault c faults

/-! Remote transfers (R356, R408, R409) -/

/-- The tenant tag of a context. -/
def State.tag (s : State) (ctx : Nat) : Nat := bits (s.reg (.ctxfab ctx)) 0 16

/-- A context accepts remote access under a tag; not while its function is in reset (R408, R412). -/
def State.accepts (s : State) (ctx tag : Nat) : Bool :=
  !s.fnInReset (s.ctxFn ctx) && s.ctxExists ctx && s.ctxRun ctx && (s.reg (.ctxfab ctx)).getLsbD 63 && s.tag ctx == tag

/-- A global address of a context as a participant from outside translates it, in the context's range table (R356, R408). -/
def State.outerSite (s : State) (ctx : Nat) (need : Need) (g : Word) : Site :=
  if bits g 56 8 != 0 then .fault windowFault else s.siteOf g (s.lookWalk ctx g need)

/-- What a remote access gives: it must wait, it is refused, or it is performed; a byte that is none is poisoned. -/
inductive Remote where
  | wait
  | refused
  | done (bytes : List (Option Byte))
  deriving DecidableEq, Repr

/-- The agent that brings a peer's accesses. The transport may use any of its 32 ports, at either of the scale-out I/O dies
(agents 2 and 3, at dies 58 and 61), and the spec does not say which: the model takes die 0 of them, agent 2, whose requests
are stamped with the heartbeat of die 58 (log entry 100). -/
def fabricAgent : Nat := 2

/-- The lines of a context's range table whose halves the host owns are taken back before an agent from outside the core
translates there (R122); true when none is. -/
def State.tableAsk (s : State) (agent serial ctx : Nat) (stamp : BitVec 32) : State × Bool :=
  match s.tableOwned ctx with
  | [] => (s, true)
  | ls => match s.askAll agent serial stamp ls with
    | (s, _) => (s.keepStamp (Req.ofAgent agent serial stamp 0 0 0), false)

/-- A peer asks for what its access touches at its target context. -/
def State.outerAsk (s : State) (ctx ticket : Nat) (rd wr : List Site) : State × Bool :=
  match s.tableAsk fabricAgent ticket ctx (s.stampOf fabricAgent ticket) with
  | (s, false) => (s, false)
  | (s, true) => s.sitesAsk fabricAgent ticket (s.stampOf fabricAgent ticket) rd wr

/-- A remote read at its target context, under a ticket. -/
def State.remoteRead (s : State) (ctx tag ticket : Nat) (v : Word) (n : Nat) : State × Remote :=
  if !s.accepts ctx tag then (s, .refused)
  else
    let xs := (List.range n).map fun k => s.outerSite ctx .rd (v + BitVec.ofNat 64 k)
    if xs.any fun x => x.fault?.isSome then (s, .refused)
    else match s.outerAsk ctx ticket xs [] with
      | (s, false) => (s, .wait)
      | (s, true) => (s.readsDone xs, .done (xs.map s.siteRead))

/-- A remote write at its target context. -/
def State.remoteWrite (s : State) (ctx tag ticket : Nat) (bs : List (Word × Byte)) : State × Remote :=
  if !s.accepts ctx tag then (s, .refused)
  else
    let xs := bs.map fun b => (s.outerSite ctx .wr b.1, b.2)
    if xs.any fun x => x.1.fault?.isSome then (s, .refused)
    else match s.outerAsk ctx ticket [] (xs.map Prod.fst) with
      | (s, false) => (s, .wait)
      | (s, true) => (s.writeSites xs, .done [])

/-- The package's fabric number (R408). -/
def State.package (s : State) : Nat := bits (s.reg .fabid) 0 16

/-- A handle that the transport rejects. -/
def badHandle (h : Word) : Bool := bits h 22 42 != 0

/-- Sends a request of a command to the fabric, under the tag of its context (R408). -/
def State.toFabric (s : State) (c : Command) (tm : Team) (dest : FabricTo) (bs : List (Option Byte)) : State :=
  ({ s with host := { s.host with out := s.host.out ++ [.fabric c.id (s.tag tm.ctx) dest bs] } } : State).modCmd c.id fun x =>
    { x with st := .running }

/-- The bytes that a command sent. -/
def State.sentBy (s : State) (cmd : Nat) : List (Option Byte) :=
  (s.host.out.findSome? fun o => match o with
    | .fabric c _ _ bs => if c = cmd then some bs else none
    | _ => none).getD []

/-- The command waits for a reply of a peer. -/
def Command.awaitsPeer (c : Command) : Bool := c.st == .running && c.reply.isNone && !c.inPieces

/-- The bytes that are there. -/
def present (bs : List (Option Byte)) : List (Nat × Byte) :=
  bs.zipIdx.filterMap fun (b : Option Byte × Nat) => b.1.map fun x => (b.2, x)

/-- `cp.put`: reads the local source; what could be read goes to the peer, or is written here, piece by piece, when the
handle names this package. The bytes credited are those written (R346, R356). -/
def State.startPut (s : State) (c : Command) (tm : Team) : State :=
  if badHandle c.src2 then s.moved s c 0 (some (c.mark 0x71 c.dst))
  else if bits c.src2 0 16 = s.package then
    let ctx := bits c.src2 16 6
    match s.tableAsk (1348 + tm.core) c.id ctx c.stamp with
    | (s, false) => s
    | (s, true) =>
      let ms := copyMoves c (s.site c tm .rd) fun a =>
        if s.accepts ctx (s.tag tm.ctx) then s.outerSite ctx .wr a else .fault targetFault
      s.moveStep c tm ms (Move.srcFault c) (fun m => m.dst.fault?.map fun _ => c.mark 0x71 (dstAddr c m.n)) id
  else
    let xs : List (Word × Site) := (List.range (copyBytes c.shape)).map fun n => (srcAddr c n, s.site c tm .rd (srcAddr c n))
    let faults : List (XFault × Word) := xs.filterMap fun x => x.2.fault?.map fun f => (f, x.1)
    if !faults.isEmpty then s.meetFault c faults
    else match s.cmdReady c tm (xs.map Prod.snd) [] with
      | (s, false) => s
      | (s, true) =>
        let e := (xs.find? fun x => (s.siteByte x.2).2).map fun (x : Word × Site) => c.mark 0x70 x.1
        let dest : FabricTo := .put c.src2 ((List.range xs.length).map (dstAddr c))
        ((s.readsDone (xs.map Prod.snd)).toFabric c tm dest (xs.map fun x => s.siteRead x.2)).modCmd c.id fun x => { x with error := e }

/-- `cp.get`: from this package, what may be read is read piece by piece; a piece that the target refuses or that is poisoned
leaves its destination unchanged (R346, R356). -/
def State.startGet (s : State) (c : Command) (tm : Team) : State :=
  if badHandle c.src2 then s.moved s c 0 (some (c.mark 0x71 c.src))
  else if bits c.src2 0 16 != s.package then
    s.toFabric c tm (.get c.src2 ((List.range (copyBytes c.shape)).map (srcAddr c))) []
  else
    let ctx := bits c.src2 16 6
    match s.tableAsk (1348 + tm.core) c.id ctx c.stamp with
    | (s, false) => s
    | (s, true) =>
      let ms := copyMoves c (fun a => if s.accepts ctx (s.tag tm.ctx) then s.outerSite ctx .rd a else .fault targetFault)
        (s.site c tm .wr)
      s.moveStep c tm ms (Move.dstFault c) (fun m => m.src.fault?.map fun _ => c.mark 0x71 (srcAddr c m.n)) id

/-- Writes what a peer sent to its local destination, by number of the byte; the bytes written are credited. -/
def State.landBytes (s : State) (c : Command) (tm : Team) (at_ : Nat → Word) (bs : List (Nat × Byte)) (e : Option Fault40) :
    State :=
  let xs : List (Nat × Byte × Site) := bs.map fun b => (b.1, b.2, s.site c tm .wr (at_ b.1))
  let faults : List (XFault × Word) := xs.filterMap fun x => x.2.2.fault?.map fun f => (f, at_ x.1)
  let bad := (xs.filter fun x => x.2.2.fault?.isSome).map fun x => (0, 0, (at_ x.1).toNat / 128, 0)
  let kept := xs.filter fun x =>
    x.2.2.fault?.isNone && keepPiece s.agenda.free bad (0, 0, (at_ x.1).toNat / 128, 0) (x.1 / 128)
  match s.cmdReady c tm [] (kept.map fun x => x.2.2) with
  | (s, false) => s
  | (s, true) =>
    let s' := s.writeSites (kept.map fun x => (x.2.2, x.2.1))
    if faults.isEmpty then s'.moved s c kept.length e else (s'.tookFree bs.length).meetFault c faults

/-! Collectives (R354, R355, R410) -/

/-- A collective record, as its eight doublewords. -/
def collOp (r : List Word) : Nat := bits (r.getD 0 0) 0 8
def collFmt (r : List Word) : Nat := bits (r.getD 0 0) 8 8
def collSize (r : List Word) : Nat := bits (r.getD 0 0) 16 16
def collRank (r : List Word) : Nat := bits (r.getD 0 0) 32 32
def collGroup (r : List Word) : Word := r.getD 1 0
def collDest (r : List Word) : Word := r.getD 2 0
def collResid (r : List Word) : Word := r.getD 3 0

/-- The record and its group agree with the rules; otherwise the command signals REMOTE. -/
def State.collOk (s : State) (r shape : List Word) (tag : Nat) : Bool :=
  let g := (collGroup r).toNat
  let a := s.reg (.fabgrpa g)
  let f32 := bits (shape.getD 0 0) 56 4 == 11
  decide (collOp r ≤ 2) && decide (collFmt r ≤ 3) && decide (2 ≤ collSize r ∧ collSize r ≤ 4096) &&
  decide (collRank r < collSize r) && (r.drop 4).all (· == 0) && bits (collResid r) 0 2 == 0 &&
  (collOp r == 2 || f32) && (collOp r != 2 || collFmt r == 0) &&
  (collOp r != 1 || shapeCols shape % collSize r == 0) &&
  decide (g < 256) && a.getLsbD 63 && bits a 48 12 + 1 == collSize r && bits a 36 12 == collRank r && bits a 0 16 == tag

/-- Conversion of a contribution into the wire format and back, exactly widened (R355). -/
def wire (fmt : Nat) (y : Nat) : Nat :=
  let v := Fmt.f32.val y
  let q := match fmt with
    | 1 => Fmt.bf16.val (Fmt.bf16.convert 0 0 v).1
    | 2 => Fmt.e4m3.val (Fmt.e4m3.convert8 true 0 0 v).1
    | _ => Fmt.e5m2.val (Fmt.e5m2.convert8 true 0 0 v).1
  (Fmt.f32.convert 0 0 q).1

def finite32 (x : Nat) : Bool :=
  match Fmt.f32.val x with
  | .fin .. => true
  | .nan _ | .inf _ => false

/-- Difference of binary32 values. -/
def sub32 (x y : Nat) : Nat := (Fmt.f32.sub 0 (Fmt.f32.val x) (Fmt.f32.val y)).1

/-- One element of a contribution: what is sent, and the new residual. -/
def contribution (fmt x res : Nat) : Nat × Nat :=
  let y := addRne Fmt.f32 x res
  let q := wire fmt y
  (q, if finite32 y then sub32 y q else 0)

def word32 (bs : List Byte) (k : Nat) : Nat := leNat ((bs.drop (4 * k)).take 4)

/-- Sites of n consecutive bytes of a command's local address. -/
def State.runSites (s : State) (c : Command) (tm : Team) (need : Need) (v : Word) (n : Nat) : List (Word × Site) :=
  (List.range n).map fun k => (v + BitVec.ofNat 64 k, s.site c tm need (v + BitVec.ofNat 64 k))

/-- Element k of bytes that may be missing. -/
def word32? (bs : List (Option Byte)) (k : Nat) : Option Nat :=
  let w := (bs.drop (4 * k)).take 4
  if w.all Option.isSome then some (leNat (w.filterMap id)) else none

/-- The bytes of an element that may be missing. -/
def bytes32? (x : Option Nat) : List (Option Byte) :=
  match x with
  | some v => (leBytes 4 v).map some
  | none => List.replicate 4 none

/-- The number among the collectives of a group that the next one issued here has; it is matched with those of the same number
at the other members (R410). -/
def State.groupNext (s : State) (g : Nat) : Nat := tget s.engines.groups g 0

def State.bumpGroup (s : State) (g : Nat) : State :=
  { s with engines := { s.engines with groups := tset s.engines.groups g (s.groupNext g + 1) } }

/-- The record of a collective breaks a rule: the match gives REMOTE, here and at every member (R354, R410). -/
def State.rejectColl (s : State) (c : Command) (tm : Team) (r : List Word) : State :=
  let g := (collGroup r).toNat
  let s' := if g < 256 then ((s.toFabric c tm (.reject g (s.groupNext g)) []).bumpGroup g) else s
  s'.moved s c 0 (some (c.mark 0x71 c.dst))

/-- The lines of a group's list of fabric numbers, and the list (R410): bytes of physical memory, as function 0 reads them. -/
def State.groupList (s : State) (g n : Nat) : Nat × Nat := (bits (s.reg (.fabgrpb g)) 1 51 * 2, 2 * n)

def State.groupLines (s : State) (g n : Nat) : List (Nat × Nat × Nat × BitVec 2 × List Bool × Bool) :=
  s.spanLines (.phys (s.hostSlot 0) 0 (s.groupList g n).1 (s.groupList g n).2 false)

def State.groupMembers (s : State) (g n : Nat) : List Nat :=
  (List.range n).map fun k => leNat (s.homeBytes (s.hostSlot 0) ((s.groupList g n).1 + 2 * k) 2)

/-- The list of fabric numbers lies on a poisoned half. -/
def State.groupBad (s : State) (g n : Nat) : Bool :=
  (List.range (2 * n)).any fun k => s.poisonedAt ((s.groupList g n).1 + k)

/-- A collective whose record agrees: what can be read of the contribution is sent to the group's members, and the residuals of
what is sent are written. Elements that meet poison are left out (R346, R355). -/
def State.sendColl (s : State) (c : Command) (tm : Team) (r : List Word) : State :=
  let g := (collGroup r).toNat
  let total := copyBytes c.shape
  let src := s.runSites c tm .rd c.src total
  let uses := collResid r != 0 && collFmt r != 0
  let res := if uses then s.runSites c tm .rw (collResid r) total else []
  let bad : List (XFault × Word) := (src ++ res).filterMap fun x => x.2.fault?.map fun f => (f, x.1)
  if !bad.isEmpty then s.meetFault c bad
  else match s.cmdReady c tm ((src ++ res).map Prod.snd) (res.map Prod.snd) with
    | (s, false) => s
    | (s, true) =>
      let e := ((src ++ res).find? fun x => (s.siteByte x.2).2).map fun (x : Word × Site) => c.mark 0x70 x.1
      let x := src.map fun y => s.siteRead y.2
      let old := res.map fun y => s.siteRead y.2
      let qs : List (Option (Nat × Nat)) := (List.range (total / 4)).map fun k =>
        match word32? x k, word32? old k with
        | some v, some w => some (contribution (collFmt r) v w)
        | _, _ => none
      let sent := if uses then qs.flatMap fun q => bytes32? (q.map Prod.fst) else x
      let s' := if uses then
          s.writeSites (((res.map Prod.snd).zip (qs.flatMap fun q => bytes32? (q.map Prod.snd))).filterMap
            fun w => w.2.map fun b => (w.1, b))
        else s
      let dest : FabricTo := .coll g (s.groupNext g) (s.groupMembers g (collSize r)) (collOp r) (collFmt r) (shapeCols c.shape)
      (((s'.readsDone (src.map Prod.snd)).toFabric c tm dest sent).bumpGroup g).modCmd c.id fun y =>
        { y with shape := y.shape ++ r, error := e, acks := y.acks ++ s'.openSince s }

/-- `cp.coll`: the record is read and checked, and then the group's list of members. -/
def State.startColl (s : State) (c : Command) (tm : Team) : State :=
  if bits c.dst 0 3 != 0 then s.engineFault c alignFault c.dst
  else
    let rec_ := s.runSites c tm .rw c.dst 64
    let badRec : List (XFault × Word) := rec_.filterMap fun x => x.2.fault?.map fun f => (f, x.1)
    if !badRec.isEmpty then s.meetFault c badRec
    else match s.cmdReady c tm (rec_.map Prod.snd) [] with
      | (s, false) => s
      | (s, true) =>
        let bs := rec_.map fun x => (s.siteByte x.2).1
        let r := (List.range 8).map fun k => leWord ((bs.drop (8 * k)).take 8)
        let g := (collGroup r).toNat
        if rec_.any fun x => (s.siteByte x.2).2 then s.moved s c 0 (some (c.mark 0x70 c.dst))
        else if !s.collOk r c.shape (s.tag tm.ctx) then s.rejectColl c tm r
        else match s.askAll (1348 + tm.core) c.id c.stamp (s.groupLines g (collSize r)) with
          | (s, false) => s
          | (s, true) =>
            if s.groupBad g (collSize r) then (s.bumpGroup g).moved s c 0 (some (c.mark 0x70 c.dst)) else s.sendColl c tm r

/-- A sum in the order that the transport chooses (R355). -/
def sumOrder (free : Nat) (l : List Nat) (acc : Option Nat) (fuel : Nat) : Nat :=
  match fuel with
  | 0 => acc.getD 0
  | fuel + 1 =>
    if l.isEmpty then acc.getD 0
    else
      let k := Config.collectiveOrder free l.length % l.length
      let x := l.getD k 0
      sumOrder free (l.eraseIdx k) (some (match acc with | none => x | some a => addRne Fmt.f32 a x)) fuel

/-- The result of a collective from the members' contributions in rank order; the own one is what was sent. An element that
a member did not contribute is missing. -/
def collResult (free : Nat) (r : List Word) (own all : List (Option Byte)) : List (Option Byte) :=
  let n := own.length
  let part (k : Nat) : List (Option Byte) := if k = collRank r then own else (all.drop (k * n)).take n
  let sum (e : Nat) : List (Option Byte) :=
    let xs := (List.range (collSize r)).map fun k => word32? (part k) e
    bytes32? (if xs.all Option.isSome then some (sumOrder (free + e) (xs.filterMap id) none (collSize r)) else none)
  match collOp r with
  | 0 => (List.range (n / 4)).flatMap sum
  | 1 => let m := n / 4 / max 1 (collSize r); (List.range m).flatMap fun e => sum (collRank r * m + e)
  | _ => (List.range (collSize r)).flatMap part

/-- Lands the bytes of a peer; where the peer gave none, the error mark is REMOTE. -/
def State.landReply (s : State) (c : Command) (tm : Team) (at_ : Nat → Word) (bs : List (Option Byte)) : State :=
  let missing := (bs.zipIdx.find? fun b => b.1.isNone).map fun (b : Option Byte × Nat) => c.mark 0x71 (at_ b.2)
  s.landBytes c tm at_ (present bs) (firstMark c.error missing)

/-- The reply is one that a peer gives to such a command. -/
def Command.fits (c : Command) (r : Reply) : Bool :=
  match c.kind, r with
  | .put, .refused | .get, .refused | .coll, .refused | .put, .done | .put, .part _ => true
  | .get, .data bs => bs.length == copyBytes c.shape
  | .coll, .data bs => bs.length == collSize (c.shape.drop 4) * copyBytes c.shape
  | _, _ => false

/-- A peer's reply to a command takes effect, once the command may write what it brought. -/
def State.takeReply (s : State) (c : Command) (tm : Team) : State :=
  let sent := (present (s.sentBy c.id)).length
  match c.kind, c.reply with
  | .put, some .refused | .get, some .refused | .coll, some .refused =>
    s.moved s c 0 (firstMark c.error (some (c.mark 0x71 c.dst)))
  | .put, some .done => s.moved s c sent c.error
  | .put, some (.part n) => s.moved s c (min n sent) (firstMark c.error (some (c.mark 0x71 c.dst)))
  | .get, some (.data bs) => s.landReply c tm (dstAddr c) bs
  | .coll, some (.data bs) =>
    let rec_ := c.shape.drop 4
    let out := collResult s.agenda.free rec_ (s.sentBy c.id) bs
    (s.landReply c tm (fun n => collDest rec_ + BitVec.ofNat 64 n) out).tookFree out.length
  | _, _ => s

/-- REMOTE_RESPONSE: a peer's reply to a command that waits for one. -/
def execRemoteResponse (cmd : Nat) (r : Reply) (s : State) : Host.Outcome State Fault Refusal :=
  .next (match s.cmd? cmd with
    | none => s
    | some c =>
      match s.team? c.team with
      | none => s
      | some tm =>
        if !c.awaitsPeer || !c.fits r then s
        else
          let c := { c with reply := some r }
          (s.modCmd cmd fun x => { x with reply := some r }).takeReply c tm)

/-- PEER_TIMEOUT: a peer that has acknowledged nothing gives REMOTE. -/
def execPeerTimeout (cmd : Nat) (s : State) : Host.Outcome State Fault Refusal :=
  .next (match s.cmd? cmd with
    | none => s
    | some c =>
      match c.kind with
      | .put | .get | .coll =>
        if c.awaitsPeer then s.moved s c 0 (firstMark c.error (some (c.mark 0x71 c.dst))) else s
      | .cp | .feed _ | .mma | .twin | .accZero _ | .accFin _ => s)

end Sys2Proof.Machine
end

