-- ==== Sys2Proof/Machine/CrossLane.lean ====
section
/-! DEFINITION. Cross-lane instructions (R210, R275 to R281): shuffles, votes, scans, election, matching and the
cluster exchange. -/

namespace Sys2Proof.Machine

/-- Delivers values and, with PD, the dead-source predicate (R275). -/
def State.deliverDead (s : State) (i : Issue) (m : Mask) (d : Opd) (w : Nat) (vals : List (Nat × Word))
    (pd : Option (BitVec 3)) (dead : Nat → Bool) : State :=
  let ps := match pd with
    | some p => predWrites p m dead
    | none => []
  match Opd.queue? d with
  | some q => (if m = 0 then s else s.push i.ref.team i.ref.warp q m vals 0).results i ps
  | none => s.results i (destWrites i.ref.slice d w vals ++ ps)

/-! Shuffles (R276) -/

/-- The source lane of a `shfl`, and whether it is valid: kind 0 idx, 1 up, 2 down, 3 xor. -/
def shflLane (kind w lane e : Nat) : Nat × Bool :=
  let base := lane - lane % w
  match kind with
  | 0 => (base + e % w, true)
  | 1 => (lane - e, decide (e < w ∧ base + e ≤ lane))
  | 2 => (lane + e, decide (e < w ∧ lane + e < base + w))
  | _ => (base + Nat.xor (lane - base) (e % w), true)

/-- Width of a segment code. -/
def segWidth (seg : BitVec 3) : Nat := 32 / 2 ^ seg.toNat

/-- `shfl`. A dead source lane sets the dead-source predicate also when a names a queue, as the pseudocode and R210 say; the
last sentence of R276 would have it false there (log entry 118). -/
def State.shfl (s : State) (i : Issue) (kind : Nat) (h : Head) (t : Ty) (seg : BitVec 3) (d a b : Opd)
    (pd : Option (BitVec 3)) : State :=
  let m0 := i.active h.guard
  if m0 = 0 then s.advance i h.mark
  else
    match i.pushWait d with
    | some q => s.waitAt i (.push q false)
    | none => s.withSources i m0 [a, b] fun _ s m rd =>
      let dead := i.wp.dead ||| (m0 &&& ~~~m)
      let src (l : Nat) : Nat × Bool := shflLane kind (segWidth seg) l (rd 1 l 32).toNat
      let isDead (l : Nat) : Bool := (src l).2 && dead.getLsbD (src l).1
      let val (l : Nat) : Word :=
        if !(src l).2 then rd 0 l (Ty.w t)
        else if dead.getLsbD (src l).1 then 0
        else if (Opd.queue? a).isSome && !m.getLsbD (src l).1 then 0
        else rd 0 (src l).1 (Ty.w t)
      (s.deliverDead i m d (Ty.w t) (laneVals m fun l => extendTo i.ref.slice t (val l).toNat) pd isDead).advance i
        h.mark

def execShflIdx (h : Head) (t : Ty) (seg : BitVec 3) (d a b : Opd) (pd : Option (BitVec 3)) (s : State) :
    Host.Outcome State Fault Refusal := word s fun i => s.shfl i 0 h t seg d a b pd

def execShflUp (h : Head) (t : Ty) (seg : BitVec 3) (d a b : Opd) (pd : Option (BitVec 3)) (s : State) :
    Host.Outcome State Fault Refusal := word s fun i => s.shfl i 1 h t seg d a b pd

def execShflDown (h : Head) (t : Ty) (seg : BitVec 3) (d a b : Opd) (pd : Option (BitVec 3)) (s : State) :
    Host.Outcome State Fault Refusal := word s fun i => s.shfl i 2 h t seg d a b pd

def execShflXor (h : Head) (t : Ty) (seg : BitVec 3) (d a b : Opd) (pd : Option (BitVec 3)) (s : State) :
    Host.Outcome State Fault Refusal := word s fun i => s.shfl i 3 h t seg d a b pd

/-! Votes (R277) -/

/-- The active lanes whose predicate is true. -/
def SliceState.ballot (x : SliceState) (m : Mask) (p : BitVec 3) : Mask :=
  maskOf fun l => m.getLsbD l && x.pred p.toNat l

def execVoteAny (h : Head) (dp ap : BitVec 3) (s : State) : Host.Outcome State Fault Refusal :=
  word s fun i => s.lanewisePred i h [] dp fun m _ _ => i.sl.ballot m ap != 0

def execVoteAll (h : Head) (dp ap : BitVec 3) (s : State) : Host.Outcome State Fault Refusal :=
  word s fun i => s.lanewisePred i h [] dp fun m _ _ => i.sl.ballot m ap == m

def execVoteBallot (h : Head) (d : Opd) (ap : BitVec 3) (s : State) : Host.Outcome State Fault Refusal :=
  word s fun i => s.lanewise i h [] d 32 fun m _ _ => (i.sl.ballot m ap).setWidth 64

/-! Scans (R278) -/

/-- One combination. -/
def scanOp (op : BitVec 3) (t : Ty) (x y : Nat) : Nat :=
  match op.toNat with
  | 0 => intAdd t false x y
  | 1 => intMin t x y
  | 2 => intMax t x y
  | 3 => Nat.land x y
  | 4 => Nat.lor x y
  | _ => Nat.xor x y

/-- The identity of an operation. -/
def scanUnit (op : BitVec 3) (t : Ty) : Nat :=
  let n := Ty.ibits t
  match op.toNat with
  | 1 => if Ty.signed t then 2 ^ (n - 1) - 1 else 2 ^ n - 1
  | 2 => if Ty.signed t then 2 ^ (n - 1) else 0
  | 3 => 2 ^ n - 1
  | _ => 0

/-- The combination of the lanes of a mask that satisfy p, ascending. -/
def scanOver (op : BitVec 3) (t : Ty) (m : Mask) (val : Nat → Nat) (p : Nat → Bool) : Nat :=
  ((lanesOf m).filter p).foldl (fun acc l => scanOp op t acc (val l)) (scanUnit op t)

def execScan (h : Head) (t : Ty) (op : BitVec 3) (d a : Opd) (s : State) : Host.Outcome State Fault Refusal :=
  word s fun i => s.lanewise i h [a] d (Ty.w t) fun m rd l =>
    extendTo i.ref.slice t (scanOver op t m (fun k => (rd 0 k (Ty.w t)).toNat) fun k => decide (k ≤ l))

def execScanEx (h : Head) (t : Ty) (op : BitVec 3) (d a : Opd) (s : State) : Host.Outcome State Fault Refusal :=
  word s fun i => s.lanewise i h [a] d (Ty.w t) fun m rd l =>
    extendTo i.ref.slice t (scanOver op t m (fun k => (rd 0 k (Ty.w t)).toNat) fun k => decide (k < l))

def execWred (h : Head) (t : Ty) (op : BitVec 3) (d a : Opd) (s : State) : Host.Outcome State Fault Refusal :=
  word s fun i => s.lanewise i h [a] d (Ty.w t) fun m rd _ =>
    extendTo i.ref.slice t (scanOver op t m (fun k => (rd 0 k (Ty.w t)).toNat) fun _ => true)

/-! Election and matching (R279) -/

def execElect (h : Head) (dp : BitVec 3) (s : State) : Host.Outcome State Fault Refusal :=
  word s fun i => s.lanewisePred i h [] dp fun m _ l => lowLane m == some l

def execMatchLanes (h : Head) (t : Ty) (d a : Opd) (s : State) : Host.Outcome State Fault Refusal :=
  word s fun i => s.lanewise i h [a] d 32 fun m rd l =>
    (maskOf fun j => m.getLsbD j && rd 0 j (Ty.w t) == rd 0 l (Ty.w t)).setWidth 64

/-! The cluster exchange (R280, R281) -/

/-- One side of an exchange with its source read: the lanes that are active, those dead, and their values. -/
structure Side where
  i : Issue
  mask : Mask
  dead : Mask
  vals : Table Word
  deriving DecidableEq, Repr

/-- Reads a side's source, popping its queue. -/
def State.side (s : State) (r : StreamRef) (mask : Mask) (t : Ty) (a : Opd) : Option (State × Side) :=
  match s.issue? r with
  | none => none
  | some i =>
    let m0 := mask &&& i.sp.mask
    match i.wp.pops m0 (if m0 = 0 then [] else (Opd.queue? a).toList) with
    | .wait _ => none
    | .fault _ => none
    | .ok w es died =>
      let m := m0 &&& ~~~died
      some ((s.modWarp r.team r.warp fun _ => w).kill r.team r.warp died,
        ⟨i, m, i.wp.dead ||| died, laneVals m fun l => reader i [a] es 0 l (Ty.w t)⟩)

/-- Completes one side with the other's values. -/
def State.sideDone (s : State) (x other : Side) (o : Offer) : State :=
  let val (l : Nat) : Word := if other.mask.getLsbD l then tget other.vals l 0 else 0
  let s := s.modSlice x.i.ref.team x.i.ref.warp x.i.ref.slice fun y =>
    { y with offers := y.offers.filter fun z => z.split != x.i.ref.split }
  (s.deliverDead x.i x.mask o.d (Ty.w o.ty) (laneVals x.mask fun l => extendTo x.i.ref.slice o.ty (val l).toNat) o.pd
    fun l => other.dead.getLsbD l).advance x.i o.mark

/-- The oldest offer of a slice for m whose split still waits. -/
def SliceState.offer? (x : SliceState) (m : Nat) : Option Offer :=
  x.offers.find? fun o => o.m == m && x.splits.any fun sp => sp.num == o.split

/-- `xch`: it pairs with the partner's oldest waiting exchange of the same m, or waits itself. The partner word runs
in its own split, so both complete in this step. PEER is raised at issue only: one that waits goes on waiting when its
partner's team leaves (R281, R339). -/
def State.xch (s : State) (i : Issue) (o : Offer) : State :=
  let kp := Nat.xor (i.tm.core % 4) o.m
  match if i.tm.share then s.peer? i.tm kp else none with
  | none => if i.sp.wait == .exchange o.m then s else s.decodeTrap i 1 0x07 0
  | some pt =>
    let ready (s : State) (r : StreamRef) (o : Offer) : Bool :=
      (s.issue? r).any fun j => (j.pushWait o.d).isNone
    match i.pushWait o.d, i.wp.pops o.mask (if o.mask = 0 then [] else (Opd.queue? o.a).toList) with
    | some q, _ => s.waitAt i (.push q false)
    | none, .wait q => s.waitAt i (.pop q o.mask)
    | none, .fault f => s.raiseAt i (Trap.ofPop i f)
    | none, .ok .. =>
      let wait (s : State) : State :=
        (s.modSlice i.ref.team i.ref.warp i.ref.slice fun x =>
          if x.offers.any fun z => z.split == i.ref.split then x else { x with offers := x.offers ++ [o] }).waitAt i
          (.exchange o.m)
      let pr (n : Nat) : StreamRef := ⟨pt, i.ref.warp, i.ref.slice, n⟩
      match ((s.team? pt).bind fun tm => tget? tm.warps i.ref.warp).bind fun w => (w.slice i.ref.slice).offer? o.m with
      | none => wait s
      | some po =>
        if (i.sl.offer? o.m).any (fun z => z.split != i.ref.split) || !ready s (pr po.split) po then wait s
        else
          match s.side i.ref o.mask o.ty o.a with
          | none => wait s
          | some (s1, x) =>
            match s1.side (pr po.split) po.mask po.ty po.a with
            | none => wait s
            | some (s2, y) => ((s2.sideDone x y o).sideDone y x po).reapAll

def execXch (h : Head) (t : Ty) (m : BitVec 2) (d a : Opd) (pd : Option (BitVec 3)) (s : State) :
    Host.Outcome State Fault Refusal :=
  word s fun i => s.xch i ⟨m.toNat, i.ref.split, i.active h.guard, h.mark, t, d, a, pd⟩

end Sys2Proof.Machine
end

