-- ==== Sys2Proof/Machine/Matrix.lean ====
section
/-! DEFINITION. The matrix array (R15, R163 to R172, R292, R309, R310, R357 to R361, R398, R399), `acc.fin` (R175 to R178),
and the start of commands (R138, R198 to R200, R342, R343). -/

namespace Sys2Proof.Machine

/-! Operand streams (R286, R292, R357) -/

/-- Twice the bytes of an element of a format code. -/
def halfBytes (f : Nat) : Nat :=
  match f with
  | 1 | 2 => 4
  | 7 => 1
  | _ => 2

/-- Element k of a stream. -/
def elemVal (f : Nat) (bs : List Byte) (k : Nat) : Val :=
  match f with
  | 1 => Fmt.bf16.val (leNat ((bs.drop (2 * k)).take 2))
  | 2 => Fmt.f16.val (leNat ((bs.drop (2 * k)).take 2))
  | 3 => Fmt.e4m3.val (bs.getD k 0).toNat
  | 4 => Fmt.e5m2.val (bs.getD k 0).toNat
  | 5 => let z := toInt 8 (bs.getD k 0).toNat; .fin (decide (z < 0)) z.natAbs 0
  | 6 => .fin false (bs.getD k 0).toNat 0
  | _ => Fmt.e2m1.val ((bs.getD (k / 2) 0).toNat / 16 ^ (k % 2) % 16)

/-- The fields of a run: M, N of one array, K, the formats, and whether blocks are scaled. -/
structure Run where
  m : Nat
  n : Nat
  k : Nat
  a : Nat
  b : Nat
  block : Bool
  deriving DecidableEq, Repr

def Command.isTwin (c : Command) : Bool :=
  match c.kind with
  | .twin => true
  | .mma | .cp | .feed _ | .coll | .put | .get | .accZero _ | .accFin _ => false

def Command.run (c : Command) : Run :=
  ⟨shapeRows c.shape, shapeCols c.shape / (if c.isTwin then 2 else 1), shapeK c.shape, fmtA c.fmt, fmtB c.fmt,
    fmtBlock c.fmt⟩

/-- Bytes of the elements of each stream, and of the stream. -/
def Run.elemsA (r : Run) : Nat := r.m * r.k * halfBytes r.a / 2
def Run.elemsB (r : Run) : Nat := r.k * r.n * halfBytes r.b / 2
def Run.lenA (r : Run) : Nat := r.elemsA + if r.block then r.m * r.k / 32 else 0
def Run.lenB (r : Run) : Nat := r.elemsB + if r.block then r.k * r.n / 32 else 0

/-- MACs of an array per cycle (R292). -/
def Run.macs (r : Run) : Nat :=
  if r.block then (if r.a = 7 && r.b = 7 then 8192 else 4096) else if r.a ≤ 2 then 2048 else 4096

/-- The scales of a block: none for a NaN scale, else the power of two. -/
def Run.scale (r : Run) (as bs : List Byte) (m n j : Nat) : Option Int :=
  if !r.block then some 0
  else
    let sa := (as.getD (r.elemsA + m * (r.k / 32) + j) 0).toNat
    let sb := (bs.getD (r.elemsB + j * r.n + n) 0).toNat
    if sa = 255 || sb = 255 then none else some ((sa : Int) - 127 + ((sb : Int) - 127))

/-- A term of a sum, scaled exactly. -/
def scaleVal (x : Val) (e : Option Int) : Val :=
  match x, e with
  | _, none => .nan false
  | .fin neg m q, some e => .fin neg m (q + e)
  | .nan b, some _ => .nan b
  | .inf b, some _ => .inf b

/-- The products of block j for output (m, n) (R309). -/
def Run.terms (r : Run) (as bs : List Byte) (m n j : Nat) : List (Val × Bool) :=
  (List.range 32).map fun i =>
    let k := 32 * j + i
    (scaleVal (mulVal (elemVal r.a as (m * r.k + k)) (elemVal r.b bs (k * r.n + n))).1 (r.scale as bs m n j), false)

/-- Adds blocks to an accumulator, each with one rounding to F48. -/
def sumBlocks (blocks : List (List (Val × Bool))) : Nat :=
  blocks.foldl (fun (acc : Nat) ts => (Fmt.f48.sumOf 0 ((Fmt.f48.val acc, false) :: ts)).1) 0

/-- An output of a run. -/
def Run.output (r : Run) (as bs : List Byte) (m n : Nat) : Nat :=
  sumBlocks ((List.range (r.k / 32)).map (r.terms as bs m n))

/-- round(2^24 v) to nearest even as an integer; 0 when v is not finite. -/
def checkRound (v : Val) : Int :=
  match v with
  | .fin neg m e => signed neg (roundUnits 0 0 neg m (e + 24) 0).1
  | .nan _ | .inf _ => 0

/-- The check word of the line of columns n to n + 15 of row m (R399). -/
def Run.check (r : Run) (as bs : List Byte) (m n : Nat) : Word :=
  let c := sumBlocks ((List.range (r.k / 32)).map fun j => (List.range 16).flatMap fun i => r.terms as bs m (n + i) j)
  BitVec.ofInt 64 (checkRound (Fmt.f48.val c))

/-! The budget (R360) -/

/-- Differing bits of neighbouring words of a stream's first 256 bytes, and the number of pairs. -/
def toggles (bs : List Byte) : Nat × Nat :=
  let n := min 256 bs.length / 8
  let w (k : Nat) : Word := leWord ((bs.drop (8 * k)).take 8)
  ((List.range (n - 1)).foldl (fun acc k => acc + (setBitsOf (w k ^^^ w (k + 1))).length) 0, n - 1)

/-- TE of a run's streams. -/
def toggleEstimate (ss : List (List Byte)) : Nat :=
  let ts := ss.map toggles
  let d := ts.foldl (fun acc t => acc + t.1) 0
  let p := ts.foldl (fun acc t => acc + t.2) 0
  if p = 0 then 0 else min 15 (d / (2 * p))

def Run.charge (r : Run) (te : Nat) : Nat := (r.m * r.n * r.k / r.macs * (8 + te) + 15) / 16

/-! Runs -/

/-- Bytes that a run still takes: of the A stream, of the B stream, and of the odd core's B stream. -/
def Command.needA (c : Command) : Nat := c.run.lenA - c.gotA.length
def Command.needB (c : Command) : Nat := c.run.lenB - c.gotB.length
def Command.needOdd (c : Command) : Nat := if c.isTwin then c.run.lenB - c.gotOdd.length else 0

/-- Bytes of a core's FIFO, 0 A and 1 B, that started runs still take. -/
def State.spoken (s : State) (core fifo : Nat) : Nat :=
  (s.engines.cmds.filter fun c => c.matrix && c.st == .running).foldl (fun (n : Nat) c =>
    match s.team? c.team with
    | some tm => n + (if tm.core = core then (if fifo = 0 then c.needA else c.needB) else 0) +
        (if fifo = 1 && tm.core + 1 = core then c.needOdd else 0)
    | none => n) 0

/-- The FIFO bytes at the front of a run's streams, behind those of started runs: A, B, and B of the odd core. -/
def State.streams (s : State) (core : Nat) (c : Command) : List (List Byte × Nat) :=
  let r := c.run
  let front (l : List FifoByte) (n : Nat) : List Byte := (l.drop n).map Prod.fst
  [(front (s.core core).fifoA (s.spoken core 0), r.lenA), (front (s.core core).fifoB (s.spoken core 1), r.lenB)] ++
    (if c.isTwin then [(front (s.core (core + 1)).fifoB (s.spoken (core + 1) 1), r.lenB)] else [])

/-- A started run consumes the A stream, then the B streams, as their bytes arrive (R357, R358). -/
def State.consume (s : State) (core : Nat) (c : Command) : State :=
  let a := (s.core core).fifoA.take c.needA
  let c := { c with gotA := c.gotA ++ a }
  let b := if c.needA = 0 then (s.core core).fifoB.take c.needB else []
  let odd := if c.needA = 0 then (s.core (core + 1)).fifoB.take c.needOdd else []
  let s := s.modCore core fun x => { x with fifoA := x.fifoA.drop a.length, fifoB := x.fifoB.drop b.length }
  let s := if c.isTwin then s.modCore (core + 1) fun x => { x with fifoB := x.fifoB.drop odd.length } else s
  s.modCmd c.id fun x => { x with gotA := c.gotA, gotB := c.gotB ++ b, gotOdd := c.gotOdd ++ odd }

/-- Bytes that a team's feeds will still append to a FIFO. -/
def State.feeding (s : State) (t fifo : Nat) : Nat :=
  (s.engines.cmds.filter fun c => c.team == t && c.kind == .feed fifo && c.verdict != some false &&
    (c.st == .queued || c.st == .running)).foldl (fun n c => n + (copyBytes c.shape - c.passed)) 0

/-- Some byte of a run's streams is neither in its FIFOs nor to come from a feed, behind what the team's earlier runs take:
the run is not in flight for the waits of R339 (R359). A budget covers every run in the end, once the bucket is full. -/
def State.starved (s : State) (c : Command) : Bool :=
  match s.team? c.team with
  | none => true
  | some tm =>
    let runs := s.engines.cmds.filter fun e => e.team == c.team && e.matrix && e.verdict != some false &&
      (e.st == .queued || e.st == .running) && decide (e.id ≤ c.id)
    let need (f : Command → Nat) : Nat := runs.foldl (fun n e => n + f e) 0
    let got (core fifo : Nat) : Nat :=
      if (s.core core).fifoOwner = some c.team then ((s.core core).fifo (min fifo 1)).length else 0
    decide (got tm.core 0 + s.feeding c.team 0 < need Command.needA) ||
    decide (got tm.core 1 + s.feeding c.team 1 < need Command.needB) ||
    decide (got (tm.core + 1) 1 + s.feeding c.team 2 < need Command.needOdd)

/-- The first 256 bytes of each stream, or the whole of it, are in the FIFOs. -/
def State.runReady (s : State) (core : Nat) (c : Command) : Bool :=
  (s.streams core c).all fun x => decide (min 256 x.2 ≤ x.1.length)

/-- The accesses that a command must follow have been performed (R138, R342). -/
def State.afterDone (s : State) (c : Command) : Bool :=
  s.flights.all fun f => !c.after.contains f.id || f.ended

/-- No earlier command of the warp stands before this one: an unmatched one holds every later one, and each engine takes
a warp's commands in order (R14, R200). -/
def State.atHead (s : State) (c : Command) : Bool :=
  s.engines.cmds.all fun e => !(e.team == c.team && e.warp == c.warp && decide (e.id < c.id)) ||
    !(e.verdict.isNone || (e.matrix == c.matrix && (e.st == .queued || (e.st == .running && (e.usesFifo || e.inPieces)))))

/-- The team is on its core, or halting there. -/
def State.cmdTeam (s : State) (c : Command) : Option Team :=
  (s.team? c.team).bind fun tm => if tm.resident then some tm else none

/-- A run occupies a core's array. -/
def State.arrayBusy (s : State) (core : Nat) : Bool :=
  s.engines.cmds.any fun c => c.matrix && c.st == .running &&
    (s.team? c.team).any fun (tm : Team) => tm.core == core || (c.isTwin && tm.core + 1 == core)

/-- The lines of a run's tile, M × N / 16 of them. -/
def Command.tileLines (c : Command) : Nat := shapeRows c.shape * shapeCols c.shape / 16

/-- What the translation of a tile gives: walks to await, the first fault, or its lines. -/
inductive Tile where
  | walk (gs : List Word)
  | fault (f : XFault) (v : Word)
  | ok (ls : List (Xlat × Nat))
  deriving DecidableEq, Repr

/-- The lines of a tile lie in one ACC range that permits the access (R163, R358). A base that is not aligned raises
ALIGN_FAULT before its window is looked at: the spec gives ALIGN_FAULT and ACC_FAULT no order (log entry 101). A line in
passage keeps the place of its image. -/
def State.tileSites (s : State) (c : Command) (tm : Team) (need : Need) (base : Word) (n : Nat) : Tile :=
  if bits base 0 7 != 0 then .fault alignFault base
  else
    let sites := (List.range n).map fun k => (s.accSite c tm need (tileLine base k), tileLine base k)
    let walks := sites.filterMap fun x => x.1.walk?
    if !walks.isEmpty then .walk walks
    else
      let add (l : List (Xlat × Nat)) (x : Xlat) (pa : Nat) (v : Word) : Tile :=
        if l.all fun y => y.1.index == x.index then .ok (l ++ [(x, pa)]) else .fault accFault v
      sites.foldl (fun (acc : Tile) y => match acc, y.1 with
        | .ok l, .mem x pa => add l x pa y.2
        | .ok _, .fault f => .fault f y.2
        | .ok l, .passing =>
          (match s.lookCmd tm.core tm.ctx c.id need y.2 with
          | .hit x => add l x (x.pa? y.2) y.2
          | .miss | .fault _ => .fault noMap y.2)
        | .ok _, .tide .. | .ok _, .walk _ => .fault accFault y.2
        | t, _ => t) (.ok [])

/-- A command's tile awaits walks. -/
def State.joinTile (s : State) (c : Command) (tm : Team) (gs : List Word) : State :=
  gs.foldl (fun (s : State) g => s.joinWalk tm.core tm.ctx g (some (.cmd c.id))) s

/-- The images of a tile's lines have been used. -/
def State.usedTile (s : State) (c : Command) (tm : Team) (ls : List (Xlat × Nat)) : State :=
  (s.useRanges tm.core (ls.map fun l => .mem l.1 l.2)).forget tm.core (.cmd c.id)

/-- A run may start as far as its queue, its team and its operands are concerned. -/
def State.runnable (s : State) (c : Command) : Bool :=
  c.matrix && c.st == .queued && c.verdict == some true && s.afterDone c && s.atHead c &&
  (match s.cmdTeam c with
   | some tm => tm.status == .running && (s.core tm.core).fifoOwner == some c.team && s.runReady tm.core c
   | none => false)

/-- A run that has become ready learns its TE and charge. -/
def State.noted (s : State) (core : Nat) (c : Command) : Command :=
  if c.te.isNone && s.runnable c && (s.team? c.team).any fun (tm : Team) => tm.core == core then
    let te := toggleEstimate ((s.streams core c).map fun x => x.1.take (min 256 x.2))
    { c with te := some (te, c.run.charge te) }
  else c

def State.noteReady (s : State) (core : Nat) : State :=
  { s with engines := { s.engines with cmds := s.engines.cmds.map fun (c : Command) => s.noted core c } }

/-- A command as the start of run `id` leaves it: it runs, or it has been passed over. -/
def Command.started (c : Command) (id : Nat) (ready : List Nat) : Command :=
  if c.id = id then { c with st := .running }
  else if ready.contains c.id then { c with passed := c.passed + 1 } else c

/-- The run that the array takes next: one passed over four times, else the lowest TE, else the oldest. -/
def State.nextRun (s : State) (core : Nat) : Option Command :=
  let rs := (s.readyRuns core).filter s.runnable
  match rs.find? fun c => decide (4 ≤ c.passed) with
  | some c => some c
  | none => rs.foldl (fun (b : Option Command) c => match b with
    | none => some c
    | some d => if (c.te.map Prod.fst).getD 0 < (d.te.map Prod.fst).getD 0 then some c else some d) none

def Budget.take (b : Budget) (te charge : Nat) : Budget :=
  { b with last := min charge 65535, lastTe := te, level := b.level - charge }

/-- The cores whose arrays a run uses. -/
def Command.arrays (c : Command) (core : Nat) : List Nat := if c.isTwin then [core, core + 1] else [core]

/-- MMA_RUN_START: checks the tile, takes the FIFOs, notes what is ready, and starts the run if it is the one that the
array takes and every array's bucket covers its charge. -/
def execMmaRunStart (cmd : Nat) (duplicateDiffers : Bool) (s : State) : Host.Outcome State Fault Refusal :=
  .next (match s.cmd? cmd with
    | none => s
    | some c =>
      match s.cmdTeam c with
      | none => s
      | some tm =>
        if !c.matrix || c.st != .queued || c.verdict != some true || tm.status != .running || !s.afterDone c ||
            !s.atHead c then s
        else if c.isTwin && !tm.twin then
          (s.modCmd c.id fun x => { x with st := .faulted }).raise c.team (Trap.ofCommand c 12 0x72 0 0)
        else match s.tileSites c tm .accWr c.dst c.tileLines with
          | .walk gs => s.joinTile c tm gs
          | .fault f v => s.engineFault c f v
          | .ok ls =>
            let s := s.usedTile c tm ls
            match (c.arrays tm.core).foldl (fun (acc : Option State) (k : Nat) => acc.bind fun s => s.takeFifos k c.team)
                (some s) with
            | none => s
            | some s =>
              let s := ((c.arrays tm.core).foldl State.fillBucket (s.noteReady tm.core)).bumpFree
              match (s.nextRun tm.core).filter fun x => x.id == cmd with
              | none => s
              | some c =>
                let te := (c.te.map Prod.fst).getD 0
                let charge := (c.te.map Prod.snd).getD 0
                if (c.arrays tm.core).any fun k => s.arrayBusy k || !(s.core k).budget.covers charge then s
                else
                  let s := (c.arrays tm.core).foldl (fun (s : State) (k : Nat) =>
                    s.modCore k fun x => { x with budget := x.budget.take te charge }) s
                  if duplicateDiffers then
                    ((s.modCmd c.id fun x => { x with st := .faulted }).raise c.team (Trap.ofCommand c 12 0x73 0 0)).logEvent
                      0x0E (s.ctxFn tm.ctx) tm.ctx (2372 + tm.core) c.dst c.pc
                  else
                    let others := ((s.readyRuns tm.core).filter s.runnable).map Command.id
                    { s with engines := { s.engines with
                      cmds := s.engines.cmds.map fun (x : Command) => x.started c.id others } })

/-- The poison bits of an emission. The spec names no cause of one (R167): where a run has consumed a byte that its feed read
with poison or its FIFO lost, they are free values, and otherwise 0 (log entry 54). -/
def State.emissionPoison (s : State) (c : Command) (k : Nat) : BitVec 16 :=
  if (c.gotA ++ c.gotB ++ c.gotOdd).any Prod.snd then (Config.freeWord 52 (s.agenda.free + k)).setWidth 16 else 0

/-- The emission of line k of a tile. -/
def State.emissionOf (s : State) (c : Command) (tm : Team) (x : Xlat) (k : Nat) (vals : List Nat) (check : Word) :
    Emission :=
  { id := s.agenda.next + k, cmd := c.id, team := c.team, core := tm.core, xl := x,
    off := (tileLine c.dst k - x.base).toNat, vals := vals.map fun v => BitVec.ofNat 48 v,
    poison := s.emissionPoison c k,
    tag := BitVec.ofNat 8 (fmtA c.fmt + 16 * fmtB c.fmt),
    scope := (match c.scope with | .none | .warp => 0 | .team => 1 | .cluster => 2 | .die => 3 | .pkg | .sys => 4),
    check := check, count := 1 }

/-- The emissions of a run that has consumed its streams (R167, R309, R399). -/
def State.emissionsOf (s : State) (c : Command) (tm : Team) (ls : List (Xlat × Nat)) : List Emission :=
  let r := c.run
  let as := c.gotA.map Prod.fst
  let perRow := shapeCols c.shape / 16
  ls.zipIdx.map fun (l : (Xlat × Nat) × Nat) =>
    let m := l.2 / perRow
    let n := l.2 % perRow * 16
    let b := (if n < r.n then c.gotB else c.gotOdd).map Prod.fst
    s.emissionOf c tm l.1.1 l.2 ((List.range 16).map fun i => r.output as b m (n % r.n + i)) (r.check as b m (n % r.n))

/-- MMA_RUN_END: the run consumes the bytes of its streams that have arrived; once it has them all, one emission goes to each
line (R167, R358, R360). -/
def execMmaRunEnd (cmd : Nat) (s : State) : Host.Outcome State Fault Refusal :=
  .next (match s.cmd? cmd with
    | none => s
    | some c =>
      match s.cmdTeam c with
      | none => s
      | some tm =>
        if !c.matrix || c.st != .running then s
        else
          let s := s.consume tm.core c
          match s.cmd? cmd with
          | none => s
          | some c =>
            if c.needA + c.needB + c.needOdd != 0 then s
            else match s.tileSites c tm .accWr c.dst c.tileLines with
              | .walk gs => s.joinTile c tm gs
              | .fault f v => s.engineFault c f v
              | .ok ls =>
                let s := s.usedTile c tm ls
                let es := s.emissionsOf c tm ls
                let s := ({ s with
                  engines := { s.engines with emissions := s.engines.emissions ++ es }
                  agenda := { s.agenda with next := s.agenda.next + es.length } } : State).tookFree es.length
                (s.moved s c (128 * c.tileLines) none).modCmd cmd fun x => { x with gotA := [], gotB := [], gotOdd := [] })

/-! Emissions (R168, R171, R172, R182) -/

def State.dropEmission (s : State) (id : Nat) : State :=
  { s with engines := { s.engines with emissions := s.engines.emissions.filter fun (e : Emission) => e.id != id } }

/-- The request of an emission for its line at home. -/
def Emission.lines (e : Emission) (pa : Nat) : List (Nat × Nat × Nat × BitVec 2 × List Bool × Bool) :=
  [(lineOf pa, e.xl.key, e.xl.fn, e.xl.cache, [false, true], true)]

/-- EMISSION_APPLY: at the line's home, where the home's steering places it (R65, R72), or in the cluster's gather buffer for
`.team`. An emission that meets a line whose POISON bit is set is logged and dropped, and its command signals as if it had
been applied: the spec says that it is not applied, and not whether the target is then signalled (log entry 102). -/
def execEmissionApply (n : Nat) (s : State) : Host.Outcome State Fault Refusal :=
  .next (match s.engines.emissions.find? fun e => e.id == n with
    | none => s
    | some e =>
      let vals := e.vals.map BitVec.toNat
      match s.spot e.xl e.off with
      | .passing => s.keepStamp (Req.ofAgent (2372 + e.core) n (s.stampOf (2372 + e.core) n) 0 0 0)
      | .stranded => (match s.cmd? e.cmd with
        | some c => (s.dropEmission n).engineFault c strandedFault c.dst
        | none => s.dropEmission n)
      | .at_ pa =>
        if e.scope = 1 then
          match s.team? e.team with
          | none => s.dropEmission n
          | some tm =>
            let g : GEntry :=
              { team := e.team, ctx := e.xl.ctx, index := e.xl.index, off := e.off + 128, pa := pa, key := e.xl.key,
                fn := e.xl.fn, cache := e.xl.cache, acc := some accZero, op := 0, ty := .none, words := [], id := s.fresh }
            match s.bump.bufferEmission (tm.core / 4) g vals e.poison e.tag.toNat e.check.toNat with
            | (s, true) => s.dropEmission n
            | (s, false) => s
        else
          match s.askAll (2372 + e.core) n (s.stampOf (2372 + e.core) n) (e.lines pa) with
          | (s, false) => s
          | (s, true) =>
            (s.homeEmission e.xl.key e.xl.fn pa vals e.poison e.tag.toNat e.scope e.check.toNat e.count).dropEmission n)

/-! `acc.fin` (R175 to R178, R180, R310, R399) -/

/-- The status of the first line that stops a finalisation. -/
def lineStatus (e : Nat) (k : Nat) (img : List Byte) (poisoned : Bool) : Option Nat :=
  let stsc := fieldOf img 100 2
  let found := fieldOf img 96 4
  let odd := stsc / 2 ^ 14 = 3 || stsc / 2 ^ 11 % 2 = 1 || stsc % 256 != 0 || fieldOf img 112 16 != 0
  if poisoned || fieldOf img 103 1 != 0 then some (2 + 256 * k + 65536 * found)
  else if odd || found != e || stsc / 2 ^ 12 % 2 = 1 then some (1 + 256 * k + 65536 * found)
  else none

/-- Units of the smallest F48 subnormal in a finite value. -/
def units48 (v : Val) : Option Int :=
  match v with
  | .fin neg m e => some (signed neg (m * 2 ^ (e - Fmt.f48.qmin).toNat))
  | .nan _ | .inf _ => none

/-- The check of R399 fails for a line. -/
def checkFails (img : List Byte) : Bool :=
  let us := (List.range 16).map fun i => units48 (Fmt.f48.val (accVal img i))
  if us.any Option.isNone then false
  else
    let zs := us.map fun u => u.getD 0
    let v : Int := zs.foldl (· + ·) 0
    let m := zs.foldl (fun (acc : Nat) z => acc + z.natAbs) 0
    let one : Nat := 2 ^ (-Fmt.f48.qmin).toNat
    if 2 ^ 38 * one ≤ m then false
    else
      let d := (BitVec.ofInt 64 (checkRound (.fin (decide (v < 0)) v.natAbs Fmt.f48.qmin) - (fieldOf img 104 8 : Nat))).toInt
      decide ((256 * m + 16 * fieldOf img 96 4 * one : Nat) < d.natAbs * one)

/-- An output element (R176, R310). -/
def roundOut (ofmt : Nat) (fmt : BitVec 32) (r : Nat) (t v : Nat) : Nat :=
  let p := (mulVal (Fmt.f48.val t) (Fmt.f48.val v)).1
  let mode := fmtRM fmt
  match ofmt with
  | 1 => (Fmt.bf16.convert mode r p).1
  | 2 => (Fmt.f16.convert mode r p).1
  | 3 => (Fmt.e4m3.convert8 (fmtSat fmt) mode r p).1
  | 4 => (Fmt.e5m2.convert8 (fmtSat fmt) mode r p).1
  | 8 => (Fmt.f32.convert mode r p).1
  | _ => (Fmt.f64.convert mode r p).1

/-- The command has its status; COMMAND_COMPLETE gives it to its lanes. -/
def State.finStatus (s : State) (old : State) (c : Command) (status : Nat) : State :=
  (s.moved old c 0 none).modCmd c.id fun x => { x with status := some status }

/-- The bytes of the destination, by address. -/
def finBytes (c : Command) (imgs : List (List Byte)) (t : Nat) (draw : Nat → Nat) : List (Word × Byte) :=
  let n := shapeCols c.shape
  let z := ofmtBytes (shapeOfmt c.shape)
  let pitch : Word := if c.shape.getD 3 0 = 0 then BitVec.ofNat 64 (n * z) else c.shape.getD 3 0
  (List.range (shapeRows c.shape * n)).flatMap fun e =>
    let m := e / n
    let col := e % n
    let v := accVal (imgs.getD (m * (n / 16) + col / 16) []) (col % 16)
    let base := c.dst + BitVec.ofNat 64 m * pitch + BitVec.ofNat 64 (col * z)
    (bytesAt 0 (leBytes z (roundOut (shapeOfmt c.shape) c.fmt (draw e) t v))).map fun (b : Nat × Byte) =>
      (base + BitVec.ofNat 64 b.1, b.2)

/-- The tile of `acc.fin` is read at home (R179), once the team's gather-buffer entries for its lines have been flushed; a line
that stops it gives its status, and otherwise the outputs are written and the lines become FINALISED (R176). -/
def State.startAccFin (s : State) (c : Command) (tm : Team) (chk : Bool) : State :=
  match s.tileSites c tm .accRw c.src c.tileLines with
  | .walk gs => s.joinTile c tm gs
  | .fault f v => s.engineFault c f v
  | .ok ls =>
    let whole := wholeLines ((List.range c.tileLines).map fun k => s.accSite c tm .accRw (tileLine c.src k))
    match match s.flushedOn c.team (ls.map fun l => lineOf l.2) with
      | (s, false) => (s, false)
      | (s, true) => s.cmdReady c tm whole [] with
    | (s, false) => s
    | (s, true) =>
      let imgs := ls.map fun l => s.homeBytes l.1.key (l.2 / 128 * 128) 128
      let expected := bits c.src2 0 32
      let bad := imgs.zipIdx.findSome? fun (x : List Byte × Nat) =>
        lineStatus expected x.2 x.1 ((ls[x.2]?).any fun l => s.poisonOf (lineOf l.2) != 0)
      let failed := if chk then imgs.zipIdx.find? fun (x : List Byte × Nat) => checkFails x.1 else none
      match bad, failed with
      | some st, _ => s.finStatus s c st
      | none, some x =>
        (s.finStatus s c (3 + 256 * x.2 + 65536 * fieldOf x.1 96 4)).logEvent 0x0D (s.ctxFn tm.ctx) tm.ctx (1348 + tm.core)
          (tileLine c.src x.2) c.pc
      | none, none =>
        let scales := c.shape.getD 4 0
        let t := (Fmt.f48.mul 0 (Fmt.f32.val (bits scales 0 32)) (Fmt.f32.val (bits scales 32 32))).1
        let gen := (tget? tm.warps c.warp).map Warp.a
        let out := finBytes c imgs t fun e => (gen.map fun (x : SliceState) => x.draw c.lane e).getD 0
        let dest := out.map fun (b : Word × Byte) => (b.1, s.site c tm .wr b.1, b.2)
        let faults : List (XFault × Word) := dest.filterMap fun x => x.2.1.fault?.map fun f => (f, x.1)
        let bad := (dest.filter fun x => x.2.1.fault?.isSome).map fun x => (0, 0, x.1.toNat / 128, 0)
        let kept := dest.filter fun x => x.2.1.fault?.isNone &&
          keepPiece s.agenda.free bad (0, 0, x.1.toNat / 128, 0) (x.1.toNat / 128)
        match s.cmdReady c tm whole (whole ++ kept.map fun x => x.2.1) with
        | (s, false) => s
        | (s, true) =>
          let s' := s.writeSites (ls.flatMap fun (l : Xlat × Nat) =>
            let stsc := fieldOf (s.homeBytes l.1.key (l.2 / 128 * 128) 128) 100 2
            [(.mem l.1 (l.2 / 128 * 128 + 101), BitVec.ofNat 8 ((stsc % 2 ^ 14 + 2 ^ 15) / 256))])
          let s' := s'.writeSites (kept.map fun x => x.2)
          let s' := if fmtRM c.fmt = 4 then
              s'.modSlice c.team c.warp .a fun x => x.drew (laneBit c.lane) (shapeRows c.shape * shapeCols c.shape) else s'
          if faults.isEmpty then s'.finStatus s c 0 else (s'.tookFree out.length).meetFault c faults

/-! The start of commands -/

/-- `acc.fin` follows every earlier copy-engine command and every earlier run of its stream to their ends (R362). -/
def State.finReady (s : State) (c : Command) : Bool :=
  s.engines.cmds.all fun e => !(e.team == c.team && e.warp == c.warp && decide (e.id < c.id)) || e.st == .faulted ||
    (e.matrix && (match e.st with | .moved _ => !(s.engines.emissions.any fun x => x.cmd == e.id) | _ => false))

/-- COMMAND_START: the copy engine begins a command, goes on with a feed, or lands what a peer has sent; a command of either engine with a false
match is discarded. -/
def execCommandStart (cmd : Nat) (s : State) : Host.Outcome State Fault Refusal :=
  .next (match s.cmd? cmd with
    | none => s
    | some c =>
      match s.cmdTeam c with
      | none => s
      | some tm =>
        if !s.atHead c then s
        else match c.verdict with
          | none => s
          | some false => if c.st = .queued then s.signalCommand c 0 else s
          | some true =>
            if c.st == .running && c.reply.isSome then s.takeReply c tm
            else if !s.afterDone c || !(c.st == .queued || (c.st == .running && (c.isFeed || c.inPieces))) then s
            else match c.kind with
              | .cp => s.startCp c tm
              | .feed f => s.startFeed c tm f
              | .coll => s.startColl c tm
              | .put => s.startPut c tm
              | .get => s.startGet c tm
              | .accZero n => s.startAccZero c tm n
              | .accFin chk => if s.finReady c then s.startAccFin c tm chk else s
              | .mma | .twin => s)

end Sys2Proof.Machine
end

