-- ==== Sys2Proof/Machine/System.lean ====
section
/-! DEFINITION. Code maintenance, `node.post`, `discard` (R142, R363 to R366) and the privileged words (R56 to R61, R136,
R367 to R370). -/

namespace Sys2Proof.Machine

/-! Spans of a word -/

/-- What the translation of a word's span gives: a walk to await, its first fault, or its pieces. -/
inductive WordSpan where
  | walk
  | fault (f : XFault) (v : Word)
  | ok (ps : List Piece)
  deriving DecidableEq, Repr

/-- Translates a span of consecutive bytes of a word into pieces behind those found, through the core's range buffer and
walks (R36, R41, R43). -/
def State.wordSpan (s : State) (i : Issue) (need : Need) (lane : Nat) (v : Word) (len fuel : Nat) (found : List Piece) :
    State × WordSpan :=
  match fuel with
  | 0 => (s, .ok found)
  | fuel + 1 =>
    if len = 0 then (s, .ok found)
    else
      let n := min len (128 - bits v 0 7)
      match s.place i.ref.team i.tm i.ref.warp lane v n with
      | .fault f => (s, .fault f v)
      | .tide t off =>
        s.wordSpan i need lane (v + BitVec.ofNat 64 n) (len - n) fuel
          (found ++ [⟨lane, BitVec.ofNat 64 off, 0, n, some t, off / 128, off % 128, none, .wait, [], false⟩])
      | .global g =>
        match s.lookFor i.tm.core i.tm.ctx (.word i.ref) g need with
        | (s, .fault f) => (s, .fault f v)
        | (s, .miss) => (s, .walk)
        | (s, .hit x) =>
          let o := (g - x.base).toNat
          let k := min n (min (x.run o) (x.blocks * 128 - o))
          s.wordSpan i need lane (v + BitVec.ofNat 64 k) (len - k) fuel (found ++ [x.piece lane g 0 k []])

/-- The physical lines of pieces. -/
def memLines (ps : List Piece) : List Nat := ((ps.filter fun p => p.tide.isNone).map Piece.line).eraseDups

/-- The length operand of `wb` and `ii`: 64 bits on the A-slice, `.z32` on the C-slice. -/
def Issue.spanLen (i : Issue) (b : Opd) (l : Nat) : Nat :=
  (i.sl.read i.ref.slice l (match i.ref.slice with | .a => 64 | .c => 32) b).toNat

/-- A word over a span: nothing happens without a lane or a length, it waits for the range walks it needs, and a fault is a
team trap at the word. -/
def State.spanWord (s : State) (h : Head) (need : Need) (a : Opd) (len : Issue → Nat → Nat)
    (k : State → Issue → List Piece → State) : Host.Outcome State Fault Refusal :=
  word s fun i =>
    match lowLane (i.active h.guard) with
    | none => s.advance i h.mark
    | some l =>
      if len i l = 0 then s.advance i h.mark
      else match s.wordSpan i need l (i.reg a l) (len i l) (len i l) [] with
        | (s, .walk) => s.waitAt i .translation
        | (s, .fault f v) => s.raiseAt i (Trap.ofLanes i f 0xFFFFFFFF v)
        | (s, .ok ps) => k (s.forget i.tm.core (.word i.ref)) i ps

/-- `wb`: the stream's earlier stores and reductions to the span are complete before it goes on; one whose translation trapped
is not complete until the trap is resolved (R390; log entry 26). -/
def execWb (h : Head) (a b : Opd) (s : State) : Host.Outcome State Fault Refusal :=
  s.spanWord h .none_ a (fun i l => i.spanLen b l) fun s i ps =>
    let s := s.flushFor i.tm i.ref.team ps
    if (s.earlier i).any (fun f => f.isStore &&
        (f.walking || ps.any (s.faultMeets f) || f.pieces.any fun q => q.st != .done && ps.any q.overlaps)) ||
      !s.flushedFor i.tm i.ref.team ps then s.waitAt i .order
    else s.advance i h.mark

/-- `ii`: the issuing core's instruction cache drops the span's lines, under any key. -/
def execIi (h : Head) (a b : Opd) (s : State) : Host.Outcome State Fault Refusal :=
  s.spanWord h .none_ a (fun i l => i.spanLen b l) fun s i ps =>
    let lines := memLines ps
    (s.modCore i.tm.core fun c => { c with icache := c.icache.filter fun (x : ILine) => !lines.contains x.line }).advance i
      h.mark

/-- `fbar`: the words fetched beyond it are discarded (R364). -/
def execFbar (mark : Bool) (s : State) : Host.Outcome State Fault Refusal :=
  word s fun i => (s.modIssuer i fun sp => { sp with fetched := [] }).advance i mark

/-- `node.post` (R365): the record's bytes are translated for a read and a write; a tidepool address names no record. -/
def execNodePost (h : Head) (a : Opd) (s : State) : Host.Outcome State Fault Refusal :=
  s.spanWord h .rw a (fun _ _ => 256) fun s i ps =>
    match ps.head? with
    | none => s.advance i h.mark
    | some p =>
      if ps.any fun q => q.tide.isSome then
        s.raiseAt i (Trap.ofLanes i windowFault 0xFFFFFFFF (i.reg a ((lowLane (i.active h.guard)).getD 0)))
      else if !s.afterAcquires i then s.waitAt i .order
      else
        let (s, ok) := s.release i .pkg
        if !ok then s.waitAt i .order
        else match s.agentAsk nodeAgent (nodeSerial i.tm.ctx p.va 1) (recTouches i.tm.ctx p.va) with
          | (s, false) => s.waitAt i .order
          | (s, true) => ((s.fence_ i .pkg).postNode i.tm.ctx p.va false none).1.advance i h.mark

/-- `discard` (R95, R184, R366): a store to every byte of the span. -/
def execDiscard (h : Head) (a b : Opd) (s : State) : Host.Outcome State Fault Refusal :=
  s.spanWord h .wrAny a (fun i l => (i.reg b l).toNat) fun s i ps =>
    match ps.find? fun p => p.xl.any fun x => x.acc && p.len != 128 with
    | some p => s.raiseAt i (Trap.ofLanes i alignFault 0xFFFFFFFF p.va)
    | none =>
      if !s.afterAcquires i then s.waitAt i .order
      else
        let f : Flight := { Flight.empty s.fresh i i.sp.mask with
          op := some .discard, pieces := ps, stamp := s.stamp (dieOf i.tm.core) }
        (({ s.bump with flights := s.flights ++ [f] } : State).pump).advance i h.mark

/-! Privileged words (R367) -/

/-- A word of a context that is not privileged raises PRIV_FAULT. -/
def privWord (s : State) (k : Issue → State) : Host.Outcome State Fault Refusal :=
  word s fun i => if s.ctxPriv i.tm.ctx then k i else s.decodeTrap i 5 0x38 0

/-- The piece was translated with an image of the descriptor, or of any of the context. -/
def Piece.imageOf (p : Piece) (ctx : Nat) (index : Option Nat) : Bool :=
  p.st != .done && p.xl.any fun x => x.ctx == ctx && (index.isNone || index == some x.index)

/-- Invalidates images in every core: range-buffer entries go, what walks have found for what waits goes too, and walks of
the context restart (R45, R368). -/
def State.invalidate (s : State) (ctx : Nat) (index : Option Nat) : State :=
  { s with cores := s.cores.map fun (e : Nat × Core) => (e.1, { e.2 with
      ranges := e.2.ranges.filter fun (r : RBuf) => !(r.ctx == ctx && (index.isNone || index == some r.index))
      answers := e.2.answers.filter fun x => x.ctx != ctx
      walks := e.2.walks.map fun (w : PendWalk) => if w.ctx = ctx then { w with started := false } else w }) }

/-- An image of the descriptor, or of any of the context. -/
def imageIs (c i ctx : Nat) (index : Option Nat) : Bool := c == ctx && (index.isNone || index == some i)

/-- Requests on their way to their homes, waiting there, to be sent again, or begun there. -/
def State.underWay (s : State) : List Msg :=
  (s.net.msgs ++ s.net.forwards ++ s.net.retries).filter (fun m => m.body.isRequest) ++ s.net.parts.map Part.m

/-- What an invalidated image has translated and is not performed: accesses with such pieces, emissions, gather-buffer entries,
and requests of no access that stands, as those of prefetches, wake words and contexts that have gone. -/
def State.imageUsers (s : State) (ctx : Nat) (index : Option Nat) : List User :=
  (s.flights.filter fun f => f.pieces.any fun p => p.imageOf ctx index).map (fun f => User.access f.id) ++
  (s.engines.emissions.filter fun e => imageIs e.xl.ctx e.xl.index ctx index).map (fun e => User.access e.id) ++
  (s.engines.buffers.flatMap fun b => (b.2.filter fun e => imageIs e.ctx e.index ctx index).map fun e => User.access e.id) ++
  (s.underWay.filter fun m => m.body.req?.any fun r => imageIs r.ctx r.index ctx index).map fun m => User.request m.id

/-- Some of what users name is not performed yet. -/
def State.inUse (s : State) (us : List User) : Bool :=
  (s.flights.any fun f => us.contains (.access f.id) && !f.bound) ||
  (s.engines.emissions.any fun e => us.contains (.access e.id)) ||
  (s.engines.buffers.any fun b => b.2.any fun e => us.contains (.access e.id)) ||
  s.underWay.any fun m => us.contains (.request m.id)

/-- Gather-buffer entries that are waited for are flushed. -/
def State.flushUsers (s : State) (us : List User) : State :=
  s.engines.buffers.foldl (fun (s : State) b => s.flushWhere b.1 false fun e => us.contains (.access e.id)) s

/-- `rng.inv` and `rng.inv.all` (R368). -/
def State.rngInv (s : State) (h : Head) (a : Opd) (all : Bool) : Host.Outcome State Fault Refusal :=
  privWord s fun i =>
    match lowLane (i.active h.guard) with
    | none => s.advance i h.mark
    | some l =>
      let x := i.reg a l
      let ctx := bits x 58 6
      let index := if all then none else some (bits x 0 14)
      if !s.ctxExists ctx then s.advance i h.mark
      else
        let users := s.imageUsers ctx index
        ((s.invalidate ctx index).modSlice i.ref.team i.ref.warp i.ref.slice fun y => { y with invs := y.invs ++ users }).advance
          i h.mark

def execRngInv (h : Head) (a : Opd) (s : State) : Host.Outcome State Fault Refusal := s.rngInv h a false

def execRngInvAll (h : Head) (a : Opd) (s : State) : Host.Outcome State Fault Refusal := s.rngInv h a true

/-- `rng.sync` waits until every core has acknowledged the stream's `rng.inv`s. -/
def execRngSync (mark : Bool) (s : State) : Host.Outcome State Fault Refusal :=
  privWord s fun i =>
    let s := s.flushUsers i.sl.invs
    if s.inUse i.sl.invs then s.waitAt i .order
    else (s.modSlice i.ref.team i.ref.warp i.ref.slice fun y => { y with invs := [] }).advance i mark

/-- `zline` (R369). -/
def execZline (h : Head) (a : Opd) (s : State) : Host.Outcome State Fault Refusal :=
  privWord s fun i =>
    let m := i.active h.guard
    s.memWord i h.mark (Ask.plain .zline .z64) m (lanesWith m (i.reg a) noBytes noBytes)

/-- `fence.hb` (R136): first its earlier accesses are made complete, then the next tick is awaited. -/
def execFenceHb (mark : Bool) (s : State) : Host.Outcome State Fault Refusal :=
  privWord s fun i =>
    match i.sp.wait with
    | .heartbeat t => if t < s.hb (dieOf i.tm.core) then (s.fence_ i .sys).advance i mark else s
    | _ =>
      if !s.afterAcquires i then s.waitAt i .order
      else
        let (s, ok) := s.release i .sys
        if ok then s.waitAt i (.heartbeat (s.hb (dieOf i.tm.core))) else s.waitAt i .order

/-- `halt` (R370). -/
def execHalt (h : Head) (s : State) : Host.Outcome State Fault Refusal :=
  privWord s fun i => if i.active h.guard = 0 then s.advance i h.mark else s.decodeTrap i 13 0x7E 0

/-! `ebb.slide` and `ebb.stat` (R56 to R61) -/

def State.slot (s : State) (n : Nat) : Slot := tget s.ebb.slots n Slot.reset

def State.setSlot (s : State) (n : Nat) (x : Slot) : State := { s with ebb := { s.ebb with slots := tset s.ebb.slots n x } }

/-- The status doubleword of a slot. -/
def Slot.status (x : Slot) : Word :=
  BitVec.ofNat 64 (x.state * 2 ^ 60 + x.ctx % 64 * 2 ^ 54 + x.index % 16384 * 2 ^ 40 + x.code % 256 * 2 ^ 32 + x.tide % 2 ^ 32)

/-- The slot is queued or active. -/
def Slot.live (x : Slot) : Bool := decide (1 ≤ x.state ∧ x.state ≤ 4)

/-- Rows OPERAND to MAP of R60. At the word, a slide queued on the range refuses; at the recheck only the descriptor's MOVING
does. -/
def State.slideCode (s : State) (x n : Word) (recheck : Bool) : Nat :=
  let ctx := bits x 58 6
  let index := bits x 0 14
  let d := (s.descAt ctx index).1
  let queued := !recheck && s.ebb.slots.any fun e => e.2.state == 1 && e.2.ctx == ctx && e.2.index == index
  if bits x 14 44 != 0 || bits n 52 12 != 0 || bits n 0 2 != 0 then 9
  else if !s.ctxExists ctx || s.rtCount ctx ≤ index || !d.valid then 1
  else if (s.descFault? ctx d).isSome then 8
  else if d.moving || queued then 2
  else if n.toNat = d.pa then 5
  else if n.toNat % (if d.acc then 128 else d.align) != 0 then 3
  else if s.isHost d.pa || !s.spanHbm (s.ctxFn ctx) n.toNat d.size then 4
  else 0

/-- The check of R60 at the word, for an engine. -/
def State.slideCheck (s : State) (die : Nat) (x n : Word) : Nat :=
  match s.slideCode x n false with
  | 0 =>
    if 16 ≤ (s.ebb.slots.filter fun e => e.2.live && e.2.ctx == bits x 58 6).length then 7
    else if (List.range 4).all fun k => (s.slot (4 * die + k)).live then 6
    else 0
  | c => c

/-- The slot that a slide takes: the lowest FREE one, else the lowest finished one (R59). -/
def State.slideSlot (s : State) (die : Nat) : Option Nat :=
  let ns := (List.range 4).map fun k => 4 * die + k
  match ns.find? fun n => (s.slot n).state == 0 with
  | some n => some n
  | none => ns.find? fun n => !(s.slot n).live

/-- The request of a slide whose completion doubleword has been translated: the slot it takes, or the code it is refused with;
its destination gets the status (R59). -/
def State.requestSlide (s : State) (i : Issue) (x n w : Word) : State × Nat :=
  let die := dieOf i.tm.core
  match s.slideCheck die x n, s.slideSlot die with
  | 0, some k =>
    let y : Slot := { Slot.reset with
      state := 1, ctx := bits x 58 6, index := bits x 0 14, new_ := n.toNat, cdw := w, issuer := i.tm.ctx,
      order := s.ebb.next, after := ((s.earlier i).filter Flight.isStore).map fun f => .access f.id }
    let s := s.setSlot k y
    ({ s with ebb := { s.ebb with next := s.ebb.next + 1 } }, k * 256)
  | 0, none => (s, 6)
  | e, _ => (s, e)

/-- `ebb.slide` (R59): ordered towards the stream's accesses like a store, so it follows the stream's acquires. -/
def execEbbSlide (h : Head) (d a b c : Opd) (s : State) : Host.Outcome State Fault Refusal :=
  privWord s fun i =>
    let m := i.active h.guard
    match lowLane m with
    | none => s.advance i h.mark
    | some l =>
      let w := i.reg c l
      if !s.afterAcquires i then s.waitAt i .order
      else match if bits w 60 4 > 7 then (s, .fault windowFault w) else s.wordSpan i .wr l w 8 8 [] with
        | (s, .walk) => s.waitAt i .translation
        | (s, .fault f v) => s.raiseAt i (Trap.ofLanes i f 0xFFFFFFFF v)
        | (s, .ok _) =>
          let (s, status) := (s.forget i.tm.core (.word i.ref)).requestSlide i (i.reg a l) (i.reg b l) w
          (s.deliver i m d 64 (laneVals m fun _ => BitVec.ofNat 64 status)).advance i h.mark

def execEbbStat (h : Head) (d a : Opd) (s : State) : Host.Outcome State Fault Refusal :=
  privWord s fun i =>
    let m := i.active h.guard
    match lowLane m with
    | none => s.advance i h.mark
    | some l =>
      let v := (s.slot ((i.reg a l).toNat % 256)).status
      (s.deliver i m d 64 (laneVals m fun _ => v)).advance i h.mark

end Sys2Proof.Machine
end

