-- ==== Sys2Proof/Machine/Ebb.lean ====
section
/-! DEFINITION. The life of a slide (R52 to R55, R60, R62 to R64, R71 to R74): its commits, steps, report and
abandonment. -/

namespace Sys2Proof.Machine

/-! Descriptors -/

/-- Physical address of a descriptor in its context's table. -/
def State.descAddr (s : State) (ctx index : Nat) : Nat := s.rtBase ctx + 32 * index

/-- The engine writes doublewords of a descriptor in memory, first first. -/
def State.writeDesc (s : State) (x : Slot) (k : Nat) (ws : List Word) : State :=
  let fn := s.ctxFn x.ctx
  s.physWrite ((s.slotOf fn).getD 0) (s.descAddr x.ctx x.index + 8 * k) (ws.flatMap fun w => leBytes 8 w.toNat)
    (ws.length + 2)

/-- Sets MOVING, POFF, OLDPOFF and TIDE of the descriptor (R62). -/
def State.setMoving (s : State) (x : Slot) (moving : Bool) (pa oldpa tide : Nat) : State :=
  let (_, d0, d1, d2, d3) := s.descAt x.ctx x.index
  s.writeDesc x 0 [setBits d0 56 1 (if moving then 1 else 0), setBits d1 0 32 tide, setBits d2 2 50 (pa / 4),
    setBits d3 2 50 (oldpa / 4)]

/-- The agent number of the engine of a slot (R116). Its requests for a slide are known by the slot's number for a step, and by
256 and 512 more for a block's write and for the descriptor and the report. -/
def ebbAgent (n : Nat) : Nat := 4 + n / 4

/-- A write of doublewords of the slide's descriptor. -/
def State.descTouch (s : State) (x : Slot) (k words : Nat) : Touch :=
  let fn := s.ctxFn x.ctx
  .phys ((s.slotOf fn).getD 0) fn (s.descAddr x.ctx x.index + 8 * k) (8 * words) true

/-- The engine may write the slide's descriptor now. -/
def State.descAsk (s : State) (n : Nat) (x : Slot) : State × Bool := s.agentAsk (ebbAgent n) (n + 512) [s.descTouch x 0 4]

/-- The engine's writes for the slide are complete (R105). -/
def State.slideQuiet (s : State) (x : Slot) : Bool := !x.acks.any s.openId

/-- Every core has acknowledged a commit's invalidation, and the engine's writes, of blocks and of the descriptor, are
complete (R62). -/
def State.commitReady (s : State) (x : Slot) : Bool := !s.inUse x.after && s.slideQuiet x

/-- Notes the acknowledgement counts that the engine's writes have opened since an older state. -/
def State.noteWrites (s old : State) (n : Nat) : State :=
  let x := s.slot n
  s.setSlot n { x with acks := x.acks.filter s.openId ++ s.openSince old }

/-- A tick has come since the engine began its `fence.hb` (R62). -/
def State.tickPast (s : State) (n : Nat) (x : Slot) : Bool := x.tick.any fun t => decide (t < s.hb (n / 4))

/-! The report (R64) -/

/-- What a report touches: its doubleword, where it still translates. -/
def State.reportTouches (s : State) (x : Slot) : List Touch := if s.ctxExists x.issuer then [.ctx x.issuer x.cdw 8 true] else []

/-- Writes a slot's final status to its completion doubleword, or logs the lost signal. -/
def State.reportSlide (s : State) (x : Slot) : State :=
  let lost := s.logEvent 0x0A (s.ctxFn x.issuer) x.issuer 3397 x.cdw x.status
  if !s.ctxExists x.issuer then lost
  else (s.ctxWrite x.issuer x.cdw (leBytes 8 x.status.toNat)).getD lost

/-- The slide ends in a final state and is reported, once the engine's earlier writes are complete, since the report is a
release, and its doubleword may be written. Requests that waited at homes for its blocks are examined afresh. -/
def State.endSlide (s : State) (n : Nat) (x : Slot) (state code : Nat) : State :=
  if !s.slideQuiet x then s
  else match s.agentAsk (ebbAgent n) (n + 512) (s.reportTouches x) with
  | (s, false) => s
  | (s, true) =>
    let x := { x with state := state, code := code, steering := false, read := [], written := [], after := [], acks := [] }
    ((s.setSlot n x).reportSlide x).drainFree

/-! Start (R60, R62) -/

/-- The slide is the next that its engine starts. -/
def State.nextSlide (s : State) (n : Nat) (x : Slot) : Bool :=
  (List.range 4).all fun k =>
    let m := n / 4 * 4 + k
    let y := s.slot m
    m == n || !(decide (2 ≤ y.state ∧ y.state ≤ 4) || (y.state == 1 && decide (y.order < x.order)))

/-- The slide becomes active: steering entries, the descriptor, the invalidation. -/
def State.startSlide (s : State) (n : Nat) (x : Slot) : State :=
  let d := (s.descAt x.ctx x.index).1
  let y := { x with
    state := 2, old := d.pa, n := d.blocks, key := d.key, tide := (if x.new_ < d.pa then 0 else d.blocks), steering := true,
    after := s.imageUsers x.ctx (some x.index), tick := none }
  (((s.setSlot n y).setMoving y true y.new_ y.old y.tide).noteWrites s n).invalidate x.ctx (some x.index)

/-- SLIDE_START_COMMIT: the rows of R60 again; then, once every core has acknowledged, the engine waits for a tick, and the
slide is MOVING. -/
def execSlideStartCommit (slot : Nat) (s : State) : Host.Outcome State Fault Refusal :=
  .next (
    let x := s.slot slot
    let s := if x.state = 1 || x.state = 2 then s.flushUsers x.after else s
    if x.state = 1 then
      if x.abandoned || !s.nextSlide slot x || s.inUse x.after then s
      else
        let xa : Word := BitVec.ofNat 64 (x.ctx * 2 ^ 58 + x.index)
        match s.descAsk slot x with
        | (s, false) => s
        | (s, true) => match s.slideCode xa (BitVec.ofNat 64 x.new_) true with
          | 0 => s.startSlide slot x
          | c => s.endSlide slot x 5 c
    else if x.state = 2 then
      if x.tick.isSome then (if s.tickPast slot x then s.setSlot slot { x with state := 3, after := [], tick := none } else s)
      else if s.commitReady x then s.setSlot slot { x with tick := some (s.hb (slot / 4)) }
      else s
    else s)

/-! Steps (R53 to R55, R63, R71, R73) -/

/-- The direction is ascending. -/
def Slot.up (x : Slot) : Bool := decide (x.new_ < x.old)

/-- The block at distance j from the next to move. -/
def Slot.ahead (x : Slot) (j : Nat) : Nat := if x.up then x.tide + j else x.tide - 1 - j

/-- Blocks still to move. -/
def Slot.left (x : Slot) : Nat := if x.up then x.n - x.tide else x.tide

/-- The next block to be taken into passage: at most 16 consecutive ones are. -/
def Slot.nextBlock (x : Slot) : Option Nat :=
  ((List.range (min 16 x.left)).map x.ahead).find? fun k => (tget? x.read k).isNone

/-- The physical lines of 128 bytes at an address. -/
def linesAt (pa : Nat) : List Nat := [lineOf pa, lineOf (pa + 127)].eraseDups

/-- The lines that hold a block at OLD or NEW. -/
def Slot.blockLines (x : Slot) (k : Nat) : List Nat := (linesAt (x.old + 128 * k) ++ linesAt (x.new_ + 128 * k)).eraseDups

/-- The CACHE code of a slide's range. -/
def State.slideCache (s : State) (x : Slot) : BitVec 2 := (s.descAt x.ctx x.index).1.cache

/-- The engine's request for a slide: of its next step, or of one that is to be written. -/
def State.slideReq (s : State) (slot : Nat) (x : Slot) (write : Bool) : Req :=
  let id := if write then slot + 256 else slot
  Req.ofAgent (ebbAgent slot) id (s.stampOf (ebbAgent slot) id) x.key (s.ctxFn x.ctx) (s.slideCache x)

/-- It is the turn of an engine's step on a line. Requests that wait for a block in passage to leave it wait for the engine
itself, and are passed. -/
def State.stepTurn (s : State) (line : Nat) (r : Req) : Bool :=
  !s.busy line && (match ((s.queueOn line).filter fun m => !(m.body.req?.any fun q => s.steering m q == .hold)).head? with
    | none => true
    | some m => m.claimOf r)

/-- Settles the copies of a line for a step (R55), in the line's turn: the line is brought in, under the range's key, deltas
are gathered, host-held halves taken back, buffered reductions flushed, begun ones made, and L1 copies invalidated. True when
none is left. -/
def State.settleFor (s : State) (slot : Nat) (x : Slot) (line : Nat) : State × Bool :=
  let r := s.slideReq slot x false
  let again (s : State) : State × Bool := ((s.keepStamp r).claim line r, false)
  if !s.admitted line r then (s.keepStamp r, false)
  else if !s.stepTurn line r then again s
  else match s.ready line r [false, true] true true with
    | (s, false) => again s
    | (s, true) => match s.flushedLine line with
      | (s, false) => again s
      | (s, true) => match s.calm line with
        | (s, false) => again s
        | (s, true) =>
          if s.lineSettled line then (s, true)
          else match s.startSettle (Settle.ofReq line r [false, true] false) with
            | (s, true) => (s, true)
            | (s, false) => again s

/-- EBB_STEP: the next block enters passage once every access accepted at its homes has been performed and the copies of its
lines are settled; LL reservations on the lines are cleared, and the block is read at OLD. A line marked poisoned that the
step reads poisons what it writes (R73). -/
def execEbbStep (slot : Nat) (s : State) : Host.Outcome State Fault Refusal :=
  .next (
    let x := s.slot slot
    if x.state != 3 || x.abandoned then s
    else match x.nextBlock with
      | none => s
      | some k =>
        match (x.blockLines k).foldl (fun (acc : State × Bool) l =>
            let (s, b) := acc.1.settleFor slot x l; (s, acc.2 && b)) (s, true) with
        | (s, false) => s
        | (s, true) =>
          let s := (x.blockLines k).foldl (fun (s : State) l => s.clearResv l) (s.unclaim (ebbAgent slot) slot)
          let a := x.old + 128 * k
          let s := (linesAt a).foldl (fun (s : State) l => s.touch l false) s
          let bad := (linesAt a).any fun l => s.poisonOf l != 0
          let s := s.setSlot slot { s.slot slot with read := tset x.read k (s.homeBytes x.key a 128, if bad then 3 else 0) }
          ((x.blockLines k).foldl (fun (s : State) l => s.endTransient l) s).drainFree)

/-- The spans of 128 bytes at two addresses meet. -/
def blocksMeet (a b : Nat) : Bool := decide (a < b + 128) && decide (b < a + 128)

/-- Blocks that may be written: read, and clear of every block that is still to be read (R54, R71). -/
def Slot.writable (x : Slot) : List Nat :=
  let unread := ((List.range x.left).map x.ahead).filter fun k => (tget? x.read k).isNone
  (x.read.map Prod.fst).filter fun k => !x.written.contains k &&
    !(unread.any fun j => blocksMeet (x.new_ + 128 * k) (x.old + 128 * j))

/-- T advances over the blocks that have been written, in copy order. -/
def Slot.advance (x : Slot) (fuel : Nat) : Slot :=
  match fuel with
  | 0 => x
  | fuel + 1 =>
    let k := x.ahead 0
    if x.left != 0 && x.written.contains k then
      ({ x with tide := (if x.up then x.tide + 1 else x.tide - 1), read := tdel x.read k,
                written := x.written.filter (· != k) } : Slot).advance fuel
    else x

/-- TIDE is written in the descriptor at least every 64 blocks, and otherwise perhaps (R63). -/
def State.tideDue (s : State) (old new_ : Slot) : Bool :=
  let crossed := (List.range 17).any fun j => j != 0 &&
    decide (old.left - new_.left ≥ j) && (new_.n - (old.left - j)) % 64 == 0
  old.tide != new_.tide && (crossed || (Config.freeWord 46 s.agenda.free).getLsbD 0)

def State.writeTide (s : State) (x : Slot) : State :=
  let (_, _, d1, _, _) := s.descAt x.ctx x.index
  s.writeDesc x 1 [setBits d1 0 32 x.tide]

/-- A step may write its block at NEW: no transaction is open on the lines, and what must come first has been done. It goes
before the requests that wait for the line, some of which wait for it. -/
def State.newReady (s : State) (slot : Nat) (x : Slot) (k : Nat) : State × Bool :=
  let a := x.new_ + 128 * k
  match (linesAt a).foldl (fun (acc : State × Bool) l =>
      let hs := if lineOf a = l then halvesOf (a % 128) (128 - a % 128) else halvesOf 0 (a % 128)
      let (s, ok) := acc.1.askAs l (acc.1.slideReq slot x true) hs true true true
      (s, acc.2 && ok)) (s, true) with
  | (s, true) => (s.unclaim (ebbAgent slot) (slot + 256), true)
  | (s, false) => (s, false)

/-- Writes a block at NEW; every line that receives bytes of a poisoned block is poisoned (R73). -/
def State.writeBlock (s : State) (x : Slot) (k : Nat) (bs : List Byte) (bad : BitVec 2) : State :=
  let a := x.new_ + 128 * k
  let n0 := 128 - a % 128
  let s := s.homeStore x.key (lineOf a) (bytesAt (a % 128) (bs.take n0))
  let s := if n0 < 128 then s.homeStore x.key (lineOf a + 1) (bytesAt 0 (bs.drop n0)) else s
  if bad = 0 then s else (linesAt a).foldl (fun (s : State) l => s.setPoison l 3) s

/-- EBB_STEP_COMPLETE: a block in passage is written at NEW; T advances, every home learns it, and what waited for the blocks
that T has passed goes on. -/
def execEbbStepComplete (slot : Nat) (s : State) : Host.Outcome State Fault Refusal :=
  .next (
    let x := s.slot slot
    if x.state != 3 then s
    else
      let ks := x.writable
      match ks[(Config.freeWord 45 s.agenda.free).toNat % max 1 ks.length]? with
      | none => s
      | some k =>
        match tget? x.read k with
        | none => s
        | some (bs, bad) =>
          let y := ({ x with written := k :: x.written } : Slot).advance 17
          let due := s.tideDue x y
          match s.newReady slot x k with
          | (s, false) => s
          | (s, true) => match if due then s.agentAsk (ebbAgent slot) (slot + 512) [s.descTouch x 1 1] else (s, true) with
            | (s, false) => s
            | (s, true) =>
              let t := (s.writeBlock x k bs bad).setSlot slot y
              let t := (if due then t.writeTide y else t).bumpFree
              (t.noteWrites s slot).drainFree)

/-! Completion (R62, R64) -/

/-- SLIDE_COMPLETION_COMMIT: T has reached its end; the descriptor names NEW and images are invalidated; then, once every
core has acknowledged, the steering entries go, and the engine waits for a tick. -/
def execSlideCompletionCommit (slot : Nat) (s : State) : Host.Outcome State Fault Refusal :=
  .next (
    let x := s.slot slot
    if x.state = 3 && x.left = 0 && !x.abandoned then
      match s.descAsk slot x with
      | (s, false) => s
      | (s, true) =>
        let y := { x with state := 4, after := s.imageUsers x.ctx (some x.index), tick := none }
        (((s.setSlot slot y).setMoving y false y.new_ 0 0).noteWrites s slot).invalidate x.ctx (some x.index)
    else if x.state = 4 && x.steering then
      let s := s.flushUsers x.after
      if s.commitReady x then
        (s.setSlot slot { x with steering := false, after := [], tick := some (s.hb (slot / 4)) }).drainFree
      else s
    else s)

/-- SLIDE_REPORT: a slide whose completion commit has ended is DONE; an abandoned one ends at once when it was queued, and
otherwise when no block is in passage (R74). -/
def execSlideReport (slot : Nat) (s : State) : Host.Outcome State Fault Refusal :=
  .next (
    let x := s.slot slot
    if x.state = 4 && !x.steering && s.tickPast slot x then s.endSlide slot x 5 0
    else if x.abandoned && x.state = 1 then s.endSlide slot { x with tide := 0 } 6 0x0A
    else if x.abandoned && x.state = 3 && x.read.isEmpty then s.endSlide slot x 6 0x0A
    else s)

/-- Abandons the slides that satisfy a condition (R74): SLIDE_REPORT ends them. -/
def State.abandonSlides (s : State) (p : Slot → Bool) : State :=
  s.ebb.slots.foldl (fun (s : State) (e : Nat × Slot) =>
    if p e.2 && decide (1 ≤ e.2.state ∧ e.2.state ≤ 3) then s.setSlot e.1 { e.2 with abandoned := true } else s) s

end Sys2Proof.Machine
end

