-- ==== Sys2Proof/Machine/Lms.lean ====
section
/-! DEFINITION. The verification of a firmware image's signature (R427): SHA-256, and LMS of RFC 8554 with the parameter sets
LMS_SHA256_M32_H20 and LMOTS_SHA256_N32_W4. The rule names both standards and gives neither; they are taken from outside the
spec (log entry 120). -/

namespace Sys2Proof.Lms

/-! SHA-256 -/

/-- Bytes of a number, most significant first. -/
def beBytes (n v : Nat) : List Byte := (List.range n).map fun i => BitVec.ofNat 8 (v / 256 ^ (n - 1 - i))

def beNat (bs : List Byte) : Nat := bs.foldl (fun n b => n * 256 + b.toNat) 0

def start : List (BitVec 32) :=
  [0x6a09e667, 0xbb67ae85, 0x3c6ef372, 0xa54ff53a, 0x510e527f, 0x9b05688c, 0x1f83d9ab, 0x5be0cd19]

def rounds : List (BitVec 32) :=
  [0x428a2f98, 0x71374491, 0xb5c0fbcf, 0xe9b5dba5, 0x3956c25b, 0x59f111f1, 0x923f82a4, 0xab1c5ed5] ++
  [0xd807aa98, 0x12835b01, 0x243185be, 0x550c7dc3, 0x72be5d74, 0x80deb1fe, 0x9bdc06a7, 0xc19bf174] ++
  [0xe49b69c1, 0xefbe4786, 0x0fc19dc6, 0x240ca1cc, 0x2de92c6f, 0x4a7484aa, 0x5cb0a9dc, 0x76f988da] ++
  [0x983e5152, 0xa831c66d, 0xb00327c8, 0xbf597fc7, 0xc6e00bf3, 0xd5a79147, 0x06ca6351, 0x14292967] ++
  [0x27b70a85, 0x2e1b2138, 0x4d2c6dfc, 0x53380d13, 0x650a7354, 0x766a0abb, 0x81c2c92e, 0x92722c85] ++
  [0xa2bfe8a1, 0xa81a664b, 0xc24b8b70, 0xc76c51a3, 0xd192e819, 0xd6990624, 0xf40e3585, 0x106aa070] ++
  [0x19a4c116, 0x1e376c08, 0x2748774c, 0x34b0bcb5, 0x391c0cb3, 0x4ed8aa4a, 0x5b9cca4f, 0x682e6ff3] ++
  [0x748f82ee, 0x78a5636f, 0x84c87814, 0x8cc70208, 0x90befffa, 0xa4506ceb, 0xbef9a3f7, 0xc67178f2]

/-- The message padded to whole blocks of 64 bytes, with its length in bits. -/
def padded (m : List Byte) : List Byte :=
  m ++ [0x80] ++ List.replicate ((119 - m.length % 64) % 64) 0 ++ beBytes 8 (8 * m.length)

/-- The words of the message schedule, latest first. -/
def schedule (n : Nat) (ws : List (BitVec 32)) : List (BitVec 32) :=
  match n with
  | 0 => ws
  | n + 1 =>
    let w (k : Nat) : BitVec 32 := ws.getD (k - 1) 0
    let s0 := (w 15).rotateRight 7 ^^^ (w 15).rotateRight 18 ^^^ (w 15) >>> 3
    let s1 := (w 2).rotateRight 17 ^^^ (w 2).rotateRight 19 ^^^ (w 2) >>> 10
    schedule n ((w 16 + s0 + w 7 + s1) :: ws)

/-- One round on the eight working words. -/
def round (h : List (BitVec 32)) (kw : BitVec 32) : List (BitVec 32) :=
  match h with
  | [a, b, c, d, e, f, g, i] =>
    let t1 := i + (e.rotateRight 6 ^^^ e.rotateRight 11 ^^^ e.rotateRight 25) + (e &&& f ^^^ ~~~e &&& g) + kw
    let t2 := (a.rotateRight 2 ^^^ a.rotateRight 13 ^^^ a.rotateRight 22) + (a &&& b ^^^ a &&& c ^^^ b &&& c)
    [t1 + t2, a, b, c, d + t1, e, f, g]
  | _ => h

/-- One block of 64 bytes. -/
def block (h : List (BitVec 32)) (m : List Byte) : List (BitVec 32) :=
  let first := ((List.range 16).map fun i => BitVec.ofNat 32 (beNat ((m.drop (4 * i)).take 4))).reverse
  let ws := (schedule 48 first).reverse
  List.zipWith (· + ·) h ((List.zipWith (· + ·) rounds ws).foldl round h)

def sha256 (m : List Byte) : List Byte :=
  let p := padded m
  ((List.range (p.length / 64)).foldl (fun h i => block h ((p.drop (64 * i)).take 64)) start).flatMap fun w =>
    beBytes 4 w.toNat

/-! LM-OTS and LMS (RFC 8554) -/

/-- The 4-bit digits of a string. -/
def digits (m : List Byte) : List Nat := m.flatMap fun b => [b.toNat / 16, b.toNat % 16]

/-- The checksum of a message hash. -/
def checksum (q : List Byte) : List Byte := beBytes 2 ((digits q).foldl (fun n d => n + (15 - d)) 0 * 16)

/-- A hash chain from step j on. -/
def chain (id : List Byte) (q i : Nat) (x : List Byte) (j : Nat) (n : Nat) : List Byte :=
  match n with
  | 0 => x
  | n + 1 => chain id q i (sha256 (id ++ beBytes 4 q ++ beBytes 2 i ++ beBytes 1 j ++ x)) (j + 1) n

/-- The public key that a one-time signature of a message leads to. -/
def otsKey (id : List Byte) (q : Nat) (ots msg : List Byte) : List Byte :=
  let c := (ots.drop 4).take 32
  let h := sha256 (id ++ beBytes 4 q ++ beBytes 2 0x8181 ++ c ++ msg)
  sha256 (id ++ beBytes 4 q ++ beBytes 2 0x8080 ++ (digits (h ++ checksum h)).zipIdx.flatMap fun d =>
    if d.2 < 67 then chain id q d.2 ((ots.drop (36 + 32 * d.2)).take 32) d.1 (15 - d.1) else [])

/-- The root that a leaf's path of h nodes leads to. -/
def root (id : List Byte) (path : List Byte) (node : Nat) (x : List Byte) (h : Nat) : List Byte :=
  match h with
  | 0 => x
  | h + 1 =>
    let p := path.take 32
    root id (path.drop 32) (node / 2)
      (sha256 (id ++ beBytes 4 (node / 2) ++ beBytes 2 0x8383 ++ if node % 2 = 1 then p ++ x else x ++ p)) h

/-- A signature of 2,828 bytes on a message is valid under a public key of 56 bytes. -/
def valid (key sig msg : List Byte) : Bool :=
  let id := (key.drop 8).take 16
  let q := beNat (sig.take 4)
  let ots := (sig.drop 4).take 2180
  key.length == 56 && sig.length == 2828 && beNat (key.take 4) == 8 && beNat ((key.drop 4).take 4) == 3 &&
  beNat (ots.take 4) == 3 && beNat ((sig.drop 2184).take 4) == 8 && decide (q < 2 ^ 20) &&
  root id (sig.drop 2188) (2 ^ 20 + q)
    (sha256 (id ++ beBytes 4 (2 ^ 20 + q) ++ beBytes 2 0x8282 ++ otsKey id q ots msg)) 20 == key.drop 24

end Sys2Proof.Lms
end

