-- ==== Sys2Proof/Machine/Sched.lean ====
section
/-! DEFINITION. The dispatch of teams (R83, R84, R187, R190, R216, R223, R224, R229, R380), the division of the package
among functions (R225, R226), pre-emption and full context switches (R214, R227 to R230, R377). -/

namespace Sys2Proof.Machine

/-! Cores and functions (R226) -/

/-- Ticks of a partition period, of starvation and of a held core. -/
def period : Nat := 820

/-- The cores that a function holds: with a resident team, reserved, or held for it. -/
def State.heldCores (s : State) (fn : Nat) : List Nat :=
  ((s.teams.flatMap fun e => if e.2.resident && s.ctxFn e.2.ctx == fn then e.2.cores else []) ++
   (s.cores.filterMap fun e =>
      if (s.reserved e.1).any (fun c => s.ctxFn c == fn) || (e.2.heldFor.any fun h => h.1 == fn) then some e.1 else none)
  ).eraseDups

def State.heldCount (s : State) (fn : Nat) : Nat := (s.heldCores fn).length

/-- GUAR and BURST of a function (R225). -/
def State.guar (s : State) (fn : Nat) : Nat := bits (s.reg (.fnsvc fn)) 32 11
def State.burst (s : State) (fn : Nat) : Nat := bits (s.reg (.fnsvc fn)) 0 11

/-- DEFICIT of a function, biased by 2,048 so that larger is larger. -/
def State.deficit (s : State) (fn : Nat) : Nat := (bits (s.reg (.fnheld fn)) 32 12 + 2048) % 4096

/-- A period of 820 samples ends: each function's DEFICIT is set. -/
def State.endPeriod (s : State) : State :=
  if s.sched.samples < period then s
  else
    let s := (List.range 64).foldl (fun (s : State) (n : Nat) =>
      let mean := tget s.sched.sums n 0 / period
      s.setReg (.fnheld n) (setBits (s.reg (.fnheld n)) 32 12 (4096 + s.guar n - mean))) s
    { s with sched := { s.sched with samples := 0, sums := [] } }

/-- Takes a sample of HELD at a tick; the 821st belongs to the next period. -/
def State.sampleHeld (s : State) : State :=
  let s := s.endPeriod
  { s with sched := { s.sched with
      samples := s.sched.samples + 1
      sums := (List.range 64).map fun n => (n, tget s.sched.sums n 0 + s.heldCount n) } }

/-- PARTITION_PERIOD: once 820 samples have been taken, each function's DEFICIT is set. -/
def execPartitionPeriod (s : State) : Host.Outcome State Fault Refusal := .next s.endPeriod

/-! Fitting (R224) -/

/-- Teams resident on a core. -/
def State.coreTeams (s : State) (core : Nat) : List (Nat × Team) :=
  s.teams.filter fun e => e.2.resident && e.2.core == core

/-- The odd core of a resident TWIN team. -/
def State.oddTaken (s : State) (core : Nat) : Bool :=
  s.teams.any fun e => e.2.resident && e.2.twin && e.2.core + 1 == core

/-- Warp slots of a team's warps on quarter q. -/
def Team.slotsOn (tm : Team) (q : Nat) : Nat :=
  watchFactor tm.flags * (tm.warps.filter fun w => w.2.quarter == q).length

/-- Warp slots taken on each quarter of a core. -/
def State.quarters (s : State) (core : Nat) : List Nat :=
  (List.range 4).map fun q => (s.coreTeams core).foldl (fun acc e => acc + e.2.slotsOn q) 0

/-- The quarter with the fewest warps, the lowest of equals. They are counted in warp slots, a WATCH warp as two (R224; log
entry 113). -/
def leastQuarter (l : List Nat) : Nat :=
  (List.range 4).foldl (fun b q => if l.getD q 0 < l.getD b 0 then q else b) 0

/-- Places warps one at a time; none when a quarter would exceed 8. -/
def placeWarps (l : List Nat) (k : Nat) (n : Nat) : Option (List Nat) :=
  match n with
  | 0 => some []
  | n + 1 =>
    let q := leastQuarter l
    if 8 < l.getD q 0 + k then none
    else (placeWarps (l.set q (l.getD q 0 + k)) k n).map fun r => q :: r

def Team.fit (tm : Team) : Fit := fitOf tm.ctx tm.node tm.stages tm.tpSize tm.flags

/-- A pre-emption is vacating the core. -/
def State.vacating (s : State) (core : Nat) : Bool :=
  (s.sched.preempt.toList ++ s.sched.switches).any fun p => p.cores.contains core &&
    p.teams.any fun t => (s.team? t).any fun (tm : Team) => tm.resident && tm.cores.contains core

/-- The core is in service and no other function or context has a claim on it. -/
def State.claimable (s : State) (ctx core : Nat) : Bool :=
  let c := s.core core
  decide (core < Config.cores) && c.inService && !s.vacating core &&
  c.heldFor.all (fun h => h.1 == s.ctxFn ctx) && (s.reserved core).all (fun x => x == ctx)

/-- The conditions that FLAGS add. A cluster without teams can take either mode. -/
def State.flagsFit (s : State) (f : Fit) (core : Nat) : Bool :=
  let onCluster := s.teams.filter fun e => e.2.resident && e.2.core / 4 == core / 4
  (if f.flags.getLsbD 0 then onCluster.all fun e => e.2.ctx == f.ctx && e.2.node == f.node
   else onCluster.all fun e => !e.2.fuse) &&
  (onCluster.isEmpty || (s.core core).fused == f.flags.getLsbD 0) &&
  (if f.flags.getLsbD 1 then
    core % 2 == 0 && (s.coreTeams (core + 1)).isEmpty && !s.oddTaken (core + 1) && s.claimable f.ctx (core + 1)
   else true)

/-- A core fits a team. -/
def State.fits (s : State) (f : Fit) (core : Nat) : Bool :=
  let ts := s.coreTeams core
  let sum (g : Fit → Nat) : Nat := ts.foldl (fun acc e => acc + g e.2.fit) 0
  s.claimable f.ctx core && ts.all (fun e => e.2.ctx == f.ctx) && decide (ts.length < 8) && !s.oddTaken core &&
  decide (sum (fun x => x.warps) + f.warps ≤ 32) && decide (sum (fun x => x.vgran) + f.vgran ≤ 256) &&
  decide (sum (fun x => x.agran) + f.agran ≤ 128) && decide (sum (fun x => x.tide) + f.tide ≤ 1572864) &&
  (placeWarps (s.quarters core) (watchFactor f.flags) (f.warps / watchFactor f.flags)).isSome && s.flagsFit f core

/-! Seating -/

/-- A slice at its start (R190). -/
def SliceState.fresh (entry : Word) : SliceState :=
  { regs := [], scal := [], preds := [], counters := [], marks := [], flags := 0, gens := [],
    splits := [⟨0, entry, 0xFFFFFFFF, none, fmtReset, 0, [], false, none, .none, none⟩],
    stack := [], parked := [], exited := 0, ended := false, lastPop := [], offers := [], invs := [], halt := none, skid := 0 }

/-- A warp at its start (R190). -/
def Warp.fresh (quarter stage : Nat) (a c : Word) : Warp :=
  { quarter := quarter, stage := stage, dead := 0, slip := 0x8888, f0 := [], f1 := [], f2 := [], f3 := [], sa := [],
    boq := [], pushed := 0, back := [], slots := [], resv := [], yields := 0, a := .fresh a, c := .fresh c,
    retired := false, cause := none }

/-- The stage of each warp, in order (R185). -/
def warpStages (stages : List (Nat × Nat × Nat)) : List Nat :=
  stages.zipIdx.flatMap fun st => List.replicate st.1.1 st.2

/-- Team n of a posted node on a core, from the node's record. -/
def PNode.team (p : PNode) (n core placed : Nat) (quarters : List Nat) : Team :=
  let r := p.record
  let gx := recField r 64 2
  let gy := recField r 66 2
  let stages := recStageList r
  { ctx := p.ctx, node := p.va, n := n, x := n % gx, y := n / gx % gy, z := n / gx / gy, gx := gx, gy := gy,
    gz := recField r 68 2, stages := stages, entries := (List.range 8).map fun k => recEntry r k, flags := recFlags r,
    nrv := recField r 88 1, privBase := BitVec.ofNat 64 (recField r 104 8), privSize := recField r 112 4,
    tpSize := tideSize (recTpool r), tide := [], core := core, root := p.root, status := .running,
    primary := none, resolve := none, placed := placed, post := p.post, telling := none,
    warps := ((warpStages stages).zip quarters).zipIdx.map fun w =>
      (w.2, .fresh w.1.2 w.1.1 (recEntry r (2 * w.1.1)) (recEntry r (2 * w.1.1 + 1))),
    rvs := [], fifoA := [], fifoB := [], fifoOdd := [] }

/-- A core takes a team at a placement: its instruction cache is invalidated for a restored team and for one of another
posting than the last (R380), and it is no longer merely held or reserved. -/
def Core.seat (c : Core) (post placed : Nat) (restored : Bool) : Core :=
  { c with
    icache := if restored || c.lastNode != some post then [] else c.icache
    lastNode := some post, placed := placed, heldFor := none, reservedFor := none }

/-- The cores of a team's place take it; the cluster takes its mode (R84). -/
def State.seatCores (s : State) (f : Fit) (post core : Nat) (restored : Bool) : State :=
  let s := (s.setFused (core / 4) (f.flags.getLsbD 0)).modCore core (·.seat post s.sched.next restored)
  if f.flags.getLsbD 1 then
    s.modCore (core + 1) fun c => { c with placed := s.sched.next, heldFor := none, reservedFor := none } else s

/-- The next placement's serial number (R228). -/
def State.nextPlace (s : State) : State := { s with sched := { s.sched with next := s.sched.next + 1 } }

/-- A restored slice may issue again. -/
def SliceState.unhalt (x : SliceState) : SliceState := { x with halt := none, skid := 0 }

/-- A saved team on its new core: placement is set afresh and its blocks are freed (R229). -/
def Team.restored (tm : Team) (core placed : Nat) (quarters : List Nat) : Team :=
  { tm with
    core := core, placed := placed, status := .running, primary := none, fifoA := [], fifoB := [], fifoOdd := []
    warps := (tm.warps.zip quarters).map fun w =>
      (w.1.1, { w.1.2 with quarter := w.2, cause := none, a := w.1.2.a.unhalt, c := w.1.2.c.unhalt }) }

/-- The saved FIFO bytes return (R228, R377); none while another team owns the FIFOs. -/
def State.refill (s : State) (t : Nat) (tm : Team) (core : Nat) : Option State :=
  let s? := if tm.fifoA.isEmpty && tm.fifoB.isEmpty then some s
    else (s.takeFifos core t).map fun s => s.modCore core fun c => { c with fifoA := tm.fifoA, fifoB := tm.fifoB }
  s?.bind fun s =>
    if tm.fifoOdd.isEmpty then some s
    else (s.takeFifos (core + 1) t).map fun s => s.modCore (core + 1) fun c => { c with fifoB := tm.fifoOdd }

/-- Reissues what waits for its translation, in the order of issue; splits parked in `cp.yield` for a count that has reached
0 restart (R353). -/
def State.reissue (s : State) (t : Nat) : State :=
  let s := (((s.flights.filter fun f => f.walking && f.stream.team == t).map Flight.id).foldl
    (fun (s : State) (id : Nat) => s.resolveFlight id none) s).pump
  match s.team? t with
  | none => s
  | some tm => (tm.warps.map Prod.fst).foldl (fun (s : State) (w : Nat) => s.restartYields t w) s

/-- Puts one team of a node on a core: a saved team, or the next new one. -/
def State.seat (s : State) (p : PNode) (f : Fit) (u : Nat × Option (Nat × Team)) (ok : Nat → Bool) (core : Nat) :
    Option State :=
  if !s.fits f core || !ok core || (f.flags.getLsbD 1 && !ok (core + 1)) then none
  else match placeWarps (s.quarters core) (watchFactor f.flags) (f.warps / watchFactor f.flags) with
    | none => none
    | some qs => match u.2 with
      | none =>
        let s := s.seatCores f p.post core false
        let t := s.fresh
        some ({ s.bump.nextPlace with teams := tset s.teams t (p.team u.1 core s.sched.next qs) } : State)
      | some (t, tm) =>
        ((s.seatCores f p.post core true).refill t tm core).map fun s =>
          (s.nextPlace.modTeam t (·.restored core s.sched.next qs)).reissue t

/-! Units of dispatch -/

def insertTeam (l : List (Nat × Team)) (e : Nat × Team) : List (Nat × Team) :=
  match l with
  | [] => [e]
  | x :: l => if e.2.n < x.2.n then e :: x :: l else x :: insertTeam l e

/-- A team of the node that goes with team n is halting for a save: the SHARE group, or the CORES node, is restored whole
(R21, R224). -/
def PNode.parting (p : PNode) (s : State) (n : Nat) : Bool :=
  let fl := recFlags p.record
  s.teams.any fun e => p.isOf e.2 && e.2.status == .saving && (fl.getLsbD 2 || (fl.getLsbD 3 && e.2.n / 4 == n / 4))

/-- The teams of a node that are dispatched next, together: saved teams first, in ascending order. -/
def PNode.unit (p : PNode) (s : State) : List (Nat × Option (Nat × Team)) :=
  let fl := recFlags p.record
  match (p.savedIn s).foldl insertTeam [] with
  | e :: es =>
    match (e :: es).filter fun x => !p.parting s x.2.n with
    | [] => []
    | e :: es =>
      let l := if fl.getLsbD 2 then e :: es
        else if fl.getLsbD 3 then (e :: es).filter fun x => x.2.n / 4 == e.2.n / 4
        else [e]
      l.map fun x => (x.2.n, some x)
  | [] =>
    let k := if fl.getLsbD 2 then p.total - p.nextTeam
      else if fl.getLsbD 3 then min (p.total - p.nextTeam) (4 - p.nextTeam % 4)
      else min 1 (p.total - p.nextTeam)
    (List.range k).map fun j => (p.nextTeam + j, none)

/-- The cluster where others of a SHARE team's group stand. -/
def State.groupCluster (s : State) (p : PNode) (n : Nat) : Option Nat :=
  (s.teams.find? fun e => e.2.resident && p.isOf e.2 && e.2.n / 4 == n / 4).map fun e => e.2.core / 4

/-- Seats the teams of a group on one cluster. -/
def State.seatGroup (s : State) (p : PNode) (f : Fit) (us : List (Nat × Option (Nat × Team))) (ok : Nat → Bool)
    (cluster : Nat) : Option State :=
  us.foldl (fun (s : Option State) u => s.bind fun s =>
    if (s.groupCluster p u.1).all (fun c => c == cluster) then s.seat p f u ok (cluster * 4 + u.1 % 4) else none) (some s)

/-- The groups of a unit: single teams, or SHARE groups. -/
def groupsOf (share : Bool) (us : List (Nat × Option (Nat × Team))) : List (List (Nat × Option (Nat × Team))) :=
  if share then ((us.map fun u => u.1 / 4).eraseDups).map fun g => us.filter fun u => u.1 / 4 == g
  else us.map fun u => [u]

/-- Where a later group of a CORES node goes: any place that fits, a free choice (log entry 18). -/
def State.seatAnywhere (s : State) (p : PNode) (f : Fit) (us : List (Nat × Option (Nat × Team))) (ok : Nat → Bool)
    (share : Bool) (k : Nat) : Option State :=
  let from_ := (Config.freeWord 44 (s.agenda.free + k)).toNat
  let size := if share then 256 else Config.cores
  (List.range size).findSome? fun j =>
    let c := (from_ + j) % size
    if share then s.seatGroup p f us ok c else us.head?.bind fun u => s.seat p f u ok c

/-- Seats a whole unit, its first team or group at the given core. -/
def State.seatUnit (s : State) (p : PNode) (f : Fit) (us : List (Nat × Option (Nat × Team))) (ok : Nat → Bool)
    (core : Nat) : Option State :=
  let share := f.flags.getLsbD 3
  match groupsOf share us with
  | [] => none
  | g :: gs =>
    let first := if share then s.seatGroup p f g ok (core / 4) else g.head?.bind fun u => s.seat p f u ok core
    (gs.zipIdx.foldl (fun (s : Option State) h => s.bind fun s => s.seatAnywhere p f h.1 ok share h.2) first).map
      fun s => if gs.isEmpty then s else s.tookFree gs.length

/-- What a node notes of a dispatch. -/
def State.noteDispatch (s : State) (p : PNode) (fresh : Nat) : State :=
  let s := { s with sched := { s.sched with nodes := s.sched.nodes.map fun (m : PNode) =>
    if m.ctx = p.ctx && m.va = p.va then
      { m with nextTeam := m.nextTeam + fresh, tick := s.now, starved := false } else m } }
  let s := if p.nextTeam = 0 && fresh != 0 then s.setRecord p.ctx p.va 3 0 else s
  if !p.root then s
  else
    let s := { s with sched := { s.sched with resumed := s.sched.resumed.filter fun c => c != p.ctx } }
    if fresh != 0 then s.setCtxState p.ctx 2 else s

/-- Dispatches the next unit of a node with its first team at a core. -/
def State.seatNode (s : State) (ok : Nat → Bool) (core : Nat) (p : PNode) : Option State :=
  let us := p.unit s
  let fresh := (us.filter fun u => u.2.isNone).length
  (s.seatUnit p (recFit p.ctx p.va p.record) us ok core).map fun s => s.noteDispatch p fresh

/-- The node holds later ones back: its starvation has begun (R223). -/
def PNode.starving (p : PNode) (now : Nat) : Bool := p.starved || decide (p.tick + period ≤ now)

/-- The nodes of a context that may be dispatched to a core: the root program before all when the context was saved whole
(R230); the first alone when it starves, or when the core is reserved for it. -/
def State.eligible (s : State) (ctx core : Nat) : List PNode :=
  let pool := s.pool ctx
  match pool.find? fun p => p.root && s.sched.resumed.contains ctx && !(p.savedIn s).isEmpty with
  | some p => [p]
  | none => match pool with
    | [] => []
    | p :: ps => if p.starving s.now || (s.reserved core).isSome then [p] else p :: ps

/-- The context may hold cores. -/
def State.dispatchable (s : State) (ctx : Nat) : Bool :=
  s.ctxExists ctx && s.ctxRun ctx && (s.ctxState ctx == 1 || s.ctxState ctx == 2) && !s.fnInReset (s.ctxFn ctx)

/-- The next unit of a context at a core. -/
def State.tryDispatch (s : State) (ctx : Nat) (ok : Nat → Bool) (core : Nat) : Option State :=
  if s.dispatchable ctx then (s.eligible ctx core).findSome? (s.seatNode ok core) else none

/-! Granting (R226) -/

/-- A function has a team that fits the core: it goes there, or takes it as the odd core of its twin. -/
def State.wants (s : State) (fn core : Nat) : Bool :=
  let goes (t : State) : Bool := t.teams.any fun e =>
    e.2.resident && decide (s.sched.next ≤ e.2.placed) && e.2.cores.contains core
  (List.range 64).any fun c => s.ctxExists c && s.ctxFn c == fn &&
    ((s.tryDispatch c (fun _ => true) core).any goes ||
      (core % 2 == 1 && (s.tryDispatch c (fun _ => true) (core - 1)).any goes))

/-- Of two functions, the one that the controller takes first: below GUAR, then below GUAR + BURST, each by the larger
DEFICIT, then the lower number. -/
def State.rank (s : State) (fn : Nat) : Nat :=
  let h := s.heldCount fn
  if h < s.guar fn then 4096 - s.deficit fn
  else if h < s.guar fn + s.burst fn then 8192 + 4096 - s.deficit fn
  else 16384

/-- The function that a free core goes to. -/
def State.grantee (s : State) (core : Nat) : Option Nat :=
  ((List.range 64).filter fun fn => s.wants fn core).foldl (fun (b : Option Nat) fn => match b with
    | none => some fn
    | some x => if s.rank fn < s.rank x then some fn else some x) none

/-- The function holds the core, or is granted it. -/
def State.granted (s : State) (fn core : Nat) : Bool :=
  (s.heldCores fn).contains core || s.grantee core == some fn

/-- Cores that are reserved for a node which is no longer first become free. -/
def State.freeReserved (s : State) : State :=
  { s with cores := s.cores.map fun (c : Nat × Core) => (c.1, { c.2 with reservedFor := c.2.reservedFor.filter s.coresFirst }) }

/-- Blocks that a team occupies. -/
def Team.blocks (tm : Team) : List Nat :=
  match tm.status with
  | .saved bs => bs
  | .trapped _ bs _ => bs
  | .running | .trapping | .saving => []

/-- The address of a block of a context's save area. -/
def State.blockAddr (s : State) (ctx n : Nat) : Word := s.saveBase ctx + BitVec.ofNat 64 (65536 * n)

/-- The clusters that a dispatch would have change their mode while their L1s are not empty (R84). -/
def State.uncleared (s after : State) : List Nat :=
  (List.range (Config.cores / 4)).filter fun c => (s.core (4 * c)).fused != (after.core (4 * c)).fused && !s.l1Clear c

/-- What the dispatch of a node's next unit reads and writes: its record, and the images of saved teams. -/
def PNode.touches (p : PNode) (s : State) : List Touch :=
  recTouches p.ctx p.va ++ (p.unit s).flatMap fun u => match u.2 with
    | some (_, tm) => tm.blocks.map fun b => Touch.ctx p.ctx (s.blockAddr p.ctx b) 65536 false
    | none => []

/-- No node of the context waits for its lines to be dispatched. -/
def State.undispatch (s : State) (ctx : Nat) : State :=
  (s.sched.nodes.filter fun n => n.ctx == ctx).foldl (fun (s : State) (n : PNode) =>
    s.unclaim nodeAgent (nodeSerial ctx n.va 2)) s

/-- TEAM_DISPATCH: the next unit of a context's pool is placed on a core that fits it, its first team there. The record is
read as it stands (R218). Clusters whose L1s must first be emptied are cleared (R84), and the dispatch comes again. The root
program of a STARTING context is posted first, once its record's lines are ready (R216). -/
def execTeamDispatch (ctx core : Nat) (s : State) : Host.Outcome State Fault Refusal :=
  .next (if !s.dispatchable ctx then s
    else if s.rootAwaited ctx then s.postRoot ctx
    else
      let ok := s.granted (s.ctxFn ctx)
      match (s.eligible ctx core).find? fun p => (s.seatNode ok core p).isSome with
      | none => s.undispatch ctx
      | some p =>
        let cl := ((s.seatNode ok core p).map s.uncleared).getD []
        if !cl.isEmpty then cl.foldl State.clearL1s s
        else match s.agentAsk nodeAgent (nodeSerial ctx p.va 2) (p.touches s) with
          | (s, false) => s
          | (s, true) => match s.seatNode ok core (p.now s) with
            | some s => s.freeReserved.tookFree 256
            | none => s)

/-- POOL_STARVATION: the first node has not dispatched for 820 ticks and holds later nodes back. -/
def execPoolStarvation (ctx : Nat) (s : State) : Host.Outcome State Fault Refusal :=
  .next (match (s.pool ctx).head? with
    | none => s
    | some p =>
      if p.tick + period ≤ s.now then
        { s with sched := { s.sched with nodes := s.sched.nodes.map fun (m : PNode) =>
            if m.ctx = p.ctx && m.va = p.va then { m with starved := true } else m } }
      else s)

/-- HELD_CORE_EXPIRY: a core held for a beneficiary becomes free when 820 ticks have passed unused. -/
def execHeldCoreExpiry (core : Nat) (s : State) : Host.Outcome State Fault Refusal :=
  .next (match (s.core core).heldFor with
    | some (_, since) =>
      if since + period ≤ s.hb (dieOf core) then s.modCore core fun c => { c with heldFor := none } else s
    | none => s)

/-! The save area (R228, R377, R389) -/

/-- Blocks of 64 KiB of a team's image. -/
def Team.imageBlocks (tm : Team) : Nat :=
  let kib := 1024
  let regs := tm.stages.foldl (fun acc x => acc + x.1 * (x.2.1 + x.2.2)) 0
  let size := 12 * kib * tm.nwarps + kib * regs + tm.tpSize + 256 * kib + 4 * kib + (if tm.twin then 128 * kib else 0)
  (size + 65535) / 65536

def State.takenBlocks (s : State) (ctx : Nat) : List Nat :=
  s.teams.flatMap fun e => if e.2.ctx = ctx then e.2.blocks else []

/-- Free blocks for images: the final block is reserved for a header alone. -/
def State.freeBlocks (s : State) (ctx : Nat) : Nat := (s.saveSize ctx - 1) - ((s.takenBlocks ctx).filter fun b => b < s.saveSize ctx - 1).length

/-- Blocks that teams halting for a save will take. -/
def State.promised (s : State) (ctx : Nat) : Nat :=
  s.teams.foldl (fun acc e => if e.2.ctx = ctx && e.2.status == .saving then acc + e.2.imageBlocks else acc) 0

/-- Blocks that a new image may still take. -/
def State.openBlocks (s : State) (ctx : Nat) : Nat := s.freeBlocks ctx - s.promised ctx

/-- The chosen blocks are free, distinct, and as many as the image needs. -/
def State.blocksOk (s : State) (ctx n : Nat) (bs : List Nat) : Bool :=
  bs.length == n && bs.eraseDups.length == n &&
  bs.all fun b => decide (b < s.saveSize ctx - 1) && !(s.takenBlocks ctx).contains b

/-! Settling (R228) -/

/-- The commands of a team that cannot end while it halts: runs not started, unmatched commands, feeds whose FIFO is
full, those that follow an access which is not bound (R342), and what stands behind them. -/
def State.stuckStep (s : State) (l : List Command) (c : Command) : List Command :=
  let behind := l.any fun e => e.warp == c.warp && (e.verdict.isNone || e.matrix == c.matrix || (match c.kind with
    | .accFin _ => true
    | _ => false))
  let full := match c.kind, s.team? c.team with
    | .feed f, some tm => (s.core (fifoCore tm f)).fifoOwner == some c.team &&
        decide (fifoCap ≤ ((s.core (fifoCore tm f)).fifo f).length)
    | _, _ => false
  let self := c.verdict.isNone || (c.verdict == some true && c.st == .queued && (c.matrix || !s.afterDone c)) || full
  if (c.st == .queued || c.st == .running) && (self || behind) then l ++ [c] else l

def State.stuck (s : State) (t : Nat) : List Command :=
  (s.engines.cmds.filter fun c => c.team == t).foldl s.stuckStep []

/-- The access loads into a queue entry, and its data are not under way: some of it has still to be performed (R214). -/
def Flight.unread (f : Flight) : Bool :=
  (match f.dst with
   | .queue .. => true
   | .none | .reg _ | .counter .. | .pred _ => false) && !f.bound && f.pieces.all fun p => p.st != .sent

/-- The status of an `acc.fin` that cannot end while its team halts. -/
def State.stuckResult (s : State) (f : Flight) : Bool :=
  (s.stuck f.stream.team).any fun c => c.result == some f.id

/-- The access waits behind one that stays as it is, and has nothing under way. -/
def State.waitsBehind (s : State) (f : Flight) (stay : List Flight) : Bool :=
  let ps := f.pieces.filter fun p => p.st == .wait
  let before := (s.before f).filter fun e => stay.any fun x => x.id == e.id
  f.op.isSome && !f.walking && !ps.isEmpty && (f.pieces.all fun p => p.st != .sent) &&
  ((before.any fun e => (ps.any (s.faultMeets e)) || (e.pieces.any fun q => q.st == .wait && ps.any fun p =>
      q.overlaps p || (q.sc && p.sc) || (p.moving && q.sameBlock p))) ||
    f.after.any fun id => stay.any fun x => x.id == id)

/-- The accesses and results of a team that stay as they are in an image: a faulted access, a queue load whose data are not
under way (R214), a status that `acc.fin` cannot give yet, and what waits behind one of these (R390). -/
def State.staying (s : State) (t : Nat) : List Flight :=
  (s.flights.filter fun f => f.stream.team == t).foldl (fun (l : List Flight) f =>
    if f.faulted || f.unread || s.stuckResult f || s.waitsBehind f l then l ++ [f]
    else l) []

/-- Every stream of the team has stopped, and what it issued has ended as far as it can. -/
def State.settled (s : State) (t : Nat) (tm : Team) : Bool :=
  (tm.warps.all fun w => w.2.retired ||
    ((w.2.a.ended || w.2.a.halt.isSome) && (w.2.c.ended || w.2.c.halt.isSome))) &&
  (s.flights.all fun f => f.stream.team != t || (s.staying t).any fun x => x.id == f.id) &&
  (s.engines.cmds.all fun c => c.team != t || c.st == .faulted || (s.stuck t).any fun e => e.id == c.id) &&
  (s.engines.emissions.all fun e => e.team != t)

/-- An access is saved as its address (R214): it is translated again on restore, in the lanes, or the pieces of them, that have
not been performed. -/
def Flight.asAddress (f : Flight) : Flight :=
  if f.faulted || f.op.isNone then f
  else
    { f with
      pieces := f.pieces.filter fun p => p.st == .done
      walking := true, past := 1
      todo := f.pieces.foldl (fun (m : Mask) p => if p.st == .done then m else m ||| laneBit p.lane) f.todo }

/-- What a wait leaves in an image: the word is executed again (R377), `wait.addr` with the deadline it first computed
(R328). -/
def Wait.image : Wait → Wait
  | .addr sc d _ t _ => .addr sc d [] t true
  | .none | .pop .. | .push .. | .guard _ | .counter .. | .rendezvous .. | .exchange _ | .engine | .order | .translation
  | .behind | .fetch | .heartbeat _ | .trapped => .none

/-- The splits of a saved slice have no fetched words (R380). -/
def SliceState.image (x : SliceState) : SliceState :=
  { x with splits := x.splits.map (fun (p : Split) => { p with fetched := [], wait := p.wait.image }), offers := [] }

/-- A saved warp: reservations are cleared (R214). -/
def Warp.image (w : Warp) : Warp := { w with resv := [], a := w.a.image, c := w.c.image }

/-- Takes a settled team's image: what it holds on its cores goes into it. -/
def State.takeImage (s : State) (t : Nat) (tm : Team) : State :=
  let own (core : Nat) (l : Core → List FifoByte) : List FifoByte :=
    if (s.core core).fifoOwner = some t then l (s.core core) else []
  let s := s.modTeam t fun x => { x with
    fifoA := own tm.core Core.fifoA, fifoB := own tm.core Core.fifoB
    fifoOdd := if tm.twin then own (tm.core + 1) Core.fifoB else []
    warps := x.warps.map fun (w : Nat × Warp) => (w.1, w.2.image) }
  let s := tm.cores.foldl (fun (s : State) c => s.modCore c (·.freeFifos t)) s
  { s with flights := s.flights.map fun (f : Flight) => if f.stream.team = t then f.asAddress else f }

/-! Pre-emption -/

/-- The function that the cores of a team are vacated for (R227, R228). -/
def State.benOf (s : State) (t : Nat) : Option Nat :=
  s.sched.preempt.bind fun p => if p.teams.contains t then p.ben else none

/-- A core without teams is held for a beneficiary. -/
def State.holdFor (s : State) (b core : Nat) : State :=
  if s.occupied core then s else s.modCore core fun x => { x with heldFor := some (b, s.hb (dieOf core)) }

/-- A team has left its cores. They go to the beneficiary of the request, if there is one; otherwise they become free (R226,
R228), and a CORES node that is first in its pool keeps them (R224). -/
def State.vacate (s : State) (t : Nat) (tm : Team) : State :=
  let s := if tm.fuse then s.unfuse (tm.core / 4) else s
  let s := match s.benOf t with
    | some b => tm.cores.foldl (fun (s : State) c => s.holdFor b c) s
    | none => tm.cores.foldl (fun (s : State) c => s.reserveFreed tm.ctx c) s
  let drop (p : Preempt) : Preempt := { p with teams := p.teams.filter fun x => x != t }
  { s with sched := { s.sched with preempt := s.sched.preempt.map drop, switches := s.sched.switches.map drop } }

/-- A context gives up everything it has in the package (R394 steps 1 to 3): teams and images, commands, flights, slides,
trap records and nodes. What gather buffers hold for it is lost (R182). -/
def State.discardContext (s : State) (ctx : Nat) : State :=
  let ids := (s.teams.filter fun e => e.2.ctx == ctx).map Prod.fst
  let s := ids.foldl (fun (s : State) t => s.loseTeam t) s
  let s := { s with
    flights := s.flights.filter fun (f : Flight) => !ids.contains f.stream.team
    engines := { s.engines with cmds := s.engines.cmds.filter fun (c : Command) => !ids.contains c.team }
    sched := { s.sched with
      nodes := s.sched.nodes.filter fun (n : PNode) => n.ctx != ctx
      resumed := s.sched.resumed.filter fun c => c != ctx
      records := tdel s.sched.records ctx } }
  let s := ids.foldl (fun (s : State) t => match s.team? t with
    | some tm => s.removeTeam t tm false
    | none => s) s
  (s.abandonSlides fun x => x.ctx == ctx).setReg (.ctxtrapq ctx) 0

/-- A context-fatal fault (R394). -/
def State.contextFatal (s : State) (ctx : Nat) : State :=
  (((s.discardContext ctx).setCtxState ctx 5).logEvent 0x05 (s.ctxFn ctx) ctx 0xFFFF 0 0).signalCtx ctx

/-- System software destroys a context (R74): it gives up what it has and exists no more. -/
def State.destroyContext (s : State) (ctx : Nat) : State :=
  ((s.discardContext ctx).setCtxState ctx 0).setReg (.ctxctl ctx) (s.reg (.ctxctl ctx) &&& ~~~(1#64 <<< 63))

/-- The teams of a pre-emption that have not left their cores. -/
def State.leaving (s : State) (p : Preempt) : List Nat :=
  p.teams.filter fun t => (s.team? t).any fun (tm : Team) => tm.resident

/-- Ends the full context switches whose teams have all left (R230). -/
def State.endSwitches (s : State) : State :=
  let done := s.sched.switches.filter fun p => (s.leaving p).isEmpty
  let s := { s with sched := { s.sched with switches := s.sched.switches.filter fun p => !(s.leaving p).isEmpty } }
  done.foldl (fun (s : State) (p : Preempt) =>
    if s.ctxState p.ctx != 3 then s
    else if p.nospace then s.contextFatal p.ctx
    else s.setCtxState p.ctx 4) s

/-- Ends the request of PREEMPT once its teams have left: PREEMPTST is set, GO is cleared, vector 0 is signalled. -/
def State.endPreempt (s : State) : State :=
  match s.sched.preempt with
  | none => s
  | some p =>
    if !(s.leaving p).isEmpty then s
    else
      let vacated := p.cores.length
      let code := if p.nospace then 2 else if vacated < p.want then 1 else 0
      let s := { s with sched := { s.sched with preempt := none } }
      ((s.setReg .preemptst (setBits (setBits 0 60 4 code) 0 11 vacated)).setReg .preempt
        (setBits (s.reg .preempt) 63 1 0)).signal 0 0

/-- PREEMPT_COMPLETE. -/
def execPreemptComplete (s : State) : Host.Outcome State Fault Refusal := .next s.endPreempt.endSwitches

/-- The bytes of a team's image in the blocks of its save area: the device's own layout, so free values, written and
encrypted as data of the range that maps the area (R97, R386). The image itself stays with the team (log entry 28). -/
def State.writeImage (s : State) (ctx : Nat) (blocks : List Nat) : State :=
  blocks.foldl (fun (s : State) b =>
    let bytes : List Byte := (List.range 65536).map fun k => (Config.freeWord 53 (s.agenda.free + k)).setWidth 8
    ((s.ctxWrite ctx (s.blockAddr ctx b) bytes).getD s).tookFree 65536) s

/-- What the writing of an image touches, and the number of its claims. -/
def State.imageTouches (s : State) (ctx : Nat) (blocks : List Nat) : List Touch :=
  blocks.map fun b => .ctx ctx (s.blockAddr ctx b) 65536 true

def teamSerial (t : Nat) : Nat := t * 4 + 3

/-- TEAM_SAVE: a settled team's image is written to the chosen blocks, and the team returns to its pool. -/
def execTeamSave (team : Nat) (blocks : List Nat) (s : State) : Host.Outcome State Fault Refusal :=
  .next (match s.team? team with
    | none => s
    | some tm =>
      if tm.status != .saving || !s.blocksOk tm.ctx tm.imageBlocks blocks then s
      else
        let s := s.flushTeam team
        if s.gathering team || !s.settled team tm then s
        else match s.agentAsk nodeAgent (teamSerial team) (s.imageTouches tm.ctx blocks) with
          | (s, false) => s
          | (s, true) =>
            ((((s.writeImage tm.ctx blocks).takeImage team tm).modTeam team fun x =>
              { x with status := .saved blocks }).vacate team tm).endSwitches)

/-- The cores of a context, the one on which a team was placed last first (R228). -/
def State.coresByAge (s : State) (ctx : Nat) : List Nat :=
  let cs := ((s.teams.filter fun e => e.2.resident && e.2.ctx == ctx).map fun e => e.2.core).eraseDups
  let at_ (c : Nat) : Nat := (s.core c).placed
  cs.foldl (fun (l : List Nat) c =>
    (l.takeWhile fun x => decide (at_ c < at_ x)) ++ [c] ++ l.dropWhile fun x => decide (at_ c < at_ x)) []

/-- A SHARE team of the context stands on the cluster. -/
def State.sharedBy (s : State) (ctx cluster : Nat) : Bool :=
  s.teams.any fun e => e.2.resident && e.2.ctx == ctx && e.2.core / 4 == cluster && e.2.share

/-- The cores of a cluster that a request to vacate a context may bring: those on which no other context has a team or a
claim. -/
def State.clusterCores (s : State) (ctx cluster : Nat) : List Nat :=
  ((List.range 4).map fun k => 4 * cluster + k).filter fun c =>
    (s.teams.all fun e => !(e.2.resident && e.2.cores.contains c) || e.2.ctx == ctx) && (s.occupied c || s.claimable ctx c)

/-- Two teams of a context are saved and restored together: teams of a CORES node, or of a SHARE group (R21, R224). -/
def Team.together (a b : Team) : Bool :=
  a.node == b.node && ((a.coresFlag && b.coresFlag) || (a.share && b.share && a.group == b.group))

/-- Cores of a context with those that they bring (R228): both cores of a twin, every core of a CORES node, and of the cluster
of a SHARE group or a FUSE node. -/
def State.brings (s : State) (ctx : Nat) (cs : List Nat) : List Nat :=
  let ts := s.teams.filter fun e => e.2.resident && e.2.ctx == ctx
  let here := ts.filter fun e => e.2.cores.any cs.contains
  let mates := ts.filter fun e => here.any fun h => h.2.together e.2
  let whole := (here.filter fun e => e.2.share || e.2.fuse).map fun e => e.2.core / 4
  (cs ++ (here ++ mates).flatMap (fun e => e.2.cores) ++ whole.flatMap fun k => s.clusterCores ctx k).eraseDups

/-- The cores that a choice brings, and those that these bring in turn, without the cores that are kept. -/
def State.widen (s : State) (ctx : Nat) (keep cs : List Nat) (fuel : Nat) : List Nat :=
  match fuel with
  | 0 => cs
  | fuel + 1 =>
    let ds := (s.brings ctx cs).filter fun c => !keep.contains c
    if ds.length = cs.length then cs else s.widen ctx keep ds fuel

/-- The choice would take a part of what is saved and restored as a whole, and keep the rest (R21). -/
def State.tears (s : State) (ctx : Nat) (keep cs : List Nat) : Bool :=
  let ts := s.teams.filter fun e => e.2.resident && e.2.ctx == ctx
  (ts.filter fun e => e.2.cores.any cs.contains).any fun e =>
    ts.any fun m => (m.1 == e.1 || e.2.together m.2) && m.2.cores.any keep.contains

/-- The cores of the root program, which are kept unless all of the context's cores are asked for. -/
def State.rootCores (s : State) (ctx : Nat) : List Nat :=
  s.teams.flatMap fun e => if e.2.resident && e.2.ctx == ctx && e.2.root then e.2.cores else []

/-- Chooses cores of a context until n are reached. A core whose choice would tear from the root program's core what R21
pre-empts as a whole is passed over (log entry 114). -/
def State.choose (s : State) (ctx n : Nat) : List Nat :=
  let all := (s.teams.flatMap fun e => if e.2.resident && e.2.ctx == ctx then e.2.cores else []).eraseDups
  let keep := if all.length ≤ n then [] else s.rootCores ctx
  (s.coresByAge ctx).foldl (fun (l : List Nat) c =>
    if n ≤ l.length || l.contains c || keep.contains c then l
    else
      let cs := s.widen ctx keep [c] Config.cores
      if s.tears ctx keep cs then l else l ++ cs.filter fun x => !l.contains x) []

/-- Halts teams for a save, all of them or, when their images find no room, none. -/
def State.haltTeams (acc : State × Preempt) (ts : List (Nat × Team)) : State × Preempt :=
  if acc.1.openBlocks acc.2.ctx < ts.foldl (fun n e => n + e.2.imageBlocks) 0 then (acc.1, { acc.2 with nospace := true })
  else
    (ts.foldl (fun (s : State) e => s.modTeam e.1 fun x => { x with status := .saving }) acc.1,
      { acc.2 with teams := acc.2.teams ++ ts.map Prod.fst })

/-- The chosen cores in the portions that are vacated together: single cores, or the chosen cores of a cluster on which
SHARE groups stand (R21). -/
def State.portions (s : State) (ctx : Nat) (cores : List Nat) : List (List Nat) :=
  cores.foldl (fun (l : List (List Nat)) c =>
    if l.any fun x => x.contains c then l
    else if s.sharedBy ctx (c / 4) then l ++ [cores.filter fun x => x / 4 == c / 4] else l ++ [[c]]) []

/-- Teams that are saved together: a SHARE group, or one team. -/
def saveGroups (ts : List (Nat × Team)) : List (List (Nat × Team)) :=
  ts.foldl (fun (l : List (List (Nat × Team))) e =>
    let mate (x : Nat × Team) : Bool := e.2.share && x.2.share && x.2.node == e.2.node && x.2.n / 4 == e.2.n / 4
    if l.any fun g => g.any mate then l.map fun g => if g.any mate then g ++ [e] else g else l ++ [[e]]) []

/-- Halts for a save the running teams of the chosen cores whose images find room. With `per` set, a portion counts only
when all its teams do, and the first that does not ends the choice (R228); otherwise each team, or SHARE group, is judged
alone (R21, R230). -/
def State.haltForSave (s : State) (p : Preempt) (per : Bool) : State × Preempt :=
  (s.portions p.ctx p.cores).foldl (fun (acc : State × Preempt) (cores : List Nat) =>
    let q := acc.2
    if per && q.nospace then acc
    else
      let ts := acc.1.teams.filter fun e => e.2.resident && cores.contains e.2.core
      let run := ts.filter fun e => e.2.status == .running
      let tried := (if per then [run] else saveGroups run).foldl State.haltTeams acc
      if per && tried.2.nospace then tried
      else (tried.1, { tried.2 with
        cores := tried.2.cores ++ cores
        teams := tried.2.teams ++ ((ts.filter fun e => e.2.status != .running).map Prod.fst) }))
    (s, { p with cores := [] })

/-- PREEMPT_GO: a write to PREEMPT (R227), ignored while GO reads 1. BADCTX, whose cause the spec does not state, is given for a
context that does not exist, for one that is neither STARTING nor RUNNING, and for N = 0 (log entry 115). -/
def execPreemptGo (v : Word) (s : State) : Host.Outcome State Fault Refusal :=
  .next (if !s.pfOpen || (s.reg .preempt).getLsbD 63 then s
    else
      let s := s.setReg .preempt (v &&& 0xFFFC0000000007FF#64)
      if !v.getLsbD 63 then s
      else
        let ctx := bits v 56 6
        let n := bits v 0 11
        let p : Preempt :=
          { ctx := ctx, ben := if v.getLsbD 62 then some (bits v 50 6) else none, want := n, cores := [], teams := [],
            nospace := false, full := false }
        if !s.ctxExists ctx || !(s.ctxState ctx == 1 || s.ctxState ctx == 2) || n = 0 then
          ((s.setReg .preemptst (setBits 0 60 4 3)).setReg .preempt (setBits (s.reg .preempt) 63 1 0)).signal 0 0
        else
          let (s, p) := s.haltForSave { p with cores := s.choose ctx n } true
          let s := match p.ben with
            | some b => p.cores.foldl (fun (s : State) c => s.holdFor b c) s
            | none => s
          { s with sched := { s.sched with preempt := some p } })

/-! The RUN bit (R215, R216, R230, R394) -/

/-- CTXCTLc as a write leaves it: fields other than RUN are kept while RUN is 1. -/
def ctxctlAfter (old v : Word) : Word :=
  let run : Word := v &&& (1#64 <<< 61)
  if old.getLsbD 61 then (old &&& ~~~(1#64 <<< 61)) ||| run else v &&& 0xE3F00000000007FF#64

/-- CTXCTL_RUN_SET: a write that sets RUN starts a context that is OFF and resumes one that is SAVED. One that is still SAVING
becomes SAVED with RUN 1, and is not resumed by this write (log entry 116). The root program of one that is started while its
function is in reset is posted at IDLE (log entry 117). -/
def execCtxctlRunSet (ctx : Nat) (v : Word) (s : State) : Host.Outcome State Fault Refusal :=
  .next (if !s.pfOpen || 64 ≤ ctx || !v.getLsbD 61 then s
    else
      let was := s.ctxRun ctx
      let s := s.setReg (.ctxctl ctx) (ctxctlAfter (s.reg (.ctxctl ctx)) v)
      if was || !s.ctxExists ctx then s
      else match s.ctxState ctx with
        | 0 => (s.setCtxState ctx 1).postRoot ctx
        | 4 =>
          let s := s.setCtxState ctx 2
          { s with sched := { s.sched with resumed := s.sched.resumed ++ [ctx] } }
        | _ => s)

/-- CTXCTL_RUN_CLEAR: a write that clears RUN saves the context; one that is FAILED becomes OFF. A write that clears V
while RUN is 0 destroys the context. -/
def execCtxctlRunClear (ctx : Nat) (v : Word) (s : State) : Host.Outcome State Fault Refusal :=
  .next (if !s.pfOpen || 64 ≤ ctx || v.getLsbD 61 then s
    else
      let was := s.ctxRun ctx
      let stood := s.ctxExists ctx
      let s := s.setReg (.ctxctl ctx) (ctxctlAfter (s.reg (.ctxctl ctx)) v)
      if !was then (if stood && !s.ctxExists ctx then s.destroyContext ctx else s)
      else match s.ctxState ctx with
        | 1 | 2 =>
          let p : Preempt := { ctx := ctx, ben := none, want := 0, cores := s.coresByAge ctx, teams := [], nospace := false,
                               full := true }
          let (s, p) := (s.setCtxState ctx 3).haltForSave p false
          ({ s with sched := { s.sched with switches := s.sched.switches ++ [p] } } : State).endSwitches
        | 5 => (s.discardContext ctx).setCtxState ctx 0
        | _ => s)

end Sys2Proof.Machine
end

