-- ==== Sys2Proof/Machine/Traps.lean ====
section
/-! DEFINITION. Halts (R384, R385), the stalemate detector (R213, R338, R339), trap records and their handlers (R386 to
R392, R445), and the resolution of records (R390, R393). -/

namespace Sys2Proof.Machine

/-! Halts -/

/-- The words that a stream has issued past its faulted access, which its skid counts (R384). -/
def State.pastFault (s : State) (t w : Nat) (sl : Slice) : Nat :=
  s.flights.foldl (fun n f =>
    if f.faulted && f.stream.team == t && f.stream.warp == w && f.stream.slice == sl && decide (f.past < pastAll) then
      max n (f.past - 1) else n) 0

/-- HALT_ARRIVAL: a halt reaches a stream, which issues at most 12 words more, and chooses to issue at most `skid`. A
waiting exchange is cancelled. -/
def execHaltArrival (team warp : Nat) (slice : Slice) (skid : Nat) (s : State) : Host.Outcome State Fault Refusal :=
  .next (match s.team? team with
    | none => s
    | some tm =>
      if tm.status == .trapping || tm.status == .saving then
        let past := s.pastFault team warp slice
        s.modSlice team warp slice fun x =>
          if x.ended || x.halt.isSome then x
          else { x with halt := some (min skid (12 - past)), skid := min past 12, offers := [] }
      else s)

/-! The stalemate detector -/

/-- The record of a collective: what its start read, or, before that, what stands at its address. -/
def State.collRecord (s : State) (c : Command) (tm : Team) : List Word :=
  if 4 < c.shape.length then c.shape.drop 4
  else
    let bs := (s.runSites c tm .rw c.dst 64).map fun x => (s.siteByte x.2).1
    (List.range 8).map fun k => leWord ((bs.drop (8 * k)).take 8)

/-- Bytes of the result of a collective (R354). -/
def collOut (r shape : List Word) : Nat :=
  match collOp r with
  | 0 => copyBytes shape
  | 1 => copyBytes shape / max 1 (collSize r)
  | _ => copyBytes shape * collSize r

/-- A command in flight that will be performed or discarded. A run that no bytes will reach is none (R359). -/
def State.coming (s : State) (c : Command) : Bool :=
  c.verdict.isSome && c.st != .faulted &&
  !(c.matrix && c.verdict == some true && (c.st == .queued || c.st == .running) && s.starved c)

/-- Bytes that a command will credit (R332). -/
def State.credits (s : State) (tm : Team) (c : Command) : Nat :=
  match c.st with
  | .moved n => n
  | .faulted => 0
  | .queued | .running =>
    if c.verdict != some true || !s.coming c then 0
    else match c.kind with
      | .cp | .feed _ | .put | .get => copyBytes c.shape
      | .coll => collOut (s.collRecord c tm) c.shape
      | .mma | .twin => 128 * c.tileLines
      | .accZero n => 128 * n
      | .accFin _ => 0

/-- The places that a command writes in the memory of its context (R173, R176, R350 to R356). -/
def State.commandSites (s : State) (c : Command) (tm : Team) : List Site :=
  let at_ (v : Word) : Site := s.site c tm .wr v
  let span (v : Word) (n : Nat) : List Site := (List.range n).map fun k => at_ (v + BitVec.ofNat 64 k)
  let tile (need : Need) (v : Word) (n : Nat) : List Site := (List.range n).map fun k => s.accSite c tm need (tileLine v k)
  match c.kind with
  | .cp | .get => (List.range (copyBytes c.shape)).map fun n => at_ (dstAddr c n)
  | .coll =>
    let r := s.collRecord c tm
    span (collDest r) (collOut r c.shape) ++
      (if collResid r != 0 && collFmt r != 0 then span (collResid r) (copyBytes c.shape) else [])
  | .accZero n => tile .accWr c.dst n
  | .mma | .twin => tile .accWr c.dst c.tileLines
  | .accFin _ =>
    tile .accRw c.src c.tileLines ++ (finBytes c [] 0 fun _ => 0).map fun b => at_ b.1
  | .feed _ | .put => []

/-- A command of the team in flight writes a watched line. -/
def State.commandWrites (s : State) (c : Command) (tm : Team) (lines : List Nat) : Bool :=
  c.verdict == some true && s.coming c &&
  (s.commandSites c tm).any fun x => match x with
    | .mem _ pa => lines.contains (lineOf pa)
    | .tide t off => lines.contains (tideBlock t off)
    | .passing | .walk _ => true
    | .fault _ => false

/-- A wait of R339: whether an operation in flight can release it, or has; none for a wait of another kind, which
always can be. -/
def State.releasable (s : State) (t : Nat) (tm : Team) (w : Nat) (wp : Warp) (sl : Slice) (wait : Wait) : Option Bool :=
  let cmds := s.engines.cmds.filter fun c => c.team == t
  match wait with
  | .pop q m =>
    some (if q < 5 then (findEntry (wp.queue q) m).isSome
      else if q = 5 then (findOutcome wp.boq m).isSome else (findOutcome wp.back m).isSome)
  | .push q load =>
    some (if q = 5 then wp.c.ended || decide (wp.boq.length < Config.boqCap)
      else if q = 6 then wp.a.ended || decide (wp.back.length < Config.backCap)
      else if load then !wp.loadWaits q else wp.canPush q)
  | .guard g => some (match sl with
      | .a => decide ((wp.slot g).cmds.length < 4)
      | .c => wp.a.ended || decide ((wp.slot g).res.length < 4))
  | .counter ck theta =>
    let loads := (s.flights.filter fun f => f.stream.team == t && f.stream.warp == w && f.stream.slice == sl && !f.faulted &&
      (match f.dst with
        | .counter _ k => k == ck
        | .none | .reg _ | .queue .. | .pred _ => f.ctr == some ck)).length
    let credits := if sl == .a then
      (cmds.filter fun c => c.warp == w && c.tkind == 2 && c.tindex == ck && s.coming c).length else 0
    some (atLeast (tget (wp.slice sl).counters ck 0 + BitVec.ofNat 32 (loads + credits)) theta)
  | .rendezvous k phase =>
    let r := tm.rv k
    let now := match phase with
      | some n => r.complete n
      | none => (r.creditPhase w).isSome
    let lacks := (cmds.filter fun c => c.tkind == 1 && c.tindex == k && c.phase == r.p).foldl
      (fun n c => n + s.credits tm c) r.by0
    some (now || (r.init && r.arr0 == r.ea && decide (r.eb ≤ lacks)))
  | .addr sc _ lines _ woken =>
    if woken || Scope.wide sc then none
    else some ((s.flights.any fun f => f.stream.team == t && f.isStore && !f.faulted &&
        (f.walking || f.pieces.any fun p => p.st != .done &&
          lines.contains (match p.tide with | some u => tideBlock u p.va.toNat | none => p.line))) ||
      cmds.any fun c => s.commandWrites c tm lines)
  | .exchange m =>
    some (match s.peer? tm (Nat.xor (tm.core % 4) m) with
      | some pt => (s.team? pt).any fun (o : Team) => o.status == .running &&
          (tget? o.warps w).any fun (x : Warp) => !(x.slice sl).ended
      | none => false)
  | .behind => some !(s.behindGuard ⟨t, w, sl, 0⟩)
  | .none | .engine | .order | .translation | .fetch | .heartbeat _ | .trapped => none

/-- The subcode of a wait (R339). A rendezvous word that an unmatched guarded command holds back waits for its rendezvous
(log entry 103). -/
def Wait.subcode : Wait → Nat
  | .pop .. | .push .. => 0x60
  | .guard _ => 0x61
  | .counter .. => 0x62
  | .rendezvous .. | .behind => 0x63
  | .addr .. => 0x64
  | .exchange _ => 0x65
  | .none | .engine | .order | .translation | .fetch | .heartbeat _ | .trapped => 0

/-- A split's wait that nothing can release: its subcode. -/
def State.stuckWait (s : State) (t : Nat) (tm : Team) (w : Nat) (wp : Warp) (sl : Slice) (sp : Split) : Option Nat :=
  if sp.cont.isSome then
    if s.engines.cmds.any fun c => c.team == t && c.warp == w && c.tkind == 3 && s.coming c then none else some 0x62
  else if sp.parked then none
  else match s.releasable t tm w wp sl sp.wait with
    | some false => some sp.wait.subcode
    | some true | none => none

/-- What a stream waits on, when nothing can release it: none if it may go on. -/
def State.stuckStream (s : State) (t : Nat) (tm : Team) (w : Nat) (wp : Warp) (sl : Slice) : Option Nat :=
  let x := wp.slice sl
  if x.splits.any fun sp => (s.stuckWait t tm w wp sl sp).isNone then none
  else match x.splits with
    | [] => some 0x66
    | sp :: _ => s.stuckWait t tm w wp sl sp

/-- The streams of a team that have not ended. -/
def Team.streams (tm : Team) : List (Nat × Warp × Slice) :=
  tm.warps.flatMap fun w => if w.2.retired then [] else
    (if w.2.a.ended then [] else [(w.1, w.2, Slice.a)]) ++ (if w.2.c.ended then [] else [(w.1, w.2, Slice.c)])

/-- STALEMATE_DETECT: every stream of every live warp has ended or waits for what nothing can release (R338). The 4,096
cycles are not counted: such waits last (log entry 7). -/
def execStalemateDetect (team : Nat) (s : State) : Host.Outcome State Fault Refusal :=
  .next (match s.team? team with
    | none => s
    | some tm =>
      if tm.status != .running then s
      else
        let ws := tm.streams.map fun x => (x, s.stuckStream team tm x.1 x.2.1 x.2.2)
        match ws with
        | ((w, wp, sl), some code) :: _ =>
          if ws.any fun x => x.2.isNone then s
          else
            let sp := (wp.slice sl).splits.head?
            s.raise team { code := 11, sub := code, addr := 0, lanes := 0xFFFFFFFF, warp := w, slice := sl, engine := false,
                           pop := false, pc := (sp.map Split.pc).getD (((wp.slice sl).parked.map Parked.at_).headD 0),
                           apc := 0, detail := 0, split := (sp.map Split.num).getD 0, access := none }
        | _ => s)

/-! The trap record (R386, R387, R445) -/

/-- Where a lane of a slice stands (R445). -/
def SliceState.pcOf (x : SliceState) (lane : Nat) : Word :=
  match x.splits.find? fun sp => sp.mask.getLsbD lane with
  | some sp => sp.cont.getD sp.pc
  | none => match x.parked.find? fun p => p.mask.getLsbD lane with
    | some p => p.at_
    | none => (x.stack.findSome? fun e => match e with
        | .pending pc m .. => if m.getLsbD lane then some pc else none
        | .join .. => none).getD 0

/-- APCW or CPCW. -/
def Warp.pcOf (w : Warp) (sl : Slice) : Word :=
  if (w.slice sl).ended then 0
  else match lowLane (w.live sl) with
    | some l => (w.slice sl).pcOf l
    | none => 0

/-- What a slice's wait is recorded as for STALEMATE. -/
def SliceState.waitCode (x : SliceState) : Nat :=
  if x.ended then 0
  else match x.splits with
    | [] => 0x66
    | sp :: _ => if sp.cont.isSome then 0x62 else sp.wait.subcode

/-- The entry of a warp in the header. -/
def Warp.entry (w : Warp) (stalemate : Bool) : List Byte :=
  leBytes 8 (w.pcOf .a).toNat ++ leBytes 8 (w.pcOf .c).toNat ++
  [BitVec.ofNat 8 w.a.skid, BitVec.ofNat 8 w.c.skid, BitVec.ofNat 8 ((w.cause.map Prod.fst).getD 0),
   BitVec.ofNat 8 ((w.cause.map Prod.snd).getD 0), BitVec.ofNat 8 (if stalemate then w.a.waitCode else 0),
   BitVec.ofNat 8 (if stalemate then w.c.waitCode else 0)] ++
  leBytes 2 0 ++ leBytes 4 w.dead.toNat ++ leBytes 4 0

/-- FLAGS of the header. -/
def Trap.flags (tr : Trap) (image watch : Bool) : Nat :=
  (if tr.slice == .c then 1 else 0) + (if tr.engine then 2 else 0) + (if image then 4 else 0) + (if tr.pop then 8 else 0) +
  (if watch then 16 else 0)

/-- The header of a trap record (R386). -/
def Team.header (tm : Team) (tr : Trap) (image : Bool) (tick : Nat) : List Byte :=
  leBytes 8 tm.node.toNat ++ leBytes 2 tm.x ++ leBytes 2 tm.y ++ leBytes 2 tm.z ++
  leBytes 1 tr.code ++ leBytes 1 tr.sub ++ leBytes 8 tr.addr.toNat ++ leBytes 4 tr.lanes.toNat ++ leBytes 1 tr.warp ++
  leBytes 1 (tr.flags image tm.watch) ++ leBytes 2 0 ++ leBytes 8 tr.pc.toNat ++ leBytes 8 tr.apc.toNat ++
  leBytes 8 tick ++ leBytes 8 tr.detail.toNat ++ leBytes 8 0 ++ leBytes 8 0 ++ leBytes 2 tm.core ++ leBytes 46 0 ++
  ((List.range 32).flatMap fun w => match tget? tm.warps w with
    | some x => x.entry (tr.code == 11)
    | none => List.replicate 32 0) ++
  List.replicate 2944 0


/-- Bytes of the save area can be written and read by the device. -/
def State.saveOpen (s : State) (ctx : Nat) (a : Word) (len : Nat) : Bool :=
  match s.spanPieces ctx a len .rw (len / 64 + 4) with
  | .ok _ => true
  | .error _ => false

/-- Appends a record to the context's chain (R386, R392). -/
def State.chain (s : State) (ctx : Nat) (rec_ : Word) : State :=
  let l := tget s.sched.records ctx []
  let s := { s with sched := { s.sched with records := tset s.sched.records ctx (l ++ [rec_]) } }
  match l.getLast? with
  | none => s.setReg (.ctxtrapq ctx) rec_
  | some p => (s.ctxWrite ctx (p + 72) (leBytes 8 rec_.toNat)).getD s

/-- Takes a record out of the chain. -/
def State.unchain (s : State) (ctx : Nat) (rec_ : Word) : State :=
  let l := tget s.sched.records ctx []
  let next := (l.dropWhile fun r => r != rec_).getD 1 0
  let s := { s with sched := { s.sched with records := tset s.sched.records ctx (l.filter fun r => r != rec_) } }
  match (l.takeWhile fun r => r != rec_).getLast? with
  | none => s.setReg (.ctxtrapq ctx) next
  | some p => (s.ctxWrite ctx (p + 72) (leBytes 8 next.toNat)).getD s

/-- What writing a record touches: its blocks, and the NEXT field of the record before it. -/
def State.recordTouches (s : State) (tm : Team) (blocks : List Nat) (image : Bool) : List Touch :=
  let ctx := tm.ctx
  (if image then s.imageTouches ctx blocks else [Touch.ctx ctx (s.blockAddr ctx (blocks.headD 0)) 4096 true]) ++
  (match (tget s.sched.records ctx []).getLast? with
    | some p => [Touch.ctx ctx (p + 72) 8 true]
    | none => [])

/-- The team is one of the context's trap-handler node, or there is none: its trap is signalled to the host (R391, R392). -/
def State.hostTrap (s : State) (tm : Team) : Bool := s.reg (.ctxtrap tm.ctx) == 0 || tm.node == s.reg (.ctxtrap tm.ctx)

/-- What handing a record over touches: the handler's record. -/
def State.handTouches (s : State) (tm : Team) : List Touch :=
  let h := s.reg (.ctxtrap tm.ctx)
  if s.hostTrap tm then []
  else recTouches tm.ctx h ++ [.ctx tm.ctx (h + 92) 4 true, .ctx tm.ctx (h + 192) 8 true]

/-- Hands a record to the context's trap-handler node, or signals the host (R391, R392). -/
def State.handTrap (s : State) (tm : Team) (rec_ : Word) : State :=
  let ctx := tm.ctx
  let h := s.reg (.ctxtrap ctx)
  if s.hostTrap tm then s.signalCtx ctx
  else match s.ctxRead ctx (h + 97) 1 with
    | none => s.signalCtx ctx
    | some (s, b) =>
      let st := leNat b
      if !(st == 0 || st == 4 || st == 5) then s
      else
        let s := (s.ctxWrite ctx (h + 192) (leBytes 8 rec_.toNat)).getD s
        let s := (s.ctxWrite ctx (h + 92) (leBytes 4 0)).getD s
        match (s.setRecord ctx h 0 0).postNode ctx h false none with
        | (s, true) => s
        | (s, false) => s.signalCtx ctx

/-- Writes a record's image and then its header, and takes the team off its core. The record is handed over once these writes
are complete, a `.pkg` release (R389). -/
def State.recordTrap (s : State) (t : Nat) (tm : Team) (tr : Trap) (blocks : List Nat) (image : Bool) : State :=
  let a := s.blockAddr tm.ctx (blocks.headD 0)
  let ok := if image then blocks.all fun b => s.saveOpen tm.ctx (s.blockAddr tm.ctx b) 65536 else s.saveOpen tm.ctx a 4096
  if !ok then s.contextFatal tm.ctx
  else match s.agentAsk nodeAgent (teamSerial t) (s.recordTouches tm blocks image) with
    | (s, false) => s
    | (s, true) =>
      let u := if image then s.writeImage tm.ctx blocks else s
      let u := (u.ctxWrite tm.ctx a (tm.header tr image (u.hb (dieOf tm.core)))).getD u
      let u := u.chain tm.ctx a
      let ids := u.openSince s
      let u := (u.takeImage t tm).modTeam t fun x =>
        { x with status := .trapped a blocks image, resolve := none, telling := some ids }
      let u := u.vacate t tm
      (u.logEvent 0x04 (u.ctxFn tm.ctx) tm.ctx 3396 0 a).endSwitches

/-- Hands over the record of a team, once its writes are complete and the handler's record may be read and written. -/
def State.tellTrap (s : State) (t : Nat) (tm : Team) (rec_ : Word) : State :=
  match tm.telling with
  | none => s
  | some ids =>
    if ids.any s.openId then s
    else match s.agentAsk nodeAgent (teamSerial t) (s.handTouches tm) with
      | (s, false) => s
      | (s, true) => (s.handTrap tm rec_).modTeam t fun x => { x with telling := none }

/-- TRAP_RECORD_WRITE: once a trapping team has settled, its image and header are written to the chosen blocks; or its
header alone to the reserved final block, when the area cannot take the image; or its context is failed (R389). A record that
has been written is handed over. -/
def execTrapRecordWrite (team : Nat) (blocks : List Nat) (s : State) : Host.Outcome State Fault Refusal :=
  .next (match s.team? team with
    | none => s
    | some tm =>
      match tm.status, tm.primary with
      | .trapping, some tr =>
        let s := s.flushTeam team
        if s.gathering team || !s.settled team tm then s
        else if tm.imageBlocks ≤ s.openBlocks tm.ctx then
          if s.blocksOk tm.ctx tm.imageBlocks blocks then s.recordTrap team tm tr blocks true else s
        else
          let last := s.saveSize tm.ctx - 1
          if s.saveSize tm.ctx = 0 || (s.takenBlocks tm.ctx).contains last then s.contextFatal tm.ctx
          else s.recordTrap team tm tr [last] false
      | .trapped a _ _, _ => s.tellTrap team tm a
      | _, _ => s)

/-! Resolution (R390) -/

/-- The team of an unresolved record to whose RESOLVE field a value was the first from 1 to 3 to be written
(`State.noteResolve`), once the record has been handed over and the one before it in the chain can be written; none until
then. -/
def State.resolving (s : State) (ctx : Nat) (rec_ : Word) (v : Nat) : State × Option (Nat × Team) :=
  match s.teams.find? fun e => e.2.ctx == ctx && e.2.resolve == some v && e.2.telling.isNone &&
      (match e.2.status with | .trapped r _ _ => r == rec_ | _ => false) with
  | none => (s, none)
  | some (t, tm) =>
    match s.agentAsk nodeAgent (teamSerial t) (match ((tget s.sched.records ctx []).takeWhile fun r => r != rec_).getLast? with
      | some p => [.ctx ctx (p + 72) 8 true]
      | none => []) with
    | (s, true) => (s, some (t, tm))
    | (s, false) => (s, none)

/-- The team is discarded: its image is dropped, what gather buffers held for it is lost (R182), and it counts as retired, a
root program's too (R221, R390). -/
def State.discardTeam (s : State) (t : Nat) (tm : Team) (rec_ : Word) : State :=
  let s := s.loseTeam t
  let s := { s with
    flights := s.flights.filter fun (f : Flight) => f.stream.team != t
    engines := { s.engines with cmds := s.engines.cmds.filter fun (c : Command) => c.team != t } }
  (s.unchain tm.ctx rec_).removeTeam t tm true

/-- The faulting lanes of an access are to be issued again, before any word of the restored streams (R390). -/
def Flight.ahead (f : Flight) (m : Mask) : Flight := { f.anew m with past := pastAll }

/-- A faulted access is to be issued again, in its faulting lanes. -/
def Flight.again (f : Flight) : Flight := if f.faulted then f.ahead f.mask else f

/-- An access takes the place that its word gave it in the order of issue. -/
def State.insertFlight (s : State) (f : Flight) (id : Nat) : State :=
  { s with flights := (s.flights.takeWhile fun e => decide (e.id < f.id)) ++ { f with id := id } ::
      s.flights.dropWhile fun e => decide (e.id < f.id) }

/-- The load that poisoned a queue entry is to be issued again, in its faulting lanes that still live (R201, R390). -/
def State.reload (s : State) (t w q : Nat) (e : QEntry) : State :=
  let dead : Mask := (((s.team? t).bind fun tm => tget? tm.warps w).map Warp.dead).getD 0
  let fs := (e.lost.map fun f => f.ahead (f.mask &&& ~~~dead)).filter fun f => !f.lanes.isEmpty
  let s := fs.foldl (fun (s : State) f => s.bump.insertFlight f s.fresh) s
  s.modWarp t w (·.modEntry q e.id fun x =>
    { x with poisonFault := 0, record := none, lost := [], flying := fs.foldl (fun m f => m ||| f.mask) x.flying })

/-- The entry whose pop raised a trap holds the trap's fault record (R202). -/
def QEntry.raised (e : QEntry) (tr : Trap) : Bool :=
  e.record.any fun x => x.code == tr.code && x.sub == tr.sub && x.addr == tr.addr && x.pc == tr.apc

/-- For a trap of a pop, the load of the popped entry is issued again. -/
def State.reloadFor (s : State) (t : Nat) (tm : Team) : State :=
  match tm.primary, tm.primary.bind fun tr => tget? tm.warps tr.warp with
  | some tr, some wp =>
    if !tr.pop then s
    else match (List.range 5).findSome? fun q => ((wp.queue q).find? fun e => e.raised tr).map fun e => (q, e) with
      | some (q, e) => s.reload t tr.warp q e
      | none => s
  | _, _ => s

/-- The team returns to its pool with its faulted accesses to be reissued; failed commands are not (R390). -/
def State.resume (s : State) (t : Nat) (tm : Team) (rec_ : Word) (blocks : List Nat) : State :=
  let s := { s with
    flights := s.flights.map fun (f : Flight) => if f.stream.team = t then f.again else f
    engines := { s.engines with cmds := s.engines.cmds.filter fun (c : Command) => !(c.team == t && c.st == CmdSt.faulted) } }
  (s.modTeam t fun x => { x with status := .saved blocks }).unchain tm.ctx rec_

/-- The faulting word of a record is passed over: its access is dropped, or its split goes on at PC + 8. -/
def State.passOver (s : State) (t : Nat) (tr : Trap) : State :=
  match tr.access with
  | some id => (s.dropFlight id).unpark t tr.warp tr.slice
  | none =>
    if tr.engine || tr.code == 11 then s
    else (s.modSplit ⟨t, tr.warp, tr.slice, tr.split⟩ fun sp =>
      if sp.pc = tr.pc then { sp with pc := sp.pc + 8, deadline := none } else sp).settle t tr.warp tr.slice

/-- Acts on a record: a header-only one can only be discarded. -/
def State.resolveRecord (s : State) (t : Nat) (tm : Team) (skip : Bool) : State :=
  match tm.status with
  | .trapped r bs true =>
    let s := if skip then (match tm.primary with
      | some tr => s.passOver t tr
      | none => s) else s.reloadFor t tm
    s.resume t tm r bs
  | .trapped r _ false => s.discardTeam t tm r
  | .running | .trapping | .saving | .saved _ => s

def execResolveResume (ctx : Nat) (rec_ : Word) (s : State) : Host.Outcome State Fault Refusal :=
  .next (match s.resolving ctx rec_ 1 with
    | (s, some (t, tm)) => s.resolveRecord t tm false
    | (s, none) => s)

def execResolveSkip (ctx : Nat) (rec_ : Word) (s : State) : Host.Outcome State Fault Refusal :=
  .next (match s.resolving ctx rec_ 2 with
    | (s, some (t, tm)) => s.resolveRecord t tm true
    | (s, none) => s)

def execResolveDiscard (ctx : Nat) (rec_ : Word) (s : State) : Host.Outcome State Fault Refusal :=
  .next (match s.resolving ctx rec_ 3 with
    | (s, some (t, tm)) => s.discardTeam t tm rec_
    | (s, none) => s)

/-- CONTEXT_FATAL. -/
def execContextFatal (ctx : Nat) (s : State) : Host.Outcome State Fault Refusal :=
  .next (if s.ctxExists ctx && s.ctxState ctx != 0 then s.contextFatal ctx else s)

end Sys2Proof.Machine
end

