-- ==== Sys2Proof/Machine/Loss.lean ====
section
/-! DEFINITION. Losses and errors (R120, R381, R395, R396, R400, R401): dies, stacks and links that are lost, cores and
gather buffers that are removed from service, soft errors, and the destruction of contexts (R74). -/

namespace Sys2Proof.Machine

/-! Losses (R395) -/

/-- A context's range table maps a byte of a line that satisfies p. -/
def State.maps (s : State) (ctx : Nat) (p : Nat → Bool) : Bool :=
  (List.range (s.rtCount ctx)).any fun i =>
    let d := (s.descAt ctx i).1
    let at_ (a : Nat) : Bool := p (lineOf a) || p (lineOf (a + 127))
    d.valid && (List.range d.blocks).any fun k => at_ (d.pa + 128 * k) || (d.moving && at_ (d.oldpa + 128 * k))

/-- A context has a team resident on a core that satisfies p. -/
def State.residentOn (s : State) (ctx : Nat) (p : Nat → Bool) : Bool :=
  s.teams.any fun e => e.2.resident && e.2.ctx == ctx && e.2.cores.any p

/-- The die that a loss takes: for a link, which joins neighbours in a row or a column (R3), that of its higher-numbered
side. -/
def Loss.die? : Loss → Option Nat
  | .die d => some d
  | .link d e => if hops d e = 1 then some (max d e) else none
  | .stack _ | .channel .. | .control _ => none

/-- The pseudo-channels that a loss takes. -/
def Loss.channels : Loss → List (Nat × Nat)
  | .stack j => (List.range 64).map fun c => (j, c)
  | .channel j c => [(j, c)]
  | .die _ | .link .. | .control _ => []

/-- A line lies in what a loss takes. -/
def State.takes (s : State) (l : Loss) (line : Nat) : Bool :=
  (Loss.die? l).any (fun d => s.homeOf (line * 128) / 16 == d) ||
  (s.amapAt (line * 128)).any fun e => e.type_ == 0 &&
    (Loss.channels l).contains ((e.place (line * 128)).1, (e.place (line * 128)).2.1)

/-- The contexts that a loss makes fatal. -/
def State.reached (s : State) (l : Loss) : List Nat :=
  (List.range 64).filter fun c => s.ctxExists c &&
    (match l with
     | .control core => s.residentOn c fun k => k == core
     | .die _ | .link .. | .stack _ | .channel .. =>
       ((Loss.die? l).any fun d => s.residentOn c fun k => dieOf k == d) || s.maps c (s.takes l))

/-- What a removed core held goes: the lines of its deltas are poisoned. -/
def State.emptyCore (s : State) (n : Nat) : State :=
  let s := ((s.core n).deltas.map DLine.line).foldl (fun (s : State) l => s.poisonHalves l 3) s
  s.modCore n fun c => { c with
    l1 := [], deltas := [], misses := [], icache := [], ranges := [], walks := [], answers := [], fifoA := [], fifoB := [],
    fifoOwner := none, inService := false }

/-- What a removed gather buffer held goes: halves with a pending reduction are poisoned, and accumulator lines. -/
def State.emptyBuffer (s : State) (cluster : Nat) : State :=
  let s := (s.buffer cluster).foldl (fun (s : State) (e : GEntry) =>
    (s.entryPlaces e).foldl (fun (s : State) p =>
      s.poisonHalves (lineOf p.2) (if e.acc.isSome then 3 else halfBit (decide (64 ≤ p.2 % 128)))) s) s
  s.setBuffer cluster []

/-- Headland takes a die's cores out of service, with the gather buffers of its clusters (R120). -/
def State.dropDie (s : State) (d : Nat) : State :=
  let s := (List.range 16).foldl (fun (s : State) k => s.emptyCore (d * 16 + k)) s
  (List.range 4).foldl (fun (s : State) k => s.emptyBuffer (d * 4 + k)) s

/-- The copies of lost lines in L1 caches go, and none on its way is installed: later accesses meet poison at home. -/
def State.dropLost (s : State) : State :=
  let gone : List Nat := ((s.cores.flatMap fun (c : Nat × Core) => c.2.l1.map L1Line.line ++ c.2.misses.map Miss.line) ++
    s.net.msgs.map Msg.line).eraseDups.filter s.lost
  { s with
    cores := s.cores.map fun (c : Nat × Core) => (c.1, gone.foldl Core.dropCopy c.2)
    net := { s.net with msgs := gone.foldl (fun (ms : List Msg) l => ms.map (Msg.unalloc l)) s.net.msgs } }

/-- DIE_LOSS: the contexts that the loss reaches are failed; what was lost meets poison from then on. -/
def execDieLoss (l : Loss) (s : State) : Host.Outcome State Fault Refusal :=
  .next (
    let s := (s.reached l).foldl (fun (s : State) c => s.contextFatal c) s
    let s := { s with head := { s.head with
      lostDies := (s.head.lostDies ++ (Loss.die? l).toList).eraseDups
      lostChannels := (s.head.lostChannels ++ Loss.channels l).eraseDups } }
    (match Loss.die? l with
      | some d => s.dropDie d
      | none => s).dropLost)

/-! Removal from service (R120) -/

/-- CORE_REMOVED_FROM_SERVICE. The contexts whose teams stand on the core, or share its fused L1, are failed. -/
def execCoreRemovedFromService (a : Agent) (s : State) : Host.Outcome State Fault Refusal :=
  .next (match a with
    | .core n =>
      let fused := (s.core n).fused
      let cs := (List.range 64).filter fun c => s.residentOn c fun k => k == n || (fused && k / 4 == n / 4)
      (cs.foldl (fun (s : State) c => s.contextFatal c) s).emptyCore n
    | .gather c => s.emptyBuffer c)

/-! Soft errors (R396, R400) -/

/-- Drops a list's entry n. -/
def dropAt {α : Type} (l : List α) (n : Nat) : List α := l.take n ++ l.drop (n + 1)

/-- A copy that parity protects is dropped, to be fetched or walked again. -/
def State.dropCopy (s : State) (e : ErrSite) : State :=
  match e with
  | .rangeBuffer core n => s.modCore core fun c => { c with ranges := dropAt c.ranges n }
  | .icache core line => s.modCore core fun c => { c with icache := c.icache.filter fun x => x.line != line }
  | .l1 core line => s.modCore core fun c => { c with l1 := c.l1.filter fun x => x.line != line }
  | .lane .. | .half .. | .symbols .. | .tag _ | .engine _ | .copies .. => s

/-- Symbol errors of one read that a pseudo-channel's RS(72,64) corrects: four by the code's own distance, and two while a TSV
group trains and is decoded as an erasure (R421). -/
def State.symbolsCorrected (s : State) (line : Nat) : Nat :=
  if (tget? s.lines.training (s.channelOf (line * 128))).isSome then 2 else 4

/-- A read of a half meets symbol errors in HBM: they are corrected and logged, or the half is poisoned (R400). -/
def State.symbolErrors (s : State) (line : Nat) (hi : Bool) (n : Nat) : State :=
  if n ≤ s.symbolsCorrected line then s.logEvent 0x01 0xFF 0xFF 0xFFFF 0 0 else s.poisonHalves line (halfBit hi)

/-- WATCH_MISMATCH: a decode trap at the stream's word, which takes no effect, and an event with the physical lane
(R397). -/
def State.watchMismatch (s : State) (st : StreamRef) (lane : Nat) (folded : Word) : State :=
  match s.issue? st with
  | none => s
  | some i =>
    if i.tm.watch && i.allowed then
      (s.decodeTrap i 14 0x7C folded).logEvent 0x0C (s.ctxFn i.tm.ctx) i.tm.ctx (324 + i.tm.core) i.sp.pc
        (BitVec.ofNat 64 lane)
    else s

/-- UNCORRECTABLE_ERROR: a lane dies, a half is poisoned, a line is poisoned after its copies are settled, an entry is
dropped, or an engine notes an error mark. -/
def execUncorrectableError (e : ErrSite) (s : State) : Host.Outcome State Fault Refusal :=
  .next (match e with
    | .lane t w l => (s.kill t w (laneBit l)).reapAll
    | .half line hi => s.poisonHalves line (halfBit hi)
    | .symbols line hi n => s.symbolErrors line hi n
    | .tag line => (s.settleLine line).poisonHalves line 3
    | .engine cmd => s.modCmd cmd fun c => { c with error := match c.error with
        | some x => some x
        | none => some (c.mark 0x70 c.src) }
    | .copies st lane folded => s.watchMismatch st lane folded
    | .rangeBuffer .. | .icache .. | .l1 .. => s.dropCopy e)

/-- The agent that an error is logged for. -/
def State.errorAgent (s : State) : ErrSite → Nat
  | .lane t _ _ => match s.team? t with
    | some tm => 324 + tm.core
    | none => 0xFFFF
  | .rangeBuffer core _ => 324 + core
  | .icache core _ => 324 + core
  | .l1 core _ => 324 + core
  | .half .. | .symbols .. | .tag _ | .engine _ | .copies .. => 0xFFFF

/-- CORRECTED_ERROR: it is logged and changes nothing that a program can see. -/
def execCorrectedError (e : ErrSite) (s : State) : Host.Outcome State Fault Refusal :=
  .next (match e with
    | .symbols line hi n => s.symbolErrors line hi n
    | _ => (s.dropCopy e).logEvent 0x01 0xFF 0xFF (s.errorAgent e) 0 0)

/-! Destruction (R74) -/

/-- CONTEXT_DESTRUCTION: system software destroys a context that may hold no cores. -/
def execContextDestruction (ctx : Nat) (s : State) : Host.Outcome State Fault Refusal :=
  .next (if s.pfOpen && s.ctxExists ctx && !s.ctxRun ctx then s.destroyContext ctx else s)

end Sys2Proof.Machine
end

