-- ==== Sys2Proof/Machine/Host.lean ====
section
/-! DEFINITION. The host's side (R70, R120 to R127, R143, R402, R403, R405, R406): CXL.mem accesses, the caching of device
memory by the host and of host memory by the device, and the ports. -/

namespace Sys2Proof.Machine

/-! Windows (R405, R406) -/

/-- Base in host space, bytes, and base in device space of window n. -/
def State.window (s : State) (n : Nat) : Nat × Nat × Nat :=
  let h := s.reg (.hdmh n)
  let d := s.reg (.hdmd n)
  (bits h 30 22 * 2 ^ 30, bits d 52 12 * 2 ^ 30, bits d 30 22 * 2 ^ 30)

/-- The window that holds a host address. -/
def State.windowOf (s : State) (x : Nat) : Option Nat :=
  (List.range 64).find? fun n => (s.reg (.hdmh n)).getLsbD 63 &&
    decide ((s.window n).1 ≤ x ∧ x < (s.window n).1 + (s.window n).2.1)

/-- Where a host address leads: function and device address, or a refusal with the function of the log entry. -/
inductive Reach where
  | at_ (fn pa : Nat)
  | refused (fn : Nat)
  deriving DecidableEq, Repr

def State.reach (s : State) (x len : Nat) : Reach :=
  match s.windowOf x with
  | none => .refused 0xFF
  | some n =>
    let pa := x - (s.window n).1 + (s.window n).2.2
    if s.fnInReset n || !s.spanOk n pa len then .refused n else .at_ n pa

/-- Where a slide places an address: one in the span at OLD, or else only at NEW, is a range offset (R70). -/
def Slot.hostSpot (x : Slot) (pa : Nat) : Spot :=
  let inSpan (a : Nat) : Bool := decide (a ≤ pa ∧ pa < a + 128 * x.n)
  let go (o : Nat) : Spot := if x.passing (o / 128) then .passing else .at_ (x.addr o)
  if inSpan x.old then go (pa - x.old) else if inSpan x.new_ then go (pa - x.new_) else .at_ pa

/-- Inserts a slide by the order of starting. -/
def insertSlot (x : Slot) (l : List Slot) : List Slot :=
  match l with
  | [] => [x]
  | y :: l => if x.order < y.order then x :: y :: l else y :: insertSlot x l

/-- Where a byte lies while slides have steering entries: each of them in the order of starting, for a slide that is ending
and its successor have one range (R70). -/
def State.hostSpot (s : State) (pa : Nat) : Spot :=
  (((s.ebb.slots.map Prod.snd).filter Slot.steering).foldr insertSlot []).foldl (fun (p : Spot) x => match p with
    | .at_ a => x.hostSpot a
    | .passing | .stranded => p) (.at_ pa)

/-- The addresses of consecutive bytes; none while a block is in passage. -/
def State.hostPlaces (s : State) (pa len : Nat) : Option (List Nat) :=
  (List.range len).foldl (fun (acc : Option (List Nat)) k => acc.bind fun l => match s.hostSpot (pa + k) with
    | .at_ a => some (l ++ [a])
    | .passing | .stranded => none) (some [])

/-- A request within one 64-byte half. -/
def inHalf (x len : Nat) : Bool := decide (1 ≤ len ∧ x % 64 + len ≤ 64)

/-- The lines of addresses. -/
def linesOf (l : List Nat) : List Nat := (l.map lineOf).eraseDups

/-- The request was not performed: it is logged (R406). -/
def State.hostRefused (s : State) (fn x : Nat) : State := s.logEvent 0x0A fn 0xFF 0xFFFF (BitVec.ofNat 64 x) 0

/-! The turn of a host access (R115, R116, R143) -/

/-- A host access that has arrived, with its arrival stamp; one that came before and waits is the same. -/
def State.hostArrival (s : State) (port : Nat) (ask : HostAsk) (addr : Nat) : State × HostWait :=
  match s.host.waits.find? fun w => w.agent == port && w.ask == ask && w.addr == addr with
  | some w => (s, w)
  | none =>
    let w : HostWait := ⟨s.fresh, s.stamp (agentDie port), port, ask, addr⟩
    ({ s.bump with host := { s.host with waits := s.host.waits ++ [w] } }, w)

/-- The request of a host access for a line. -/
def HostWait.req (w : HostWait) (key fn : Nat) : Req := Req.ofAgent w.agent w.id w.stamp key fn 0

/-- The halves of a line among addresses. -/
def halvesAmong (as : List Nat) (line : Nat) : List Bool :=
  [false, true].filter fun h => as.any fun a => lineOf a == line && decide (64 ≤ a % 128) == h

/-- Whether a host access may be made now on the lines of these addresses: it is its turn there, and what must come first is
done; otherwise that is started, and the access waits by its age. The host's own halves need no message. -/
def State.hostAsk (s : State) (w : HostWait) (key fn : Nat) (as : List Nat) (write : Bool) : State × Bool :=
  (linesOf as).foldl (fun (acc : State × Bool) line =>
    match acc.1.ask line (w.req key fn) (halvesAmong as line) write false with
    | (s, ok) => (s, acc.2 && ok)) (s, true)

/-- CXL_MEM_READ: performed at home with the waiting of a .pkg acquire (R143). -/
def execCxlMemRead (port : Nat) (addr : BitVec 52) (len tag : Nat) (s : State) : Host.Outcome State Fault Refusal :=
  .next (
    let x := addr.toNat
    if !s.portUp port || !inHalf x len then s
    else
      let (s, w) := s.hostArrival port (.read len tag) x
      match s.reach x len with
      | .refused fn => ((s.hostRefused fn x).reply_ (.read tag [] true)).hostDone w
      | .at_ fn pa => match s.hostPlaces pa len with
        | none => s
        | some as =>
          let key := s.hostSlot fn
          match s.hostAsk w key (s.hostOwner pa) as false with
          | (s, false) => s
          | (s, true) =>
            if (linesOf as).any s.storesOpen then
              (linesOf as).foldl (fun (s : State) l => s.claim l (w.req key (s.hostOwner pa))) s
            else
              let s := (linesOf as).foldl (fun (s : State) l => s.touch l false) s
              let bad := as.any s.poisonedAt
              ((s.reply_ (.read tag (if bad then [] else as.map fun a => s.homeByte key a) bad)).hostDone w).drainFree)

/-- An output that goes out once the writes made since `old` are complete under R105 (R143). -/
def State.replyAfter (s : State) (old : State) (o : Out) : State :=
  match s.openSince old with
  | [] => s.reply_ o
  | ids => { s with host := { s.host with pending := s.host.pending ++ [(o, ids)] } }

/-- CXL_MEM_WRITE: performed at home, and answered once it is complete; a refused one is dropped. -/
def execCxlMemWrite (port : Nat) (addr : BitVec 52) (bytes : List Byte) (s : State) : Host.Outcome State Fault Refusal :=
  .next (
    let x := addr.toNat
    if !s.portUp port || !inHalf x bytes.length then s
    else
      let (s, w) := s.hostArrival port (.write bytes) x
      match s.reach x bytes.length with
      | .refused fn => (s.hostRefused fn x).hostDone w
      | .at_ fn pa => match s.hostPlaces pa bytes.length with
        | none => s
        | some as => match s.hostAsk w (s.hostSlot fn) (s.hostOwner pa) as true with
          | (s, false) => s
          | (s, true) =>
            let t := (linesOf as).foldl (fun (s : State) l =>
              s.homeStore (s.hostSlot fn) l
                (((as.zip bytes).filter fun b => lineOf b.1 == l).map fun b => (b.1 % 128, b.2))) s
            ((t.replyAfter s (.written addr)).hostDone w).drainFree)

/-! Caching by the host (R122 to R127) -/

/-- A back-invalidation of a half is no longer under way. -/
def State.dropSnoop (s : State) (line : Nat) (hi : Bool) : State :=
  { s with host := { s.host with backInv := s.host.backInv.filter fun b => !(b.1 == line && b.2.1 == hi) } }

/-- What a granted host request for a half has the home do first: deltas are gathered, and for ownership the L1 copies of the
whole line go (R112, R124). It is granted at the end. -/
def HostWait.settle (w : HostWait) (r : Req) (line fn a : Nat) (own : Bool) : Settle :=
  { Settle.ofReq line r [] false with keep := !own, grant := some (w.id, fn, a, own) }

/-- The host's request meets a back-invalidation of its half (R126). If it is the older, it is performed first, and what
caused the back-invalidation asks again, with its own stamp, against the new host state. Otherwise it waits for the end of the
transaction. -/
def State.hostMeets (s : State) (w : HostWait) (fn a : Nat) (own : Bool) (stamp : BitVec 32) (agent : Nat) : State :=
  let line := lineOf a
  let hi := decide (64 ≤ a % 128)
  let r := w.req (s.hostSlot fn) (s.hostOwner a)
  if !((w.stamp - stamp).msb || (w.stamp == stamp && decide (w.agent < agent))) then s.claim line r
  else
    let s := s.dropSnoop line hi
    ({ s with net := { s.net with settles := w.settle r line fn a own :: s.net.settles } } : State).close line

/-- A host request for a half of device memory: for shared access the deltas are gathered first, for ownership the whole line
is settled and every store to it complete (R124, R127). -/
def State.hostCache (s : State) (port : Nat) (addr : BitVec 52) (own : Bool) : State :=
  let x := addr.toNat / 64 * 64
  if !s.portUp port then s
  else
    let (s, w) := s.hostArrival port (if own then .own else .shared) x
    match s.reach x 64 with
    | .refused fn => ((s.hostRefused fn x).reply_ (.granted (BitVec.ofNat 52 x) own [] true)).hostDone w
    | .at_ fn pa => match s.hostSpot pa, s.hostSpot (pa + 63) with
      | .at_ a, .at_ b =>
        if a % 64 != 0 || b != a + 63 || s.isHost a then s.hostDone w
        else
          let line := lineOf a
          let hi := decide (64 ≤ a % 128)
          let r := w.req (s.hostSlot fn) (s.hostOwner a)
          match s.host.backInv.find? fun b => b.1 == line && b.2.1 == hi with
          | some b => s.hostMeets w fn a own b.2.2.2.1 b.2.2.2.2
          | none => match s.ask line r [hi] own false with
            | (s, false) => s
            | (s, true) =>
              let s := s.touch line false
              if !own then (s.grant w fn a own).drainFree
              else if s.storesOpen line then s.claim line r
              else match s.startSettle (w.settle r line fn a own) with
                | (s, true) => s.drainFree
                | (s, false) => s
      | _, _ => s

def execHostSharedRequest (port : Nat) (addr : BitVec 52) (s : State) : Host.Outcome State Fault Refusal :=
  .next (s.hostCache port addr false)

def execHostOwnershipRequest (port : Nat) (addr : BitVec 52) (s : State) : Host.Outcome State Fault Refusal :=
  .next (s.hostCache port addr true)

/-- HOST_WRITEBACK: the host gives up an owned half with its data, performed like a 64-byte store when its turn comes (R115,
R124). -/
def execHostWriteback (port : Nat) (addr : BitVec 52) (bytes : List Byte) (s : State) :
    Host.Outcome State Fault Refusal :=
  .next (
    let x := addr.toNat / 64 * 64
    if !s.portUp port || bytes.length != 64 then s
    else
      let (s, w) := s.hostArrival port (.back bytes) x
      match s.reach x 64 with
      | .refused fn => (s.hostRefused fn x).hostDone w
      | .at_ fn pa => match s.hostSpot pa with
        | .at_ a =>
          let line := lineOf a
          let hi := decide (64 ≤ a % 128)
          if a % 64 != 0 || s.hostHalf line hi != 2 then s.hostDone w
          else match s.hostAsk w (s.hostSlot fn) (s.hostOwner pa) ((List.range 64).map (a + ·)) true with
            | (s, false) => s
            | (s, true) =>
              let t := (s.homeStore (s.hostSlot fn) line (bytesAt (a % 128) bytes)).hostHas line hi 0 none
              ((t.replyAfter s (.written addr)).hostDone w).drainFree
        | .passing | .stranded => s)

/-- A write-back of a half that waits while the half is taken back. -/
def State.waitingBack (s : State) (line : Nat) (hi : Bool) : Option (HostWait × List Byte) :=
  s.host.waits.findSome? fun w => match w.ask, s.reach w.addr 64 with
    | .back bs, .at_ _ pa =>
      if s.hostSpot pa == .at_ (halfAddr line hi) then some (w, bs) else none
    | _, _ => none

/-- BACK_INVALIDATION_RESPONSE: a half that was owned comes back with its modified data, which a write-back on its way may
bring; for a read it is shared from then on, for a write the host holds it no more (R122). A discard drops the data (R95). -/
def execBackInvalidationResponse (line : Nat) (hi : Bool) (modified : Option (List Byte)) (s : State) :
    Host.Outcome State Fault Refusal :=
  .next (match s.host.backInv.find? fun b => b.1 == line && b.2.1 == hi with
    | none => s
    | some (_, _, write, _, _) =>
      let back := s.waitingBack line hi
      let t := match modified.orElse fun _ => back.map Prod.snd with
        | some bs =>
          if s.hostHalf line hi == 2 && bs.length == 64 && !((s.settle? line).any Settle.drop) then
            ((s.clearResv line).homePut (((s.l2? line).map L2Line.key).getD 0) line (bytesAt (if hi then 64 else 0) bs)).changed
              line
          else s
        | none => s
      let t := match back with
        | some (w, _) => (t.reply_ (.written (BitVec.ofNat 52 w.addr))).hostDone w
        | none => t
      ((t.hostHas line hi (if write || back.isSome then 0 else 1) none).dropSnoop line hi).close line)

/-! Host memory cached by the device (R125) -/

/-- The answer to a snoop of a half, and what it leaves in the L2 slice. -/
def State.snoopAnswer (s : State) (line : Nat) (hi invalidate : Bool) : State :=
  let addr := s.hostAddr (halfAddr line hi)
  match s.l2? line with
  | none => s.reply_ (.answer addr [])
  | some x =>
    let s := s.reply_ (.answer addr (if x.dirty && x.valid hi then s.homeBytes x.key (halfAddr line hi) 64 else []))
    if !invalidate then s
    else
      let s := s.modL2 line fun y => if hi then { y with vhi := false } else { y with vlo := false }
      if (s.l2? line).any fun y => !y.vlo && !y.vhi then { s with lines := { s.lines with l2 := tdel s.lines.l2 line } } else s

/-- HOST_SNOOP: every L1 copy and delta line of the whole line is settled (R112), and the half is answered for alone. -/
def execHostSnoop (line : Nat) (hi invalidate : Bool) (s : State) : Host.Outcome State Fault Refusal :=
  .next (
    if !s.isHost (line * 128) then s
    else
      let (s, w) := s.hostArrival (s.portOf (line * 128)) (.snoop invalidate) (halfAddr line hi)
      match s.l2? line with
      | none => (s.snoopAnswer line hi invalidate).hostDone w
      | some x =>
        let r := w.req x.key x.owner
        if !s.turnOf line r || s.storesOpen line then s.claim line r
        else if (s.dir line).mode = 0 then ((s.snoopAnswer line hi invalidate).hostDone w).drainFree
        else match s.startSettle (Settle.ofReq line r [] false) with
          | (s, true) => ((s.snoopAnswer line hi invalidate).hostDone w).drainFree
          | (s, false) => s.claim line r)

/-- A half that was asked of the host is there, or has failed. -/
def State.halfHere (s : State) (line : Nat) (hi : Bool) : State :=
  let s := { s with host := { s.host with fetches := s.host.fetches.filter fun f => !(f.1 == line && f.2 == hi) } }
  let s := s.modL2 line (·.setValid hi)
  if s.host.fetches.any fun f => f.1 == line then s else s.close line

/-- A half of host memory that Headland has asked for in recovery mode (R415). -/
def State.pulledHalf (s : State) (line : Nat) (hi : Bool) (bytes : List Byte) : State :=
  { s with
    host := { s.host with fetches := s.host.fetches.filter fun f => !(f.1 == line && f.2 == hi) }
    head := { s.head with pulled := tset s.head.pulled (halfAddr line hi / 64) bytes } }

/-- CXL_CACHE_FILL: a half of host memory arrives at its home; its POISON bit stays (R403). -/
def execCxlCacheFill (line : Nat) (hi : Bool) (bytes : List Byte) (s : State) : Host.Outcome State Fault Refusal :=
  .next (if !s.host.fetches.contains (line, hi) || bytes.length != 64 then s
    else if s.head.recovery then s.pulledHalf line hi bytes
    else (s.homeMerge (((s.l2? line).map L2Line.key).getD 0) line (bytesAt (if hi then 64 else 0) bytes)).halfHere line hi)

/-! The ports (R403) -/

/-- Adds a number to a list that lacks it. -/
def addOnce (l : List Nat) (n : Nat) : List Nat := if l.contains n then l else l ++ [n]

/-- A fetch through a port that has failed. -/
def State.fetchFailed (s : State) (line : Nat) (hi : Bool) : State :=
  (s.poisonHalves line (halfBit hi)).halfHere line hi

/-- A half that the host held owned through a port that has failed. -/
def State.ownerLost (s : State) (line : Nat) (hi : Bool) : State :=
  let asked := s.host.backInv.any fun b => b.1 == line && b.2.1 == hi
  let s := ((s.poisonHalves line (halfBit hi)).hostHas line hi 0 none).dropSnoop line hi
  if asked then s.close line else s

/-- An action of Headland that R414 or R419 has logged; R401 gives no type for it, which is a free value (log entry 18). -/
def State.logAction (s : State) (what detail : Nat) : State :=
  (s.logEvent ((Config.freeWord 47 s.agenda.free).toNat % 65536) 0xFF 0xFF 3397 (BitVec.ofNat 64 what)
    (BitVec.ofNat 64 detail)).bumpFree

/-- PORT_LINK_DOWN. A link that does not train at cold start is logged (R414). -/
def execPortLinkDown (port : Nat) (s : State) : Host.Outcome State Fault Refusal :=
  .next (if 2 ≤ port then s
    else if !s.portUp port then (if s.head.step == 6 then s.logAction port 6 else s)
    else
      let fs := s.host.fetches.filter fun f => s.portOf (f.1 * 128) == port
      let os := s.host.owners.filter fun o => o.2.2 == port
      let s := { s with host := { s.host with
        ports := tset s.host.ports port false
        waits := s.host.waits.filter fun w => w.agent != port } }
      let s := fs.foldl (fun (s : State) f => s.fetchFailed f.1 f.2) s
      (os.foldl (fun (s : State) o => s.ownerLost o.1 o.2.1) s).drainFree)

/-- PORT_LINK_UP: a port opens once cold start has come to it, and in recovery mode port 0 alone (R414, R415); later fills
are sent afresh, and poison stays. -/
def execPortLinkUp (port : Nat) (s : State) : Host.Outcome State Fault Refusal :=
  .next (if port < 2 && (s.head.step == 6 || (s.head.recovery && port == 0)) then { s with host := { s.host with ports := tset s.host.ports port true } } else s)

end Sys2Proof.Machine
end

