-- ==== Sys2Proof/Machine/Registers.lean ====
section
/-! DEFINITION. Writes to the control registers (R46 to R50, R91, R215, R225, R404, R405, R408, R410, R411, R422), each by
the physical function's driver, and the values that read-only fields show. -/

namespace Sys2Proof.Machine

/-! AMAP_STATUS (R50) -/

/-- A write is rejected: the first since WERR was last cleared leaves its cause and index. -/
def State.reject (s : State) (cause index : Nat) : State :=
  if (s.reg .amapStatus).getLsbD 0 then s
  else s.setReg .amapStatus (BitVec.ofNat 64 (cause % 16 * 4096 + index % 64 * 64 + 1))

/-- AMAP_WERR_CLEAR: writing 1 to WERR clears WERR, CAUSE and INDEX; other bits are ignored. -/
def execAmapWerrClear (v : Word) (s : State) : Host.Outcome State Fault Refusal :=
  .next (if s.pfOpen && v.getLsbD 0 then s.setReg .amapStatus 0 else s)

/-! The address map (R47, R49) -/

/-- The entry breaks a limit of R47. -/
def Amap.badLimits (e : Amap) : Bool :=
  decide (e.limit < e.base) ||
  (match e.type_ with
   | 0 => decide (8 < e.gran) || e.stackSet == 0 || e.chans == 0 || decide (1610612736 < (Amap.span e).2)
   | 1 => e.gran != 0 || e.stackSet != 0 || e.chans != 0 || e.coff != 0
   | _ => true)

/-- The entries share a pseudo-channel. -/
def Amap.shares (a b : Amap) : Bool := a.stackSet &&& b.stackSet != 0 && a.chans &&& b.chans != 0

def spansMeet (a b : Nat × Nat) : Bool := decide (a.1 < b.2) && decide (b.1 < a.2)

/-- The cause for which an entry that would be valid is rejected; 0 for none. Where several hold, the spec does not say which
is recorded; the model takes the lowest (log entry 104). An entry that is not OWNED may share a pseudo-channel at disjoint
channel spans (R49). -/
def State.amapCause (s : State) (e : Amap) : Nat :=
  let others := s.amaps.filter fun o => o.n != e.n
  if e.badLimits then 1
  else if others.any fun o => decide (o.base ≤ e.limit) && decide (e.base ≤ o.limit) then 2
  else if e.type_ == 0 && others.any fun o => o.type_ == 0 && e.shares o && spansMeet (Amap.span e) (Amap.span o) then 3
  else if e.type_ == 0 && e.owned && others.any fun o => o.type_ == 0 && e.shares o && !(o.owned && e.owner == o.owner)
  then 4
  else 0

def amapCtrlMask : Word := 0xFFFC7FFFFFFFFFFF

/-- A write to AMAP_CTRLn. While V is 1 only V can be cleared. -/
def State.writeAmapCtrl (s : State) (n : Nat) (v : Word) : State :=
  let old := s.reg (.amapCtrl n)
  let v := v &&& amapCtrlMask
  if old.getLsbD 63 then
    if v.getLsbD 63 then s.reject 5 n else s.setReg (.amapCtrl n) (setBits old 63 1 0)
  else if v.getLsbD 63 then
    match s.amapCause (s.amapOf n v) with
    | 0 => s.setReg (.amapCtrl n) v
    | c => s.reject c n
  else s.setReg (.amapCtrl n) v

/-- A write to another field of an entry. -/
def State.writeAmap (s : State) (n : Nat) (r : Reg) (v : Word) : State :=
  if (s.reg (.amapCtrl n)).getLsbD 63 then s.reject 5 n else s.setReg r v

/-- AMAP_ENTRY_VALIDATE. -/
def execAmapEntryValidate (n : Nat) (v : Word) (s : State) : Host.Outcome State Fault Refusal :=
  .next (if s.pfOpen && decide (n < 16) && v.getLsbD 63 then s.writeAmapCtrl n v else s)

/-! HDM windows (R405) -/

/-- The cause for which a window that would be valid is rejected; 0 for none. -/
def State.hdmCause (s : State) (n : Nat) (h : Word) : Nat :=
  let size := bits (s.reg (.hdmd n)) 52 12
  let base := bits h 30 22
  if size = 0 || 3072 < size then 6
  else if (List.range 64).any fun k => k != n && (s.reg (.hdmh k)).getLsbD 63 &&
    spansMeet (base, base + size) (bits (s.reg (.hdmh k)) 30 22, bits (s.reg (.hdmh k)) 30 22 + bits (s.reg (.hdmd k)) 52 12)
    then 7
  else 0

/-- A write to HDMHn. While V is 1 every write is ignored and sets WERR (R405). -/
def State.writeHdmh (s : State) (n : Nat) (v : Word) : State :=
  let old := s.reg (.hdmh n)
  let v := v &&& 0x800FFFFFC0000000#64
  if old.getLsbD 63 then s.reject 5 n
  else if v.getLsbD 63 then
    match s.hdmCause n v with
    | 0 => s.setReg (.hdmh n) v
    | c => s.reject c n
  else s.setReg (.hdmh n) v

/-- HDM_WINDOW_VALIDATE. -/
def execHdmWindowValidate (n : Nat) (v : Word) (s : State) : Host.Outcome State Fault Refusal :=
  .next (if s.pfOpen && decide (n < 64) && v.getLsbD 63 then s.writeHdmh n v else s)

/-! Guarantees (R225) -/

/-- The sum of GUAR over all functions, with a value written to function n. -/
def State.guarSum (s : State) (n : Nat) (v : Word) : Nat :=
  (List.range 64).foldl (fun acc k => acc + (if k = n then bits v 32 11 else s.guar k)) 0

/-- FNSVC_WRITE. -/
def execFnsvcWrite (n : Nat) (v : Word) (s : State) : Host.Outcome State Fault Refusal :=
  .next (if s.pfOpen && decide (n < 64) && decide (s.guarSum n v ≤ 1024) then
    s.setReg (.fnsvc n) (v &&& 0x000007FF000007FF#64) else s)

/-! Function-level reset (R411 to R413): its start -/

/-- Spans of a context's valid descriptors, in descriptor order; a moving one gives NEW, then OLD. -/
def State.ctxSpans (s : State) (ctx : Nat) : List (Nat × Nat) :=
  (List.range (s.rtCount ctx)).flatMap fun i =>
    let d := (s.descAt ctx i).1
    if !d.valid then [] else if d.moving then [(d.pa, d.size), (d.oldpa, d.size)] else [(d.pa, d.size)]

/-- The contexts of a function. -/
def State.ctxsOf (s : State) (fn : Nat) : List Nat := (List.range 64).filter fun c => s.ctxExists c && s.ctxFn c == fn

/-- DISCARD: a context of the function gives up all it has and becomes OFF with RUN clear. -/
def State.resetContext (s : State) (ctx : Nat) : State :=
  ((s.discardContext ctx).setCtxState ctx 0).setReg (.ctxctl ctx) (s.reg (.ctxctl ctx) &&& ~~~(1#64 <<< 61))

/-- A write to FNRSTn: ignored while GO reads 1; without GO, and for function 0, whose GO is ignored, it sets CLIST alone. -/
def State.writeFnrst (s : State) (n : Nat) (v : Word) : State :=
  if s.fnInReset n then s
  else
    let clist : Word := v &&& 0x000FFFFFFFFFFFF0#64
    if n = 0 || !v.getLsbD 63 then s.setReg (.fnrst n) clist
    else
      let spans := (s.ctxsOf n).flatMap s.ctxSpans
      let base := clist.toNat
      let list : List Span := spans.zipIdx.map fun x =>
        ⟨n, x.1.1, x.1.2, 0, if base = 0 then none else some (base + 16 * x.2)⟩
      let s := (s.setReg (.fnrst n) (clist ||| (9#64 <<< 60)))
      let s := { s with head := { s.head with spans := s.head.spans ++ list } }
      (s.ctxsOf n).foldl (fun (s : State) c => s.resetContext c) s

/-- FNRST_GO: GO starts the reset in DISCARD. -/
def execFnrstGo (n : Nat) (v : Word) (s : State) : Host.Outcome State Fault Refusal :=
  .next (if s.pfOpen && decide (n < 64) && v.getLsbD 63 then s.writeFnrst n v else s)

/-! Doorbell (R422) -/

/-- The host mailbox's number among the mailboxes. -/
def hostMbx : Nat := 64

/-- Rings a mailbox. -/
def State.ring (s : State) (m : Nat) : State :=
  { s with head := { s.head with wakes := tset s.head.wakes m (tget s.head.wakes m 0 ||| 1) } }

/-- HLDOOR_RING: any write rings the host mailbox. In recovery mode the PF BAR still holds it (R415). -/
def execHldoorRing (_v : Word) (s : State) : Host.Outcome State Fault Refusal :=
  .next (if s.portUp 0 || s.portUp 1 then s.ring hostMbx else s)

/-! All other writes -/

/-- The fields of a register that a write can set. -/
def Reg.mask : Reg → Word
  | .amapBase _ | .amapLimit _ => 0x000FFFFFFFFF0000
  | .amapCtrl _ => amapCtrlMask
  | .amapChan _ | .ctxroot _ | .ctxtrap _ | .ctxsave _ | .hlmbx _ => 0xFFFFFFFFFFFFFFFF
  | .l2qcfg _ => 0x0000FFFF00000FFF
  | .ctxrt _ => 0x000FFFFFFFFFFF80
  | .ctxrtn _ => 0x0000000000007FFF
  | .hdmh _ => 0x800FFFFFC0000000
  | .hdmd _ => 0xFFFFFFFFC0000000
  | .fabid => 0x000000000000FFFF
  | .ctxfab _ => 0x800000000000FFFF
  | .fabgrpa _ => 0x8FFFFFF00000FFFF
  | .fabgrpb _ => 0x000FFFFFFFFFFFFE
  | .hlhost => 0x000FFFFFFFFFFF00
  | .ctxctl _ | .preempt | .fnsvc _ | .fnrst _ | .hldoor | .amapStatus | .l2qocc _ | .ctxstat _ | .ctxtrapq _
  | .fnheld _ | .preemptst | .bootst => 0

/-- A write to a register without behaviour of its own: those of a context are kept while RUN is 1 (R215), an entry or a
window whose V is 1 rejects it (R49, R405), and read-only registers ignore it. The registers that start something are
written by steps of their own. -/
def State.writeReg (s : State) (r : Reg) (v : Word) : State :=
  let w := v &&& Reg.mask r
  match r with
  | .amapBase n | .amapLimit n | .amapChan n => s.writeAmap n r w
  | .amapCtrl n => s.writeAmapCtrl n v
  | .hdmh n => s.writeHdmh n v
  | .hdmd n => if (s.reg (.hdmh n)).getLsbD 63 then s.reject 5 n else s.setReg r w
  | .ctxrt c | .ctxrtn c | .ctxroot c | .ctxtrap c | .ctxsave c => if s.ctxRun c then s else s.setReg r w
  | .l2qcfg _ | .fabid | .ctxfab _ | .fabgrpa _ | .fabgrpb _ | .hlmbx _ | .hlhost => s.setReg r w
  | .fnrst n => if v.getLsbD 63 then s else s.writeFnrst n v
  | .ctxctl _ | .preempt | .fnsvc _ | .hldoor | .amapStatus | .l2qocc _ | .ctxstat _ | .ctxtrapq _
  | .fnheld _ | .preemptst | .bootst => s

/-- REGISTER_WRITE. In recovery mode the PF BAR holds only BOOTST and the host mailbox's registers (R415). -/
def execRegisterWrite (r : Reg) (v : Word) (s : State) : Host.Outcome State Fault Refusal :=
  .next (if Reg.inRange r && (s.pfOpen || (r == .hlhost && s.portUp 0)) then s.writeReg r v else s)

/-! What a read of a register shows -/

/-- The value of a register with its derived read-only fields: L2QOCCn.LINES, CTXSTATc.TEAMS and CORES, FNHELDn.HELD;
HLDOOR reads 0. R215 says of CORES only that it counts cores held; the model counts those with a resident team of the context,
and the odd core of a twin, and not one that is reserved for a node that waits (log entry 121). -/
def State.regRead (s : State) (r : Reg) : Word :=
  let v := s.reg r
  match r with
  | .l2qocc n => BitVec.ofNat 64 (s.lines.l2.filter fun e => e.2.owner == n).length
  | .ctxstat c =>
    let ts := s.teams.filter fun e => e.2.resident && e.2.ctx == c
    setBits (setBits v 32 16 ts.length) 0 11 ((ts.flatMap fun e => e.2.cores).eraseDups).length
  | .fnheld n => setBits v 0 11 (s.heldCount n)
  | .hldoor => 0
  | _ => v

/-- A register stands in the memory BAR of a function (R404, R411): all of them in the physical function's; in a VF's CTXSTATc
and CTXTRAPQc of its contexts, its own FNHELDn and its FNRSTn. In recovery mode the physical function's holds BOOTST and the
host mailbox's registers alone, and no other function's holds any (R415). -/
def State.barHolds (s : State) (fn : Nat) (r : Reg) : Bool :=
  if s.head.recovery then fn == 0 && s.portUp 0 && (r == .bootst || r == .hlhost || r == .hldoor)
  else s.pfOpen && Reg.inRange r && (fn == 0 || (match r with
    | .ctxstat c | .ctxtrapq c => s.ctxFn c == fn
    | .fnheld n | .fnrst n => n == fn
    | _ => false))

/-- What a function's driver reads at a register of its BAR; none where it holds no such register. -/
def State.barRead (s : State) (fn : Nat) (r : Reg) : Option Word := if s.barHolds fn r then some (s.regRead r) else none

end Sys2Proof.Machine
end

