-- ==== Sys2Proof/Machine/Headland.lean ====
section
/-! DEFINITION. Headland: the course of a function-level reset (R99, R100, R411 to R413), the mailboxes and their commands
(R422 to R428), and cold start (R51, R414 to R416). -/

namespace Sys2Proof.Machine

/-! Clocks (R414, R417, R419, R426) -/

/-- The clock of a die now, in MHz: that of a stretch, but no more than 1,600 while its junction is hot, and from the preheat
until the rails go to 0.50 V. -/
def State.mhz (s : State) (die : Nat) : BitVec 16 :=
  let most : BitVec 16 := if s.head.hot.contains die || s.head.step == 3 || s.head.step == 4 then 1600 else 2100
  match tget? s.time.stretching die with
  | some f => if f < most then f else most
  | none => most

/-- Ticks of a logging window (R417), and of the sensors' memory of a clock (R426). -/
def stretchWindow : Nat := 820

/-- The clocks that a die has run at in the last 820 ticks, besides the present one. -/
def State.recent (s : State) (die : Nat) : List (Nat × BitVec 16) :=
  (tget s.time.past die []).filter fun e => decide (s.hb die < e.1 + stretchWindow)

/-- The clocks that differ from those of an older state are noted. -/
def State.clocked (s old : State) : State :=
  (List.range Config.dies).foldl (fun (s : State) d =>
    if s.mhz d = old.mhz d then s
    else { s with time := { s.time with past := tset s.time.past d (s.recent d ++ [(s.hb d, old.mhz d)]) } }) s

/-- The lowest clock of a die in the last 820 ticks (R426). -/
def State.lowestMhz (s : State) (die : Nat) : BitVec 16 :=
  (s.recent die).foldl (fun (m : BitVec 16) e => if e.2 < m then e.2 else m) (s.mhz die)

/-- The warming load of the preheat runs on a die: the base die beside it reads below 0 °C (R3, R414; log entry 119). -/
def State.preheats (s : State) (die : Nat) : Bool :=
  s.head.step == 3 && !s.head.recovery && (tget s.head.hbmTemp (die / 2) 0).msb

/-! Key slots (R99, R412) -/

/-- The agent's request for a line of a key slot that is rotated. -/
def State.slotReq (s : State) (slot : Nat) : Req := Req.ofAgent headAgent slot (s.stamp (agentDie headAgent)) slot 0 0

/-- The lines that an L2 slice holds under a key slot. -/
def State.slotLines (s : State) (slot : Nat) : List Nat := (s.lines.l2.filter fun e => e.2.key == slot).map Prod.fst

/-- A cached line is settled and dropped without write-back: L1 copies, deltas and host-held halves go with it (R112, R412). -/
def State.dropCached (s : State) (slot line : Nat) : State :=
  if s.net.settles.any fun x => x.line == line && x.drop then s
  else
    let s := s.modL2 line fun x => { x with dirty := false }
    let x : Settle := { Settle.ofReq line (s.slotReq slot) [false, true] true with drop := true }
    if s.busy line then { s with net := { s.net with settles := s.net.settles ++ [x] } } else (s.startSettle x).1

/-- Every cached copy of these lines of a key slot is dropped; true when there is none. -/
def State.dropLines (s : State) (slot : Nat) (ls : List Nat) : State × Bool :=
  (ls.foldl (fun (s : State) l => s.dropCached slot l) s, ls.isEmpty)

/-- Every cached copy under a key slot is dropped; true when none is left. -/
def State.dropKey (s : State) (slot : Nat) : State × Bool :=
  let (t, _) := s.dropLines slot (s.slotLines slot)
  (t, (t.slotLines slot).isEmpty)

/-- Drops what a core still holds under a key slot: a fill on its way is not installed. Code stays in the instruction caches,
which a line leaves only as R378 says. -/
def Core.dropKey (slot : Nat) (c : Core) : Core :=
  { c with
    l1 := c.l1.filter fun x => x.key != slot
    deltas := c.deltas.filter fun x => x.key != slot
    misses := c.misses.map fun (m : Miss) =>
      if m.key = slot then { m with closed := true, fill := m.fill.map fun f => (f.1, f.2.1, f.2.2.1, false) } else m }

/-- DATA read under a key slot will not be allocated. -/
def Msg.dropKey (slot : Nat) (m : Msg) : Msg :=
  match m.body with
  | .data r b p v _ => if r.key = slot then { m with body := .data r b p v false } else m
  | _ => m

/-- Headland rotates a key slot whose cached copies are gone: a new identity is loaded, and the old one is never used again
(R99). -/
def State.rotate (s : State) (slot : Nat) : State :=
  { s with
    cores := s.cores.map fun (c : Nat × Core) => (c.1, c.2.dropKey slot)
    engines := { s.engines with
      buffers := s.engines.buffers.map fun (b : Nat × List GEntry) => (b.1, b.2.filter fun e => e.key != slot) }
    net := { s.net with msgs := s.net.msgs.map (Msg.dropKey slot) }
    head := { s.head with slotKey := tset s.head.slotKey slot s.head.nextKey, nextKey := s.head.nextKey + 1 } }

/-! Function-level reset -/

def State.setFnState (s : State) (n st : Nat) : State := s.setReg (.fnrst n) (setBits (s.reg (.fnrst n)) 60 3 st)

/-- The function's contexts have slides under way. -/
def State.sliding (s : State) (fn : Nat) : Bool :=
  s.ebb.slots.any fun e => e.2.live && e.2.state != 1 && s.ctxFn e.2.ctx == fn

/-- FNRST_QUIESCE: DISCARD has ended once the function's slides have. From GO on its signals are dropped (`State.signal`). -/
def execFnrstQuiesce (n : Nat) (s : State) : Host.Outcome State Fault Refusal :=
  .next (if s.fnInReset n && s.fnState n == 1 && !s.sliding n then s.setFnState n 2 else s)

/-- ROTATE goes on: once the slot's cached copies are gone, its key is replaced. -/
def State.rotateOn (s : State) (n : Nat) : State :=
  let ended (s : State) : State := { s with head := { s.head with rotating := s.head.rotating.erase n } }
  match s.slotOf n with
  | none => ended s
  | some slot => match s.dropKey slot with
    | (s, true) => ended (s.rotate slot)
    | (s, false) => s

/-- FNRST_ROTATE: ROTATE begins and goes on until the slot's key is replaced (R412). -/
def execFnrstRotate (n : Nat) (s : State) : Host.Outcome State Fault Refusal :=
  .next (if !s.fnInReset n then s
    else if s.fnState n == 2 then
      (({ s with head := { s.head with rotating := addOnce s.head.rotating n } } : State).setFnState n 3).rotateOn n
    else if s.fnState n == 3 && s.head.rotating.contains n then s.rotateOn n
    else s)

/-- The bytes of a record of the clear list (R413). -/
def Span.record_ (p : Span) (done : Bool) : List Byte :=
  leBytes 8 (p.base + if done then 2 ^ 63 else 0) ++ leBytes 8 p.len

/-- The clear list with every DONE 0, and its end; and whether its lines were ready for it. -/
def State.writeClearList (s : State) (n : Nat) : State × Bool :=
  let base := bits (s.reg (.fnrst n)) 4 48 * 16
  if base = 0 then (s, true)
  else
    let l := s.head.spans.filter fun p => p.fn == n
    let bs := l.flatMap (fun p => p.record_ false) ++ List.replicate 16 0
    match s.agentAsk headAgent n [.phys 0 0 base bs.length true] with
    | (s, true) => (s.physWrite 0 base bs (bs.length / 128 + 2), true)
    | (s, false) => (s, false)

/-- Lines of a span. -/
def Span.lines (p : Span) : Nat := if p.len = 0 then 0 else lineOf (p.base + p.len - 1) + 1 - lineOf p.base

/-- A line is cleared at its home: it carries the cleared mark and reads as zeros under every slot (R100). -/
def State.clearLine (s : State) (line : Nat) : State :=
  let s := (s.dropEntries line).clearResv line
  let s := { s with
    mem := memWrites s.mem (line * 128) (List.replicate 128 memDefault)
    lines := { s.lines with keyed := tdel s.lines.keyed line } }
  (s.setPoison line 0).modL2 line fun x => { x with dirty := true }

/-- The clearing engine at a line for function n: once it is the engine's turn there, what the host holds is taken back
(R122) and the copies are settled (R112), the line is cleared; true when it is. -/
def State.clearTurn (s : State) (n line : Nat) : State × Bool :=
  let stamp := s.stampOf clearAgent n
  match s.askAll clearAgent n stamp [(line, (s.slotOf n).getD 0, n, 0, [false, true], true)] with
  | (s, false) => (s, false)
  | (s, true) =>
    if (s.dir line).mode = 0 then (s.clearLine line, true)
    else match s.startSettle (Settle.ofReq line (Req.ofAgent clearAgent n stamp 0 n 0) [] false) with
      | (s, true) => (s.clearLine line, true)
      | (s, false) => (s, false)

/-- The first span of a function that is not fully cleared. -/
def State.openSpan (s : State) (n : Nat) : Option Span := s.head.spans.find? fun p => p.fn == n && decide (p.cleared < p.lines)

/-- FNRST_CLEAR: CLEAR begins once the list is written; from then on the clearing engine clears line after line of the
listed spans. -/
def execFnrstClear (n : Nat) (s : State) : Host.Outcome State Fault Refusal :=
  .next (if !s.fnInReset n then s
    else if s.fnState n == 3 && !s.head.rotating.contains n then
      match s.writeClearList n with
      | (s, true) => s.setFnState n 4
      | (s, false) => s
    else if s.fnState n == 4 then
      match s.openSpan n with
      | none => s
      | some p => match s.clearTurn n (lineOf p.base + p.cleared) with
        | (s, false) => s
        | (s, true) =>
          let step (q : Span) : Span := if q = p then { q with cleared := q.cleared + 1 } else q
          { s with head := { s.head with spans := s.head.spans.map step } }
    else s)

/-- CLEAR_SPAN_DONE: every line of a span carries the mark; its DONE bit is set as a .sys release. -/
def execClearSpanDone (n : Nat) (s : State) : Host.Outcome State Fault Refusal :=
  .next (if s.fnInReset n && s.fnState n == 4 then
    match s.head.spans.find? fun p => p.fn == n && p.cleared == p.lines with
    | none => s
    | some p =>
      let done (s : State) : State := { s with head := { s.head with spans := s.head.spans.erase p } }
      match p.record with
      | none => done s
      | some a => match s.agentAsk headAgent n [.phys 0 0 a 8 true] with
        | (s, true) => (done s).physWrite 0 a ((p.record_ true).take 8) 2
        | (s, false) => s
  else s)

/-- FNRST_IDLE: every span is cleared; GO reads 0 and PF vector 1 is signalled. -/
def execFnrstIdle (n : Nat) (s : State) : Host.Outcome State Fault Refusal :=
  .next (if s.fnInReset n && s.fnState n == 4 && !(s.head.spans.any fun p => p.fn == n) then
    (s.setReg (.fnrst n) (setBits (setBits (s.reg (.fnrst n)) 60 3 0) 63 1 0)).signal 0 1
  else s)

/-! Mailboxes (R422 to R424) -/

/-- The owner of a mailbox: a context, or the host. -/
def State.mbxAddr (s : State) (m : Nat) : Word :=
  if m = hostMbx then s.reg .hlhost &&& 0x000FFFFFFFFFFF00#64 else s.reg (.hlmbx m)

/-- The mailbox lies in host memory that Headland reaches over port 0: the host's in recovery mode, when no address-map entry
stands (R51, R415; log entry 122). -/
def State.outside (s : State) (m : Nat) : Bool := m == hostMbx && s.head.recovery

/-- The halves of host memory that bytes lie in. -/
def halvesFrom (a n : Nat) : List Nat := if n = 0 then [] else (List.range ((a + n - 1) / 64 + 1 - a / 64)).map (a / 64 + ·)

/-- Headland asks the host for halves that it has not read; true when it has all of them. -/
def State.pull (s : State) (m : Nat) (a : Word) (n : Nat) : State × Bool :=
  if !s.outside m then (s, true)
  else
    let lack := (halvesFrom a.toNat n).filter fun k => (tget? s.head.pulled k).isNone
    (lack.foldl (fun (s : State) k =>
      if s.host.fetches.contains (k / 2, k % 2 == 1) || !s.portUp 0 then s
      else { s with host := { s.host with
        fetches := s.host.fetches ++ [(k / 2, k % 2 == 1)]
        out := s.host.out ++ [.fetch (BitVec.ofNat 52 (64 * k)) 0] } }) s, lack.isEmpty)

/-- Bytes of host memory that Headland has read. -/
def State.pulledBytes (s : State) (a n : Nat) : List Byte :=
  (List.range n).map fun i => (tget s.head.pulled ((a + i) / 64) []).getD ((a + i) % 64) 0

/-- Headland writes bytes of host memory: halves that it has read, with the new bytes in them. -/
def State.pushHost (s : State) (a : Nat) (bs : List Byte) : State :=
  (halvesFrom a bs.length).foldl (fun (s : State) k =>
    let new := (List.range 64).map fun i =>
      if a ≤ 64 * k + i then bs.getD (64 * k + i - a) ((tget s.head.pulled k []).getD i 0) else (tget s.head.pulled k []).getD i 0
    { s with
      head := { s.head with pulled := tset s.head.pulled k new }
      host := { s.host with out := s.host.out ++ [.store (BitVec.ofNat 52 (64 * k)) new] } }) s

/-- Bytes of a mailbox owner's memory, once they are ready (`State.mbxTouch`): virtual of a context, physical of the host
under the physical function's slot. -/
def State.mbxRead (s : State) (m : Nat) (a : Word) (n : Nat) : Option (State × List Byte) :=
  if s.outside m then some (s, s.pulledBytes a.toNat n)
  else if m = hostMbx then
    if s.spanOk 0 a.toNat n then some (s, s.homeBytes (s.hostSlot 0) a.toNat n) else none
  else s.ctxRead m a n

/-- What an access to a mailbox owner's memory touches. -/
def State.mbxTouch (s : State) (m : Nat) (a : Word) (n : Nat) (write : Bool) : List Touch :=
  if s.outside m then []
  else if m = hostMbx then (if s.spanOk 0 a.toNat n then [.phys (s.hostSlot 0) 0 a.toNat n write] else [])
  else [.ctx m a n write]

/-- The number of Headland's claims for a mailbox. -/
def mbxSerial (m : Nat) : Nat := 64 + m

def State.mbxWrite (s : State) (m : Nat) (a : Word) (bs : List Byte) : Option State :=
  if s.outside m then some (s.pushHost a.toNat bs)
  else if m = hostMbx then
    if s.spanOk 0 a.toNat bs.length then some (s.physWrite (s.hostSlot 0) a.toNat bs (bs.length / 128 + 2)) else none
  else s.ctxWrite m a bs

/-- A request as Headland reads it. -/
structure Request where
  seq : Nat
  cmd : Nat
  arg : List Byte
  buf : Word
  buflen : Nat
  deriving DecidableEq, Repr

/-- What a command answers: its status, and what it writes to BUF. -/
abbrev MbxAnswer := Nat × List Byte

/-- The commands of R425. -/
def listed : List Nat := [1, 2, 3, 0x10, 0x11, 0x20, 0x21]

/-- A field of a mailbox is written. -/
def State.mbxPut (s : State) (m off : Nat) (bs : List Byte) : State :=
  (s.mbxWrite m (s.mbxAddr m + BitVec.ofNat 64 off) bs).getD s

/-- The signal that a request is served (R424). -/
def State.mbxSignal (s : State) (m : Nat) : State :=
  let s := { s with head := { s.head with
    answered := s.head.answered.filter fun a => a.mbx != m
    pulled := if m = hostMbx then [] else s.head.pulled } }
  if m = hostMbx then s.signal 0 2 else s.orWake m (1#64 <<< 63)

/-- The answer waits. -/
def State.answerWaits (s : State) (a : Answering) : State :=
  { s with head := { s.head with answered := (s.head.answered.filter fun b => b.mbx != a.mbx) ++ [a] } }

/-- An answer goes on: when BUF, STATUS and OUTLEN are complete, DONESEQ is written, as a .sys release; when that is complete,
the signal goes out (R105, R424). -/
def State.answerOn (s : State) (a : Answering) (fuel : Nat) : State :=
  match fuel with
  | 0 => s
  | fuel + 1 =>
    if a.ids.any s.openId then s.answerWaits a
    else if a.done then
      match s.agentAsk headAgent (mbxSerial a.mbx) (if a.mbx = hostMbx then [] else [s.wakeTouch a.mbx]) with
      | (s, false) => s.answerWaits a
      | (s, true) => s.mbxSignal a.mbx
    else
      match s.agentAsk headAgent (mbxSerial a.mbx) (s.mbxTouch a.mbx (s.mbxAddr a.mbx + 4) 4 true) with
      | (s, false) => s.answerWaits a
      | (s, true) =>
        let t := s.mbxPut a.mbx 4 (leBytes 4 a.seq)
        t.answerOn { a with done := true, ids := t.openSince s } fuel

/-- A request is answered: BUF, then STATUS and OUTLEN, then the rest. -/
def State.answer (s : State) (m : Nat) (q : Request) (a : MbxAnswer) : State :=
  let (t, st, out) : State × Nat × Nat :=
    if a.1 != 0 || a.2.isEmpty then (s, a.1, 0)
    else if q.buflen < a.2.length then (s, 2, 0)
    else match s.mbxWrite m q.buf a.2 with
      | some s => (s, 0, a.2.length)
      | none => (s, 3, 0)
  let t := (t.mbxPut m 10 (leBytes 2 st)).mbxPut m 76 (leBytes 4 out)
  t.answerOn ⟨m, q.seq, false, t.openSince s⟩ 3

/-- What the answer to a request touches: the mailbox, and BUF as far as the command reads or writes it. -/
def State.answerTouches (s : State) (m : Nat) (q : Request) (a : MbxAnswer) : List Touch :=
  s.mbxTouch m (s.mbxAddr m) 80 true ++
  s.mbxTouch m q.buf (max a.2.length (if q.cmd = 0x10 then q.buflen else 0)) (q.cmd != 0x10)

/-- A request is carried out and answered, once all that it touches is ready. -/
def State.carryOut (s : State) (m : Nat) (q : Request) (k : State → State × MbxAnswer) : State :=
  match s.pull m q.buf (if q.cmd = 0x10 then q.buflen else 0) with
  | (s, false) => s
  | (s, true) => match s.agentAsk headAgent (mbxSerial m) (s.answerTouches m q (k s).2) with
    | (s, false) => s
    | (s, true) =>
      let (s, a) := k s
      s.answer m q a

/-- A mailbox has been rung. -/
def State.rung (s : State) (m : Nat) : Bool := (tget s.head.wakes m 0).getLsbD 0

/-- No rung mailbox comes before this one in the round after the one served last (R424). -/
def State.mbxTurn (s : State) (m : Nat) : Bool :=
  (List.range ((m + 65 - s.head.lastMbx - 1) % 65)).all fun i => !s.rung ((s.head.lastMbx + 1 + i) % 65)

/-- A mailbox's request has been taken. -/
def State.quiet (s : State) (m : Nat) : State :=
  { s with head := { s.head with wakes := tset s.head.wakes m (tget s.head.wakes m 0 &&& ~~~1#64), lastMbx := m } }

/-- Serves the mailbox when it has rung, its turn has come and its command is `cmd`, or is not listed at all; `before` is what the
command waits for. -/
def State.serveWhen (s : State) (m cmd : Nat) (before : State → Request → State × Bool)
    (k : State → Request → State × MbxAnswer) : State :=
  match s.head.answered.find? fun a => a.mbx == m with
  | some a => s.answerOn a 3
  | none =>
    if hostMbx < m || !s.rung m || !s.mbxTurn m then s
    else
      let mb := s.mbxAddr m
      if mb = 0 && m != hostMbx then s.quiet m
      else match s.pull m mb 80 with
      | (s, false) => s
      | (s, true) => match s.agentAsk headAgent (mbxSerial m) (s.mbxTouch m mb 80 true) with
        | (s, false) => s
        | (s, true) => match s.mbxRead m mb 80 with
          | none => s.quiet m
          | some (s, b) =>
            let q : Request :=
              ⟨recField b 0 4, recField b 8 2, (b.drop 16).take 48, leWord ((b.drop 64).take 8), recField b 72 4⟩
            if q.seq = recField b 4 4 then s.quiet m
            else if q.cmd = cmd then (match before s q with
              | (s, false) => s
              | (s, true) => s.carryOut m q fun s => k (s.quiet m) q)
            else if listed.contains q.cmd then s
            else s.carryOut m q fun s => (s.quiet m, 2, [])

def State.serve (s : State) (m cmd : Nat) (k : State → Request → State × MbxAnswer) : State :=
  s.serveWhen m cmd (fun s _ => (s, true)) k

/-- A command that any mailbox may issue, outside recovery mode. -/
def State.anyone (s : State) (a : State × MbxAnswer) : State × MbxAnswer := if s.head.recovery then (s, 1, []) else a

/-- A command of the host mailbox alone. -/
def State.hostOnly (s : State) (m : Nat) (recovery : Bool) (a : State × MbxAnswer) : State × MbxAnswer :=
  if m != hostMbx || (s.head.recovery && !recovery) then (s, 1, []) else a

/-- The function that a mailbox's owner belongs to. -/
def State.mbxFn (s : State) (m : Nat) : Nat := if m = hostMbx then 0 else s.ctxFn m

/-! SENSORS, LOG, ATTEST -/

/-- The lowest RATE among the arrays. -/
def State.lowestRate (s : State) : Nat := (List.range 32).foldl (fun r j => min r (s.rateOf (32 * j))) 16

/-- The sensor record of R426. -/
def State.sensorRecord (s : State) : List Byte :=
  leBytes 8 (s.hb 0) ++ leBytes 2 s.head.intake.toNat ++ leBytes 2 s.head.power.toNat ++ leBytes 2 s.head.cap.toNat ++
  leBytes 1 s.lowestRate ++ [0] ++
  ((List.range 64).flatMap fun d => leBytes 2 (tget s.head.dieTemp d 0).toNat) ++
  ((List.range 32).flatMap fun j => leBytes 2 (tget s.head.hbmTemp j 0).toNat) ++
  ((List.range 64).flatMap fun d => leBytes 2 (s.lowestMhz d).toNat) ++
  (List.range 64).flatMap fun d => leBytes 4 (tget s.time.stretches d 0).toNat

/-- Headland reads the intake's sensor, whose reading comes from outside: a free value. -/
def State.sampled (s : State) : State :=
  ({ s with head := { s.head with intake := (Config.freeWord 54 s.agenda.free).setWidth 16 } } : State).bumpFree

def execSensors (mbx : Nat) (s : State) : Host.Outcome State Fault Refusal :=
  .next (s.serve mbx 1 fun s _ => s.anyone (s.sampled, 0, s.sampled.sensorRecord))

/-- The 32 bytes of an entry (R401). -/
def Event.bytes (e : Event) : List Byte :=
  leBytes 8 e.tick.toNat ++ leBytes 2 e.type_ ++ leBytes 1 e.fn ++ leBytes 1 e.ctx ++ leBytes 2 e.agent ++ leBytes 2 0 ++
  leBytes 8 e.addr.toNat ++ leBytes 8 e.detail.toNat

/-- LOG: entries from a sequence number on, as far as they are kept; a context sees those of its function alone. -/
def execLog (mbx : Nat) (s : State) : Host.Outcome State Fault Refusal :=
  .next (s.serve mbx 2 fun s q =>
    let n := leNat (q.arg.take 8)
    let seen := s.head.log.filter fun e => decide (n ≤ e.seq) && (mbx == hostMbx || e.fn == s.mbxFn mbx)
    s.anyone (s, 0, (seen.take (q.buflen / 32)).flatMap Event.bytes))

/-- The bytes of a firmware bank, as the verifier's input. -/
def Bank427.image (b : Bank427) : List Nat := b.bytes.flatMap fun c => [c.1, c.2.toNat]

def Headland.bank (h : Headland) (n : Nat) : Bank427 := if n = 0 then h.bank0 else h.bank1

/-- The attestation report for a function and a nonce, with its signature (R428). -/
def State.report (s : State) (fn : Nat) (nonce : List Byte) : List Byte :=
  let image := (s.head.bank s.head.active).image
  let mine := s.amaps.filter fun e => e.owned && e.owner == fn
  let body := Config.reportBytes {
    serial := Config.serial, romHash := Config.romHash, firmwareHash := Lms.sha256 (Config.imageBody image)
    version := Config.imageVersion image, fn := fn, slot := (s.slotOf fn).getD 0
    entries := mine.map fun e => [s.reg (.amapBase e.n), s.reg (.amapLimit e.n), s.reg (.amapCtrl e.n), s.reg (.amapChan e.n)]
    nonce := nonce, certificate := Config.certificate }
  body ++ Config.identitySign body s.head.leaf

/-- ATTEST: a leaf is spent before the report leaves; after 2^20 signatures there is none (R428). -/
def execAttest (mbx : Nat) (s : State) : Host.Outcome State Fault Refusal :=
  .next (s.serve mbx 3 fun s q =>
    let r := s.report (s.mbxFn mbx) (q.arg.take 32)
    s.anyone (if 2 ^ 20 ≤ s.head.leaf then (s, 4, [])
      else if q.buflen < r.length then (s, 2, [])
      else ({ s with head := { s.head with leaf := s.head.leaf + 1 } }, 0, r)))

/-! Cold start (R414 to R416) -/

/-- Enters recovery mode (R415). -/
def State.recover (s : State) (step cause stack : Nat) : State :=
  { s.setReg .bootst (setBits (setBits (setBits 0 60 4 step) 56 4 cause) 0 8 stack) with
    head := { s.head with recovery := true } }

/-- A cold start passes to a step. -/
def State.toStep (s : State) (n : Nat) : State :=
  { s.setReg .bootst (setBits (s.reg .bootst) 60 4 n) with head := { s.head with step := n } }

/-- The machine at power-on, with what non-volatile store, the sensors and the model's agenda keep. -/
def State.powerOn (s : State) : State :=
  let r := State.reset
  let h := s.head
  { r with
    agenda := s.agenda
    host := { r.host with out := s.host.out }
    head := { r.head with
      active := h.active, bank0 := h.bank0, bank1 := h.bank1, tryNext := h.tryNext, rollback := h.rollback
      nextKey := h.nextKey, leaf := h.leaf, intake := h.intake, power := h.power, dieTemp := h.dieTemp, hbmTemp := h.hbmTemp } }

/-- An image is signed: its public key hashes to the fused value, and its signature is valid (R427). -/
def imageSigned (image : List Nat) : Bool :=
  Lms.sha256 (Config.imageKey image) == Config.fusedKeyHash &&
  Lms.valid (Config.imageKey image) (Config.imageSignature image) (Config.imageBody image)

/-- A bank verifies: its signature, and its version against the rollback counter (R427). -/
def Headland.verifies (h : Headland) (n : Nat) : Bool :=
  imageSigned (h.bank n).image && decide (h.rollback ≤ Config.imageVersion (h.bank n).image)

/-- The banks in the order in which a cold start tries them. -/
def Headland.order (h : Headland) : List Nat := if h.tryNext then [1 - h.active, h.active] else [h.active, 1 - h.active]

/-- Steps 1 and 2. -/
def State.coldStart (s : State) (selfTest : Bool) : State :=
  let s := s.powerOn
  if !selfTest then { s.setReg .bootst (setBits (setBits 0 60 4 1) 56 4 1) with head := { s.head with step := 1 } }
  else match s.head.order.find? s.head.verifies with
    | some n => ({ s with head := { s.head with active := n, tryNext := false } } : State).toStep 3
    | none =>
      let cause := if s.head.order.any fun n => imageSigned (s.head.bank n).image then 3 else 2
      (s.toStep 2).recover 2 cause 0

/-- COLD_START. A failed self-test opens no link. -/
def execColdStart (selfTest : Bool) (s : State) : Host.Outcome State Fault Refusal := .next (s.coldStart selfTest)

/-- Every HBM base die reads at least 0 °C. -/
def State.thawed (s : State) : Bool := s.head.hbmTemp.all fun t => !t.2.msb

/-- PREHEAT_COMPLETE: step 3 ends, and HBM comes up. -/
def execPreheatComplete (s : State) : Host.Outcome State Fault Refusal :=
  .next (if s.head.step == 3 && !s.head.recovery && s.thawed then s.toStep 4 else s)

/-- PREHEAT_TIMEOUT: 20 minutes have passed and a base die is still below 0 °C. -/
def execPreheatTimeout (s : State) : Host.Outcome State Fault Refusal :=
  .next (if s.head.step == 3 && !s.head.recovery && !s.thawed then s.recover 3 4 0 else s)

/-- The state at the end of step 5 (R51, R416): keys are loaded, memory is cleared, entry 0 of the address map stands. -/
def State.loaded (s : State) : State :=
  let k := s.head.nextKey
  let s := { s with
    mem := []
    lines := { s.lines with
      keyed := [], poison := [], inline := false
      trained := (List.range 2048).map fun k => (k, tget s.head.hbmTemp (k / 64) 0) }
    head := { s.head with
      slotOwner := (List.range 64).map fun n => (n, n)
      slotKey := (List.range 64).map fun n => (n, k + n)
      nextKey := k + 64, cap := 5600, lowered := 0, hotStacks := [] } }
  (((s.setReg (.amapBase 0) 0).setReg (.amapLimit 0) 0x000002FFFFFF0000).setReg (.amapCtrl 0) 0x80400000FFFFFFFF).setReg
    (.amapChan 0) 0xFFFFFFFFFFFFFFFF

/-- HBM_TRAINING_COMPLETE: step 4 ends. When a channel fails its training, or its test, the package recovers; otherwise
step 5 is done, and the rollback counter follows the running image. -/
def execHbmTrainingComplete (failure : Option (Nat × Bool)) (s : State) : Host.Outcome State Fault Refusal :=
  .next (if s.head.step != 4 || s.head.recovery then s
    else match failure with
      | some (stack, test) => s.recover 4 (if test then 6 else 5) stack
      | none =>
        let v := Config.imageVersion (s.head.bank s.head.active).image
        let s := (s.loaded.toStep 6).clocked s
        { s with head := { s.head with rollback := max s.head.rollback v } })

/-! FWSTAGE, FWCOMMIT, KEYSWAP, POWER -/

/-- FWSTAGE: bytes of BUF go into the inactive bank. -/
def execFwstage (mbx : Nat) (s : State) : Host.Outcome State Fault Refusal :=
  .next (s.serve mbx 0x10 fun s q => s.hostOnly mbx true (
    match s.mbxRead mbx q.buf q.buflen with
    | none => (s, 3, [])
    | some (s, bs) =>
      let off := leNat (q.arg.take 8)
      let h := s.head
      let b : Bank427 := ⟨memWrites (h.bank (1 - h.active)).bytes off bs⟩
      ({ s with head := if h.active = 0 then { h with bank1 := b } else { h with bank0 := b } }, 0, [])))

/-- FWCOMMIT: the inactive bank is marked for the next cold start when it verifies; in recovery mode that start follows. -/
def execFwcommit (mbx : Nat) (s : State) : Host.Outcome State Fault Refusal :=
  .next (
    let was := s.head.tryNext
    let mark (s : State) (b : Bool) : State := { s with head := { s.head with tryNext := b } }
    let s' := (mark s false).serve mbx 0x11 fun s _ => s.hostOnly mbx true (
      if s.head.verifies (1 - s.head.active) then (mark s true, 0, []) else (s, 5, []))
    if !s'.head.tryNext then mark s' was
    else if s.head.recovery then s'.coldStart true else s')

/-- A function is not at rest: a context is not OFF, or a reset of it is under way (R425). -/
def State.unrest (s : State) (n : Nat) : Bool := s.fnInReset n || (s.ctxsOf n).any fun c => s.ctxState c != 0

/-- What KEYSWAP waits for: the cached copies under both slots are dropped (R99, R112), but for the line of the mailbox itself,
whose halves and deltas its own access takes back. -/
def State.swapReady (s : State) (m : Nat) (q : Request) : State × Bool :=
  let f := leNat (q.arg.take 1)
  let g := leNat ((q.arg.drop 1).take 1)
  if m != hostMbx || s.head.recovery || decide (64 ≤ f) || decide (64 ≤ g) || s.unrest f || s.unrest g then (s, true)
  else match s.slotOf f, s.slotOf g with
    | some a, some b =>
      let others (s : State) (k : Nat) : List Nat := (s.slotLines k).filter (· != lineOf (s.mbxAddr m).toNat)
      let (t, _) := s.dropLines a (others s a)
      let (u, _) := t.dropLines b (others t b)
      (u, (others u a).isEmpty && (others u b).isEmpty)
    | _, _ => (s, true)

/-- KEYSWAP: both slots are rotated and exchange their owners; BUSY unless both functions are at rest. -/
def execKeyswap (mbx : Nat) (s : State) : Host.Outcome State Fault Refusal :=
  .next (s.serveWhen mbx 0x20 (fun s q => s.swapReady mbx q) fun s q => s.hostOnly mbx false (
    let f := leNat (q.arg.take 1)
    let g := leNat ((q.arg.drop 1).take 1)
    if 64 ≤ f || 64 ≤ g then (s, 2, [])
    else if s.unrest f || s.unrest g then (s, 6, [])
    else match s.slotOf f, s.slotOf g with
      | some a, some b =>
        let s := (s.rotate a).rotate b
        ({ s with head := { s.head with slotOwner := tset (tset s.head.slotOwner a g) b f } }, 0, [])
      | _, _ => (s, 2, [])))

/-- POWER: the cap, from 2,000 to 5,600 W. -/
def execPower (mbx : Nat) (s : State) : Host.Outcome State Fault Refusal :=
  .next (s.serve mbx 0x21 fun s q => s.hostOnly mbx false (
    let w := leNat (q.arg.take 2)
    if 2000 ≤ w && w ≤ 5600 then ({ s with head := { s.head with cap := BitVec.ofNat 16 w } }, 0, []) else (s, 2, [])))

end Sys2Proof.Machine
end

