-- ==== Sys2Proof/Machine/Fabric.lean ====
section
/-! DEFINITION. What peers do (R408, R409): their requests to this package, and the loss of fabric ports. -/

namespace Sys2Proof.Machine

/-- A peer's request is answered once the writes made for it since `old` are complete (R105, R409): it waits no longer. -/
def State.remoteOver (s : State) (w : RemoteWait) (o : Out) (old : State) : State :=
  ((({ s with host := { s.host with remotes := s.host.remotes.erase w } } : State).replyAfter old o).unclaim fabricAgent
    w.ticket).drainFree

/-- A peer's request waits for the lines that it touches. -/
def State.remoteStays (s : State) (w : RemoteWait) : State :=
  if s.host.remotes.contains w then s else { s with host := { s.host with remotes := s.host.remotes ++ [w] } }

/-- The result of an attempt to perform a peer's request. -/
def State.remoteResult (s : State) (w : RemoteWait) (r : Remote) (old : State) : State :=
  match r with
  | .wait => s
  | .refused => s.remoteOver w (.remote w.ticket [] false) old
  | .done bs => s.remoteOver w (.remote w.ticket bs true) old

/-- REMOTE_REQUEST: performed only for a context that exists, runs, is open and has the tag, and only if all of it
translates; a request that must wait stays, with its age, until it is its turn (R115). -/
def execRemoteRequest (tag : BitVec 16) (ctx : Nat) (op : RemoteOp) (ticket : Nat) (s : State) :
    Host.Outcome State Fault Refusal :=
  let w : RemoteWait := ⟨tag, ctx, op, ticket⟩
  let s := s.remoteStays w
  .next (match op with
    | .read va len =>
      let (t, r) := s.remoteRead ctx tag.toNat ticket va len
      t.remoteResult w r s
    | .write va bytes =>
      let (t, r) := s.remoteWrite ctx tag.toNat ticket (bytes.zipIdx.map fun b => (va + BitVec.ofNat 64 b.2, b.1))
      t.remoteResult w r s)

/-- FABRIC_PORT_LOSS: the transport goes on over the other ports, and no context is failed. -/
def execFabricPortLoss (port : Nat) (s : State) : Host.Outcome State Fault Refusal :=
  .next (if 32 ≤ port || s.host.fabricDown.contains port then s
    else { s with host := { s.host with fabricDown := s.host.fabricDown ++ [port] } })

end Sys2Proof.Machine
end

