-- ==== Sys2Proof/Machine/Pair.lean ====
section
/-! DEFINITION. Short pairs (R244 to R246) and words that are no instruction (R248, R249). -/

namespace Sys2Proof.Machine

/-- What a half computes from its a and b operands, with its exceptions. -/
def ShortOp.eval (op : ShortOp) (x y : Nat) : Nat × Fl :=
  let f32 (f : Val → Val → Nat × Fl) : Nat × Fl := f (Fmt.f32.val x) (Fmt.f32.val y)
  match op with
  | .nop => (0, 0)
  | .add | .addI => (intAdd .i32 false x y, 0)
  | .sub => (intSub .i32 false x y, 0)
  | .mul | .mulI => (intMul .i32 x y, 0)
  | .min => (intMin .i32 x y, 0)
  | .max => (intMax .i32 x y, 0)
  | .movI => (y, 0)
  | .mov => (x, 0)
  | .and | .andI => (Nat.land x y, 0)
  | .or | .orI => (Nat.lor x y, 0)
  | .xor | .xorI => (Nat.xor x y, 0)
  | .shl => (shiftLeft 32 x y, 0)
  | .shlI => (shiftLeft 32 x y, 0)
  | .shr => (shiftRight .z32 x y, 0)
  | .shrI => (shiftRight .z32 x y, 0)
  | .fadd => f32 (Fmt.f32.add 0)
  | .fsub => f32 (Fmt.f32.sub 0)
  | .fmul => f32 (Fmt.f32.mul 0)
  | .fmin => Fmt.f32.minmax false x y
  | .fmax => Fmt.f32.minmax true x y
  | .sarI => (shiftRight .i32 x y, 0)
  | .minu => (intMin .z32 x y, 0)
  | .maxu => (intMax .z32 x y, 0)

/-- The b operand of a half in a lane: a register, or the sign-extended immediate. -/
def Half.bVal (i : Issue) (x : Half) (l : Nat) : Nat :=
  match x.b with
  | .reg o => (i.sl.read .c l 32 o).toNat
  | .imm v => (v.signExtend 32).toNat

/-- A half in a lane. -/
def Half.eval (i : Issue) (x : Half) (l : Nat) : Nat × Fl := ShortOp.eval x.op (i.sl.read .c l 32 (.r x.a)).toNat (Half.bVal i x l)

/-- The register writes of a half. -/
def Half.writes (i : Issue) (x : Half) : List Write :=
  if x.op = .nop then []
  else (lanesOf i.sp.mask).map fun l => .vec x.d.toNat l (BitVec.ofNat 64 (Half.eval i x l).1)

/-- A short pair: both halves read before either writes; an enabled exception of either is precise for both. -/
def execShortPair (mark : Bool) (h1 h2 : Half) (s : State) : Host.Outcome State Fault Refusal :=
  word s fun i =>
    let rs : List (Nat × Word × Fl) := (lanesOf i.sp.mask).map fun l => (l, 0, (Half.eval i h1 l).2 ||| (Half.eval i h2 l).2)
    match fpTrap i.sp.fmt rs with
    | some (sub, lanes) =>
      (s.modSlice i.ref.team i.ref.warp i.ref.slice fun x => (flagWrites rs).foldl SliceState.put x).raiseAt i
        { Trap.ofWord i 8 sub (lanes.setWidth 64) with lanes := lanes }
    | none => (s.results i (Half.writes i h1 ++ Half.writes i h2 ++ flagWrites rs)).advance i mark

/-- The subcode of ILLEGAL_INSTR. -/
def illegalSub : Illegal → Nat
  | .opcode => 0x30 | .slice => 0x31 | .guard => 0x32 | .field => 0x33 | .modifier => 0x34 | .pair => 0x35
  | .operand => 0x36 | .shape => 0x37

/-- A word that is no instruction: ILLEGAL_INSTR, precise, with the word itself. -/
def execIllegalInstrWord (w : Word) (why : Illegal) (s : State) : Host.Outcome State Fault Refusal :=
  word s fun i => s.decodeTrap i 4 (illegalSub why) w

end Sys2Proof.Machine
end

