-- ==== Sys2Proof/Machine/Time.lean ====
section
/-! DEFINITION. Clocks, temperature and power, and live retraining (R2, R136, R226, R417 to R421). -/

namespace Sys2Proof.Machine

/-! The heartbeat (R418) -/

/-- No die is a tick behind the die: the dies' ticks are skewed by less than one (R2). -/
def State.mayTick (s : State) (die : Nat) : Bool := (List.range Config.dies).all fun d => decide (s.hb die ≤ s.hb d)

/-- At the end of a window, its stretches are logged as one event, and a new window begins. The spec gives DETAIL no
layout: the count stands in bits 63:32 and the frequency in bits 15:0 (log entry 20). -/
def State.closeWindow (s : State) (die : Nat) : State :=
  let s := match tget? s.time.window die with
    | some (n, f) => s.logEvent 0x08 0xFF 0xFF 0xFFFF (BitVec.ofNat 64 die) (BitVec.ofNat 64 (n * 2 ^ 32 + f))
    | none => s
  { s with time := { s.time with window := tdel s.time.window die } }

/-- Module power has been above the cap, or below 95 % of it, for one tick more (R419). -/
def State.powerTick (s : State) : State :=
  let cap := s.head.cap.toNat
  let w := s.head.power.toNat
  { s with head := { s.head with
    overTicks := if cap < w then s.head.overTicks + 1 else 0
    underTicks := if w * 100 < cap * 95 then s.head.underTicks + 1 else 0 } }

/-- HEARTBEAT_TICK: a die's count advances; a tick of die 0 is a sample of HELD. -/
def execHeartbeatTick (die : Nat) (s : State) : Host.Outcome State Fault Refusal :=
  .next (if Config.dies ≤ die || !s.mayTick die then s
    else
      let n := s.hb die + 1
      let s := { s with time := { s.time with hb := tset s.time.hb die n, since := tset s.time.since die s.agenda.next } }
      let s := if n % stretchWindow = 0 then s.closeWindow die else s
      if die = 0 then s.sampleHeld.powerTick else s)

/-! Stretches (R417) -/

/-- DROOP_STRETCH: the die's clock falls, never below 1.6 GHz. -/
def execDroopStretch (die : Nat) (mhz : BitVec 16) (s : State) : Host.Outcome State Fault Refusal :=
  .next (if Config.dies ≤ die || mhz < 1600 || 2100 < mhz then s
    else
      let w := tget s.time.window die (0, mhz.toNat)
      ({ s with time := { s.time with
        stretching := tset s.time.stretching die mhz
        stretches := tset s.time.stretches die (tget s.time.stretches die 0 + 1)
        window := tset s.time.window die (w.1 + 1, min w.2 mhz.toNat) } } : State).clocked s)

/-- RAIL_RECOVER: the clock returns. -/
def execRailRecover (die : Nat) (s : State) : Host.Outcome State Fault Refusal :=
  .next (({ s with time := { s.time with stretching := tdel s.time.stretching die } } : State).clocked s)

/-! Temperature and power (R419) -/

/-- A temperature in sixteenths of a degree. -/
def degrees (n : Nat) : BitVec 16 := BitVec.ofNat 16 (16 * n)

def State.setHbm (s : State) (stack : Nat) (t : BitVec 16) : State :=
  { s with head := { s.head with hbmTemp := tset s.head.hbmTemp stack t } }

def State.setDie (s : State) (die : Nat) (t : BitVec 16) : State :=
  { s with head := { s.head with dieTemp := tset s.head.dieTemp die t } }

/-- HBM_COLD: a base die reads below +5 °C, and a warming load starts on the free cores beside it. -/
def execHbmCold (stack : Nat) (temp : BitVec 16) (s : State) : Host.Outcome State Fault Refusal :=
  .next (if Config.stackCount ≤ stack || !temp.slt (degrees 5) then s
    else
      let s := s.setHbm stack temp
      ({ s with head := { s.head with warming := addOnce s.head.warming stack } } : State).logAction stack temp.toNat)

/-- WARMING_LOAD_END: the base die reads +10 °C. -/
def execWarmingLoadEnd (stack : Nat) (s : State) : Host.Outcome State Fault Refusal :=
  .next (if s.head.warming.contains stack then
    let s := s.setHbm stack (degrees 10)
    ({ s with head := { s.head with warming := s.head.warming.erase stack } } : State).logAction stack (degrees 10).toNat
  else s)

/-- HBM_HOT: a base die reads at least 95 °C, and RATE of the arrays beside it is halved (`State.rateOf`). -/
def execHbmHot (stack : Nat) (temp : BitVec 16) (s : State) : Host.Outcome State Fault Refusal :=
  .next (if Config.stackCount ≤ stack || temp.slt (degrees 95) then s
    else
      let s := s.setHbm stack temp
      ({ s with head := { s.head with hotStacks := addOnce s.head.hotStacks stack } } : State).logAction stack temp.toNat)

/-- HBM_COOLED: it reads 90 °C. -/
def execHbmCooled (stack : Nat) (s : State) : Host.Outcome State Fault Refusal :=
  .next (if s.head.hotStacks.contains stack then
    let s := s.setHbm stack (degrees 90)
    ({ s with head := { s.head with hotStacks := s.head.hotStacks.erase stack } } : State).logAction stack (degrees 90).toNat
  else s)

/-- JUNCTION_HOT: a compute die reads at least 105 °C, and its clock runs at 1.6 GHz. -/
def execJunctionHot (die : Nat) (temp : BitVec 16) (s : State) : Host.Outcome State Fault Refusal :=
  .next (if Config.dies ≤ die || temp.slt (degrees 105) then s
    else
      let t := s.setDie die temp
      (({ t with head := { t.head with hot := addOnce t.head.hot die } } : State).clocked s).logAction die temp.toNat)

/-- JUNCTION_COOLED: it reads 100 °C. -/
def execJunctionCooled (die : Nat) (s : State) : Host.Outcome State Fault Refusal :=
  .next (if s.head.hot.contains die then
    let t := s.setDie die (degrees 100)
    (({ t with head := { t.head with hot := t.head.hot.erase die } } : State).clocked s).logAction die (degrees 100).toNat
  else s)

/-- POWER_OVER_CAP: Headland reads the module power. After 820 ticks above the cap, RATE of every array is lowered by a step,
and after 820 ticks below 95 % of it raised by one; the ticks of die 0 count (`State.powerTick`). -/
def execPowerOverCap (watts : BitVec 16) (s : State) : Host.Outcome State Fault Refusal :=
  .next (
    let cap := s.head.cap.toNat
    let w := watts.toNat
    let s := { s with head := { s.head with power := watts } }
    if cap < w then
      if stretchWindow ≤ s.head.overTicks then
        ({ s with head := { s.head with overTicks := 0, underTicks := 0, lowered := min 15 (s.head.lowered + 1) } } : State).logAction 0 w
      else { s with head := { s.head with underTicks := 0 } }
    else if w * 100 < cap * 95 then
      if stretchWindow ≤ s.head.underTicks && s.head.lowered != 0 then
        ({ s with head := { s.head with overTicks := 0, underTicks := 0, lowered := s.head.lowered - 1 } } : State).logAction 0 w
      else { s with head := { s.head with overTicks := 0 } }
    else { s with head := { s.head with overTicks := 0, underTicks := 0 } })

/-! Live retraining (R421) -/

def trainKey (stack pc : Nat) : Nat := stack * 64 + pc

/-- The temperature of a stack's base die. -/
def State.baseTemp (s : State) (stack : Nat) : BitVec 16 := tget s.head.hbmTemp stack 0

/-- A pseudo-channel's base die has moved 20 °C from the temperature of the channel's last training. -/
def State.moved20 (s : State) (stack pc : Nat) : Bool :=
  let d := (s.baseTemp stack).toInt - (tget s.lines.trained (trainKey stack pc) 0).toInt
  decide (320 ≤ d ∨ d ≤ -320)

/-- RETRAIN_START: a pseudo-channel begins to train, unless another of its stack does, because its temperature has moved or its
eye margin has raised an alarm, which comes from outside: a free value. -/
def execRetrainStart (stack pc : Nat) (s : State) : Host.Outcome State Fault Refusal :=
  .next (if Config.stackCount ≤ stack || 64 ≤ pc || s.lines.inline || (s.lines.training.any fun t => t.1 / 64 == stack) ||
      !(s.moved20 stack pc || (Config.freeWord 55 s.agenda.free).getLsbD 0) then s.bumpFree
    else { s.bumpFree with lines := { s.lines with training := tset s.lines.training (trainKey stack pc) (0, []) } })

/-- TSV_GROUP_DONE: the logged lines are rewritten, the log empties, and the next of the 18 groups trains. Home values
are held once, so that the rewriting shows in time only. -/
def execTsvGroupDone (stack pc : Nat) (s : State) : Host.Outcome State Fault Refusal :=
  .next (match tget? s.lines.training (trainKey stack pc) with
    | none => s
    | some (g, _) =>
      let t := if g + 1 = 18 then tdel s.lines.training (trainKey stack pc)
        else tset s.lines.training (trainKey stack pc) (g + 1, [])
      let trained := if g + 1 = 18 then tset s.lines.trained (trainKey stack pc) (s.baseTemp stack) else s.lines.trained
      { s with lines := { s.lines with training := t, trained := trained } })

end Sys2Proof.Machine
end

