-- ==== Sys2Proof/Machine/Dispatch.lean ====
section
/-! DEFINITION. The dispatch of an instruction to its meaning: one arm per row of the opcode table. -/

namespace Sys2Proof.Machine

/-- What an instruction word does in the step of its stream, and what each event of another agent does. -/
def exec (i : Instr) (s : State) : Host.Outcome State Fault Refusal :=
  match i with
  | .nop mark => Sys2Proof.Machine.execNop mark s
  | .exit h => Sys2Proof.Machine.execExit h s
  | .br h rc tgt => Sys2Proof.Machine.execBr h rc tgt s
  | .brQ mark dropT dropF rc tgt => Sys2Proof.Machine.execBrQ mark dropT dropF rc tgt s
  | .brB h dropT dropF rc tgt => Sys2Proof.Machine.execBrB h dropT dropF rc tgt s
  | .brBack mark dropT dropF rc tgt => Sys2Proof.Machine.execBrBack mark dropT dropF rc tgt s
  | .call mark tgt => Sys2Proof.Machine.execCall mark tgt s
  | .ret mark => Sys2Proof.Machine.execRet mark s
  | .brInd mark a => Sys2Proof.Machine.execBrInd mark a s
  | .callInd mark a => Sys2Proof.Machine.execCallInd mark a s
  | .join mark => Sys2Proof.Machine.execJoin mark s
  | .yield mark => Sys2Proof.Machine.execYield mark s
  | .splitYield mark => Sys2Proof.Machine.execSplitYield mark s
  | .trap h code => Sys2Proof.Machine.execTrap h code s
  | .add h t sat d a b => Sys2Proof.Machine.execAdd h t sat d a b s
  | .addImm h t sat d a imm => Sys2Proof.Machine.execAddImm h t sat d a imm s
  | .sub h t sat d a b => Sys2Proof.Machine.execSub h t sat d a b s
  | .mul h t d a b => Sys2Proof.Machine.execMul h t d a b s
  | .mulImm h t d a imm => Sys2Proof.Machine.execMulImm h t d a imm s
  | .mulhi h t d a b => Sys2Proof.Machine.execMulhi h t d a b s
  | .mad h t d a b c => Sys2Proof.Machine.execMad h t d a b c s
  | .div h t d a b => Sys2Proof.Machine.execDiv h t d a b s
  | .rem h t d a b => Sys2Proof.Machine.execRem h t d a b s
  | .min h t d a b => Sys2Proof.Machine.execMin h t d a b s
  | .max h t d a b => Sys2Proof.Machine.execMax h t d a b s
  | .abs h t sat d a => Sys2Proof.Machine.execAbs h t sat d a s
  | .neg h t sat d a => Sys2Proof.Machine.execNeg h t sat d a s
  | .sad h t d a b c => Sys2Proof.Machine.execSad h t d a b c s
  | .lea h t s_ d a b => Sys2Proof.Machine.execLea h t s_ d a b s
  | .movImm h t d imm => Sys2Proof.Machine.execMovImm h t d imm s
  | .mov h t d a => Sys2Proof.Machine.execMov h t d a s
  | .movhi h t hi52 d a imm => Sys2Proof.Machine.execMovhi h t hi52 d a imm s
  | .and h t d a b => Sys2Proof.Machine.execAnd h t d a b s
  | .andImm h t d a imm => Sys2Proof.Machine.execAndImm h t d a imm s
  | .or h t d a b => Sys2Proof.Machine.execOr h t d a b s
  | .orImm h t d a imm => Sys2Proof.Machine.execOrImm h t d a imm s
  | .xor h t d a b => Sys2Proof.Machine.execXor h t d a b s
  | .xorImm h t d a imm => Sys2Proof.Machine.execXorImm h t d a imm s
  | .not h t d a => Sys2Proof.Machine.execNot h t d a s
  | .shl h t d a b => Sys2Proof.Machine.execShl h t d a b s
  | .shlImm h t d a imm => Sys2Proof.Machine.execShlImm h t d a imm s
  | .shr h t d a b => Sys2Proof.Machine.execShr h t d a b s
  | .shrImm h t d a imm => Sys2Proof.Machine.execShrImm h t d a imm s
  | .rot h t d a b => Sys2Proof.Machine.execRot h t d a b s
  | .popc h t d a => Sys2Proof.Machine.execPopc h t d a s
  | .clz h t d a => Sys2Proof.Machine.execClz h t d a s
  | .brev h t d a => Sys2Proof.Machine.execBrev h t d a s
  | .bfe h t d a b => Sys2Proof.Machine.execBfe h t d a b s
  | .bfi h t d a b c => Sys2Proof.Machine.execBfi h t d a b c s
  | .cmp h t cc dp a b => Sys2Proof.Machine.execCmp h t cc dp a b s
  | .cmpImm h t cc dp a imm => Sys2Proof.Machine.execCmpImm h t cc dp a imm s
  | .sel h t d a b cp => Sys2Proof.Machine.execSel h t d a b cp s
  | .pand h dp ap bp => Sys2Proof.Machine.execPand h dp ap bp s
  | .por h dp ap bp => Sys2Proof.Machine.execPor h dp ap bp s
  | .pxor h dp ap bp => Sys2Proof.Machine.execPxor h dp ap bp s
  | .pnot h dp ap => Sys2Proof.Machine.execPnot h dp ap s
  | .leaPriv h d a b => Sys2Proof.Machine.execLeaPriv h d a b s
  | .leaPrivSelf h d a => Sys2Proof.Machine.execLeaPrivSelf h d a s
  | .srGet h d n => Sys2Proof.Machine.execSrGet h d n s
  | .srSet h n a => Sys2Proof.Machine.execSrSet h n a s
  | .shflIdx h t seg d a b pd => Sys2Proof.Machine.execShflIdx h t seg d a b pd s
  | .shflUp h t seg d a b pd => Sys2Proof.Machine.execShflUp h t seg d a b pd s
  | .shflDown h t seg d a b pd => Sys2Proof.Machine.execShflDown h t seg d a b pd s
  | .shflXor h t seg d a b pd => Sys2Proof.Machine.execShflXor h t seg d a b pd s
  | .voteAny h dp ap => Sys2Proof.Machine.execVoteAny h dp ap s
  | .voteAll h dp ap => Sys2Proof.Machine.execVoteAll h dp ap s
  | .voteBallot h d ap => Sys2Proof.Machine.execVoteBallot h d ap s
  | .scan h t op d a => Sys2Proof.Machine.execScan h t op d a s
  | .scanEx h t op d a => Sys2Proof.Machine.execScanEx h t op d a s
  | .wred h t op d a => Sys2Proof.Machine.execWred h t op d a s
  | .elect h dp => Sys2Proof.Machine.execElect h dp s
  | .xch h t m d a pd => Sys2Proof.Machine.execXch h t m d a pd s
  | .matchLanes h t d a => Sys2Proof.Machine.execMatchLanes h t d a s
  | .fadd h t rm d a b => Sys2Proof.Machine.execFadd h t rm d a b s
  | .fsub h t rm d a b => Sys2Proof.Machine.execFsub h t rm d a b s
  | .fmul h t rm d a b => Sys2Proof.Machine.execFmul h t rm d a b s
  | .ffma h t rm d a b c => Sys2Proof.Machine.execFfma h t rm d a b c s
  | .fmin h t d a b => Sys2Proof.Machine.execFmin h t d a b s
  | .fmax h t d a b => Sys2Proof.Machine.execFmax h t d a b s
  | .fabs h t d a => Sys2Proof.Machine.execFabs h t d a s
  | .fneg h t d a => Sys2Proof.Machine.execFneg h t d a s
  | .fcmp h t cc dp a b => Sys2Proof.Machine.execFcmp h t cc dp a b s
  | .fclass h t d a => Sys2Proof.Machine.execFclass h t d a s
  | .frcp h t d a => Sys2Proof.Machine.execFrcp h t d a s
  | .fsqrt h t rm d a => Sys2Proof.Machine.execFsqrt h t rm d a s
  | .frsqrt h t d a => Sys2Proof.Machine.execFrsqrt h t d a s
  | .fexp2 h t d a => Sys2Proof.Machine.execFexp2 h t d a s
  | .flog2 h t d a => Sys2Proof.Machine.execFlog2 h t d a s
  | .fsin h t d a => Sys2Proof.Machine.execFsin h t d a s
  | .fcos h t d a => Sys2Proof.Machine.execFcos h t d a s
  | .ftanh h t d a => Sys2Proof.Machine.execFtanh h t d a s
  | .fdiv h t rm d a b => Sys2Proof.Machine.execFdiv h t rm d a b s
  | .fdot2 h t rm d a b c => Sys2Proof.Machine.execFdot2 h t rm d a b c s
  | .frnd h t rm d a => Sys2Proof.Machine.execFrnd h t rm d a s
  | .fscale h t rm d a b => Sys2Proof.Machine.execFscale h t rm d a b s
  | .hadd2 h t rm d a b => Sys2Proof.Machine.execHadd2 h t rm d a b s
  | .hmul2 h t rm d a b => Sys2Proof.Machine.execHmul2 h t rm d a b s
  | .hfma2 h t rm d a b c => Sys2Proof.Machine.execHfma2 h t rm d a b c s
  | .cvt h dt sr rm isat d a => Sys2Proof.Machine.execCvt h dt sr rm isat d a s
  | .cvtPk h fmt hi rm d a b c => Sys2Proof.Machine.execCvtPk h fmt hi rm d a b c s
  | .cvtUnpk h fmt idx d a => Sys2Proof.Machine.execCvtUnpk h fmt idx d a s
  | .mxPack h fmt d a b => Sys2Proof.Machine.execMxPack h fmt d a b s
  | .mxUnpk h fmt d a b => Sys2Proof.Machine.execMxUnpk h fmt d a b s
  | .mxScale h fmt d a => Sys2Proof.Machine.execMxScale h fmt d a s
  | .cvtF6 h e3m2 d a => Sys2Proof.Machine.execCvtF6 h e3m2 d a s
  | .cvtI4 h signed hi d a => Sys2Proof.Machine.execCvtI4 h signed hi d a s
  | .fmtSetImm h v => Sys2Proof.Machine.execFmtSetImm h v s
  | .fmtSetReg h a => Sys2Proof.Machine.execFmtSetReg h a s
  | .fmtGet h d => Sys2Proof.Machine.execFmtGet h d s
  | .fmtGetFlags h d => Sys2Proof.Machine.execFmtGetFlags h d s
  | .fmtGetFlagsClr h d => Sys2Proof.Machine.execFmtGetFlagsClr h d s
  | .fmtSeed h a => Sys2Proof.Machine.execFmtSeed h a s
  | .ld h t acq d a imm => Sys2Proof.Machine.execLd h t acq d a imm s
  | .st h t rel d a imm => Sys2Proof.Machine.execSt h t rel d a imm s
  | .ldx h t ctr d a imm => Sys2Proof.Machine.execLdx h t ctr d a imm s
  | .ldIdx h t acq s_ d a b => Sys2Proof.Machine.execLdIdx h t acq s_ d a b s
  | .stIdx h t rel s_ d a b => Sys2Proof.Machine.execStIdx h t rel s_ d a b s
  | .stq h t rel ce ctr d => Sys2Proof.Machine.execStq h t rel ce ctr d s
  | .redQ h t op near rel scp ce ctr d => Sys2Proof.Machine.execRedQ h t op near rel scp ce ctr d s
  | .pf h l2 a imm => Sys2Proof.Machine.execPf h l2 a imm s
  | .waitCnt h ctr a imm => Sys2Proof.Machine.execWaitCnt h ctr a imm s
  | .fence h scp => Sys2Proof.Machine.execFence h scp s
  | .atom h t op scp ord d a b => Sys2Proof.Machine.execAtom h t op scp ord d a b s
  | .cas h t scp ord d a b c => Sys2Proof.Machine.execCas h t scp ord d a b c s
  | .red h t op near rel scp d a => Sys2Proof.Machine.execRed h t op near rel scp d a s
  | .ll h t acq d a imm => Sys2Proof.Machine.execLl h t acq d a imm s
  | .sc h t scope ord d a pd => Sys2Proof.Machine.execSc h t scope ord d a pd s
  | .waitAddr h t cc scp dp a b c => Sys2Proof.Machine.execWaitAddr h t cc scp dp a b c s
  | .rvInit h rv na nb => Sys2Proof.Machine.execRvInit h rv na nb s
  | .rvArr h rv => Sys2Proof.Machine.execRvArr h rv s
  | .rvWait h rv n => Sys2Proof.Machine.execRvWait h rv n s
  | .rvTest h rv dp n => Sys2Proof.Machine.execRvTest h rv dp n s
  | .gSet h slot ap => Sys2Proof.Machine.execGSet h slot ap s
  | .sigq h a d => Sys2Proof.Machine.execSigq h a d s
  | .cp h c => Sys2Proof.Machine.execCp h c s
  | .cpFeed h c => Sys2Proof.Machine.execCpFeed h c s
  | .cpYield mark ofs => Sys2Proof.Machine.execCpYield mark ofs s
  | .cpColl h c => Sys2Proof.Machine.execCpColl h c s
  | .cpPut h c => Sys2Proof.Machine.execCpPut h c s
  | .cpGet h c => Sys2Proof.Machine.execCpGet h c s
  | .mma h c => Sys2Proof.Machine.execMma h c s
  | .mmaTwin h c => Sys2Proof.Machine.execMmaTwin h c s
  | .mmaBud mark d => Sys2Proof.Machine.execMmaBud mark d s
  | .accZeroImm h dst n slot kind index => Sys2Proof.Machine.execAccZeroImm h dst n slot kind index s
  | .accZeroReg h dst src slot kind index => Sys2Proof.Machine.execAccZeroReg h dst src slot kind index s
  | .accLd h d a => Sys2Proof.Machine.execAccLd h d a s
  | .accFin h chk shape d a b c => Sys2Proof.Machine.execAccFin h chk shape d a b c s
  | .wb h a b => Sys2Proof.Machine.execWb h a b s
  | .ii h a b => Sys2Proof.Machine.execIi h a b s
  | .fbar mark => Sys2Proof.Machine.execFbar mark s
  | .nodePost h a => Sys2Proof.Machine.execNodePost h a s
  | .discard h a b => Sys2Proof.Machine.execDiscard h a b s
  | .rngInv h a => Sys2Proof.Machine.execRngInv h a s
  | .rngInvAll h a => Sys2Proof.Machine.execRngInvAll h a s
  | .rngSync mark => Sys2Proof.Machine.execRngSync mark s
  | .zline h a => Sys2Proof.Machine.execZline h a s
  | .fenceHb mark => Sys2Proof.Machine.execFenceHb mark s
  | .ebbSlide h d a b c => Sys2Proof.Machine.execEbbSlide h d a b c s
  | .ebbStat h d a => Sys2Proof.Machine.execEbbStat h d a s
  | .halt h => Sys2Proof.Machine.execHalt h s
  | .shortPair mark h1 h2 => Sys2Proof.Machine.execShortPair mark h1 h2 s
  | .illegalInstrWord w why => Sys2Proof.Machine.execIllegalInstrWord w why s
  | .loadReply flight => Sys2Proof.Machine.execLoadReply flight s
  | .queueDataArrival flight => Sys2Proof.Machine.execQueueDataArrival flight s
  | .fairnessRotation core quarter slice => Sys2Proof.Machine.execFairnessRotation core quarter slice s
  | .rangeWalkStart die => Sys2Proof.Machine.execRangeWalkStart die s
  | .rangeWalkComplete core ctx region => Sys2Proof.Machine.execRangeWalkComplete core ctx region s
  | .missFill core entry => Sys2Proof.Machine.execMissFill core entry s
  | .instructionFetchFill sr addr => Sys2Proof.Machine.execInstructionFetchFill sr addr s
  | .resteer m => Sys2Proof.Machine.execResteer m s
  | .stranded m => Sys2Proof.Machine.execStranded m s
  | .read m => Sys2Proof.Machine.execRead m s
  | .data m => Sys2Proof.Machine.execData m s
  | .store m => Sys2Proof.Machine.execStore m s
  | .homeAtomic m => Sys2Proof.Machine.execHomeAtomic m s
  | .homeReduction m => Sys2Proof.Machine.execHomeReduction m s
  | .stack m => Sys2Proof.Machine.execStack m s
  | .upd m => Sys2Proof.Machine.execUpd m s
  | .uack m => Sys2Proof.Machine.execUack m s
  | .inv m => Sys2Proof.Machine.execInv m s
  | .iack m => Sys2Proof.Machine.execIack m s
  | .evn m => Sys2Proof.Machine.execEvn m s
  | .ureq m => Sys2Proof.Machine.execUreq m s
  | .ugrant m => Sys2Proof.Machine.execUgrant m s
  | .gather m => Sys2Proof.Machine.execGather m s
  | .delta m => Sys2Proof.Machine.execDelta m s
  | .nodelta m => Sys2Proof.Machine.execNodelta m s
  | .dwb m => Sys2Proof.Machine.execDwb m s
  | .retry m => Sys2Proof.Machine.execRetry m s
  | .retryReissue r => Sys2Proof.Machine.execRetryReissue r s
  | .discardAtHome m => Sys2Proof.Machine.execDiscardAtHome m s
  | .memoryRequestIssue chan bank => Sys2Proof.Machine.execMemoryRequestIssue chan bank s
  | .hotRowHoldEnd chan bank fn => Sys2Proof.Machine.execHotRowHoldEnd chan bank fn s
  | .refreshWindowEnd chan bank => Sys2Proof.Machine.execRefreshWindowEnd chan bank s
  | .memoryFill line => Sys2Proof.Machine.execMemoryFill line s
  | .slideStartCommit slot => Sys2Proof.Machine.execSlideStartCommit slot s
  | .ebbStep slot => Sys2Proof.Machine.execEbbStep slot s
  | .ebbStepComplete slot => Sys2Proof.Machine.execEbbStepComplete slot s
  | .slideCompletionCommit slot => Sys2Proof.Machine.execSlideCompletionCommit slot s
  | .slideReport slot => Sys2Proof.Machine.execSlideReport slot s
  | .emissionApply n => Sys2Proof.Machine.execEmissionApply n s
  | .commandStart cmd => Sys2Proof.Machine.execCommandStart cmd s
  | .commandComplete cmd => Sys2Proof.Machine.execCommandComplete cmd s
  | .mmaRunStart cmd duplicateDiffers => Sys2Proof.Machine.execMmaRunStart cmd duplicateDiffers s
  | .mmaRunEnd cmd => Sys2Proof.Machine.execMmaRunEnd cmd s
  | .heartbeatTick die => Sys2Proof.Machine.execHeartbeatTick die s
  | .waitAddrWake sr => Sys2Proof.Machine.execWaitAddrWake sr s
  | .stalemateDetect team => Sys2Proof.Machine.execStalemateDetect team s
  | .haltArrival team warp slice skid => Sys2Proof.Machine.execHaltArrival team warp slice skid s
  | .trapRecordWrite team blocks => Sys2Proof.Machine.execTrapRecordWrite team blocks s
  | .resolveResume ctx rc => Sys2Proof.Machine.execResolveResume ctx rc s
  | .resolveSkip ctx rc => Sys2Proof.Machine.execResolveSkip ctx rc s
  | .resolveDiscard ctx rc => Sys2Proof.Machine.execResolveDiscard ctx rc s
  | .teamDispatch ctx core => Sys2Proof.Machine.execTeamDispatch ctx core s
  | .nodeComplete ctx node => Sys2Proof.Machine.execNodeComplete ctx node s
  | .partitionPeriod => Sys2Proof.Machine.execPartitionPeriod s
  | .poolStarvation ctx => Sys2Proof.Machine.execPoolStarvation ctx s
  | .heldCoreExpiry core => Sys2Proof.Machine.execHeldCoreExpiry core s
  | .preemptComplete => Sys2Proof.Machine.execPreemptComplete s
  | .teamSave team blocks => Sys2Proof.Machine.execTeamSave team blocks s
  | .fnrstQuiesce n => Sys2Proof.Machine.execFnrstQuiesce n s
  | .fnrstRotate n => Sys2Proof.Machine.execFnrstRotate n s
  | .fnrstClear n => Sys2Proof.Machine.execFnrstClear n s
  | .clearSpanDone n => Sys2Proof.Machine.execClearSpanDone n s
  | .fnrstIdle n => Sys2Proof.Machine.execFnrstIdle n s
  | .sensors mbx => Sys2Proof.Machine.execSensors mbx s
  | .log mbx => Sys2Proof.Machine.execLog mbx s
  | .attest mbx => Sys2Proof.Machine.execAttest mbx s
  | .fwstage mbx => Sys2Proof.Machine.execFwstage mbx s
  | .fwcommit mbx => Sys2Proof.Machine.execFwcommit mbx s
  | .keyswap mbx => Sys2Proof.Machine.execKeyswap mbx s
  | .power mbx => Sys2Proof.Machine.execPower mbx s
  | .cxlMemRead port addr len tag => Sys2Proof.Machine.execCxlMemRead port addr len tag s
  | .cxlMemWrite port addr bytes => Sys2Proof.Machine.execCxlMemWrite port addr bytes s
  | .hostSharedRequest port addr => Sys2Proof.Machine.execHostSharedRequest port addr s
  | .hostOwnershipRequest port addr => Sys2Proof.Machine.execHostOwnershipRequest port addr s
  | .hostWriteback port addr bytes => Sys2Proof.Machine.execHostWriteback port addr bytes s
  | .backInvalidationResponse line hi modified => Sys2Proof.Machine.execBackInvalidationResponse line hi modified s
  | .hostSnoop line hi invalidate => Sys2Proof.Machine.execHostSnoop line hi invalidate s
  | .cxlCacheFill line hi bytes => Sys2Proof.Machine.execCxlCacheFill line hi bytes s
  | .portLinkDown port => Sys2Proof.Machine.execPortLinkDown port s
  | .portLinkUp port => Sys2Proof.Machine.execPortLinkUp port s
  | .contextFatal ctx => Sys2Proof.Machine.execContextFatal ctx s
  | .dieLoss l => Sys2Proof.Machine.execDieLoss l s
  | .uncorrectableError e => Sys2Proof.Machine.execUncorrectableError e s
  | .correctedError e => Sys2Proof.Machine.execCorrectedError e s
  | .contextDestruction ctx => Sys2Proof.Machine.execContextDestruction ctx s
  | .coreRemovedFromService a => Sys2Proof.Machine.execCoreRemovedFromService a s
  | .ctxctlRunSet ctx v => Sys2Proof.Machine.execCtxctlRunSet ctx v s
  | .ctxctlRunClear ctx v => Sys2Proof.Machine.execCtxctlRunClear ctx v s
  | .amapEntryValidate n v => Sys2Proof.Machine.execAmapEntryValidate n v s
  | .amapWerrClear v => Sys2Proof.Machine.execAmapWerrClear v s
  | .hdmWindowValidate n v => Sys2Proof.Machine.execHdmWindowValidate n v s
  | .fnsvcWrite n v => Sys2Proof.Machine.execFnsvcWrite n v s
  | .preemptGo v => Sys2Proof.Machine.execPreemptGo v s
  | .fnrstGo n v => Sys2Proof.Machine.execFnrstGo n v s
  | .hldoorRing v => Sys2Proof.Machine.execHldoorRing v s
  | .registerWrite r v => Sys2Proof.Machine.execRegisterWrite r v s
  | .coldStart selfTest => Sys2Proof.Machine.execColdStart selfTest s
  | .preheatComplete => Sys2Proof.Machine.execPreheatComplete s
  | .preheatTimeout => Sys2Proof.Machine.execPreheatTimeout s
  | .hbmTrainingComplete failure => Sys2Proof.Machine.execHbmTrainingComplete failure s
  | .droopStretch die mhz => Sys2Proof.Machine.execDroopStretch die mhz s
  | .railRecover die => Sys2Proof.Machine.execRailRecover die s
  | .hbmCold stack temp => Sys2Proof.Machine.execHbmCold stack temp s
  | .warmingLoadEnd stack => Sys2Proof.Machine.execWarmingLoadEnd stack s
  | .hbmHot stack temp => Sys2Proof.Machine.execHbmHot stack temp s
  | .hbmCooled stack => Sys2Proof.Machine.execHbmCooled stack s
  | .junctionHot die temp => Sys2Proof.Machine.execJunctionHot die temp s
  | .junctionCooled die => Sys2Proof.Machine.execJunctionCooled die s
  | .powerOverCap watts => Sys2Proof.Machine.execPowerOverCap watts s
  | .retrainStart stack pc => Sys2Proof.Machine.execRetrainStart stack pc s
  | .tsvGroupDone stack pc => Sys2Proof.Machine.execTsvGroupDone stack pc s
  | .remoteRequest tag ctx op ticket => Sys2Proof.Machine.execRemoteRequest tag ctx op ticket s
  | .peerTimeout cmd => Sys2Proof.Machine.execPeerTimeout cmd s
  | .remoteResponse cmd r => Sys2Proof.Machine.execRemoteResponse cmd r s
  | .fabricPortLoss port => Sys2Proof.Machine.execFabricPortLoss port s

end Sys2Proof.Machine
end

