-- ==== Sys2Proof/Machine/Turns.lean ====
section
/-! DEFINITION. Turns: which agent moves next, and what a stream does in its turn (R128, R188, R339, R379). The agents
of the package move side by side and the spec orders their moves only as its rules say, so a step takes the turn that the
agenda's tape names: every interleaving is a tape. Past the tape's end the turns that the package could take by itself come
round in a fixed order (log entries 3 and 4). -/

namespace Sys2Proof.Machine

/-! Instruction words and events -/

/-- The event of a message's arrival. -/
def Msg.event (m : Msg) : Instr :=
  match m.body with
  | .read .. => .read m.id
  | .data .. => .data m.id
  | .store .. => .store m.id
  | .discard .. => .discardAtHome m.id
  | .atomic .. => .homeAtomic m.id
  | .reduce .. => .homeReduction m.id
  | .accLd .. => .read m.id
  | .stack .. => .stack m.id
  | .upd .. => .upd m.id
  | .uack .. => .uack m.id
  | .inv .. => .inv m.id
  | .iack .. => .iack m.id
  | .evn => .evn m.id
  | .ureq .. => .ureq m.id
  | .ugrant .. => .ugrant m.id
  | .gather .. => .gather m.id
  | .delta .. => .delta m.id
  | .nodelta .. => .nodelta m.id
  | .dwb .. => .dwb m.id
  | .retry .. => .retry m.id
  | .claim .. => .retryReissue m.id
  | .resteer .. => .resteer m.id
  | .stranded .. => .stranded m.id

/-! Turns that the package could take by itself -/

/-- The running streams of a team. -/
def Team.streamRefs (t : Nat) (tm : Team) : List StreamRef :=
  tm.warps.flatMap fun w => [Slice.a, Slice.c].flatMap fun sl =>
    (w.2.slice sl).splits.map fun (sp : Split) => (⟨t, w.1, sl, sp.num⟩ : StreamRef)

/-- Results and replies, accesses and messages in flight, and reductions begun at their homes. -/
def State.flightTurns (s : State) : List Turn :=
  s.flights.flatMap (fun (f : Flight) => [Turn.event (.loadReply f.id), .event (.queueDataArrival f.id)]) ++
  s.net.msgs.map (fun (m : Msg) => Turn.event m.event) ++
  s.net.parts.map (fun (p : Part) => Turn.event (.homeReduction p.m.id)) ++
  s.net.retries.map (fun (m : Msg) => Turn.event (.retryReissue m.id))

/-- Misses, walks and the memory controllers. -/
def State.fillTurns (s : State) : List Turn :=
  s.cores.flatMap (fun (c : Nat × Core) =>
    c.2.misses.map (fun (m : Miss) => Turn.event (.missFill c.1 m.id)) ++
    c.2.walks.map (fun (w : PendWalk) =>
      if w.started then Turn.event (.rangeWalkComplete c.1 w.ctx w.region) else .event (.rangeWalkStart (dieOf c.1)))) ++
  s.lines.banks.flatMap (fun (b : Nat × Bank) =>
    (if b.2.reqs.isEmpty then [] else [Turn.event (.memoryRequestIssue (b.1 / 64) (b.1 % 64))]) ++
    b.2.held.map fun (h : Nat × Nat) => Turn.event (.hotRowHoldEnd (b.1 / 64) (b.1 % 64) h.1)) ++
  s.lines.fills.map fun (l : Nat) => Turn.event (.memoryFill l)

/-- Engines, gathered emissions and slides. -/
def State.engineTurns (s : State) : List Turn :=
  s.engines.cmds.flatMap (fun (c : Command) => match c.kind with
    | .mma | .twin => [Turn.event (.mmaRunStart c.id false), .event (.mmaRunEnd c.id), .event (.commandComplete c.id),
        .event (.commandStart c.id)]
    | _ => [Turn.event (.commandStart c.id), .event (.commandComplete c.id)]) ++
  s.engines.emissions.map (fun (e : Emission) => Turn.event (.emissionApply e.id)) ++
  s.ebb.slots.flatMap fun (e : Nat × Slot) =>
    if e.2.state = 0 then []
    else [Turn.event (.slideStartCommit e.1), .event (.ebbStep e.1), .event (.ebbStepComplete e.1),
      .event (.slideCompletionCommit e.1), .event (.slideReport e.1)]

/-- Waiting streams, halts and trap records. -/
def State.teamTurns (s : State) : List Turn :=
  s.teams.flatMap fun (t : Nat × Team) =>
    let halts := t.2.warps.flatMap fun (w : Nat × Warp) =>
      [Turn.event (.haltArrival t.1 w.1 .a 0), .event (.haltArrival t.1 w.1 .c 0)]
    let blocks := ((List.range (s.saveSize t.2.ctx)).filter fun b => !(s.takenBlocks t.2.ctx).contains b).take t.2.imageBlocks
    match t.2.status with
    | .running => (t.2.streamRefs t.1).map (fun r => Turn.event (.waitAddrWake r)) ++ [.event (.stalemateDetect t.1)]
    | .trapping => halts ++ [.event (.trapRecordWrite t.1 blocks)]
    | .saving => halts ++ [.event (.teamSave t.1 blocks)]
    | .saved _ => []
    | .trapped r _ _ =>
      (if t.2.telling.isSome then [.event (.trapRecordWrite t.1 [])] else []) ++
        [.event (.resolveResume t.2.ctx r), .event (.resolveSkip t.2.ctx r), .event (.resolveDiscard t.2.ctx r)]

/-- Nodes, dispatch and the partition. -/
def State.schedTurns (s : State) : List Turn :=
  s.sched.nodes.flatMap (fun (p : PNode) =>
    Turn.event (.nodeComplete p.ctx p.va) :: Turn.event (.poolStarvation p.ctx) ::
      (List.range Config.cores).map fun c => Turn.event (.teamDispatch p.ctx c)) ++
  s.cores.filterMap (fun (c : Nat × Core) =>
    if c.2.heldFor.isSome then some (Turn.event (.heldCoreExpiry c.1)) else none) ++
  (if s.sched.preempt.isNone && s.sched.switches.isEmpty then [] else [Turn.event .preemptComplete]) ++
  [Turn.event .partitionPeriod]

/-- Headland: mailboxes whose wake word asks for service or whose answer goes on, and functions in reset. -/
def State.headTurns (s : State) : List Turn :=
  ((s.head.wakes.filter fun (w : Nat × Word) => w.2.getLsbD 0).map Prod.fst ++ s.head.answered.map Answering.mbx).flatMap
    (fun (m : Nat) => [Instr.sensors m, .log m, .attest m, .fwstage m, .fwcommit m, .keyswap m, .power m].map Turn.event) ++
  (List.range 64).flatMap fun n =>
    if s.fnInReset n then
      [Instr.fnrstQuiesce n, .fnrstRotate n, .fnrstClear n, .clearSpanDone n, .fnrstIdle n].map Turn.event
    else []

/-- What the host and the peers have asked for and has not been answered. -/
def HostWait.event (w : HostWait) : Instr :=
  let a := BitVec.ofNat 52 w.addr
  match w.ask with
  | .shared => .hostSharedRequest w.agent a
  | .own => .hostOwnershipRequest w.agent a
  | .read len tag => .cxlMemRead w.agent a len tag
  | .write bs => .cxlMemWrite w.agent a bs
  | .snoop inv => .hostSnoop (w.addr / 128) (64 ≤ w.addr % 128) inv
  | .back bs => .hostWriteback w.agent a bs

def State.hostTurns (s : State) : List Turn :=
  s.host.waits.map (fun (w : HostWait) => Turn.event w.event) ++
  s.host.remotes.map fun (w : RemoteWait) => Turn.event (.remoteRequest w.tag w.ctx w.op w.ticket)

/-- The streams, and the passing of the favour among them. -/
def State.issueTurns (s : State) : List Turn :=
  (s.teams.flatMap fun (t : Nat × Team) => t.2.streamRefs t.1).map Turn.issue ++
  (s.teams.flatMap fun (t : Nat × Team) => t.2.warps.flatMap fun (w : Nat × Warp) =>
    [Slice.a, Slice.c].map fun sl => Turn.event (.fairnessRotation t.2.core w.2.quarter sl)).eraseDups

/-- Every turn that may be due, results first. -/
def State.turns (s : State) : List Turn :=
  s.flightTurns ++ s.fillTurns ++ s.engineTurns ++ s.issueTurns ++ s.teamTurns ++ s.schedTurns ++ s.headTurns ++
  s.hostTurns ++ (List.range Config.dies).map fun d => Turn.event (.heartbeatTick d)

/-- The turn past the end of the tape: the turns come round; one that has nothing to do changes nothing. -/
def State.ownTurn (s : State) : Turn :=
  let ts := s.turns
  ts.getD (s.agenda.round % ts.length) (.event (.heartbeatTick 0))

/-- Takes the next turn. -/
def State.takeTurn (s : State) : Turn × State :=
  match s.agenda.tape with
  | t :: rest => (t, { s with agenda := { s.agenda with tape := rest } })
  | [] => (s.ownTurn, { s with agenda := { s.agenda with round := s.agenda.round + 1 } })

/-! A stream's turn -/

/-- The word that a split has fetched for an address. -/
def Split.word? (sp : Split) (a : Word) : Option Word := (sp.fetched.find? fun w => w.1 == a).map (·.2)

/-- The instruction that a word is in a slice: one that is none raises ILLEGAL_INSTR (R248). -/
def decodeIn (sl : Slice) (w : Word) : Instr :=
  match decode sl w with
  | .ok i => i
  | .error e => .illegalInstrWord w e

/-- The instruction that a stream issues next, once its word has been fetched. -/
def State.nextInstr (s : State) (r : StreamRef) : Option Instr :=
  match s.issue? r with
  | none => none
  | some i => (i.sp.word? i.sp.pc).map (decodeIn r.slice)

/-- The machine while a stream issues. -/
def State.issuing (s : State) (r : StreamRef) : State := { s with agenda := { s.agenda with cur := some r } }

/-- The machine between the words of streams. -/
def State.idle (s : State) : State := { s with agenda := { s.agenda with cur := none } }

/-- A split without the word at its PC fetches it, while it may issue at all. -/
def State.fetchTurn (s : State) (r : StreamRef) : Host.Outcome State Fault Refusal :=
  match s.issue? r with
  | none => .next s
  | some i => if !i.allowed then .next s else match exec (.instructionFetchFill r i.sp.pc) s with
    | .next s' => .next (s'.modSplit r fun sp =>
        if sp.pc = i.sp.pc && sp.wait == .none && (sp.word? sp.pc).isNone then { sp with wait := .fetch } else sp)
    | o => o

/-- The stream is ready in the sense of R188: its word has been fetched and issues now. -/
def State.couldIssue (s : State) (r : StreamRef) : Bool :=
  match s.issue? r, s.nextInstr r with
  | some i, some w => i.allowed && (match exec w (s.issuing r) with
    | .next s' => (match s'.issue? r with
      | some j => j.sp.wait == .none || j.sp.wait == .trapped
      | none => true)
    | _ => false)
  | _, _ => false

/-- The stream that issues in a turn of r: the favoured stream of r's quarter and slice, when it is ready; otherwise r.
The spec says 'the oldest ready stream' and not from when a stream's age counts, so the tape chooses among the others; nor does
it say which stream a quarter favours before its first rotation, and until then the model favours none (R188; log entry 108). -/
def State.issuer (s : State) (r : StreamRef) : StreamRef :=
  match s.issue? r with
  | none => r
  | some i =>
    match tget? (s.core i.tm.core).favour (favourKey i.wp.quarter r.slice) with
    | none => r
    | some f =>
      if f != r && (s.streamsOn i.tm.core i.wp.quarter r.slice).contains f && s.couldIssue f then f else r

/-- A stream's own turn: the word at its PC runs, or is fetched first. -/
def State.runStream (s : State) (r : StreamRef) : Host.Outcome State Fault Refusal :=
  match s.nextInstr r with
  | some i => exec i (s.issuing r)
  | none => s.fetchTurn r

/-- A turn of a stream's quarter and slice. -/
def State.issueTurn (s : State) (r : StreamRef) : Host.Outcome State Fault Refusal := s.runStream (s.issuer r)

/-- A favour that has been passed goes to the next ready stream, if there is one (R188, R262). -/
def State.giveFavour (s : State) (p : Pass) : State :=
  let mate (x : StreamRef) : Bool := !p.warp || p.after.any fun r => x.team == r.team && x.warp == r.warp
  let l := (s.streamsOn p.core p.quarter p.slice).filter fun x => p.after == some x || (s.couldIssue x && mate x)
  match match p.after with
    | some r => nextAfter l r
    | none => l.head? with
  | some x => s.favour p.core p.quarter p.slice x
  | none => s

/-- The favours that a turn has passed go to the next ready streams. -/
def State.settleFavour (s : State) : State :=
  s.agenda.passes.foldl State.giveFavour { s with agenda := { s.agenda with passes := [] } }

/-- The end of a turn: no stream issues, and favours have passed. -/
def endTurn (o : Host.Outcome State Fault Refusal) : Host.Outcome State Fault Refusal :=
  match o with
  | .next s => .next s.idle.settleFavour
  | .fault f => .fault f
  | .refused r => .refused r

/-- One turn. Words run only in their streams' turns: as an event, a word of a program is none. -/
def State.turn (s : State) (t : Turn) : Host.Outcome State Fault Refusal :=
  match t with
  | .issue r => endTurn (s.issueTurn r)
  | .event i => match exec i s.idle with
    | .refused .noStream => .next s.idle
    | o => endTurn o

/-! Placing a word -/

/-- The split, warp, team and context that a placed word runs in. -/
def placedSplit (w : Word) : Split := ⟨0, 0, 0xFFFFFFFF, none, fmtReset, 0, [(0, w)], false, none, .none, none⟩

def placedSlice (splits : List Split) : SliceState :=
  { regs := [], scal := [], preds := [], counters := [], marks := [], flags := 0, gens := [], splits := splits,
    stack := [], parked := [], exited := 0, ended := false, lastPop := [], offers := [], invs := [], halt := none,
    skid := 0 }

def placedWarp (sl : Slice) (w : Word) : Warp :=
  let run := placedSlice [placedSplit w]
  let other := placedSlice [{ placedSplit 0 with fetched := [] }]
  { quarter := 0, stage := 0, dead := 0, slip := 0x8888, f0 := [], f1 := [], f2 := [], f3 := [], sa := [], boq := [],
    pushed := 0, back := [], slots := [], resv := [], yields := 0,
    a := (if sl = .a then run else other), c := (if sl = .c then run else other), retired := false, cause := none }

/-- A team of one warp of one stage with 32 C and 32 A granules, placed on core 0 (R185). -/
def placedTeam (sl : Slice) (w : Word) : Team :=
  { ctx := 0, node := 0, n := 0, x := 0, y := 0, z := 0, gx := 1, gy := 1, gz := 1, stages := [(1, 32, 32)],
    entries := [0, 0], flags := 0, nrv := 0, privBase := 0, privSize := 0, tpSize := 0, tide := [], core := 0,
    root := false, status := .running, primary := none, resolve := none, placed := 0, post := 0, telling := none,
    warps := [(0, placedWarp sl w)], rvs := [], fifoA := [], fifoB := [], fifoOdd := [] }

/-- The slice that a table word is decoded in. -/
def placedIn (w : Word) : Slice :=
  match decode .a w with
  | .ok _ => .a
  | .error _ => .c

/-- A running team whose warp has the word at its PC, favoured in its quarter, and its turn next (log entry 3). -/
def State.placeWord (s : State) (w : Word) : State :=
  let id := s.agenda.next
  let r : StreamRef := ⟨id, 0, placedIn w, 0⟩
  ({ s with
    teams := tset s.teams id (placedTeam (placedIn w) w)
    agenda := { s.agenda with tape := [.issue r], next := id + 1 } } : State).favour 0 0 (placedIn w) r

end Sys2Proof.Machine
end

