-- ==== Sys2Proof/Machine/Step.lean ====
section
/-! DEFINITION. One step of the package: the next turn is taken. -/

namespace Sys2Proof.Machine

/-- Takes the next turn: a stream issues the word at its PC, or another agent has its event. -/
def step (s : State) : Host.Outcome State Fault Refusal := s.takeTurn.2.turn s.takeTurn.1

/-- The machine whose next step issues a table word (log entry 3). -/
def State.withFetchWord (s : State) (_nbits w : Nat) : State := s.placeWord (BitVec.ofNat 64 w)

end Sys2Proof.Machine
end

