-- ==== Sys2Proof/Safety.lean ====
section
/-! DEFINITION. What statements about runs are made in: outcomes, the machine's invariant, the turn of a stream whose
word may issue, how a word's sources stand, and what a word that computes values in its active lanes does. -/

namespace Sys2Proof.Machine

/-- The outcome is a next state that satisfies p. -/
def Outcome.leads (o : Host.Outcome State Fault Refusal) (p : State → Prop) : Prop := ∃ t, o = .next t ∧ p t

/-- Memory has its one canonical form, so that equal memories are equal data. -/
def State.MemOk (s : State) : Prop := Memory.wf s.mem = true

/-! A stream's turn -/

/-- It is the turn of the stream of i, its team may issue, and no access holds the word back (R383, R384). -/
structure State.Ready (s : State) (i : Issue) : Prop where
  cur : s.agenda.cur = some i.ref
  looked : s.issue? i.ref = some i
  allowed : i.allowed = true
  translated : s.translationWait i = false

/-- The queues that a word's sources name, in order. -/
def queuesOf (srcs : List Opd) : List Nat := srcs.filterMap Opd.queue?

/-- The sources of a word are read for the lanes m (R192, R243, R252): `t` is the state once the entries they name have
been popped, `died` the lanes that read poisoned data, and `rd` what each source gives in each lane. -/
inductive State.Reads (s : State) (i : Issue) (m : Mask) (srcs : List Opd) : State → Mask → Rd → Prop where
  /-- no source is a queue -/
  | registers (h : queuesOf srcs = []) : State.Reads s i m srcs s 0 (reader i srcs [])
  /-- an entry of each queue that a source names is popped -/
  | pops (w : Warp) (es : List QEntry) (died : Mask) (h : queuesOf srcs ≠ [])
      (p : i.wp.pops m (queuesOf srcs) = .ok w es died) :
      State.Reads s i m srcs (s.modWarp i.ref.team i.ref.warp fun _ => w) died (reader i srcs es)

/-- A word with active lanes whose sources stand in its way: it waits for an entry, or takes the trap of a poisoned
one (R192, R202, R387). -/
structure SourcesHold (ins : Instr) (h : Head) (srcs : List Opd) (ready : State → Issue → Prop) : Prop where
  waits : ∀ (s : State) (i : Issue) (q : Nat), s.Ready i → i.active h.guard ≠ 0 → ready s i → queuesOf srcs ≠ [] →
    i.wp.pops (i.active h.guard) (queuesOf srcs) = .wait q → exec ins s = .next (s.waitAt i (.pop q (i.active h.guard)))
  traps : ∀ (s : State) (i : Issue) (f : Fault40), s.Ready i → i.active h.guard ≠ 0 → ready s i → queuesOf srcs ≠ [] →
    i.wp.pops (i.active h.guard) (queuesOf srcs) = .fault f → exec ins s = .next (s.raiseAt i (Trap.ofPop i f))

/-- A word does `act` once it has active lanes, `ready` holds of it and its sources are read: with no active lane it
moves on; and lanes that read poisoned data die, while the others go on (R202, R209, R250). `act` is given the state
before and after the pops, the lanes that go on, and what the sources give. -/
structure WordActs (ins : Instr) (h : Head) (srcs : List Opd) (ready : State → Issue → Prop)
    (act : Issue → State → State → Mask → Rd → State) : Prop where
  idle : ∀ (s : State) (i : Issue), s.Ready i → i.active h.guard = 0 → exec ins s = .next (s.advance i h.mark)
  held : SourcesHold ins h srcs ready
  acts : ∀ (s t : State) (i : Issue) (rd : Rd), s.Ready i → i.active h.guard ≠ 0 → ready s i →
    s.Reads i (i.active h.guard) srcs t 0 rd → exec ins s = .next (act i s t (i.active h.guard) rd)
  kills : ∀ (s t : State) (i : Issue) (died : Mask) (rd : Rd), s.Ready i → i.active h.guard ≠ 0 → ready s i →
    died ≠ 0 → s.Reads i (i.active h.guard) srcs t died rd →
    exec ins s = .next
      (act i s (t.kill i.ref.team i.ref.warp died) (i.active h.guard &&& ~~~died) rd).reapAll

/-- A word that delivers results to d waits first for room in a queue that d names (R194, R196). -/
structure Delivers (ins : Instr) (h : Head) (srcs : List Opd) (d : Opd)
    (act : Issue → State → State → Mask → Rd → State) : Prop where
  full : ∀ (s : State) (i : Issue) (q : Nat), s.Ready i → i.active h.guard ≠ 0 → i.pushWait d = some q →
    exec ins s = .next (s.waitAt i (.push q false))
  delivers : WordActs ins h srcs (fun _ i => i.pushWait d = none) act

/-- A word computes f in each active lane and delivers the values of width w to d (R250, R252). -/
def Computes (ins : Instr) (h : Head) (srcs : List Opd) (d : Opd) (w : Issue → Nat)
    (f : Issue → Mask → Rd → Nat → Word) : Prop :=
  Delivers ins h srcs d fun i _ t m rd => (t.deliver i m d (w i) (laneVals m (f i m rd))).advance i h.mark

/-- A word computes f in each active lane and makes the truth of it an outstanding predicate result (R250, R252). -/
def Decides (ins : Instr) (h : Head) (srcs : List Opd) (p : BitVec 3) (f : Issue → Mask → Rd → Nat → Bool) :
    Prop :=
  WordActs ins h srcs (fun _ _ => True) fun i _ t m rd => (t.results i (predWrites p m (f i m rd))).advance i h.mark

end Sys2Proof.Machine
end

