-- ==== Sys2Proof/Spec.lean ====
section
/-! DEFINITION. What the statements say words compute, in bit vectors of the operand width and in whole numbers: the
right-hand sides of the spec's tables, written apart from the model's own arithmetic. -/

namespace Sys2Proof.Machine

/-! Integer words (R251, R264 to R271) -/

/-- The bits of source k in a lane, at the width of a type. -/
def Rd.val (rd : Rd) (t : Ty) (k l : Nat) : BitVec (Ty.w t) := BitVec.ofNat _ (rd k l (Ty.w t)).toNat

/-- A result of a type as a register of a slice holds it (R251). -/
def regOf (sl : Slice) (t : Ty) {n : Nat} (v : BitVec n) : Word :=
  match sl with
  | .c => v.setWidth 64
  | .a => if Ty.signed t then v.signExtend 64 else v.setWidth 64

/-- A word computes bits of its type in each active lane. -/
def ComputesBits (ins : Instr) (h : Head) (srcs : List Opd) (d : Opd) (t : Ty)
    (f : Issue → Rd → Nat → BitVec (Ty.w t)) : Prop :=
  Computes ins h srcs d (fun _ => Ty.w t) fun i _ rd l => regOf i.ref.slice t (f i rd l)

/-- A number of a type: two's complement for `.i`, unsigned for `.z`. -/
def numOf (t : Ty) {n : Nat} (v : BitVec n) : Int := if Ty.signed t then v.toInt else (v.toNat : Int)

/-- The least and the greatest number of a type (R265). -/
def leastOf (t : Ty) : Int := if Ty.signed t then -2 ^ (Ty.w t - 1) else 0
def greatestOf (t : Ty) : Int := if Ty.signed t then 2 ^ (Ty.w t - 1) - 1 else 2 ^ Ty.w t - 1

/-- A number brought into the range of a type under `.sat`, and otherwise wrapped. -/
def fit (t : Ty) (sat : Bool) (z : Int) : BitVec (Ty.w t) :=
  BitVec.ofInt _ (if sat then (if z < leastOf t then leastOf t else if greatestOf t < z then greatestOf t else z) else z)

/-- The high half of the exact product. -/
def highHalf (t : Ty) {n : Nat} (x y : BitVec n) : BitVec n :=
  if Ty.signed t then (x.signExtend (2 * n) * y.signExtend (2 * n)).extractLsb' n n
  else (x.setWidth (2 * n) * y.setWidth (2 * n)).extractLsb' n n

/-- The table of R265. -/
def quotient (t : Ty) {n : Nat} (x y : BitVec n) : BitVec n :=
  if y = 0#n then BitVec.allOnes n else if Ty.signed t then x.sdiv y else x.udiv y
def remainder (t : Ty) {n : Nat} (x y : BitVec n) : BitVec n :=
  if y = 0#n then x else if Ty.signed t then x.srem y else x.umod y

/-- x stands before y in the order of a type. -/
def less (t : Ty) {n : Nat} (x y : BitVec n) : Bool := if Ty.signed t then x.slt y else x.ult y

/-- The shifts of R266 by an unsigned count of any size. -/
def leftBy {n : Nat} (x : BitVec n) (count : Nat) : BitVec n := if n ≤ count then 0#n else x <<< count
def rightBy (t : Ty) {n : Nat} (x : BitVec n) (count : Nat) : BitVec n :=
  if Ty.signed t then (if n ≤ count then (if x.msb then BitVec.allOnes n else 0#n) else x.sshiftRight count)
  else if n ≤ count then 0#n else x >>> count

/-- The field of R267: its position and its length. -/
def fieldAt (n : Nat) (desc : BitVec n) : Nat × Nat :=
  ((desc.extractLsb' 0 8).toNat, min ((desc.extractLsb' 0 8).toNat + (desc.extractLsb' 8 8).toNat) n -
    (desc.extractLsb' 0 8).toNat)

/-- `bfe` (R267): an empty field, one above the top or one of length 0, gives 0. -/
def field (t : Ty) {n : Nat} (x desc : BitVec n) : BitVec n :=
  if Ty.signed t then (x.extractLsb' (fieldAt n desc).1 (fieldAt n desc).2).signExtend n
  else (x.extractLsb' (fieldAt n desc).1 (fieldAt n desc).2).setWidth n

/-- `bfi` (R267): the field's bits of x give way to the lowest bits of y. -/
def inserted {n : Nat} (x y desc : BitVec n) : BitVec n :=
  let mask := (BitVec.allOnes (fieldAt n desc).2).setWidth n <<< (fieldAt n desc).1
  (x &&& ~~~mask) ||| ((y <<< (fieldAt n desc).1) &&& mask)

/-- A condition of R270. -/
def meets (t : Ty) (cc : BitVec 3) {n : Nat} (x y : BitVec n) : Bool :=
  match cc with
  | 0 => x == y
  | 1 => x != y
  | 2 => less t x y
  | 3 => !less t y x
  | 4 => less t y x
  | _ => !less t x y

/-- An immediate of the I layout at the width of a type (R268). -/
def immBits (t : Ty) (imm : BitVec 26) : BitVec (Ty.w t) := imm.signExtend _

/-- `movhi` in its two forms (R268). -/
def withHigh (t : Ty) (hi52 : Bool) (imm : BitVec 26) (x : BitVec (Ty.w t)) : BitVec (Ty.w t) :=
  if hi52 then (x.extractLsb' 0 52).setWidth _ ||| (imm.setWidth _ <<< 52)
  else (x.extractLsb' 0 26).setWidth _ ||| (imm.setWidth _ <<< 26)

/-- The index of `lea` at 64 bits (R269). -/
def indexOf (t : Ty) (v : BitVec (Ty.w t)) : Word := if Ty.signed t then v.signExtend 64 else v.setWidth 64

/-! Private pointers (R24, R26 to R29) -/

/-- The global alias P + t × S + o of a private pointer for a thread number; none when the pointer is not private or
its offset is S or more. -/
def aliasFor (tm : Team) (x : Word) (thread : Nat) : Option Word :=
  if x.extractLsb' 60 4 = 0xA#4 ∧ (x.extractLsb' 0 60).toNat < tm.privSize
  then some (tm.privBase + BitVec.ofNat 64 (thread * tm.privSize) + (x.extractLsb' 0 60).setWidth 64) else none

/-! Special registers (R272) -/

/-- What `sr.get` reads of a register in a lane, by the table of R272. -/
def registerValue (s : State) (i : Issue) (lane : Nat) (n : SReg) : Word :=
  match n with
  | .lane => BitVec.ofNat 64 lane
  | .warp => BitVec.ofNat 64 i.ref.warp
  | .teamX => BitVec.ofNat 64 i.tm.x
  | .teamY => BitVec.ofNat 64 i.tm.y
  | .teamZ => BitVec.ofNat 64 i.tm.z
  | .stage => BitVec.ofNat 64 i.wp.stage
  | .split => BitVec.ofNat 64 i.sp.num
  | .core => BitVec.ofNat 64 i.tm.core
  | .die => BitVec.ofNat 64 (i.tm.core / 16)
  | .quarter => BitVec.ofNat 64 i.wp.quarter
  | .deadmask => i.wp.dead.setWidth 64
  | .hb => BitVec.ofNat 64 (tget s.time.hb (i.tm.core / 16) 0)
  | .clk => BitVec.ofNat 64 (tget s.time.clk (i.tm.core / 16) 0)
  | .slip => i.wp.slip.setWidth 64
  | .node => i.tm.node
  | .gridX => BitVec.ofNat 64 i.tm.gx
  | .gridY => BitVec.ofNat 64 i.tm.gy
  | .gridZ => BitVec.ofNat 64 i.tm.gz
  | .nwarp => BitVec.ofNat 64 i.tm.nwarps
  | .link => i.sp.link

/-- The width at which `sr.get` and `sr.set` take a register: the A-slice's registers have 64 bits (R273, R274). -/
def srWidth (sl : Slice) (n : SReg) : Nat :=
  match sl with
  | .a => 64
  | .c => if n = .hb ∨ n = .clk ∨ n = .node ∨ n = .link then 64 else 32

/-- A value that `$slip` accepts (R196): four nibbles of 1 to 8 and zeros above. -/
def slipLegal (v : Word) : Bool :=
  decide (v.toNat < 65536) &&
    (List.range 4).all fun k => decide (1 ≤ v.toNat / 16 ^ k % 16 ∧ v.toNat / 16 ^ k % 16 ≤ 8)

/-! Cross-lane words (R275 to R279) -/

/-- The lane that a shuffle reads for lane l with delta e in segments of w lanes; none when it is not valid (R276). -/
def idxLane (w l e : Nat) : Option Nat := some (l / w * w + e % w)
def upLane (w l e : Nat) : Option Nat := if e < w ∧ e ≤ l % w then some (l - e) else none
def downLane (w l e : Nat) : Option Nat := if e < w ∧ l % w + e < w then some (l + e) else none
def xorLane (w l e : Nat) : Option Nat := some (l / w * w + (l % w ^^^ e % w))

/-- A shuffle's word: in each lane the value of the source lane, 0 of a dead one, and its own where none is valid. -/
def Shuffles (ins : Instr) (h : Head) (t : Ty) (seg : BitVec 3) (d a b : Opd) (pd : Option (BitVec 3))
    (lane : Nat → Nat → Nat → Option Nat) : Prop :=
  Delivers ins h [a, b] d fun i _ s m rd =>
    let dead := i.wp.dead ||| (i.active h.guard &&& ~~~m)
    let from_ (l : Nat) : Option Nat := lane (32 / 2 ^ seg.toNat) l (rd 1 l 32).toNat
    let val (l : Nat) : BitVec (Ty.w t) :=
      match from_ l with
      | none => rd.val t 0 l
      | some j => if dead.getLsbD j || ((Opd.queue? a).isSome && !m.getLsbD j) then 0 else rd.val t 0 j
    (s.deliverDead i m d (Ty.w t) (laneVals m fun l => regOf i.ref.slice t (val l)) pd
      fun l => (from_ l).any fun j => dead.getLsbD j).advance i h.mark

/-- One combination of R278. -/
def combined (t : Ty) (op : BitVec 3) {n : Nat} (x y : BitVec n) : BitVec n :=
  match op with
  | 0 => x + y
  | 1 => if less t y x then y else x
  | 2 => if less t x y then y else x
  | 3 => x &&& y
  | 4 => x ||| y
  | _ => x ^^^ y

/-- The identities of R278. -/
def unitOf (t : Ty) (op : BitVec 3) : BitVec (Ty.w t) :=
  match op with
  | 1 => BitVec.ofInt _ (greatestOf t)
  | 2 => BitVec.ofInt _ (leastOf t)
  | 3 => BitVec.allOnes _
  | _ => 0

/-- The combination over some of the lanes, ascending. -/
def combination (t : Ty) (op : BitVec 3) (m : Mask) (v : Nat → BitVec (Ty.w t)) (p : Nat → Bool) : BitVec (Ty.w t) :=
  ((lanesOf m).filter p).foldl (fun acc l => combined t op acc (v l)) (unitOf t op)

/-- A mask given lane by lane. -/
def maskBy (p : Nat → Bool) : Mask := BitVec.ofBoolListLE ((List.range 32).map p)

/-! Floating-point words (R293, R297 to R301) -/

/-- The first exception, in the order NV, DZ, OF, UF, NX, that the format register enables a trap for and that some
lane raised: its subcode, and the lanes that raised it (R293). -/
def trapOf (fmt : BitVec 32) (rs : List (Nat × Word × Fl)) : Option (Nat × Mask) :=
  (List.range 5).findSome? fun k =>
    let lanes := maskBy fun l => rs.any fun r => r.1 == l && r.2.2.getLsbD (4 - k)
    if fmt.getLsbD (12 - k) && lanes != 0 then some (0x40 + k, lanes) else none

/-- A word whose active lanes each compute a value and its exceptions: under an enabled exception the word takes
FP_TRAP with nothing written, popped or drawn and only its flags kept; otherwise its results and its flags become
outstanding, and `draws` draws are made in each lane (R289, R293). -/
def FloatActs (ins : Instr) (h : Head) (srcs : List Opd) (draws : Issue → Nat)
    (mk : Issue → List (Nat × Word) → List Write) (f : Issue → Mask → Rd → Nat → Nat × Fl) : Prop :=
  WordActs ins h srcs (fun _ _ => True) fun i s t m rd =>
    let rs := (lanesOf m).map fun l => (l, BitVec.ofNat 64 (f i m rd l).1, (f i m rd l).2)
    match trapOf i.sp.fmt rs with
    | some (sub, lanes) =>
      (s.modSlice i.ref.team i.ref.warp i.ref.slice fun x => (flagWrites rs).foldl SliceState.put x).raiseAt i
        { Trap.ofWord i 8 sub (lanes.setWidth 64) with lanes := lanes }
    | none =>
      ((t.modSlice i.ref.team i.ref.warp i.ref.slice (·.drew m (draws i))).results i
        (mk i (rs.map fun r => (r.1, r.2.1)) ++ flagWrites rs)).advance i h.mark

/-- A word with register results of width w that draws nothing. -/
def FloatComputes (ins : Instr) (h : Head) (srcs : List Opd) (d : Opd) (w : Nat)
    (f : Issue → Rd → Nat → Nat × Fl) : Prop :=
  FloatActs ins h srcs (fun _ => 0) (fun i => regResult i d w) fun i _ rd l => f i rd l

/-- The bits of a source of a floating type: 16 of a 16-bit type (R297). -/
def Rd.bits (rd : Rd) (t : Ty) (k l : Nat) : Nat :=
  if t = .f16 ∨ t = .bf16 then (rd k l 32).toNat % 65536 else (rd k l (Ty.w t)).toNat

/-- The value of a source. -/
def Rd.float (rd : Rd) (t : Ty) (k l : Nat) : Val := (Ty.fmt t).val (Rd.bits rd t k l)

/-- Element 0 or 1 of a pair in a source (R297). -/
def Rd.half (rd : Rd) (t : Ty) (k l e : Nat) : Val := (Ty.fmt t).val ((rd k l 32).toNat / 65536 ^ e % 65536)

/-- Two elements and the exceptions of both. -/
def both (x y : Nat × Fl) : Nat × Fl := (x.1 + 65536 * y.1, x.2 ||| y.2)

/-- The bits of a type's sign, in both elements of a pair. -/
def signMask (t : Ty) : Nat :=
  match t with
  | .f16 | .bf16 => 0x8000
  | .f16x2 | .bf16x2 => 0x80008000
  | .f64 => 0x8000000000000000
  | _ => 0x80000000

/-- The mode of an arithmetic word (R297). -/
def modeOf (i : Issue) (rm : BitVec 3) : Nat :=
  if rm = 4 then (if i.sp.fmt.extractLsb' 15 3 = 4#3 then 0 else (i.sp.fmt.extractLsb' 15 3).toNat) else rm.toNat

/-- The number that a finite value is. -/
def ratOf : Val → Rat
  | .fin neg m e => (if neg then -1 else 1) * (m : Rat) * (2 : Rat) ^ e
  | _ => 0

/-- The order of the values that are no NaN: infinities stand beyond every finite one. -/
def before (x y : Val) : Prop :=
  match x, y with
  | .inf a, .inf b => a = true ∧ b = false
  | .inf a, _ => a = true
  | _, .inf b => b = false
  | x, y => ratOf x < ratOf y

/-- The mode of a conversion, STOCH included (R302). -/
def convOf (i : Issue) (rm : BitVec 3) : Nat := if rm = 4 then (i.sp.fmt.extractLsb' 15 3).toNat else rm.toNat

/-- One draw for each of n elements under STOCH (R289). -/
def stochDraws (mode n : Nat) : Nat := if mode = 4 then n else 0

/-- Four bytes, the first lowest. -/
def bytes4 (f : Nat → BitVec 8) : BitVec 32 := f 3 ++ f 2 ++ f 1 ++ f 0

/-! Words with an access (R132, R133, R313, R315) -/

/-- A word with an access: with no active lane it moves on; what stands before the access in the stream's order, or
the want of room in a queue, makes it wait; and otherwise the access of its active lanes is launched. -/
def Asks (ins : Instr) (h : Head) (a : Ask) (lanes : Issue → Mask → Lanes) (idle : Issue → State → State) : Prop :=
  ∀ (s : State) (i : Issue), s.Ready i →
    (i.active h.guard = 0 → exec ins s = .next ((idle i s).advance i h.mark)) ∧
    (i.active h.guard ≠ 0 → ∀ t w, s.mayAccess i a = (t, some w) → exec ins s = .next (t.waitAt i w)) ∧
    (i.active h.guard ≠ 0 → ∀ t, s.mayAccess i a = (t, none) →
      exec ins s = .next ((t.launch i a (i.active h.guard) (lanes i (i.active h.guard))).advance i h.mark))

/-- The operands of lanes: address, data and comparand of each. -/
def operands (addr : Issue → Nat → Word) (data comp : Issue → Nat → List Byte) (i : Issue) (m : Mask) : Lanes :=
  (lanesOf m).map fun l => (l, addr i l, data i l, comp i l)

/-- A register of the A-slice. -/
def regA (o : Opd) (i : Issue) (l : Nat) : Word := i.sl.read i.ref.slice l 64 o

/-- The low bytes of a register for a type, or of a pair for `.z128` (R315). -/
def lowBytes (t : Ty) (o : Opd) (i : Issue) (l : Nat) : List Byte :=
  if t = .z128 then leBytes 8 (regA o i l).toNat ++ leBytes 8 (regA (Opd.next o) i l).toNat
  else leBytes (Ty.bytes t) (regA o i l).toNat

/-- No bytes. -/
def nothing (_ : Issue) (_ : Nat) : List Byte := []

/-- A load at a scope: scope 0 is plain, and any other acquires (R133). -/
def loading (op : AccOp) (t : Ty) (sc : Scope) (dst : Dst) : Ask :=
  { op := op, ty := t, acq := decide (sc ≠ .none), rel := false, scope := sc, dst := dst, ctr := none,
    after := [] }

/-- A store at a scope: scope 0 is plain, and any other releases. -/
def storing (t : Ty) (sc : Scope) : Ask :=
  { op := .store, ty := t, acq := false, rel := decide (sc ≠ .none), scope := sc, dst := .none, ctr := none,
    after := [] }

/-- An access that reads and writes at home, with its order. -/
def changing (op : AccOp) (t : Ty) (sc : Scope) (od : Ordering) (dst : Dst) : Ask :=
  { op := op, ty := t, acq := decide (od = .acq ∨ od = .ar), rel := decide (od = .rel ∨ od = .ar), scope := sc,
    dst := dst, ctr := none, after := [] }

/-- A reduction; scope 0 means .pkg (R312). -/
def reducing (op : BitVec 3) (near : Bool) (t : Ty) (rel : Bool) (sc : Scope) (ctr : Option Nat) : Ask :=
  { op := .red op near, ty := t, acq := false, rel := rel, scope := if sc = .none then .pkg else sc, dst := .none,
    ctr := ctr, after := [] }

/-- The destination of a fetched value: a queue's new entry or a register. -/
def destOf (d : Opd) : Dst :=
  match d with
  | .f n => .queue n.toNat 0
  | .sa => .queue 4 0
  | d => .reg d

/-- A queue store: it pops `sa` and its data with the split's whole mask, and makes its access in the active lanes, after
the accesses that precede the push of the address; with none, a named counter counts at once (R140, R313, R317). -/
def PopsAndAsks (ins : Instr) (h : Head) (a : Ask) (d : Opd) : Prop :=
  ∀ (s : State) (i : Issue), s.Ready i → i.sp.mask ≠ 0 →
    let m := i.active h.guard
    (m ≠ 0 → ∀ t w, s.mayAccess i a = (t, some w) → exec ins s = .next (t.waitAt i w)) ∧
    ∀ t, (if m = 0 then t = s else s.mayAccess i a = (t, none)) →
      (∀ q, i.wp.pops i.sp.mask (queuesOf [.sa, d]) = .wait q → exec ins s = .next (t.waitAt i (.pop q i.sp.mask))) ∧
      (∀ f, i.wp.pops i.sp.mask (queuesOf [.sa, d]) = .fault f →
        exec ins s = .next (t.raiseAt i (Trap.ofPop i f))) ∧
      ∀ u died rd, t.Reads i i.sp.mask [.sa, d] u died rd →
        let lanes := (lanesOf (i.sp.mask &&& ~~~died &&& m)).map fun l =>
          (l, rd 0 l 64, leBytes (Ty.bytes a.ty) (rd 1 l (if Ty.bytes a.ty = 8 then 64 else 32)).toNat, [])
        let act (u : State) : State :=
          if i.sp.mask &&& ~~~died &&& m = 0 then
            (match a.ctr with
              | some ck => u.modSlice i.ref.team i.ref.warp i.ref.slice (·.count ck)
              | none => u).advance i h.mark
          else (u.launch i { a with after := i.addressAfter } (i.sp.mask &&& ~~~died &&& m) lanes).advance i h.mark
        exec ins s = .next (if died = 0 then act u else (act (u.kill i.ref.team i.ref.warp died)).reapAll)

/-! Engine commands (R340 to R343) -/

/-- A register named by the coding of DST: 0 to 31 a0 to a31, 32 to 47 s0 to s15 (R340). -/
def cmdReg (c : BitVec 6) (i : Issue) (l : Nat) : Word :=
  if c.toNat < 32 then regA (.r (c.setWidth 7)) i l else regA (.s ((c - 32).setWidth 5)) i l

/-- The command of a word as it enters its queue, with the operands of lane l. -/
def commandOf (s : State) (i : Issue) (l : Nat) (kind : CmdKind) (rec_ : List Word) (dst src src2 : Word)
    (slot : Option (BitVec 4)) (sc : Scope) (tkind : BitVec 2) (index : BitVec 5) : Command :=
  { id := s.fresh, team := i.ref.team, warp := i.ref.warp, split := i.ref.split, pc := i.sp.pc, kind := kind,
    dst := dst, src := src, src2 := src2, lane := l, shape := rec_, slot := slot.map BitVec.toNat, verdict := some true,
    scope := sc, tkind := tkind.toNat, tindex := index.toNat, phase := 0, fmt := i.sp.fmt, st := .queued, error := none,
    reg := none, mask := 0, result := none, status := none, after := s.cmdAfter i, te := none, passed := 0, gotA := [],
    gotB := [], gotOdd := [], reply := none, stamp := s.stamp (dieOf i.tm.core), acks := [], pieces := [] }

/-- A command word whose shape record has been read: a record that the command cannot take traps with the word; with no
active lane nothing happens; and otherwise the lowest active lane's command enters its queue (R340 to R342, R347). -/
def Queues (ins : Instr) (h : Head) (use : ShapeUse) (c : Cmd) (kind : CmdKind)
    (ops : Issue → Nat → Word × Word × Word) : Prop :=
  ∀ (s t : State) (i : Issue) (bs : List Byte), s.Ready i →
    s.code ⟨i.tm.core, i.tm.ctx, i.ref, false⟩ (i.tm.shapeAddr i.wp.stage c.shape.toNat) 32 6 = (t, .ok bs) →
    let t := t.forget i.tm.core (.word i.ref)
    let r := (List.range 4).map fun j => leWord ((bs.drop (8 * j)).take 8)
    (shapeOk use r = false → exec ins s = .next (t.decodeTrap i 4 0x37 (encode ins))) ∧
    (shapeOk use r = true →
      (lowLane (i.active h.guard) = none → exec ins s = .next (t.advance i h.mark)) ∧
      ∀ l, lowLane (i.active h.guard) = some l → exec ins s = .next (t.enqueue i h.mark
        (commandOf t i l kind r (ops i l).1 (ops i l).2.1 (ops i l).2.2 c.slot c.scope c.kind c.index)))

/-- A span word: its lowest active lane gives the address and the length; it waits for the range walks it needs, and traps on
the first fault. -/
def Spans (ins : Instr) (h : Head) (need : Need) (a : Opd) (len : Issue → Nat → Nat)
    (act : Issue → State → List Piece → State) : Prop :=
  ∀ (s : State) (i : Issue), s.Ready i →
    (lowLane (i.active h.guard) = none → exec ins s = .next (s.advance i h.mark)) ∧
    ∀ l, lowLane (i.active h.guard) = some l →
      (len i l = 0 → exec ins s = .next (s.advance i h.mark)) ∧
      (len i l ≠ 0 →
        ∀ t r, s.wordSpan i need l (regA a i l) (len i l) (len i l) [] = (t, r) → exec ins s = .next (match r with
          | .walk => t.waitAt i .translation
          | .fault f v => t.raiseAt i { Trap.ofWord i f.1 f.2 0 with addr := v }
          | .ok ps => act i (t.forget i.tm.core (.word i.ref)) ps))

/-! Short pairs (R246) -/

/-- What a half of a short pair computes from its two sources: the full instruction of the table of R246. -/
def halfOf (op : ShortOp) (x y : BitVec 32) : BitVec 32 × Fl :=
  let float (f : Val → Val → Nat × Fl) : BitVec 32 × Fl :=
    let r := f (Fmt.f32.val x.toNat) (Fmt.f32.val y.toNat)
    (BitVec.ofNat 32 r.1, r.2)
  let pick (t : Ty) (greater : Bool) : BitVec 32 × Fl :=
    (if (if greater then less t x y else less t y x) then y else x, 0)
  let extreme (greater : Bool) : BitVec 32 × Fl :=
    let r := Fmt.f32.minmax greater x.toNat y.toNat
    (BitVec.ofNat 32 r.1, r.2)
  match op with
  | .nop => (0, 0)
  | .add | .addI => (x + y, 0)
  | .sub => (x - y, 0)
  | .mul | .mulI => (x * y, 0)
  | .min => pick .i32 false
  | .max => pick .i32 true
  | .minu => pick .z32 false
  | .maxu => pick .z32 true
  | .movI => (y, 0)
  | .mov => (x, 0)
  | .and | .andI => (x &&& y, 0)
  | .or | .orI => (x ||| y, 0)
  | .xor | .xorI => (x ^^^ y, 0)
  | .shl | .shlI => (leftBy x y.toNat, 0)
  | .shr | .shrI => (rightBy .z32 x y.toNat, 0)
  | .sarI => (rightBy .i32 x y.toNat, 0)
  | .fadd => float fun a b => Fmt.f32.add 0 a b
  | .fsub => float fun a b => Fmt.f32.add 0 a b.neg
  | .fmul => float fun a b => Fmt.f32.mul 0 a b
  | .fmin => extreme false
  | .fmax => extreme true

/-- A half in a lane: a is a vector register, b a register or the sign-extended immediate. -/
def halfIn (i : Issue) (x : Half) (l : Nat) : BitVec 32 × Fl :=
  halfOf x.op ((i.sl.read .c l 32 (.r x.a)).setWidth 32) (match x.b with
    | .reg o => (i.sl.read .c l 32 o).setWidth 32
    | .imm v => v.signExtend 32)

/-- The results of a half: none of a nop half. -/
def halfResults (i : Issue) (x : Half) : List Write :=
  if x.op = .nop then []
  else (lanesOf i.sp.mask).map fun l => .vec x.d.toNat l ((halfIn i x l).1.setWidth 64)

/-! Messages (R103, R104) -/

/-- The message m, when it is the oldest of its pair, is taken from the network and acted on. -/
def Receives (ins : Nat → Instr) (kind : Body → Prop) (act : State → Msg → State) : Prop :=
  ∀ (s : State) (m : Nat) (x : Msg), s.deliverable m = some x → kind x.body → exec (ins m) s = .next (act (s.take m) x)

/-! Mailboxes (R422 to R425) -/

/-- Headland takes up the request q of a mailbox that has rung and whose turn has come: its SEQ is not the DONESEQ, what the
command waits for is done, and all that reading it and giving the answer touch is ready. `u` is the state once the ring is
forgotten. -/
def AskedWhen (s u : State) (m : Nat) (q : Request) (before : State → Request → State × Bool) (a : State → MbxAnswer) : Prop :=
  let quiet (t : State) : State :=
    { t with head := { t.head with wakes := tset t.head.wakes m (tget t.head.wakes m 0 &&& ~~~1#64), lastMbx := m } }
  (∀ x ∈ s.head.answered, x.mbx ≠ m) ∧ m ≤ 64 ∧ (tget s.head.wakes m 0).getLsbD 0 = true ∧ s.mbxTurn m = true ∧
  (m = 64 ∨ s.mbxAddr m ≠ 0) ∧ (s.pull m (s.mbxAddr m) 80).2 = true ∧
  ∃ r t b v, s.agentAsk 3397 (64 + m) (s.mbxTouch m (s.mbxAddr m) 80 true) = (r, true) ∧
    r.mbxRead m (s.mbxAddr m) 80 = some (t, b) ∧
    q = ⟨leNat (b.take 4), leNat ((b.drop 8).take 2), (b.drop 16).take 48, leWord ((b.drop 64).take 8),
      leNat ((b.drop 72).take 4)⟩ ∧
    q.seq ≠ leNat ((b.drop 4).take 4) ∧
    before t q = (v, true) ∧ (v.pull m q.buf (if q.cmd = 16 then q.buflen else 0)).2 = true ∧
    ∃ w, v.agentAsk 3397 (64 + m) (v.answerTouches m q (a (quiet v))) = (w, true) ∧ u = quiet w

/-- The same of a command that waits for nothing. -/
def Asked (s u : State) (m : Nat) (q : Request) (a : State → MbxAnswer) : Prop := AskedWhen s u m q (fun t _ => (t, true)) a

end Sys2Proof.Machine
end

