-- ==== Sys2Proof/Certificates/Slice0/Obligations.lean ====
section
/-! DEFINITION. The statements. -/

open Sys2Proof Sys2Proof.Machine

/-! Integer words -/

/-- R264, R265: the arithmetic words of two and three sources, wrapped or clamped; division and remainder truncated
toward zero, and the lesser and the greater by signedness. -/
def Obligations.IntegerArithmetic : Prop :=
  (∀ (h : Head) (t : Ty) (sat : Bool) (d a b c : Opd) (imm : BitVec 26), t.isInt4 = true →
      ComputesBits (.add h t sat d a b) h [a, b] d t (fun _ rd l => fit t sat (numOf t (rd.val t 0 l) + numOf t (rd.val t 1 l))) ∧
      ComputesBits (.addImm h t sat d a imm) h [a] d t (fun _ rd l => fit t sat (numOf t (rd.val t 0 l) + numOf t (immBits t imm))) ∧
      ComputesBits (.sub h t sat d a b) h [a, b] d t (fun _ rd l => fit t sat (numOf t (rd.val t 0 l) - numOf t (rd.val t 1 l))) ∧
      ComputesBits (.mul h t d a b) h [a, b] d t (fun _ rd l => rd.val t 0 l * rd.val t 1 l) ∧
      ComputesBits (.mulImm h t d a imm) h [a] d t (fun _ rd l => rd.val t 0 l * immBits t imm) ∧
      ComputesBits (.mulhi h t d a b) h [a, b] d t (fun _ rd l => highHalf t (rd.val t 0 l) (rd.val t 1 l)) ∧
      ComputesBits (.mad h t d a b c) h [a, b, c] d t (fun _ rd l => rd.val t 0 l * rd.val t 1 l + rd.val t 2 l) ∧
      ComputesBits (.abs h t sat d a) h [a] d t (fun _ rd l => fit t sat (numOf t (rd.val t 0 l)).natAbs) ∧
      ComputesBits (.neg h t sat d a) h [a] d t (fun _ rd l => fit t sat (-numOf t (rd.val t 0 l))) ∧
      ComputesBits (.sad h t d a b c) h [a, b, c] d t (fun _ rd l =>
        (if less t (rd.val t 0 l) (rd.val t 1 l) then rd.val t 1 l - rd.val t 0 l else rd.val t 0 l - rd.val t 1 l) +
          rd.val t 2 l)) ∧
  ∀ (h : Head) (t : Ty) (d a b : Opd), t.isInt4 = true →
    ComputesBits (.div h t d a b) h [a, b] d t (fun _ rd l => quotient t (rd.val t 0 l) (rd.val t 1 l)) ∧
    ComputesBits (.rem h t d a b) h [a, b] d t (fun _ rd l => remainder t (rd.val t 0 l) (rd.val t 1 l)) ∧
    ComputesBits (.min h t d a b) h [a, b] d t (fun _ rd l =>
      if less t (rd.val t 1 l) (rd.val t 0 l) then rd.val t 1 l else rd.val t 0 l) ∧
    ComputesBits (.max h t d a b) h [a, b] d t (fun _ rd l =>
      if less t (rd.val t 0 l) (rd.val t 1 l) then rd.val t 1 l else rd.val t 0 l)

/-- R264, R268, R269: moves, bitwise logic and `lea`. -/
def Obligations.MovesAndLogic : Prop :=
  ∀ (h : Head) (t : Ty) (hi52 : Bool) (s : BitVec 3) (d a b : Opd) (imm : BitVec 26), t.isInt4 = true →
    ComputesBits (.mov h t d a) h [a] d t (fun _ rd l => rd.val t 0 l) ∧
    ComputesBits (.movImm h t d imm) h [] d t (fun _ _ _ => immBits t imm) ∧
    (movhiImm t hi52 imm = true → (hi52 = true → Ty.w t = 64) →
      ComputesBits (.movhi h t hi52 d a imm) h [a] d t (fun _ rd l => withHigh t hi52 imm (rd.val t 0 l))) ∧
    ComputesBits (.and h t d a b) h [a, b] d t (fun _ rd l => rd.val t 0 l &&& rd.val t 1 l) ∧
    ComputesBits (.andImm h t d a imm) h [a] d t (fun _ rd l => rd.val t 0 l &&& immBits t imm) ∧
    ComputesBits (.or h t d a b) h [a, b] d t (fun _ rd l => rd.val t 0 l ||| rd.val t 1 l) ∧
    ComputesBits (.orImm h t d a imm) h [a] d t (fun _ rd l => rd.val t 0 l ||| immBits t imm) ∧
    ComputesBits (.xor h t d a b) h [a, b] d t (fun _ rd l => rd.val t 0 l ^^^ rd.val t 1 l) ∧
    ComputesBits (.xorImm h t d a imm) h [a] d t (fun _ rd l => rd.val t 0 l ^^^ immBits t imm) ∧
    ComputesBits (.not h t d a) h [a] d t (fun _ rd l => ~~~rd.val t 0 l) ∧
    Computes (.lea h t s d a b) h [a, b] d (fun _ => 64) (fun _ _ rd l =>
      rd 0 l 64 + indexOf t (rd.val t 1 l) * 2 ^ s.toNat)

/-- R264, R266, R267: shifts by any count, rotation, bit counts, and bit fields. -/
def Obligations.ShiftsAndBits : Prop :=
  ∀ (h : Head) (t : Ty) (d a b c : Opd) (imm : BitVec 26), t.isInt4 = true →
    ComputesBits (.shl h t d a b) h [a, b] d t (fun _ rd l => leftBy (rd.val t 0 l) (rd.val t 1 l).toNat) ∧
    ComputesBits (.shlImm h t d a imm) h [a] d t (fun _ rd l => leftBy (rd.val t 0 l) imm.toNat) ∧
    ComputesBits (.shr h t d a b) h [a, b] d t (fun _ rd l => rightBy t (rd.val t 0 l) (rd.val t 1 l).toNat) ∧
    ComputesBits (.shrImm h t d a imm) h [a] d t (fun _ rd l => rightBy t (rd.val t 0 l) imm.toNat) ∧
    ComputesBits (.rot h t d a b) h [a, b] d t (fun _ rd l => (rd.val t 0 l).rotateLeft (rd.val t 1 l).toNat) ∧
    ComputesBits (.popc h t d a) h [a] d t (fun _ rd l => (rd.val t 0 l).cpop) ∧
    ComputesBits (.clz h t d a) h [a] d t (fun _ rd l => (rd.val t 0 l).clz) ∧
    ComputesBits (.brev h t d a) h [a] d t (fun _ rd l => (rd.val t 0 l).reverse) ∧
    ComputesBits (.bfe h t d a b) h [a, b] d t (fun _ rd l => field t (rd.val t 0 l) (rd.val t 1 l)) ∧
    ComputesBits (.bfi h t d a b c) h [a, b, c] d t (fun _ rd l =>
      inserted (rd.val t 0 l) (rd.val t 1 l) (rd.val t 2 l))

/-- R270, R271: comparisons, selection and predicate logic; p7 reads true. -/
def Obligations.ComparesAndPredicates : Prop :=
  ∀ (h : Head) (t : Ty) (cc dp ap bp : BitVec 3) (d a b : Opd) (imm : BitVec 26),
    (t.isInt4 = true → cc.toNat < 6 →
      Decides (.cmp h t cc dp a b) h [a, b] dp (fun _ _ rd l => meets t cc (rd.val t 0 l) (rd.val t 1 l)) ∧
      Decides (.cmpImm h t cc dp a imm) h [a] dp (fun _ _ rd l => meets t cc (rd.val t 0 l) (immBits t imm))) ∧
    (t.isInt4 = true ∨ t = .f32 ∨ t = .f64 →
      ComputesBits (.sel h t d a b ap) h [a, b] d t (fun i rd l =>
        if i.sl.pred ap.toNat l then rd.val t 0 l else rd.val t 1 l)) ∧
    Decides (.pand h dp ap bp) h [] dp (fun i _ _ l => i.sl.pred ap.toNat l && i.sl.pred bp.toNat l) ∧
    Decides (.por h dp ap bp) h [] dp (fun i _ _ l => i.sl.pred ap.toNat l || i.sl.pred bp.toNat l) ∧
    Decides (.pxor h dp ap bp) h [] dp (fun i _ _ l => i.sl.pred ap.toNat l ^^ i.sl.pred bp.toNat l) ∧
    Decides (.pnot h dp ap) h [] dp (fun i _ _ l => !i.sl.pred ap.toNat l) ∧
    ∀ (x : SliceState) (l : Nat), x.pred 7 l = true

/-- R26, R29: `lea.priv` of another thread and of the own one: every active lane gets the alias, or no lane does and
the lanes with a bad pointer or thread number take RANGE_FAULT(PRIVATE). R272 to R274: `sr.get` gives every active
lane the register's value, and `sr.set` writes `$slip` on the A-slice and `$link`, from the lowest active lane, and
raises SR_FAULT for any other register. (The reading rests on log entry 7.) -/
def Obligations.SpecialRegisters : Prop :=
  (∀ (h : Head) (d a b : Opd) (s : State) (i : Issue), s.Ready i → i.ref.slice = .a → i.active h.guard ≠ 0 →
      let x (l : Nat) : Word := i.sl.read .a l 64 a
      let goal (ins : Instr) (al : Nat → Option Word) : Prop :=
        ((∀ l, (i.active h.guard).getLsbD l = true → (al l).isSome = true) →
          exec ins s = .next ((s.deliver i (i.active h.guard) d 64
            (laneVals (i.active h.guard) fun l => (al l).getD 0)).advance i h.mark)) ∧
        (∀ low bad, bad = maskBy (fun l => (i.active h.guard).getLsbD l && (al l).isNone) → lowLane bad = some low →
          exec ins s = .next (s.raiseAt i { Trap.ofWord i 1 0x08 0 with lanes := bad, addr := x low }))
      goal (.leaPriv h d a b) (fun l =>
        if (i.sl.read .a l 64 b).toNat < 32 * i.tm.nwarps * (i.tm.gx * i.tm.gy * i.tm.gz)
        then aliasFor i.tm (x l) (i.sl.read .a l 64 b).toNat else none) ∧
      goal (.leaPrivSelf h d a) (fun l => aliasFor i.tm (x l) (i.tm.thread i.ref.warp l))) ∧
  ∀ (h : Head) (d a : Opd) (n : SReg),
    (∀ (s : State) (i : Issue), s.Ready i → i.active h.guard ≠ 0 → i.pushWait d = none →
      let s' := if n = .clk then s.tickClk (i.tm.core / 16) else s
      exec (.srGet h d n) s = .next ((s'.deliver i (i.active h.guard) d (srWidth i.ref.slice n)
        (laneVals (i.active h.guard) fun l => registerValue s' i l n)).advance i h.mark)) ∧
    WordActs (.srSet h n a) h [a] (fun _ _ => True) fun i s t m rd =>
      match lowLane m with
      | none => t.advance i h.mark
      | some l =>
        let v := rd 0 l (srWidth i.ref.slice n)
        if n = .link then (t.modIssuer i fun sp => { sp with link := v }).advance i h.mark
        else if n = .slip ∧ i.ref.slice = .a ∧ slipLegal v = true then
          (t.modWarp i.ref.team i.ref.warp fun w => { w with slip := v.setWidth 32 }).advance i h.mark
        else s.decodeTrap i 6 0x39 0

/-! Cross-lane words -/

/-- R276: the four shuffles. R277 to R279: votes, scans, the reduction over a warp, election and matching. (The
reading rests on log entry 36.) -/
def Obligations.ShufflesVotesScans : Prop :=
  (∀ (h : Head) (t : Ty) (seg : BitVec 3) (d a b : Opd) (pd : Option (BitVec 3)), t.isInt4 = true → seg.toNat < 5 →
      Machine.Shuffles (.shflIdx h t seg d a b pd) h t seg d a b pd idxLane ∧
      Machine.Shuffles (.shflUp h t seg d a b pd) h t seg d a b pd upLane ∧
      Machine.Shuffles (.shflDown h t seg d a b pd) h t seg d a b pd downLane ∧
      Machine.Shuffles (.shflXor h t seg d a b pd) h t seg d a b pd xorLane) ∧
  ∀ (h : Head) (t : Ty) (op dp ap : BitVec 3) (d a : Opd), t.isInt4 = true → op.toNat < 6 →
    Decides (.voteAny h dp ap) h [] dp (fun i m _ _ => (lanesOf m).any fun j => i.sl.pred ap.toNat j) ∧
    Decides (.voteAll h dp ap) h [] dp (fun i m _ _ => (lanesOf m).all fun j => i.sl.pred ap.toNat j) ∧
    Computes (.voteBallot h d ap) h [] d (fun _ => 32) (fun i m _ _ =>
      (maskBy fun j => m.getLsbD j && i.sl.pred ap.toNat j).setWidth 64) ∧
    Computes (.scan h t op d a) h [a] d (fun _ => Ty.w t) (fun i m rd l =>
      regOf i.ref.slice t (combination t op m (fun k => rd.val t 0 k) fun k => k ≤ l)) ∧
    Computes (.scanEx h t op d a) h [a] d (fun _ => Ty.w t) (fun i m rd l =>
      regOf i.ref.slice t (combination t op m (fun k => rd.val t 0 k) fun k => k < l)) ∧
    Computes (.wred h t op d a) h [a] d (fun _ => Ty.w t) (fun i m rd _ =>
      regOf i.ref.slice t (combination t op m (fun k => rd.val t 0 k) fun _ => true)) ∧
    Decides (.elect h dp) h [] dp (fun _ m _ l => (List.range l).all fun j => !m.getLsbD j) ∧
    Computes (.matchLanes h t d a) h [a] d (fun _ => 32) (fun _ m rd l =>
      (maskBy fun j => m.getLsbD j && rd.val t 0 j == rd.val t 0 l).setWidth 64)

/-- R280, R281: `xch` that issues without SHARE or a partner team raises RANGE_FAULT(PEER), and one that waits already
goes on waiting; the first of a pair waits with its offer recorded; the second completes both, each side taking the
values that the other read. (The reading rests on log entry 38.) -/
def Obligations.ClusterExchange : Prop :=
  ∀ (h : Head) (t : Ty) (m : BitVec 2) (d a : Opd) (pd : Option (BitVec 3)) (s : State) (i : Issue), s.Ready i →
    let o : Offer := ⟨m.toNat, i.ref.split, i.active h.guard, h.mark, t, d, a, pd⟩
    ((i.tm.share = false ∨ s.peer? i.tm (i.tm.core % 4 ^^^ m.toNat) = none) →
      (i.sp.wait ≠ .exchange m.toNat → exec (.xch h t m d a pd) s = .next (s.decodeTrap i 1 0x07 0)) ∧
      (i.sp.wait = .exchange m.toNat → exec (.xch h t m d a pd) s = .next s)) ∧
    ∀ pt w es died, i.tm.share = true → s.peer? i.tm (i.tm.core % 4 ^^^ m.toNat) = some pt → i.pushWait d = none →
      i.wp.pops (i.active h.guard) (if i.active h.guard = 0 then [] else (Opd.queue? a).toList) = .ok w es died →
      let theirs := (((s.team? pt).bind fun tm => tget? tm.warps i.ref.warp).bind fun w =>
        (w.slice i.ref.slice).offer? m.toNat)
      (theirs = none → exec (.xch h t m d a pd) s = .next
        ((s.modSlice i.ref.team i.ref.warp i.ref.slice fun x =>
          if x.offers.any fun z => z.split == i.ref.split then x else { x with offers := x.offers ++ [o] }).waitAt i
          (.exchange m.toNat))) ∧
      ∀ po j s1 s2 x y, theirs = some po → i.sl.offer? m.toNat = none →
        s.issue? ⟨pt, i.ref.warp, i.ref.slice, po.split⟩ = some j → j.pushWait po.d = none →
        s.side i.ref o.mask t a = some (s1, x) →
        s1.side ⟨pt, i.ref.warp, i.ref.slice, po.split⟩ po.mask po.ty po.a = some (s2, y) →
        exec (.xch h t m d a pd) s = .next ((s2.sideDone x y o).sideDone y x po).reapAll

/-! Control flow -/

/-- R231, R239, R254, R258, R261 to R263: the words that only move their split, and calls and returns, which trap with
ALIGN_FAULT on an address that is no multiple of 8. (The reading rests on log entry 39.) -/
def Obligations.ControlTransfers : Prop :=
  ∀ (mark : Bool) (rc : BitVec 14) (tgt : BitVec 26) (a : Opd) (s : State) (i : Issue), s.Ready i →
    let target := i.sp.pc + tgt.signExtend 64 * 8
    let goes (ins : Instr) (addr link : Word) : Prop :=
      (addr.toNat % 8 = 0 →
        exec ins s = .next ((s.modSplit i.ref fun sp => { sp with link := link }).advanceTo i mark addr)) ∧
      (addr.toNat % 8 ≠ 0 → exec ins s = .next (s.raiseAt i { Trap.ofWord i 2 0x10 0 with addr := addr }))
    exec (.nop mark) s = .next (s.advanceTo i mark (i.sp.pc + 8)) ∧
    exec (.join mark) s = .next (s.advanceTo i mark (i.sp.recon.getD (i.sp.pc + 8))) ∧
    exec (.br ⟨mark, ⟨false, 7⟩⟩ rc tgt) s = .next (s.advanceTo i mark target) ∧
    goes (.call mark tgt) target (i.sp.pc + 8) ∧
    goes (.ret mark) i.sp.link i.sp.link ∧
    goes (.brInd mark a) (i.sl.read i.ref.slice 0 64 a) i.sp.link ∧
    goes (.callInd mark a) (i.sl.read i.ref.slice 0 64 a) (i.sp.pc + 8) ∧
    exec (.yield mark) s = .next ((s.advanceTo i mark (i.sp.pc + 8)).passFavour
      ⟨i.tm.core, i.wp.quarter, i.ref.slice, some i.ref, false⟩) ∧
    exec (.splitYield mark) s = .next ((s.advanceTo i mark (i.sp.pc + 8)).passFavour
      ⟨i.tm.core, i.wp.quarter, i.ref.slice, some i.ref, true⟩)

/-- R193, R194, R254, R255, R257: the branches that decide and those that follow. A deciding branch waits while its
queue is full and pushes its outcome; a following one waits for an outcome and pops it; either trap with
SPLIT_OVERFLOW before any queue changes when the divergence finds no stack entry. -/
def Obligations.DivergingBranches : Prop :=
  ∀ (h : Head) (dropT dropF : BitVec 5) (rc : BitVec 14) (tgt : BitVec 26) (s : State) (i : Issue), s.Ready i →
    let target := i.sp.pc + tgt.signExtend 64 * 8
    let recon := i.sp.pc + rc.signExtend 64 * 8
    let tooMany (t : Mask) : Prop := t ≠ 0 ∧ t ≠ i.sp.mask ∧
      32 < i.sl.stack.length + 1 + (if ([0, 1, 2, 3].all fun n => i.sl.splits.any (·.num == n)) then 1 else 0)
    let sent (w : State) (mark : Bool) (t : Mask) : State :=
      if t = i.sp.mask then w.advanceTo i mark target
      else if t = 0 then w.advanceTo i mark (i.sp.pc + 8)
      else w.diverge i mark target recon t
    let change (f : Warp → Warp) : State := s.modWarp i.ref.team i.ref.warp f
    let t := i.active h.guard
    (h.guard ≠ ⟨false, 7⟩ →
      (i.wp.c.ended = false → 16 ≤ i.wp.boq.length →
        exec (.br h rc tgt) s = .next (s.waitAt i (.push 5 false))) ∧
      ((i.wp.c.ended = true ∨ i.wp.boq.length < 16) → tooMany t →
        exec (.br h rc tgt) s = .next (s.decodeTrap i 7 0x3A 0)) ∧
      ((i.wp.c.ended = true ∨ i.wp.boq.length < 16) → ¬tooMany t →
        exec (.br h rc tgt) s = .next (sent (change fun w =>
          if w.c.ended then w else { w with boq := w.boq ++ [⟨i.sp.mask, w.pushed, t⟩], pushed := w.pushed + 1 }) h.mark t))) ∧
    (i.wp.a.ended = false → 8 ≤ i.wp.back.length →
      exec (.brB h dropT dropF rc tgt) s = .next (s.waitAt i (.push 6 false))) ∧
    ((i.wp.a.ended = true ∨ i.wp.back.length < 8) → tooMany t →
      exec (.brB h dropT dropF rc tgt) s = .next (s.decodeTrap i 7 0x3A 0)) ∧
    ((i.wp.a.ended = true ∨ i.wp.back.length < 8) → ¬tooMany t →
      exec (.brB h dropT dropF rc tgt) s = .next (sent (change fun w =>
        (if w.a.ended then w
          else { w with back := w.back ++ [⟨i.sp.mask, i.sl.dropLimit i.sp.mask, t⟩] }).dropSides
            (i.sl.dropLimit i.sp.mask) dropT dropF i.sp.mask t) h.mark t)) ∧
    (findOutcome i.wp.boq i.sp.mask = none →
      exec (.brQ h.mark dropT dropF rc tgt) s = .next (s.waitAt i (.pop 5 i.sp.mask))) ∧
    (findOutcome i.wp.back i.sp.mask = none →
      exec (.brBack h.mark dropT dropF rc tgt) s = .next (s.waitAt i (.pop 6 i.sp.mask))) ∧
    (∀ e, findOutcome i.wp.boq i.sp.mask = some e →
      (tooMany (i.sp.mask &&& e.taken) →
        exec (.brQ h.mark dropT dropF rc tgt) s = .next (s.decodeTrap i 7 0x3A 0)) ∧
      (¬tooMany (i.sp.mask &&& e.taken) →
        exec (.brQ h.mark dropT dropF rc tgt) s = .next (sent (change fun w =>
          ({ w with boq := takeOutcome w.boq i.sp.mask, c := w.c.popped i.sp.mask e.num } : Warp).dropSides e.num dropT
            dropF i.sp.mask (i.sp.mask &&& e.taken)) h.mark (i.sp.mask &&& e.taken)))) ∧
    ∀ e, findOutcome i.wp.back i.sp.mask = some e →
      (tooMany (i.sp.mask &&& e.taken) →
        exec (.brBack h.mark dropT dropF rc tgt) s = .next (s.decodeTrap i 7 0x3A 0)) ∧
      (¬tooMany (i.sp.mask &&& e.taken) →
        exec (.brBack h.mark dropT dropF rc tgt) s = .next (sent (change fun w =>
          ({ w with back := takeOutcome w.back i.sp.mask } : Warp).dropSides e.num dropT dropF i.sp.mask
            (i.sp.mask &&& e.taken)) h.mark (i.sp.mask &&& e.taken)))

/-- R193: a drop set takes lanes out of the entries that are old enough, and frees those left without lanes. R204,
R205, R206, R259: a slice whose one split diverges comes to hold the split of the lanes that fall through, the new
split of the others with the lowest free number, and the join entry; and when both have reached the reconvergence
address they merge into one split of the whole mask there, with the format and the reconvergence address that the
entry saved and the link of the lowest lane; an exchange that a split waits in goes with its split. (The reading rests
on log entry 31.) -/
def Obligations.DivergeAndMerge : Prop :=
  (∀ (limit : Nat) (m : Mask) (q : List QEntry),
      (∀ e ∈ dropUpTo limit q m, e.tag ≠ 0 ∧ ∃ e' ∈ q, e.id = e'.id ∧ e.stamp = e'.stamp ∧ e.vals = e'.vals ∧
        e.tag = if e'.stamp ≤ limit then e'.tag &&& ~~~m else e'.tag) ∧
      ∀ e' ∈ q, (if e'.stamp ≤ limit then e'.tag &&& ~~~m else e'.tag) ≠ 0 → ∃ e ∈ dropUpTo limit q m,
        e.id = e'.id ∧ e.tag = if e'.stamp ≤ limit then e'.tag &&& ~~~m else e'.tag) ∧
  ∀ (x : SliceState) (live m t : Mask) (pc target recon link0 link1 : Word) (fmt fmt0 fmt1 : BitVec 32)
      (fe0 fe1 : List (Word × Word)), m &&& live = m → m &&& t ≠ 0 → m &&& ~~~t ≠ 0 → x.parked = [] →
    let offers := x.offers.filter fun o => o.split == 0 || o.split == 1
    (pc ≠ recon → target ≠ recon →
      let f : Split := ⟨0, pc, m &&& ~~~t, some recon, fmt, link0, [], false, none, .none, none⟩
      let y : SliceState := { x with splits := [f], stack := [.join recon m none fmt] }
      (y.start target (m &&& t) (some recon) fmt link0 false).settle live =
        { y with
          splits := [f, ⟨1, target, m &&& t, some recon, fmt, link0, [], false, none, .none, none⟩]
          offers := offers }) ∧
    ({ x with
        splits := [⟨0, recon, m &&& ~~~t, some recon, fmt0, link0, fe0, false, none, .none, none⟩,
          ⟨1, recon, m &&& t, some recon, fmt1, link1, fe1, false, none, .none, none⟩]
        stack := [.join recon m none fmt] } : SliceState).settle live =
      { x with
        splits := [⟨0, recon, m, none, fmt,
          if (lowLane m).any fun l => t.getLsbD l then link1 else link0, [], false, none, .none, none⟩]
        stack := []
        offers := offers }

/-- R208, R260, R263: `exit` takes its active lanes out of the stream and the others go on at PC + 8; `trap` raises
USER_TRAP with its code; either does nothing with no active lane. -/
def Obligations.ExitAndTrap : Prop :=
  ∀ (h : Head) (code : BitVec 16) (s : State) (i : Issue), s.Ready i →
    let m := i.active h.guard
    (m = 0 → exec (.exit h) s = .next (s.advanceTo i h.mark (i.sp.pc + 8)) ∧
      exec (.trap h code) s = .next (s.advanceTo i h.mark (i.sp.pc + 8))) ∧
    (m ≠ 0 → exec (.trap h code) s = .next (s.raiseAt i (Trap.ofWord i 9 0x48 (code.setWidth 64)))) ∧
    (m ≠ 0 →
      let left := s.modSlice i.ref.team i.ref.warp i.ref.slice fun x =>
        ({ x with exited := x.exited ||| m } : SliceState).modSplit i.ref.split fun sp =>
          { sp with mask := sp.mask &&& ~~~m }
      exec (.exit h) s = .next ((if m = i.sp.mask then (left.counted i.ref).settle i.ref.team i.ref.warp i.ref.slice
        else left.advanceTo i h.mark (i.sp.pc + 8)).closed i.ref.team i.ref.warp))

/-! Floating-point words -/

/-- R297 to R299: the words that compute and round, with FP_TRAP and its flags (R293). (The reading rests on log entry
40.) -/
def Obligations.FloatArithmetic : Prop :=
  ∀ (h : Head) (t : Ty) (rm : BitVec 3) (d a b c : Opd),
    (t.isFloat = true →
      FloatComputes (.fadd h t rm d a b) h [a, b] d (Ty.w t) (fun i rd l =>
        (Ty.fmt t).add (modeOf i rm) (Rd.float rd t 0 l) (Rd.float rd t 1 l)) ∧
      FloatComputes (.fsub h t rm d a b) h [a, b] d (Ty.w t) (fun i rd l =>
        (Ty.fmt t).add (modeOf i rm) (Rd.float rd t 0 l) (Rd.float rd t 1 l).neg) ∧
      FloatComputes (.fmul h t rm d a b) h [a, b] d (Ty.w t) (fun i rd l =>
        (Ty.fmt t).mul (modeOf i rm) (Rd.float rd t 0 l) (Rd.float rd t 1 l)) ∧
      FloatComputes (.ffma h t rm d a b c) h [a, b, c] d (Ty.w t) (fun i rd l =>
        (Ty.fmt t).fma (modeOf i rm) (Rd.float rd t 0 l) (Rd.float rd t 1 l) (Rd.float rd t 2 l)) ∧
      FloatComputes (.fdiv h t rm d a b) h [a, b] d (Ty.w t) (fun i rd l =>
        (Ty.fmt t).div (modeOf i rm) (Rd.float rd t 0 l) (Rd.float rd t 1 l)) ∧
      FloatComputes (.fsqrt h t rm d a) h [a] d (Ty.w t) (fun i rd l =>
        (Ty.fmt t).sqrt (modeOf i rm) (Rd.float rd t 0 l)) ∧
      FloatComputes (.frnd h t rm d a) h [a] d (Ty.w t) (fun i rd l =>
        (Ty.fmt t).rint (modeOf i rm) (Rd.float rd t 0 l)) ∧
      FloatComputes (.fscale h t rm d a b) h [a, b] d (Ty.w t) (fun i rd l =>
        (Ty.fmt t).scale (modeOf i rm) (Rd.float rd t 0 l) ((rd 1 l 32).setWidth 32).toInt)) ∧
    (t.isPair = true →
      FloatComputes (.fdot2 h t rm d a b c) h [a, b, c] d 32 (fun i rd l =>
        Fmt.f32.sumOf (modeOf i rm) [mulVal (Rd.half rd t 0 l 0) (Rd.half rd t 1 l 0),
          mulVal (Rd.half rd t 0 l 1) (Rd.half rd t 1 l 1), (Fmt.f32.val (rd 2 l 32).toNat, false)]) ∧
      FloatComputes (.hadd2 h t rm d a b) h [a, b] d 32 (fun i rd l =>
        both ((Ty.fmt t).add (modeOf i rm) (Rd.half rd t 0 l 0) (Rd.half rd t 1 l 0))
          ((Ty.fmt t).add (modeOf i rm) (Rd.half rd t 0 l 1) (Rd.half rd t 1 l 1))) ∧
      FloatComputes (.hmul2 h t rm d a b) h [a, b] d 32 (fun i rd l =>
        both ((Ty.fmt t).mul (modeOf i rm) (Rd.half rd t 0 l 0) (Rd.half rd t 1 l 0))
          ((Ty.fmt t).mul (modeOf i rm) (Rd.half rd t 0 l 1) (Rd.half rd t 1 l 1))) ∧
      FloatComputes (.hfma2 h t rm d a b c) h [a, b, c] d 32 (fun i rd l =>
        both ((Ty.fmt t).fma (modeOf i rm) (Rd.half rd t 0 l 0) (Rd.half rd t 1 l 0) (Rd.half rd t 2 l 0))
          ((Ty.fmt t).fma (modeOf i rm) (Rd.half rd t 0 l 1) (Rd.half rd t 1 l 1) (Rd.half rd t 2 l 1))))

/-- R299, R300: minima and maxima, sign operations on the bits, comparisons and classes. -/
def Obligations.FloatComparisons : Prop :=
  ∀ (h : Head) (t : Ty) (cc dp : BitVec 3) (d a b : Opd),
    (t.isFloat = true →
      FloatComputes (.fmin h t d a b) h [a, b] d (Ty.w t) (fun _ rd l =>
        (Ty.fmt t).minmax false (Rd.bits rd t 0 l) (Rd.bits rd t 1 l)) ∧
      FloatComputes (.fmax h t d a b) h [a, b] d (Ty.w t) (fun _ rd l =>
        (Ty.fmt t).minmax true (Rd.bits rd t 0 l) (Rd.bits rd t 1 l)) ∧
      FloatComputes (.fclass h t d a) h [a] d 32 (fun _ rd l => ((Ty.fmt t).class (Rd.bits rd t 0 l), 0)) ∧
      FloatActs (.fcmp h t cc dp a b) h [a, b] (fun _ => 0) (fun _ => predResult dp) (fun _ _ rd l =>
        (if (fcond cc (Rd.float rd t 0 l) (Rd.float rd t 1 l)).1 then 1 else 0,
          (fcond cc (Rd.float rd t 0 l) (Rd.float rd t 1 l)).2))) ∧
    (t.isFloat = true ∨ t.isPair = true →
      FloatComputes (.fabs h t d a) h [a] d (Ty.w t) (fun _ rd l =>
        (Nat.land (Rd.bits rd t 0 l) (2 ^ Ty.w t - 1 - signMask t), 0)) ∧
      FloatComputes (.fneg h t d a) h [a] d (Ty.w t) (fun _ rd l => (Rd.bits rd t 0 l ^^^ signMask t, 0))) ∧
    ∀ (x y : Val), (x.isNan = false ∧ y.isNan = false →
        ((fcond 0 x y).1 = true ↔ ¬before x y ∧ ¬before y x) ∧ ((fcond 1 x y).1 = true ↔ before x y ∨ before y x) ∧
        ((fcond 2 x y).1 = true ↔ before x y) ∧ ((fcond 3 x y).1 = true ↔ ¬before y x) ∧
        ((fcond 4 x y).1 = true ↔ before y x) ∧ ((fcond 5 x y).1 = true ↔ ¬before x y) ∧
        (fcond 6 x y).1 = false ∧ (fcond 7 x y).1 = true) ∧
      (x.isNan = true ∨ y.isNan = true → (fcond cc x y).1 = decide (cc = 1 ∨ cc = 6)) ∧
      ((fcond cc x y).2 = if x.isSig ∨ y.isSig then flNV else 0)

/-- R287, R288: the units that a magnitude m × 2^e is rounded to, of 2^q each, in every mode. R298: NaN operands,
invalid operations, and division of a finite value by zero, in a format with infinities. -/
def Obligations.RoundingAndSpecialCases : Prop :=
  (∀ (r m : Nat) (neg : Bool) (e q : Int), r < 65536 →
      (q ≤ e → ∀ mode, roundUnits mode r neg m e q = (m * 2 ^ (e - q).toNat, false)) ∧
      (e < q →
        let u := 2 ^ (q - e).toNat
        (∀ mode, (roundUnits mode r neg m e q).2 = decide (m % u ≠ 0)) ∧
        (∀ k, k = (roundUnits 0 r neg m e q).1 → 2 * (k * u - m) ≤ u ∧ 2 * (m - k * u) ≤ u ∧
          (2 * (k * u - m) = u ∨ 2 * (m - k * u) = u → k % 2 = 0)) ∧
        (roundUnits 1 r neg m e q).1 = m / u ∧
        (roundUnits 2 r neg m e q).1 = (if neg then m / u else (m + u - 1) / u) ∧
        (roundUnits 3 r neg m e q).1 = (if neg then (m + u - 1) / u else m / u) ∧
        (roundUnits 4 r neg m e q).1 = m / u + (if 65536 ≤ m % u * 65536 / u + r then 1 else 0))) ∧
  ∀ (f : Fmt) (mode : Nat) (x y z : Val) (a b : Bool) (m : Nat) (e : Int),
    let nan (v : Bool) : Nat × Fl := (f.nanCode, if v then flNV else 0)
    (x.isNan = true ∨ y.isNan = true →
      f.add mode x y = nan (x.isSig || y.isSig) ∧ f.mul mode x y = nan (x.isSig || y.isSig) ∧
      f.div mode x y = nan (x.isSig || y.isSig)) ∧
    (x.isNan = true → f.sqrt mode x = nan x.isSig) ∧
    (x.isNan = true ∨ y.isNan = true ∨ z.isNan = true → (f.fma mode x y z).1 = f.nanCode) ∧
    f.add mode (.inf a) (.inf !a) = nan true ∧
    f.mul mode (.inf a) (.fin b 0 e) = nan true ∧ f.mul mode (.fin b 0 e) (.inf a) = nan true ∧
    f.fma mode (.inf a) (.fin b 0 e) z = nan true ∧
    f.div mode (.inf a) (.inf b) = nan true ∧ f.div mode (.fin a 0 e) (.fin b 0 e) = nan true ∧
    (m ≠ 0 → f.sqrt mode (.fin true m e) = nan true ∧
      f.div mode (.fin a m e) (.fin b 0 e) = (f.signBit (a != b) + f.infCode, flDZ))

/-- R299, R301: the functions with an error bound, and their special results. (The reading rests on log entry 10.) -/
def Obligations.BoundedFunctions : Prop :=
  ∀ (h : Head) (t : Ty) (d a : Opd),
    (t.isFloat = true →
      FloatComputes (.frcp h t d a) h [a] d (Ty.w t) (fun _ rd l =>
        (Ty.fmt t).rcp (Rd.bits rd t 0 l) (Rd.float rd t 0 l)) ∧
      FloatComputes (.frsqrt h t d a) h [a] d (Ty.w t) (fun _ rd l =>
        (Ty.fmt t).rsqrt (Rd.bits rd t 0 l) (Rd.float rd t 0 l))) ∧
    (t.isShortFloat = true →
      FloatComputes (.fexp2 h t d a) h [a] d (Ty.w t) (fun _ rd l =>
        (Ty.fmt t).exp2 (Rd.bits rd t 0 l) (Rd.float rd t 0 l)) ∧
      FloatComputes (.flog2 h t d a) h [a] d (Ty.w t) (fun _ rd l =>
        (Ty.fmt t).log2 (Rd.bits rd t 0 l) (Rd.float rd t 0 l)) ∧
      FloatComputes (.fsin h t d a) h [a] d (Ty.w t) (fun _ rd l =>
        (Ty.fmt t).trig (Rd.bits rd t 0 l) false (Rd.float rd t 0 l)) ∧
      FloatComputes (.fcos h t d a) h [a] d (Ty.w t) (fun _ rd l =>
        (Ty.fmt t).trig (Rd.bits rd t 0 l) true (Rd.float rd t 0 l)) ∧
      FloatComputes (.ftanh h t d a) h [a] d (Ty.w t) (fun _ rd l =>
        (Ty.fmt t).tanh (Rd.bits rd t 0 l) (Rd.float rd t 0 l))) ∧
    ∀ (f : Fmt) (x m : Nat) (neg : Bool) (e : Int),
      f.rcp x (.fin neg 0 e) = (f.signBit neg + f.infCode, flDZ) ∧ f.rcp x (.inf neg) = (f.signBit neg, 0) ∧
      f.rsqrt x (.fin neg 0 e) = (f.signBit neg + f.infCode, flDZ) ∧ f.rsqrt x (.inf false) = (0, 0) ∧
      f.exp2 x (.inf true) = (0, 0) ∧ f.exp2 x (.inf false) = (f.infCode, 0) ∧
      f.log2 x (.fin neg 0 e) = (f.signBit true + f.infCode, flDZ) ∧ f.log2 x (.inf false) = (f.infCode, 0) ∧
      (m ≠ 0 → f.rsqrt x (.fin true m e) = (f.nanCode, flNV) ∧ f.log2 x (.fin true m e) = (f.nanCode, flNV)) ∧
      (∀ c, f.trig x c (.inf neg) = (f.nanCode, flNV)) ∧ f.trig x false (.fin neg 0 e) = (f.signBit neg, 0) ∧
      f.tanh x (.inf neg) = f.put 0 0 neg 1 0 ∧ f.tanh x (.fin neg 0 e) = (f.signBit neg, 0)

/-- R289, R302 to R304: `cvt`, `cvt.pk` and `cvt.unpk`, with their draws under STOCH; and what `cvt` does between
integers and from a float to an integer. -/
def Obligations.Conversions : Prop :=
  (∀ (h : Head) (dt : Ty) (sr : BitVec 4) (rm fmt idx : BitVec 3) (isat hi : Bool) (d a b c : Opd),
    FloatActs (.cvt h dt sr rm isat d a) h [a] (fun i => stochDraws (convOf i rm) 1) (fun i => regResult i d (Ty.w dt))
      (fun i _ rd l => convert dt sr (convOf i rm) (i.sl.draw l 0) isat (rd 0 l (cvtSrcW sr)).toNat) ∧
    (fmt = 1 ∨ fmt = 2 →
      FloatActs (.cvtPk h fmt hi rm d a b c) h [a, b] (fun i => stochDraws (convOf i rm) 2) (fun i => regResult i d 32)
        (fun i _ rd l => both
          ((elemFmt fmt.toNat).convert (convOf i rm) (i.sl.draw l 0) (Fmt.f32.val (rd 0 l 32).toNat))
          ((elemFmt fmt.toNat).convert (convOf i rm) (i.sl.draw l 1) (Fmt.f32.val (rd 1 l 32).toNat)))) ∧
    (fmt = 3 ∨ fmt = 4 →
      FloatActs (.cvtPk h fmt hi rm d a b c) h [a, b, c] (fun i => stochDraws (convOf i rm) 2)
        (fun i => regResult i d 32) (fun i _ rd l =>
          let p := (elemFmt fmt.toNat).convert8 (i.sp.fmt.getLsbD 14) (convOf i rm) (i.sl.draw l 0)
            (Fmt.f32.val (rd 0 l 32).toNat)
          let q := (elemFmt fmt.toNat).convert8 (i.sp.fmt.getLsbD 14) (convOf i rm) (i.sl.draw l 1)
            (Fmt.f32.val (rd 1 l 32).toNat)
          let old := (rd 2 l 32).toNat
          (if hi then old % 65536 + 65536 * (p.1 + 256 * q.1) else old / 65536 * 65536 + (p.1 + 256 * q.1),
            p.2 ||| q.2))) ∧
    FloatComputes (.cvtUnpk h fmt idx d a) h [a] d 32 (fun _ rd l =>
      Fmt.f32.convert 0 0 ((elemFmt fmt.toNat).val (elemAt fmt idx.toNat (rd 0 l 32).toNat)))) ∧
  (∀ (dt sty : Ty) (code : BitVec 4) (mode r x : Nat), dt.isInt4 = true → Ty.ofCode code = sty → sty.isInt = true →
    convert dt code mode r false x = ((BitVec.ofInt (Ty.w dt) (Ty.int sty x)).toNat, 0) ∧
    convert dt code mode r true x = ((fit dt true (Ty.int sty x)).toNat, 0)) ∧
  ∀ (t : Ty) (mode r : Nat) (v : Val), t.isInt4 = true →
    let exact (neg : Bool) (m : Nat) (e : Int) : Int :=
      if neg then -((roundUnits mode r neg m e 0).1 : Int) else ((roundUnits mode r neg m e 0).1 : Int)
    floatToInt t mode r v =
      match v with
      | .nan _ => (0, flNV)
      | .inf neg => ((BitVec.ofInt (Ty.w t) (if neg then leastOf t else greatestOf t)).toNat, flNV)
      | .fin neg m e =>
        ((fit t true (exact neg m e)).toNat,
          if exact neg m e < leastOf t ∨ greatestOf t < exact neg m e then flNV
          else if (roundUnits mode r neg m e 0).2 then flNX else 0)

/-- R305 to R308: the expansions of the sub-byte formats, which keep the value, and the three words of an MX block. -/
def Obligations.SubByteAndMx : Prop :=
  (∀ (h : Head) (fmt : BitVec 3) (e3m2 sgn hi : Bool) (d a b : Opd),
    Computes (.cvtF6 h e3m2 d a) h [a] d (fun _ => 32) (fun _ _ rd l =>
      (bytes4 fun k => BitVec.ofNat 8 (f6ToE4m3 e3m2 ((rd 0 l 32).extractLsb' (6 * k) 6).toNat)).setWidth 64) ∧
    Computes (.cvtI4 h sgn hi d a) h [a] d (fun _ => 32) (fun _ _ rd l =>
      (bytes4 fun k => let n := (rd 0 l 32).extractLsb' (4 * ((if hi then 4 else 0) + k)) 4
        if sgn then n.signExtend 8 else n.setWidth 8).setWidth 64) ∧
    Computes (.mxScale h fmt d a) h [a] d (fun _ => 32) (fun _ m rd _ =>
      BitVec.ofNat 64 (mxScaleOf fmt ((lanesOf m).map fun l => Fmt.f32.val (rd 0 l 32).toNat))) ∧
    FloatActs (.mxPack h fmt d a b) h [a, b] (fun i => stochDraws (i.sp.fmt.extractLsb' 15 3).toNat 1)
      (fun i => regResult i d 32) (fun i m rd l =>
        let q (k : Nat) : Nat × Fl := mxQuant fmt (i.sp.fmt.extractLsb' 15 3).toNat (i.sl.draw k 0)
          ((rd 1 k 32).toNat % 256) (Fmt.f32.val (rd 0 k 32).toNat)
        let g := if fmt = 7 then 8 else 4
        let base := if fmt = 7 then 16 else 256
        (((List.range g).map fun k =>
          (if m.getLsbD (l / g * g + k) then (q (l / g * g + k)).1 else 0) * base ^ k).sum % 2 ^ 64, (q l).2)) ∧
    FloatComputes (.mxUnpk h fmt d a b) h [a, b] d 32 (fun _ rd l =>
      mxUnpack fmt l (rd 0 l 32).toNat ((rd 1 l 32).toNat % 256))) ∧
  (∀ (x : Nat), x < 64 → ∀ e3m2,
    ratOf (Fmt.e4m3.val (f6ToE4m3 e3m2 x)) = ratOf ((if e3m2 then Fmt.e3m2 else Fmt.e2m3).val x)) ∧
  ∀ (fmt : BitVec 3) (mode r sc lane : Nat) (v : Val) (neg : Bool),
    mxQuant fmt mode r 0xFF v = (if fmt = 7 then 0 else 0x7F, 0) ∧
    (sc ≠ 0xFF → (mxQuant fmt mode r sc (.nan neg)).2 = flNV) ∧
    (sc ≠ 0xFF → mxQuant fmt mode r sc (.inf neg) =
      ((elemFmt fmt.toNat).signBit neg + (elemFmt fmt.toNat).maxCode, flOFNX)) ∧
    mxUnpack fmt lane r 0xFF = (0x7FC00000, 0)

/-- R291, R294 to R296: the words of the format register, the flag word and the generators. -/
def Obligations.FormatWords : Prop :=
  ∀ (h : Head) (v : BitVec 20) (d a : Opd),
    (∀ (s : State) (i : Issue), s.Ready i →
      (i.active h.guard = 0 → exec (.fmtSetImm h v) s = .next (s.advance i h.mark)) ∧
      (i.active h.guard ≠ 0 → exec (.fmtSetImm h v) s =
        .next ((s.modIssuer i fun sp => { sp with fmt := v.setWidth 32 <<< 8 }).advance i h.mark))) ∧
    WordActs (.fmtSetReg h a) h [a] (fun _ _ => True) (fun i s t m rd =>
      match lowLane m with
      | none => t.advance i h.mark
      | some l =>
        if fmtValid ((rd 0 l 32).setWidth 32) then
          (t.modIssuer i fun sp => { sp with fmt := (rd 0 l 32).setWidth 32 }).advance i h.mark
        else s.decodeTrap i 6 0x39 0) ∧
    Computes (.fmtGet h d) h [] d (fun _ => 32) (fun i _ _ _ => i.sp.fmt.setWidth 64) ∧
    Computes (.fmtGetFlags h d) h [] d (fun _ => 32) (fun i _ _ _ => i.sl.flags.setWidth 64) ∧
    (∀ (s : State) (i : Issue), s.Ready i →
      (i.active h.guard = 0 → exec (.fmtGetFlagsClr h d) s = .next (s.advance i h.mark)) ∧
      (i.active h.guard ≠ 0 → ∀ q, i.pushWait d = some q →
        exec (.fmtGetFlagsClr h d) s = .next (s.waitAt i (.push q false))) ∧
      (i.active h.guard ≠ 0 → i.pushWait d = none → exec (.fmtGetFlagsClr h d) s =
        .next (((s.modSlice i.ref.team i.ref.warp i.ref.slice fun x => { x with flags := 0 }).deliver i
          (i.active h.guard) d 32 (laneVals (i.active h.guard) fun _ => i.sl.flags.setWidth 64)).advance i h.mark))) ∧
    WordActs (.fmtSeed h a) h [a] (fun _ _ => True) fun i _ t m rd =>
      (t.modSlice i.ref.team i.ref.warp i.ref.slice fun x => { x with
        gens := (lanesOf m).foldl (fun (g : Table (BitVec 32)) l =>
          tset g l (if (rd 0 l 32).setWidth 32 = 0#32 then 0x9E3779B9 else (rd 0 l 32).setWidth 32)) x.gens }).advance i
        h.mark

/-! Memory words -/

/-- R313, R315, R316, R318: loads, stores and prefetches in both address forms; `ldx` with no active lane counts. (The
reading rests on log entry 25.) -/
def Obligations.LoadsAndStores : Prop :=
  ∀ (h : Head) (t : Ty) (sc : Scope) (sh : BitVec 3) (ctr : BitVec 4) (l2 : Bool) (d a b : Opd) (imm : BitVec 26),
    let disp (i : Issue) (l : Nat) : Word := regA a i l + imm.signExtend 64
    let idx (i : Issue) (l : Nat) : Word := regA a i l + (regA b i l <<< sh.toNat)
    let same (_ : Issue) (s : State) : State := s
    Asks (.ld h t sc d a imm) h (loading .load t sc (destOf d)) (operands disp nothing nothing) same ∧
    Asks (.ldIdx h t sc sh d a b) h (loading .load t sc (destOf d)) (operands idx nothing nothing) same ∧
    Asks (.st h t sc d a imm) h (storing t sc) (operands disp (lowBytes t d) nothing) same ∧
    Asks (.stIdx h t sc sh d a b) h (storing t sc) (operands idx (lowBytes t d) nothing) same ∧
    Asks (.ldx h t ctr d a imm) h (loading .load t .none (.counter d ctr.toNat)) (operands disp nothing nothing)
      (fun i s => s.modSlice i.ref.team i.ref.warp i.ref.slice (·.count ctr.toNat)) ∧
    Asks (.ll h t sc d a imm) h (loading .ll t sc (destOf d)) (operands disp nothing nothing) same ∧
    Asks (.accLd h d a) h (loading .accLd .z64 .none (destOf d)) (operands (regA a) nothing nothing) same ∧
    ∀ (s : State) (i : Issue), s.Ready i →
      (i.active h.guard = 0 → exec (.pf h l2 a imm) s = .next (s.advance i h.mark)) ∧
      (i.active h.guard ≠ 0 → exec (.pf h l2 a imm) s = .next ((s.launch i
        { op := .prefetch l2, ty := .z8, acq := false, rel := false, scope := .none, dst := .none, ctr := none, after := [] }
        (i.active h.guard) (operands disp nothing nothing i (i.active h.guard))).advance i h.mark))

/-- R313, R317, R321, R323, R324, R326, R327: atomics, reductions, SC, and the queue stores of the C-slice. (The
reading rests on log entries 25 and 83.) -/
def Obligations.AtomicsAndQueueStores : Prop :=
  ∀ (h : Head) (t : Ty) (op : BitVec 3) (sc : Scope) (od : Sys2Proof.Ordering) (near rel ce : Bool) (ctr : BitVec 4)
      (d a b c : Opd) (pd : BitVec 3),
    let same (_ : Issue) (s : State) : State := s
    let count : Option Nat := if ce then some ctr.toNat else none
    Asks (.atom h t op sc od d a b) h (changing (.atom op) t sc od (destOf d))
      (operands (regA a) (lowBytes t b) nothing) same ∧
    Asks (.cas h t sc od d a b c) h (changing .cas t sc od (destOf d))
      (operands (regA a) (lowBytes t b) (lowBytes t c)) same ∧
    Asks (.sc h t sc od d a pd) h (changing .sc t sc od (.pred pd.toNat))
      (operands (regA a) (lowBytes t d) nothing) same ∧
    Asks (.red h t op near rel sc d a) h (reducing op near t rel sc none)
      (operands (regA a) (lowBytes t d) nothing) same ∧
    PopsAndAsks (.stq h t sc ce ctr d) h { storing t sc with ctr := count } d ∧
    PopsAndAsks (.redQ h t op near rel sc ce ctr d) h (reducing op near t rel sc count) d

/-- R132, R133, R316: what keeps an access from issuing. An earlier acquire that is not bound, or whose trap was raised, holds
everything back; a plain access to no queue waits for nothing else; a load into a queue needs room; a release narrower
than .cluster needs its stream's earlier loads bound and its other accesses sent; and a wider one needs every earlier
access bound and the team's gathered reductions flushed and complete; an access whose trap was raised is not complete
(R390). (The reading rests on log entries 25, 26, 83 and 98.) -/
def Obligations.AccessOrder : Prop :=
  ∀ (s : State) (i : Issue) (a : Ask),
    let earlier : List Flight := s.flights.filter fun e =>
      (match e.op with | some (.prefetch _) | none => false | some _ => true) && e.ofStream i.ref i.sp.mask
    let ended (e : Flight) : Prop := e.bound = true ∧ e.faulted = false
    let room : Prop := match a.dst with
      | .queue q _ => i.wp.loadWaits q = false
      | _ => True
    ((∃ e ∈ earlier, e.acq = true ∧ ¬ended e) → s.mayAccess i a = (s, some .order)) ∧
    ((∀ e ∈ earlier, e.acq = true → ended e) →
      (∀ q n, a.dst = .queue q n → i.wp.loadWaits q = true → s.mayAccess i a = (s, some (.push q true))) ∧
      (room → a.rel = false → s.mayAccess i a = (s, none)) ∧
      (room → a.rel = true → (a.scope = .warp ∨ a.scope = .team) →
        s.mayAccess i a = (s, if ∀ e ∈ earlier, e.faulted = false ∧ (if e.isLoad then e.bound else e.allSent) = true then none
          else some .order)) ∧
      (room → a.rel = true → (a.scope = .cluster ∨ a.scope = .die ∨ a.scope = .pkg ∨ a.scope = .sys) →
        let t := s.flushTeam i.ref.team
        s.mayAccess i a = (t, if (∀ e ∈ earlier, ended e) ∧ t.gathering i.ref.team = false then none
          else some .order)))

/-- R13, R133, R319, R320, R388: `wait.cnt` waits until its counter has reached the threshold modulo 2^32 and then
observes an error mark; `fence` waits as a release that makes no access does. (The reading rests on log entry 47.) -/
def Obligations.CountersAndFences : Prop :=
  ∀ (h : Head) (ctr : BitVec 4) (a : Option Opd) (imm : BitVec 26) (sc : Scope),
    WordActs (.waitCnt h ctr a imm) h a.toList (fun _ _ => True) (fun i s t m rd =>
      let theta : BitVec 32 :=
        (if a.isSome then (rd 0 ((lowLane m).getD 0) 32).setWidth 32 else 0) + imm.setWidth 32
      if (tget i.sl.counters ctr.toNat 0 - theta).toInt < 0 then s.waitAt i (.counter ctr.toNat theta)
      else match i.sl.marks.find? fun x => x.1 == ctr.toNat with
        | some x => (s.modSlice i.ref.team i.ref.warp i.ref.slice fun y => { y with marks := y.marks.erase x }).raiseAt i
            (Trap.ofMark i x.2)
        | none => t.advance i h.mark) ∧
    ∀ (s : State) (i : Issue), s.Ready i →
      (i.active h.guard = 0 → exec (.fence h sc) s = .next (s.advance i h.mark)) ∧
      (i.active h.guard ≠ 0 →
        (∀ t w, s.mayAccess i { storing .z8 sc with rel := true } = (t, some w) →
          exec (.fence h sc) s = .next (t.waitAt i w)) ∧
        ∀ t, s.mayAccess i { storing .z8 sc with rel := true } = (t, none) →
          exec (.fence h sc) s = .next ((t.fence_ i sc).advance i h.mark))

/-- R328, R329: a pass of `wait.addr`, made at the word's issue with the deadline $hb + timeout, unless a pass that
faulted has left one, or after a wake or the deadline: while a range walk or a home is awaited the pass is made again; a fault of a lane's location traps; when every
lane's value is read, the word ends if every condition holds or the deadline has come, and otherwise it sleeps. (The
reading rests on log entries 43 and 44.) -/
def Obligations.WaitAddr : Prop :=
  (∀ (h : Head) (t : Ty) (cc : BitVec 3) (sc : Scope) (dp : BitVec 3) (a b c : Opd) (s : State) (i : Issue),
    s.Ready i → (t = .z32 ∨ t = .i32 ∨ t = .z64 ∨ t = .i64) → cc.toNat < 6 →
    let m := i.active h.guard
    let hb := tget s.time.hb (i.tm.core / 16) 0
    (m = 0 → exec (.waitAddr h t cc sc dp a b c) s = .next (s.advance i h.mark)) ∧
    (m ≠ 0 → s.afterAcquires i = false → exec (.waitAddr h t cc sc dp a b c) s = .next (s.waitAt i .order)) ∧
    (∀ sc' d ls t', m ≠ 0 → s.afterAcquires i = true → i.sp.wait = .addr sc' d ls t' false → hb < d →
      exec (.waitAddr h t cc sc dp a b c) s = .next s) ∧
    ∀ deadline,
      ((∀ sc' d ls t' w, i.sp.wait ≠ .addr sc' d ls t' w) ∧
          deadline = i.sp.deadline.getD (hb + ((regA c i ((lowLane m).getD 0)).extractLsb' 0 32).toNat) ∨
        ∃ sc' ls t' w, i.sp.wait = .addr sc' deadline ls t' w ∧ (w = true ∨ deadline ≤ hb)) →
      m ≠ 0 → s.afterAcquires i = true →
      ∀ (u : State) (places : List (Nat × Watch)),
        (s.modSplit i.ref fun sp => { sp with deadline := some deadline }).watches i a (Ty.bytes t) m = (u, places) →
      let lines := u.watchedLines (Ty.bytes t) places
      let asleep (v : State) (woken : Bool) : State := v.waitAt i (.addr sc deadline lines.1 lines.2 woken)
      let after (v : State) : State := (v.unclaimWord i).forget i.tm.core (.word i.ref)
      let bad := places.filterMap fun l => match l.2 with
        | .fault f => some (l.1, f, regA a i l.1)
        | _ => none
      ((∃ l ∈ places, l.2 = .walk) → exec (.waitAddr h t cc sc dp a b c) s = .next (asleep u true)) ∧
      ((∀ l ∈ places, l.2 ≠ .walk) →
        (bad ≠ [] → exec (.waitAddr h t cc sc dp a b c) s = .next ((after u).raiseAt i (Trap.ofFaults i bad))) ∧
        (bad = [] → ∀ (v : State) (x : Nat → Nat),
          u.peeks i sc (Ty.bytes t) places = (v, (lanesOf m).map fun l => (l, .val (x l))) →
          let ok (l : Nat) : Bool := decide (l ∈ lanesOf m) &&
            meets t cc (BitVec.ofNat (Ty.w t) (x l)) ((regA b i l).setWidth (Ty.w t))
          ((∀ l ∈ lanesOf m, ok l = true) ∨ deadline ≤ tget (after v).time.hb (i.tm.core / 16) 0 →
            exec (.waitAddr h t cc sc dp a b c) s =
              .next (((after v).results i (predWrites dp m ok)).advance i h.mark).reapAll) ∧
          ((∃ l ∈ lanesOf m, ok l = false) → tget (after v).time.hb (i.tm.core / 16) 0 < deadline →
            exec (.waitAddr h t cc sc dp a b c) s = .next (asleep (after v) false).reapAll)) ∧
        (bad = [] → ∀ (v : State) (ps : List (Nat × Peek)), u.peeks i sc (Ty.bytes t) places = (v, ps) →
          (∀ l ∈ ps, ∀ f, l.2 ≠ .fault f) → (∃ l ∈ ps, l.2 = .wait) →
          exec (.waitAddr h t cc sc dp a b c) s = .next (asleep v true)))) ∧
  ∀ (s : State) (r : StreamRef), exec (.waitAddrWake r) s = .next (s.modSplit r fun sp => match sp.wait with
    | .addr sc d ls t _ => { sp with wait := .addr sc d ls t true }
    | _ => sp)

/-- R332, R333: how a rendezvous point counts. An arrival of lanes goes to the earlier of the two phases in which the
warp has not arrived; a phase completes when both counts are met, and the next one is judged at once; bytes that would
take a phase past EB are not credited. R330 to R334: the words of rendezvous points, with RV_FAULT for an index not
below NRV, for a second `rv.init`, for counts that cannot be, and for kept bytes beyond EB. (The reading rests on log
entries 23, 32 and 33.) -/
def Obligations.Rendezvous : Prop :=
  (∀ (r : Rv) (w : Nat) (m awaited : Mask) (n : Nat),
      (r.init = true → r.arr0 = r.ea → r.by0 = r.eb → r.fall = 0 → (r.arr1 ≠ r.ea ∨ r.by1 ≠ r.eb) →
        r.judge 4 = { r with
          p := r.p + 1, arr0 := r.arr1, by0 := r.by1, lanes0 := r.lanes1, in0 := r.in1, arr1 := 0, by1 := 0, lanes1 := []
          in1 := [] }) ∧
      (r.init = false ∨ r.arr0 ≠ r.ea ∨ r.by0 ≠ r.eb → r.judge 4 = r) ∧
      (r.in0.contains w = true → r.in1.contains w = true → r.arr w m awaited = none) ∧
      (r.init = true → r.eb < r.by0 + n → r.credit r.p n = none) ∧
      (r.init = true → r.by0 + n < r.eb → r.credit r.p n = some { r with by0 := r.by0 + n }) ∧
      (r.in0.contains w = false → r.init = true → r.ea ≠ r.arr0 + 1 →
        tget r.lanes0 w 0 ||| m ≠ 0 → within_ awaited (tget r.lanes0 w 0 ||| m) = true →
        tget r.lanes1 w 0 = 0 →
        r.arr w m awaited = some { r with
          lanes0 := tset r.lanes0 w (tget r.lanes0 w 0 ||| m), arr0 := r.arr0 + 1, in0 := w :: r.in0 })) ∧
  ∀ (h : Head) (rv : BitVec 5) (na : ImmOr 8) (nb n : ImmOr 16) (dp : BitVec 3),
    let exists_ (s : State) (i : Issue) : Prop := rv.toNat < i.tm.nrv ∧ s.behindGuard i.ref = false
    let point (i : Issue) : Rv := i.tm.rv rv.toNat
    let phase (m : Mask) (rd : Rd) : BitVec 32 := match n with
      | .imm v => v.setWidth 32
      | .reg _ => (rd 0 ((lowLane m).getD 0) 32).setWidth 32
    let complete (i : Issue) (ph : BitVec 32) : Bool := (point i).init && decide (0 ≤ ((point i).p - 1 - ph).toInt)
    (∀ (s : State) (i : Issue), s.Ready i → i.active h.guard ≠ 0 →
      ∀ ins, ins = .rvInit h rv na nb ∨ ins = .rvArr h rv ∨ ins = .rvWait h rv n ∨ ins = .rvTest h rv dp n →
        (i.tm.nrv ≤ rv.toNat → exec ins s = .next (s.decodeTrap i 10 0x50 (rv.setWidth 64))) ∧
        (rv.toNat < i.tm.nrv → s.behindGuard i.ref = true → exec ins s = .next (s.waitAt i .behind))) ∧
    WordActs (.rvInit h rv na nb) h (ImmOr.opd na ++ ImmOr.opd nb) exists_ (fun i s t m rd =>
      let ea := match na with
        | .imm v => v.toNat
        | .reg _ => (rd 0 ((lowLane m).getD 0) 32).toNat % 64
      let eb := match nb with
        | .imm v => v.toNat
        | .reg _ => (rd (ImmOr.opd na).length ((lowLane m).getD 0) 32).toNat
      if (point i).init = true then s.decodeTrap i 10 0x51 (rv.setWidth 64)
      else if (ea = 0 ∧ eb = 0) ∨ i.tm.nwarps < ea then s.decodeTrap i 10 0x52 (rv.setWidth 64)
      else if eb < (point i).by0 ∨ eb < (point i).by1 then s.decodeTrap i 10 0x53 (rv.setWidth 64)
      else (t.modTeam i.ref.team fun tm =>
        tm.setRv rv.toNat (({ tm.rv rv.toNat with init := true, ea := ea, eb := eb } : Rv).judge 4)).advance i h.mark) ∧
    WordActs (.rvArr h rv) h [] exists_ (fun i s _ m _ =>
      match (point i).arr i.ref.warp m i.wp.awaited with
      | none => s.waitAt i (.rendezvous rv.toNat none)
      | some r => (s.modTeam i.ref.team fun tm => tm.setRv rv.toNat r).advance i h.mark) ∧
    WordActs (.rvWait h rv n) h (ImmOr.opd n) exists_ (fun i s t m rd =>
      if complete i (phase m rd) then
        match s.observeRv i rv.toNat (phase m rd) with
        | some u => u
        | none => t.advance i h.mark
      else s.waitAt i (.rendezvous rv.toNat (some (phase m rd)))) ∧
    WordActs (.rvTest h rv dp n) h (ImmOr.opd n) exists_ fun i s t m rd =>
      match if complete i (phase m rd) then s.observeRv i rv.toNat (phase m rd) else none with
      | some u => u
      | none => (t.results i (predWrites dp m fun _ => complete i (phase m rd))).advance i h.mark

/-- R198 to R200, R335, R336: `g.set` resolves its slot with the lowest active lane's predicate, and waits while four
resolutions stand; `sigq` ORs a value into Headland's wake word, or sends its OR of another context's wake word to the
word's home, once it has waited as a .sys release, and raises RANGE_FAULT(TARGET) for no target. (The reading rests on log
entries 46, 49, 110 and 117.) -/
def Obligations.SlotsAndSignals : Prop :=
  ∀ (h : Head) (slot : BitVec 4) (ap : BitVec 3) (a d : Opd) (s : State) (i : Issue), s.Ready i →
    (i.active h.guard = 0 → exec (.gSet h slot ap) s = .next (s.advance i h.mark) ∧
      exec (.sigq h a d) s = .next (s.advance i h.mark)) ∧
    ∀ l, lowLane (i.active h.guard) = some l →
      let res := (i.wp.slot slot.toNat).res
      let cmds := (i.wp.slot slot.toNat).cmds
      (i.wp.a.ended = true → cmds = [] → exec (.gSet h slot ap) s = .next (s.advance i h.mark)) ∧
      (i.wp.a.ended = false ∨ cmds ≠ [] →
        (4 ≤ res.length → exec (.gSet h slot ap) s = .next (s.waitAt i (.guard slot.toNat))) ∧
        (res.length < 4 → exec (.gSet h slot ap) s = .next
          ((s.resolve i.ref.team i.ref.warp slot.toNat (i.sl.pred ap.toNat l)).advance i h.mark))) ∧
      let target := (regA a i l).toNat
      let valid : Prop := target = 64 ∨
        (target < 64 ∧ s.ctxExists target = true ∧ s.ctxRun target = true ∧ s.ctxFn target = s.ctxFn i.tm.ctx ∧
          s.fnInReset (s.ctxFn target) = false)
      (¬valid → exec (.sigq h a d) s = .next (s.decodeTrap i 1 0x09 0)) ∧
      (valid →
        (∀ t w, s.mayAccess i (storing .z8 .sys) = (t, some w) → exec (.sigq h a d) s = .next (t.waitAt i w)) ∧
        ∀ t, s.mayAccess i (storing .z8 .sys) = (t, none) →
          (target = 64 → exec (.sigq h a d) s = .next (({ t.fence_ i .sys with
            head := { t.head with wakes := tset t.head.wakes i.tm.ctx (tget t.head.wakes i.tm.ctx 0 ||| regA d i l) } } :
              State).advance i h.mark)) ∧
          (target < 64 →
            (∀ u, t.sendWake i target (regA d i l) = (u, true) →
              exec (.sigq h a d) s = .next ((u.fence_ i .sys).advance i h.mark)) ∧
            (∀ u, t.sendWake i target (regA d i l) = (u, false) → exec (.sigq h a d) s = .next (u.waitAt i .order)) ∧
            let w := t.wakeAddr target
            (∀ f, w.toNat < 2 ^ 56 → t.lookWalk target w .wr = .fault f →
              t.sendWake i target (regA d i l) = (t.orWake target (regA d i l), true)) ∧
            ∀ x, w.toNat < 2 ^ 56 → t.lookWalk target w .wr = .hit x → 8 ≤ x.align → w.toNat % 8 = 0 → x.moving = false →
              t.slideOf x.ctx x.index = none →
              let off := (w - x.base).toNat
              let pa := x.pa + off
              t.gated i.tm.core (pa / 128) x.fn = false → t.sendWake i target (regA d i l) =
                (t.send (.core i.tm.core) (t.homeNode (pa / 128)) (pa / 128) (.reduce
                  ⟨none, x.ctx, x.index, off, pa % 128, false, x.key, x.fn, x.cache, t.stamp (i.tm.core / 16),
                    324 + i.tm.core⟩ 2 .z64 [(pa % 128, leBytes 8 (regA d i l).toNat)]), true)))

/-! Engine and system words -/

/-- R173, R175, R361, R362: `acc.zero` in both forms, `acc.fin`, whose lanes await its status as an outstanding
result, and `mma.bud`, which reads the bucket as it stands then. (The reading rests on log entries 7 and 50.) -/
def Obligations.AccumulatorWords : Prop :=
  ∀ (h : Head) (dst src : BitVec 6) (n : BitVec 16) (slot : Option (BitVec 4)) (kind : BitVec 2) (index : BitVec 5)
      (chk : Bool) (shape : BitVec 5) (d a b c : Opd) (s : State) (i : Issue), s.Ready i →
    (lowLane (i.active h.guard) = none →
      exec (.accZeroImm h dst n slot kind index) s = .next (s.advance i h.mark) ∧
      exec (.accZeroReg h dst src slot kind index) s = .next (s.advance i h.mark)) ∧
    (∀ l, lowLane (i.active h.guard) = some l →
      let low := ((cmdReg src i l).extractLsb' 0 16).toNat
      exec (.accZeroImm h dst n slot kind index) s = .next (s.enqueue i h.mark
        (commandOf s i l (.accZero (n.toNat + 1)) [] (cmdReg dst i l) 0 0 slot .none kind index)) ∧
      exec (.accZeroReg h dst src slot kind index) s = .next (s.enqueue i h.mark
        (commandOf s i l (.accZero (if low = 0 then 65536 else low)) [] (cmdReg dst i l) 0 0 slot .none kind index))) ∧
    (∀ t bs, s.code ⟨i.tm.core, i.tm.ctx, i.ref, false⟩ (i.tm.shapeAddr i.wp.stage shape.toNat) 32 6 = (t, .ok bs) →
      let t := t.forget i.tm.core (.word i.ref)
      let r := (List.range 4).map fun j => leWord ((bs.drop (8 * j)).take 8)
      (shapeOk .fin r = false → exec (.accFin h chk shape d a b c) s =
        .next (t.decodeTrap i 4 0x37 (encode (.accFin h chk shape d a b c)))) ∧
      (shapeOk .fin r = true →
        (lowLane (i.active h.guard) = none → exec (.accFin h chk shape d a b c) s = .next (t.advance i h.mark)) ∧
        ∀ l, lowLane (i.active h.guard) = some l →
          (16 ≤ (t.queueOf i.ref.team i.ref.warp false).length →
            exec (.accFin h chk shape d a b c) s = .next (t.waitAt i .engine)) ∧
          ((t.queueOf i.ref.team i.ref.warp false).length < 16 →
            let f : Flight := { Flight.empty t.agenda.next i i.sp.mask with dst := .reg d }
            let u : State := { t.bump with flights := t.flights ++ [f] }
            exec (.accFin h chk shape d a b c) s = .next ((u.addCommand i
              { commandOf u i l (.accFin chk) (r ++ [regA (Opd.next c) i l]) (regA b i l) (regA a i l) (regA c i l) none
                  .none 0 0 with
                reg := some d, mask := i.active h.guard, result := some f.id }).advance i h.mark)))) ∧
    ∀ mark,
      let t := (s.modCore i.tm.core fun c => { c with budget := { c.budget with
        level := min 65535 (c.budget.level + Config.cycles s.agenda.free * s.rateOf i.tm.core / 16) } }).bumpFree
      exec (.mmaBud mark d) s = .next ((t.deliver i i.sp.mask d 64
        (laneVals i.sp.mask fun _ => t.budgetStatus i.tm.core)).advance i mark)

/-- R198, R200, R330, R332, R341, R342: what a command meets at issue: RV_FAULT(INDEX) for a point that is not there;
waits for its queue of 16, for its guard slot of 4 and for a phase that it may credit; and its match with a resolution
of its slot, without which it stays unmatched unless the C-slice has ended. R340, R342, R347, R350 to R358: the
command words, with the operands that each takes. (The reading rests on log entries 34, 46 and 50.) -/
def Obligations.Commands : Prop :=
  (∀ (s : State) (i : Issue) (mark : Bool) (c : Command),
      let point : Prop := c.tkind = 1 → c.tindex < i.tm.nrv
      let room : Prop := (s.queueOf i.ref.team i.ref.warp c.matrix).length < 16
      let slotRoom : Prop := ∀ g, c.slot = some g → (i.wp.slot g).cmds.length < 4
      let added (c : Command) : State :=
        let u : State := { s.bump with engines := { s.engines with cmds := s.engines.cmds ++ [c] } }
        if c.tkind = 3 then u.modWarp i.ref.team i.ref.warp fun w => { w with yields := w.yields + 1 } else u
      (¬point → s.enqueue i mark c = s.decodeTrap i 10 0x50 (BitVec.ofNat 64 c.tindex)) ∧
      (point → ¬room → s.enqueue i mark c = s.waitAt i .engine) ∧
      (point → room → ¬slotRoom → s.enqueue i mark c = s.waitAt i (.guard (c.slot.getD 0))) ∧
      (point → room → slotRoom → c.tkind = 1 → (i.tm.rv c.tindex).creditPhase i.ref.warp = none →
        s.enqueue i mark c = s.waitAt i (.rendezvous c.tindex none)) ∧
      (point → room → slotRoom → c.slot = none →
        (c.tkind ≠ 1 → s.enqueue i mark c = (added c).advance i mark) ∧
        ∀ p, c.tkind = 1 → (i.tm.rv c.tindex).creditPhase i.ref.warp = some p →
          s.enqueue i mark c = (added { c with phase := p }).advance i mark) ∧
      ∀ g, point → room → slotRoom → c.slot = some g → c.tkind ≠ 1 →
        (∀ b bs, (i.wp.slot g).res = b :: bs → s.enqueue i mark c =
          (((added c).modWarp i.ref.team i.ref.warp fun w => (w.guardCommand g c.id).1).modCmd c.id
            fun x => { x with verdict := some b }).advance i mark) ∧
        ((i.wp.slot g).res = [] → i.wp.c.ended = false → s.enqueue i mark c =
          (((added c).modWarp i.ref.team i.ref.warp fun w => (w.guardCommand g c.id).1).modCmd c.id
            fun x => { x with verdict := none }).advance i mark) ∧
        ((i.wp.slot g).res = [] → i.wp.c.ended = true → s.enqueue i mark c =
          ((added c).modCmd c.id fun x => { x with verdict := some false }).advance i mark)) ∧
  ∀ (h : Head) (c : Cmd),
    let ofs : Word := c.ofs.signExtend 64 * 8
    Queues (.cp h c) h .copy c .cp (fun i l => (cmdReg c.dst i l, cmdReg c.src i l + ofs, 0)) ∧
    Queues (.cpFeed h c) h .copy c (.feed c.dst.toNat) (fun i l => (0, cmdReg c.src i l + ofs, 0)) ∧
    Queues (.cpColl h c) h .lin c .coll (fun i l => (cmdReg c.dst i l, cmdReg c.src i l + ofs, 0)) ∧
    Queues (.cpPut h c) h .copy c .put
      (fun i l => (cmdReg c.dst i l, cmdReg c.src i l + ofs, cmdReg (c.dst + 1) i l)) ∧
    Queues (.cpGet h c) h .copy c .get
      (fun i l => (cmdReg c.dst i l, cmdReg c.src i l + ofs, cmdReg (c.src + 1) i l)) ∧
    Queues (.mma h c) h .mma c .mma (fun i l => (cmdReg c.dst i l + ofs, 0, 0)) ∧
    Queues (.mmaTwin h c) h .twin c .twin (fun i l => (cmdReg c.dst i l + ofs, 0, 0))

/-- R142, R353, R363, R364, R366: `cp.yield` parks its split to restart at the continuation; `wb` waits for the
stream's stores to its span, and for those whose trap was raised; `ii` drops the span's instruction lines; `fbar` discards the words fetched beyond it; and
`discard` becomes an access to every line of its span. (The reading rests on log entries 9, 26
and 44.) -/
def Obligations.MaintenanceWords : Prop :=
  ∀ (h : Head) (mark : Bool) (ofs : BitVec 16) (a b : Opd),
    let len (i : Issue) (l : Nat) : Nat :=
      (i.sl.read i.ref.slice l (if i.ref.slice = .a then 64 else 32) b).toNat
    (∀ (s : State) (i : Issue), s.Ready i →
      exec (.cpYield mark ofs) s = .next (((s.modIssuer i fun sp =>
        { sp with cont := some (i.sp.pc + ofs.signExtend 64 * 8) }).advanceTo i mark i.sp.pc).restartYields i.ref.team
          i.ref.warp) ∧
      exec (.fbar mark) s = .next ((s.modIssuer i fun sp => { sp with fetched := [] }).advance i mark)) ∧
    Spans (.wb h a b) h .none_ a len (fun i s ps =>
      let t := s.flushFor i.tm i.ref.team ps
      if ((t.earlier i).any fun f => f.isStore && (f.walking || ps.any (t.faultMeets f) ||
          f.pieces.any fun q => q.st != .done && ps.any q.overlaps)) = true ∨ t.flushedFor i.tm i.ref.team ps = false then t.waitAt i .order else t.advance i h.mark) ∧
    Spans (.ii h a b) h .none_ a len (fun i s ps =>
      (s.modCore i.tm.core fun c => { c with icache := c.icache.filter fun x => !(memLines ps).contains x.line }).advance i
        h.mark) ∧
    Spans (.discard h a b) h .wrAny a (fun i l => (regA b i l).toNat) fun i s ps =>
      match ps.find? fun p => p.xl.any fun x => x.acc && p.len != 128 with
      | some p => s.raiseAt i { Trap.ofWord i 2 0x10 0 with addr := p.va }
      | none =>
        if s.afterAcquires i = false then s.waitAt i .order
        else
          let f : Flight := { Flight.empty s.agenda.next i i.sp.mask with
            op := some .discard, pieces := ps, stamp := s.stamp (i.tm.core / 16) }
          (({ s.bump with flights := s.flights ++ [f] } : State).pump).advance i h.mark

/-- R136, R367 to R370: the privileged words, which in a context that is not privileged all raise PRIV_FAULT. `rng.sync`
waits until nothing that the invalidated images have translated is to be performed any longer; `zline` issues as an access
does; and `fence.hb` waits as a .sys release, and then for a tick. (The reading rests on log entry 9.) -/
def Obligations.PrivilegedWords : Prop :=
  ∀ (h : Head) (mark : Bool) (d a b c : Opd),
    (∀ ins, ins = .rngInv h a ∨ ins = .rngInvAll h a ∨ ins = .rngSync mark ∨ ins = .zline h a ∨ ins = .fenceHb mark ∨
        ins = .halt h ∨ ins = .ebbSlide h d a b c ∨ ins = .ebbStat h d a →
      ∀ (s : State) (i : Issue), s.Ready i → s.ctxPriv i.tm.ctx = false → exec ins s = .next (s.decodeTrap i 5 0x38 0)) ∧
    ∀ (s : State) (i : Issue), s.Ready i → s.ctxPriv i.tm.ctx = true →
      let hb := tget s.time.hb (i.tm.core / 16) 0
      let away (ctx : Nat) (index : Option Nat) : State :=
        (s.invalidate ctx index).modSlice i.ref.team i.ref.warp i.ref.slice fun y =>
          { y with invs := y.invs ++ s.imageUsers ctx index }
      (∀ l, lowLane (i.active h.guard) = some l →
        let ctx := ((regA a i l).extractLsb' 58 6).toNat
        (s.ctxExists ctx = true →
          exec (.rngInv h a) s =
            .next ((away ctx (some ((regA a i l).extractLsb' 0 14).toNat)).advance i h.mark) ∧
          exec (.rngInvAll h a) s = .next ((away ctx none).advance i h.mark)) ∧
        (s.ctxExists ctx = false →
          exec (.rngInv h a) s = .next (s.advance i h.mark) ∧ exec (.rngInvAll h a) s = .next (s.advance i h.mark)) ∧
        exec (.ebbStat h d a) s = .next ((s.deliver i (i.active h.guard) d 64 (laneVals (i.active h.guard)
          fun _ => (s.slot ((regA a i l).toNat % 256)).status)).advance i h.mark)) ∧
      (let t := s.flushUsers i.sl.invs
        let used : Prop := (∃ f ∈ t.flights, .access f.id ∈ i.sl.invs ∧ f.bound = false) ∨
          (∃ e ∈ t.engines.emissions, .access e.id ∈ i.sl.invs) ∨
          (∃ b ∈ t.engines.buffers, ∃ e ∈ b.2, .access e.id ∈ i.sl.invs) ∨ ∃ m ∈ t.underWay, .request m.id ∈ i.sl.invs
        (used → exec (.rngSync mark) s = .next (t.waitAt i .order)) ∧
        (¬used → exec (.rngSync mark) s =
          .next ((t.modSlice i.ref.team i.ref.warp i.ref.slice fun y => { y with invs := [] }).advance i mark))) ∧
      (i.active h.guard = 0 → exec (.zline h a) s = .next (s.advance i h.mark)) ∧
      (∀ t w, s.mayAccess i { storing .z64 .none with op := .zline } = (t, some w) → i.active h.guard ≠ 0 →
        exec (.zline h a) s = .next (t.waitAt i w)) ∧
      (∀ t, s.mayAccess i { storing .z64 .none with op := .zline } = (t, none) → i.active h.guard ≠ 0 →
        exec (.zline h a) s = .next ((t.launch i { storing .z64 .none with op := .zline } (i.active h.guard)
          (operands (regA a) nothing nothing i (i.active h.guard))).advance i h.mark)) ∧
      ((∀ n, i.sp.wait ≠ .heartbeat n) →
        (∀ t w, s.mayAccess i (storing .z8 .sys) = (t, some w) → exec (.fenceHb mark) s = .next (t.waitAt i w)) ∧
        ∀ t, s.mayAccess i (storing .z8 .sys) = (t, none) →
          exec (.fenceHb mark) s = .next (t.waitAt i (.heartbeat (tget t.time.hb (i.tm.core / 16) 0)))) ∧
      (∀ n, i.sp.wait = .heartbeat n →
        (n < hb → exec (.fenceHb mark) s = .next ((s.fence_ i .sys).advance i mark)) ∧
        (hb ≤ n → exec (.fenceHb mark) s = .next s)) ∧
      (i.active h.guard = 0 → exec (.halt h) s = .next (s.advance i h.mark)) ∧
      (i.active h.guard ≠ 0 → exec (.halt h) s = .next (s.raiseAt i (Trap.ofWord i 13 0x7E 0)))

/-- R59, R60, R365: `ebb.slide` follows the stream's acquires; of a legal slide it takes a slot of its die's engine and
returns slot × 256; a slide that fails its check returns the code and takes none; and `node.post` posts its record once it
has waited as a .pkg release and the lines of the record are its own. (The reading rests on log entries 9, 49, 57 and
60.) -/
def Obligations.SlidesAndPosts : Prop :=
  ∀ (h : Head) (d a b c : Opd) (s : State) (i : Issue), s.Ready i →
    (∀ l, s.ctxPriv i.tm.ctx = true → lowLane (i.active h.guard) = some l →
      (s.afterAcquires i = false → exec (.ebbSlide h d a b c) s = .next (s.waitAt i .order)) ∧
      (s.afterAcquires i = true → 2 ^ 63 ≤ (regA c i l).toNat →
        exec (.ebbSlide h d a b c) s = .next (s.raiseAt i { Trap.ofWord i 1 0x05 0 with addr := regA c i l })) ∧
      ∀ t ps, s.afterAcquires i = true → (regA c i l).toNat < 2 ^ 63 →
        s.wordSpan i .wr l (regA c i l) 8 8 [] = (t, .ok ps) →
        let die := i.tm.core / 16
        let u := t.forget i.tm.core (.word i.ref)
        let gives (v : State) (n : Nat) : State :=
          (v.deliver i (i.active h.guard) d 64 (laneVals (i.active h.guard) fun _ => BitVec.ofNat 64 n)).advance i h.mark
        (∀ e, u.slideCheck die (regA a i l) (regA b i l) = e → e ≠ 0 → exec (.ebbSlide h d a b c) s = .next (gives u e)) ∧
        ∀ k, u.slideCheck die (regA a i l) (regA b i l) = 0 → u.slideSlot die = some k →
          exec (.ebbSlide h d a b c) s = .next (gives
            { u with ebb := { u.ebb with
                next := u.ebb.next + 1
                slots := tset u.ebb.slots k { Slot.reset with
                  state := 1, ctx := ((regA a i l).extractLsb' 58 6).toNat, index := ((regA a i l).extractLsb' 0 14).toNat
                  new_ := (regA b i l).toNat, cdw := regA c i l, issuer := i.tm.ctx, order := u.ebb.next
                  after := ((u.earlier i).filter Flight.isStore).map fun f => .access f.id } } } (k * 256))) ∧
    Spans (.nodePost h a) h .rw a (fun _ _ => 256) fun i s ps =>
      match ps.head? with
      | none => s.advance i h.mark
      | some p =>
        if (ps.any fun q => q.tide.isSome) = true then
          s.raiseAt i { Trap.ofWord i 1 0x05 0 with addr := regA a i ((lowLane (i.active h.guard)).getD 0) }
        else match s.mayAccess i (storing .z8 .pkg) with
          | (t, some w) => t.waitAt i w
          | (t, none) => match t.agentAsk nodeAgent (nodeSerial i.tm.ctx p.va 1) (recTouches i.tm.ctx p.va) with
            | (u, false) => u.waitAt i .order
            | (u, true) => ((u.fence_ i .pkg).postNode i.tm.ctx p.va false none).1.advance i h.mark

/-- R244 to R246, R248, R249: both halves of a short pair read before either writes, in every live lane of the split;
and a word that is no instruction traps with its subcode and the word itself. (The reading rests on log entry 21.) -/
def Obligations.PairsAndIllegalWords : Prop :=
  (∀ (mark : Bool) (x y : Half) (s : State) (i : Issue), s.Ready i →
    let rs : List (Nat × Word × Fl) :=
      (lanesOf i.sp.mask).map fun l => (l, 0, (halfIn i x l).2 ||| (halfIn i y l).2)
    (∀ sub lanes, trapOf i.sp.fmt rs = some (sub, lanes) → exec (.shortPair mark x y) s =
      .next ((s.modSlice i.ref.team i.ref.warp i.ref.slice fun z => (flagWrites rs).foldl SliceState.put z).raiseAt i
        { Trap.ofWord i 8 sub (lanes.setWidth 64) with lanes := lanes })) ∧
    (trapOf i.sp.fmt rs = none → exec (.shortPair mark x y) s =
      .next ((s.results i (halfResults i x ++ halfResults i y ++ flagWrites rs)).advance i mark))) ∧
  ∀ (w : Word) (why : Illegal) (s : State) (i : Issue), s.Ready i →
    exec (.illegalInstrWord w why) s = .next (s.decodeTrap i 4
      (match why with
        | .opcode => 0x30 | .slice => 0x31 | .guard => 0x32 | .field => 0x33 | .modifier => 0x34 | .pair => 0x35
        | .operand => 0x36 | .shape => 0x37) w)

/-! Results, walks and fetches -/

/-- R13, R121, R189, R201, R209, R316, R323: an outstanding result is written in the lanes of its warp that still live, and
nowhere else; a loaded value is extended by its type, and `acc.ld` takes its field of the line; a lane that met poison
dies, or is poisoned in the queue entry of a load; a counter that the load names counts. (The reading rests on log entry
5.) -/
def Obligations.ResultsArrive : Prop :=
  (∀ (s : State) (f : Flight), s.flight? f.id = some f → f.op = none → (∀ q n, f.dst ≠ .queue q n) →
    (∀ d, f.dst = .reg d → f.writes ≠ []) → (∀ o c, f.dst ≠ .counter o c) →
    exec (.loadReply f.id) s = .next ((((s.dropFlight f.id).modWarp f.stream.team f.stream.warp fun w =>
      w.puts f.stream.slice f.writes).kill f.stream.team f.stream.warp 0).unpark f.stream.team f.stream.warp
        f.stream.slice).pump) ∧
  (∀ (s : State) (f : Flight) (op : AccOp) (w : Warp) (k : Option Nat) (ws : Mask → List Write), s.flight? f.id = some f →
    f.op = some op → f.bound = true → f.faulted = false → s.flightWarp f = some w →
    ((∃ d, (f.dst = .reg d ∧ k = none ∨ ∃ n, f.dst = .counter d n ∧ k = some n) ∧
        ws = fun m => destWrites f.stream.slice d 64 (laneVals m fun l => (f.value l).1) ++
          if f.ty = .z128 then
            destWrites f.stream.slice (Opd.next d) 64 (laneVals m fun l => leWord ((f.laneBytes l).drop 8))
          else []) ∨
      ∃ p, f.dst = .pred p ∧ k = none ∧ ws = fun m => (lanesOf m).map fun l => .pred p l ((f.value l).1 != 0)) →
    let bad := maskBy fun l => f.mask.getLsbD l && (f.value l).2
    exec (.loadReply f.id) s = .next
      (let t := (s.dropFlight f.id).modWarp f.stream.team f.stream.warp fun w' => w'.puts f.stream.slice
        (ws (f.mask &&& ~~~w.dead &&& ~~~bad))
       let t := match k with
        | some n => t.modSlice f.stream.team f.stream.warp f.stream.slice (·.count n)
        | none => t
       ((t.kill f.stream.team f.stream.warp (bad &&& ~~~w.dead)).unpark f.stream.team f.stream.warp
        f.stream.slice).pump)) ∧
  (∀ (f : Flight) (l : Nat),
    let bs := f.laneBytes l
    let bad := f.pieces.any fun p => p.lane == l && p.bad
    (f.op ≠ some .accLd → f.value l =
      (if Ty.signed f.ty then (BitVec.ofNat (8 * Ty.bytes f.ty) (leNat bs)).signExtend 64 else BitVec.ofNat 64 (leNat bs),
        bad)) ∧
    ∀ v x y, f.op = some .accLd → f.lanes.find? (fun e => e.1 == l) = some (l, v, x, y) →
      let o := (v.extractLsb' 0 7).toNat
      f.value l = if o = 96 then (BitVec.ofNat 64 (leNat ((bs.drop 96).take 8)), bad)
        else (BitVec.ofNat 64 (leNat ((bs.drop o).take 6)), bad || (leNat ((bs.drop 103).take 1)).testBit (o / 12))) ∧
  ∀ (s : State) (f : Flight) (w : Warp) (q n : Nat), s.flight? f.id = some f → f.dst = .queue q n → f.bound = true →
    f.faulted = false → s.flightWarp f = some w →
    let bad := maskBy fun l => f.mask.getLsbD l && (f.value l).2
    let load : Bool := f.stream.slice == .a && (f.op == some .load || f.op == some .accLd)
    let t := (s.dropFlight f.id).modWarp f.stream.team f.stream.warp fun w' => w'.modEntry q n fun e => { e with
      vals := (laneVals (f.mask &&& ~~~bad) fun l => (f.value l).1).foldl (fun t v => tset t v.1 v.2) e.vals
      flying := e.flying &&& ~~~f.mask
      poisonData := if load then e.poisonData ||| bad else e.poisonData }
    exec (.queueDataArrival f.id) s = .next
      (if load then t else t.kill f.stream.team f.stream.warp (bad &&& ~~~w.dead)).pump

/-- R42 to R44: a free walker of a die, of 32, takes the oldest waiting walk of the next core with one; once the lines of the
search have been read through the L2, the descriptor found is installed if it passes its checks, and what waited is
translated again or takes the walk's fault. R378 to R380: a word
that a stream may fetch joins those it has fetched; a fault or poison counts only at its PC. (The reading rests on log
entries 12, 22, 30 and 44.) -/
def Obligations.WalksAndFetch : Prop :=
  ((∀ (s : State) (die k : Nat) (w : PendWalk), die < 64 → s.walking die < 32 → k < 16 →
      let last := tget s.engines.walkLast die 15
      let core (j : Nat) : Nat := die * 16 + (last + 1 + j) % 16
      (∀ j < k, ∀ v ∈ (s.core (core j)).walks, v.started = true) →
      (s.core (core k)).walks.find? (fun v => !v.started) = some w →
      exec (.rangeWalkStart die) s = .next
        (let t := s.modCore (core k) fun c => { c with
          walks := c.walks.map fun (v : PendWalk) => if v = w then { v with started := true } else v }
         { t with engines := { t.engines with walkLast := tset t.engines.walkLast die ((last + 1 + k) % 16) } })) ∧
    ∀ (s : State) (core ctx region : Nat) (w : PendWalk),
      (s.core core).walks.find? (fun v => v.started && v.ctx == ctx && v.region == region) = some w →
      (∀ t, s.walkLines ctx core w.va = (t, false) → exec (.rangeWalkComplete core ctx region) s = .next t) ∧
      ∀ t, s.walkLines ctx core w.va = (t, true) →
        let done (r : Sum XFault RBuf) (f : Option XFault) (install : Core → Core) : State :=
          ((t.modCore core fun c => install { c with
            walks := c.walks.filter (· != w)
            answers := c.answers ++ w.waiters.map fun who => ⟨who, w.ctx, w.region, r⟩ }).resolveCore core
              (some (ctx, region, f))).pump
        (t.walk ctx w.va = none →
          exec (.rangeWalkComplete core ctx region) s = .next (done (.inl (1, 0x01)) (some (1, 0x01)) id)) ∧
        ∀ n d a b c e, t.walk ctx w.va = some n → t.descAt ctx n = (d, a, b, c, e) →
          exec (.rangeWalkComplete core ctx region) s = .next (match t.descFault? ctx d with
            | some f => done (.inl f) (some f) id
            | none => done (.inr ⟨ctx, n, a, b, c, e, 0⟩) none (·.install ⟨ctx, n, a, b, c, e, 0⟩))) ∧
  ∀ (s t : State) (r : StreamRef) (i : Issue) (a : Word), s.issue? r = some i → i.allowed = true →
    i.sp.mayFetch a = true →
    let read := s.code ⟨i.tm.core, i.tm.ctx, r, true⟩ a 8 4
    (∀ bs, read = (t, .ok bs) → exec (.instructionFetchFill r a) s =
      .next ((t.forget i.tm.core (.fetch r)).modSplit r fun sp => { sp with
        fetched := sp.fetched ++ [(a, leWord bs)]
        wait := if a = sp.pc ∧ sp.wait = .fetch then .none else sp.wait })) ∧
    (read = (t, .wait) → exec (.instructionFetchFill r a) s = .next t) ∧
    (read = (t, .poison) → exec (.instructionFetchFill r a) s =
      .next (if a = i.sp.pc then (t.kill i.ref.team i.ref.warp i.sp.mask).reapAll else s)) ∧
    ∀ f v, read = (t, .fault f v) → exec (.instructionFetchFill r a) s =
      .next (if a = i.sp.pc then t.raiseAt i (Trap.ofLanes i f 0xFFFFFFFF v) else s)

/-! Homes, cores and memory controllers -/

/-- R65, R104, R115: the requests that reach a home. A request behind others that wait for its line waits too, but for a
discard of the whole line (R95); a full forward queue bounces it with RETRY; a line with a blocking transaction makes it
wait; a request steered elsewhere is sent back, a wake word's reduction sent on; and one whose line stands ready is
performed. A home that has begun a paired reduction makes more of its writes while no transaction is open (R374). (The
reading rests on log entries 18 and 86.) -/
def Obligations.RequestsAtHomes : Prop :=
  let act (t : State) (x : Msg) : State :=
    if ∃ y ∈ t.net.retries, y.line = x.line ∧ y.src = x.src then t.bounce x
    else if x.wholeDiscard = false ∧ ∃ y ∈ t.net.forwards, y.line = x.line ∧ t.stale y = false then t.forward x
    else t.homeTake x
  Receives .read (fun b => (∃ r al ho hs, b = .read r al ho hs) ∨ ∃ r, b = .accLd r) act ∧
  Receives .store (fun b => ∃ r bs sc z, b = .store r bs sc z) act ∧
  Receives .homeAtomic (fun b => ∃ r op ty ops, b = .atomic r op ty ops) act ∧
  (∀ (s : State) (m : Nat),
    (∀ x r op ty ws, (∀ p ∈ s.net.parts, p.m.id = m → p.rest = []) → s.deliverable m = some x →
      x.body = .reduce r op ty ws → exec (.homeReduction m) s = .next (act (s.take m) x)) ∧
    ∀ p, s.net.parts.find? (fun q => q.m.id == m && !q.rest.isEmpty) = some p →
      (s.busy p.m.line = true → exec (.homeReduction m) s = .next s) ∧
      (s.busy p.m.line = false → ∃ k, 1 ≤ k ∧ k ≤ p.rest.length ∧ exec (.homeReduction m) s = .next
        (((s.bumpFree.stepPart p k).endTransient p.m.line).drainHome (s.homeOf (p.m.line * 128))))) ∧
  Receives .discardAtHome (fun b => ∃ r lo len w, b = .discard r lo len w) act ∧
  Receives .ureq (fun b => ∃ r op ty ws, b = .ureq r op ty ws) act ∧
  ∀ (s : State) (x : Msg) (r : Req), x.body.req? = some r → (∀ q, x.body ≠ .claim q) →
    let there (b : Body) : State := s.send (s.homeNode x.line) x.src x.line b
    let queue := s.net.forwards.filter fun y => s.homeOf (y.line * 128) == s.homeOf (x.line * 128)
    let at_ := x.line * 128 + r.lo
    let wake : Prop := r.flight = none ∧ ∃ op ty ws, x.body = .reduce r op ty ws
    let places (sl : Slot) : Prop := s.steers sl r.off = true ∧ (at_ = sl.new_ + r.off ∨ at_ = sl.old + r.off)
    (queue.length < 64 → s.forward x = { s with net := { s.net with forwards := s.net.forwards ++ [x] } }) ∧
    (64 ≤ queue.length → s.forward x = { there (.retry x.id) with
      net := { (there (.retry x.id)).net with retries := s.net.retries ++ [x] } }) ∧
    (s.slideOf r.ctx r.index = none → r.moving = true →
      (¬wake → s.homeTake x = there (.stranded r)) ∧
      (wake → s.homeTake x = s.logEvent 0x0A r.fn r.ctx 3397 (BitVec.ofNat 64 at_) 0)) ∧
    (∀ sl, s.slideOf r.ctx r.index = some sl → places sl →
      (sl.passing (r.off / 128) = true → s.homeTake x = s.forward x) ∧
      (sl.passing (r.off / 128) = false → sl.addr r.off ≠ at_ →
        (¬wake → s.homeTake x = there (.resteer r sl.tide)) ∧
        ∀ op ty p b, r.flight = none → x.body = .reduce r op ty [(p, b)] →
          s.homeTake x = s.send x.src (s.homeNode (sl.addr r.off / 128)) (sl.addr r.off / 128)
            (.reduce { r with lo := sl.addr r.off % 128, moving := true } op ty [(sl.addr r.off % 128, b)]))) ∧
    ∀ y, s.l2? x.line = some y → x.wholeDiscard = false →
      (s.slideOf r.ctx r.index = none ∧ r.moving = false ∨ ∃ sl, s.slideOf r.ctx r.index = some sl ∧
        ((∀ z ∈ s.slidesOf r.ctx r.index, ¬places z) ∨ sl.passing (r.off / 128) = false ∧ places sl ∧ sl.addr r.off = at_)) →
      (y.blocked = true → s.homeTake x = s.forward x) ∧
      (y.blocked = false → y.key = r.key → (y.transient = false ∨ r.cache = 3) → s.missing x.line (s.needs x) = [] →
        (∀ t, y.dir.mode = 2 → x.body.isNear = false → s.calm x.line = (t, true) →
          let u := t.startGather x.line
          s.homeTake x = u.forward (if u.host.backInv.any (fun b => b.1 == x.line) then x.unkept else x)) ∧
        (y.dir.mode ≠ 2 ∨ x.body.isNear = true → s.hostHeld x.line (s.needs x) x.body.writes = [] →
          s.homeTake x = if s.awaitsStores x then s.forward x else
            match x.body, s.flushedLine x.line with
            | .discard .., (t, true) => t.perform x
            | .discard .., (t, false) => t.forward x
            | _, _ => s.perform x))

/-- R105, R106, R110, R121, R323, R326: what performing a request at home changes. A store writes its bytes and no
other byte of memory, clears the LL reservations of its line, and sends UPD to every pointer but the writer, with
STACK at once when there is none. (The reading rests on log entry 2.) -/
def Obligations.StoresAtHome : Prop :=
  ∀ (s : State) (x : Msg) (r : Req) (bs : List (Nat × Byte)) (sc z : Bool), x.body = .store r bs sc z →
    let t := s.perform x
    let targets := if (s.dir x.line).mode = 1 then (s.dir x.line).holders.filter (· != x.src.core?) else []
    (tget? s.lines.keyed x.line = none ∨ tget? s.lines.keyed x.line = some (s.keyId r.key) →
      (∀ a, (∀ b ∈ bs, a ≠ x.line * 128 + b.1) → memRead t.mem a = memRead s.mem a) ∧
      (Memory.wf s.mem = true → bs.Pairwise (fun b c => b.1 ≠ c.1) →
        ∀ b ∈ bs, memRead t.mem (x.line * 128 + b.1) = b.2)) ∧
    (∀ e ∈ t.teams, ∀ w ∈ e.2.warps, ∀ v ∈ w.2.resv, v.2.tide = false → v.2.line ≠ x.line) ∧
    (targets = [] → t.net.acks = s.net.acks ∧ t.net.next = s.net.next + 1 ∧
      ∃ bytes, t.net.msgs = s.net.msgs ++ [⟨s.net.next, s.homeNode x.line, x.src, x.line, .stack r bytes false⟩]) ∧
    (targets ≠ [] → (s.dir x.line).coarse = false →
      t.net.acks = s.net.acks ++ [⟨s.net.next, x.line, targets.length, false, false, false, some (x.src, r)⟩] ∧
      ∃ bytes, t.net.msgs = s.net.msgs ++ targets.zipIdx.map fun c =>
        ⟨s.net.next + 1 + c.2, s.homeNode x.line, .core c.1, x.line, .upd bytes s.net.next⟩)

/-- R81, R82, R106, R110, R113, R117, R118: the messages that reach cores. (The reading rests on log entry 86.) -/
def Obligations.AnswersAtCores : Prop :=
  (∀ r bytes poison valid al, r.flight ≠ none → Receives .data (· = .data r bytes poison valid al) fun t x =>
    (t.modReq x.line r fun p =>
      if (halvesOf p.lo p.len).all valid.contains then
        p.fill bytes ((poison.getLsbD 0 && p.inHalf false) || (poison.getLsbD 1 && p.inHalf true))
      else { p with st := .wait }).pump) ∧
  (∀ r bytes poison valid al, r.flight = none → Receives .data (· = .data r bytes poison valid al) fun t x =>
    t.modCore x.dst.core? fun c => { c with misses := c.misses.map fun (y : Miss) =>
      if y.line = x.line ∧ y.key = r.key ∧ y.fill = none then { y with fill := some (bytes, poison, valid, al) }
      else y }) ∧
  (∀ (s : State) (core : Nat) (e : Miss) bytes poison valid al, (s.core core).misses.find? (·.id == e.id) = some e →
    e.fill = some (bytes, poison, valid, al) → exec (.missFill core e.id) s = .next
      (let t := s.modCore core fun c => { c with misses := c.misses.filter fun (y : Miss) => y.id != e.id }
       ((if al then t.l1Install core e.line e.key (patch bytes e.later) else t).modMiss e
         fun p => p.answer bytes poison valid).pump)) ∧
  (∀ r bytes drop, Receives .stack (· = .stack r bytes drop) fun t x =>
    (((t.modReq x.line r Piece.finish).modCore x.dst.core? fun c =>
      if drop then (c.patchLine x.line bytes).dropCopy x.line else c.patchLine x.line bytes).wakeLine x.line).pump) ∧
  (∀ bytes ack, Receives .upd (· = .upd bytes ack) fun t x =>
    ((t.modCore x.dst.core? fun c => c.patchLine x.line bytes).wakeLine x.line).send x.dst x.src x.line (.uack ack)) ∧
  (∀ ack, Receives .inv (· = .inv ack) fun t x =>
    (t.modCore x.dst.core? fun c => c.dropCopy x.line).send x.dst x.src x.line (.iack ack)) ∧
  (∀ r n, r.flight ≠ none → Receives .resteer (· = .resteer r n) fun t x =>
    ((t.modCore r.core fun c => { c with ranges := c.ranges.map fun (e : RBuf) =>
      if e.ctx = r.ctx ∧ e.index = r.index then e.steerTo n else e }).modReq x.line r fun p => p.resteer n).pump) ∧
  (∀ r id, r.flight = some id → Receives .stranded (· = .stranded r) fun t x =>
    (t.strand id fun p => p.inReq x.line r).pump) ∧
  (∀ r op ty ws, Receives .ugrant (· = .ugrant r op ty ws) fun t x =>
    let u := t.modReq x.line r Piece.finish
    let n : DLine := ⟨x.line, r.key, r.fn, op, ty, ws, 0⟩
    (match (u.core x.dst.core?).delta? x.line r.key with
      | some d => u.addDelta x.dst.core? d n
      | none => (u.l1Room x.dst.core? x.line).modCore x.dst.core? fun c =>
        { c with tick := c.tick + 1, deltas := c.deltas ++ [{ n with used := c.tick + 1 }] }).pump) ∧
  (∀ ack, Receives .gather (· = .gather ack) fun t x =>
    match (t.core x.dst.core?).deltas.find? fun d => d.line == x.line with
    | some d => (t.modCore x.dst.core? fun c => { c with deltas := c.deltas.erase d }).send x.dst x.src x.line
        (.delta ack d.op d.ty d.words)
    | none => t.send x.dst x.src x.line (.nodelta ack)) ∧
  ∀ n, Receives .retry (· = .retry n) fun t _ => t

/-- R105, R108, R110, R112 to R115, R118: the messages that close a home's counts, the notices that it ignores, and the reissue
of a bounced request once a gateway lets it pass. (The reading rests on log entry 86.) -/
def Obligations.AnswersAtHomes : Prop :=
  (∀ ack, Receives .uack (· = .uack ack) fun t _ => (t.acked ack).pump) ∧
  (∀ ack, Receives .iack (· = .iack ack) fun t _ => (t.acked ack).pump) ∧
  (∀ ack, Receives .nodelta (· = .nodelta ack) fun t _ => t.acked ack) ∧
  (∀ ack op ty ws, Receives .delta (· = .delta ack op ty ws) fun t x => (t.deltaHome x.line op ty ws).acked ack) ∧
  (∀ op ty ws, Receives .dwb (· = .dwb op ty ws) fun t x => t.deltaHome x.line op ty ws) ∧
  (Receives .evn (· = .evn) fun t x =>
    if (∃ a ∈ t.net.acks, a.line = x.line ∧ (a.round = true ∨ a.gather = true ∨ a.settle = true)) ∨
      ∃ y ∈ t.net.settles, y.line = x.line then t
    else t.modDir x.line fun d =>
      if d.coarse then d
      else { d with
        ptrs := d.ptrs.filter (· != x.src.core?)
        mode := if d.ptrs.filter (· != x.src.core?) = [] then 0 else d.mode }) ∧
  (∀ (s : State) (x : Msg), s.net.retries.find? (fun y => y.id == x.id) = some x →
    (∀ y ∈ s.net.msgs, y.body ≠ .retry x.id) →
    s.net.retries.find? (fun y => y.src == x.src && y.line == x.line) = some x →
    let left := { s.net with retries := s.net.retries.filter fun (y : Msg) => y.id != x.id }
    (s.retryGated x = true → exec (.retryReissue x.id) s = .next s) ∧
    (s.retryGated x = false →
      ((∀ q, x.body ≠ .claim q) →
        exec (.retryReissue x.id) s = .next { s with net := { left with msgs := s.net.msgs ++ [x] } }) ∧
      ∀ q, x.body = .claim q → exec (.retryReissue x.id) s = .next
        (if s.queueRoom x.line = true then { s with net := { left with forwards := s.net.forwards ++ [x] } } else s))) ∧
  ∀ (s : State) (a : Ack), s.net.acks.find? (·.id == a.id) = some a →
    (1 < a.left → s.acked a.id = { s with net := { s.net with
      acks := s.net.acks.map fun y => if y.id = a.id then { y with left := y.left - 1 } else y } }) ∧
    (a.left ≤ 1 → s.acked a.id =
      (let t := { s with net := { s.net with acks := s.net.acks.filter (·.id != a.id) } }
       let t := (t.partAcked a).completions
       let t := match a.reply with
         | some (n, r) => t.sendStack n r a.line a.round
         | none => t
       if a.round then (t.modDir a.line fun d => { d with dies := 0, mode := 0 }).close a.line
       else if a.gather || a.settle then
         (t.modDir a.line fun d => { d with mode := 0, ptrs := [], dies := 0 }).close a.line
       else if (t.settle? a.line).isSome then t.close a.line
       else t.drain a.line))

/-- R86, R93 to R95: a bank serves the functions in turn, row hits first and then the oldest, and performs the requests of a line in their
order; the activation that brings a row to 1,024 holds its function's queue of the bank until the hold ends. (The reading
rests on log entries 15 and 99.) -/
def Obligations.MemoryControllers : Prop :=
  (∀ (s : State) (chan bank : Nat) (b : Bank) (q : McReq), tget? s.lines.banks (chan * 64 + bank) = some b →
    b.next (s.mirrorFull chan) = some q →
    let opens : Bool := !q.dropped && b.openRow != some q.row
    let count := tget b.counts q.row 0 + 1
    let hot : Bool := opens && decide (count = 1024)
    exec (.memoryRequestIssue chan bank) s = .next
      (let t := { s with lines := { s.lines with
        banks := tset s.lines.banks (chan * 64 + bank) { b with
          reqs := b.reqs.erase q, turn := q.fn, openRow := if q.dropped then b.openRow else some q.row
          counts := if opens then tset b.counts q.row count else b.counts
          held := if hot then b.held ++ [(q.fn, q.row)] else b.held }
        fills := if q.write then s.lines.fills else s.lines.fills ++ [q.line] } }
       let t := if q.write = true ∧ q.dropped = false then t.mirror chan q.line else t
       let t := if hot then t.logEvent 0x07 q.fn 0xFF 0xFFFF 0
          (BitVec.ofNat 64 (chan / 64 * 65536 + chan % 64 * 256 + bank)) else t
       (t.closeHome (t.homeOf (q.line * 128))).drainHome (t.homeOf (q.line * 128)))) ∧
  (∀ (b : Bank) (full : Bool) (q : McReq), b.next full = some q →
    q ∈ b.reqs ∧ (∀ h ∈ b.held, h.1 ≠ q.fn) ∧ b.reqs.find? (fun x => x.line == q.line) = some q ∧
    (full = true → q.write = true → q.dropped = true) ∧
    let eligible (p : McReq) : Prop := b.reqs.find? (fun x => x.line == p.line) = some p ∧
      (full = true → p.write = true → p.dropped = true)
    (some q.row ≠ b.openRow → ∀ p ∈ b.reqs, p.fn = q.fn → eligible p → some p.row ≠ b.openRow) ∧
    (∃ older younger, b.reqs = older ++ q :: younger ∧ ∀ p ∈ older, p.fn = q.fn → eligible p →
      some q.row = b.openRow ∧ some p.row ≠ b.openRow) ∧
    ∃ k < 64, q.fn = (b.turn + 1 + k) % 64 ∧ ∀ j < k,
      (∃ h ∈ b.held, h.1 = (b.turn + 1 + j) % 64) ∨ ∀ p ∈ b.reqs, p.fn = (b.turn + 1 + j) % 64 → ¬eligible p) ∧
  (∀ (s : State) (chan bank fn : Nat), exec (.hotRowHoldEnd chan bank fn) s = .next { s with lines := { s.lines with
    banks := tmod s.lines.banks (chan * 64 + bank) fun b => { b with
      held := b.held.filter fun h => h.1 != fn
      counts := b.counts.filter fun c => !b.held.contains (fn, c.1) } } }) ∧
  (∀ (s : State) (chan bank : Nat), exec (.refreshWindowEnd chan bank) s = .next { s with lines := { s.lines with
    banks := tmod s.lines.banks (chan * 64 + bank) fun b => { b with counts := [] } } }) ∧
  ∀ (s : State) (line : Nat), line ∈ s.lines.fills → exec (.memoryFill line) s =
    .next (({ s with lines := { s.lines with fills := s.lines.fills.erase line } } : State).close line)

/-! Slides -/

/-- R53 to R55, R60, R62 to R64, R71, R73, R74: the steering rule, and the events of a slide: its start commit, the
passage of blocks through the window of 16, the writing of a block that was read, the completion commit, and the end; each
commit awaits its invalidation and the engine's own writes, and then a tick; and the report, a release, awaits those writes.
(The reading rests on log entries 18, 41 and 56.) -/
def Obligations.SlideEvents : Prop :=
  ∀ (s : State) (n : Nat),
    let x := s.slot n
    let u := s.flushUsers x.after
    let image := some x.index
    (∀ o, (x.new_ < x.old → x.addr o = if o / 128 < x.tide then x.new_ + o else x.old + o) ∧
      (x.old < x.new_ → x.addr o = if x.tide ≤ o / 128 then x.new_ + o else x.old + o)) ∧
    (∀ k, x.nextBlock = some k → tget? x.read k = none ∧
      (x.new_ < x.old → x.tide ≤ k ∧ k < x.tide + 16 ∧ k < x.n ∧ ∀ j, x.tide ≤ j → j < k → (tget? x.read j).isSome = true) ∧
      (x.old ≤ x.new_ → k < x.tide ∧ x.tide ≤ k + 16 ∧ ∀ j, k < j → j < x.tide → (tget? x.read j).isSome = true)) ∧
    (x.state = 1 → x.abandoned = false → u.nextSlide n x = true → u.inUse x.after = false → ∀ t,
      (u.descAsk n x = (t, false) → exec (.slideStartCommit n) s = .next t) ∧
      (u.descAsk n x = (t, true) →
        let code := t.slideCode (BitVec.ofNat 64 (x.ctx * 2 ^ 58 + x.index)) (BitVec.ofNat 64 x.new_) true
        (code ≠ 0 → exec (.slideStartCommit n) s = .next (t.endSlide n x 5 code)) ∧
        (code = 0 →
          let d := (t.descAt x.ctx x.index).1
          let y := { x with
            state := 2, old := d.pa, n := d.blocks, key := d.key, tide := (if x.new_ < d.pa then 0 else d.blocks)
            steering := true, after := t.imageUsers x.ctx image, tick := none }
          exec (.slideStartCommit n) s = .next
            ((((t.setSlot n y).setMoving y true y.new_ y.old y.tide).noteWrites t n).invalidate x.ctx image)))) ∧
    (x.state = 2 →
      (x.tick = none → u.commitReady x = true →
        exec (.slideStartCommit n) s = .next (u.setSlot n { x with tick := some (u.hb (n / 4)) })) ∧
      ∀ k, x.tick = some k → k < u.hb (n / 4) →
        exec (.slideStartCommit n) s = .next (u.setSlot n { x with state := 3, after := [], tick := none })) ∧
    (∀ k (t : State), x.state = 3 → x.abandoned = false → x.nextBlock = some k →
      (x.blockLines k).foldl (fun (acc : State × Bool) l =>
        ((acc.1.settleFor n x l).1, acc.2 && (acc.1.settleFor n x l).2)) (s, true) = (t, true) →
      let a := x.old + 128 * k
      let t := (x.blockLines k).foldl State.clearResv (t.unclaim (4 + n / 4) n)
      let t := (linesAt a).foldl (fun (t : State) l => t.touch l false) t
      let mark : BitVec 2 := if ∃ l ∈ linesAt a, t.poisonOf l ≠ 0 then 3 else 0
      exec (.ebbStep n) s = .next ((x.blockLines k).foldl State.endTransient
        (t.setSlot n { t.slot n with read := tset x.read k (t.homeBytes x.key a 128, mark) })).drainFree) ∧
    (∀ k bs bad, x.state = 3 →
      x.writable[(Config.freeWord 45 s.agenda.free).toNat % max 1 x.writable.length]? = some k →
      tget? x.read k = some (bs, bad) →
      let a := x.new_ + 128 * k
      let room := 128 - a % 128
      let y := ({ x with written := k :: x.written } : Slot).advance 17
      let written (t : State) : State :=
        let t := t.homeStore x.key (a / 128) (bytesAt (a % 128) (bs.take room))
        let t := if room < 128 then t.homeStore x.key (a / 128 + 1) (bytesAt 0 (bs.drop room)) else t
        let t := if bad = 0 then t else (linesAt a).foldl (fun (t : State) l => t.setPoison l 3) t
        t.setSlot n y
      ∀ t, s.newReady n x k = (t, true) →
        (s.tideDue x y = false →
          exec (.ebbStepComplete n) s = .next ((written t).bumpFree.noteWrites t n).drainFree) ∧
        (s.tideDue x y = true → ∀ v, t.agentAsk (4 + n / 4) (n + 512) [t.descTouch x 1 1] = (v, true) →
          exec (.ebbStepComplete n) s = .next ((((written v).writeTide y).bumpFree).noteWrites v n).drainFree)) ∧
    (x.state = 3 → x.left = 0 → x.abandoned = false → ∀ t, s.descAsk n x = (t, true) →
      let y := { x with state := 4, after := t.imageUsers x.ctx image, tick := none }
      exec (.slideCompletionCommit n) s = .next
        ((((t.setSlot n y).setMoving y false y.new_ 0 0).noteWrites t n).invalidate x.ctx image)) ∧
    (x.state = 4 → x.steering = true → u.commitReady x = true → exec (.slideCompletionCommit n) s = .next
      (u.setSlot n { x with steering := false, after := [], tick := some (u.hb (n / 4)) }).drainFree) ∧
    (∀ k, x.state = 4 → x.steering = false → x.tick = some k → k < s.hb (n / 4) →
      exec (.slideReport n) s = .next (s.endSlide n x 5 0)) ∧
    (x.state = 1 → x.abandoned = true → exec (.slideReport n) s = .next (s.endSlide n { x with tide := 0 } 6 0x0A)) ∧
    (x.state = 3 → x.abandoned = true → x.read = [] → exec (.slideReport n) s = .next (s.endSlide n x 6 0x0A)) ∧
    ∀ t st code, ((∃ k ∈ x.acks, s.openId k = true) → s.endSlide n x st code = s) ∧
      ((∀ k ∈ x.acks, s.openId k = false) →
        (s.agentAsk (4 + n / 4) (n + 512) (s.reportTouches x) = (t, false) → s.endSlide n x st code = t) ∧
        (s.agentAsk (4 + n / 4) (n + 512) (s.reportTouches x) = (t, true) → s.endSlide n x st code =
          (let y := { x with state := st, code := code, steering := false, read := [], written := [], after := [], acks := [] }
           ((t.setSlot n y).reportSlide y).drainFree)))

/-- R53, R54, R71: a block is written only once it has been read, and once no block that is still to be read lies
where it goes; the tideline passes over written blocks alone, in copy order, and never moves back. -/
def Obligations.SlidesAdvance : Prop :=
  ∀ (x : Slot) (k fuel : Nat), x.new_ ≠ x.old → x.tide ≤ x.n →
    let y := ({ x with written := k :: x.written } : Slot).advance fuel
    (k ∈ x.writable → (tget? x.read k).isSome = true ∧ k ∉ x.written ∧
      ∀ j < x.n, (if x.new_ < x.old then x.tide ≤ j else j < x.tide) → tget? x.read j = none →
        x.new_ + 128 * k + 128 ≤ x.old + 128 * j ∨ x.old + 128 * j + 128 ≤ x.new_ + 128 * k) ∧
    y.new_ = x.new_ ∧ y.old = x.old ∧ y.n = x.n ∧ y.state = x.state ∧ y.tide ≤ x.n ∧
    (x.new_ < x.old → x.tide ≤ y.tide ∧ ∀ j, x.tide ≤ j → j < y.tide → j = k ∨ j ∈ x.written) ∧
    (x.old < x.new_ → y.tide ≤ x.tide ∧ ∀ j, y.tide ≤ j → j < x.tide → j = k ∨ j ∈ x.written) ∧
    ∀ j, tget? y.read j = none → tget? x.read j = none ∨ j = k ∨ j ∈ x.written

/-! Engine events -/

/-- R14, R171, R173, R176, R332, R333, R342 to R346, R350, R351, R353, R356, R358, R360, R362, R408, R409: the events of
engine commands. A command at the head of its queue begins once its order lets it; one whose verdict is false is discarded; a
command whose writes and emissions are complete signals its target; a peer's answer ends a remote command, which is credited
the bytes that were written. A copy takes byte n from row n / (COLS x size) of its source and writes it to that row of its
destination; the engine performs some of the pieces left, in no promised order, each line pair as a whole, and credits at
the end; `acc.zero` writes zeros to every byte of its lines; `acc.fin` marks its lines FINALISED and writes the outputs. (The
reading rests on log entries 8, 18, 26, 50, 51 and 90.) -/
def Obligations.CommandEvents : Prop :=
  ∀ (s : State) (c : Command) (tm : Team), s.cmd? c.id = some c → s.cmdTeam c = some tm →
    (s.atHead c = true →
      (c.verdict = some true → c.st = .running → c.reply ≠ none →
        exec (.commandStart c.id) s = .next (s.takeReply c tm)) ∧
      (c.verdict = some false → c.st = .queued → exec (.commandStart c.id) s = .next (s.signalCommand c 0)) ∧
      (c.verdict = some true → s.afterDone c = true →
        (c.st = .queued ∨ c.st = .running ∧ c.reply = none ∧ c.pieces ≠ [] →
          (c.kind = .cp → exec (.commandStart c.id) s = .next (s.moveStep c tm
            (copyMoves c (s.site c tm .rd) (s.site c tm .wr)) (fun m => m.srcFault c ++ m.dstFault c) (fun _ => none)
            fun _ => copyBytes c.shape)) ∧
          (c.kind = .put → exec (.commandStart c.id) s = .next (s.startPut c tm)) ∧
          (c.kind = .get → exec (.commandStart c.id) s = .next (s.startGet c tm))) ∧
        (c.st = .queued →
          (c.kind = .coll → exec (.commandStart c.id) s = .next (s.startColl c tm)) ∧
          (∀ k, c.kind = .accZero k → exec (.commandStart c.id) s = .next (s.startAccZero c tm k)) ∧
          (∀ k, c.kind = .accFin k → s.finReady c = true →
            exec (.commandStart c.id) s = .next (s.startAccFin c tm k))) ∧
        (∀ f, c.kind = .feed f → (c.st = .queued ∨ c.st = .running ∧ c.reply = none) →
          exec (.commandStart c.id) s = .next (s.startFeed c tm f)))) ∧
    (let bytes := if shapeKind c.shape = 1 then shapeCols c.shape * shapeBytes c.shape
        else shapeRows c.shape * (shapeCols c.shape * shapeBytes c.shape)
     let row := shapeCols c.shape * shapeBytes c.shape
     let at_ (base pitch : Word) (n : Nat) : Word :=
       base + (BitVec.ofNat 64 (n / max 1 row) * (if pitch = 0 then BitVec.ofNat 64 row else pitch) + BitVec.ofNat 64 (n % max 1 row))
     ∀ (src dst : Word → Site) (n : Nat), (copyMoves c src dst)[n]? = if n < bytes then
       some ⟨n, src (at_ c.src (c.shape.getD 2 0) n), dst (at_ c.dst (c.shape.getD 3 0) n)⟩ else none) ∧
    (∀ (ms : List Move) (stop : Move → List (XFault × Word)) (refused : Move → Option Fault40) (credit : Nat → Nat),
      let todo := ms.filter fun m => !c.pieces.contains m.n
      todo ≠ [] → (ms.map Move.n).Nodup →
      ∃ pick k, pick.Sublist todo ∧ pick ≠ [] ∧ (∀ m ∈ todo, ∀ p ∈ pick, m.unit = p.unit → m ∈ pick) ∧
        ((∃ m ∈ pick, stop m ≠ []) → ∃ f v, (∃ m ∈ pick, (f, v) ∈ stop m) ∧
          s.moveStep c tm ms stop refused credit = (s.engineFault c f v).bumpFree) ∧
        ∀ t, (∀ m ∈ pick, stop m = [] ∧ refused m = none) →
          s.cmdReady c tm (pick.map Move.src) (pick.map Move.dst) = (t, true) → (∀ m ∈ pick, (t.siteByte m.src).2 = false) →
          ∃ val : Move → Byte,
            (∀ m ∈ pick, (∀ x ∈ pick, x.dst.key ≠ m.src.key) ∨
              (∃ a i j, m.src = .tide a i ∧ m.dst = .tide a j) → val m = (t.siteByte m.src).1) ∧
            s.moveStep c tm ms stop refused credit =
              (let u := (((t.writeSites (pick.map fun m => (m.dst, val m))).readsDone (pick.map Move.src)).tookFree k).modCmd
                c.id fun x => { x with
                  pieces := c.pieces ++ pick.map Move.n, passed := c.passed + pick.length, error := c.error }
               if pick.length = todo.length then u.moved t c (credit (c.passed + pick.length)) c.error
               else u.modCmd c.id fun x => { x with st := .running, acks := x.acks ++ u.openSince t })) ∧
    (badHandle c.src2 = false →
      let ctx := (c.src2.extractLsb' 16 6).toNat
      let mark (at_ : Nat → Word) (x : Move → Site) (m : Move) : Option Fault40 :=
        (x m).fault?.map fun _ => c.mark 0x71 (at_ m.n)
      ((c.src2.extractLsb' 0 16).toNat = s.package → ∀ t, s.tableAsk (1348 + tm.core) c.id ctx c.stamp = (t, true) →
        let peer (need : Need) (a : Word) : Site :=
          if t.accepts ctx (t.tag tm.ctx) then t.outerSite ctx need a else .fault targetFault
        s.startPut c tm = t.moveStep c tm (copyMoves c (t.site c tm .rd) (peer .wr)) (Move.srcFault c)
          (mark (dstAddr c) Move.dst) id ∧
        s.startGet c tm = t.moveStep c tm (copyMoves c (peer .rd) (t.site c tm .wr)) (Move.dstFault c)
          (mark (srcAddr c) Move.src) id) ∧
      ((c.src2.extractLsb' 0 16).toNat ≠ s.package →
        s.startGet c tm = s.toFabric c tm (.get c.src2 ((List.range (copyBytes c.shape)).map (srcAddr c))) [] ∧
        let xs := (List.range (copyBytes c.shape)).map fun n => s.site c tm .rd (srcAddr c n)
        ∀ t, (∀ x ∈ xs, x.fault? = none) → s.cmdReady c tm xs [] = (t, true) → (∀ x ∈ xs, (t.siteByte x).2 = false) →
          s.startPut c tm = ((t.readsDone xs).toFabric c tm (.put c.src2 ((List.range (copyBytes c.shape)).map (dstAddr c)))
            (xs.map fun x => some (t.siteByte x).1)).modCmd c.id fun x => { x with error := none })) ∧
    (∀ (n : Nat) (at_ : Nat → Xlat × Nat) (t u : State), c.dst.toNat % 128 = 0 →
      (∀ k < n, s.accSite c tm .accWr (c.dst + BitVec.ofNat 64 (128 * k)) = .mem (at_ k).1 (at_ k).2) →
      s.cmdReady c tm [] (wholeLines ((List.range n).map fun k => .mem (at_ k).1 (at_ k).2)) = (t, true) →
      (List.range n).foldl (fun (acc : State × Bool) k =>
        ((acc.1.flushedLine ((at_ k).2 / 128)).1, acc.2 && (acc.1.flushedLine ((at_ k).2 / 128)).2)) (t, true) = (u, true) →
      s.startAccZero c tm n = (u.writeSites ((List.range n).flatMap fun k => (List.range 128).map fun j =>
        (Site.mem (at_ k).1 ((at_ k).2 / 128 * 128 + j), (0 : Byte)))).moved u c (128 * n) none) ∧
    (∀ (chk : Bool) (ls : List (Xlat × Nat)) (t u v : State), s.tileSites c tm .accRw c.src c.tileLines = .ok ls →
      let whole := wholeLines ((List.range c.tileLines).map fun k => s.accSite c tm .accRw (tileLine c.src k))
      s.flushedOn c.team (ls.map fun l => l.2 / 128) = (t, true) → t.cmdReady c tm whole [] = (u, true) →
      let imgs := ls.map fun l => u.homeBytes l.1.key (l.2 / 128 * 128) 128
      (∀ st, (imgs.zipIdx.findSome? fun x => lineStatus (c.src2.extractLsb' 0 32).toNat x.2 x.1
        ((ls[x.2]?).any fun l => u.poisonOf (l.2 / 128) != 0)) = some st → s.startAccFin c tm chk = u.finStatus u c st) ∧
      ((∀ x ∈ imgs.zipIdx, lineStatus (c.src2.extractLsb' 0 32).toNat x.2 x.1
          ((ls[x.2]?).any fun l => u.poisonOf (l.2 / 128) != 0) = none) →
        (chk = true → ∀ x ∈ imgs, checkFails x = false) → fmtRM c.fmt ≠ 4 →
        let scale := (Fmt.f48.mul 0 (Fmt.f32.val ((c.shape.getD 4 0).extractLsb' 0 32).toNat)
          (Fmt.f32.val ((c.shape.getD 4 0).extractLsb' 32 32).toNat)).1
        let out := finBytes c imgs scale fun e => ((tget? tm.warps c.warp).map fun w => w.a.draw c.lane e).getD 0
        let dest := out.map fun b => (u.site c tm .wr b.1, b.2)
        (∀ x ∈ dest, x.1.fault? = none) → u.cmdReady c tm whole (whole ++ dest.map Prod.fst) = (v, true) →
        s.startAccFin c tm chk = ((v.writeSites (ls.flatMap fun l =>
          let stsc := fieldOf (v.homeBytes l.1.key (l.2 / 128 * 128) 128) 100 2
          [(.mem l.1 (l.2 / 128 * 128 + 101), BitVec.ofNat 8 ((stsc % 2 ^ 14 + 2 ^ 15) / 256))])).writeSites dest).finStatus
            v c 0)) ∧
    (∀ k, c.st = .moved k → (∀ e ∈ s.engines.emissions, e.cmd ≠ c.id) → (∀ n ∈ c.acks, s.openId n = false) →
      exec (.commandComplete c.id) s = .next ((s.finResult c).signalCommand c k)) ∧
    (let gone := (s.unclaimCmd c).dropCmd c.id
     (∀ k e r, c.tkind = 1 → (s.team? c.team).map (fun tm => (tm.rv c.tindex).credit c.phase k) = some (some r) →
      c.error = e → s.signalCommand c k = State.reapAll
        (gone.modTeam c.team fun tm => tm.setRv c.tindex { r with
          marks := r.marks ++ (e.map fun x => (c.phase.toNat, x)).toList })) ∧
     (∀ k e, c.tkind = 2 → c.error = e → s.signalCommand c k = State.reapAll
      (gone.modSlice c.team c.warp .a fun x => { x.count c.tindex with
        marks := x.marks ++ (e.map fun y => (c.tindex, y)).toList })) ∧
     ∀ k e, c.tkind = 3 → c.error = e → s.signalCommand c k = State.reapAll
      (((gone.modWarp c.team c.warp fun w => { w with yields := w.yields - 1 }).modSlice c.team c.warp .a fun x =>
        { x with marks := x.marks ++ (e.map fun y => (yieldMark, y)).toList }).restartYields c.team c.warp)) ∧
    (c.st = .running → c.reply = none → c.pieces = [] →
      let took (r : Reply) : State := s.modCmd c.id fun x => { x with reply := some r }
      let mark := firstMark c.error (some (c.mark 0x71 c.dst))
      let sent := (present (s.sentBy c.id)).length
      (c.kind = .put ∨ c.kind = .get ∨ c.kind = .coll →
        exec (.peerTimeout c.id) s = .next (s.moved s c 0 mark) ∧
        exec (.remoteResponse c.id .refused) s = .next ((took .refused).moved (took .refused) c 0 mark)) ∧
      (c.kind = .put →
        exec (.remoteResponse c.id .done) s = .next ((took .done).moved (took .done) c sent c.error) ∧
        ∀ k, exec (.remoteResponse c.id (.part k)) s = .next ((took (.part k)).moved (took (.part k)) c (min k sent) mark)) ∧
      (c.kind = .get → ∀ bs, bs.length = copyBytes c.shape → exec (.remoteResponse c.id (.data bs)) s =
        .next ((took (.data bs)).landReply { c with reply := some (.data bs) } tm (dstAddr c) bs)) ∧
      (c.kind = .coll → ∀ bs, bs.length = collSize (c.shape.drop 4) * copyBytes c.shape →
        let out := collResult s.agenda.free (c.shape.drop 4) (s.sentBy c.id) bs
        exec (.remoteResponse c.id (.data bs)) s = .next (((took (.data bs)).landReply { c with reply := some (.data bs) } tm
          (fun k => collDest (c.shape.drop 4) + BitVec.ofNat 64 k) out).tookFree out.length)))

/-- R163, R167, R168, R171, R172, R309, R357 to R361, R400: the events of matrix runs. A twin run in a node without
TWIN traps; the array takes its next run when its buckets cover the charge; a differing duplicate traps; a run takes the
bytes of its A stream and then of its B streams as they arrive, and once it has them all sends one emission for each line;
and an emission is applied where its line now is, once the line is its own. (The reading rests on log entries 17, 51, 54,
101 and 102.) -/
def Obligations.MatrixEvents : Prop :=
  ∀ (s : State) (c : Command) (tm : Team), s.cmd? c.id = some c → s.cmdTeam c = some tm → c.matrix = true →
    let cores := if c.isTwin then [tm.core, tm.core + 1] else [tm.core]
    (c.st = .queued → c.verdict = some true → tm.status = .running → s.afterDone c = true → s.atHead c = true →
      (c.isTwin = true → tm.twin = false → ∀ dup, exec (.mmaRunStart c.id dup) s =
        .next ((s.modCmd c.id fun x => { x with st := .faulted }).raise c.team (Trap.ofCommand c 12 0x72 0 0))) ∧
      (c.isTwin = false ∨ tm.twin = true →
        (∀ f a, s.tileSites c tm .accWr c.dst c.tileLines = .fault f a → ∀ dup,
          exec (.mmaRunStart c.id dup) s = .next (s.engineFault c f a)) ∧
        (∀ gs, s.tileSites c tm .accWr c.dst c.tileLines = .walk gs → ∀ dup,
          exec (.mmaRunStart c.id dup) s = .next (s.joinTile c tm gs)) ∧
        ∀ ls u, s.tileSites c tm .accWr c.dst c.tileLines = .ok ls →
          cores.foldl (fun (acc : Option State) k => acc.bind fun s => s.takeFifos k c.team) (some (s.usedTile c tm ls)) =
            some u →
          let t := (cores.foldl State.fillBucket (u.noteReady tm.core)).bumpFree
          ∀ d te charge, t.nextRun tm.core = some d → d.id = c.id → d.isTwin = c.isTwin → d.te = some (te, charge) →
            (∀ k ∈ cores, t.arrayBusy k = false ∧
              (charge ≤ (t.core k).budget.level ∨ (t.core k).budget.level = 65535)) →
            let v := cores.foldl (fun (s : State) k => s.modCore k fun x => { x with
              budget := { x.budget with
                last := min charge 65535, lastTe := te, level := x.budget.level - charge } }) t
            exec (.mmaRunStart c.id false) s = .next { v with engines := { v.engines with
              cmds := v.engines.cmds.map fun (x : Command) =>
                x.started d.id (((v.readyRuns tm.core).filter v.runnable).map Command.id) } } ∧
            exec (.mmaRunStart c.id true) s =
              .next (((v.modCmd d.id fun x => { x with st := .faulted }).raise d.team
                (Trap.ofCommand d 12 0x73 0 0)).logEvent 0x0E (v.ctxFn tm.ctx) tm.ctx (2372 + tm.core) d.dst d.pc))) ∧
    (c.st = .running →
      let t := s.consume tm.core c
      let a := (s.core tm.core).fifoA.take (c.run.lenA - c.gotA.length)
      let first : Prop := c.run.lenA ≤ c.gotA.length + a.length
      let b := if first then (s.core tm.core).fifoB.take (c.run.lenB - c.gotB.length) else []
      let odd := if first ∧ c.isTwin = true then (s.core (tm.core + 1)).fifoB.take (c.run.lenB - c.gotOdd.length) else []
      let d := { c with gotA := c.gotA ++ a, gotB := c.gotB ++ b, gotOdd := c.gotOdd ++ odd }
      t.cmd? c.id = some d ∧
      (t.core tm.core).fifoA = (s.core tm.core).fifoA.drop a.length ∧
      (t.core tm.core).fifoB = (s.core tm.core).fifoB.drop b.length ∧
      (d.needA + d.needB + d.needOdd ≠ 0 → exec (.mmaRunEnd c.id) s = .next t) ∧
      (d.needA + d.needB + d.needOdd = 0 →
        (∀ f v, t.tileSites d tm .accWr c.dst c.tileLines = .fault f v →
          exec (.mmaRunEnd c.id) s = .next (t.engineFault d f v)) ∧
        (∀ gs, t.tileSites d tm .accWr c.dst c.tileLines = .walk gs →
          exec (.mmaRunEnd c.id) s = .next (t.joinTile d tm gs)) ∧
        ∀ ls, t.tileSites d tm .accWr c.dst c.tileLines = .ok ls →
          let r := c.run
          let u := t.usedTile d tm ls
          let es := ls.zipIdx.map fun (l : (Xlat × Nat) × Nat) =>
            let m := l.2 / (shapeCols c.shape / 16)
            let n := l.2 % (shapeCols c.shape / 16) * 16
            let xs := d.gotA.map Prod.fst
            let ys := (if n < r.n then d.gotB else d.gotOdd).map Prod.fst
            u.emissionOf d tm l.1.1 l.2 ((List.range 16).map fun i => r.output xs ys m (n % r.n + i)) (r.check xs ys m (n % r.n))
          let v := ({ u with
            engines := { u.engines with emissions := u.engines.emissions ++ es }
            agenda := { u.agenda with next := u.agenda.next + es.length } } : State).tookFree es.length
          exec (.mmaRunEnd c.id) s = .next ((v.moved v d (128 * c.tileLines) none).modCmd c.id fun x =>
            { x with gotA := [], gotB := [], gotOdd := [] }))) ∧
    ∀ (e : Emission) (pa : Nat) (t : State), s.engines.emissions.find? (fun x => x.id == e.id) = some e →
      s.spot e.xl e.off = .at_ pa → e.scope ≠ 1 →
      let asked := s.askAll (2372 + e.core) e.id (s.stampOf (2372 + e.core) e.id)
        [(pa / 128, e.xl.key, e.xl.fn, e.xl.cache, [false, true], true)]
      (asked = (t, false) → exec (.emissionApply e.id) s = .next t) ∧
      (asked = (t, true) → exec (.emissionApply e.id) s = .next ((t.homeEmission e.xl.key e.xl.fn pa
        (e.vals.map BitVec.toNat) e.poison e.tag.toNat e.scope e.check.toNat e.count).dropEmission e.id))

/-! Nodes, dispatch and contexts -/

/-- R84, R188, R216, R220 to R226: the events of dispatch. A core fits a team only of its own context, within the warps,
granules, tidepool and teams of a core; a deciding function has the core or is granted it; clusters that would change
their mode are cleared first; a node is complete when its last team has retired: DONE is written, and once that write is
complete TARGET is signalled and the successors are decremented; the root program of a starting context is posted before
anything of it is dispatched; the first node of a pool holds later ones back after 820 ticks; a held core is freed after 820;
and a favour that is passed goes to a stream whose word would issue. (The reading rests on log entries 60, 61, 62, 88, 108
and 117.) -/
def Obligations.DispatchEvents : Prop :=
  (∀ (s : State) (ctx core : Nat), s.dispatchable ctx = true → s.rootAwaited ctx = true →
    exec (.teamDispatch ctx core) s = .next (s.postRoot ctx)) ∧
  (∀ (s t : State) (ctx core : Nat) (p : PNode), s.dispatchable ctx = true → s.rootAwaited ctx = false →
    let ok := s.granted (s.ctxFn ctx)
    (s.eligible ctx core).find? (fun p => (s.seatNode ok core p).isSome) = some p → s.seatNode ok core p = some t →
    (s.uncleared t ≠ [] → exec (.teamDispatch ctx core) s = .next ((s.uncleared t).foldl State.clearL1s s)) ∧
    (s.uncleared t = [] → ∀ u, s.agentAsk 3396 (nodeSerial ctx p.va 2) (p.touches s) = (u, true) →
      ∀ v, u.seatNode ok core (p.now u) = some v →
        exec (.teamDispatch ctx core) s = .next (v.freeReserved.tookFree 256))) ∧
  (∀ (s : State) (f : Fit) (core : Nat), s.fits f core = true →
    let ts := s.coreTeams core
    (s.core core).inService = true ∧ core < 1024 ∧ (∀ e ∈ ts, e.2.ctx = f.ctx) ∧ ts.length < 8 ∧
    (ts.map fun e => e.2.fit.warps).sum + f.warps ≤ 32 ∧ (ts.map fun e => e.2.fit.vgran).sum + f.vgran ≤ 256 ∧
    (ts.map fun e => e.2.fit.agran).sum + f.agran ≤ 128 ∧ (ts.map fun e => e.2.fit.tide).sum + f.tide ≤ 1572864 ∧
    (∀ h, (s.core core).heldFor = some h → h.1 = s.ctxFn f.ctx) ∧ ∀ c, s.reserved core = some c → c = f.ctx) ∧
  (∀ (s : State) (n : PNode), s.sched.nodes.find? (fun m => m.ctx == n.ctx && m.va == n.va) = some n →
    (n.ending = none →
      (n.ready = false ∨ n.retired ≠ n.total ∨ n.nextTeam < n.total → exec (.nodeComplete n.ctx n.va) s = .next s) ∧
      (n.ready = true → n.retired = n.total → n.total ≤ n.nextTeam → ∀ t,
        s.agentAsk 3396 (nodeSerial n.ctx n.va 0) [.ctx n.ctx (n.va + 97) 1 true, .ctx n.ctx (n.va + 98) 1 true] = (t, true) →
        let u := t.setRecord n.ctx n.va 4 0
        exec (.nodeComplete n.ctx n.va) s = .next { u with sched := { u.sched with nodes := u.sched.nodes.map fun (m : PNode) =>
          if m.ctx = n.ctx ∧ m.va = n.va then { m with ending := some (u.openSince t) } else m } })) ∧
    (∀ ids, n.ending = some ids →
      ((∃ k ∈ ids, s.openId k = true) → exec (.nodeComplete n.ctx n.va) s = .next s) ∧
      ((∀ k ∈ ids, s.openId k = false) →
      let m := n.now s
      ∀ t, s.agentAsk 3396 (nodeSerial n.ctx n.va 0) (s.completeTouches m) = (t, true) →
        exec (.nodeComplete n.ctx n.va) s = .next (
          let t := { t with sched := { t.sched with
            nodes := t.sched.nodes.filter fun x => !(x.ctx == n.ctx && x.va == n.va) } }
          let t := t.signalTarget n.ctx (recTarget m.record)
          (((List.range (min 8 (recField m.record 96 1))).map (recSucc m.record)).foldl
            (fun (t : State) va => t.decrement n.ctx va) t).tookFree 256)))) ∧
  (∀ (s : State) (ctx : Nat) (p : PNode), (s.pool ctx).head? = some p → p.tick + 820 ≤ s.now →
    exec (.poolStarvation ctx) s = .next { s with sched := { s.sched with
      nodes := s.sched.nodes.map fun (m : PNode) =>
        if m.ctx = p.ctx ∧ m.va = p.va then { m with starved := true } else m } }) ∧
  (∀ (s : State) (core fn since : Nat), (s.core core).heldFor = some (fn, since) →
    since + 820 ≤ tget s.time.hb (core / 16) 0 →
    exec (.heldCoreExpiry core) s = .next (s.modCore core fun c => { c with heldFor := none })) ∧
  (∀ (s : State), 820 ≤ s.sched.samples → exec .partitionPeriod s = .next
    (let t := (List.range 64).foldl (fun (t : State) n => t.setReg (.fnheld n) (setBits (t.reg (.fnheld n)) 32 12
        (4096 + t.guar n - tget t.sched.sums n 0 / 820))) s
     { t with sched := { t.sched with samples := 0, sums := [] } })) ∧
  ∀ (s : State) (core q : Nat) (sl : Slice), core < 1024 → q < 4 →
    let now := tget? (s.core core).favour (favourKey q sl)
    exec (.fairnessRotation core q sl) s = .next { s with agenda := { s.agenda with
      passes := s.agenda.passes ++ [⟨core, q, sl, now, false⟩] } } ∧
    (now = none → ∀ r, (s.streamsOn core q sl).find? s.couldIssue = some r →
      s.giveFavour ⟨core, q, sl, now, false⟩ = s.favour core q sl r) ∧
    ∀ (p : Pass), s.giveFavour p = s ∨ ∃ r ∈ s.streamsOn p.core p.quarter p.slice,
      (p.after = some r ∨ s.couldIssue r = true) ∧ s.giveFavour p = s.favour p.core p.quarter p.slice r

/-- R74, R214 to R216, R227 to R230, R377, R394: the events that take contexts off the package and bring them back.
(The reading rests on log entries 28, 63, 64, 65 and 66.) -/
def Obligations.ContextEvents : Prop :=
  ∀ (s : State) (ctx : Nat) (v : Word),
    let old := s.reg (.ctxctl ctx)
    let wrote := s.setReg (.ctxctl ctx) (ctxctlAfter old v)
    (s.pfOpen = true → ctx < 64 →
      (v.getLsbD 61 = true →
        (s.ctxRun ctx = true ∨ wrote.ctxExists ctx = false → exec (.ctxctlRunSet ctx v) s = .next wrote) ∧
        (s.ctxRun ctx = false → wrote.ctxExists ctx = true →
          (wrote.ctxState ctx = 0 →
            exec (.ctxctlRunSet ctx v) s = .next ((wrote.setCtxState ctx 1).postRoot ctx)) ∧
          (wrote.ctxState ctx = 4 → exec (.ctxctlRunSet ctx v) s = .next (
            let t := wrote.setCtxState ctx 2
            { t with sched := { t.sched with resumed := t.sched.resumed ++ [ctx] } })))) ∧
      (v.getLsbD 61 = false →
        (s.ctxRun ctx = true →
          (wrote.ctxState ctx = 1 ∨ wrote.ctxState ctx = 2 →
            let p : Preempt := { ctx := ctx, ben := none, want := 0, cores := wrote.coresByAge ctx, teams := []
                                 nospace := false, full := true }
            ∀ t q, (wrote.setCtxState ctx 3).haltForSave p false = (t, q) → exec (.ctxctlRunClear ctx v) s =
              .next ({ t with sched := { t.sched with switches := t.sched.switches ++ [q] } } : State).endSwitches) ∧
          (wrote.ctxState ctx = 5 →
            exec (.ctxctlRunClear ctx v) s = .next ((wrote.discardContext ctx).setCtxState ctx 0))) ∧
        (s.ctxRun ctx = false → exec (.ctxctlRunClear ctx v) s = .next
          (if s.ctxExists ctx = true ∧ wrote.ctxExists ctx = false then wrote.destroyContext ctx else wrote)))) ∧
    (s.pfOpen = true → s.ctxExists ctx = true → s.ctxRun ctx = false →
      exec (.contextDestruction ctx) s = .next (s.destroyContext ctx)) ∧
    (s.ctxExists ctx = true → s.ctxState ctx ≠ 0 → exec (.contextFatal ctx) s = .next
      ((((s.discardContext ctx).setCtxState ctx 5).logEvent 0x05 (s.ctxFn ctx) ctx 0xFFFF 0 0).signalCtx ctx)) ∧
    (s.pfOpen = true → (s.reg .preempt).getLsbD 63 = false →
      let u := s.setReg .preempt (v &&& 0xFFFC0000000007FF#64)
      let ctx := (v.extractLsb' 56 6).toNat
      let n := (v.extractLsb' 0 11).toNat
      (v.getLsbD 63 = false → exec (.preemptGo v) s = .next u) ∧
      (v.getLsbD 63 = true →
        (u.ctxExists ctx = false ∨ (u.ctxState ctx ≠ 1 ∧ u.ctxState ctx ≠ 2) ∨ n = 0 → exec (.preemptGo v) s =
          .next (((u.setReg .preemptst (setBits 0 60 4 3)).setReg .preempt (setBits (u.reg .preempt) 63 1 0)).signal
            0 0)) ∧
        (u.ctxExists ctx = true → (u.ctxState ctx = 1 ∨ u.ctxState ctx = 2) → n ≠ 0 →
          let p : Preempt := { ctx := ctx, ben := if v.getLsbD 62 then some ((v.extractLsb' 50 6).toNat) else none
                               want := n, cores := u.choose ctx n, teams := [], nospace := false, full := false }
          ∀ t q, u.haltForSave p true = (t, q) →
            let w := match q.ben with
              | some b => q.cores.foldl (fun (t : State) c => t.holdFor b c) t
              | none => t
            exec (.preemptGo v) s = .next { w with sched := { w.sched with preempt := some q } }))) ∧
    (∀ p, s.sched.preempt = some p → s.leaving p = [] →
      let code := if p.nospace then 2 else if p.cores.length < p.want then 1 else 0
      let t := { s with sched := { s.sched with preempt := none } }
      exec .preemptComplete s = .next
        (((t.setReg .preemptst (setBits (setBits 0 60 4 code) 0 11 p.cores.length)).setReg .preempt
          (setBits (t.reg .preempt) 63 1 0)).signal 0 0).endSwitches) ∧
    ∀ (t : Nat) (tm : Team) (bs : List Nat), s.team? t = some tm → tm.status = .saving →
      s.blocksOk tm.ctx tm.imageBlocks bs = true →
      (s.flushTeam t).gathering t = false → (s.flushTeam t).settled t tm = true →
      ∀ u, (s.flushTeam t).agentAsk 3396 (4 * t + 3) ((s.flushTeam t).imageTouches tm.ctx bs) = (u, true) →
        exec (.teamSave t bs) s = .next (((((u.writeImage tm.ctx bs).takeImage t tm).modTeam t fun x => { x with
          status := .saved bs }).vacate t tm).endSwitches)

/-! Traps -/

/-- R213, R338, R339, R383 to R393, R445: a trap's entry and the events that follow it. The first trap of a running
team is its primary cause and the split that raised it issues no more; a later one is noted for its warp; a halt
leaves a stream at most 12 words; a settled team's record goes to its save area, and is handed over once it is complete;
and its resolution acts on it. (The reading rests on log entries 27, 59, 67, 68, 69 and 70.) -/
def Obligations.TrapEvents : Prop :=
  (∀ (s : State) (i : Issue) (tr : Trap), s.raiseAt i tr =
    (s.modSplit i.ref fun sp => { sp with wait := .trapped }).modTeam i.ref.team fun tm =>
      let first := { tm with status := .trapping, primary := some tr }
      match tm.status with
      | .running => first
      | .saving => first
      | .trapping => { tm with warps := tmod tm.warps tr.warp fun w =>
          { w with cause := some (w.cause.getD (tr.code, tr.sub)) } }
      | .saved _ => tm
      | .trapped .. => tm) ∧
  (∀ (i : Issue), i.sp.wait = .trapped → i.allowed = false) ∧
  (∀ (s : State) (t w k : Nat) (sl : Slice) (tm : Team), s.team? t = some tm →
    tm.status = .trapping ∨ tm.status = .saving →
    let past := s.pastFault t w sl
    exec (.haltArrival t w sl k) s = .next (s.modSlice t w sl fun x =>
      if x.ended = true ∨ x.halt ≠ none then x
      else { x with halt := some (min k (12 - past)), skid := min past 12, offers := [] })) ∧
  (∀ (s : State) (t w code : Nat) (sl : Slice) (wp : Warp) (tm : Team) (rest : List (Nat × Warp × Slice)),
    s.team? t = some tm → tm.status = .running → tm.streams = (w, wp, sl) :: rest →
    s.stuckStream t tm w wp sl = some code → (∀ x ∈ rest, s.stuckStream t tm x.1 x.2.1 x.2.2 ≠ none) →
    ∃ tr, exec (.stalemateDetect t) s = .next (s.raise t tr) ∧ tr.code = 11 ∧ tr.sub = code ∧ tr.warp = w ∧
      tr.slice = sl ∧ tr.lanes = 0xFFFFFFFF ∧ ∀ sp, (wp.slice sl).splits.head? = some sp → tr.pc = sp.pc) ∧
  (∀ (s : State) (t : Nat) (bs : List Nat) (tm : Team) (tr : Trap), s.team? t = some tm → tm.status = .trapping →
    tm.primary = some tr →
    let u := s.flushTeam t
    let last := u.saveSize tm.ctx - 1
    u.gathering t = false → u.settled t tm = true →
    (tm.imageBlocks ≤ u.openBlocks tm.ctx → u.blocksOk tm.ctx tm.imageBlocks bs = true →
      exec (.trapRecordWrite t bs) s = .next (u.recordTrap t tm tr bs true)) ∧
    (u.openBlocks tm.ctx < tm.imageBlocks → u.saveSize tm.ctx = 0 ∨ last ∈ u.takenBlocks tm.ctx →
      exec (.trapRecordWrite t bs) s = .next (u.contextFatal tm.ctx)) ∧
    (u.openBlocks tm.ctx < tm.imageBlocks → u.saveSize tm.ctx ≠ 0 → last ∉ u.takenBlocks tm.ctx →
      exec (.trapRecordWrite t bs) s = .next (u.recordTrap t tm tr [last] false))) ∧
  (∀ (s : State) (t : Nat) (bs blocks : List Nat) (tm : Team) (r : Word) (image : Bool) (ids : List Nat),
    s.team? t = some tm → tm.status = .trapped r blocks image → tm.telling = some ids →
    ((∃ x ∈ ids, s.openId x = true) → exec (.trapRecordWrite t bs) s = .next s) ∧
    ((∀ x ∈ ids, s.openId x = false) → ∀ u, s.agentAsk 3396 (4 * t + 3) (s.handTouches tm) = (u, true) →
      exec (.trapRecordWrite t bs) s = .next ((u.handTrap tm r).modTeam t fun x => { x with telling := none }))) ∧
  (∀ (s : State) (line t v : Nat) (tm : Team) (r : Word) (bs : List Nat) (image : Bool), s.team? t = some tm →
    tm.status = .trapped r bs image → s.resolveWord tm.ctx r line = some v →
    (tm.resolve = none → 1 ≤ v → v ≤ 3 → (s.noteResolve line).team? t = some { tm with resolve := some v }) ∧
    (tm.resolve ≠ none → (s.noteResolve line).team? t = some tm)) ∧
  ∀ (s u : State) (ctx t : Nat) (r : Word) (tm : Team),
    (∀ v, s.resolving ctx r v = (u, some (t, tm)) → tm.resolve = some v) ∧
    (s.resolving ctx r 3 = (u, some (t, tm)) → exec (.resolveDiscard ctx r) s = .next (u.discardTeam t tm r)) ∧
    (∀ bs, tm.status = .trapped r bs true →
      (s.resolving ctx r 1 = (u, some (t, tm)) →
        exec (.resolveResume ctx r) s = .next ((u.reloadFor t tm).resume t tm r bs)) ∧
      (∀ tr, tm.primary = some tr → s.resolving ctx r 2 = (u, some (t, tm)) →
        exec (.resolveSkip ctx r) s = .next ((u.passOver t tr).resume t tm r bs))) ∧
    (∀ bs, tm.status = .trapped r bs false →
      (s.resolving ctx r 1 = (u, some (t, tm)) → exec (.resolveResume ctx r) s = .next (u.discardTeam t tm r)) ∧
      (s.resolving ctx r 2 = (u, some (t, tm)) → exec (.resolveSkip ctx r) s = .next (u.discardTeam t tm r)))

/-! Losses and errors -/

/-- R120, R395 to R397, R400, R401, R421: losses fail the contexts that they reach; a removed core's deltas poison their
lines; an uncorrectable error kills a lane, poisons a half or a line, or drops a copy; a mismatch of the two copies of
a WATCH warp traps at its word; a corrected one is logged; and symbol errors are corrected up to four in a read, two
while a TSV group trains (R421). (The reading rests on log entries 17, 71, 72, 85 and 90.) -/
def Obligations.LossesAndErrors : Prop :=
  ∀ (s : State),
    (∀ l, exec (.dieLoss l) s = .next
      (let t := (s.reached l).foldl (fun (t : State) c => t.contextFatal c) s
       let t := { t with head := { t.head with
        lostDies := (t.head.lostDies ++ (Loss.die? l).toList).eraseDups
        lostChannels := (t.head.lostChannels ++ Loss.channels l).eraseDups } }
       (match Loss.die? l with
        | some d => t.dropDie d
        | none => t).dropLost)) ∧
    (∀ n, exec (.coreRemovedFromService (.core n)) s = .next
      (let t := (((List.range 64).filter fun c => s.residentOn c fun k =>
          k == n || ((s.core n).fused && k / 4 == n / 4)).foldl (fun (t : State) c => t.contextFatal c) s)
       let t := ((t.core n).deltas.map DLine.line).foldl (fun (t : State) l => t.poisonHalves l 3) t
       t.modCore n fun c => { c with l1 := [], deltas := [], misses := [], icache := [], ranges := [], walks := []
                                     answers := [], fifoA := [], fifoB := [], fifoOwner := none, inService := false })) ∧
    (∀ c, exec (.coreRemovedFromService (.gather c)) s = .next (s.emptyBuffer c)) ∧
    (∀ t w l, exec (.uncorrectableError (.lane t w l)) s = .next (s.kill t w (laneBit l)).reapAll) ∧
    (∀ line hi, exec (.uncorrectableError (.half line hi)) s = .next (s.poisonHalves line (if hi then 2 else 1))) ∧
    (∀ line hi k, let fits := if (tget? s.lines.training (s.channelOf (line * 128))).isSome then k ≤ 2 else k ≤ 4
      (fits → exec (.uncorrectableError (.symbols line hi k)) s = .next (s.logEvent 0x01 0xFF 0xFF 0xFFFF 0 0) ∧
        exec (.correctedError (.symbols line hi k)) s = .next (s.logEvent 0x01 0xFF 0xFF 0xFFFF 0 0)) ∧
      (¬fits → exec (.uncorrectableError (.symbols line hi k)) s = .next (s.poisonHalves line (if hi then 2 else 1)) ∧
        exec (.correctedError (.symbols line hi k)) s = .next (s.poisonHalves line (if hi then 2 else 1)))) ∧
    (∀ line, exec (.uncorrectableError (.tag line)) s = .next ((s.settleLine line).poisonHalves line 3)) ∧
    (∀ cmd, exec (.uncorrectableError (.engine cmd)) s = .next (s.modCmd cmd fun c => { c with
      error := some (c.error.getD (c.mark 0x70 c.src)) })) ∧
    (∀ st i lane v, s.issue? st = some i → i.tm.watch = true → i.allowed = true →
      exec (.uncorrectableError (.copies st lane v)) s = .next ((s.decodeTrap i 14 0x7C v).logEvent 0x0C
        (s.ctxFn i.tm.ctx) i.tm.ctx (324 + i.tm.core) i.sp.pc (BitVec.ofNat 64 lane))) ∧
    (∀ e, (∃ core n, e = .rangeBuffer core n) ∨ (∃ core line, e = .icache core line) ∨
      (∃ core line, e = .l1 core line) → exec (.uncorrectableError e) s = .next (s.dropCopy e)) ∧
    ∀ e, (∀ line hi k, e ≠ .symbols line hi k) → exec (.correctedError e) s = .next ((s.dropCopy e).logEvent 0x01 0xFF 0xFF (s.errorAgent e) 0 0)

/-! Headland and the host -/

/-- R99, R100, R411 to R413: a function-level reset: GO lists the spans of the function's contexts and discards the
contexts; its states follow each other in order; once no copy under the key slot is left, the slot is rotated; and line after line is cleared before the
list entry is marked done. (The reading rests on log entries 79 and 82.) -/
def Obligations.FunctionReset : Prop :=
  ∀ (s : State) (n : Nat),
    let go : Prop := s.fnInReset n = true
    let st := s.fnState n
    (∀ v, s.pfOpen = true → n < 64 → n ≠ 0 → ¬go → v.getLsbD 63 = true →
      let clist : Word := v &&& 0x000FFFFFFFFFFFF0#64
      let list : List Span := ((s.ctxsOf n).flatMap s.ctxSpans).zipIdx.map fun x =>
        ⟨n, x.1.1, x.1.2, 0, if clist = 0 then none else some (clist.toNat + 16 * x.2)⟩
      let t := s.setReg (.fnrst n) (clist ||| (9#64 <<< 60))
      let t := { t with head := { t.head with spans := t.head.spans ++ list } }
      exec (.fnrstGo n v) s = .next ((t.ctxsOf n).foldl (fun (t : State) c => t.resetContext c) t)) ∧
    (∀ v, go → exec (.fnrstGo n v) s = .next s) ∧
    (∀ v, s.pfOpen = true → n < 64 → ¬go →
      (n = 0 → v.getLsbD 63 = true → exec (.fnrstGo n v) s = .next (s.setReg (.fnrst n) (v &&& 0x000FFFFFFFFFFFF0#64))) ∧
      (v.getLsbD 63 = false →
        exec (.registerWrite (.fnrst n) v) s = .next (s.setReg (.fnrst n) (v &&& 0x000FFFFFFFFFFFF0#64)))) ∧
    (go → st = 1 → s.sliding n = false → exec (.fnrstQuiesce n) s = .next (s.setFnState n 2)) ∧
    (go → ∀ k t, s.slotOf n = some k →
      let goesOn (u : State) : Prop :=
        (u.dropKey k = (t, false) → exec (.fnrstRotate n) s = .next t) ∧
        (u.dropKey k = (t, true) → exec (.fnrstRotate n) s = .next { t.rotate k with
          head := { (t.rotate k).head with rotating := (t.rotate k).head.rotating.erase n } })
      (st = 2 → goesOn
        (({ s with head := { s.head with rotating := addOnce s.head.rotating n } } : State).setFnState n 3)) ∧
      (st = 3 → n ∈ s.head.rotating → goesOn s)) ∧
    (∀ k, let t := s.rotate k
      t.head.slotKey = tset s.head.slotKey k s.head.nextKey ∧ t.head.nextKey = s.head.nextKey + 1 ∧ t.mem = s.mem ∧
      ∀ c ∈ t.cores, (∀ x ∈ c.2.l1, x.key ≠ k) ∧ (∀ x ∈ c.2.deltas, x.key ≠ k)) ∧
    (go → st = 3 → n ∉ s.head.rotating → ∀ t, (s.writeClearList n = (t, true) → exec (.fnrstClear n) s = .next (t.setFnState n 4)) ∧
      (s.writeClearList n = (t, false) → exec (.fnrstClear n) s = .next t)) ∧
    (go → st = 4 → ∀ p t, s.openSpan n = some p →
      (s.clearTurn n (p.base / 128 + p.cleared) = (t, false) → exec (.fnrstClear n) s = .next t) ∧
      (s.clearTurn n (p.base / 128 + p.cleared) = (t, true) →
        exec (.fnrstClear n) s = .next { t with head := { t.head with
          spans := t.head.spans.map fun q => if q = p then { q with cleared := q.cleared + 1 } else q } })) ∧
    (∀ line t, s.askAll 3398 n (s.stampOf 3398 n) [(line, (s.slotOf n).getD 0, n, 0, [false, true], true)] = (t, true) →
      (t.dir line).mode = 0 → s.clearTurn n line = (t.clearLine line, true)) ∧
    (go → st = 4 → ∀ p, s.head.spans.find? (fun p => p.fn == n && p.cleared == p.lines) = some p →
      let done (t : State) : State := { t with head := { t.head with spans := t.head.spans.erase p } }
      (p.record = none → exec (.clearSpanDone n) s = .next (done s)) ∧
      ∀ a, p.record = some a → ∀ t,
        (s.agentAsk 3397 n [.phys 0 0 a 8 true] = (t, true) → exec (.clearSpanDone n) s =
          .next ((done t).physWrite 0 a (leBytes 8 (p.base + 2 ^ 63)) 2)) ∧
        (s.agentAsk 3397 n [.phys 0 0 a 8 true] = (t, false) → exec (.clearSpanDone n) s = .next t)) ∧
    (go → st = 4 → (∀ p ∈ s.head.spans, p.fn ≠ n) → exec (.fnrstIdle n) s =
      .next ((s.setReg (.fnrst n) (setBits (setBits (s.reg (.fnrst n)) 60 3 0) 63 1 0)).signal 0 1)) ∧
    (s.MemOk → ∀ a, memRead (s.clearLine (a / 128)).mem a = 0) ∧
    ∀ line, tget? (s.clearLine line).lines.keyed line = none

/-- R422 to R428: the commands of the mailboxes, and the three phases of an answer: BUF, STATUS and OUTLEN; then DONESEQ;
then the signal, each once the one before is complete. (The reading rests on log entries 13, 77, 79, 81 and 122.) -/
def Obligations.MailboxCommands : Prop :=
  ∀ (m : Nat) (q : Request) (s u : State),
    let unlessRecovery (t : State) (a : MbxAnswer) : MbxAnswer := if t.head.recovery then (1, []) else a
    let fn (t : State) : Nat := if m = 64 then 0 else t.ctxFn m
    let sensors (t : State) : MbxAnswer := unlessRecovery t (0, t.sampled.sensorRecord)
    let log (t : State) : MbxAnswer := unlessRecovery t (0,
      ((t.head.log.filter fun e => decide (leNat (q.arg.take 8) ≤ e.seq) && (m == 64 || e.fn == fn t)).take
        (q.buflen / 32)).flatMap Event.bytes)
    let report (t : State) : List Byte := t.report (fn t) (q.arg.take 32)
    let attest (t : State) : MbxAnswer := unlessRecovery t (if 2 ^ 20 ≤ t.head.leaf then (4, [])
      else if q.buflen < (report t).length then (2, []) else (0, report t))
    let refused (_ : State) : MbxAnswer := (1, [])
    let stage (t : State) : MbxAnswer := ((t.mbxRead m q.buf q.buflen).elim 3 fun _ => 0, [])
    let f := leNat (q.arg.take 1)
    let g := leNat ((q.arg.drop 1).take 1)
    let swap (t : State) : MbxAnswer := unlessRecovery t (
      if 64 ≤ f ∨ 64 ≤ g then (2, []) else if t.unrest f || t.unrest g then (6, [])
      else if (t.slotOf f).isSome ∧ (t.slotOf g).isSome then (0, []) else (2, []))
    let w := leNat (q.arg.take 2)
    let power (t : State) : MbxAnswer := unlessRecovery t (if 2000 ≤ w ∧ w ≤ 5600 then (0, []) else (2, []))
    (∀ v, s.portUp 0 = true ∨ s.portUp 1 = true → exec (.hldoorRing v) s = .next { s with head := { s.head with
      wakes := tset s.head.wakes 64 (tget s.head.wakes 64 0 ||| 1) } }) ∧
    (q.cmd = 1 → Asked s u m q sensors →
      exec (.sensors m) s = .next ((if u.head.recovery then u else u.sampled).answer m q (sensors u))) ∧
    (u.sampled.head.intake = (Config.freeWord 54 u.agenda.free).setWidth 16 ∧ u.sampled.mem = u.mem) ∧
    (q.cmd ∉ listed → Asked s u m q (fun _ => (2, [])) → exec (.sensors m) s = .next (u.answer m q (2, []))) ∧
    (q.cmd = 2 → Asked s u m q log → exec (.log m) s = .next (u.answer m q (log u))) ∧
    (q.cmd = 3 → Asked s u m q attest → exec (.attest m) s = .next (
      (if (attest u).1 = 0 then { u with head := { u.head with leaf := u.head.leaf + 1 } } else u).answer m q (attest u))) ∧
    (m ≠ 64 → Asked s u m q refused →
      (q.cmd = 0x10 → exec (.fwstage m) s = .next (u.answer m q (1, []))) ∧
      (q.cmd = 0x20 → exec (.keyswap m) s = .next (u.answer m q (1, []))) ∧
      (q.cmd = 0x21 → exec (.power m) s = .next (u.answer m q (1, [])))) ∧
    (m = 64 → q.cmd = 0x10 → Asked s u m q stage → ∀ t bs, u.mbxRead m q.buf q.buflen = some (t, bs) →
      let b : Bank427 := ⟨memWrites (t.head.bank (1 - t.head.active)).bytes (leNat (q.arg.take 8)) bs⟩
      exec (.fwstage m) s = .next (({ t with
        head := if t.head.active = 0 then { t.head with bank1 := b } else { t.head with bank0 := b } } :
          State).answer m q (0, []))) ∧
    (m = 64 → q.cmd = 0x20 → AskedWhen s u m q (fun t q => t.swapReady m q) swap →
      (swap u ≠ (0, []) → exec (.keyswap m) s = .next (u.answer m q (swap u))) ∧
      (swap u = (0, []) → ∀ a b, u.slotOf f = some a → u.slotOf g = some b →
        let t := (u.rotate a).rotate b
        exec (.keyswap m) s = .next (({ t with head := { t.head with
          slotOwner := tset (tset t.head.slotOwner a g) b f } } : State).answer m q (0, [])))) ∧
    (m = 64 → q.cmd = 0x21 → Asked s u m q power →
      (power u ≠ (0, []) → exec (.power m) s = .next (u.answer m q (power u))) ∧
      (power u = (0, []) → exec (.power m) s = .next
        (({ u with head := { u.head with cap := BitVec.ofNat 16 w } } : State).answer m q (0, [])))) ∧
    (q.cmd = 0x11 →
      let commit (t : State) : MbxAnswer := if m ≠ 64 then (1, []) else if t.head.verifies (1 - t.head.active) then (0, []) else (5, [])
      Asked { s with head := { s.head with tryNext := false } } u m q commit →
      let w := if commit u = (0, []) then ({ u with head := { u.head with tryNext := true } } : State).answer m q (0, [])
        else u.answer m q (commit u)
      (w.head.tryNext = true → exec (.fwcommit m) s = .next (if s.head.recovery then w.coldStart true else w)) ∧
      (w.head.tryNext = false → exec (.fwcommit m) s =
        .next { w with head := { w.head with tryNext := s.head.tryNext } })) ∧
    (∀ st, u.answer m q (st, []) =
      let put (t : State) (o : Nat) (bs : List Byte) : State := (t.mbxWrite m (t.mbxAddr m + BitVec.ofNat 64 o) bs).getD t
      let t := put (put u 10 (leBytes 2 st)) 76 (leBytes 4 0)
      t.answerOn ⟨m, q.seq, false, t.openSince u⟩ 3) ∧
    ∀ (t : State) (a : Answering) (k : Nat),
      let waits := { t with head := { t.head with answered := (t.head.answered.filter fun b => b.mbx != a.mbx) ++ [a] } }
      let seqAt := t.mbxAddr a.mbx + 4
      ((∃ x ∈ a.ids, t.openId x = true) → t.answerOn a (k + 1) = waits) ∧
      ((∀ x ∈ a.ids, t.openId x = false) → a.done = false →
        ∀ w, t.agentAsk 3397 (64 + a.mbx) (t.mbxTouch a.mbx seqAt 4 true) = (w, true) →
          let x := (w.mbxWrite a.mbx (w.mbxAddr a.mbx + BitVec.ofNat 64 4) (leBytes 4 a.seq)).getD w
          t.answerOn a (k + 1) = x.answerOn { a with done := true, ids := x.openSince w } k) ∧
      ((∀ x ∈ a.ids, t.openId x = false) → a.done = true →
        ∀ w, t.agentAsk 3397 (64 + a.mbx) (if a.mbx = 64 then [] else [t.wakeTouch a.mbx]) = (w, true) →
          let x := { w with head := { w.head with
            answered := w.head.answered.filter fun b => b.mbx != a.mbx
            pulled := if a.mbx = 64 then [] else w.head.pulled } }
          t.answerOn a (k + 1) = if a.mbx = 64 then x.signal 0 2 else x.orWake a.mbx (1#64 <<< 63))

/-- R70, R115, R116, R122 to R127, R143, R402, R403, R406, R408, R409, R414: what the host, the host's caches and the
fabric's peers do; a port that fails to train at cold start is logged. A write is answered once it is complete (R105). (The
reading rests on log entries 9, 18, 35, 73, 74, 75, 100 and 122.) -/
def Obligations.HostAndFabric : Prop :=
  ∀ (s : State),
    let out (t : State) (o : Out) : State := { t with host := { t.host with out := t.host.out ++ [o] } }
    let logged (t : State) (fn x : Nat) : State := t.logEvent 0x0A fn 0xFF 0xFFFF (BitVec.ofNat 64 x) 0
    let answers (t old : State) (o : Out) : State := match t.openSince old with
      | [] => out t o
      | ids => { t with host := { t.host with pending := t.host.pending ++ [(o, ids)] } }
    (∀ port (x : BitVec 52) len tag t w, s.portUp port = true → 1 ≤ len → x.toNat % 64 + len ≤ 64 →
      s.hostArrival port (.read len tag) x.toNat = (t, w) →
      (∀ fn, t.reach x.toNat len = .refused fn → exec (.cxlMemRead port x len tag) s =
        .next ((out (logged t fn x.toNat) (.read tag [] true)).hostDone w)) ∧
      ∀ fn pa as u, t.reach x.toNat len = .at_ fn pa → t.hostPlaces pa len = some as →
        (t.hostAsk w (t.hostSlot fn) (t.hostOwner pa) as false = (u, false) →
          exec (.cxlMemRead port x len tag) s = .next u) ∧
        (t.hostAsk w (t.hostSlot fn) (t.hostOwner pa) as false = (u, true) →
          ((∃ l ∈ linesOf as, u.storesOpen l = true) → exec (.cxlMemRead port x len tag) s = .next
            ((linesOf as).foldl (fun (v : State) l => v.claim l (w.req (t.hostSlot fn) (v.hostOwner pa))) u)) ∧
          ((∀ l ∈ linesOf as, u.storesOpen l = false) →
            let v := (linesOf as).foldl (fun (v : State) l => v.touch l false) u
            let bad := as.any v.poisonedAt
            exec (.cxlMemRead port x len tag) s = .next
              (((out v (.read tag (if bad then [] else as.map fun a => v.homeByte (t.hostSlot fn) a) bad)).hostDone
                w).drainFree)))) ∧
    (∀ port (x : BitVec 52) bs t w, s.portUp port = true → 1 ≤ bs.length → x.toNat % 64 + bs.length ≤ 64 →
      s.hostArrival port (.write bs) x.toNat = (t, w) →
      (∀ fn, t.reach x.toNat bs.length = .refused fn →
        exec (.cxlMemWrite port x bs) s = .next ((logged t fn x.toNat).hostDone w)) ∧
      ∀ fn pa as u, t.reach x.toNat bs.length = .at_ fn pa → t.hostPlaces pa bs.length = some as →
        (t.hostAsk w (t.hostSlot fn) (t.hostOwner pa) as true = (u, false) → exec (.cxlMemWrite port x bs) s = .next u) ∧
        (t.hostAsk w (t.hostSlot fn) (t.hostOwner pa) as true = (u, true) →
          let v := (linesOf as).foldl (fun (v : State) l => v.homeStore (v.hostSlot fn) l
            (((as.zip bs).filter fun b => lineOf b.1 == l).map fun b => (b.1 % 128, b.2))) u
          exec (.cxlMemWrite port x bs) s = .next ((answers v u (.written x)).hostDone w).drainFree)) ∧
    (∀ port x, exec (.hostSharedRequest port x) s = .next (s.hostCache port x false) ∧
      exec (.hostOwnershipRequest port x) s = .next (s.hostCache port x true)) ∧
    (∀ port (x : BitVec 52) own t w, s.portUp port = true →
      let at_ := x.toNat / 64 * 64
      s.hostArrival port (if own then .own else .shared) at_ = (t, w) →
      (∀ fn, t.reach at_ 64 = .refused fn → s.hostCache port x own =
        (out (logged t fn at_) (.granted (BitVec.ofNat 52 at_) own [] true)).hostDone w) ∧
      ∀ fn pa a, t.reach at_ 64 = .at_ fn pa → t.hostSpot pa = .at_ a → t.hostSpot (pa + 63) = .at_ (a + 63) →
        a % 64 = 0 → t.isHost a = false →
        let line := lineOf a
        let hi := decide (64 ≤ a % 128)
        let r := w.req (t.hostSlot fn) (t.hostOwner a)
        let won (f : Nat) : Settle := { line := line, halves := [], evict := false, drop := false, reply := none
                                        stamp := w.stamp, agent := w.agent, fn := f, keep := !own
                                        grant := some (w.id, fn, a, own) }
        let granted (v : State) : State :=
          let v := v.hostHas line hi (if own then 2 else 1) (if own then some w.agent else none)
          let bad := v.poisonedAt a
          (out v (.granted (BitVec.ofNat 52 w.addr) own (if bad then [] else v.homeBytes (v.hostSlot fn) a 64) bad)).hostDone
            w
        ((∀ b ∈ t.host.backInv, ¬(b.1 = line ∧ b.2.1 = hi)) →
          (∀ u, t.ask line r [hi] own false = (u, false) → s.hostCache port x own = u) ∧
          ∀ u, t.ask line r [hi] own false = (u, true) →
            let v := u.touch line false
            (own = false → s.hostCache port x own = (granted v).drainFree) ∧
            (own = true → v.storesOpen line = true → s.hostCache port x own = v.claim line r) ∧
            (own = true → v.storesOpen line = false → ∀ y,
              (v.startSettle (won r.fn) = (y, true) → s.hostCache port x own = y.drainFree) ∧
              (v.startSettle (won r.fn) = (y, false) → s.hostCache port x own = y))) ∧
        ∀ write stamp agent,
          t.host.backInv.find? (fun b => b.1 == line && b.2.1 == hi) = some (line, hi, write, stamp, agent) →
          let older : Prop := (w.stamp - stamp).msb = true ∨ (w.stamp = stamp ∧ w.agent < agent)
          (¬older → s.hostCache port x own = t.claim line r) ∧
          (older → let v := t.dropSnoop line hi
            s.hostCache port x own =
              ({ v with net := { v.net with settles := won r.fn :: v.net.settles } } : State).close line)) ∧
    (∀ (w : HostWait) (x : Settle) (fn a : Nat) (own : Bool), s.host.waits.find? (fun v => v.id == w.id) = some w →
      x.reply = none → x.drop = false → x.evict = false → x.grant = some (w.id, fn, a, own) →
      let v := if x.keep then s else s.modDir x.line fun d => { d with mode := 0, coarse := false, ptrs := [], dies := 0 }
      s.endSettle x = ({ v with net := { v.net with settles := v.net.settles.erase x } } : State).grant w fn a own) ∧
    (∀ port (x : BitVec 52) bs t w fn pa a, s.portUp port = true → bs.length = 64 →
      s.hostArrival port (.back bs) (x.toNat / 64 * 64) = (t, w) →
      t.reach (x.toNat / 64 * 64) 64 = .at_ fn pa → t.hostSpot pa = .at_ a → a % 64 = 0 →
      let hi := decide (64 ≤ a % 128)
      (t.hostHalf (lineOf a) hi ≠ 2 → exec (.hostWriteback port x bs) s = .next (t.hostDone w)) ∧
      (t.hostHalf (lineOf a) hi = 2 → ∀ u,
        let as := (List.range 64).map (a + ·)
        (t.hostAsk w (t.hostSlot fn) (t.hostOwner pa) as true = (u, false) →
          exec (.hostWriteback port x bs) s = .next u) ∧
        (t.hostAsk w (t.hostSlot fn) (t.hostOwner pa) as true = (u, true) → exec (.hostWriteback port x bs) s =
          .next (((answers ((u.homeStore (u.hostSlot fn) (lineOf a) (bytesAt (a % 128) bs)).hostHas (lineOf a) hi 0 none)
            u (.written x)).hostDone w).drainFree)))) ∧
    (∀ line hi (modified : Option (List Byte)) write stamp agent,
      s.host.backInv.find? (fun b => b.1 == line && b.2.1 == hi) = some (line, hi, write, stamp, agent) →
      let back := s.waitingBack line hi
      let t := match modified.orElse fun _ => back.map Prod.snd with
        | some bs => if s.hostHalf line hi = 2 ∧ bs.length = 64 ∧ (∀ x, s.settle? line = some x → x.drop = false) then (((s.clearResv line).homePut (((s.l2? line).map L2Line.key).getD 0)
            line (bytesAt (if hi then 64 else 0) bs)).changed line) else s
        | none => s
      let t := match back with
        | some (w, _) => (out t (.written (BitVec.ofNat 52 w.addr))).hostDone w
        | none => t
      let t := t.hostHas line hi (if write = true ∨ back ≠ none then 0 else 1) none
      exec (.backInvalidationResponse line hi modified) s = .next (({ t with host := { t.host with
        backInv := t.host.backInv.filter fun b => !(b.1 == line && b.2.1 == hi) } } : State).close line)) ∧
    (∀ line hi inv t w, s.isHost (line * 128) = true →
      s.hostArrival (s.portOf (line * 128)) (.snoop inv) (halfAddr line hi) = (t, w) →
      (t.l2? line = none → exec (.hostSnoop line hi inv) s =
        .next ((out t (.answer (t.hostAddr (halfAddr line hi)) [])).hostDone w)) ∧
      (∀ y, t.l2? line = some y → t.turnOf line (w.req y.key y.owner) = true → t.storesOpen line = false →
        ((t.dir line).mode = 0 → exec (.hostSnoop line hi inv) s =
          .next ((t.snoopAnswer line hi inv).hostDone w).drainFree) ∧
        ((t.dir line).mode ≠ 0 →
          let x : Settle := { line := line, halves := [], evict := false, drop := false, reply := none
                              stamp := w.stamp, agent := w.agent, fn := y.owner, keep := false, grant := none }
          ∀ u, (t.startSettle x = (u, true) →
              exec (.hostSnoop line hi inv) s = .next ((u.snoopAnswer line hi inv).hostDone w).drainFree) ∧
            (t.startSettle x = (u, false) →
              exec (.hostSnoop line hi inv) s = .next (u.claim line (w.req y.key y.owner)))))) ∧
    (∀ line hi y, s.l2? line = some y →
      s.snoopAnswer line hi false = out s (.answer (s.hostAddr (halfAddr line hi))
        (if y.dirty && y.valid hi then s.homeBytes y.key (halfAddr line hi) 64 else [])) ∧
      ∀ z, (s.snoopAnswer line hi true).l2? line = some z → z.valid hi = false ∧ z.valid (!hi) = y.valid (!hi)) ∧
    (∀ line hi bs, (line, hi) ∈ s.host.fetches → bs.length = 64 →
      (s.head.recovery = false → exec (.cxlCacheFill line hi bs) s = .next
        ((s.homeMerge (((s.l2? line).map L2Line.key).getD 0) line (bytesAt (if hi then 64 else 0) bs)).halfHere line hi)) ∧
      (s.head.recovery = true → exec (.cxlCacheFill line hi bs) s = .next { s with
        host := { s.host with fetches := s.host.fetches.filter fun f => !(f.1 == line && f.2 == hi) }
        head := { s.head with pulled := tset s.head.pulled (halfAddr line hi / 64) bs } })) ∧
    (∀ slot line bs, (s.homeMerge slot line bs).poisonOf line = s.poisonOf line) ∧
    (∀ port, port < 2 →
      (s.portUp port = false → s.head.step ≠ 6 → exec (.portLinkDown port) s = .next s) ∧
      (s.portUp port = false → s.head.step = 6 → exec (.portLinkDown port) s = .next
        (s.logEvent ((Config.freeWord 47 s.agenda.free).toNat % 65536) 0xFF 0xFF 3397 (BitVec.ofNat 64 port)
          6).bumpFree) ∧
      (s.portUp port = true → exec (.portLinkDown port) s = .next
        (let t := { s with host := { s.host with
          ports := tset s.host.ports port false, waits := s.host.waits.filter fun w => w.agent != port } }
         ((s.host.owners.filter fun o => o.2.2 == port).foldl (fun (t : State) o => t.ownerLost o.1 o.2.1)
          ((s.host.fetches.filter fun f => s.portOf (f.1 * 128) == port).foldl (fun (t : State) f =>
            t.fetchFailed f.1 f.2) t)).drainFree)) ∧
      (s.head.step = 6 ∨ s.head.recovery = true ∧ port = 0 → exec (.portLinkUp port) s =
        .next { s with host := { s.host with ports := tset s.host.ports port true } })) ∧
    (∀ (tag : BitVec 16) ctx (op : RemoteOp) ticket t r,
      let w : RemoteWait := ⟨tag, ctx, op, ticket⟩
      (match op with
        | .read va len => (s.remoteStays w).remoteRead ctx tag.toNat ticket va len
        | .write va bytes => (s.remoteStays w).remoteWrite ctx tag.toNat ticket
            (bytes.zipIdx.map fun b => (va + BitVec.ofNat 64 b.2, b.1))) = (t, r) →
      let after (ok : Bool) (bs : List (Option Byte)) : State :=
        (answers { t with host := { t.host with remotes := t.host.remotes.erase w } } (s.remoteStays w)
          (.remote ticket bs ok)).unclaim 2 ticket
      (r = .wait → exec (.remoteRequest tag ctx op ticket) s = .next t) ∧
      (r = .refused → exec (.remoteRequest tag ctx op ticket) s = .next (after false []).drainFree) ∧
      ∀ bs, r = .done bs → exec (.remoteRequest tag ctx op ticket) s = .next (after true bs).drainFree) ∧
    ∀ port, port < 32 → port ∉ s.host.fabricDown → exec (.fabricPortLoss port) s =
      .next { s with host := { s.host with fabricDown := s.host.fabricDown ++ [port] } }

/-! Control registers -/

/-- R46 to R50, R91, R215, R225, R404, R405, R408, R422: writes to control registers. A write that would make an
address map entry or a window valid is checked and rejected with the first cause; one to an entry or window that is
valid is rejected; a rejection leaves its cause and index unless one is pending; guarantees never exceed 1,024 in sum;
a register of a context is kept while RUN is 1; and read-only registers ignore writes. (The reading rests on log
entries 14, 76 and 104.) -/
def Obligations.RegisterWrites : Prop :=
  ∀ (s : State) (n : Nat) (v : Word),
    let rejected (cause : Nat) : State :=
      if (s.reg .amapStatus).getLsbD 0 then s
      else s.setReg .amapStatus (BitVec.ofNat 64 (cause % 16 * 4096 + n % 64 * 64 + 1))
    let ctrl : Word := v &&& 0xFFFC7FFFFFFFFFFF#64
    let win : Word := v &&& 0x800FFFFFC0000000#64
    s.pfOpen = true →
    (v.getLsbD 0 = true → exec (.amapWerrClear v) s = .next (s.setReg .amapStatus 0)) ∧
    (n < 16 → v.getLsbD 63 = true →
      ((s.reg (.amapCtrl n)).getLsbD 63 = true → exec (.amapEntryValidate n v) s = .next (rejected 5)) ∧
      ((s.reg (.amapCtrl n)).getLsbD 63 = false →
        (s.amapCause (s.amapOf n ctrl) = 0 → exec (.amapEntryValidate n v) s = .next (s.setReg (.amapCtrl n) ctrl)) ∧
        (s.amapCause (s.amapOf n ctrl) ≠ 0 →
          exec (.amapEntryValidate n v) s = .next (rejected (s.amapCause (s.amapOf n ctrl)))))) ∧
    (n < 64 → v.getLsbD 63 = true →
      ((s.reg (.hdmh n)).getLsbD 63 = true → exec (.hdmWindowValidate n v) s = .next (rejected 5)) ∧
      ((s.reg (.hdmh n)).getLsbD 63 = false →
        (s.hdmCause n win = 0 → exec (.hdmWindowValidate n v) s = .next (s.setReg (.hdmh n) win)) ∧
        (s.hdmCause n win ≠ 0 → exec (.hdmWindowValidate n v) s = .next (rejected (s.hdmCause n win))))) ∧
    (n < 64 → (s.reg (.hdmh n)).getLsbD 63 = true →
      exec (.registerWrite (.hdmh n) v) s = .next (rejected 5) ∧ exec (.registerWrite (.hdmd n) v) s = .next (rejected 5)) ∧
    (n < 64 → exec (.fnsvcWrite n v) s = .next
      (if ((List.range 64).map fun k => if k = n then (v.extractLsb' 32 11).toNat else
          ((s.reg (.fnsvc k)).extractLsb' 32 11).toNat).sum ≤ 1024
        then s.setReg (.fnsvc n) (v &&& 0x000007FF000007FF#64) else s)) ∧
    (n < 16 →
      ((s.reg (.amapCtrl n)).getLsbD 63 = true →
        exec (.registerWrite (.amapBase n) v) s = .next (rejected 5) ∧
        exec (.registerWrite (.amapLimit n) v) s = .next (rejected 5) ∧
        exec (.registerWrite (.amapChan n) v) s = .next (rejected 5) ∧
        (v.getLsbD 63 = false → exec (.registerWrite (.amapCtrl n) v) s =
          .next (s.setReg (.amapCtrl n) (setBits (s.reg (.amapCtrl n)) 63 1 0)))) ∧
      ((s.reg (.amapCtrl n)).getLsbD 63 = false →
        exec (.registerWrite (.amapBase n) v) s = .next (s.setReg (.amapBase n) (v &&& 0x000FFFFFFFFF0000#64)) ∧
        exec (.registerWrite (.amapLimit n) v) s = .next (s.setReg (.amapLimit n) (v &&& 0x000FFFFFFFFF0000#64)) ∧
        exec (.registerWrite (.amapChan n) v) s = .next (s.setReg (.amapChan n) v))) ∧
    (n < 64 →
      (∀ r, r = .ctxrt n ∨ r = .ctxrtn n ∨ r = .ctxroot n ∨ r = .ctxtrap n ∨ r = .ctxsave n →
        exec (.registerWrite r v) s = .next (if s.ctxRun n then s else s.setReg r (v &&& Reg.mask r))) ∧
      (∀ r, r = .l2qcfg n ∨ r = .ctxfab n ∨ r = .hlmbx n →
        exec (.registerWrite r v) s = .next (s.setReg r (v &&& Reg.mask r))) ∧
      (∀ r, r = .l2qocc n ∨ r = .ctxstat n ∨ r = .ctxtrapq n ∨ r = .fnheld n ∨ r = .preemptst ∨ r = .bootst →
        exec (.registerWrite r v) s = .next s))

/-! Time, temperature, power and cold start -/

/-- R2, R226, R414 to R421: clocks and ticks, temperature and power actions, retraining, and the steps of a cold
start, whose images are verified by their key's hash, their LMS signature and their version. (The reading rests on log
entries 7, 13, 18, 77, 78, 85, 89 and 120.) -/
def Obligations.ClocksAndBoot : Prop :=
  ∀ (s : State),
    let acted (t : State) (what detail : Nat) : State :=
      (t.logEvent ((Config.freeWord 47 t.agenda.free).toNat % 65536) 0xFF 0xFF 3397 (BitVec.ofNat 64 what)
        (BitVec.ofNat 64 detail)).bumpFree
    let warm (stack : Nat) (c : BitVec 16) : Headland := { s.head with hbmTemp := tset s.head.hbmTemp stack c }
    (∀ die, die < 64 → (∀ d < 64, tget s.time.hb die 0 ≤ tget s.time.hb d 0) →
      let n := tget s.time.hb die 0 + 1
      let t := { s with time := { s.time with hb := tset s.time.hb die n, since := tset s.time.since die s.agenda.next } }
      let t := if n % 820 = 0 then t.closeWindow die else t
      exec (.heartbeatTick die) s = .next (if die = 0 then t.sampleHeld.powerTick else t)) ∧
    (let w := s.head.power.toNat
     s.powerTick = { s with head := { s.head with
       overTicks := if s.head.cap.toNat < w then s.head.overTicks + 1 else 0
       underTicks := if w * 100 < s.head.cap.toNat * 95 then s.head.underTicks + 1 else 0 } }) ∧
    (∀ die (f : BitVec 16), die < 64 → 1600 ≤ f → f ≤ 2100 →
      let w := tget s.time.window die (0, f.toNat)
      exec (.droopStretch die f) s = .next (({ s with time := { s.time with
        stretching := tset s.time.stretching die f
        stretches := tset s.time.stretches die (tget s.time.stretches die 0 + 1)
        window := tset s.time.window die (w.1 + 1, min w.2 f.toNat) } } : State).clocked s)) ∧
    (∀ die, exec (.railRecover die) s =
      .next (({ s with time := { s.time with stretching := tdel s.time.stretching die } } : State).clocked s)) ∧
    (∀ (t : State) d, d < 64 → t.mhz d ≠ s.mhz d → tget (t.clocked s).time.past d [] =
      (tget t.time.past d []).filter (fun e => decide (tget t.time.hb d 0 < e.1 + 820)) ++ [(tget t.time.hb d 0, s.mhz d)]) ∧
    (∀ j (c : BitVec 16), j < 32 →
      (c.toInt < 5 * 16 → exec (.hbmCold j c) s = .next (acted { s with head := { warm j c with
        warming := addOnce s.head.warming j } } j c.toNat)) ∧
      (95 * 16 ≤ c.toInt → exec (.hbmHot j c) s = .next (acted { s with head := { warm j c with
        hotStacks := addOnce s.head.hotStacks j } } j c.toNat))) ∧
    (∀ j, (j ∈ s.head.warming → exec (.warmingLoadEnd j) s = .next (acted { s with head := { warm j (16 * 10) with
        warming := s.head.warming.erase j } } j (16 * 10))) ∧
      (j ∈ s.head.hotStacks → exec (.hbmCooled j) s = .next (acted { s with head := { warm j (16 * 90) with
        hotStacks := s.head.hotStacks.erase j } } j (16 * 90)))) ∧
    (∀ d (c : BitVec 16), d < 64 → 105 * 16 ≤ c.toInt → exec (.junctionHot d c) s = .next (acted (({ s with
      head := { s.head with dieTemp := tset s.head.dieTemp d c, hot := addOnce s.head.hot d } } : State).clocked s)
      d c.toNat)) ∧
    (∀ d, d ∈ s.head.hot → exec (.junctionCooled d) s = .next (acted (({ s with
      head := { s.head with dieTemp := tset s.head.dieTemp d (16 * 100), hot := s.head.hot.erase d } } : State).clocked s)
      d (16 * 100))) ∧
    (∀ w : BitVec 16,
      let h : Headland := { s.head with power := w }
      exec (.powerOverCap w) s = .next
        (if s.head.cap.toNat < w.toNat then
          if 820 ≤ h.overTicks then
            acted { s with head := { h with overTicks := 0, underTicks := 0, lowered := min 15 (h.lowered + 1) } } 0 w.toNat
          else { s with head := { h with underTicks := 0 } }
         else if w.toNat * 100 < s.head.cap.toNat * 95 then
          if 820 ≤ h.underTicks ∧ h.lowered ≠ 0 then
            acted { s with head := { h with overTicks := 0, underTicks := 0, lowered := h.lowered - 1 } } 0 w.toNat
          else { s with head := { h with overTicks := 0 } }
         else { s with head := { h with overTicks := 0, underTicks := 0 } })) ∧
    (∀ j c, j < 32 → c < 64 → s.lines.inline = false → (∀ e ∈ s.lines.training, e.1 / 64 ≠ j) →
      let d := (tget s.head.hbmTemp j 0).toInt - (tget s.lines.trained (j * 64 + c) 0).toInt
      exec (.retrainStart j c) s = .next
        (if 320 ≤ d ∨ d ≤ -320 ∨ (Config.freeWord 55 s.agenda.free).getLsbD 0 = true then { s.bumpFree with
          lines := { s.lines with training := tset s.lines.training (j * 64 + c) (0, []) } }
         else s.bumpFree)) ∧
    (∀ j c g log, tget? s.lines.training (j * 64 + c) = some (g, log) →
      exec (.tsvGroupDone j c) s = .next { s with lines := { s.lines with
        training := if g + 1 = 18 then tdel s.lines.training (j * 64 + c)
          else tset s.lines.training (j * 64 + c) (g + 1, [])
        trained := if g + 1 = 18 then tset s.lines.trained (j * 64 + c) (tget s.head.hbmTemp j 0) else s.lines.trained } }) ∧
    (let p := s.powerOn
     let boot (step cause stack : Nat) (t : State) : State := { t.setReg .bootst
        (setBits (setBits (setBits 0 60 4 step) 56 4 cause) 0 8 stack) with head := { t.head with recovery := true } }
     let signed (image : List Nat) : Bool := Lms.sha256 (Config.imageKey image) == Config.fusedKeyHash &&
        Lms.valid (Config.imageKey image) (Config.imageSignature image) (Config.imageBody image)
     let good (n : Nat) : Bool := signed (p.head.bank n).image && decide (p.head.rollback ≤
        Config.imageVersion (p.head.bank n).image)
     let order := if p.head.tryNext then [1 - p.head.active, p.head.active] else [p.head.active, 1 - p.head.active]
     exec (.coldStart false) s = .next { p.setReg .bootst (setBits (setBits 0 60 4 1) 56 4 1) with
        head := { p.head with step := 1 } } ∧
     (∀ n, order.find? good = some n → exec (.coldStart true) s =
        .next (({ p with head := { p.head with active := n, tryNext := false } } : State).toStep 3)) ∧
     (order.find? good = none → exec (.coldStart true) s = .next (boot 2
        (if order.any fun n => signed (p.head.bank n).image then 3 else 2) 0 (p.toStep 2))) ∧
     (s.head.step = 3 → s.head.recovery = false →
        ((∀ e ∈ s.head.hbmTemp, 0 ≤ e.2.toInt) → exec .preheatComplete s = .next (s.toStep 4)) ∧
        ((∃ e ∈ s.head.hbmTemp, e.2.toInt < 0) → exec .preheatTimeout s = .next (boot 3 4 0 s))) ∧
     (s.head.step = 4 → s.head.recovery = false →
        (∀ stack, exec (.hbmTrainingComplete (some (stack, false))) s = .next (boot 4 5 stack s) ∧
          exec (.hbmTrainingComplete (some (stack, true))) s = .next (boot 4 6 stack s)) ∧
        let t := (s.loaded.toStep 6).clocked s
        exec (.hbmTrainingComplete none) s = .next { t with head := { t.head with
          rollback := max t.head.rollback (Config.imageVersion (s.head.bank s.head.active).image) } }))

/-! The whole machine -/

/-- R233 to R248: the word that encodes a well-formed instruction of a slice decodes in it to that instruction, with
every operand at every value the encoding admits. -/
def Obligations.DecodeEncode : Prop :=
  ∀ (sl : Slice) (ins : Instr), ins.wf sl = true → decode sl (encode ins) = .ok ins

/-- R233 to R248: a word that a slice decodes has one meaning: the instruction is well-formed there, and it encodes to
that very word, so no bit of a word is dropped. -/
def Obligations.EncodeDecode : Prop :=
  ∀ (sl : Slice) (w : Word) (ins : Instr), decode sl w = .ok ins → ins.wf sl = true ∧ encode ins = w

/-- R233 to R248: the spec's worked encodings decode to the instructions they stand for, and a guard that is none, a
reserved opcode and a word of the other slice are refused by the subcodes of those checks. -/
def Obligations.DecodedWords : Prop :=
  decode .a 0x845C0C0500000064 = .ok (.addImm ⟨true, ⟨false, 7⟩⟩ .z64 false (.r 3) (.r 1) 100) ∧
  decode .a 0x206C0C08C0000010 = .ok (.st ⟨false, ⟨true, 3⟩⟩ .z32 .none (.r 3) (.r 2) 16) ∧
  decode .a 0x0084000010000003 = .ok (.br ⟨false, ⟨false, 1⟩⟩ 4 3) ∧
  decode .a 0x009C000000000002 = .ok (.br ⟨false, ⟨false, 7⟩⟩ 0 2) ∧
  decode .c 0x00DC000004000001 = .ok (.brQ false 0 0 1 1) ∧
  decode .a 0x8EDC040000000000 = .ok (.srGet ⟨true, ⟨false, 7⟩⟩ (.r 1) .lane) ∧
  decode .a 0x921C140C00010000 = .ok (.scanEx ⟨true, ⟨false, 7⟩⟩ .z64 0 (.r 5) (.r 3)) ∧
  decode .a 0x0E9C14080C000000 = .ok (.leaPriv ⟨false, ⟨false, 7⟩⟩ (.r 5) (.r 2) (.r 3)) ∧
  decode .a 0x047C0C0500000064 = .error .guard ∧
  decode .a 0x039C000000000000 = .error .opcode ∧
  decode .a 0x00DC000004000001 = .error .slice

/-- R231, R232, R248, R379: a stream's turn runs the instruction that the word fetched for its PC is in its slice, or
raises ILLEGAL_INSTR for a word that is none; a split without its word fetches it, and one that may not issue (its team
halted or saved, itself parked) does not; the favoured stream of a quarter and slice goes first when it is ready (R188);
any other turn is the event of an agent, and a word of a program is no event; the tape names the turns; and a placed word
is the next that runs. (The reading rests on log entries 3, 4, 6 and 108.) -/
def Obligations.StepRunsDecoded : Prop :=
  (∀ (s u : State) (r : StreamRef) (i : Issue), s.takeTurn = (.issue r, u) → u.issuer r = i.ref →
    u.issue? i.ref = some i →
    (∀ w ins, i.sp.word? i.sp.pc = some w → decode i.ref.slice w = .ok ins →
      step s = endTurn (exec ins (u.issuing i.ref))) ∧
    (∀ w e, i.sp.word? i.sp.pc = some w → decode i.ref.slice w = .error e →
      step s = endTurn (exec (.illegalInstrWord w e) (u.issuing i.ref))) ∧
    (i.sp.word? i.sp.pc = none → i.allowed = false → step s = endTurn (.next u)) ∧
    (i.sp.word? i.sp.pc = none → i.allowed = true → ∀ t, exec (.instructionFetchFill i.ref i.sp.pc) u = .next t →
      step s = endTurn (.next (t.modSplit i.ref fun sp =>
        if sp.pc = i.sp.pc ∧ sp.wait = Wait.none ∧ (sp.word? sp.pc).isNone = true then { sp with wait := .fetch }
        else sp)))) ∧
  (∀ t : State, endTurn (.next t) =
    .next (t.idle.agenda.passes.foldl State.giveFavour { t.idle with agenda := { t.idle.agenda with passes := [] } })) ∧
  (∀ (s : State) (r : StreamRef) (i : Issue), s.issue? r = some i →
    let favoured := tget? (s.core i.tm.core).favour (favourKey i.wp.quarter r.slice)
    let first (f : StreamRef) : Prop :=
      favoured = some f ∧ f ∈ s.streamsOn i.tm.core i.wp.quarter r.slice ∧ s.couldIssue f = true
    (∀ f, first f → s.issuer r = f) ∧ ((∀ f, ¬first f) → s.issuer r = r)) ∧
  (∀ (s u : State) (ins : Instr), s.takeTurn = (.event ins, u) →
    (∀ t, exec ins u.idle = .next t → step s = endTurn (.next t)) ∧
    (exec ins u.idle = .refused .noStream → step s = .next u.idle)) ∧
  (∀ (s : State) (t : Turn) (rest : List Turn), s.agenda.tape = t :: rest →
    s.takeTurn = (t, { s with agenda := { s.agenda with tape := rest } })) ∧
  ∀ (s : State) (n w : Nat) (ins : Instr), decodeTableWord n w = some ins → ∃ (u : State) (i : Issue),
    u.issue? i.ref = some i ∧ i.allowed = true ∧ u.mem = s.mem ∧ u.ctl = s.ctl ∧
    step (s.withFetchWord n w) = endTurn (exec ins (u.issuing i.ref))

/-- Every turn, of every state, leads to a next state: no instruction and no event stops the machine (log entry 6: an
event that meets no occasion changes nothing). -/
def Obligations.StepNeverStops : Prop := ∀ s : State, ∃ t, step s = .next t

/-- R86, R100: whatever the turn, memory keeps its one canonical form, so that two machines with equal bytes have
equal memories. (The reading rests on log entries 1 and 2.) -/
def Obligations.StepKeepsMemory : Prop := ∀ s t : State, s.MemOk → step s = .next t → t.MemOk

/-- R99 to R101, R121: a write of bytes of one line at its home, under a key slot. The slot's holder reads the last
byte written at each offset, and elsewhere what it read before; every other line reads under every slot as it did; a half
that the write covers loses its poison, and no other does; every byte of a poisoned accumulator line is poisoned until
writes have covered both halves (R183). (The reading rests on log entry 2.) -/
def Obligations.HomeMemory : Prop :=
  ∀ (s : State) (slot line : Nat) (bytes : List (Nat × Byte)), s.MemOk → (∀ b ∈ bytes, b.1 < 128) →
    let t := s.homePut slot line bytes
    t.MemOk ∧
    (∀ n, n < 128 → t.homeByte slot (line * 128 + n) =
      (((bytes.reverse.find? fun b => b.1 == n).map (·.2)).getD (s.homeByte slot (line * 128 + n)))) ∧
    (∀ pa other, lineOf pa ≠ line → t.homeByte other pa = s.homeByte other pa) ∧
    (∀ l, l ≠ line → t.poisonOf l = s.poisonOf l) ∧
    (s.lost line = false → ∀ h, h < 2 → ((t.poisonOf line).getLsbD h = true ↔
      (s.poisonOf line).getLsbD h = true ∧ ¬∀ n, n < 64 → ∃ b ∈ bytes, b.1 = 64 * h + n)) ∧
    ∀ pa, s.accLine (lineOf pa) = true → (s.poisonedAt pa = true ↔ s.poisonOf (lineOf pa) ≠ 0)

/-- R10, R189, R194, R250, R252: what a word that computes values leaves as it was when it issues. Its results become
outstanding or enter the queue that its destination names, its own slice's splits move, and what is outstanding goes with
splits that merge; nothing else changes: no
memory, no control register, no other team, warp or slice, and no register, predicate, counter or flag. When results
arrive they change the registers and predicates they name and set flags, and nothing else of the warp. -/
def Obligations.WordsLeave : Prop :=
  (∀ (s : State) (i : Issue) (m : Mask) (d : Opd) (w : Nat) (vs : List (Nat × Word)) (mark : Bool) (dest : Word),
    let t := (s.deliver i m d w vs).advanceTo i mark dest
    { t with teams := s.teams, flights := s.flights, agenda := s.agenda } = s ∧
    { t.agenda with next := s.agenda.next } = s.agenda ∧
    (∀ f ∈ s.flights, ∃ g ∈ t.flights, { g with past := f.past, owner := f.owner } = f ∧ f.owner &&& g.owner = f.owner) ∧
    (∀ n, n ≠ i.ref.team → t.team? n = s.team? n) ∧
    ∀ tm, s.team? i.ref.team = some tm → ∃ tm', t.team? i.ref.team = some tm' ∧ { tm' with warps := tm.warps } = tm ∧
      (∀ k, k ≠ i.ref.warp → tget? tm'.warps k = tget? tm.warps k) ∧
      ∀ wp, tget? tm.warps i.ref.warp = some wp → ∃ wp', tget? tm'.warps i.ref.warp = some wp' ∧
        { wp' with a := wp.a, c := wp.c, f0 := wp.f0, f1 := wp.f1, f2 := wp.f2, f3 := wp.f3, sa := wp.sa } = wp ∧
        (∀ q, Opd.queue? d ≠ some q → q < 5 → wp'.queue q = wp.queue q) ∧
        (∀ sl, sl ≠ i.ref.slice → wp'.slice sl = wp.slice sl) ∧
        let x := wp.slice i.ref.slice
        { wp'.slice i.ref.slice with
          splits := x.splits, stack := x.stack, parked := x.parked, ended := x.ended, halt := x.halt, skid := x.skid } = x) ∧
  ∀ (wp : Warp) (sl : Slice) (ws : List Write),
    let t := wp.puts sl ws
    let x := wp.slice sl
    let y := t.slice sl
    { t with a := wp.a, c := wp.c } = wp ∧
    (∀ sl', sl' ≠ sl → t.slice sl' = wp.slice sl') ∧
    { y with regs := x.regs, scal := x.scal, preds := x.preds, flags := x.flags } = x ∧
    (∀ k, (∀ r l v, Write.vec r l v ∈ ws → 32 * r + l ≠ k) → tget? y.regs k = tget? x.regs k) ∧
    (∀ k, (∀ l v, Write.scal k l v ∉ ws) → tget? y.scal k = tget? x.scal k) ∧
    (∀ p l, (∀ b, Write.pred p l b ∉ ws) → (tget y.preds p 0).getLsbD l = (tget x.preds p 0).getLsbD l) ∧
    ((∀ l f, Write.flag l f ∉ ws) → y.flags = x.flags)

/-- The machine after reset: every control register at the Reset column of its field map, no team, no message, no
command and no result outstanding, and no step of the cold start ended (R6, R91, R414). The values of what the spec
gives no reset value are the model's (log entries 1 and 16) and are not stated. -/
def Obligations.ResetValues : Prop :=
  (∀ r, Reg.inRange r = true →
    State.reset.reg r = match r with | .l2qcfg _ => 0x0000FFFF00000000 | _ => 0) ∧
  State.reset.MemOk ∧ State.reset.teams = [] ∧ State.reset.flights = [] ∧ State.reset.net.msgs = [] ∧
  State.reset.engines.cmds = [] ∧ State.reset.ebb.slots = [] ∧ State.reset.sched.nodes = [] ∧ State.reset.head.step = 0
end

