-- ==== Sys2Proof/Laws/Encoding.lean ====
section
/-! SUPPORT. The encoder's layouts read back: each body and field that `encode` lays out is what the decoder's
accessors read, so a round trip cites one lemma per field and unfolds no bit vector. -/

namespace Sys2Proof

/-! Fields of a concatenation -/

theorem append_field_low {n m k : Nat} (x : BitVec n) (y : BitVec m) (s : Nat) (h : s + k ≤ m) :
    (x ++ y).extractLsb' s k = y.extractLsb' s k := by
  apply BitVec.eq_of_getLsbD_eq; intro i hi
  simp [BitVec.getLsbD_append, hi, show s + i < m by omega]

theorem append_field_high {n m k : Nat} (x : BitVec n) (y : BitVec m) (s : Nat) (h : m ≤ s) :
    (x ++ y).extractLsb' s k = x.extractLsb' (s - m) k := by
  apply BitVec.eq_of_getLsbD_eq; intro i hi
  simp [BitVec.getLsbD_append, hi, show ¬ s + i < m by omega, show s + i - m = s - m + i by omega]

theorem field_whole {n : Nat} (x : BitVec n) : x.extractLsb' 0 n = x := by
  apply BitVec.eq_of_getLsbD_eq; intro i hi
  simp [hi]

/-! Layouts -/

theorem RBody.ofBits_bits (r : RBody) : RBody.ofBits r.bits = r := by
  let w : BitVec (8 + 8 + 8 + 8 + 4 + 3 + 2 + 9) := r.d ++ r.a ++ r.b ++ r.c ++ r.ty ++ r.scope ++ r.ord ++ r.op
  have h : ∀ s k, r.bits.extractLsb' s k = w.extractLsb' s k := fun _ _ => rfl
  simp only [RBody.ofBits, h]
  simp (disch := decide) only [w, append_field_low, append_field_high, field_whole, Nat.reduceSub]

theorem IBody.ofBits_bits (r : IBody) : IBody.ofBits r.bits = r := by
  let w : BitVec (8 + 8 + 4 + 4 + 26) := r.d ++ r.a ++ r.ty ++ r.sub ++ r.imm
  have h : ∀ s k, r.bits.extractLsb' s k = w.extractLsb' s k := fun _ _ => rfl
  simp only [IBody.ofBits, h]
  simp (disch := decide) only [w, append_field_low, append_field_high, field_whole, Nat.reduceSub]

theorem CBody.ofBits_bits (r : CBody) : CBody.ofBits r.bits = r := by
  let w : BitVec (6 + 6 + 10 + 5 + 1 + 4 + 4 + 3 + 2 + 2 + 5 + 2) := r.dst ++ r.src ++ r.ofs ++ r.shape ++ r.g ++ r.slot ++ r.ty ++ r.scope ++ r.ord ++ r.kind ++ r.index ++ r.low
  have h : ∀ s k, r.bits.extractLsb' s k = w.extractLsb' s k := fun _ _ => rfl
  simp only [CBody.ofBits, h]
  simp (disch := decide) only [w, append_field_low, append_field_high, field_whole, Nat.reduceSub]

theorem BBody.ofBits_bits (r : BBody) : BBody.ofBits r.bits = r := by
  let w : BitVec (5 + 5 + 14 + 26) := r.dropT ++ r.dropF ++ r.recon ++ r.tgt
  have h : ∀ s k, r.bits.extractLsb' s k = w.extractLsb' s k := fun _ _ => rfl
  simp only [BBody.ofBits, h]
  simp (disch := decide) only [w, append_field_low, append_field_high, field_whole, Nat.reduceSub]

theorem HBody.ofBits_bits (r : HBody) : HBody.ofBits r.bits = r := by
  let w : BitVec (6 + 7 + 7 + 11) := r.op ++ r.d ++ r.a ++ r.b
  have h : ∀ s k, r.bits.extractLsb' s k = w.extractLsb' s k := fun _ _ => rfl
  simp only [HBody.ofBits, h]
  simp (disch := decide) only [w, append_field_low, append_field_high, field_whole, Nat.reduceSub]

theorem fullWord_ext (m : Bool) (op : BitVec 8) (g : BitVec 4) (b : BitVec 50) (s k : Nat) :
    (fullWord m op g b).extractLsb' s k =
      (BitVec.ofBool m ++ 0#1 ++ op ++ g ++ b : BitVec (1 + 1 + 8 + 4 + 50)).extractLsb' s k := rfl

theorem fullWord_op (m : Bool) (op : BitVec 8) (g : BitVec 4) (b : BitVec 50) : (fullWord m op g b).extractLsb' 54 8 = op := by
  simp (disch := decide) only [fullWord_ext, append_field_low, append_field_high, field_whole, Nat.reduceSub]

theorem fullWord_guard (m : Bool) (op : BitVec 8) (g : BitVec 4) (b : BitVec 50) : (fullWord m op g b).extractLsb' 50 4 = g := by
  simp (disch := decide) only [fullWord_ext, append_field_low, append_field_high, field_whole, Nat.reduceSub]

theorem fullWord_body (m : Bool) (op : BitVec 8) (g : BitVec 4) (b : BitVec 50) : (fullWord m op g b).extractLsb' 0 50 = b := by
  simp (disch := decide) only [fullWord_ext, append_field_low, field_whole]

theorem fullWord_mark (m : Bool) (op : BitVec 8) (g : BitVec 4) (b : BitVec 50) : (fullWord m op g b).getLsbD 63 = m := by
  have h : (fullWord m op g b).extractLsb' 63 1 = BitVec.ofBool m := by
    simp (disch := decide) only [fullWord_ext, append_field_high, field_whole, Nat.reduceSub]
  have := congrArg (fun x => x.getLsbD 0) h
  simpa [BitVec.getLsbD_extractLsb'] using this

theorem fullWord_pair (m : Bool) (op : BitVec 8) (g : BitVec 4) (b : BitVec 50) : (fullWord m op g b).getLsbD 62 = false := by
  have h : (fullWord m op g b).extractLsb' 62 1 = 0#1 := by
    simp (disch := decide) only [fullWord_ext, append_field_low, append_field_high, field_whole, Nat.reduceSub]
  have := congrArg (fun x => x.getLsbD 0) h
  simpa [BitVec.getLsbD_extractLsb'] using this

theorem Guard.ofBits_bits : ∀ g : Guard, Guard.ofBits g.bits = g := by
  have h : ∀ n : Bool, ∀ p : BitVec 3, Guard.ofBits (Guard.bits ⟨n, p⟩) = ⟨n, p⟩ := by decide
  exact fun g => h g.neg g.p

theorem decode_full (sl : Slice) (h : Head) (op : BitVec 8) (b : BitVec 50) (h1 : opReserved op = false)
    (h2 : opSlice sl op = true) (h3 : guardOk sl op h.guard = true) :
    decode sl (fullWord h.mark op h.guard.bits b) = decodeBody sl op h b := by
  unfold decode
  rw [fullWord_mark, fullWord_pair, fullWord_op, fullWord_guard, fullWord_body, Guard.ofBits_bits]
  simp only [h1, h2, h3]
  rfl

/-! Operand codes -/

theorem Opd.ofCode_code (o : Opd) : Opd.ofCode o.code = some o := by
  cases o with
  | r n => revert n; decide
  | s n => revert n; decide
  | k n => revert n; decide
  | f n => revert n; decide
  | sa => rfl

theorem Ty.ofCode_code (t : Ty) : Ty.ofCode t.code = t := by cases t <;> rfl

theorem Scope.ofCode_code (t : Scope) : Scope.ofCode t.code = some t := by cases t <;> rfl

theorem Ordering.ofCode_code (t : Ordering) : Ordering.ofCode t.code = t := by cases t <;> rfl

theorem predOf_predCode : ∀ p : BitVec 3, predOf (predCode p) = some p := by decide

theorem srcF_code {sl w o} (h : srcOk sl w o = true) : srcF sl w o.code = .ok o := by simp [srcF, field, Opd.ofCode_code, h]

theorem dstF_code {sl w o} (h : dstOk sl w o = true) : dstF sl w o.code = .ok o := by simp [dstF, field, Opd.ofCode_code, h]

theorem anyF_code {o} (h : aAny o = true) : anyF o.code = .ok o := by simp [anyF, field, Opd.ofCode_code, h]

theorem regF_code {o} (h : aReg o = true) : regF o.code = .ok o := by simp [regF, field, Opd.ofCode_code, h]

theorem pdF_predCode {o} (h : pdOk o = true) : pdF (predCode o) = .ok o := by simp [pdF, field, predOf_predCode, h]

theorem psF_predCode {o} : psF (predCode o) = .ok o := by simp [psF, field, predOf_predCode]

theorem scopeM_code {s} {ok : Scope → Bool} (h : ok s = true) : scopeM s.code ok = .ok s := by simp [scopeM, Scope.ofCode_code, h]

theorem pdOptF_code {p} (h : pdOpt p = true) : pdOptF p.isSome (pdOptCode p) = .ok p := by
  cases p with
  | none => rfl
  | some p => simp only [pdOptF, pdOptCode, Option.isSome, if_true, pdF_predCode (show pdOk p = true from h)]; rfl

theorem memScope_memSub (s : Scope) : memScope (memSub s) = .ok s := by cases s <;> rfl

theorem SReg.ofNum_num (n : SReg) : SReg.ofNum (BitVec.ofNat 26 n.num).toNat = some n := by cases n <;> rfl

theorem slotM_slot (s : Option (BitVec 4)) (d sr o sh ty sc od ki ix lo) :
    slotM ⟨d, sr, o, sh, BitVec.ofBool s.isSome, s.getD 0, ty, sc, od, ki, ix, lo⟩ = .ok s := by cases s <;> rfl

end Sys2Proof
end

