-- ==== Sys2Proof/Laws/Memory.lean ====
section
/-! SUPPORT. Tables and memory: what a lookup gives after a change, and that every memory operation keeps the one
canonical form. -/

namespace Sys2Proof.Machine

/-! Tables -/

theorem tget?_tset_self {α : Type} (t : Table α) (k : Nat) (a : α) : tget? (tset t k a) k = some a := by
  induction t with
  | nil => simp [tset, tget?]
  | cons p t ih =>
    obtain ⟨i, b⟩ := p
    simp only [tset]
    split
    · simp [tget?]
    · split
      · simp [tget?]
      · rename_i h; simp [tget?, Ne.symm h, ih]

theorem tget?_tset_ne {α : Type} {t : Table α} {k n : Nat} {a : α} (h : n ≠ k) :
    tget? (tset t k a) n = tget? t n := by
  induction t with
  | nil => simp [tset, tget?, Ne.symm h]
  | cons p t ih =>
    obtain ⟨i, b⟩ := p
    simp only [tset]
    split
    · simp [tget?, Ne.symm h]
    · split
      · rename_i hk; simp [tget?, ← hk, Ne.symm h]
      · simp only [tget?, ih]

theorem tget?_tmod_self {α : Type} {t : Table α} {k : Nat} {f : α → α} : tget? (tmod t k f) k = (tget? t k).map f := by
  unfold tmod
  cases h : tget? t k with
  | none => simp [h]
  | some a => simp [tget?_tset_self]

theorem tget?_tmod_ne {α : Type} {t : Table α} {k n : Nat} {f : α → α} (h : n ≠ k) :
    tget? (tmod t k f) n = tget? t n := by
  unfold tmod
  split
  · exact tget?_tset_ne h
  · rfl

/-! The canonical form -/

theorem memRead_below {m : List Host.Cell} {a : Nat} (h : ∀ c ∈ m, a < c.1) : memRead m a = memDefault := by
  induction m with
  | nil => rfl
  | cons p m ih =>
    obtain ⟨i, b⟩ := p
    have hi : ¬i = a := by have := h (i, b) (by simp); simp at this; omega
    simp only [memRead, if_neg hi]
    exact ih fun c hc => h c (by simp [hc])

theorem Memory.wf_cons {i : Nat} {b : Byte} {m : List Host.Cell} :
    Memory.wf ((i, b) :: m) = true ↔ b ≠ memDefault ∧ (∀ c ∈ m, i < c.1) ∧ Memory.wf m = true := by
  simp [Memory.wf, and_assoc]

theorem memWrite_keys {m : List Host.Cell} {a : Nat} {b : Byte} {c : Host.Cell} (h : c ∈ memWrite m a b) :
    c ∈ m ∨ c.1 = a := by
  induction m with
  | nil =>
    simp only [memWrite] at h
    split at h
    · cases h
    · simp at h; exact .inr (by rw [h])
  | cons p m ih =>
    obtain ⟨i, d⟩ := p
    simp only [memWrite] at h
    split at h
    · split at h
      · exact .inl h
      · rcases List.mem_cons.1 h with h | h
        · exact .inr (by rw [h])
        · exact .inl h
    · split at h
      · split at h
        · exact .inl (List.mem_cons_of_mem _ h)
        · rcases List.mem_cons.1 h with h | h
          · exact .inr (by rw [h])
          · exact .inl (List.mem_cons_of_mem _ h)
      · rcases List.mem_cons.1 h with h | h
        · exact .inl (by rw [h]; simp)
        · rcases ih h with h | h
          · exact .inl (List.mem_cons_of_mem _ h)
          · exact .inr h

/-- A write keeps the canonical form. -/
theorem memWrite_wf {m : List Host.Cell} {a : Nat} {b : Byte} (h : Memory.wf m = true) :
    Memory.wf (memWrite m a b) = true := by
  induction m with
  | nil =>
    simp only [memWrite]
    split
    · rfl
    · rename_i hb; exact Memory.wf_cons.2 ⟨hb, by simp, rfl⟩
  | cons p m ih =>
    obtain ⟨i, d⟩ := p
    obtain ⟨hd, hlt, hm⟩ := Memory.wf_cons.1 h
    simp only [memWrite]
    split
    · rename_i ha
      split
      · exact h
      · rename_i hb
        refine Memory.wf_cons.2 ⟨hb, fun c hc => ?_, h⟩
        rcases List.mem_cons.1 hc with hc | hc
        · rw [hc]; exact ha
        · exact Nat.lt_trans ha (hlt c hc)
    · split
      · rename_i ha
        split
        · exact hm
        · rename_i hb
          exact Memory.wf_cons.2 ⟨hb, fun c hc => ha ▸ hlt c hc, hm⟩
      · rename_i h1 h2
        refine Memory.wf_cons.2 ⟨hd, fun c hc => ?_, ih hm⟩
        rcases memWrite_keys hc with hc | hc
        · exact hlt c hc
        · omega

/-- A read after a write of one byte. -/
theorem memRead_memWrite {m : List Host.Cell} {a x : Nat} {b : Byte} (h : Memory.wf m = true) :
    memRead (memWrite m a b) x = if x = a then b else memRead m x := by
  induction m with
  | nil =>
    simp only [memWrite]
    split
    · rename_i hb; simp [memRead, hb]
    · simp [memRead, eq_comm]
  | cons p m ih =>
    obtain ⟨i, d⟩ := p
    obtain ⟨hd, hlt, hm⟩ := Memory.wf_cons.1 h
    simp only [memWrite]
    split
    · rename_i ha
      split
      · rename_i hb
        split
        · rename_i hx
          rw [hb, hx]
          refine memRead_below fun c hc => ?_
          rcases List.mem_cons.1 hc with hc | hc
          · rw [hc]; exact ha
          · exact Nat.lt_trans ha (hlt c hc)
        · rfl
      · simp [memRead, eq_comm]
    · split
      · rename_i ha
        subst ha
        split
        · rename_i hb
          by_cases hx : x = a
          · rw [if_pos hx, hb, hx]; exact memRead_below hlt
          · simp [memRead, hx, Ne.symm hx]
        · by_cases hx : x = a
          · simp [memRead, hx]
          · simp [memRead, hx, Ne.symm hx]
      · rename_i h1 h2
        simp only [memRead, ih hm]
        by_cases hx : i = x
        · have : ¬x = a := by omega
          simp [hx, this]
        · simp [hx]

theorem memWrites_wf {m : List Host.Cell} (a : Nat) (bs : List Byte) (h : Memory.wf m = true) :
    Memory.wf (memWrites m a bs) = true := by
  induction bs generalizing m a with
  | nil => exact h
  | cons b bs ih => exact ih (a + 1) (memWrite_wf h)

theorem memWrite_foldl_wf {m : List Host.Cell} {α : Type} (f : α → Nat) (g : α → Byte) (bs : List α)
    (h : Memory.wf m = true) : Memory.wf (bs.foldl (fun m b => memWrite m (f b) (g b)) m) = true := by
  induction bs generalizing m with
  | nil => exact h
  | cons b bs ih => exact ih (memWrite_wf h)

/-- A read after a write of consecutive bytes. -/
theorem memRead_memWrites {m : List Host.Cell} {a x : Nat} {bs : List Byte} (h : Memory.wf m = true) :
    memRead (memWrites m a bs) x = if a ≤ x then bs.getD (x - a) (memRead m x) else memRead m x := by
  induction bs generalizing m a with
  | nil => simp [memWrites]
  | cons b bs ih =>
    rw [memWrites, ih (memWrite_wf h), memRead_memWrite h]
    by_cases h1 : x = a
    · subst h1; simp [show ¬x + 1 ≤ x by omega]
    · by_cases h2 : a + 1 ≤ x
      · have : x - a = (x - (a + 1)) + 1 := by omega
        simp [h1, h2, show a ≤ x by omega, this]
      · simp [h1, h2, show ¬a ≤ x by omega]

/-! Homes -/

theorem State.rekey_memOk {s : State} {slot line : Nat} (h : s.MemOk) : (s.rekey slot line).MemOk := by
  unfold State.rekey
  split
  · exact h
  · split
    · exact h
    · unfold State.MemOk at *; dsimp only; exact memWrites_wf _ _ h

theorem State.homePut_memOk {s : State} {slot line : Nat} {bytes : List (Nat × Byte)} (h : s.MemOk) :
    (s.homePut slot line bytes).MemOk := by
  unfold State.homePut State.setPoison State.MemOk
  exact memWrite_foldl_wf (m := (s.rekey slot line).mem) _ _ bytes (State.rekey_memOk h)

end Sys2Proof.Machine
end

