-- ==== Sys2Proof/Laws/State.lean ====
section
/-! SUPPORT. What the basic updates of the state leave in each of its fields. -/

namespace Sys2Proof.Machine

/-! `modTeam` -/

@[simp] theorem State.modTeam_mem (s : State) (t : Nat) (f : Team → Team) : (s.modTeam t f).mem = s.mem := rfl
@[simp] theorem State.modTeam_lines (s : State) (t : Nat) (f : Team → Team) : (s.modTeam t f).lines = s.lines := rfl
@[simp] theorem State.modTeam_net (s : State) (t : Nat) (f : Team → Team) : (s.modTeam t f).net = s.net := rfl
@[simp] theorem State.modTeam_cores (s : State) (t : Nat) (f : Team → Team) : (s.modTeam t f).cores = s.cores := rfl
@[simp] theorem State.modTeam_teams (s : State) (t : Nat) (f : Team → Team) :
    (s.modTeam t f).teams = tmod s.teams t f := rfl
@[simp] theorem State.modTeam_flights (s : State) (t : Nat) (f : Team → Team) :
    (s.modTeam t f).flights = s.flights := rfl
@[simp] theorem State.modTeam_engines (s : State) (t : Nat) (f : Team → Team) :
    (s.modTeam t f).engines = s.engines := rfl
@[simp] theorem State.modTeam_ctl (s : State) (t : Nat) (f : Team → Team) : (s.modTeam t f).ctl = s.ctl := rfl
@[simp] theorem State.modTeam_ebb (s : State) (t : Nat) (f : Team → Team) : (s.modTeam t f).ebb = s.ebb := rfl
@[simp] theorem State.modTeam_sched (s : State) (t : Nat) (f : Team → Team) : (s.modTeam t f).sched = s.sched := rfl
@[simp] theorem State.modTeam_head (s : State) (t : Nat) (f : Team → Team) : (s.modTeam t f).head = s.head := rfl
@[simp] theorem State.modTeam_host (s : State) (t : Nat) (f : Team → Team) : (s.modTeam t f).host = s.host := rfl
@[simp] theorem State.modTeam_time (s : State) (t : Nat) (f : Team → Team) : (s.modTeam t f).time = s.time := rfl
@[simp] theorem State.modTeam_agenda (s : State) (t : Nat) (f : Team → Team) :
    (s.modTeam t f).agenda = s.agenda := rfl

/-! `modWarp` -/

@[simp] theorem State.modWarp_mem (s : State) (t w : Nat) (f : Warp → Warp) : (s.modWarp t w f).mem = s.mem := rfl
@[simp] theorem State.modWarp_lines (s : State) (t w : Nat) (f : Warp → Warp) :
    (s.modWarp t w f).lines = s.lines := rfl
@[simp] theorem State.modWarp_net (s : State) (t w : Nat) (f : Warp → Warp) : (s.modWarp t w f).net = s.net := rfl
@[simp] theorem State.modWarp_cores (s : State) (t w : Nat) (f : Warp → Warp) :
    (s.modWarp t w f).cores = s.cores := rfl
@[simp] theorem State.modWarp_teams (s : State) (t w : Nat) (f : Warp → Warp) :
    (s.modWarp t w f).teams = tmod s.teams t fun tm => { tm with warps := tmod tm.warps w f } := rfl
@[simp] theorem State.modWarp_flights (s : State) (t w : Nat) (f : Warp → Warp) :
    (s.modWarp t w f).flights = s.flights := rfl
@[simp] theorem State.modWarp_engines (s : State) (t w : Nat) (f : Warp → Warp) :
    (s.modWarp t w f).engines = s.engines := rfl
@[simp] theorem State.modWarp_ctl (s : State) (t w : Nat) (f : Warp → Warp) : (s.modWarp t w f).ctl = s.ctl := rfl
@[simp] theorem State.modWarp_ebb (s : State) (t w : Nat) (f : Warp → Warp) : (s.modWarp t w f).ebb = s.ebb := rfl
@[simp] theorem State.modWarp_sched (s : State) (t w : Nat) (f : Warp → Warp) :
    (s.modWarp t w f).sched = s.sched := rfl
@[simp] theorem State.modWarp_head (s : State) (t w : Nat) (f : Warp → Warp) : (s.modWarp t w f).head = s.head := rfl
@[simp] theorem State.modWarp_host (s : State) (t w : Nat) (f : Warp → Warp) : (s.modWarp t w f).host = s.host := rfl
@[simp] theorem State.modWarp_time (s : State) (t w : Nat) (f : Warp → Warp) : (s.modWarp t w f).time = s.time := rfl
@[simp] theorem State.modWarp_agenda (s : State) (t w : Nat) (f : Warp → Warp) :
    (s.modWarp t w f).agenda = s.agenda := rfl

/-! `modSlice` -/

@[simp] theorem State.modSlice_mem (s : State) (t w : Nat) (sl : Slice) (f : SliceState → SliceState) :
    (s.modSlice t w sl f).mem = s.mem := rfl
@[simp] theorem State.modSlice_lines (s : State) (t w : Nat) (sl : Slice) (f : SliceState → SliceState) :
    (s.modSlice t w sl f).lines = s.lines := rfl
@[simp] theorem State.modSlice_net (s : State) (t w : Nat) (sl : Slice) (f : SliceState → SliceState) :
    (s.modSlice t w sl f).net = s.net := rfl
@[simp] theorem State.modSlice_cores (s : State) (t w : Nat) (sl : Slice) (f : SliceState → SliceState) :
    (s.modSlice t w sl f).cores = s.cores := rfl
@[simp] theorem State.modSlice_flights (s : State) (t w : Nat) (sl : Slice) (f : SliceState → SliceState) :
    (s.modSlice t w sl f).flights = s.flights := rfl
@[simp] theorem State.modSlice_engines (s : State) (t w : Nat) (sl : Slice) (f : SliceState → SliceState) :
    (s.modSlice t w sl f).engines = s.engines := rfl
@[simp] theorem State.modSlice_ctl (s : State) (t w : Nat) (sl : Slice) (f : SliceState → SliceState) :
    (s.modSlice t w sl f).ctl = s.ctl := rfl
@[simp] theorem State.modSlice_ebb (s : State) (t w : Nat) (sl : Slice) (f : SliceState → SliceState) :
    (s.modSlice t w sl f).ebb = s.ebb := rfl
@[simp] theorem State.modSlice_sched (s : State) (t w : Nat) (sl : Slice) (f : SliceState → SliceState) :
    (s.modSlice t w sl f).sched = s.sched := rfl
@[simp] theorem State.modSlice_head (s : State) (t w : Nat) (sl : Slice) (f : SliceState → SliceState) :
    (s.modSlice t w sl f).head = s.head := rfl
@[simp] theorem State.modSlice_host (s : State) (t w : Nat) (sl : Slice) (f : SliceState → SliceState) :
    (s.modSlice t w sl f).host = s.host := rfl
@[simp] theorem State.modSlice_time (s : State) (t w : Nat) (sl : Slice) (f : SliceState → SliceState) :
    (s.modSlice t w sl f).time = s.time := rfl
@[simp] theorem State.modSlice_agenda (s : State) (t w : Nat) (sl : Slice) (f : SliceState → SliceState) :
    (s.modSlice t w sl f).agenda = s.agenda := rfl

/-! `modSplit` -/

@[simp] theorem State.modSplit_mem (s : State) (r : StreamRef) (f : Split → Split) :
    (s.modSplit r f).mem = s.mem := rfl
@[simp] theorem State.modSplit_lines (s : State) (r : StreamRef) (f : Split → Split) :
    (s.modSplit r f).lines = s.lines := rfl
@[simp] theorem State.modSplit_net (s : State) (r : StreamRef) (f : Split → Split) :
    (s.modSplit r f).net = s.net := rfl
@[simp] theorem State.modSplit_cores (s : State) (r : StreamRef) (f : Split → Split) :
    (s.modSplit r f).cores = s.cores := rfl
@[simp] theorem State.modSplit_flights (s : State) (r : StreamRef) (f : Split → Split) :
    (s.modSplit r f).flights = s.flights := rfl
@[simp] theorem State.modSplit_engines (s : State) (r : StreamRef) (f : Split → Split) :
    (s.modSplit r f).engines = s.engines := rfl
@[simp] theorem State.modSplit_ctl (s : State) (r : StreamRef) (f : Split → Split) :
    (s.modSplit r f).ctl = s.ctl := rfl
@[simp] theorem State.modSplit_ebb (s : State) (r : StreamRef) (f : Split → Split) :
    (s.modSplit r f).ebb = s.ebb := rfl
@[simp] theorem State.modSplit_sched (s : State) (r : StreamRef) (f : Split → Split) :
    (s.modSplit r f).sched = s.sched := rfl
@[simp] theorem State.modSplit_head (s : State) (r : StreamRef) (f : Split → Split) :
    (s.modSplit r f).head = s.head := rfl
@[simp] theorem State.modSplit_host (s : State) (r : StreamRef) (f : Split → Split) :
    (s.modSplit r f).host = s.host := rfl
@[simp] theorem State.modSplit_time (s : State) (r : StreamRef) (f : Split → Split) :
    (s.modSplit r f).time = s.time := rfl
@[simp] theorem State.modSplit_agenda (s : State) (r : StreamRef) (f : Split → Split) :
    (s.modSplit r f).agenda = s.agenda := rfl

/-! `modIssuer` -/

@[simp] theorem State.modIssuer_mem (s : State) (i : Issue) (f : Split → Split) : (s.modIssuer i f).mem = s.mem := rfl
@[simp] theorem State.modIssuer_lines (s : State) (i : Issue) (f : Split → Split) :
    (s.modIssuer i f).lines = s.lines := rfl
@[simp] theorem State.modIssuer_net (s : State) (i : Issue) (f : Split → Split) : (s.modIssuer i f).net = s.net := rfl
@[simp] theorem State.modIssuer_cores (s : State) (i : Issue) (f : Split → Split) :
    (s.modIssuer i f).cores = s.cores := rfl
@[simp] theorem State.modIssuer_flights (s : State) (i : Issue) (f : Split → Split) :
    (s.modIssuer i f).flights = s.flights := rfl
@[simp] theorem State.modIssuer_engines (s : State) (i : Issue) (f : Split → Split) :
    (s.modIssuer i f).engines = s.engines := rfl
@[simp] theorem State.modIssuer_ctl (s : State) (i : Issue) (f : Split → Split) : (s.modIssuer i f).ctl = s.ctl := rfl
@[simp] theorem State.modIssuer_ebb (s : State) (i : Issue) (f : Split → Split) : (s.modIssuer i f).ebb = s.ebb := rfl
@[simp] theorem State.modIssuer_sched (s : State) (i : Issue) (f : Split → Split) :
    (s.modIssuer i f).sched = s.sched := rfl
@[simp] theorem State.modIssuer_head (s : State) (i : Issue) (f : Split → Split) :
    (s.modIssuer i f).head = s.head := rfl
@[simp] theorem State.modIssuer_host (s : State) (i : Issue) (f : Split → Split) :
    (s.modIssuer i f).host = s.host := rfl
@[simp] theorem State.modIssuer_time (s : State) (i : Issue) (f : Split → Split) :
    (s.modIssuer i f).time = s.time := rfl
@[simp] theorem State.modIssuer_agenda (s : State) (i : Issue) (f : Split → Split) :
    (s.modIssuer i f).agenda = s.agenda := rfl

/-! `waitAt` -/

@[simp] theorem State.waitAt_mem (s : State) (i : Issue) (w : Wait) : (s.waitAt i w).mem = s.mem := rfl
@[simp] theorem State.waitAt_lines (s : State) (i : Issue) (w : Wait) : (s.waitAt i w).lines = s.lines := rfl
@[simp] theorem State.waitAt_net (s : State) (i : Issue) (w : Wait) : (s.waitAt i w).net = s.net := rfl
@[simp] theorem State.waitAt_cores (s : State) (i : Issue) (w : Wait) : (s.waitAt i w).cores = s.cores := rfl
@[simp] theorem State.waitAt_flights (s : State) (i : Issue) (w : Wait) : (s.waitAt i w).flights = s.flights := rfl
@[simp] theorem State.waitAt_engines (s : State) (i : Issue) (w : Wait) : (s.waitAt i w).engines = s.engines := rfl
@[simp] theorem State.waitAt_ctl (s : State) (i : Issue) (w : Wait) : (s.waitAt i w).ctl = s.ctl := rfl
@[simp] theorem State.waitAt_ebb (s : State) (i : Issue) (w : Wait) : (s.waitAt i w).ebb = s.ebb := rfl
@[simp] theorem State.waitAt_sched (s : State) (i : Issue) (w : Wait) : (s.waitAt i w).sched = s.sched := rfl
@[simp] theorem State.waitAt_head (s : State) (i : Issue) (w : Wait) : (s.waitAt i w).head = s.head := rfl
@[simp] theorem State.waitAt_host (s : State) (i : Issue) (w : Wait) : (s.waitAt i w).host = s.host := rfl
@[simp] theorem State.waitAt_time (s : State) (i : Issue) (w : Wait) : (s.waitAt i w).time = s.time := rfl
@[simp] theorem State.waitAt_agenda (s : State) (i : Issue) (w : Wait) : (s.waitAt i w).agenda = s.agenda := rfl

/-! `widenOwners` -/

@[simp] theorem State.widenOwners_mem (s : State) (t w : Nat) (sl : Slice) :
    (s.widenOwners t w sl).mem = s.mem := rfl
@[simp] theorem State.widenOwners_lines (s : State) (t w : Nat) (sl : Slice) :
    (s.widenOwners t w sl).lines = s.lines := rfl
@[simp] theorem State.widenOwners_net (s : State) (t w : Nat) (sl : Slice) :
    (s.widenOwners t w sl).net = s.net := rfl
@[simp] theorem State.widenOwners_cores (s : State) (t w : Nat) (sl : Slice) :
    (s.widenOwners t w sl).cores = s.cores := rfl
@[simp] theorem State.widenOwners_teams (s : State) (t w : Nat) (sl : Slice) :
    (s.widenOwners t w sl).teams = s.teams := rfl
@[simp] theorem State.widenOwners_engines (s : State) (t w : Nat) (sl : Slice) :
    (s.widenOwners t w sl).engines = s.engines := rfl
@[simp] theorem State.widenOwners_ctl (s : State) (t w : Nat) (sl : Slice) :
    (s.widenOwners t w sl).ctl = s.ctl := rfl
@[simp] theorem State.widenOwners_ebb (s : State) (t w : Nat) (sl : Slice) :
    (s.widenOwners t w sl).ebb = s.ebb := rfl
@[simp] theorem State.widenOwners_sched (s : State) (t w : Nat) (sl : Slice) :
    (s.widenOwners t w sl).sched = s.sched := rfl
@[simp] theorem State.widenOwners_head (s : State) (t w : Nat) (sl : Slice) :
    (s.widenOwners t w sl).head = s.head := rfl
@[simp] theorem State.widenOwners_host (s : State) (t w : Nat) (sl : Slice) :
    (s.widenOwners t w sl).host = s.host := rfl
@[simp] theorem State.widenOwners_time (s : State) (t w : Nat) (sl : Slice) :
    (s.widenOwners t w sl).time = s.time := rfl
@[simp] theorem State.widenOwners_agenda (s : State) (t w : Nat) (sl : Slice) :
    (s.widenOwners t w sl).agenda = s.agenda := rfl

/-! `settle` -/

@[simp] theorem State.settle_mem (s : State) (t w : Nat) (sl : Slice) : (s.settle t w sl).mem = s.mem := rfl
@[simp] theorem State.settle_lines (s : State) (t w : Nat) (sl : Slice) : (s.settle t w sl).lines = s.lines := rfl
@[simp] theorem State.settle_net (s : State) (t w : Nat) (sl : Slice) : (s.settle t w sl).net = s.net := rfl
@[simp] theorem State.settle_cores (s : State) (t w : Nat) (sl : Slice) : (s.settle t w sl).cores = s.cores := rfl
@[simp] theorem State.settle_teams (s : State) (t w : Nat) (sl : Slice) :
    (s.settle t w sl).teams = (s.modWarp t w (·.settle sl)).teams := rfl
@[simp] theorem State.settle_engines (s : State) (t w : Nat) (sl : Slice) :
    (s.settle t w sl).engines = s.engines := rfl
@[simp] theorem State.settle_ctl (s : State) (t w : Nat) (sl : Slice) : (s.settle t w sl).ctl = s.ctl := rfl
@[simp] theorem State.settle_ebb (s : State) (t w : Nat) (sl : Slice) : (s.settle t w sl).ebb = s.ebb := rfl
@[simp] theorem State.settle_sched (s : State) (t w : Nat) (sl : Slice) : (s.settle t w sl).sched = s.sched := rfl
@[simp] theorem State.settle_head (s : State) (t w : Nat) (sl : Slice) : (s.settle t w sl).head = s.head := rfl
@[simp] theorem State.settle_host (s : State) (t w : Nat) (sl : Slice) : (s.settle t w sl).host = s.host := rfl
@[simp] theorem State.settle_time (s : State) (t w : Nat) (sl : Slice) : (s.settle t w sl).time = s.time := rfl
@[simp] theorem State.settle_agenda (s : State) (t w : Nat) (sl : Slice) : (s.settle t w sl).agenda = s.agenda := rfl

/-! `raise` -/

@[simp] theorem State.raise_mem (s : State) (t : Nat) (tr : Trap) : (s.raise t tr).mem = s.mem := rfl
@[simp] theorem State.raise_lines (s : State) (t : Nat) (tr : Trap) : (s.raise t tr).lines = s.lines := rfl
@[simp] theorem State.raise_net (s : State) (t : Nat) (tr : Trap) : (s.raise t tr).net = s.net := rfl
@[simp] theorem State.raise_cores (s : State) (t : Nat) (tr : Trap) : (s.raise t tr).cores = s.cores := rfl
@[simp] theorem State.raise_teams (s : State) (t : Nat) (tr : Trap) :
    (s.raise t tr).teams = tmod s.teams t (·.trap tr) := rfl
@[simp] theorem State.raise_flights (s : State) (t : Nat) (tr : Trap) : (s.raise t tr).flights = s.flights := rfl
@[simp] theorem State.raise_engines (s : State) (t : Nat) (tr : Trap) : (s.raise t tr).engines = s.engines := rfl
@[simp] theorem State.raise_ctl (s : State) (t : Nat) (tr : Trap) : (s.raise t tr).ctl = s.ctl := rfl
@[simp] theorem State.raise_ebb (s : State) (t : Nat) (tr : Trap) : (s.raise t tr).ebb = s.ebb := rfl
@[simp] theorem State.raise_sched (s : State) (t : Nat) (tr : Trap) : (s.raise t tr).sched = s.sched := rfl
@[simp] theorem State.raise_head (s : State) (t : Nat) (tr : Trap) : (s.raise t tr).head = s.head := rfl
@[simp] theorem State.raise_host (s : State) (t : Nat) (tr : Trap) : (s.raise t tr).host = s.host := rfl
@[simp] theorem State.raise_time (s : State) (t : Nat) (tr : Trap) : (s.raise t tr).time = s.time := rfl
@[simp] theorem State.raise_agenda (s : State) (t : Nat) (tr : Trap) : (s.raise t tr).agenda = s.agenda := rfl

/-! `raiseAt` -/

@[simp] theorem State.raiseAt_mem (s : State) (i : Issue) (tr : Trap) : (s.raiseAt i tr).mem = s.mem := rfl
@[simp] theorem State.raiseAt_lines (s : State) (i : Issue) (tr : Trap) : (s.raiseAt i tr).lines = s.lines := rfl
@[simp] theorem State.raiseAt_net (s : State) (i : Issue) (tr : Trap) : (s.raiseAt i tr).net = s.net := rfl
@[simp] theorem State.raiseAt_cores (s : State) (i : Issue) (tr : Trap) : (s.raiseAt i tr).cores = s.cores := rfl
@[simp] theorem State.raiseAt_flights (s : State) (i : Issue) (tr : Trap) :
    (s.raiseAt i tr).flights = s.flights := rfl
@[simp] theorem State.raiseAt_engines (s : State) (i : Issue) (tr : Trap) :
    (s.raiseAt i tr).engines = s.engines := rfl
@[simp] theorem State.raiseAt_ctl (s : State) (i : Issue) (tr : Trap) : (s.raiseAt i tr).ctl = s.ctl := rfl
@[simp] theorem State.raiseAt_ebb (s : State) (i : Issue) (tr : Trap) : (s.raiseAt i tr).ebb = s.ebb := rfl
@[simp] theorem State.raiseAt_sched (s : State) (i : Issue) (tr : Trap) : (s.raiseAt i tr).sched = s.sched := rfl
@[simp] theorem State.raiseAt_head (s : State) (i : Issue) (tr : Trap) : (s.raiseAt i tr).head = s.head := rfl
@[simp] theorem State.raiseAt_host (s : State) (i : Issue) (tr : Trap) : (s.raiseAt i tr).host = s.host := rfl
@[simp] theorem State.raiseAt_time (s : State) (i : Issue) (tr : Trap) : (s.raiseAt i tr).time = s.time := rfl
@[simp] theorem State.raiseAt_agenda (s : State) (i : Issue) (tr : Trap) : (s.raiseAt i tr).agenda = s.agenda := rfl

/-! `decodeTrap` -/

@[simp] theorem State.decodeTrap_mem (s : State) (i : Issue) (code sub : Nat) (detail : Word) :
    (s.decodeTrap i code sub detail).mem = s.mem := rfl
@[simp] theorem State.decodeTrap_lines (s : State) (i : Issue) (code sub : Nat) (detail : Word) :
    (s.decodeTrap i code sub detail).lines = s.lines := rfl
@[simp] theorem State.decodeTrap_net (s : State) (i : Issue) (code sub : Nat) (detail : Word) :
    (s.decodeTrap i code sub detail).net = s.net := rfl
@[simp] theorem State.decodeTrap_cores (s : State) (i : Issue) (code sub : Nat) (detail : Word) :
    (s.decodeTrap i code sub detail).cores = s.cores := rfl
@[simp] theorem State.decodeTrap_flights (s : State) (i : Issue) (code sub : Nat) (detail : Word) :
    (s.decodeTrap i code sub detail).flights = s.flights := rfl
@[simp] theorem State.decodeTrap_engines (s : State) (i : Issue) (code sub : Nat) (detail : Word) :
    (s.decodeTrap i code sub detail).engines = s.engines := rfl
@[simp] theorem State.decodeTrap_ctl (s : State) (i : Issue) (code sub : Nat) (detail : Word) :
    (s.decodeTrap i code sub detail).ctl = s.ctl := rfl
@[simp] theorem State.decodeTrap_ebb (s : State) (i : Issue) (code sub : Nat) (detail : Word) :
    (s.decodeTrap i code sub detail).ebb = s.ebb := rfl
@[simp] theorem State.decodeTrap_sched (s : State) (i : Issue) (code sub : Nat) (detail : Word) :
    (s.decodeTrap i code sub detail).sched = s.sched := rfl
@[simp] theorem State.decodeTrap_head (s : State) (i : Issue) (code sub : Nat) (detail : Word) :
    (s.decodeTrap i code sub detail).head = s.head := rfl
@[simp] theorem State.decodeTrap_host (s : State) (i : Issue) (code sub : Nat) (detail : Word) :
    (s.decodeTrap i code sub detail).host = s.host := rfl
@[simp] theorem State.decodeTrap_time (s : State) (i : Issue) (code sub : Nat) (detail : Word) :
    (s.decodeTrap i code sub detail).time = s.time := rfl
@[simp] theorem State.decodeTrap_agenda (s : State) (i : Issue) (code sub : Nat) (detail : Word) :
    (s.decodeTrap i code sub detail).agenda = s.agenda := rfl

/-! `modCore` -/

@[simp] theorem State.modCore_mem (s : State) (n : Nat) (f : Core → Core) : (s.modCore n f).mem = s.mem := rfl
@[simp] theorem State.modCore_lines (s : State) (n : Nat) (f : Core → Core) : (s.modCore n f).lines = s.lines := rfl
@[simp] theorem State.modCore_net (s : State) (n : Nat) (f : Core → Core) : (s.modCore n f).net = s.net := rfl
@[simp] theorem State.modCore_cores (s : State) (n : Nat) (f : Core → Core) :
    (s.modCore n f).cores = tset s.cores n (f (s.core n)) := rfl
@[simp] theorem State.modCore_teams (s : State) (n : Nat) (f : Core → Core) : (s.modCore n f).teams = s.teams := rfl
@[simp] theorem State.modCore_flights (s : State) (n : Nat) (f : Core → Core) :
    (s.modCore n f).flights = s.flights := rfl
@[simp] theorem State.modCore_engines (s : State) (n : Nat) (f : Core → Core) :
    (s.modCore n f).engines = s.engines := rfl
@[simp] theorem State.modCore_ctl (s : State) (n : Nat) (f : Core → Core) : (s.modCore n f).ctl = s.ctl := rfl
@[simp] theorem State.modCore_ebb (s : State) (n : Nat) (f : Core → Core) : (s.modCore n f).ebb = s.ebb := rfl
@[simp] theorem State.modCore_sched (s : State) (n : Nat) (f : Core → Core) : (s.modCore n f).sched = s.sched := rfl
@[simp] theorem State.modCore_head (s : State) (n : Nat) (f : Core → Core) : (s.modCore n f).head = s.head := rfl
@[simp] theorem State.modCore_host (s : State) (n : Nat) (f : Core → Core) : (s.modCore n f).host = s.host := rfl
@[simp] theorem State.modCore_time (s : State) (n : Nat) (f : Core → Core) : (s.modCore n f).time = s.time := rfl
@[simp] theorem State.modCore_agenda (s : State) (n : Nat) (f : Core → Core) :
    (s.modCore n f).agenda = s.agenda := rfl

/-! `modFlight` -/

@[simp] theorem State.modFlight_mem (s : State) (id : Nat) (f : Flight → Flight) :
    (s.modFlight id f).mem = s.mem := rfl
@[simp] theorem State.modFlight_lines (s : State) (id : Nat) (f : Flight → Flight) :
    (s.modFlight id f).lines = s.lines := rfl
@[simp] theorem State.modFlight_net (s : State) (id : Nat) (f : Flight → Flight) :
    (s.modFlight id f).net = s.net := rfl
@[simp] theorem State.modFlight_cores (s : State) (id : Nat) (f : Flight → Flight) :
    (s.modFlight id f).cores = s.cores := rfl
@[simp] theorem State.modFlight_teams (s : State) (id : Nat) (f : Flight → Flight) :
    (s.modFlight id f).teams = s.teams := rfl
@[simp] theorem State.modFlight_flights (s : State) (id : Nat) (f : Flight → Flight) :
    (s.modFlight id f).flights = s.flights.map fun x => if x.id = id then f x else x := rfl
@[simp] theorem State.modFlight_engines (s : State) (id : Nat) (f : Flight → Flight) :
    (s.modFlight id f).engines = s.engines := rfl
@[simp] theorem State.modFlight_ctl (s : State) (id : Nat) (f : Flight → Flight) :
    (s.modFlight id f).ctl = s.ctl := rfl
@[simp] theorem State.modFlight_ebb (s : State) (id : Nat) (f : Flight → Flight) :
    (s.modFlight id f).ebb = s.ebb := rfl
@[simp] theorem State.modFlight_sched (s : State) (id : Nat) (f : Flight → Flight) :
    (s.modFlight id f).sched = s.sched := rfl
@[simp] theorem State.modFlight_head (s : State) (id : Nat) (f : Flight → Flight) :
    (s.modFlight id f).head = s.head := rfl
@[simp] theorem State.modFlight_host (s : State) (id : Nat) (f : Flight → Flight) :
    (s.modFlight id f).host = s.host := rfl
@[simp] theorem State.modFlight_time (s : State) (id : Nat) (f : Flight → Flight) :
    (s.modFlight id f).time = s.time := rfl
@[simp] theorem State.modFlight_agenda (s : State) (id : Nat) (f : Flight → Flight) :
    (s.modFlight id f).agenda = s.agenda := rfl

/-! `dropFlight` -/

@[simp] theorem State.dropFlight_mem (s : State) (id : Nat) : (s.dropFlight id).mem = s.mem := rfl
@[simp] theorem State.dropFlight_lines (s : State) (id : Nat) : (s.dropFlight id).lines = s.lines := rfl
@[simp] theorem State.dropFlight_net (s : State) (id : Nat) : (s.dropFlight id).net = s.net := rfl
@[simp] theorem State.dropFlight_cores (s : State) (id : Nat) : (s.dropFlight id).cores = s.cores := rfl
@[simp] theorem State.dropFlight_teams (s : State) (id : Nat) : (s.dropFlight id).teams = s.teams := rfl
@[simp] theorem State.dropFlight_flights (s : State) (id : Nat) :
    (s.dropFlight id).flights = s.flights.filter (·.id != id) := rfl
@[simp] theorem State.dropFlight_engines (s : State) (id : Nat) : (s.dropFlight id).engines = s.engines := rfl
@[simp] theorem State.dropFlight_ctl (s : State) (id : Nat) : (s.dropFlight id).ctl = s.ctl := rfl
@[simp] theorem State.dropFlight_ebb (s : State) (id : Nat) : (s.dropFlight id).ebb = s.ebb := rfl
@[simp] theorem State.dropFlight_sched (s : State) (id : Nat) : (s.dropFlight id).sched = s.sched := rfl
@[simp] theorem State.dropFlight_head (s : State) (id : Nat) : (s.dropFlight id).head = s.head := rfl
@[simp] theorem State.dropFlight_host (s : State) (id : Nat) : (s.dropFlight id).host = s.host := rfl
@[simp] theorem State.dropFlight_time (s : State) (id : Nat) : (s.dropFlight id).time = s.time := rfl
@[simp] theorem State.dropFlight_agenda (s : State) (id : Nat) : (s.dropFlight id).agenda = s.agenda := rfl

/-! `bump` -/

@[simp] theorem State.bump_mem (s : State) : (s.bump).mem = s.mem := rfl
@[simp] theorem State.bump_lines (s : State) : (s.bump).lines = s.lines := rfl
@[simp] theorem State.bump_net (s : State) : (s.bump).net = s.net := rfl
@[simp] theorem State.bump_cores (s : State) : (s.bump).cores = s.cores := rfl
@[simp] theorem State.bump_teams (s : State) : (s.bump).teams = s.teams := rfl
@[simp] theorem State.bump_flights (s : State) : (s.bump).flights = s.flights := rfl
@[simp] theorem State.bump_engines (s : State) : (s.bump).engines = s.engines := rfl
@[simp] theorem State.bump_ctl (s : State) : (s.bump).ctl = s.ctl := rfl
@[simp] theorem State.bump_ebb (s : State) : (s.bump).ebb = s.ebb := rfl
@[simp] theorem State.bump_sched (s : State) : (s.bump).sched = s.sched := rfl
@[simp] theorem State.bump_head (s : State) : (s.bump).head = s.head := rfl
@[simp] theorem State.bump_host (s : State) : (s.bump).host = s.host := rfl
@[simp] theorem State.bump_time (s : State) : (s.bump).time = s.time := rfl
@[simp] theorem State.bump_agenda (s : State) : (s.bump).agenda = { s.agenda with next := s.agenda.next + 1 } := rfl

/-! `bumpFree` -/

@[simp] theorem State.bumpFree_mem (s : State) : (s.bumpFree).mem = s.mem := rfl
@[simp] theorem State.bumpFree_lines (s : State) : (s.bumpFree).lines = s.lines := rfl
@[simp] theorem State.bumpFree_net (s : State) : (s.bumpFree).net = s.net := rfl
@[simp] theorem State.bumpFree_cores (s : State) : (s.bumpFree).cores = s.cores := rfl
@[simp] theorem State.bumpFree_teams (s : State) : (s.bumpFree).teams = s.teams := rfl
@[simp] theorem State.bumpFree_flights (s : State) : (s.bumpFree).flights = s.flights := rfl
@[simp] theorem State.bumpFree_engines (s : State) : (s.bumpFree).engines = s.engines := rfl
@[simp] theorem State.bumpFree_ctl (s : State) : (s.bumpFree).ctl = s.ctl := rfl
@[simp] theorem State.bumpFree_ebb (s : State) : (s.bumpFree).ebb = s.ebb := rfl
@[simp] theorem State.bumpFree_sched (s : State) : (s.bumpFree).sched = s.sched := rfl
@[simp] theorem State.bumpFree_head (s : State) : (s.bumpFree).head = s.head := rfl
@[simp] theorem State.bumpFree_host (s : State) : (s.bumpFree).host = s.host := rfl
@[simp] theorem State.bumpFree_time (s : State) : (s.bumpFree).time = s.time := rfl
@[simp] theorem State.bumpFree_agenda (s : State) :
    (s.bumpFree).agenda = { s.agenda with free := s.agenda.free + 1 } := rfl

/-! `counted` -/

@[simp] theorem State.counted_mem (s : State) (r : StreamRef) : (s.counted r).mem = s.mem := rfl
@[simp] theorem State.counted_lines (s : State) (r : StreamRef) : (s.counted r).lines = s.lines := rfl
@[simp] theorem State.counted_net (s : State) (r : StreamRef) : (s.counted r).net = s.net := rfl
@[simp] theorem State.counted_cores (s : State) (r : StreamRef) : (s.counted r).cores = s.cores := rfl
@[simp] theorem State.counted_engines (s : State) (r : StreamRef) : (s.counted r).engines = s.engines := rfl
@[simp] theorem State.counted_ctl (s : State) (r : StreamRef) : (s.counted r).ctl = s.ctl := rfl
@[simp] theorem State.counted_ebb (s : State) (r : StreamRef) : (s.counted r).ebb = s.ebb := rfl
@[simp] theorem State.counted_sched (s : State) (r : StreamRef) : (s.counted r).sched = s.sched := rfl
@[simp] theorem State.counted_head (s : State) (r : StreamRef) : (s.counted r).head = s.head := rfl
@[simp] theorem State.counted_host (s : State) (r : StreamRef) : (s.counted r).host = s.host := rfl
@[simp] theorem State.counted_time (s : State) (r : StreamRef) : (s.counted r).time = s.time := rfl
@[simp] theorem State.counted_agenda (s : State) (r : StreamRef) : (s.counted r).agenda = s.agenda := rfl

/-! `advanceTo` -/

@[simp] theorem State.advanceTo_mem (s : State) (i : Issue) (mark : Bool) (pc : Word) :
    (s.advanceTo i mark pc).mem = s.mem := rfl
@[simp] theorem State.advanceTo_lines (s : State) (i : Issue) (mark : Bool) (pc : Word) :
    (s.advanceTo i mark pc).lines = s.lines := rfl
@[simp] theorem State.advanceTo_net (s : State) (i : Issue) (mark : Bool) (pc : Word) :
    (s.advanceTo i mark pc).net = s.net := rfl
@[simp] theorem State.advanceTo_cores (s : State) (i : Issue) (mark : Bool) (pc : Word) :
    (s.advanceTo i mark pc).cores = s.cores := rfl
@[simp] theorem State.advanceTo_engines (s : State) (i : Issue) (mark : Bool) (pc : Word) :
    (s.advanceTo i mark pc).engines = s.engines := rfl
@[simp] theorem State.advanceTo_ctl (s : State) (i : Issue) (mark : Bool) (pc : Word) :
    (s.advanceTo i mark pc).ctl = s.ctl := rfl
@[simp] theorem State.advanceTo_ebb (s : State) (i : Issue) (mark : Bool) (pc : Word) :
    (s.advanceTo i mark pc).ebb = s.ebb := rfl
@[simp] theorem State.advanceTo_sched (s : State) (i : Issue) (mark : Bool) (pc : Word) :
    (s.advanceTo i mark pc).sched = s.sched := rfl
@[simp] theorem State.advanceTo_head (s : State) (i : Issue) (mark : Bool) (pc : Word) :
    (s.advanceTo i mark pc).head = s.head := rfl
@[simp] theorem State.advanceTo_host (s : State) (i : Issue) (mark : Bool) (pc : Word) :
    (s.advanceTo i mark pc).host = s.host := rfl
@[simp] theorem State.advanceTo_time (s : State) (i : Issue) (mark : Bool) (pc : Word) :
    (s.advanceTo i mark pc).time = s.time := rfl
@[simp] theorem State.advanceTo_agenda (s : State) (i : Issue) (mark : Bool) (pc : Word) :
    (s.advanceTo i mark pc).agenda = s.agenda := rfl

/-! `advance` -/

@[simp] theorem State.advance_mem (s : State) (i : Issue) (mark : Bool) : (s.advance i mark).mem = s.mem := rfl
@[simp] theorem State.advance_lines (s : State) (i : Issue) (mark : Bool) : (s.advance i mark).lines = s.lines := rfl
@[simp] theorem State.advance_net (s : State) (i : Issue) (mark : Bool) : (s.advance i mark).net = s.net := rfl
@[simp] theorem State.advance_cores (s : State) (i : Issue) (mark : Bool) : (s.advance i mark).cores = s.cores := rfl
@[simp] theorem State.advance_engines (s : State) (i : Issue) (mark : Bool) :
    (s.advance i mark).engines = s.engines := rfl
@[simp] theorem State.advance_ctl (s : State) (i : Issue) (mark : Bool) : (s.advance i mark).ctl = s.ctl := rfl
@[simp] theorem State.advance_ebb (s : State) (i : Issue) (mark : Bool) : (s.advance i mark).ebb = s.ebb := rfl
@[simp] theorem State.advance_sched (s : State) (i : Issue) (mark : Bool) : (s.advance i mark).sched = s.sched := rfl
@[simp] theorem State.advance_head (s : State) (i : Issue) (mark : Bool) : (s.advance i mark).head = s.head := rfl
@[simp] theorem State.advance_host (s : State) (i : Issue) (mark : Bool) : (s.advance i mark).host = s.host := rfl
@[simp] theorem State.advance_time (s : State) (i : Issue) (mark : Bool) : (s.advance i mark).time = s.time := rfl
@[simp] theorem State.advance_agenda (s : State) (i : Issue) (mark : Bool) :
    (s.advance i mark).agenda = s.agenda := rfl

/-! `tookFree` -/

@[simp] theorem State.tookFree_mem (s : State) (n : Nat) :
    (s.tookFree n).mem = s.mem := rfl
@[simp] theorem State.tookFree_lines (s : State) (n : Nat) :
    (s.tookFree n).lines = s.lines := rfl
@[simp] theorem State.tookFree_net (s : State) (n : Nat) :
    (s.tookFree n).net = s.net := rfl
@[simp] theorem State.tookFree_cores (s : State) (n : Nat) :
    (s.tookFree n).cores = s.cores := rfl
@[simp] theorem State.tookFree_teams (s : State) (n : Nat) :
    (s.tookFree n).teams = s.teams := rfl
@[simp] theorem State.tookFree_flights (s : State) (n : Nat) :
    (s.tookFree n).flights = s.flights := rfl
@[simp] theorem State.tookFree_engines (s : State) (n : Nat) :
    (s.tookFree n).engines = s.engines := rfl
@[simp] theorem State.tookFree_ctl (s : State) (n : Nat) :
    (s.tookFree n).ctl = s.ctl := rfl
@[simp] theorem State.tookFree_ebb (s : State) (n : Nat) :
    (s.tookFree n).ebb = s.ebb := rfl
@[simp] theorem State.tookFree_sched (s : State) (n : Nat) :
    (s.tookFree n).sched = s.sched := rfl
@[simp] theorem State.tookFree_head (s : State) (n : Nat) :
    (s.tookFree n).head = s.head := rfl
@[simp] theorem State.tookFree_host (s : State) (n : Nat) :
    (s.tookFree n).host = s.host := rfl
@[simp] theorem State.tookFree_time (s : State) (n : Nat) :
    (s.tookFree n).time = s.time := rfl
@[simp] theorem State.tookFree_agenda (s : State) (n : Nat) :
    (s.tookFree n).agenda = { s.agenda with free := s.agenda.free + n } := rfl

end Sys2Proof.Machine
end

