-- ==== Sys2Proof/Laws/Updates.lean ====
section
/-! SUPPORT. What the later shared updates of the state leave in each of its fields: control registers, lines, messages, the
host's side, slides, commands, mailboxes and the turn. -/

namespace Sys2Proof.Machine

/-! `setReg` -/

@[simp] theorem State.setReg_mem (s : State) (r : Reg) (v : Word) : (s.setReg r v).mem = s.mem := rfl
@[simp] theorem State.setReg_lines (s : State) (r : Reg) (v : Word) : (s.setReg r v).lines = s.lines := rfl
@[simp] theorem State.setReg_net (s : State) (r : Reg) (v : Word) : (s.setReg r v).net = s.net := rfl
@[simp] theorem State.setReg_cores (s : State) (r : Reg) (v : Word) : (s.setReg r v).cores = s.cores := rfl
@[simp] theorem State.setReg_teams (s : State) (r : Reg) (v : Word) : (s.setReg r v).teams = s.teams := rfl
@[simp] theorem State.setReg_flights (s : State) (r : Reg) (v : Word) : (s.setReg r v).flights = s.flights := rfl
@[simp] theorem State.setReg_engines (s : State) (r : Reg) (v : Word) : (s.setReg r v).engines = s.engines := rfl
@[simp] theorem State.setReg_ctl (s : State) (r : Reg) (v : Word) : (s.setReg r v).ctl = tset s.ctl (Reg.key r) v := rfl
@[simp] theorem State.setReg_ebb (s : State) (r : Reg) (v : Word) : (s.setReg r v).ebb = s.ebb := rfl
@[simp] theorem State.setReg_sched (s : State) (r : Reg) (v : Word) : (s.setReg r v).sched = s.sched := rfl
@[simp] theorem State.setReg_head (s : State) (r : Reg) (v : Word) : (s.setReg r v).head = s.head := rfl
@[simp] theorem State.setReg_host (s : State) (r : Reg) (v : Word) : (s.setReg r v).host = s.host := rfl
@[simp] theorem State.setReg_time (s : State) (r : Reg) (v : Word) : (s.setReg r v).time = s.time := rfl
@[simp] theorem State.setReg_agenda (s : State) (r : Reg) (v : Word) : (s.setReg r v).agenda = s.agenda := rfl

/-! `modL2` -/

@[simp] theorem State.modL2_mem (s : State) (line : Nat) (f : L2Line → L2Line) : (s.modL2 line f).mem = s.mem := rfl
@[simp] theorem State.modL2_lines (s : State) (line : Nat) (f : L2Line → L2Line) :
    (s.modL2 line f).lines = { s.lines with l2 := tmod s.lines.l2 line f } := rfl
@[simp] theorem State.modL2_net (s : State) (line : Nat) (f : L2Line → L2Line) : (s.modL2 line f).net = s.net := rfl
@[simp] theorem State.modL2_cores (s : State) (line : Nat) (f : L2Line → L2Line) :
    (s.modL2 line f).cores = s.cores := rfl
@[simp] theorem State.modL2_teams (s : State) (line : Nat) (f : L2Line → L2Line) :
    (s.modL2 line f).teams = s.teams := rfl
@[simp] theorem State.modL2_flights (s : State) (line : Nat) (f : L2Line → L2Line) :
    (s.modL2 line f).flights = s.flights := rfl
@[simp] theorem State.modL2_engines (s : State) (line : Nat) (f : L2Line → L2Line) :
    (s.modL2 line f).engines = s.engines := rfl
@[simp] theorem State.modL2_ctl (s : State) (line : Nat) (f : L2Line → L2Line) : (s.modL2 line f).ctl = s.ctl := rfl
@[simp] theorem State.modL2_ebb (s : State) (line : Nat) (f : L2Line → L2Line) : (s.modL2 line f).ebb = s.ebb := rfl
@[simp] theorem State.modL2_sched (s : State) (line : Nat) (f : L2Line → L2Line) :
    (s.modL2 line f).sched = s.sched := rfl
@[simp] theorem State.modL2_head (s : State) (line : Nat) (f : L2Line → L2Line) : (s.modL2 line f).head = s.head := rfl
@[simp] theorem State.modL2_host (s : State) (line : Nat) (f : L2Line → L2Line) : (s.modL2 line f).host = s.host := rfl
@[simp] theorem State.modL2_time (s : State) (line : Nat) (f : L2Line → L2Line) : (s.modL2 line f).time = s.time := rfl
@[simp] theorem State.modL2_agenda (s : State) (line : Nat) (f : L2Line → L2Line) :
    (s.modL2 line f).agenda = s.agenda := rfl

/-! `setPoison` -/

@[simp] theorem State.setPoison_mem (s : State) (line : Nat) (p : BitVec 2) : (s.setPoison line p).mem = s.mem := rfl
@[simp] theorem State.setPoison_lines (s : State) (line : Nat) (p : BitVec 2) :
    (s.setPoison line p).lines = { s.lines with poison := if p = 0 then tdel s.lines.poison line else tset s.lines.poison line p } := rfl
@[simp] theorem State.setPoison_net (s : State) (line : Nat) (p : BitVec 2) : (s.setPoison line p).net = s.net := rfl
@[simp] theorem State.setPoison_cores (s : State) (line : Nat) (p : BitVec 2) :
    (s.setPoison line p).cores = s.cores := rfl
@[simp] theorem State.setPoison_teams (s : State) (line : Nat) (p : BitVec 2) :
    (s.setPoison line p).teams = s.teams := rfl
@[simp] theorem State.setPoison_flights (s : State) (line : Nat) (p : BitVec 2) :
    (s.setPoison line p).flights = s.flights := rfl
@[simp] theorem State.setPoison_engines (s : State) (line : Nat) (p : BitVec 2) :
    (s.setPoison line p).engines = s.engines := rfl
@[simp] theorem State.setPoison_ctl (s : State) (line : Nat) (p : BitVec 2) : (s.setPoison line p).ctl = s.ctl := rfl
@[simp] theorem State.setPoison_ebb (s : State) (line : Nat) (p : BitVec 2) : (s.setPoison line p).ebb = s.ebb := rfl
@[simp] theorem State.setPoison_sched (s : State) (line : Nat) (p : BitVec 2) :
    (s.setPoison line p).sched = s.sched := rfl
@[simp] theorem State.setPoison_head (s : State) (line : Nat) (p : BitVec 2) : (s.setPoison line p).head = s.head := rfl
@[simp] theorem State.setPoison_host (s : State) (line : Nat) (p : BitVec 2) : (s.setPoison line p).host = s.host := rfl
@[simp] theorem State.setPoison_time (s : State) (line : Nat) (p : BitVec 2) : (s.setPoison line p).time = s.time := rfl
@[simp] theorem State.setPoison_agenda (s : State) (line : Nat) (p : BitVec 2) :
    (s.setPoison line p).agenda = s.agenda := rfl

/-! `send` -/

@[simp] theorem State.send_mem (s : State) (a b : Node) (line : Nat) (x : Body) : (s.send a b line x).mem = s.mem := rfl
@[simp] theorem State.send_lines (s : State) (a b : Node) (line : Nat) (x : Body) :
    (s.send a b line x).lines = s.lines := rfl
@[simp] theorem State.send_net (s : State) (a b : Node) (line : Nat) (x : Body) :
    (s.send a b line x).net = { s.net with msgs := s.net.msgs ++ [⟨s.net.next, a, b, line, x⟩], next := s.net.next + 1 } := rfl
@[simp] theorem State.send_cores (s : State) (a b : Node) (line : Nat) (x : Body) :
    (s.send a b line x).cores = s.cores := rfl
@[simp] theorem State.send_teams (s : State) (a b : Node) (line : Nat) (x : Body) :
    (s.send a b line x).teams = s.teams := rfl
@[simp] theorem State.send_flights (s : State) (a b : Node) (line : Nat) (x : Body) :
    (s.send a b line x).flights = s.flights := rfl
@[simp] theorem State.send_engines (s : State) (a b : Node) (line : Nat) (x : Body) :
    (s.send a b line x).engines = s.engines := rfl
@[simp] theorem State.send_ctl (s : State) (a b : Node) (line : Nat) (x : Body) : (s.send a b line x).ctl = s.ctl := rfl
@[simp] theorem State.send_ebb (s : State) (a b : Node) (line : Nat) (x : Body) : (s.send a b line x).ebb = s.ebb := rfl
@[simp] theorem State.send_sched (s : State) (a b : Node) (line : Nat) (x : Body) :
    (s.send a b line x).sched = s.sched := rfl
@[simp] theorem State.send_head (s : State) (a b : Node) (line : Nat) (x : Body) :
    (s.send a b line x).head = s.head := rfl
@[simp] theorem State.send_host (s : State) (a b : Node) (line : Nat) (x : Body) :
    (s.send a b line x).host = s.host := rfl
@[simp] theorem State.send_time (s : State) (a b : Node) (line : Nat) (x : Body) :
    (s.send a b line x).time = s.time := rfl
@[simp] theorem State.send_agenda (s : State) (a b : Node) (line : Nat) (x : Body) :
    (s.send a b line x).agenda = s.agenda := rfl

/-! `touch` -/

@[simp] theorem State.touch_mem (s : State) (line : Nat) (d : Bool) : (s.touch line d).mem = s.mem := rfl
@[simp] theorem State.touch_net (s : State) (line : Nat) (d : Bool) : (s.touch line d).net = s.net := rfl
@[simp] theorem State.touch_cores (s : State) (line : Nat) (d : Bool) : (s.touch line d).cores = s.cores := rfl
@[simp] theorem State.touch_teams (s : State) (line : Nat) (d : Bool) : (s.touch line d).teams = s.teams := rfl
@[simp] theorem State.touch_flights (s : State) (line : Nat) (d : Bool) : (s.touch line d).flights = s.flights := rfl
@[simp] theorem State.touch_engines (s : State) (line : Nat) (d : Bool) : (s.touch line d).engines = s.engines := rfl
@[simp] theorem State.touch_ctl (s : State) (line : Nat) (d : Bool) : (s.touch line d).ctl = s.ctl := rfl
@[simp] theorem State.touch_ebb (s : State) (line : Nat) (d : Bool) : (s.touch line d).ebb = s.ebb := rfl
@[simp] theorem State.touch_sched (s : State) (line : Nat) (d : Bool) : (s.touch line d).sched = s.sched := rfl
@[simp] theorem State.touch_head (s : State) (line : Nat) (d : Bool) : (s.touch line d).head = s.head := rfl
@[simp] theorem State.touch_host (s : State) (line : Nat) (d : Bool) : (s.touch line d).host = s.host := rfl
@[simp] theorem State.touch_time (s : State) (line : Nat) (d : Bool) : (s.touch line d).time = s.time := rfl
@[simp] theorem State.touch_agenda (s : State) (line : Nat) (d : Bool) : (s.touch line d).agenda = s.agenda := rfl

/-! `hostHas` -/

@[simp] theorem State.hostHas_mem (s : State) (line : Nat) (hi : Bool) (v : BitVec 2) (p : Option Nat) :
    (s.hostHas line hi v p).mem = s.mem := rfl
@[simp] theorem State.hostHas_net (s : State) (line : Nat) (hi : Bool) (v : BitVec 2) (p : Option Nat) :
    (s.hostHas line hi v p).net = s.net := rfl
@[simp] theorem State.hostHas_cores (s : State) (line : Nat) (hi : Bool) (v : BitVec 2) (p : Option Nat) :
    (s.hostHas line hi v p).cores = s.cores := rfl
@[simp] theorem State.hostHas_teams (s : State) (line : Nat) (hi : Bool) (v : BitVec 2) (p : Option Nat) :
    (s.hostHas line hi v p).teams = s.teams := rfl
@[simp] theorem State.hostHas_flights (s : State) (line : Nat) (hi : Bool) (v : BitVec 2) (p : Option Nat) :
    (s.hostHas line hi v p).flights = s.flights := rfl
@[simp] theorem State.hostHas_engines (s : State) (line : Nat) (hi : Bool) (v : BitVec 2) (p : Option Nat) :
    (s.hostHas line hi v p).engines = s.engines := rfl
@[simp] theorem State.hostHas_ctl (s : State) (line : Nat) (hi : Bool) (v : BitVec 2) (p : Option Nat) :
    (s.hostHas line hi v p).ctl = s.ctl := rfl
@[simp] theorem State.hostHas_ebb (s : State) (line : Nat) (hi : Bool) (v : BitVec 2) (p : Option Nat) :
    (s.hostHas line hi v p).ebb = s.ebb := rfl
@[simp] theorem State.hostHas_sched (s : State) (line : Nat) (hi : Bool) (v : BitVec 2) (p : Option Nat) :
    (s.hostHas line hi v p).sched = s.sched := rfl
@[simp] theorem State.hostHas_head (s : State) (line : Nat) (hi : Bool) (v : BitVec 2) (p : Option Nat) :
    (s.hostHas line hi v p).head = s.head := rfl
@[simp] theorem State.hostHas_time (s : State) (line : Nat) (hi : Bool) (v : BitVec 2) (p : Option Nat) :
    (s.hostHas line hi v p).time = s.time := rfl
@[simp] theorem State.hostHas_agenda (s : State) (line : Nat) (hi : Bool) (v : BitVec 2) (p : Option Nat) :
    (s.hostHas line hi v p).agenda = s.agenda := rfl

/-! `unclaim` -/

@[simp] theorem State.unclaim_mem (s : State) (agent serial : Nat) : (s.unclaim agent serial).mem = s.mem := rfl
@[simp] theorem State.unclaim_lines (s : State) (agent serial : Nat) : (s.unclaim agent serial).lines = s.lines := rfl
@[simp] theorem State.unclaim_cores (s : State) (agent serial : Nat) : (s.unclaim agent serial).cores = s.cores := rfl
@[simp] theorem State.unclaim_teams (s : State) (agent serial : Nat) : (s.unclaim agent serial).teams = s.teams := rfl
@[simp] theorem State.unclaim_flights (s : State) (agent serial : Nat) :
    (s.unclaim agent serial).flights = s.flights := rfl
@[simp] theorem State.unclaim_engines (s : State) (agent serial : Nat) :
    (s.unclaim agent serial).engines = s.engines := rfl
@[simp] theorem State.unclaim_ctl (s : State) (agent serial : Nat) : (s.unclaim agent serial).ctl = s.ctl := rfl
@[simp] theorem State.unclaim_ebb (s : State) (agent serial : Nat) : (s.unclaim agent serial).ebb = s.ebb := rfl
@[simp] theorem State.unclaim_sched (s : State) (agent serial : Nat) : (s.unclaim agent serial).sched = s.sched := rfl
@[simp] theorem State.unclaim_head (s : State) (agent serial : Nat) : (s.unclaim agent serial).head = s.head := rfl
@[simp] theorem State.unclaim_host (s : State) (agent serial : Nat) : (s.unclaim agent serial).host = s.host := rfl
@[simp] theorem State.unclaim_time (s : State) (agent serial : Nat) : (s.unclaim agent serial).time = s.time := rfl
@[simp] theorem State.unclaim_agenda (s : State) (agent serial : Nat) :
    (s.unclaim agent serial).agenda = s.agenda := rfl

/-! `dropSnoop` -/

@[simp] theorem State.dropSnoop_mem (s : State) (line : Nat) (hi : Bool) : (s.dropSnoop line hi).mem = s.mem := rfl
@[simp] theorem State.dropSnoop_lines (s : State) (line : Nat) (hi : Bool) :
    (s.dropSnoop line hi).lines = s.lines := rfl
@[simp] theorem State.dropSnoop_net (s : State) (line : Nat) (hi : Bool) : (s.dropSnoop line hi).net = s.net := rfl
@[simp] theorem State.dropSnoop_cores (s : State) (line : Nat) (hi : Bool) :
    (s.dropSnoop line hi).cores = s.cores := rfl
@[simp] theorem State.dropSnoop_teams (s : State) (line : Nat) (hi : Bool) :
    (s.dropSnoop line hi).teams = s.teams := rfl
@[simp] theorem State.dropSnoop_flights (s : State) (line : Nat) (hi : Bool) :
    (s.dropSnoop line hi).flights = s.flights := rfl
@[simp] theorem State.dropSnoop_engines (s : State) (line : Nat) (hi : Bool) :
    (s.dropSnoop line hi).engines = s.engines := rfl
@[simp] theorem State.dropSnoop_ctl (s : State) (line : Nat) (hi : Bool) : (s.dropSnoop line hi).ctl = s.ctl := rfl
@[simp] theorem State.dropSnoop_ebb (s : State) (line : Nat) (hi : Bool) : (s.dropSnoop line hi).ebb = s.ebb := rfl
@[simp] theorem State.dropSnoop_sched (s : State) (line : Nat) (hi : Bool) :
    (s.dropSnoop line hi).sched = s.sched := rfl
@[simp] theorem State.dropSnoop_head (s : State) (line : Nat) (hi : Bool) : (s.dropSnoop line hi).head = s.head := rfl
@[simp] theorem State.dropSnoop_host (s : State) (line : Nat) (hi : Bool) :
    (s.dropSnoop line hi).host = { s.host with backInv := s.host.backInv.filter fun b => !(b.1 == line && b.2.1 == hi) } := rfl
@[simp] theorem State.dropSnoop_time (s : State) (line : Nat) (hi : Bool) : (s.dropSnoop line hi).time = s.time := rfl
@[simp] theorem State.dropSnoop_agenda (s : State) (line : Nat) (hi : Bool) :
    (s.dropSnoop line hi).agenda = s.agenda := rfl

/-! `reply_` -/

@[simp] theorem State.reply__mem (s : State) (o : Out) : (s.reply_ o).mem = s.mem := rfl
@[simp] theorem State.reply__lines (s : State) (o : Out) : (s.reply_ o).lines = s.lines := rfl
@[simp] theorem State.reply__net (s : State) (o : Out) : (s.reply_ o).net = s.net := rfl
@[simp] theorem State.reply__cores (s : State) (o : Out) : (s.reply_ o).cores = s.cores := rfl
@[simp] theorem State.reply__teams (s : State) (o : Out) : (s.reply_ o).teams = s.teams := rfl
@[simp] theorem State.reply__flights (s : State) (o : Out) : (s.reply_ o).flights = s.flights := rfl
@[simp] theorem State.reply__engines (s : State) (o : Out) : (s.reply_ o).engines = s.engines := rfl
@[simp] theorem State.reply__ctl (s : State) (o : Out) : (s.reply_ o).ctl = s.ctl := rfl
@[simp] theorem State.reply__ebb (s : State) (o : Out) : (s.reply_ o).ebb = s.ebb := rfl
@[simp] theorem State.reply__sched (s : State) (o : Out) : (s.reply_ o).sched = s.sched := rfl
@[simp] theorem State.reply__head (s : State) (o : Out) : (s.reply_ o).head = s.head := rfl
@[simp] theorem State.reply__host (s : State) (o : Out) :
    (s.reply_ o).host = { s.host with out := s.host.out ++ [o] } := rfl
@[simp] theorem State.reply__time (s : State) (o : Out) : (s.reply_ o).time = s.time := rfl
@[simp] theorem State.reply__agenda (s : State) (o : Out) : (s.reply_ o).agenda = s.agenda := rfl

/-! `setSlot` -/

@[simp] theorem State.setSlot_mem (s : State) (n : Nat) (x : Slot) : (s.setSlot n x).mem = s.mem := rfl
@[simp] theorem State.setSlot_lines (s : State) (n : Nat) (x : Slot) : (s.setSlot n x).lines = s.lines := rfl
@[simp] theorem State.setSlot_net (s : State) (n : Nat) (x : Slot) : (s.setSlot n x).net = s.net := rfl
@[simp] theorem State.setSlot_cores (s : State) (n : Nat) (x : Slot) : (s.setSlot n x).cores = s.cores := rfl
@[simp] theorem State.setSlot_teams (s : State) (n : Nat) (x : Slot) : (s.setSlot n x).teams = s.teams := rfl
@[simp] theorem State.setSlot_flights (s : State) (n : Nat) (x : Slot) : (s.setSlot n x).flights = s.flights := rfl
@[simp] theorem State.setSlot_engines (s : State) (n : Nat) (x : Slot) : (s.setSlot n x).engines = s.engines := rfl
@[simp] theorem State.setSlot_ctl (s : State) (n : Nat) (x : Slot) : (s.setSlot n x).ctl = s.ctl := rfl
@[simp] theorem State.setSlot_ebb (s : State) (n : Nat) (x : Slot) :
    (s.setSlot n x).ebb = { s.ebb with slots := tset s.ebb.slots n x } := rfl
@[simp] theorem State.setSlot_sched (s : State) (n : Nat) (x : Slot) : (s.setSlot n x).sched = s.sched := rfl
@[simp] theorem State.setSlot_head (s : State) (n : Nat) (x : Slot) : (s.setSlot n x).head = s.head := rfl
@[simp] theorem State.setSlot_host (s : State) (n : Nat) (x : Slot) : (s.setSlot n x).host = s.host := rfl
@[simp] theorem State.setSlot_time (s : State) (n : Nat) (x : Slot) : (s.setSlot n x).time = s.time := rfl
@[simp] theorem State.setSlot_agenda (s : State) (n : Nat) (x : Slot) : (s.setSlot n x).agenda = s.agenda := rfl

/-! `setBuffer` -/

@[simp] theorem State.setBuffer_mem (s : State) (cluster : Nat) (l : List GEntry) :
    (s.setBuffer cluster l).mem = s.mem := rfl
@[simp] theorem State.setBuffer_lines (s : State) (cluster : Nat) (l : List GEntry) :
    (s.setBuffer cluster l).lines = s.lines := rfl
@[simp] theorem State.setBuffer_net (s : State) (cluster : Nat) (l : List GEntry) :
    (s.setBuffer cluster l).net = s.net := rfl
@[simp] theorem State.setBuffer_cores (s : State) (cluster : Nat) (l : List GEntry) :
    (s.setBuffer cluster l).cores = s.cores := rfl
@[simp] theorem State.setBuffer_teams (s : State) (cluster : Nat) (l : List GEntry) :
    (s.setBuffer cluster l).teams = s.teams := rfl
@[simp] theorem State.setBuffer_flights (s : State) (cluster : Nat) (l : List GEntry) :
    (s.setBuffer cluster l).flights = s.flights := rfl
@[simp] theorem State.setBuffer_engines (s : State) (cluster : Nat) (l : List GEntry) :
    (s.setBuffer cluster l).engines = { s.engines with buffers := tset s.engines.buffers cluster l } := rfl
@[simp] theorem State.setBuffer_ctl (s : State) (cluster : Nat) (l : List GEntry) :
    (s.setBuffer cluster l).ctl = s.ctl := rfl
@[simp] theorem State.setBuffer_ebb (s : State) (cluster : Nat) (l : List GEntry) :
    (s.setBuffer cluster l).ebb = s.ebb := rfl
@[simp] theorem State.setBuffer_sched (s : State) (cluster : Nat) (l : List GEntry) :
    (s.setBuffer cluster l).sched = s.sched := rfl
@[simp] theorem State.setBuffer_head (s : State) (cluster : Nat) (l : List GEntry) :
    (s.setBuffer cluster l).head = s.head := rfl
@[simp] theorem State.setBuffer_host (s : State) (cluster : Nat) (l : List GEntry) :
    (s.setBuffer cluster l).host = s.host := rfl
@[simp] theorem State.setBuffer_time (s : State) (cluster : Nat) (l : List GEntry) :
    (s.setBuffer cluster l).time = s.time := rfl
@[simp] theorem State.setBuffer_agenda (s : State) (cluster : Nat) (l : List GEntry) :
    (s.setBuffer cluster l).agenda = s.agenda := rfl

/-! `modCmd` -/

@[simp] theorem State.modCmd_mem (s : State) (id : Nat) (f : Command → Command) : (s.modCmd id f).mem = s.mem := rfl
@[simp] theorem State.modCmd_lines (s : State) (id : Nat) (f : Command → Command) :
    (s.modCmd id f).lines = s.lines := rfl
@[simp] theorem State.modCmd_net (s : State) (id : Nat) (f : Command → Command) : (s.modCmd id f).net = s.net := rfl
@[simp] theorem State.modCmd_cores (s : State) (id : Nat) (f : Command → Command) :
    (s.modCmd id f).cores = s.cores := rfl
@[simp] theorem State.modCmd_teams (s : State) (id : Nat) (f : Command → Command) :
    (s.modCmd id f).teams = s.teams := rfl
@[simp] theorem State.modCmd_flights (s : State) (id : Nat) (f : Command → Command) :
    (s.modCmd id f).flights = s.flights := rfl
@[simp] theorem State.modCmd_engines (s : State) (id : Nat) (f : Command → Command) :
    (s.modCmd id f).engines = { s.engines with cmds := s.engines.cmds.map fun c => if c.id = id then f c else c } := rfl
@[simp] theorem State.modCmd_ctl (s : State) (id : Nat) (f : Command → Command) : (s.modCmd id f).ctl = s.ctl := rfl
@[simp] theorem State.modCmd_ebb (s : State) (id : Nat) (f : Command → Command) : (s.modCmd id f).ebb = s.ebb := rfl
@[simp] theorem State.modCmd_sched (s : State) (id : Nat) (f : Command → Command) :
    (s.modCmd id f).sched = s.sched := rfl
@[simp] theorem State.modCmd_head (s : State) (id : Nat) (f : Command → Command) : (s.modCmd id f).head = s.head := rfl
@[simp] theorem State.modCmd_host (s : State) (id : Nat) (f : Command → Command) : (s.modCmd id f).host = s.host := rfl
@[simp] theorem State.modCmd_time (s : State) (id : Nat) (f : Command → Command) : (s.modCmd id f).time = s.time := rfl
@[simp] theorem State.modCmd_agenda (s : State) (id : Nat) (f : Command → Command) :
    (s.modCmd id f).agenda = s.agenda := rfl

/-! `passFavour` -/

@[simp] theorem State.passFavour_mem (s : State) (p : Pass) : (s.passFavour p).mem = s.mem := rfl
@[simp] theorem State.passFavour_lines (s : State) (p : Pass) : (s.passFavour p).lines = s.lines := rfl
@[simp] theorem State.passFavour_net (s : State) (p : Pass) : (s.passFavour p).net = s.net := rfl
@[simp] theorem State.passFavour_cores (s : State) (p : Pass) : (s.passFavour p).cores = s.cores := rfl
@[simp] theorem State.passFavour_teams (s : State) (p : Pass) : (s.passFavour p).teams = s.teams := rfl
@[simp] theorem State.passFavour_flights (s : State) (p : Pass) : (s.passFavour p).flights = s.flights := rfl
@[simp] theorem State.passFavour_engines (s : State) (p : Pass) : (s.passFavour p).engines = s.engines := rfl
@[simp] theorem State.passFavour_ctl (s : State) (p : Pass) : (s.passFavour p).ctl = s.ctl := rfl
@[simp] theorem State.passFavour_ebb (s : State) (p : Pass) : (s.passFavour p).ebb = s.ebb := rfl
@[simp] theorem State.passFavour_sched (s : State) (p : Pass) : (s.passFavour p).sched = s.sched := rfl
@[simp] theorem State.passFavour_head (s : State) (p : Pass) : (s.passFavour p).head = s.head := rfl
@[simp] theorem State.passFavour_host (s : State) (p : Pass) : (s.passFavour p).host = s.host := rfl
@[simp] theorem State.passFavour_time (s : State) (p : Pass) : (s.passFavour p).time = s.time := rfl
@[simp] theorem State.passFavour_agenda (s : State) (p : Pass) :
    (s.passFavour p).agenda = { s.agenda with passes := s.agenda.passes ++ [p] } := rfl

/-! `answerWaits` -/

@[simp] theorem State.answerWaits_mem (s : State) (a : Answering) : (s.answerWaits a).mem = s.mem := rfl
@[simp] theorem State.answerWaits_lines (s : State) (a : Answering) : (s.answerWaits a).lines = s.lines := rfl
@[simp] theorem State.answerWaits_net (s : State) (a : Answering) : (s.answerWaits a).net = s.net := rfl
@[simp] theorem State.answerWaits_cores (s : State) (a : Answering) : (s.answerWaits a).cores = s.cores := rfl
@[simp] theorem State.answerWaits_teams (s : State) (a : Answering) : (s.answerWaits a).teams = s.teams := rfl
@[simp] theorem State.answerWaits_flights (s : State) (a : Answering) : (s.answerWaits a).flights = s.flights := rfl
@[simp] theorem State.answerWaits_engines (s : State) (a : Answering) : (s.answerWaits a).engines = s.engines := rfl
@[simp] theorem State.answerWaits_ctl (s : State) (a : Answering) : (s.answerWaits a).ctl = s.ctl := rfl
@[simp] theorem State.answerWaits_ebb (s : State) (a : Answering) : (s.answerWaits a).ebb = s.ebb := rfl
@[simp] theorem State.answerWaits_sched (s : State) (a : Answering) : (s.answerWaits a).sched = s.sched := rfl
@[simp] theorem State.answerWaits_head (s : State) (a : Answering) :
    (s.answerWaits a).head = { s.head with answered := (s.head.answered.filter fun b => b.mbx != a.mbx) ++ [a] } := rfl
@[simp] theorem State.answerWaits_host (s : State) (a : Answering) : (s.answerWaits a).host = s.host := rfl
@[simp] theorem State.answerWaits_time (s : State) (a : Answering) : (s.answerWaits a).time = s.time := rfl
@[simp] theorem State.answerWaits_agenda (s : State) (a : Answering) : (s.answerWaits a).agenda = s.agenda := rfl

/-! `quiet` -/

@[simp] theorem State.quiet_mem (s : State) (m : Nat) : (s.quiet m).mem = s.mem := rfl
@[simp] theorem State.quiet_lines (s : State) (m : Nat) : (s.quiet m).lines = s.lines := rfl
@[simp] theorem State.quiet_net (s : State) (m : Nat) : (s.quiet m).net = s.net := rfl
@[simp] theorem State.quiet_cores (s : State) (m : Nat) : (s.quiet m).cores = s.cores := rfl
@[simp] theorem State.quiet_teams (s : State) (m : Nat) : (s.quiet m).teams = s.teams := rfl
@[simp] theorem State.quiet_flights (s : State) (m : Nat) : (s.quiet m).flights = s.flights := rfl
@[simp] theorem State.quiet_engines (s : State) (m : Nat) : (s.quiet m).engines = s.engines := rfl
@[simp] theorem State.quiet_ctl (s : State) (m : Nat) : (s.quiet m).ctl = s.ctl := rfl
@[simp] theorem State.quiet_ebb (s : State) (m : Nat) : (s.quiet m).ebb = s.ebb := rfl
@[simp] theorem State.quiet_sched (s : State) (m : Nat) : (s.quiet m).sched = s.sched := rfl
@[simp] theorem State.quiet_head (s : State) (m : Nat) :
    (s.quiet m).head = { s.head with wakes := tset s.head.wakes m (tget s.head.wakes m 0 &&& ~~~1#64), lastMbx := m } := rfl
@[simp] theorem State.quiet_host (s : State) (m : Nat) : (s.quiet m).host = s.host := rfl
@[simp] theorem State.quiet_time (s : State) (m : Nat) : (s.quiet m).time = s.time := rfl
@[simp] theorem State.quiet_agenda (s : State) (m : Nat) : (s.quiet m).agenda = s.agenda := rfl

/-! `powerTick` -/

@[simp] theorem State.powerTick_mem (s : State) : s.powerTick.mem = s.mem := rfl
@[simp] theorem State.powerTick_lines (s : State) : s.powerTick.lines = s.lines := rfl
@[simp] theorem State.powerTick_net (s : State) : s.powerTick.net = s.net := rfl
@[simp] theorem State.powerTick_cores (s : State) : s.powerTick.cores = s.cores := rfl
@[simp] theorem State.powerTick_teams (s : State) : s.powerTick.teams = s.teams := rfl
@[simp] theorem State.powerTick_flights (s : State) : s.powerTick.flights = s.flights := rfl
@[simp] theorem State.powerTick_engines (s : State) : s.powerTick.engines = s.engines := rfl
@[simp] theorem State.powerTick_ctl (s : State) : s.powerTick.ctl = s.ctl := rfl
@[simp] theorem State.powerTick_ebb (s : State) : s.powerTick.ebb = s.ebb := rfl
@[simp] theorem State.powerTick_sched (s : State) : s.powerTick.sched = s.sched := rfl
@[simp] theorem State.powerTick_host (s : State) : s.powerTick.host = s.host := rfl
@[simp] theorem State.powerTick_time (s : State) : s.powerTick.time = s.time := rfl
@[simp] theorem State.powerTick_agenda (s : State) : s.powerTick.agenda = s.agenda := rfl

/-! `issuing` -/

@[simp] theorem State.issuing_mem (s : State) (r : StreamRef) : (s.issuing r).mem = s.mem := rfl
@[simp] theorem State.issuing_lines (s : State) (r : StreamRef) : (s.issuing r).lines = s.lines := rfl
@[simp] theorem State.issuing_net (s : State) (r : StreamRef) : (s.issuing r).net = s.net := rfl
@[simp] theorem State.issuing_cores (s : State) (r : StreamRef) : (s.issuing r).cores = s.cores := rfl
@[simp] theorem State.issuing_teams (s : State) (r : StreamRef) : (s.issuing r).teams = s.teams := rfl
@[simp] theorem State.issuing_flights (s : State) (r : StreamRef) : (s.issuing r).flights = s.flights := rfl
@[simp] theorem State.issuing_engines (s : State) (r : StreamRef) : (s.issuing r).engines = s.engines := rfl
@[simp] theorem State.issuing_ctl (s : State) (r : StreamRef) : (s.issuing r).ctl = s.ctl := rfl
@[simp] theorem State.issuing_ebb (s : State) (r : StreamRef) : (s.issuing r).ebb = s.ebb := rfl
@[simp] theorem State.issuing_sched (s : State) (r : StreamRef) : (s.issuing r).sched = s.sched := rfl
@[simp] theorem State.issuing_head (s : State) (r : StreamRef) : (s.issuing r).head = s.head := rfl
@[simp] theorem State.issuing_host (s : State) (r : StreamRef) : (s.issuing r).host = s.host := rfl
@[simp] theorem State.issuing_time (s : State) (r : StreamRef) : (s.issuing r).time = s.time := rfl
@[simp] theorem State.issuing_agenda (s : State) (r : StreamRef) :
    (s.issuing r).agenda = { s.agenda with cur := some r } := rfl

/-! `idle` -/

@[simp] theorem State.idle_mem (s : State) : s.idle.mem = s.mem := rfl
@[simp] theorem State.idle_lines (s : State) : s.idle.lines = s.lines := rfl
@[simp] theorem State.idle_net (s : State) : s.idle.net = s.net := rfl
@[simp] theorem State.idle_cores (s : State) : s.idle.cores = s.cores := rfl
@[simp] theorem State.idle_teams (s : State) : s.idle.teams = s.teams := rfl
@[simp] theorem State.idle_flights (s : State) : s.idle.flights = s.flights := rfl
@[simp] theorem State.idle_engines (s : State) : s.idle.engines = s.engines := rfl
@[simp] theorem State.idle_ctl (s : State) : s.idle.ctl = s.ctl := rfl
@[simp] theorem State.idle_ebb (s : State) : s.idle.ebb = s.ebb := rfl
@[simp] theorem State.idle_sched (s : State) : s.idle.sched = s.sched := rfl
@[simp] theorem State.idle_head (s : State) : s.idle.head = s.head := rfl
@[simp] theorem State.idle_host (s : State) : s.idle.host = s.host := rfl
@[simp] theorem State.idle_time (s : State) : s.idle.time = s.time := rfl
@[simp] theorem State.idle_agenda (s : State) : s.idle.agenda = { s.agenda with cur := none } := rfl

end Sys2Proof.Machine
end

