-- ==== Sys2Proof/Laws/Words.lean ====
section
/-! SUPPORT. What the shared operations of words do: one lemma for each. -/

namespace Sys2Proof.Machine

theorem word_ready {s : State} {i : Issue} (h : s.Ready i) (k : Issue → State) : word s k = .next (k i) := by
  simp [word, h.cur, h.looked, h.allowed, h.translated]

theorem withSources_reads {s t : State} {i : Issue} {m : Mask} {srcs : List Opd} {rd : Rd}
    (h : s.Reads i m srcs t 0 rd) (hm : m ≠ 0) (k : State → State → Mask → Rd → State) :
    s.withSources i m srcs k = k s t m rd := by
  generalize hd : (0 : Mask) = died at h
  cases h with
  | registers hq => simp [State.withSources, ← queuesOf.eq_1, hq]
  | pops w es died hq hp =>
    subst hd
    have hm' : ¬m = 0#32 := hm
    unfold State.withSources
    simp only [← queuesOf.eq_1]
    simp [hq, hm', hp]

theorem withSources_kills {s t : State} {i : Issue} {m died : Mask} {srcs : List Opd} {rd : Rd} (hd : died ≠ 0)
    (h : s.Reads i m srcs t died rd) (hm : m ≠ 0) (k : State → State → Mask → Rd → State) :
    s.withSources i m srcs k = (k s (t.kill i.ref.team i.ref.warp died) (m &&& ~~~died) rd).reapAll := by
  cases h with
  | registers hq => exact absurd rfl hd
  | pops w es died hq hp =>
    have hm' : ¬m = 0#32 := hm
    unfold State.withSources
    simp only [← queuesOf.eq_1]
    simp [hq, hm', hp, show ¬died = 0#32 from hd]

theorem withSources_wait {s : State} {i : Issue} {m : Mask} {srcs : List Opd} {q : Nat} (hm : m ≠ 0)
    (hq : queuesOf srcs ≠ []) (hp : i.wp.pops m (queuesOf srcs) = .wait q) (k : State → State → Mask → Rd → State) :
    s.withSources i m srcs k = s.waitAt i (.pop q m) := by
  have hm' : ¬m = 0#32 := hm
  unfold State.withSources
  simp only [← queuesOf.eq_1]
  simp [hq, hm', hp]

theorem withSources_fault {s : State} {i : Issue} {m : Mask} {srcs : List Opd} {f : Fault40} (hm : m ≠ 0)
    (hq : queuesOf srcs ≠ []) (hp : i.wp.pops m (queuesOf srcs) = .fault f) (k : State → State → Mask → Rd → State) :
    s.withSources i m srcs k = s.raiseAt i (Trap.ofPop i f) := by
  have hm' : ¬m = 0#32 := hm
  unfold State.withSources
  simp only [← queuesOf.eq_1]
  simp [hq, hm', hp]

/-- A word whose meaning advances without active lanes and otherwise reads its sources and acts. -/
theorem wordActs_of {ins : Instr} {h : Head} {srcs : List Opd} {ready : State → Issue → Prop}
    {act : Issue → State → State → Mask → Rd → State}
    (idle : ∀ s i, s.Ready i → i.active h.guard = 0 → exec ins s = .next (s.advance i h.mark))
    (go : ∀ s i, s.Ready i → i.active h.guard ≠ 0 → ready s i →
      exec ins s = .next (s.withSources i (i.active h.guard) srcs (act i))) : WordActs ins h srcs ready act where
  idle := idle
  held :=
    { waits := fun s i q hr hm hy hq hp => by rw [go s i hr hm hy, withSources_wait hm hq hp]
      traps := fun s i f hr hm hy hq hp => by rw [go s i hr hm hy, withSources_fault hm hq hp] }
  acts := fun s t i rd hr hm hy h => by rw [go s i hr hm hy, withSources_reads h hm]
  kills := fun s t i died rd hr hm hy hd h => by rw [go s i hr hm hy, withSources_kills hd h hm]

/-- A word whose meaning waits for room in the queue of its destination, reads its sources and acts. -/
theorem delivers_of {ins : Instr} {h : Head} {srcs : List Opd} {d : Opd}
    {act : Issue → State → State → Mask → Rd → State}
    (e : ∀ s, exec ins s = word s fun i =>
      if i.active h.guard = 0 then s.advance i h.mark
      else match i.pushWait d with
        | some q => s.waitAt i (.push q false)
        | none => s.withSources i (i.active h.guard) srcs (act i)) :
    Delivers ins h srcs d act where
  full := fun s i q hr hm hp => by rw [e, word_ready hr, if_neg hm, hp]
  delivers := wordActs_of (fun s i hr hm => by rw [e, word_ready hr, if_pos hm])
    fun s i hr hm hp => by rw [e, word_ready hr, if_neg hm, hp]

/-- A word whose meaning is `lanewise`. -/
theorem computes_of {ins : Instr} {h : Head} {srcs : List Opd} {d : Opd} {w : Issue → Nat}
    {f : Issue → Mask → Rd → Nat → Word}
    (e : ∀ s, exec ins s = word s fun i => s.lanewise i h srcs d (w i) (f i)) : Computes ins h srcs d w f :=
  delivers_of e

/-- A word whose meaning is `lanewisePred`. -/
theorem decides_of {ins : Instr} {h : Head} {srcs : List Opd} {p : BitVec 3} {f : Issue → Mask → Rd → Nat → Bool}
    (e : ∀ s, exec ins s = word s fun i => s.lanewisePred i h srcs p (f i)) : Decides ins h srcs p f :=
  wordActs_of (fun s i hr hm => by rw [e, word_ready hr]; dsimp only [State.lanewisePred]; rw [if_pos hm])
    fun s i hr hm _ => by rw [e, word_ready hr]; dsimp only [State.lanewisePred]; rw [if_neg hm]

/-! What the sources give -/

theorem low32_lt (v : Word) : (low32 v).toNat < 2 ^ 32 := by
  simp only [low32, BitVec.toNat_and]
  exact Nat.lt_of_le_of_lt Nat.and_le_right (by decide)

theorem lane_of_mem {m : Mask} {l : Nat} (h : l ∈ lanesOf m) : l < 32 := by
  simp [lanesOf] at h; exact h.1

theorem constReg_lt {n l : Nat} (h : l < 32) : (constReg n l 32).toNat < 2 ^ 32 := by
  unfold constReg
  simp only [if_true]
  split <;> simp <;> omega

theorem read_lt {x : SliceState} {sl : Slice} {l : Nat} (h : l < 32) (o : Opd) :
    (x.read sl l 32 o).toNat < 2 ^ 32 := by
  cases o <;> cases sl <;> simp only [SliceState.read, if_true] <;>
    first | exact low32_lt _ | exact constReg_lt h | decide

/-- A source read at 32 bits gives a number below 2^32. -/
theorem reader_lt {i : Issue} {srcs : List Opd} {es : List QEntry} {k l : Nat} (h : l < 32) :
    (reader i srcs es k l 32).toNat < 2 ^ 32 := by
  unfold reader
  split
  · decide
  · split
    · exact read_lt h _
    · split
      · simp only [if_true]; exact low32_lt _
      · decide

theorem State.Reads.lt {s t : State} {i : Issue} {m died : Mask} {srcs : List Opd} {rd : Rd}
    (h : s.Reads i m srcs t died rd) {k l : Nat} (hl : l < 32) : (rd k l 32).toNat < 2 ^ 32 := by
  cases h <;> exact reader_lt hl

/-- Only the values in the lanes of a word, given what its sources can give, matter. -/
theorem WordActs.congr {ins : Instr} {h : Head} {srcs : List Opd} {ready : State → Issue → Prop}
    {act act' : Issue → State → State → Mask → Rd → State} (w : WordActs ins h srcs ready act)
    (e : ∀ i s t m rd, (∀ k l, l < 32 → (rd k l 32).toNat < 2 ^ 32) → act i s t m rd = act' i s t m rd) :
    WordActs ins h srcs ready act' where
  idle := w.idle
  held := w.held
  acts := fun s t i rd hr hm hy hd => by rw [w.acts s t i rd hr hm hy hd, e]; exact fun k l hl => hd.lt hl
  kills := fun s t i died rd hr hm hy h0 hd => by
    rw [w.kills s t i died rd hr hm hy h0 hd, e]; exact fun k l hl => hd.lt hl

theorem laneVals_congr {m : Mask} {f g : Nat → Word} (e : ∀ l, l < 32 → f l = g l) : laneVals m f = laneVals m g :=
  List.map_congr_left fun l hl => by rw [e l (lane_of_mem hl)]

theorem Computes.congr {ins : Instr} {h : Head} {srcs : List Opd} {d : Opd} {w : Issue → Nat}
    {f g : Issue → Mask → Rd → Nat → Word} (c : Computes ins h srcs d w f)
    (e : ∀ i m rd, (∀ k l, l < 32 → (rd k l 32).toNat < 2 ^ 32) → ∀ l, l < 32 → f i m rd l = g i m rd l) :
    Computes ins h srcs d w g where
  full := c.full
  delivers := c.delivers.congr fun i s t m rd hr => by rw [laneVals_congr (e i m rd hr)]

theorem Decides.congr {ins : Instr} {h : Head} {srcs : List Opd} {p : BitVec 3}
    {f g : Issue → Mask → Rd → Nat → Bool} (c : Decides ins h srcs p f)
    (e : ∀ i m rd, (∀ k l, l < 32 → (rd k l 32).toNat < 2 ^ 32) → ∀ l ∈ lanesOf m, f i m rd l = g i m rd l) :
    Decides ins h srcs p g :=
  WordActs.congr c fun i s t m rd hr => by
    have : predWrites p m (f i m rd) = predWrites p m (g i m rd) :=
      List.map_congr_left fun l hl => by rw [e i m rd hr l hl]
    rw [this]

end Sys2Proof.Machine
end

