-- ==== Sys2Proof/Tests/Slice0.lean ====
section
/-! SUPPORT. Tests of the model: ill-formed terms refused, words written out from the encoding tables decoded, a few
single steps with results taken from the spec, and for each statement a state and operands that meet its hypotheses. -/

namespace Sys2Proof.Tests

open Sys2Proof Sys2Proof.Machine

/-! Terms -/

def always : Guard := ⟨false, 7⟩
def plain : Head := ⟨false, always⟩
/-- Under p0. -/
def ifP0 : Head := ⟨false, ⟨false, 0⟩⟩
/-- Command fields that name a0, no target and no slot. -/
def cmd0 : Cmd := ⟨0, 0, 0, 0, none, .none, 0, 0⟩

/-! Well-formedness: one ill-formed term for each check -/

theorem test_wf_guard : (Instr.add ⟨false, ⟨true, 7⟩⟩ .z32 false (.r 1) (.r 2) (.r 3)).wf .c = false := by decide
theorem test_wf_type : (Instr.add plain .z8 false (.r 1) (.r 2) (.r 3)).wf .c = false := by decide
theorem test_wf_operands :
    (Instr.add plain .z64 false (.r 33) (.r 2) (.r 3)).wf .a = false ∧
    (Instr.add plain .z32 false (.s 16) (.r 2) (.r 3)).wf .a = false ∧
    (Instr.add plain .z64 false (.r 1) (.r 2) (.r 4)).wf .c = false ∧
    (Instr.add plain .z32 false (.k 0) (.r 2) (.r 3)).wf .c = false ∧
    (Instr.add plain .z32 false (.r 1) (.f 0) (.f 0)).wf .c = false ∧
    (Instr.add plain .z32 false (.r 1) (.f 0) (.r 3)).wf .a = false ∧
    (Instr.add plain .z32 false (.f 0) (.r 2) (.r 3)).wf .c = false ∧
    (Instr.add plain .z32 false (.r 1) (.sa) (.r 3)).wf .c = false ∧
    (Instr.brInd false (.r 4)).wf .c = false ∧ (Instr.leaPriv plain (.f 0) (.r 1) (.r 2)).wf .a = false ∧
    (Instr.accFin plain false 0 (.r 1) (.r 2) (.r 3) (.r 5)).wf .a = false := by decide
theorem test_wf_branch :
    (Instr.br plain 1 2).wf .a = false ∧ (Instr.br ifP0 0 2).wf .a = false ∧ (Instr.br ifP0 1 2).wf .c = false ∧
    (Instr.brQ false 0 0 0 2).wf .c = false ∧ (Instr.brQ false 0 0 1 2).wf .a = false ∧
    (Instr.brB plain 0 0 0 2).wf .c = false ∧ (Instr.brBack false 0 0 1 2).wf .c = false := by decide
theorem test_wf_immediates :
    (Instr.shlImm plain .z32 (.r 1) (.r 2) 32).wf .c = false ∧
    (Instr.shlImm plain .z32 (.r 1) (.r 2) 31).wf .c = true ∧
    (Instr.movhi plain .z32 false (.r 1) (.r 1) 64).wf .c = false ∧
    (Instr.movhi plain .z64 true (.r 1) (.r 1) 4096).wf .a = false ∧
    (Instr.movhi plain .z32 true (.r 1) (.r 1) 1).wf .a = false ∧
    (Instr.cmp plain .z32 6 1 (.r 1) (.r 2)).wf .a = false ∧ (Instr.cmp plain .z32 5 7 (.r 1) (.r 2)).wf .a = false ∧
    (Instr.lea plain .z64 0 (.r 1) (.r 2) (.r 3)).wf .c = false ∧
    (Instr.shflIdx plain .z32 5 (.r 1) (.r 2) (.r 3) none).wf .c = false ∧
    (Instr.shflIdx plain .z32 0 (.r 1) (.r 2) (.r 3) (some 7)).wf .c = false ∧
    (Instr.xch plain .z32 0 (.r 1) (.r 2) none).wf .c = false := by decide
theorem test_wf_float :
    (Instr.fadd plain .f32 0 (.r 1) (.r 2) (.r 3)).wf .a = false ∧
    (Instr.fadd plain .f32 5 (.r 1) (.r 2) (.r 3)).wf .c = false ∧
    (Instr.fadd plain .f64 0 (.r 1) (.r 2) (.r 4)).wf .c = false ∧
    (Instr.fsin plain .f64 (.r 2) (.r 4)).wf .c = false ∧ (Instr.hadd2 plain .f32 0 (.r 1) (.r 2) (.r 3)).wf .c = false ∧
    (Instr.cvt plain .z32 12 0 true (.r 1) (.r 2)).wf .c = false ∧
    (Instr.cvt plain .z32 0 0 false (.r 1) (.r 2)).wf .c = false ∧
    (Instr.cvtPk plain 1 true 0 (.r 1) (.r 2) (.r 3) (.r 0)).wf .c = false ∧
    (Instr.cvtUnpk plain 1 2 (.r 1) (.r 2)).wf .c = false ∧ (Instr.mxScale plain 1 (.r 1) (.r 2)).wf .c = false ∧
    (Instr.fmtSetImm plain 0).wf .c = false := by decide
theorem test_wf_memory :
    (Instr.ld plain .f32 .none (.r 1) (.r 2) 0).wf .a = false ∧ (Instr.ld plain .z32 .none (.r 1) (.r 2) 0).wf .c = false ∧
    (Instr.ldx plain .z32 0 (.f 0) (.r 2) 0).wf .a = false ∧
    (Instr.ldIdx plain .z32 .none 5 (.r 1) (.r 2) (.r 3)).wf .a = false ∧
    (Instr.atom plain .z32 6 .pkg .none (.r 1) (.r 2) (.r 3)).wf .a = true ∧
    (Instr.atom plain .i32 6 .pkg .none (.r 1) (.r 2) (.r 3)).wf .a = false ∧
    (Instr.atom plain .z32 0 .none .acq (.r 1) (.r 2) (.r 3)).wf .a = false ∧
    (Instr.red plain .z32 0 true false .team (.r 1) (.r 2)).wf .a = false ∧
    (Instr.red plain .z32 0 false false .warp (.r 1) (.r 2)).wf .a = false ∧
    (Instr.sc plain .z32 .pkg .none (.r 1) (.r 2) 0).wf .a = false ∧ (Instr.fence plain .none).wf .a = false ∧
    (Instr.rvInit plain 24 (.imm 1) (.imm 1)).wf .a = false ∧ (Instr.rvInit plain 0 (.imm 33) (.imm 1)).wf .a = false ∧
    (Instr.gSet plain 0 0).wf .a = false ∧ (Instr.stq plain .z32 .none false 0 (.r 1)).wf .a = false := by decide
theorem test_wf_engines :
    (Instr.cp plain { cmd0 with dst := 48 }).wf .a = false ∧ (Instr.cp plain { cmd0 with kind := 3, index := 1 }).wf .a = false ∧
    (Instr.cp plain { cmd0 with kind := 1, index := 24 }).wf .a = false ∧
    (Instr.cp plain { cmd0 with kind := 2, index := 16 }).wf .a = false ∧
    (Instr.cp plain { cmd0 with scope := .pkg }).wf .a = false ∧ (Instr.cpFeed plain { cmd0 with dst := 3 }).wf .a = false ∧
    (Instr.cpPut plain { cmd0 with scope := .sys, dst := 1 }).wf .a = false ∧
    (Instr.mma plain { cmd0 with scope := .sys }).wf .a = false ∧ (Instr.mma plain { cmd0 with scope := .pkg, src := 1 }).wf .a = false ∧
    (Instr.halt ⟨false, ⟨true, 7⟩⟩).wf .a = false ∧ (Instr.loadReply 0).wf .a = false := by decide
theorem test_wf_pair :
    (Instr.shortPair false ⟨.add, 1, 2, .reg (.r 3)⟩ ⟨.fmul, 5, 5, .reg (.r 8)⟩).wf .c = false ∧
    (Instr.shortPair false ⟨.add, 1, 2, .reg (.r 6)⟩ ⟨.fmul, 6, 10, .reg (.r 8)⟩).wf .c = false ∧
    (Instr.shortPair false ⟨.shlI, 1, 2, .imm 32⟩ ⟨.nop, 0, 0, .imm 0⟩).wf .c = false ∧
    (Instr.shortPair false ⟨.nop, 1, 0, .imm 0⟩ ⟨.nop, 0, 0, .imm 0⟩).wf .c = false := by decide

/-! Decoding: the spec's worked encodings, and words written out from R232 to R241 -/

/-- The R layout (R233, R235). -/
def wordR (s : BitVec 1) (op : BitVec 8) (g : BitVec 4) (d a b c : BitVec 8) (ty : BitVec 4) (sc : BitVec 3)
    (od : BitVec 2) (o : BitVec 9) : Word := s ++ 0#1 ++ op ++ g ++ d ++ a ++ b ++ c ++ ty ++ sc ++ od ++ o

/-- The I and M layouts (R233, R238). -/
def wordI (s : BitVec 1) (op : BitVec 8) (g : BitVec 4) (d a : BitVec 8) (ty sub : BitVec 4) (imm : BitVec 26) : Word :=
  s ++ 0#1 ++ op ++ g ++ d ++ a ++ ty ++ sub ++ imm

/-- The command fields (R340). -/
def wordCmd (s : BitVec 1) (op : BitVec 8) (g : BitVec 4) (dst src : BitVec 6) (ofs : BitVec 10) (shape : BitVec 5)
    (gd : BitVec 1) (slot : BitVec 4) (sc : BitVec 3) (kind : BitVec 2) (index : BitVec 5) : Word :=
  s ++ 0#1 ++ op ++ g ++ dst ++ src ++ ofs ++ shape ++ gd ++ slot ++ 0#4 ++ sc ++ 0#2 ++ kind ++ index ++ 0#2

/-- Words of `sr.get`, `cmp`, `br`, `br.q`, `scan.ex`, `shfl.idx` and `call` in 11_control_flow. -/
theorem test_decode_control :
    decode .a 0x0D1E84050800000C = .ok (.cmpImm plain .z64 2 1 (.r 1) 12) ∧
    decode .a 0x0084000010000004 = .ok (.br ⟨false, ⟨false, 1⟩⟩ 4 4) ∧
    decode .a 0x009C000003FFFFFC = .ok (.br plain 0 0x3FFFFFC) ∧
    decode .c 0x00DC010014000002 = .ok (.brQ false 0 1 5 2) ∧
    decode .a 0x019C000000000005 = .ok (.call false 5) := ⟨rfl, rfl, rfl, rfl, rfl⟩
theorem test_decode_cross_lane :
    decode .c 0x101C14260E88C001 = .ok (.shflIdx plain .z32 0 (.r 5) (.r 9) (.s 3) (some 2)) := rfl
/-- Words of the worked programs. -/
theorem test_decode_programs :
    decode .a 0x229C18102000E800 = .ok (.atom plain .z32 0 .pkg .none (.r 6) (.r 4) (.r 8)) ∧
    decode .a 0x8D9E8E8E94000000 = .ok (.pand ⟨true, always⟩ 3 3 5) ∧
    decode .a 0x2058300CC0000000 = .ok (.st ⟨false, ⟨false, 6⟩⟩ .z32 .none (.r 12) (.r 3) 0) ∧
    decode .a 0x200C3418C0000000 = .ok (.ld ⟨false, ⟨false, 3⟩⟩ .z32 .none (.r 13) (.r 6) 0) ∧
    decode .a 0xA3DE9024282CE805 = .ok (.waitAddr ⟨true, always⟩ .z32 5 .pkg 4 (.r 9) (.r 10) (.r 11)) ∧
    decode .a 0x3D1C04080C100000 = .ok (.ebbSlide plain (.r 1) (.r 2) (.r 3) (.r 4)) := ⟨rfl, rfl, rfl, rfl, rfl, rfl⟩
theorem test_decode_pair : decode .c 0xC1020801AC182808 =
    .ok (.shortPair true ⟨.add, 1, 2, .reg (.r 3)⟩ ⟨.fmul, 6, 5, .reg (.r 8)⟩) := rfl
/-- `mad.z32 v5, v1, s2, f3` (0x16, TYPE 3). -/
theorem test_decode_integer : decode .c (wordR 0 0x16 0b0111 5 1 130 243 3 0 0 0) =
    .ok (.mad plain .z32 (.r 5) (.r 1) (.s 2) (.f 3)) := rfl
/-- `(!p2) fadd.rdn.f64 v6, v8, 227` (0x50, TYPE 12, RMODE 3) with S. -/
theorem test_decode_float : decode .c (wordR 1 0x50 0b1010 6 8 227 0 12 0 0 3) =
    .ok (.fadd ⟨true, ⟨true, 2⟩⟩ .f64 3 (.r 6) (.r 8) (.k 3)) := rfl
/-- `cvt.rtz.i64.f64 v4, v2` (0x70, TYPE 8, OP 12 and RMODE 1 in bits 6:4). -/
theorem test_decode_convert : decode .c (wordR 0 0x70 0b0111 4 2 0 0 8 0 0 0b000011100) =
    .ok (.cvt plain .i64 12 1 false (.r 4) (.r 2)) := rfl
/-- `ld.z64.acq.cluster a4, [s2-8]` (0x80, SUB 0111). -/
theorem test_decode_memory : decode .a (wordI 0 0x80 0b0111 4 130 4 0b0111 (-8)) =
    .ok (.ld plain .z64 .cluster (.r 4) (.s 2) (-8)) := rfl
/-- `wait.cnt` of c5 with a register and 3, and `rv.init rv7, 2, 256` (0x88; 0x90 with IA and IB). -/
theorem test_decode_sync :
    decode .c (wordI 0 0x88 0b0000 0 9 3 5 3) = .ok (.waitCnt ifP0 5 (some (.r 9)) 3) ∧
    decode .a (wordR 0 0x90 0b0111 0 2 1 0 0 0 0 0b001100111) = .ok (.rvInit plain 7 (.imm 2) (.imm 256)) := ⟨rfl, rfl⟩
/-- `cp` to [a2] from [s1-8] with shape 3, slot g5 and counter c7. -/
theorem test_decode_engine : decode .a (wordCmd 0 0xA0 0b0111 2 33 (-1) 3 1 5 0 2 7) =
    .ok (.cp plain ⟨2, 33, -1, 3, some 5, .none, 2, 7⟩) := rfl
/-- `wb [s2], v3` on the C-slice, and `(p2) halt` (0xC0; 0xF6). -/
theorem test_decode_system :
    decode .c (wordR 0 0xC0 0b0111 0 130 3 0 0 0 0 0) = .ok (.wb plain (.s 2) (.r 3)) ∧
    decode .a (wordR 0 0xF6 0b0010 0 0 0 0 0 0 0 0) = .ok (.halt ⟨false, ⟨false, 2⟩⟩) := ⟨rfl, rfl⟩
/-- The traps of 11_control_flow: `(p1) br` on the C-slice, `(p3) call`, and `br.ind v4`. -/
theorem test_decode_traps :
    decode .c 0x0084000010000004 = .error .guard ∧ decode .a 0x018C000000000005 = .error .guard ∧
    decode .c (wordR 0 0x08 0b0111 0 4 0 0 0 0 0 0) = .error .field := ⟨rfl, rfl, rfl⟩

/-! States that meet hypotheses -/

/-- A running team of one warp on core 0, its warp changed, with its turn in slice sl. -/
def team (f : Warp → Warp) : Team := { placedTeam .a 0 with warps := [(0, f (placedWarp .a 0))] }

def turn (sl : Slice) (tm : Team) : Issue :=
  let wp := (tget? tm.warps 0).getD (placedWarp .a 0)
  ⟨⟨0, 0, sl, 0⟩, tm, wp, wp.slice sl, ((wp.slice sl).splits.head?).getD (placedSplit 0)⟩

def scene (sl : Slice) (tm : Team) : State :=
  { State.reset with teams := [(0, tm)], agenda := { State.reset.agenda with cur := some ⟨0, 0, sl, 0⟩ } }

/-- The warp of a team with p0 true in every lane of both slices. -/
def p0True (w : Warp) : Warp :=
  { w with a := { w.a with preds := [(0, 0xFFFFFFFF)] }, c := { w.c with preds := [(0, 0xFFFFFFFF)] } }

/-- An entry of every lane: fetched, still fetched, poisoned by a fault, or poisoned by data in lane 3. -/
def entry : QEntry := QEntry.fresh 0 0xFFFFFFFF 0 [] 0 []

def queued (e : QEntry) (w : Warp) : Warp := { p0True w with f0 := [e], sa := [entry] }

/-- The hypotheses of `WordActs` and `Delivers` on a word under p0: with no active lane, and with its sources read. -/
def Met (sl : Slice) (srcs : List Opd) (d : Opd) : Prop :=
  (∃ s i, State.Ready s i ∧ i.active ifP0.guard = 0 ∧ i.ref.slice = sl) ∧
  ∃ s i rd, State.Ready s i ∧ i.active ifP0.guard ≠ 0 ∧ i.ref.slice = sl ∧ i.pushWait d = none ∧
    s.Reads i (i.active ifP0.guard) srcs s 0 rd

theorem met_registers (sl : Slice) (srcs : List Opd) (d : Opd) (hs : queuesOf srcs = []) (hd : Opd.queue? d = none) :
    Met sl srcs d := by
  refine ⟨⟨scene sl (team id), turn sl (team id), ⟨rfl, ?_, ?_, rfl⟩, ?_, rfl⟩,
    ⟨scene sl (team p0True), turn sl (team p0True), _, ⟨rfl, ?_, ?_, rfl⟩, ?_, rfl, ?_, .registers hs⟩⟩ <;>
  first | (simp only [Issue.pushWait, hd]) | (cases sl <;> first | rfl | decide)

/-- The clauses of a word whose source is a queue: it pops, it pops and lanes die, it waits, it traps; and of one whose
destination is a full queue, and one with room for one entry. -/
theorem witness_queue_sources :
    (∃ s t i rd, State.Ready s i ∧ i.active ifP0.guard ≠ 0 ∧ i.pushWait (.r 3) = none ∧
      s.Reads i (i.active ifP0.guard) [.f 0] t 0 rd) ∧
    (∃ s t i rd died, State.Ready s i ∧ i.active ifP0.guard ≠ 0 ∧ died ≠ 0 ∧
      s.Reads i (i.active ifP0.guard) [.f 0] t died rd) ∧
    (∃ s i, State.Ready s i ∧ i.active ifP0.guard ≠ 0 ∧ i.wp.pops (i.active ifP0.guard) (queuesOf [.f 0]) = .wait 0) ∧
    (∃ s i, State.Ready s i ∧ i.active ifP0.guard ≠ 0 ∧
      i.wp.pops (i.active ifP0.guard) (queuesOf [.f 0]) = .fault ⟨1, 3, 64, 8, 16⟩) ∧
    (∃ s i, State.Ready s i ∧ i.active ifP0.guard ≠ 0 ∧ i.pushWait (.f 0) = some 0) ∧
    ∃ s i, State.Ready s i ∧ i.active ifP0.guard ≠ 0 ∧ i.pushWait (.f 0) = none :=
  let full (n : Nat) (w : Warp) : Warp := { p0True w with f0 := List.replicate n entry }
  let bad := { entry with poisonFault := 8, record := some ⟨1, 3, 64, 8, 16⟩ }
  let dead := { entry with poisonData := 8 }
  ⟨⟨scene .c (team (queued entry)), _, turn .c (team (queued entry)), _, ⟨rfl, rfl, rfl, rfl⟩, by decide, rfl,
      .pops _ _ _ (by decide) rfl⟩,
    ⟨scene .c (team (queued dead)), _, turn .c (team (queued dead)), _, 8, ⟨rfl, rfl, rfl, rfl⟩, by decide, by decide,
      .pops { queued dead (placedWarp .a 0) with f0 := [] } [dead] 8 (by decide) (by decide)⟩,
    ⟨scene .c (team p0True), turn .c (team p0True), ⟨rfl, rfl, rfl, rfl⟩, by decide, rfl⟩,
    ⟨scene .c (team (queued bad)), turn .c (team (queued bad)), ⟨rfl, rfl, rfl, rfl⟩, by decide, by decide⟩,
    ⟨scene .a (team (full 8)), turn .a (team (full 8)), ⟨rfl, rfl, rfl, rfl⟩, by decide, rfl⟩,
    ⟨scene .a (team (full 7)), turn .a (team (full 7)), ⟨rfl, rfl, rfl, rfl⟩, by decide, rfl⟩⟩

theorem witness_IntegerArithmetic : Ty.isInt4 .i64 = true ∧ Met .c [.r 2, .r 4, .s 6] (.r 8) :=
  ⟨rfl, met_registers _ _ _ rfl rfl⟩
theorem witness_MovesAndLogic : Ty.isInt4 .z32 = true ∧ movhiImm .z32 false 63 = true ∧ movhiImm .z64 true 4095 = true ∧
    Ty.w .z64 = 64 ∧ Met .a [.r 1, .s 15] (.r 31) := ⟨rfl, by decide, by decide, rfl, met_registers _ _ _ rfl rfl⟩
theorem witness_ShiftsAndBits : Ty.isInt4 .i32 = true ∧ Met .c [.r 127, .k 7, .s 31] (.s 0) :=
  ⟨rfl, met_registers _ _ _ rfl rfl⟩
theorem witness_ComparesAndPredicates : Ty.isInt4 .z64 = true ∧ (5#3).toNat < 6 ∧ Met .a [.r 1, .r 2] (.r 0) :=
  ⟨rfl, by decide, met_registers _ _ _ rfl rfl⟩
theorem witness_FloatArithmetic : Ty.isFloat .f64 = true ∧ Ty.isPair .bf16x2 = true ∧ Met .c [.r 2, .r 4, .r 6] (.r 8) :=
  ⟨rfl, rfl, met_registers _ _ _ rfl rfl⟩
theorem witness_FloatComparisons : Ty.isFloat .f16 = true ∧ Ty.isPair .f16x2 = true ∧ Met .c [.r 2, .r 4] (.r 8) ∧
    (Val.inf true).isNan = false ∧ (Val.fin false 0 0).isNan = false ∧ (Val.nan true).isNan = true :=
  ⟨rfl, rfl, met_registers _ _ _ rfl rfl, rfl, rfl, rfl⟩
/-- The least and the greatest r; a magnitude that is a multiple of the unit, half a unit, and one above it. -/
theorem witness_RoundingAndSpecialCases : (0 < 65536 ∧ 65535 < 65536) ∧ ((-4 : Int) ≤ -4 ∧ (-5 : Int) < -4) ∧
    2 * ((roundUnits 0 0 false 1 (-5) (-4)).1 * 2 - 1) ≤ 2 ∧ (Val.nan false).isNan = true ∧ (1 ≠ 0) := by decide
theorem witness_BoundedFunctions : Ty.isFloat .f64 = true ∧ Ty.isShortFloat .bf16 = true ∧ Met .c [.r 2] (.r 8) :=
  ⟨rfl, rfl, met_registers _ _ _ rfl rfl⟩
theorem witness_Conversions : Met .c [.r 2, .r 4, .r 6] (.r 8) ∧ Ty.isInt4 .z64 = true ∧ Ty.ofCode 8 = .i64 ∧
    Ty.isInt .i64 = true ∧ Ty.ofCode 1 = .z8 ∧ Ty.isInt .z8 = true := ⟨met_registers _ _ _ rfl rfl, rfl, rfl, rfl, rfl, rfl⟩
theorem witness_SubByteAndMx : Met .c [.r 2, .r 4] (.r 8) ∧ 63 < 64 ∧ 0xFE ≠ 0xFF :=
  ⟨met_registers _ _ _ rfl rfl, by decide, by decide⟩
theorem witness_FormatWords : Met .c [.r 2] (.r 8) ∧ Met .a [] (.r 8) ∧ fmtValid 0x01100000 = true :=
  ⟨met_registers _ _ _ rfl rfl, met_registers _ _ _ rfl rfl, by decide⟩
theorem witness_ShufflesVotesScans : Ty.isInt4 .i64 = true ∧ (4#3).toNat < 5 ∧ (5#3).toNat < 6 ∧
    Met .c [.r 2, .s 4] (.r 8) := ⟨rfl, by decide, by decide, met_registers _ _ _ rfl rfl⟩

/-- A private pointer with the greatest offset of 128, and one past it; and the registers that `sr.set` writes. -/
theorem witness_SpecialRegisters :
    let tm : Team := { team p0True with privSize := 128, privBase := 0x10000 }
    (scene .a tm).Ready (turn .a tm) ∧ (turn .a tm).ref.slice = .a ∧ (turn .a tm).active always ≠ 0 ∧
    (aliasFor tm 0xA00000000000007F 31).isSome = true ∧ (aliasFor tm 0xA000000000000080 31).isNone = true ∧
    31 < 32 * tm.nwarps * (tm.gx * tm.gy * tm.gz) ∧ slipLegal 0x8181 = true ∧ slipLegal 0x8180 = false ∧
    Met .a [.r 1] (.r 2) :=
  ⟨⟨rfl, rfl, rfl, rfl⟩, rfl, by decide, rfl, rfl, by decide, rfl, rfl, met_registers _ _ _ rfl rfl⟩

/-- SHARE teams on cores 0 and 1: no partner; one whose word has not come; and one that waits. -/
theorem witness_ClusterExchange :
    let one : Team := { team p0True with flags := 8 }
    let other (w : Warp → Warp) : Team := { team w with flags := 8, core := 1 }
    let two (w : Warp → Warp) : State := { scene .c one with teams := [(0, one), (1, other w)] }
    let o : Offer := ⟨1, 0, 0xFFFFFFFF, false, .z32, .r 3, .r 2, none⟩
    let waits (w : Warp) : Warp := { w with c := { w.c with offers := [o] } }
    let i := turn .c one
    let alone (w : Wait) : Team := { team fun x => { x with c := { x.c with splits := [{ placedSplit 0 with wait := w }] } } with flags := 8 }
    (∃ s j, State.Ready s j ∧ j.tm.share = false) ∧
    ((scene .c (alone .none)).Ready (turn .c (alone .none)) ∧ (scene .c (alone .none)).peer? (alone .none) 1 = none ∧
      (turn .c (alone .none)).sp.wait ≠ .exchange 1) ∧
    ((scene .c (alone (.exchange 1))).Ready (turn .c (alone (.exchange 1))) ∧
      (scene .c (alone (.exchange 1))).peer? (alone (.exchange 1)) 1 = none ∧ (turn .c (alone (.exchange 1))).sp.wait = .exchange 1) ∧
    (two id).Ready i ∧ i.tm.share = true ∧ (two id).peer? i.tm (i.tm.core % 4 ^^^ 1) = some 1 ∧
    (∃ w, i.wp.pops (i.active always) [] = .ok w [] 0) ∧
    ((((two id).team? 1).bind fun tm => tget? tm.warps 0).bind fun w => (w.slice .c).offer? 1) = none ∧
    (two waits).Ready i ∧ ((((two waits).team? 1).bind fun tm => tget? tm.warps 0).bind fun w => (w.slice .c).offer? 1) = some o ∧
    i.sl.offer? 1 = none ∧ ∃ j s1 s2 x y, (two waits).issue? ⟨1, 0, .c, 0⟩ = some j ∧ j.pushWait (.r 3) = none ∧
      (two waits).side i.ref 0xFFFFFFFF .z32 (.r 2) = some (s1, x) ∧
      s1.side ⟨1, 0, .c, 0⟩ 0xFFFFFFFF .z32 (.r 2) = some (s2, y) :=
  ⟨⟨scene .c (team id), turn .c (team id), ⟨rfl, rfl, rfl, rfl⟩, rfl⟩,
    ⟨⟨rfl, rfl, rfl, rfl⟩, rfl, by decide⟩, ⟨⟨rfl, rfl, rfl, rfl⟩, rfl, rfl⟩,
    ⟨rfl, rfl, rfl, rfl⟩, rfl, rfl, ⟨_, rfl⟩, rfl, ⟨rfl, rfl, rfl, rfl⟩, rfl, rfl, _, _, _, _, _, rfl, rfl, rfl, rfl⟩

/-- A link that is a multiple of 8, and one that is not. -/
theorem witness_ControlTransfers :
    (∃ s i, State.Ready s i ∧ i.sp.link.toNat % 8 = 0) ∧ ∃ s i, State.Ready s i ∧ i.sp.link.toNat % 8 ≠ 0 :=
  ⟨⟨scene .a (team id), turn .a (team id), ⟨rfl, rfl, rfl, rfl⟩, rfl⟩,
    ⟨scene .a (team fun w => { w with a := placedSlice [{ placedSplit 0 with link := 12 }] }),
      turn .a (team fun w => { w with a := placedSlice [{ placedSplit 0 with link := 12 }] }), ⟨rfl, rfl, rfl, rfl⟩, by decide⟩⟩

/-- Queues of outcomes full and with room for one; a stack of 32 entries and of 31, and all four numbers taken; and an
outcome that holds the split's lanes. -/
theorem witness_DivergingBranches :
    let out : Outcome := ⟨0xFFFFFFFF, 0, 1⟩
    let half (w : Warp) : Warp := { w with a := { w.a with preds := [(0, 1)] }, c := { w.c with preds := [(0, 1)] } }
    let full (n k : Nat) (w : Warp) : Warp := { w with boq := List.replicate n out, back := List.replicate k out }
    let deep (n : Nat) (w : Warp) : Warp :=
      { half w with a := { (half w).a with stack := List.replicate n (.join 64 0xFFFFFFFF none 0) } }
    let t := (turn .a (team (deep 32))).active ifP0.guard
    (∃ i, i = turn .a (team (full 16 8)) ∧ State.Ready (scene .a i.tm) i ∧ i.wp.c.ended = false ∧ 16 ≤ i.wp.boq.length ∧
      i.wp.a.ended = false ∧ 8 ≤ i.wp.back.length) ∧
    (∃ i, i = turn .a (team (full 15 7)) ∧ State.Ready (scene .a i.tm) i ∧ i.wp.boq.length < 16 ∧ i.wp.back.length < 8 ∧
      findOutcome i.wp.boq i.sp.mask = some out ∧ findOutcome i.wp.back i.sp.mask = some out) ∧
    (∃ i, i = turn .a (team (deep 32)) ∧ State.Ready (scene .a i.tm) i ∧ t ≠ 0 ∧ t ≠ i.sp.mask ∧ 32 < i.sl.stack.length + 1 ∧
      findOutcome i.wp.boq i.sp.mask = none ∧ findOutcome i.wp.back i.sp.mask = none) ∧
    (∃ i, i = turn .a (team (deep 31)) ∧ State.Ready (scene .a i.tm) i ∧ ¬32 < i.sl.stack.length + 1 + 0) ∧
    ifP0.guard ≠ ⟨false, 7⟩ :=
  ⟨⟨_, rfl, ⟨rfl, rfl, rfl, rfl⟩, rfl, by decide, rfl, by decide⟩,
    ⟨_, rfl, ⟨rfl, rfl, rfl, rfl⟩, by decide, by decide, rfl, rfl⟩,
    ⟨_, rfl, ⟨rfl, rfl, rfl, rfl⟩, by decide, by decide, by decide, rfl, rfl⟩,
    ⟨_, rfl, ⟨rfl, rfl, rfl, rfl⟩, by decide⟩, by decide⟩

/-- The lowest lane against the others. -/
theorem witness_DivergeAndMerge :
    let m : Mask := 0xFFFFFFFF
    m &&& m = m ∧ m &&& 1 ≠ 0 ∧ m &&& ~~~1 ≠ 0 ∧ (placedSlice []).parked = [] ∧ (8 : Word) ≠ 64 ∧ (16 : Word) ≠ 64 := by
  decide

theorem witness_ExitAndTrap : (∃ s i, State.Ready s i ∧ i.active ifP0.guard = 0) ∧
    ∃ s i, State.Ready s i ∧ i.active ifP0.guard ≠ 0 :=
  ⟨⟨scene .c (team id), turn .c (team id), ⟨rfl, rfl, rfl, rfl⟩, rfl⟩,
    ⟨scene .c (team p0True), turn .c (team p0True), ⟨rfl, rfl, rfl, rfl⟩, by decide⟩⟩

/-! Memory, synchronisation and engine words -/

/-- Context 0, privileged, of function 0, with one range: virtual 0 to 32 KiB at physical 0x8000, read, written and
executed, in one entry of the address map; core 0's range buffer holds it, and the L2 the
lines that are asked for. Shape 0 of a stage that starts at 0x100 is an `acc.fin` record of one row
of 16 binary32; shape 1 an array of one `.z64`; shape 2 no record. -/
def mapped (s : State) : State :=
  { s with
    mem := [(0x1000, 0x70), (0x1007, 0x80), (0x100C, 0xFF), (0x1011, 0x80), (0x80C0, 1), (0x80C7, 0x14), (0x80E0, 0x10),
      (0x80E6, 0x80), (0x80E7, 0x40), (0x80EC, 1)]
    ctl := [(2048, 0x8000000000000001), (3072, 1), (7168, 0xE000000000000000), (8192, 0x1000), (9216, 1)]
    cores := [(0, { Core.reset with ranges := [⟨0, 0, 0x8000000000000070, 0x000000FF00000000, 0x8000, 0, 0⟩] })]
    lines := { s.lines with l2 := [32, 64, 96, 225, 255, 256, 257, 258, 260, 261, 264, 272, 304, 318, 319, 320].map fun l => (l, .fresh 0 0 0 0) }
    head := { s.head with slotOwner := [(0, 0)] } }

/-- p0 true in lane 0 alone, and lane 0 of some vector registers set. -/
def lane0 (regs : List (Nat × Word)) (w : Warp) : Warp :=
  { w with
    a := { w.a with preds := [(0, 1)], regs := regs.map fun r => (32 * r.1, r.2) }
    c := { w.c with preds := [(0, 1)], regs := regs.map fun r => (32 * r.1, r.2) } }

/-- A stream of lane 0 whose stage starts at 0x100, with some registers, in the mapped context or in none. -/
def teamR (regs : List (Nat × Word)) : Team := { team (lane0 regs) with entries := [0x100, 0x200], nrv := 8, tpSize := 128 }
def sceneR (regs : List (Nat × Word)) : State := mapped (scene .a (teamR regs))
def turnR (regs : List (Nat × Word)) : Issue := turn .a (teamR regs)
theorem ready_sceneR (regs : List (Nat × Word)) : (sceneR regs).Ready (turnR regs) := ⟨rfl, rfl, rfl, rfl⟩
theorem ready_bare (regs : List (Nat × Word)) : (scene .a (teamR regs)).Ready (turnR regs) := ⟨rfl, rfl, rfl, rfl⟩

/-- An earlier access of the stream that is still translated. -/
def walkingAccess (op : AccOp) (acq : Bool) : Flight :=
  { Flight.empty 0 (turnR []) 0xFFFFFFFF with op := some op, acq := acq, walking := true }

def behind (f : Flight) (s : State) : State := { s with flights := [f] }

/-- A release waits behind an unbound access, an access behind an unbound acquire, a load for room in its queue; and
with no earlier access nothing holds one back. -/
theorem witness_AccessOrder :
    let f := walkingAccess .store false
    let a (sc : Scope) (rel : Bool) (dst : Dst) : Ask :=
      { op := .store, ty := .z32, acq := false, rel := rel, scope := sc, dst := dst, ctr := none, after := [] }
    let fullQ := turn .a (team (fun w => { w with f0 := List.replicate 8 entry }))
    let last := turn .a (team (fun w => { w with f0 := List.replicate 7 entry, slip := 0x8888 }))
    (walkingAccess .load true).ofStream (turnR []).ref (turnR []).sp.mask = true ∧
    (walkingAccess .load true).acq = true ∧ (walkingAccess .load true).bound = false ∧
    f.acq = false ∧ f.allSent = false ∧ fullQ.wp.loadWaits 0 = true ∧ last.wp.loadWaits 0 = false ∧
    ((behind f (scene .a (teamR []))).mayAccess (turnR []) (a .team true .none)).2 = some .order ∧
    ((behind f (scene .a (teamR []))).mayAccess (turnR []) (a .sys true .none)).2 = some .order ∧
    ((scene .a (teamR [])).mayAccess (turnR []) (a .sys true .none)).2 = none ∧
    ((scene .a (teamR [])).mayAccess (turnR []) (a .warp true .none)).2 = none := by
  refine ⟨rfl, rfl, rfl, rfl, rfl, rfl, rfl, rfl, rfl, rfl, rfl⟩

/-- With no active lane; held back; and free to go. -/
theorem witness_LoadsAndStores :
    (∃ s i, State.Ready s i ∧ i.active ifP0.guard = 0) ∧
    (∃ s i t w, State.Ready s i ∧ i.active ifP0.guard ≠ 0 ∧
      s.mayAccess i (loading .load .z64 .cluster (destOf (.r 1))) = (t, some w)) ∧
    (∃ s i t w, State.Ready s i ∧ i.active ifP0.guard ≠ 0 ∧
      s.mayAccess i (loading .load .z32 .none (destOf (.f 0))) = (t, some w)) ∧
    ∃ s i t, State.Ready s i ∧ i.active ifP0.guard ≠ 0 ∧ s.mayAccess i (storing .z32 .sys) = (t, none) :=
  ⟨⟨scene .a (team id), turn .a (team id), ⟨rfl, rfl, rfl, rfl⟩, rfl⟩,
    ⟨behind (walkingAccess .load true) (scene .a (teamR [])), turnR [], _, _, ⟨rfl, rfl, rfl, rfl⟩, by decide, rfl⟩,
    ⟨scene .a (team fun w => { p0True w with f0 := List.replicate 8 entry }),
      turn .a (team fun w => { p0True w with f0 := List.replicate 8 entry }), _, _, ⟨rfl, rfl, rfl, rfl⟩, by decide, rfl⟩,
    ⟨scene .a (teamR []), turnR [], _, ⟨rfl, rfl, rfl, rfl⟩, by decide, rfl⟩⟩

/-- A queue store whose entries are there, not there, and poisoned; and one with no active lane. -/
theorem witness_AtomicsAndQueueStores :
    let at_ (e : QEntry) : State × Issue := (scene .c (team (queued e)), turn .c (team (queued e)))
    let bad := { entry with poisonFault := 8, record := some ⟨1, 3, 64, 8, 16⟩ }
    let a := storing .z32 .none
    ((at_ entry).1.Ready (at_ entry).2 ∧ (at_ entry).2.sp.mask ≠ 0 ∧ (at_ entry).2.active ifP0.guard ≠ 0 ∧
      (at_ entry).1.mayAccess (at_ entry).2 a = ((at_ entry).1, none) ∧
      ∃ u rd, (at_ entry).1.Reads (at_ entry).2 (at_ entry).2.sp.mask [.sa, .f 0] u 0 rd) ∧
    ((at_ bad).1.Ready (at_ bad).2 ∧ (at_ bad).2.wp.pops 0xFFFFFFFF (queuesOf [.sa, .f 0]) = .fault ⟨1, 3, 64, 8, 16⟩) ∧
    ∃ s i, State.Ready s i ∧ i.sp.mask ≠ 0 ∧ i.active ifP0.guard = 0 ∧
      i.wp.pops i.sp.mask (queuesOf [.sa, .f 0]) = .wait 4 :=
  ⟨⟨⟨rfl, rfl, rfl, rfl⟩, by decide, by decide, rfl, _, _, .pops _ _ _ (by decide) rfl⟩,
    ⟨⟨rfl, rfl, rfl, rfl⟩, by decide⟩, ⟨scene .c (team id), turn .c (team id), ⟨rfl, rfl, rfl, rfl⟩, by decide, rfl, rfl⟩⟩

/-- A counter below its threshold and at it; a fence held back and let go. -/
theorem witness_CountersAndFences :
    Met .a [.r 1] (.r 2) ∧ ((0 : BitVec 32) - 1).toInt < 0 ∧ ¬((1 : BitVec 32) - 1).toInt < 0 ∧
    (∃ t w, (behind (walkingAccess .store false) (scene .a (teamR []))).mayAccess (turnR [])
      { storing .z8 .sys with rel := true } = (t, some w)) ∧
    ∃ t, (scene .a (teamR [])).mayAccess (turnR []) { storing .z8 .warp with rel := true } = (t, none) :=
  ⟨met_registers _ _ _ rfl rfl, by decide, by decide, ⟨_, _, rfl⟩, ⟨_, rfl⟩⟩

/-- A word of the tidepool is watched from its last word on; past it the location faults; an address of a range that the
buffer lacks awaits a walk. A value is read, or waits behind a store of the stream. The deadline lies ahead, or is now; and
a split that waits has been woken. -/
theorem witness_WaitAddr :
    let regs : List (Nat × Word) := [(1, 0x800000000000007C), (3, 5), (4, 0x800000000000007D)]
    let s := scene .a (teamR regs)
    let i := turnR regs
    let waits (w : Bool) : Team := { teamR regs with warps := [(0, { lane0 regs (placedWarp .a 0) with
      a := { (lane0 regs (placedWarp .a 0)).a with splits := [{ placedSplit 0 with wait := .addr .pkg 5 [] true w }] } })] }
    s.Ready i ∧ (5#3).toNat < 6 ∧ i.active ifP0.guard ≠ 0 ∧ s.afterAcquires i = true ∧ tget s.time.hb 0 0 < 5 ∧
    (behind (walkingAccess .load true) s).afterAcquires i = false ∧ lowLane (i.active ifP0.guard) = some 0 ∧
    regA (.r 3) i 0 = 5 ∧ i.sp.wait = .none ∧
    (∃ u, s.watches i (.r 1) 4 (i.active ifP0.guard) = (u, [(0, .tide 0 0x7C)])) ∧
    (∃ u, s.watches i (.r 4) 4 (i.active ifP0.guard) = (u, [(0, .fault (1, 0x06))])) ∧
    (∃ u, s.watches i (.r 5) 4 (i.active ifP0.guard) = (u, [(0, .walk)])) ∧
    (∃ u, s.peeks i .pkg 4 [(0, .tide 0 0x7C)] = (u, [(0, .val 0)]) ∧ tget u.time.hb 0 0 < 5) ∧
    (∃ u, (behind (walkingAccess .store false) s).peeks i .pkg 4 [(0, .tide 0 0x7C)] = (u, [(0, .wait)])) ∧
    meets .z32 0 (0#32) ((regA (.r 2) i 0).setWidth 32) = true ∧ meets .z32 1 (0#32) ((regA (.r 2) i 0).setWidth 32) = false ∧
    (scene .a (waits true)).Ready (turn .a (waits true)) ∧ (turn .a (waits true)).sp.wait = .addr .pkg 5 [] true true ∧
    (scene .a (waits false)).Ready (turn .a (waits false)) ∧ (turn .a (waits false)).sp.wait = .addr .pkg 5 [] true false := by
  refine ⟨⟨rfl, rfl, rfl, rfl⟩, by decide, by decide, rfl, by decide, rfl, rfl, rfl, rfl, ⟨_, rfl⟩, ⟨_, rfl⟩, ⟨_, rfl⟩,
    ⟨_, rfl, by decide⟩, ⟨_, rfl⟩, rfl, rfl, ⟨rfl, rfl, rfl, rfl⟩, rfl, ⟨rfl, rfl, rfl, rfl⟩, rfl⟩

def noCmd : Command := commandOf State.reset (turnR []) 0 .cp [] 0 0 0 none .none 0 0

/-- Points at the last index and past it; a command without verdict; counts met, not met, and past EB. -/
theorem witness_Rendezvous :
    let i := turnR []
    let s := scene .a (teamR [])
    let r : Rv := { Rv.reset with init := true, ea := 1, eb := 8 }
    s.Ready i ∧ i.active ifP0.guard ≠ 0 ∧ ((7#5).toNat < i.tm.nrv ∧ s.behindGuard i.ref = false) ∧ i.tm.nrv ≤ (8#5).toNat ∧
    ({ s with engines := { s.engines with cmds := [{ noCmd with verdict := none }] } } : State).behindGuard i.ref = true ∧
    Met .a [.r 1, .r 2] (.r 3) ∧
    (let m := { r with arr0 := 1, by0 := 8 }
     m.init = true ∧ m.arr0 = m.ea ∧ m.by0 = m.eb ∧ m.fall = 0 ∧ m.arr1 ≠ m.ea) ∧
    (r.init = true ∧ r.eb < r.by0 + 9 ∧ r.by0 + 7 < r.eb) ∧ ({ r with in0 := [0], in1 := [0] } : Rv).in0.contains 0 = true ∧
    (let q := { r with ea := 3 }
     q.in0.contains 0 = false ∧ q.ea ≠ q.arr0 + 1 ∧ tget q.lanes0 0 0 ||| i.sp.mask ≠ 0 ∧
      within_ i.wp.awaited (tget q.lanes0 0 0 ||| i.sp.mask) = true ∧ tget q.lanes1 0 0 = 0) := by
  refine ⟨⟨rfl, rfl, rfl, rfl⟩, by decide, ⟨by decide, rfl⟩, by decide, rfl, met_registers _ _ _ rfl rfl, by decide, by decide,
    rfl, by decide⟩

/-- Slots with no command of an ended slice, with three and four resolutions; a target that is the host, a running
context, and neither. -/
theorem witness_SlotsAndSignals :
    let i := turnR []
    let s := sceneR []
    let g (n : Nat) : Issue := turn .c (team fun w => { p0True w with slots := [(15, ⟨[], List.replicate n true⟩)] })
    let done : Issue := turn .c (team fun w => { p0True w with a := { w.a with ended := true } })
    s.Ready i ∧ lowLane (i.active ifP0.guard) = some 0 ∧ (done.wp.a.ended = true ∧ (done.wp.slot 15).cmds = []) ∧
    ((g 4).wp.a.ended = false ∧ 4 ≤ ((g 4).wp.slot 15).res.length) ∧ ((g 3).wp.slot 15).res.length < 4 ∧
    (scene .c (g 3).tm).Ready (g 3) ∧ (s.ctxExists 0 = true ∧ s.ctxRun 0 = true ∧ s.ctxFn 0 = s.ctxFn i.tm.ctx) ∧
    s.ctxExists 63 = false ∧ (∃ t, s.mayAccess i (storing .z8 .sys) = (t, none)) ∧
    ∃ t w, (behind (walkingAccess .store false) s).mayAccess i (storing .z8 .sys) = (t, some w) :=
  ⟨ready_sceneR [], rfl, ⟨rfl, rfl⟩, ⟨rfl, by decide⟩, by decide, ⟨rfl, rfl, rfl, rfl⟩, ⟨rfl, rfl, rfl⟩, rfl, ⟨_, rfl⟩,
    ⟨_, _, rfl⟩⟩

/-- Records that a command can take and cannot; queues with 15 and 16 commands. -/
theorem witness_AccumulatorWords :
    let i := turnR []
    let s := sceneR []
    let words (bs : List Byte) := (List.range 4).map fun j => leWord ((bs.drop (8 * j)).take 8)
    let q (n : Nat) : State := { s with engines := { s.engines with cmds := List.replicate n noCmd } }
    s.Ready i ∧ lowLane (i.active ifP0.guard) = some 0 ∧ lowLane ((turn .a (team id)).active ifP0.guard) = none ∧
    (∃ t bs, s.code ⟨i.tm.core, i.tm.ctx, i.ref, false⟩ (i.tm.shapeAddr i.wp.stage 0) 32 6 = (t, .ok bs) ∧
      shapeOk .fin (words bs) = true) ∧
    (∃ t bs, s.code ⟨i.tm.core, i.tm.ctx, i.ref, false⟩ (i.tm.shapeAddr i.wp.stage 2) 32 6 = (t, .ok bs) ∧
      shapeOk .fin (words bs) = false) ∧
    16 ≤ ((q 16).queueOf 0 0 false).length ∧ ((q 15).queueOf 0 0 false).length < 16 := by
  refine ⟨ready_sceneR [], rfl, rfl, ⟨_, _, rfl, by decide⟩, ⟨_, _, rfl, by decide⟩, by decide, by decide⟩

/-- A point that is not there; full queues and slots; a point whose next phase the warp has credited; and a slot with
a resolution, or with none, of a running or an ended C-slice. Records for the other uses. -/
theorem witness_Commands :
    let i := turnR []
    let s := sceneR []
    let words (bs : List Byte) := (List.range 4).map fun j => leWord ((bs.drop (8 * j)).take 8)
    let q (n : Nat) : State := { s with engines := { s.engines with cmds := List.replicate n noCmd } }
    let slot (cmds : List Nat) (res : List Bool) (e : Bool) : Warp :=
      { lane0 [] (placedWarp .a 0) with
        slots := [(5, ⟨cmds, res⟩)], c := { (placedWarp .a 0).c with ended := e } }
    ¬(8 < i.tm.nrv) ∧ 7 < i.tm.nrv ∧ ¬((q 16).queueOf 0 0 false).length < 16 ∧ ((q 15).queueOf 0 0 false).length < 16 ∧
    ¬((slot [0, 1, 2, 3] [] false).slot 5).cmds.length < 4 ∧ ((slot [0, 1, 2] [] false).slot 5).cmds.length < 4 ∧
    ({ Rv.reset with in0 := [0], in1 := [0] } : Rv).creditPhase 0 = none ∧ (Rv.reset.creditPhase 0).isSome = true ∧
    ((slot [] [true] false).slot 5).res = [true] ∧ ((slot [] [] false).slot 5).res = [] ∧ (slot [] [] true).c.ended = true ∧
    (∃ t bs, s.code ⟨i.tm.core, i.tm.ctx, i.ref, false⟩ (i.tm.shapeAddr i.wp.stage 1) 32 6 = (t, .ok bs) ∧
      shapeOk .copy (words bs) = true ∧ shapeOk .lin (words bs) = true ∧ shapeOk .mma (words bs) = false) ∧
    shapeOk .mma [0x3000000000000010, 0x1000000020, 0, 0] = true ∧ shapeOk .twin [0x3000000000000020, 0x1000000020, 0, 0] = true := by
  refine ⟨by decide, by decide, by decide, by decide, by decide, by decide, rfl, rfl, rfl, rfl, rfl,
    ⟨_, _, rfl, by decide, by decide, by decide⟩, by decide, by decide⟩

/-- Spans of no length, mapped, with a range that the buffer lacks, and in no window. -/
theorem witness_MaintenanceWords :
    let regs : List (Nat × Word) := [(1, 0x7FFF), (2, 1)]
    let i := turnR regs
    (sceneR regs).Ready i ∧ lowLane (i.active ifP0.guard) = some 0 ∧
    (i.sl.read i.ref.slice 0 64 (.r 2)).toNat ≠ 0 ∧ (i.sl.read i.ref.slice 0 64 (.r 3)).toNat = 0 ∧
    (∃ t ps, (sceneR regs).wordSpan i .none_ 0 (regA (.r 1) i 0) 1 1 [] = (t, .ok ps)) ∧
    (∃ t, (sceneR regs).wordSpan i .none_ 0 (regA (.r 1) i 0) 2 2 [] = (t, .walk)) ∧
    (∃ t f v, (sceneR regs).wordSpan i .none_ 0 0x0100000000000000 2 2 [] = (t, .fault f v)) ∧
    (∃ t ps, (sceneR regs).wordSpan i .wrAny 0 (regA (.r 1) i 0) 1 1 [] = (t, .ok ps)) ∧
    lowLane ((turn .a (team id)).active ifP0.guard) = none := by
  refine ⟨ready_sceneR _, rfl, by decide, rfl, ⟨_, _, rfl⟩, ⟨_, rfl⟩, ⟨_, _, _, rfl⟩, ⟨_, _, rfl⟩, rfl⟩

/-- A context that is privileged and one that is not; a target context that is there and one that is not; walks that
`rng.sync` waits for; and `fence.hb` before, at and after its tick. -/
theorem witness_PrivilegedWords :
    let regs : List (Nat × Word) := [(1, 0), (2, 0x0400000000000000)]
    let i := turnR regs
    let s := sceneR regs
    let hb (n : Nat) : State := { s with time := { s.time with hb := [(0, n)] } }
    let syncs : Issue := { i with sl := { i.sl with invs := [.access 0] } }
    (s.Ready i ∧ s.ctxPriv i.tm.ctx = true) ∧ ((scene .a (teamR [])).Ready (turnR []) ∧ (scene .a (teamR [])).ctxPriv 0 = false) ∧
    lowLane (i.active ifP0.guard) = some 0 ∧ s.ctxExists ((regA (.r 1) i 0).extractLsb' 58 6).toNat = true ∧
    s.ctxExists ((regA (.r 2) i 0).extractLsb' 58 6).toNat = false ∧
    (let t := (behind (walkingAccess .load false) s).flushUsers syncs.sl.invs
     t.flights = [walkingAccess .load false] ∧ .access (walkingAccess .load false).id ∈ syncs.sl.invs ∧
       (walkingAccess .load false).bound = false) ∧
    ((s.flushUsers []).flights = [] ∧ (s.flushUsers []).engines.emissions = [] ∧ (s.flushUsers []).engines.buffers = []) ∧
    (∃ t, s.mayAccess i { storing .z64 .none with op := .zline } = (t, none)) ∧
    (∃ t w, (behind (walkingAccess .load true) s).mayAccess i { storing .z64 .none with op := .zline } = (t, some w)) ∧ (∃ t, s.mayAccess i (storing .z8 .sys) = (t, none)) ∧
    (∃ t w, (behind (walkingAccess .store false) s).mayAccess i (storing .z8 .sys) = (t, some w)) ∧ i.sp.wait = .none ∧
    3 < tget (hb 4).time.hb (i.tm.core / 16) 0 ∧ tget (hb 3).time.hb (i.tm.core / 16) 0 ≤ 3 ∧
    (turn .a (team id)).active ifP0.guard = 0 :=
  ⟨⟨ready_sceneR _, rfl⟩, ⟨ready_bare _, rfl⟩, rfl, rfl, rfl, ⟨rfl, by decide, rfl⟩, ⟨rfl, rfl, rfl⟩, ⟨_, rfl⟩, ⟨_, _, rfl⟩, ⟨_, rfl⟩,
    ⟨_, _, rfl⟩, rfl, by decide, by decide, rfl⟩

/-- A slide down by 4 bytes passes its checks; one onto itself does not; a record of 256 bytes ends at the range's end. -/
theorem witness_SlidesAndPosts :
    let regs : List (Nat × Word) := [(1, 0), (2, 0x7FFC), (3, 0x400), (4, 0x7F00)]
    let i := turnR regs
    let s := sceneR regs
    s.Ready i ∧ s.ctxPriv i.tm.ctx = true ∧ lowLane (i.active ifP0.guard) = some 0 ∧ (regA (.r 3) i 0).toNat < 2 ^ 63 ∧
    s.afterAcquires i = true ∧ (behind (walkingAccess .load true) s).afterAcquires i = false ∧
    (∃ t ps, s.wordSpan i .wr 0 (regA (.r 3) i 0) 8 8 [] = (t, .ok ps) ∧
      (t.forget i.tm.core (.word i.ref)).slideCheck (i.tm.core / 16) (regA (.r 1) i 0) (regA (.r 2) i 0) = 0 ∧
      (t.forget i.tm.core (.word i.ref)).slideCheck (i.tm.core / 16) (regA (.r 1) i 0) 0x8000 ≠ 0 ∧
      (t.forget i.tm.core (.word i.ref)).slideSlot (i.tm.core / 16) = some 0) ∧
    (∃ t ps, s.wordSpan i .rw 0 (regA (.r 4) i 0) 256 256 [] = (t, .ok ps) ∧ (ps.any fun q => q.tide.isSome) = false) ∧
    (∃ t, s.wordSpan i .rw 0 (regA (.r 4) i 0 + 1) 256 256 [] = (t, .walk)) := by
  refine ⟨ready_sceneR _, rfl, rfl, by decide, rfl, rfl, ⟨_, _, rfl, by decide, by decide, rfl⟩, ⟨_, _, rfl, rfl⟩, ⟨_, rfl⟩⟩

/-- A signalling NaN with and without the trap for NV enabled. -/
theorem witness_PairsAndIllegalWords :
    let on (f : BitVec 32) : Team := { team (lane0 [(2, 0x7F800001)]) with warps := [(0,
      { lane0 [(2, 0x7F800001)] (placedWarp .a 0) with
        c := { (lane0 [(2, 0x7F800001)] (placedWarp .a 0)).c with splits := [{ placedSplit 0 with fmt := f, mask := 3 }] } })] }
    let i (f : BitVec 32) := turn .c (on f)
    let x : Half := ⟨.fadd, 1, 2, .reg (.r 3)⟩
    let rs (i : Issue) := (lanesOf i.sp.mask).map fun l => (l, (0 : Word), (halfIn i x l).2)
    (scene .c (on 0x1000)).Ready (i 0x1000) ∧ trapOf (i 0x1000).sp.fmt (rs (i 0x1000)) = some (0x40, 1) ∧
    (scene .c (on 0)).Ready (i 0) ∧ trapOf (i 0).sp.fmt (rs (i 0)) = none := by
  refine ⟨⟨rfl, rfl, rfl, rfl⟩, by decide, ⟨rfl, rfl, rfl, rfl⟩, by decide⟩

/-! Events -/

/-- A computed result; a loaded one bound, with a register, a counter and a queue. -/
theorem witness_ResultsArrive :
    let s := scene .a (teamR [])
    let out : Flight := { Flight.empty 0 (turnR []) 0xFFFFFFFF with dst := .reg (.r 3), writes := [.vec 3 0 7] }
    let piece : Piece := ⟨0, 0, 0, 4, none, 0, 0, none, .done, [1, 2, 3, 4], false⟩
    let ld (d : Dst) : Flight := { Flight.empty 0 (turnR []) 0xFFFFFFFF with
      op := some .load, ty := .i32, dst := d, lanes := [(0, 0, [], [])], pieces := [piece] }
    ((behind out s).flight? 0 = some out ∧ out.op = none ∧ out.writes ≠ []) ∧
    ((behind (ld (.counter (.r 3) 15)) s).flight? 0 = some (ld (.counter (.r 3) 15)) ∧ (ld (.reg (.r 3))).bound = true ∧
      ((behind (ld (.reg (.r 3))) s).flightWarp (ld (.reg (.r 3)))).isSome = true ∧ (ld (.reg (.r 3))).ty ≠ .z128 ∧
      (ld (.reg (.r 3))).faulted = false) ∧
    (behind (ld (.queue 3 0)) s).flight? 0 = some (ld (.queue 3 0)) ∧ (ld (.queue 3 0)).bound = true :=
  ⟨⟨rfl, rfl, by decide⟩, ⟨rfl, rfl, rfl, by decide, rfl⟩, rfl, rfl⟩

/-- A walk of core 0 that waits, for a mapped address and for the first past the range; and a word that may be fetched
in a mapped context and in none; and code in no window. -/
theorem witness_WalksAndFetch :
    let w (va : Word) (st : Bool) : PendWalk := ⟨0, va, 0, st, []⟩
    let s (va : Word) (st : Bool) : State := { sceneR [] with cores := [(0, { Core.reset with walks := [w va st] })] }
    let i : Issue := { turnR [] with sp := { placedSplit 0 with pc := 0x100, fetched := [] } }
    let q : Reader := ⟨0, 0, i.ref, true⟩
    (63 < 64 ∧ (s 0 false).walking 63 < 32 ∧ tget (s 0 false).engines.walkLast 0 15 = 15 ∧
      ((s 0 false).core 0).walks.find? (fun v => !v.started) = some (w 0 false)) ∧
    ((s 0x7FFF true).core 0).walks.find? (fun v => v.started && v.ctx == 0 && v.region == 0) = some (w 0x7FFF true) ∧
    (∃ t, (s 0x7FFF true).walkLines 0 0 0x7FFF = (t, true) ∧ t.walk 0 0x7FFF = some 0) ∧
    (∃ t, (s 0x8000 true).walkLines 0 0 0x8000 = (t, true) ∧ t.walk 0 0x8000 = none) ∧
    i.sp.mayFetch 0x100 = true ∧ (∃ t bs, (sceneR []).code q 0x100 8 4 = (t, .ok bs)) ∧
    (∃ t f v, (sceneR []).code q 0x0100000000000000 8 4 = (t, .fault f v)) ∧
    (∃ t, (scene .a (teamR [])).code q 0x100 8 4 = (t, .wait)) ∧
    (∃ t, (sceneR [] |>.setPoison 258 1).code q 0x100 8 4 = (t, .poison)) :=
  ⟨⟨by decide, by decide, rfl, rfl⟩, rfl, ⟨_, rfl, rfl⟩, ⟨_, rfl, rfl⟩, by decide, ⟨_, _, rfl⟩, ⟨_, _, _, rfl⟩, ⟨_, rfl⟩,
    ⟨_, rfl⟩⟩

/-- A request of flight 0 of core 0 to the first line of the range, and messages from core 0 to its home and back. -/
def req0 : Req := ⟨some 0, 0, 0, 0, 0, false, 0, 0, 0, 0, 0⟩
def toHome (b : Body) : Msg := ⟨7, .core 0, .home 0, 256, b⟩
def toCore (b : Body) : Msg := ⟨7, .home 0, .core 0, 256, b⟩
def withMsg (x : Msg) (s : State) : State := { s with net := { s.net with msgs := [x] } }
def line0 : L2Line := ⟨0, false, 0, false, 0, DirEntry.reset, true, true, false, false⟩
def withLine (l : L2Line) (s : State) : State := { s with lines := { s.lines with l2 := [(256, l)] } }

/-- Whatever its body, the one message of a network is the oldest of its pair. -/
theorem deliverable_one (x : Msg) (s : State) (h : x.id = 7) : (withMsg x s).deliverable 7 = some x := by
  simp [State.deliverable, withMsg, h]

/-- Requests of each kind; a forward queue with 63 and 64 requests; a line that is blocked, ready, and ready with a
gathering directory; a slide with the block in passage and not. -/
theorem witness_RequestsAtHomes :
    let rd := toHome (.read req0 true false [true, false])
    let s := sceneR []
    let q (n : Nat) : State := { s with net := { s.net with forwards := List.replicate n rd } }
    let slide (r : Table (List Byte × BitVec 2)) : Slot := { Slot.reset with
      state := 3, steering := true, old := 0x8000, new_ := 0x7FFC, n := 256, read := r }
    let e (x : Slot) : State := { s with ebb := { s.ebb with slots := [(0, x)] } }
    (withMsg rd s).deliverable 7 = some rd ∧ rd.body.req? = some req0 ∧ rd.wholeDiscard = false ∧ s.stale rd = false ∧
    ((e (slide [])).steers (slide []) req0.off = true ∧ 256 * 128 + req0.lo = (slide []).old + req0.off) ∧
    ((q 63).net.forwards.filter fun y => s.homeOf (y.line * 128) == s.homeOf (256 * 128)).length < 64 ∧
    64 ≤ ((q 64).net.forwards.filter fun y => s.homeOf (y.line * 128) == s.homeOf (256 * 128)).length ∧
    s.slideOf 0 0 = none ∧ ({ req0 with moving := true } : Req).moving = true ∧
    ((e (slide [(0, [], 0)])).slideOf 0 0 = some (slide [(0, [], 0)]) ∧ (slide [(0, [], 0)]).passing (req0.off / 128) = true) ∧
    ((slide []).passing (req0.off / 128) = false ∧ (slide []).addr req0.off = 256 * 128 + req0.lo ∧
      ({ slide [] with tide := 1 } : Slot).addr req0.off ≠ 256 * 128 + req0.lo) ∧
    (withLine line0 s).l2? 256 = some line0 ∧ line0.blocked = false ∧ line0.key = req0.key ∧
    (withLine line0 s).missing 256 rd.body.halves = [] ∧ line0.dir.mode ≠ 2 ∧ rd.body.isNear = false ∧
    (withLine line0 s).hostHeld 256 rd.body.halves rd.body.writes = [] ∧
    (withLine { line0 with blocked := true } s).l2? 256 = some { line0 with blocked := true } := by
  refine ⟨rfl, rfl, rfl, rfl, ⟨by decide, rfl⟩, by decide, by decide, rfl, rfl, ⟨rfl, rfl⟩, ⟨rfl, rfl, by decide⟩, rfl, rfl, rfl,
    rfl, by decide, rfl, rfl, rfl⟩

/-- A reduction that its home has begun, at a line that is free, and at one with a transaction open; and one that has
made all its writes. -/
theorem witness_RequestsAtHomes_parts :
    let red := toHome (.reduce req0 0 .z32 [(0, [1, 0, 0, 0])])
    let p (n : Nat) : Part := ⟨{ red with body := .reduce req0 0 .z32 (List.replicate n (0, [1, 0])) }, [], false, true⟩
    let s (n : Nat) (b : Bool) : State := { withLine { line0 with blocked := b } (sceneR []) with
      net := { (sceneR []).net with parts := [p n], msgs := [red] } }
    (s 2 false).net.parts.find? (fun q => q.m.id == 7 && !q.rest.isEmpty) = some (p 2) ∧ (s 2 false).busy (p 2).m.line = false ∧
    (s 2 true).busy (p 2).m.line = true ∧ (∀ q ∈ (s 0 false).net.parts, q.m.id = 7 → q.rest = []) ∧
    (s 0 false).deliverable 7 = some red ∧ (∃ t, (withLine line0 (sceneR [])).calm 256 = (t, true)) :=
  ⟨rfl, rfl, rfl, by decide, rfl, _, rfl⟩

/-- A store to the last byte of a line under the slot that keys it, with no pointer and with one of another core. -/
theorem witness_StoresAtHome :
    let x := toHome (.store req0 [(127, 5)] false false)
    let s := withLine { line0 with dir := { DirEntry.reset with mode := 1, ptrs := [1] } } (sceneR [])
    x.body = .store req0 [(127, 5)] false false ∧ tget? s.lines.keyed x.line = none ∧ Memory.wf s.mem = true ∧
    ([(127, 5)] : List (Nat × Byte)).Pairwise (fun b c => b.1 ≠ c.1) ∧
    ((s.dir x.line).mode = 1 ∧ (s.dir x.line).holders.filter (· != x.src.core?) ≠ [] ∧ (s.dir x.line).coarse = false) ∧
    ((sceneR []).dir x.line).mode ≠ 1 := by
  refine ⟨rfl, rfl, rfl, by decide, by decide, by decide⟩

/-- Messages to a core, each with the field that its clause asks of its body; and an entry of the fill buffer. -/
theorem witness_AnswersAtCores :
    let none_ : Req := { req0 with flight := none }
    let e : Miss := ⟨3, 256, 0, [0], false, none, some ([], 0, [true, true], true), []⟩
    let s := { sceneR [] with cores := [(0, { Core.reset with misses := [e] })] }
    (∀ b, (withMsg (toCore b) s).deliverable 7 = some (toCore b)) ∧ req0.flight ≠ none ∧ none_.flight = none ∧
    (s.core 0).misses.find? (·.id == e.id) = some e ∧ e.fill = some ([], 0, [true, true], true) :=
  ⟨fun b => deliverable_one _ _ rfl, by decide, rfl, rfl, rfl⟩

/-- Messages to a home; a bounced request; counts of one and of two. -/
theorem witness_AnswersAtHomes :
    let x := toHome .evn
    let a (n : Nat) : Ack := ⟨5, 256, n, false, false, false, none⟩
    let s (n : Nat) : State := { sceneR [] with net := { (sceneR []).net with retries := [x], acks := [a n] } }
    (∀ b, (withMsg (toHome b) (s 1)).deliverable 7 = some (toHome b)) ∧
    (s 1).net.retries.find? (fun y => y.id == x.id) = some x ∧ (∀ y ∈ (s 1).net.msgs, y.body ≠ .retry x.id) ∧
    (s 1).net.retries.find? (fun y => y.src == x.src && y.line == x.line) = some x ∧ (s 1).retryGated x = false ∧
    (toHome (.claim req0)).body = .claim req0 ∧ (s 1).queueRoom 256 = true ∧
    ((s 2).net.acks.find? (·.id == 5) = some (a 2) ∧ 1 < (a 2).left) ∧
    ((s 1).net.acks.find? (·.id == 5) = some (a 1) ∧ (a 1).left ≤ 1) :=
  ⟨fun b => deliverable_one _ _ rfl, rfl, by decide, rfl, rfl, rfl, rfl, ⟨rfl, by decide⟩, rfl, by decide⟩

/-- A write of a row that stands at 1,023 and whose activation holds it; one of the open row; and one that waits for
a full mirror log. -/
theorem witness_MemoryControllers :
    let q : McReq := ⟨0, 256, true, 9, false⟩
    let b (o : Option Nat) : Bank := ⟨[q], 0, o, [(9, 1023)], []⟩
    let s := { sceneR [] with lines := { (sceneR []).lines with banks := [(0, b none)], fills := [256] } }
    tget? s.lines.banks (0 * 64 + 0) = some (b none) ∧ (b none).next (s.mirrorFull 0) = some q ∧
    (!q.dropped && (b none).openRow != some q.row) = true ∧ tget (b none).counts q.row 0 + 1 = 1024 ∧
    (b (some 9)).next false = some q ∧ (b none).next true = none ∧ 256 ∈ s.lines.fills :=
  ⟨rfl, by decide, rfl, rfl, by decide, by decide, by decide⟩

/-- A slide down by 4 bytes in each of its states; a block read and a block next to read; the last block moved; and
what it asks of homes answered, or still awaited. -/
theorem witness_SlideEvents :
    let base : Slot := { Slot.reset with old := 0x8000, new_ := 0x7FFC, n := 256 }
    let st (k : Nat) : Slot := { base with state := k }
    let s (x : Slot) : State := { sceneR [] with ebb := { (sceneR []).ebb with slots := [(0, x)] }, time := { (sceneR []).time with hb := [(0, 1)] } }
    let read : Slot := { st 3 with read := [(1, [], 0)], new_ := 0x7000, n := 2 }
    let last : Slot := { st 3 with read := [(63, [], 0)], tide := 63, n := 64 }
    let u (x : Slot) : State := (s x).flushUsers x.after
    let code (v : Word) := (u (st 1)).slideCode (BitVec.ofNat 64 ((st 1).ctx * 2 ^ 58 + (st 1).index)) v true
    ((s (st 1)).slot 0 = st 1 ∧ (u (st 1)).nextSlide 0 (st 1) = true ∧ (u (st 1)).inUse (st 1).after = false ∧
      code (BitVec.ofNat 64 (st 1).new_) = 0 ∧ code 0x8000 ≠ 0 ∧ ∃ t, (u (st 1)).descAsk 0 (st 1) = (t, true)) ∧
    ((st 2).tick = none ∧ (u (st 2)).commitReady (st 2) = true ∧ 0 < (u { st 2 with tick := some 0 }).hb (0 / 4)) ∧
    ((st 3).nextBlock = some 0 ∧ ∃ t, ((st 3).blockLines 0).foldl (fun (acc : State × Bool) l =>
      ((acc.1.settleFor 0 (st 3) l).1, acc.2 && (acc.1.settleFor 0 (st 3) l).2)) (s (st 3), true) = (t, true)) ∧
    (read.writable = [1] ∧ (∀ n, read.writable[n % max 1 read.writable.length]? = some 1) ∧
      tget? read.read 1 = some ([], 0) ∧ (∃ t, (s read).newReady 0 read 1 = (t, true)) ∧
      (s read).tideDue read (({ read with written := [1] } : Slot).advance 17) = false ∧ last.writable = [63] ∧
      (s last).tideDue last (({ last with written := [63] } : Slot).advance 17) = true ∧ (∃ t, (s last).newReady 0 last 63 = (t, true)) ∧
      ∃ v, (s last).agentAsk (4 + 0 / 4) 0 [(s last).descTouch last 1 1] = (v, true)) ∧
    (({ st 3 with tide := 256 } : Slot).left = 0 ∧ ∃ t, (s { st 3 with tide := 256 }).descAsk 0 { st 3 with tide := 256 } = (t, true)) ∧
    ({ st 4 with steering := true } : Slot).steering = true ∧
      (u { st 4 with steering := true }).commitReady { st 4 with steering := true } = true ∧
      0 < (s { st 4 with tick := some 0 }).hb (0 / 4) ∧ (st 3).read = [] ∧
    (∃ t, (s (st 4)).agentAsk (4 + 0 / 4) 0 ((s (st 4)).reportTouches (st 4)) = (t, true)) ∧
    (({ base with acks := [5] } : Slot).acks = [5] ∧
      ({ s base with net := { (s base).net with acks := [⟨5, 256, 1, false, false, false, none⟩] } } : State).openId 5 = true ∧
      (s base).openId 5 = false) ∧
    base.new_ < base.old ∧ ({ base with new_ := 0x8004 } : Slot).old < ({ base with new_ := 0x8004 } : Slot).new_ := by
  refine ⟨⟨rfl, by decide, by decide, by decide, by decide, _, rfl⟩, ⟨rfl, by decide, by decide⟩, ⟨by decide, _, rfl⟩,
    ⟨by decide, ?_, rfl, ⟨_, rfl⟩, by rfl, by decide, by rfl, ⟨_, rfl⟩, _, rfl⟩, ⟨rfl, _, rfl⟩, rfl, by decide, by decide, rfl, ⟨_, rfl⟩,
    ⟨rfl, rfl, rfl⟩, by decide, by decide⟩
  intro n
  show [1][n % 1]? = some 1
  rw [Nat.mod_one]; rfl

theorem witness_SlidesAdvance :
    let x : Slot := { Slot.reset with state := 3, old := 0x8000, new_ := 0x7FFC, n := 256, tide := 255, read := [(255, [], 0)] }
    x.new_ ≠ x.old ∧ x.tide ≤ x.n ∧ 255 ∈ x.writable := by decide

/-- Commands at the head of their queue: discarded, begun, moved, and answered. -/
theorem witness_CommandEvents :
    let c (k : CmdKind) (st : CmdSt) (v : Option Bool) : Command := { noCmd with kind := k, st := st, verdict := v }
    let s (x : Command) : State := { sceneR [] with engines := { (sceneR []).engines with cmds := [x] } }
    (∀ k st v, (s (c k st v)).cmd? 0 = some (c k st v) ∧ (s (c k st v)).cmdTeam (c k st v) = some (teamR [])) ∧
    (s (c .cp .queued (some true))).atHead (c .cp .queued (some true)) = true ∧
    (s (c .cp .queued (some false))).atHead (c .cp .queued (some false)) = true ∧
    (s (c .cp .queued (some true))).afterDone (c .cp .queued (some true)) = true ∧
    (s (c (.accFin true) .queued (some true))).finReady (c (.accFin true) .queued (some true)) = true ∧
    (∀ e ∈ (s (c .cp (.moved 8) (some true))).engines.emissions, e.cmd ≠ 0) ∧
    (((s (c .cp (.moved 8) (some true))).team? 0).map (fun tm => (tm.rv 7).credit 0 8)).isSome = true ∧
    (List.replicate (copyBytes [0x1400000000000001, 0, 0, 0]) (0 : Byte)).length = 8 := by
  refine ⟨fun k st v => ⟨rfl, rfl⟩, rfl, rfl, rfl, rfl, by decide, rfl, by decide⟩

/-- A copy of 8 bytes whose pieces are ready and clean, and one with a faulting destination; an open package's own range,
and a handle of another package. -/
theorem witness_CommandEvents_copies :
    let c : Command := { noCmd with src := 0x400, dst := 0x800, src2 := 0, shape := [0x1400000000000001, 0, 0, 0], verdict := some true }
    let s : State := sceneR []
    let ms := copyMoves c (s.site c (teamR []) .rd) (s.site c (teamR []) .wr)
    let far : Command := { c with src2 := 1 }
    let x := s.cmdReady c (teamR []) (ms.map Move.src) (ms.map Move.dst)
    (ms.filter fun m => !c.pieces.contains m.n) = ms ∧ ms.length = 8 ∧ (ms.map Move.n).Nodup ∧
    (∀ m ∈ ms, m.srcFault c ++ m.dstFault c = []) ∧ x.2 = true ∧ (∀ m ∈ ms, (x.1.siteByte m.src).2 = false) ∧
    (∃ m ∈ copyMoves { c with dst := 0x0100000000000000 } (s.site c (teamR []) .rd) (s.site c (teamR []) .wr),
      m.dstFault { c with dst := 0x0100000000000000 } ≠ []) ∧
    badHandle c.src2 = false ∧ (c.src2.extractLsb' 0 16).toNat = s.package ∧ (far.src2.extractLsb' 0 16).toNat ≠ s.package ∧
    (∃ t, s.tableAsk (1348 + (teamR []).core) c.id 0 c.stamp = (t, true)) ∧
    (let xs := (List.range (copyBytes c.shape)).map fun n => s.site far (teamR []) .rd (srcAddr far n)
     (∀ x ∈ xs, x.fault? = none) ∧ (s.cmdReady far (teamR []) xs []).2 = true) := by
  refine ⟨by decide, by decide, by decide, by decide, by decide, by decide, ?_, by decide, by decide, by decide, ⟨_, rfl⟩, by decide, by decide⟩
  exact ⟨_, .head _, by decide⟩

/-- An accumulator range, and a run of one tile of 16 by 16 whose FIFOs hold just its bytes. -/
def accRange (s : State) : State :=
  { mapped s with mem := [(0x1000, 0x64), (0x1007, 0x80), (0x100C, 0xFF), (0x1010, 3), (0x1011, 0x80)] }
def run0 : Command :=
  { noCmd with kind := .mma, shape := [0x3600000000000010, 0x1000000020, 0, 0], scope := .pkg, fmt := 0x05500000 }
def sceneM (c : Command) : State :=
  { accRange (scene .a (teamR [])) with
    engines := { State.reset.engines with cmds := [c] }
    cores := [(0, { Core.reset with
      ranges := [⟨0, 0, 0x8000000000000064, 0x000000FF00000000, 0x8003, 0, 0⟩]
      fifoA := List.replicate 512 (0, false), fifoB := List.replicate 512 (0, false), fifoOwner := some 0 })] }
/-- An emission for the range's first line. -/
def emission0 : Emission := ⟨5, 0, 0, 0, ⟨0, 0, 0, 0, 0, 0, false, true, false, 0, 0x8000, 0, 256, 0⟩, 0, [], 0, 0, 0, 0, 0⟩

set_option maxRecDepth 20000 in
/-- Tiles that fault, that await a walk, and that can be taken; a run that starts; one that has all its bytes and one that
lacks them; and an emission whose line is ready. -/
theorem witness_MatrixEvents :
    let s := sceneM run0
    let tw := { run0 with kind := .twin }
    let on := { run0 with st := .running }
    let t := (sceneM on).consume 0 on
    let d := { on with gotA := List.replicate 512 (0, false), gotB := List.replicate 512 (0, false) }
    let e := { s with engines := { s.engines with emissions := [emission0] } }
    s.cmd? run0.id = some run0 ∧ s.cmdTeam run0 = some (teamR []) ∧ run0.matrix = true ∧ run0.verdict = some true ∧
    (teamR []).status = .running ∧ s.afterDone run0 = true ∧ s.atHead run0 = true ∧ tw.isTwin = true ∧ run0.isTwin = false ∧
    (teamR []).twin = false ∧ ({ teamR [] with flags := 2 } : Team).twin = true ∧
    (∃ ls, s.tileSites run0 (teamR []) .accWr run0.dst run0.tileLines = .ok ls) ∧
    (∃ f a, s.tileSites run0 (teamR []) .accWr 0x8001 run0.tileLines = .fault f a) ∧
    (∃ gs, s.tileSites run0 (teamR []) .accWr 0x8000 run0.tileLines = .walk gs) ∧
    (∃ u, s.takeFifos 0 0 = some u ∧ s.arrayBusy 0 = false ∧
      ∃ d te charge, ((State.fillBucket (u.noteReady 0) 0).bumpFree).nextRun 0 = some d ∧ d.id = run0.id ∧
        d.isTwin = run0.isTwin ∧ d.te = some (te, charge)) ∧
    ((sceneM on).cmd? on.id = some on ∧ on.needA + on.needB + on.needOdd ≠ 0 ∧ t.cmd? on.id = some d ∧
      d.needA + d.needB + d.needOdd = 0 ∧ ∃ ls, t.tileSites d (teamR []) .accWr d.dst d.tileLines = .ok ls) ∧
    e.engines.emissions.find? (fun x => x.id == emission0.id) = some emission0 ∧
    e.spot emission0.xl emission0.off = .at_ 0x8000 ∧ emission0.scope ≠ 1 ∧
    (∃ u, e.askAll 2372 5 (e.stampOf 2372 5) [(0x8000 / 128, 0, 0, 0, [false, true], true)] = (u, true)) := by
  refine ⟨rfl, rfl, rfl, rfl, rfl, rfl, rfl, rfl, rfl, rfl, rfl, ⟨_, rfl⟩, ⟨_, _, rfl⟩, ⟨_, rfl⟩,
    ⟨_, rfl, rfl, _, _, _, rfl, rfl, rfl, rfl⟩, ⟨rfl, by decide, rfl, rfl, _, rfl⟩, rfl, rfl, by decide, _, rfl⟩

set_option maxRecDepth 20000 in
/-- A line that can be zeroed; a tile of one line with no contribution where one is awaited, and one that is as it should
be, whose outputs go to the tidepool. -/
theorem witness_CommandEvents_accumulators :
    let c : Command := { noCmd with kind := .accFin false, src := 0, dst := 0x8000000000000000, src2 := 0
                                    shape := [0x4080000000000010, 0x100000000, 0, 0, 0, 0], verdict := some true }
    let z : Command := { c with kind := .accZero 1, dst := 0 }
    let s := sceneM c
    let ls : List (Xlat × Nat) := match s.tileSites c (teamR []) .accRw c.src c.tileLines with
      | .ok ls => ls
      | _ => []
    let whole := wholeLines ((List.range c.tileLines).map fun k => s.accSite c (teamR []) .accRw (tileLine c.src k))
    let imgs := ls.map fun l => s.homeBytes l.1.key (l.2 / 128 * 128) 128
    let dest := (finBytes c imgs 0 fun _ => 0).map fun b => (s.site c (teamR []) .wr b.1, b.2)
    c.tileLines = 1 ∧ ls.length = 1 ∧ (∃ ls, s.tileSites c (teamR []) .accRw c.src c.tileLines = .ok ls) ∧
    (s.flushedOn c.team (ls.map fun l => l.2 / 128)).2 = true ∧ (s.cmdReady c (teamR []) whole []).2 = true ∧
    (imgs.zipIdx.findSome? fun x => lineStatus 1 x.2 x.1 false).isSome = true ∧
    (∀ x ∈ imgs.zipIdx, lineStatus (c.src2.extractLsb' 0 32).toNat x.2 x.1 ((ls[x.2]?).any fun l => s.poisonOf (l.2 / 128) != 0) = none) ∧
    fmtRM c.fmt ≠ 4 ∧ dest.length = 64 ∧ (∀ x ∈ dest, x.1.fault? = none) ∧
    (s.cmdReady c (teamR []) whole (whole ++ dest.map Prod.fst)).2 = true ∧
    z.dst.toNat % 128 = 0 ∧ (∃ x pa, s.accSite z (teamR []) .accWr z.dst = .mem x pa) ∧
    (s.cmdReady z (teamR []) [] (wholeLines [s.accSite z (teamR []) .accWr z.dst])).2 = true ∧ (s.flushedLine 256).2 = true := by
  refine ⟨by decide, by decide, ⟨_, rfl⟩, by decide, by decide, by decide, by decide, by decide, by decide, by decide, by decide,
    by decide, ⟨_, _, rfl⟩, by decide, by decide⟩

/-- A node of one team of one warp with 32 granules on each side, in the pool of context 0, which runs. -/
def record0 : List Byte :=
  ((((((List.replicate 256 (0 : Byte)).set 64 1).set 66 1).set 68 1).set 70 1).set 72 1).set 76 32 |>.set 80 32
def node0 (next retired : Nat) : PNode := ⟨0, 0x200, 0, true, 0, 0, record0, 0, false, 1, next, retired, false, none⟩
def sceneD (n : PNode) : State :=
  let s := (mapped { State.reset with sched := { State.reset.sched with nodes := [n] } }).setCtxState 0 2
  { s with mem := s.mem ++ [(0x8240, 1), (0x8242, 1), (0x8244, 1), (0x8246, 1), (0x8248, 1), (0x824C, 32), (0x8250, 32)] }

set_option maxRecDepth 8000 in
/-- A team that a core has room for; a node that is complete; a pool that has waited 819 and 820 ticks; a held core. -/
theorem witness_DispatchEvents :
    let s := sceneD (node0 0 0)
    let ok := s.granted (s.ctxFn 0)
    let at_ (n : Nat) (s : State) : State := { s with time := { s.time with hb := [(0, n)] } }
    let held : State := { s with cores := [(0, { Core.reset with heldFor := some (0, 5) })] }
    s.dispatchable 0 = true ∧
    ((s.eligible 0 0).find? (fun p => (s.seatNode ok 0 p).isSome) = some (node0 0 0) ∧
      ∃ t, s.seatNode ok 0 (node0 0 0) = some t ∧ s.uncleared t = [] ∧
      let x := s.agentAsk 3396 (nodeSerial 0 0x200 2) ((node0 0 0).touches s)
      x.2 = true ∧ (x.1.seatNode ok 0 ((node0 0 0).now x.1)).isSome = true) ∧
    (let r := (mapped State.reset).setCtxState 0 1
     r.dispatchable 0 = true ∧ r.rootAwaited 0 = true ∧ s.rootAwaited 0 = false) ∧
    s.fits (recFit 0 0x200 record0) 1023 = true ∧
    (∃ n, n = node0 1 1 ∧ (sceneD n).sched.nodes.find? (fun m => m.ctx == n.ctx && m.va == n.va) = some n ∧ n.ready = true ∧
      n.ending = none ∧ n.retired = n.total ∧ n.total ≤ n.nextTeam ∧
      ∃ t, (sceneD n).agentAsk 3396 (nodeSerial 0 0x200 0)
        [.ctx n.ctx (n.va + 97) 1 true, .ctx n.ctx (n.va + 98) 1 true] = (t, true)) ∧
    (∃ n, n = { node0 1 1 with ending := some [] } ∧ n.ending = some [] ∧
      (sceneD n).sched.nodes.find? (fun m => m.ctx == n.ctx && m.va == n.va) = some n ∧
      ∃ t, (sceneD n).agentAsk 3396 (nodeSerial 0 0x200 0) ((sceneD n).completeTouches (n.now (sceneD n))) = (t, true)) ∧
    (node0 0 0).nextTeam < (node0 0 0).total ∧
    ((s.pool 0).head? = some (node0 0 0) ∧ (node0 0 0).tick + 820 ≤ (at_ 820 s).now ∧ ¬(node0 0 0).tick + 820 ≤ (at_ 819 s).now) ∧
    ((held.core 0).heldFor = some (0, 5) ∧ 5 + 820 ≤ tget (at_ 825 held).time.hb (0 / 16) 0) ∧
    (820 ≤ ({ s with sched := { s.sched with samples := 820 } } : State).sched.samples) ∧ (1023 < 1024 ∧ 3 < 4) ∧
    (∃ r, ((scene .a (team id)).streamsOn 0 0 .a).find? (scene .a (team id)).couldIssue = some r) ∧
    tget? ((scene .a (team id)).core 0).favour (favourKey 0 .a) = none ∧
    tget? (({ scene .a (team id) with cores := [(0, { Core.reset with favour := [(favourKey 0 .a, ⟨0, 0, .a, 0⟩)] })] } : State).core
      0).favour (favourKey 0 .a) = some ⟨0, 0, .a, 0⟩ := by
  refine ⟨rfl, ⟨by decide, _, rfl, by decide, rfl, rfl⟩, ⟨rfl, rfl, rfl⟩, by decide,
    ⟨_, rfl, rfl, rfl, rfl, by decide, by decide, _, rfl⟩, ⟨_, rfl, rfl, rfl, _, rfl⟩, by decide,
    ⟨rfl, by decide, by decide⟩, ⟨rfl, by decide⟩, by decide, by decide, ⟨_, rfl⟩, rfl, rfl⟩

/-- A port is up, and the context stands in some state of R215. -/
def sceneC (st : Nat) (run : Bool) : State :=
  let s : State := { sceneR [] with host := { (sceneR []).host with ports := [(0, true)] } }
  (s.setReg (.ctxctl 0) (if run then 0xE000000000000000 else 0xC000000000000000)).setCtxState 0 st

def preempt0 : Preempt := { ctx := 0, ben := none, want := 1, cores := [0], teams := [], nospace := false, full := false }

theorem witness_ContextEvents :
    let on : Word := 0xE000000000000000
    let off : Word := 0xC000000000000000
    let wrote (s : State) (v : Word) : State := s.setReg (.ctxctl 0) (ctxctlAfter (s.reg (.ctxctl 0)) v)
    let go : Word := 0x8000000000000001
    let saving : Team := { teamR [] with status := .saving, warps := [(0, { placedWarp .a 0 with retired := true })] }
    let sv : State := (mapped (scene .a saving)).setReg (.ctxsave 0) 0x30008
    (sceneC 0 true).pfOpen = true ∧ 0 < 64 ∧ on.getLsbD 61 = true ∧ off.getLsbD 61 = false ∧
    ((sceneC 0 true).ctxRun 0 = true ∧ (sceneC 0 false).ctxRun 0 = false ∧ (wrote (sceneC 0 false) on).ctxExists 0 = true) ∧
    (wrote (sceneC 0 false) on).ctxState 0 = 0 ∧ (wrote (sceneC 4 false) on).ctxState 0 = 4 ∧
    (wrote (sceneC 2 true) off).ctxState 0 = 2 ∧ (wrote (sceneC 5 true) off).ctxState 0 = 5 ∧
    ((sceneC 0 false).ctxExists 0 = true ∧ (wrote (sceneC 0 false) 0).ctxExists 0 = false) ∧
    ((sceneC 2 true).reg .preempt).getLsbD 63 = false ∧ go.getLsbD 63 = true ∧
    (((sceneC 2 true).setReg .preempt (go &&& 0xFFFC0000000007FF#64)).ctxState 0 = 2 ∧ (go.extractLsb' 0 11).toNat ≠ 0) ∧
    (∃ s : State, s.sched.preempt = some preempt0 ∧ s.leaving preempt0 = []) ∧
    (sv.team? 0 = some saving ∧ sv.blocksOk 0 saving.imageBlocks [0, 1, 2, 3, 4, 6] = true ∧
      (sv.flushTeam 0).gathering 0 = false ∧ (sv.flushTeam 0).settled 0 saving = true ∧
      ∃ u, (sv.flushTeam 0).agentAsk 3396 (4 * 0 + 3) ((sv.flushTeam 0).imageTouches 0 [0, 1, 2, 3, 4, 6]) = (u, true)) :=
  ⟨rfl, by decide, rfl, rfl, ⟨rfl, rfl, rfl⟩, rfl, rfl, rfl, rfl, ⟨rfl, rfl⟩, rfl, rfl, ⟨rfl, by decide⟩,
    ⟨{ State.reset with sched := { State.reset.sched with preempt := some preempt0 } }, rfl, rfl⟩,
    rfl, by decide, rfl, rfl, _, rfl⟩

/-- A trap of a running team; a stalemate of a pop whose producer has ended; save areas with room and without. -/
theorem witness_TrapEvents :
    let stuck : Warp := { placedWarp .a 0 with
      a := { placedSlice [] with ended := true }, c := placedSlice [{ placedSplit 0 with wait := .pop 0 0xFFFFFFFF }] }
    let tm : Team := { teamR [] with warps := [(0, stuck)] }
    let tr : Trap := Trap.ofWord (turnR []) 9 0x48 0
    let trapping : Team := { teamR [] with
      status := .trapping, primary := some tr, warps := [(0, { placedWarp .a 0 with retired := true })] }
    let s (n : Word) : State := (mapped (scene .a trapping)).setReg (.ctxsave 0) (0x30000 ||| n)
    ((scene .c tm).team? 0 = some tm ∧ tm.status = .running ∧ tm.streams = [(0, stuck, .c)] ∧
      (scene .c tm).stuckStream 0 tm 0 stuck .c = some 0x60) ∧
    ((s 7).team? 0 = some trapping ∧ trapping.status = .trapping ∧ trapping.primary = some tr ∧
      ((s 7).flushTeam 0).gathering 0 = false ∧ ((s 7).flushTeam 0).settled 0 trapping = true) ∧
    (trapping.imageBlocks ≤ (s 7).openBlocks 0 ∧ (s 7).blocksOk 0 trapping.imageBlocks [0, 1, 2, 3, 4, 5] = true) ∧
    ((s 6).openBlocks 0 < trapping.imageBlocks ∧ (s 6).saveSize 0 ≠ 0 ∧ (s 6).saveSize 0 - 1 ∉ (s 6).takenBlocks 0) ∧
    ((s 0).openBlocks 0 < trapping.imageBlocks ∧ (s 0).saveSize 0 = 0) ∧
    ({ turnR [] with sp := { placedSplit 0 with wait := .trapped } } : Issue).sp.wait = .trapped ∧
    (let told (ids : List Nat) : Team := { trapping with status := .trapped 0x1000 [0] true, telling := some ids }
     let r (ids : List Nat) : State := mapped (scene .a (told ids))
     (r []).team? 0 = some (told []) ∧ (∃ u, (r []).agentAsk 3396 (4 * 0 + 3) ((r []).handTouches (told [])) = (u, true)) ∧
     (r [5]).team? 0 = some (told [5]) ∧
     ({ r [5] with net := { (r [5]).net with acks := [⟨5, 256, 1, false, false, false, none⟩] } } : State).openId 5 = true) ∧
    (let off (b : Bool) (v : Option Nat) : Team := { trapping with status := .trapped 0x1000 [0] b, resolve := v }
     let r (b : Bool) (v : Option Nat) : State :=
      { mapped (scene .a (off b v)) with mem := (mapped State.reset).mem ++ [(0x9040, 2)] }
     (∃ u, (r true (some 1)).resolving 0 0x1000 1 = (u, some (0, off true (some 1)))) ∧
     (∃ u, (r true (some 2)).resolving 0 0x1000 2 = (u, some (0, off true (some 2)))) ∧
     (∃ u, (r false (some 3)).resolving 0 0x1000 3 = (u, some (0, off false (some 3)))) ∧
     (r true none).resolveWord 0 0x1000 (lineOf 0x9040) = some 2 ∧ (off true none).resolve = none ∧
     (off true none).primary = some tr) := by
  refine ⟨⟨rfl, rfl, rfl, rfl⟩, ⟨rfl, rfl, rfl, rfl, rfl⟩, ⟨by decide, by decide⟩, ⟨by decide, by decide, by decide⟩,
    ⟨by decide, rfl⟩, rfl, ⟨rfl, ⟨_, rfl⟩, rfl, rfl⟩, ⟨_, rfl⟩, ⟨_, rfl⟩, ⟨_, rfl⟩, rfl, rfl, rfl⟩

theorem witness_LossesAndErrors :
    let i : Issue := turn .a { teamR [] with flags := 16 }
    (scene .a { teamR [] with flags := 16 }).issue? ⟨0, 0, .a, 0⟩ = some i ∧ i.tm.watch = true ∧ i.allowed = true ∧
    ErrSite.l1 0 256 = .l1 0 256 ∧ (∀ line hi k, ErrSite.l1 0 256 ≠ .symbols line hi k) ∧
    (let t : State := { sceneR [] with lines := { (sceneR []).lines with training := [((sceneR []).channelOf 0x8000, (0, []))] } }
     (tget? t.lines.training (t.channelOf (256 * 128))).isSome = true ∧
     (tget? (sceneR []).lines.training ((sceneR []).channelOf (256 * 128))).isSome = false) := by
  refine ⟨rfl, rfl, rfl, rfl, (fun _ _ _ => nofun), rfl, rfl⟩

/-- Function 1 in a state of its reset, with the spans that still are to be cleared. -/
def sceneF (st : Word) (spans : List Span) : State :=
  let s : State := { sceneR [] with host := { (sceneR []).host with ports := [(0, true)] } }
  let s : State := { s with head := { s.head with slotOwner := [(0, 0), (1, 1)], spans := spans } }
  let s : State := { s with lines := { s.lines with l2 := (289, .fresh 1 1 0 0) :: s.lines.l2 } }
  s.setReg (.fnrst 1) (0x8000000000000000 ||| (st <<< 60))

theorem witness_FunctionReset :
    let p (n : Nat) : Span := ⟨1, 0x9000, 256, n, none⟩
    let idle := (sceneF 0 []).setReg (.fnrst 1) 0
    (idle.pfOpen = true ∧ 1 < 64 ∧ 1 ≠ 0 ∧ ¬idle.fnInReset 1 = true ∧ (0x8000000000000010 : Word).getLsbD 63 = true) ∧
    ((sceneF 0 []).fnInReset 1 = true ∧ idle.fnInReset 0 = false ∧ (0x7FFFFFFFFFFFFFFF : Word).getLsbD 63 = false) ∧
    (let clean (l : List (Nat × L2Line)) (r : List Nat) : State := { sceneF 3 [] with
       lines := { (sceneF 3 []).lines with l2 := l }, head := { (sceneF 3 []).head with rotating := r } }
     1 ∈ (clean [] [1]).head.rotating ∧ (∃ t, (clean [] [1]).dropKey 1 = (t, true)) ∧
     (∃ t, (clean [(289, { L2Line.fresh 1 1 0 0 with dir := { DirEntry.reset with mode := 1, ptrs := [0] } })] [1]).dropKey 1 =
       (t, false)) ∧ 1 ∉ (sceneF 3 []).head.rotating) ∧
    ((sceneF 1 []).fnInReset 1 = true ∧ (sceneF 1 []).fnState 1 = 1 ∧ (sceneF 1 []).sliding 1 = false) ∧
    ((sceneF 2 []).fnState 1 = 2 ∧ (sceneF 2 []).slotOf 1 = some 1) ∧ (sceneF 3 []).fnState 1 = 3 ∧
    ((sceneF 4 [p 1]).fnState 1 = 4 ∧ (sceneF 4 [p 1]).openSpan 1 = some (p 1) ∧ (sceneF 4 [p 2]).openSpan 1 = none) ∧
    (sceneF 4 [p 2]).head.spans.find? (fun p => p.fn == 1 && p.cleared == p.lines) = some (p 2) ∧
    (∀ p ∈ (sceneF 4 []).head.spans, p.fn ≠ 1) ∧ (sceneF 4 []).MemOk ∧
    (∃ t, (sceneF 3 [p 0]).writeClearList 1 = (t, true)) ∧ (∃ t, (sceneF 4 [p 1]).clearTurn 1 (0x9000 / 128 + 1) = (t, true)) ∧
    (let x := (sceneF 4 [p 1]).askAll 3398 1 ((sceneF 4 [p 1]).stampOf 3398 1)
      [(289, ((sceneF 4 [p 1]).slotOf 1).getD 0, 1, 0, [false, true], true)]
     x.2 = true ∧ (x.1.dir 289).mode = 0) ∧
    ∃ t, (sceneF 4 [p 2]).agentAsk 3397 1 [.phys 0 0 0x9800 8 true] = (t, true) :=
  ⟨⟨rfl, by decide, by decide, by decide, rfl⟩, ⟨rfl, rfl, by decide⟩, ⟨by decide, ⟨_, rfl⟩, ⟨_, rfl⟩, by decide⟩, ⟨rfl, rfl, rfl⟩, ⟨rfl, rfl⟩, rfl, ⟨rfl, rfl, rfl⟩, rfl,
    (fun _ h => nomatch h), rfl, ⟨_, rfl⟩, ⟨_, rfl⟩, ⟨rfl, rfl⟩, _, rfl⟩

/-- A mailbox of the host at 0x2000 with a command of sequence number 1, an argument and a buffer of 4 bytes. -/
def sceneB (cmd arg : Nat) : State :=
  let bs : List Byte := leBytes 4 1 ++ leBytes 4 0 ++ leBytes 2 cmd ++ leBytes 6 0 ++ leBytes 8 arg ++ leBytes 40 0 ++
    leBytes 8 0x3000 ++ leBytes 4 4
  let s := mapped State.reset
  let cells : List Host.Cell := (bs.zipIdx.map fun (b : Byte × Nat) => (0x2000 + b.2, b.1)).filter fun b => b.2 != 0
  let s : State := { s with mem := s.mem.take 4 ++ cells }
  let s : State := { s with head := { s.head with wakes := [(64, 1)], slotOwner := [(0, 0), (1, 1)] } }
  s.setReg .hlhost 0x2000

/-- The mailbox of context 0 at 0x2000, physical 0xA000. -/
def sceneB0 (cmd : Nat) : State :=
  let s := mapped State.reset
  let s : State := { s with mem := s.mem ++ [(0xA000, 1), (0xA008, BitVec.ofNat 8 cmd)] }
  let s : State := { s with head := { s.head with wakes := [(0, 1)] } }
  s.setReg (.hlmbx 0) 0x2000

theorem witness_MailboxCommands :
    let a (_ : State) : MbxAnswer := (0, [])
    let swap0 : State := { sceneB 0x20 0x100 with lines := { (sceneB 0x20 0x100).lines with l2 := [(64, .fresh 0 0 0 0)] } }
    let bare (t : State) (x : Answering) : Prop := ∀ k ∈ x.ids, t.openId k = false
    (∀ c, c = 1 ∨ c = 2 ∨ c = 3 → ∃ u q, Asked (sceneB c 0) u 64 q a ∧ q.cmd = c) ∧
    (∃ u q, Asked (sceneB 0x10 0) u 64 q a ∧ q.cmd = 0x10 ∧ (u.mbxRead 64 q.buf q.buflen).isSome = true) ∧
    (∃ u q, AskedWhen swap0 u 64 q (fun t q => t.swapReady 64 q) a ∧ q.cmd = 0x20 ∧ u.head.recovery = false ∧ leNat (q.arg.take 1) = 0 ∧
      leNat ((q.arg.drop 1).take 1) = 1 ∧ u.slotOf 0 = some 0 ∧ u.slotOf 1 = some 1 ∧ u.fnInReset 0 = false ∧
      u.unrest 0 = false) ∧
    (∀ w, w = 2000 ∨ w = 5600 ∨ w = 1999 → ∃ u q, Asked (sceneB 0x21 w) u 64 q a ∧ q.cmd = 0x21 ∧ leNat (q.arg.take 2) = w) ∧
    (∃ u q, Asked (sceneB 0x11 0) u 64 q a ∧ q.cmd = 0x11) ∧
    (∀ c, c = 0x10 ∨ c = 0x11 ∨ c = 0x20 ∨ c = 0x21 → ∃ u q, Asked (sceneB0 c) u 0 q (fun _ => (1, [])) ∧ q.cmd = c) ∧
    (let t := sceneB 1 0
     let x (d : Bool) : Answering := ⟨64, 1, d, []⟩
     (bare t (x false) ∧ ∃ w, t.agentAsk 3397 (64 + 64) (t.mbxTouch 64 (t.mbxAddr 64 + 4) 4 true) = (w, true)) ∧
     bare t (x true) ∧ (∃ w, t.agentAsk 3397 (64 + 64) [] = (w, true)) ∧
     ({ t with net := { t.net with acks := [⟨5, 64, 1, false, false, false, none⟩] } } : State).openId 5 = true) := by
  refine ⟨?_, ⟨_, _, ⟨by decide, by decide, rfl, rfl, .inl rfl, rfl, _, _, _, _, rfl, rfl, rfl, by decide, rfl, rfl, _, rfl, rfl⟩, rfl, rfl⟩,
    ⟨_, _, ⟨by decide, by decide, rfl, rfl, .inl rfl, rfl, _, _, _, _, rfl, rfl, rfl, by decide, rfl, rfl, _, rfl, rfl⟩, rfl, rfl, rfl, rfl, rfl, rfl, rfl, by rfl⟩, ?_,
    ⟨_, _, ⟨by decide, by decide, rfl, rfl, .inl rfl, rfl, _, _, _, _, rfl, rfl, rfl, by decide, rfl, rfl, _, rfl, rfl⟩, rfl⟩, ?_, ⟨by decide, _, rfl⟩, by decide, ⟨_, rfl⟩, rfl⟩
  · rintro c (rfl | rfl | rfl) <;> exact ⟨_, _, ⟨by decide, by decide, rfl, rfl, .inl rfl, rfl, _, _, _, _, rfl, rfl, rfl, by decide, rfl, rfl, _, rfl, rfl⟩, rfl⟩
  · rintro c (rfl | rfl | rfl) <;>
      exact ⟨_, _, ⟨by decide, by decide, rfl, rfl, .inl rfl, rfl, _, _, _, _, rfl, rfl, rfl, by decide, rfl, rfl, _, rfl, rfl⟩, rfl, rfl⟩
  · rintro c (rfl | rfl | rfl | rfl) <;>
      exact ⟨_, _, ⟨by decide, by decide, rfl, rfl, .inr (by decide), rfl, _, _, _, _, rfl, rfl, rfl, by decide, rfl, rfl, _, rfl, rfl⟩, rfl⟩

/-- Window 0 maps 1 GiB from host address 0, port 0 is up, and entry 1 of the address map is host memory at 0x10000. -/
def sceneH : State :=
  let s : State := { sceneR [] with host := { (sceneR []).host with ports := [(0, true)], fetches := [(512, false)] } }
  let s := (s.setReg (.hdmh 0) 0x8000000000000000).setReg (.hdmd 0) 0x0010000000000000
  ((s.setReg (.amapBase 1) 0x10000).setReg (.amapLimit 1) 0x10000).setReg (.amapCtrl 1) 0x8004000000000000

theorem witness_HostAndFabric :
    let s := sceneH
    let owned := withLine { line0 with dir := { DirEntry.reset with hlo := 2 } } s
    let asked : State := { owned with host := { owned.host with backInv := [(256, false, true, 0, 3)] } }
    let host : State := { s with lines := { s.lines with l2 := [(512, line0)] } }
    let kept : State := withLine { line0 with dir := { DirEntry.reset with mode := 1, ptrs := [] } } s
    let busy : State := { withLine line0 s with net := { s.net with acks := [⟨5, 256, 1, false, false, false, none⟩] } }
    let open_ := s.setReg (.ctxfab 0) 0x8000000000000000
    let asks (s : State) (ask : HostAsk) (write : Bool) : Prop := ∃ t w, s.hostArrival 0 ask 0x8000 = (t, w) ∧
      t.reach 0x8000 64 = .at_ 0 0x8000 ∧ ∃ as, t.hostPlaces 0x8000 64 = some as ∧ linesOf as = [256] ∧
      ∃ u, t.hostAsk w (t.hostSlot 0) (t.hostOwner 0x8000) as write = (u, true)
    let gets (s : State) (own : Bool) (stores : Bool) : Prop :=
      ∃ t w u, s.hostArrival 0 (if own then .own else .shared) 0x8000 = (t, w) ∧ t.host.backInv = [] ∧
        t.ask 256 (w.req (t.hostSlot 0) (t.hostOwner 0x8000)) [false] own false = (u, true) ∧
        (u.touch 256 false).storesOpen 256 = stores ∧
        ∃ y k, (u.touch 256 false).startSettle ⟨256, [], false, false, none, w.stamp, w.agent, t.hostOwner 0x8000, !own,
          some (w.id, 0, 0x8000, own)⟩ = (y, k)
    s.portUp 0 = true ∧ s.reach 0x40000000 1 = .refused 0xFF ∧ s.reach 0x8000 64 = .at_ 0 0x8000 ∧
    asks owned (.back (List.replicate 64 1)) true ∧ asks s (.read 64 1) false ∧ asks s (.write (List.replicate 64 1)) true ∧ s.storesOpen 256 = false ∧ busy.storesOpen 256 = true ∧
    (s.hostSpot 0x8000 = .at_ 0x8000 ∧ s.hostSpot (0x8000 + 63) = .at_ (0x8000 + 63) ∧ s.isHost 0x8000 = false) ∧
    gets s false false ∧ gets s true false ∧ gets busy true true ∧
    gets kept true false ∧ (kept.dir 256).mode = 1 ∧
    (owned.dir 256).mode = 0 ∧ owned.hostHalf (lineOf 0x8000) false = 2 ∧
    asked.host.backInv.find? (fun b => b.1 == 256 && b.2.1 == false) = some (256, false, true, 0, 3) ∧
    (s.isHost (512 * 128) = true ∧ s.l2? 512 = none ∧ host.l2? 512 = some line0 ∧ (host.dir 512).mode = 0 ∧
      ∃ t w, host.hostArrival (host.portOf (512 * 128)) (.snoop true) (halfAddr 512 false) = (t, w) ∧
        t.turnOf 512 (w.req line0.key line0.owner) = true ∧ t.storesOpen 512 = false) ∧
    (512, false) ∈ s.host.fetches ∧ ({ s with head := { s.head with step := 6 } } : State).head.step = 6 ∧
    (∃ t, s.remoteRead 0 0 7 0 8 = (t, .refused)) ∧ (∃ t bs, open_.remoteRead 0 0 7 0 8 = (t, .done bs)) ∧
    (∃ t, s.remoteWrite 0 0 7 [(0, 1)] = (t, .refused)) ∧ (∃ t bs, open_.remoteWrite 0 0 7 [(0, 1)] = (t, .done bs)) := by
  refine ⟨rfl, rfl, rfl, ⟨_, _, rfl, rfl, _, rfl, by decide, _, rfl⟩, ⟨_, _, rfl, rfl, _, rfl, by decide, _, rfl⟩, ⟨_, _, rfl, rfl, _, rfl, by decide, _, rfl⟩, rfl, rfl, ⟨rfl, rfl, rfl⟩,
    ⟨_, _, _, rfl, rfl, rfl, rfl, _, _, rfl⟩, ⟨_, _, _, rfl, rfl, rfl, rfl, _, _, rfl⟩, ⟨_, _, _, rfl, rfl, rfl, rfl, _, _, rfl⟩,
    ⟨_, _, _, rfl, rfl, rfl, rfl, _, _, rfl⟩, rfl, rfl, rfl, rfl, ⟨rfl, rfl, rfl, rfl, _, _, rfl, rfl, rfl⟩,
    by decide, rfl, ⟨_, rfl⟩, ⟨_, _, rfl⟩, ⟨_, rfl⟩, ⟨_, _, rfl⟩⟩

theorem witness_RegisterWrites :
    let s := (sceneH.setReg (.amapBase 15) 0x20000).setReg (.amapLimit 15) 0x20000
    let v : Word := 0x8004000000000000
    s.pfOpen = true ∧ v.getLsbD 63 = true ∧ (1 : Word).getLsbD 0 = true ∧ (s.reg (.amapCtrl 0)).getLsbD 63 = true ∧
    (s.reg (.amapCtrl 15)).getLsbD 63 = false ∧ s.amapCause (s.amapOf 15 v) = 0 ∧
    (s.setReg (.amapBase 15) 0x10000).amapCause ((s.setReg (.amapBase 15) 0x10000).amapOf 15 v) ≠ 0 ∧
    ((s.reg (.hdmh 0)).getLsbD 63 = true ∧ (s.reg (.hdmh 63)).getLsbD 63 = false) ∧
    (s.setReg (.hdmd 63) 0x0010000000000000).hdmCause 63 0x8000000040000000 = 0 ∧
    (s.setReg (.hdmd 63) 0x0010000000000000).hdmCause 63 0x8000000000000000 ≠ 0 ∧ 15 < 16 ∧ 63 < 64 := by
  refine ⟨rfl, rfl, rfl, rfl, rfl, by decide, by decide, ⟨rfl, rfl⟩, by decide, by decide, by decide, by decide⟩

/-- The ends of the ranges of clocks, temperatures and power, a channel in training, and a cold start's steps. -/
theorem witness_ClocksAndBoot :
    let s : State := { State.reset with time := { State.reset.time with hb := (List.range 64).map fun d => (d, 819) } }
    let train (g : Nat) : State := { s with lines := { s.lines with inline := false, training := [(63, (g, []))] } }
    (∀ d < 64, tget s.time.hb 63 0 ≤ tget s.time.hb d 0) ∧ (tget s.time.hb 63 0 + 1) % 820 = 0 ∧
    ((1600 : BitVec 16) ≤ 1600 ∧ (1600 : BitVec 16) ≤ 2100 ∧ (2100 : BitVec 16) ≤ 2100) ∧
    ((79 : BitVec 16).toInt < 5 * 16 ∧ 95 * 16 ≤ (1520 : BitVec 16).toInt ∧ 105 * 16 ≤ (1680 : BitVec 16).toInt) ∧
    (tget? (train 17).lines.training (0 * 64 + 63) = some (17, []) ∧ tget? (train 0).lines.training (0 * 64 + 63) = some (0, []) ∧
      (train 0).lines.inline = false ∧ ∀ e ∈ (train 0).lines.training, e.1 / 64 ≠ 31) ∧
    (0 ∈ [0] ∧ 31 < 32 ∧ 63 < 64) ∧
    (let t : State := { s with time := { s.time with stretching := [(63, 1600)] } }
     t.mhz 63 ≠ s.mhz 63) ∧
    (820 ≤ ({ s.head with overTicks := 820 } : Headland).overTicks ∧ ¬820 ≤ s.head.overTicks) ∧
    (∀ e ∈ State.reset.head.hbmTemp, 0 ≤ e.2.toInt) ∧ (∃ e ∈ [(31, (0xFFFF : BitVec 16))], e.2.toInt < 0) ∧
    ({ State.reset with head := { State.reset.head with step := 4 } } : State).head.step = 4 := by
  refine ⟨by decide, by decide, by decide, by decide, ⟨rfl, rfl, rfl, by decide⟩, by decide, by decide, by decide, (fun _ h => nomatch h), ?_, rfl⟩
  exact ⟨_, .head _, by decide⟩

/-! The whole machine -/

theorem witness_DecodeEncode : (Instr.halt ⟨true, ⟨true, 6⟩⟩).wf .a = true ∧
    (Instr.shortPair true ⟨.add, 1, 2, .reg (.r 3)⟩ ⟨.fmul, 6, 5, .reg (.r 8)⟩).wf .c = true := by decide
theorem witness_EncodeDecode : ∃ ins, decode .a 0x8D9E8E8E94000000 = .ok ins := ⟨_, rfl⟩

/-- Streams whose word is fetched, is none, and is not fetched; an event; and a table word. -/
theorem witness_StepRunsDecoded :
    let s (sp : Split) : State := { scene .a { placedTeam .a 0 with warps := [(0, { placedWarp .a 0 with a := placedSlice [sp] })] } with
      agenda := { State.reset.agenda with tape := [.issue ⟨0, 0, .a, 0⟩] } }
    let i (sp : Split) : Issue := turn .a { placedTeam .a 0 with warps := [(0, { placedWarp .a 0 with a := placedSlice [sp] })] }
    let w := placedSplit 0x8D9E8E8E94000000
    let bad := placedSplit 0x039C000000000000
    let none_ := { placedSplit 0 with fetched := [] }
    let parked := { none_ with parked := true }
    ((∃ u, (s w).takeTurn = (.issue (i w).ref, u) ∧ u.issuer (i w).ref = (i w).ref) ∧ (s w).issue? (i w).ref = some (i w) ∧
      (∃ x ins, (i w).sp.word? (i w).sp.pc = some x ∧ decode (i w).ref.slice x = .ok ins)) ∧
    ((s bad).issue? (i bad).ref = some (i bad) ∧ ∃ x e, (i bad).sp.word? (i bad).sp.pc = some x ∧
      decode (i bad).ref.slice x = .error e) ∧
    ((i parked).sp.word? (i parked).sp.pc = none ∧ (i parked).allowed = false) ∧
    ((i none_).sp.word? (i none_).sp.pc = none ∧ (i none_).allowed = true ∧ ∃ t, exec (.instructionFetchFill (i none_).ref (i none_).sp.pc) (s none_) = .next t) ∧
    (∃ u ins, ({ State.reset with agenda := { State.reset.agenda with tape := [.event .partitionPeriod] } } : State).takeTurn =
      (.event ins, u) ∧ ∃ t, exec ins u.idle = .next t) ∧
    ∃ ins, decodeTableWord 64 0x8D9E8E8E94000000 = some ins :=
  ⟨⟨⟨_, rfl, rfl⟩, rfl, _, _, rfl, rfl⟩, ⟨rfl, _, _, rfl, rfl⟩, ⟨rfl, rfl⟩, ⟨rfl, rfl, _, rfl⟩, ⟨_, _, rfl, _, rfl⟩,
    ⟨_, rfl⟩⟩

theorem witness_StepKeepsMemory : ∃ s t : State, s.MemOk ∧ step s = .next t :=
  ⟨{ State.reset with agenda := { State.reset.agenda with tape := [.event .partitionPeriod] } }, _, rfl, rfl⟩

theorem witness_HomeMemory :
    (sceneR []).MemOk ∧ (∀ b ∈ ([(0, 1), (127, 2)] : List (Nat × Byte)), b.1 < 128) ∧ (sceneR []).lost 257 = false ∧
    lineOf 0x8000 ≠ 257 := ⟨rfl, by decide, rfl, by decide⟩

theorem witness_WordsLeave :
    let s := behind (walkingAccess .load false) (scene .a (teamR []))
    s.team? (turnR []).ref.team = some (teamR []) ∧ (∃ wp, tget? (teamR []).warps (turnR []).ref.warp = some wp) ∧
    Opd.queue? (.r 1) ≠ some 4 ∧ 4 < 5 ∧ Slice.c ≠ (turnR []).ref.slice ∧
    (∀ r l v, Write.vec r l v ∈ [Write.vec 3 31 7] → 32 * r + l ≠ 126) := by
  refine ⟨rfl, ⟨_, rfl⟩, by decide, by decide, by decide, ?_⟩
  intro r l v h
  simp only [List.mem_singleton, Write.vec.injEq] at h
  omega

/-! Single steps: results calculated by hand from the tables of the spec -/

/-- The state that a word leaves. -/
def after (o : Host.Outcome State Fault Refusal) : State :=
  match o with
  | .next t => t
  | _ => State.reset

/-- What a word under p0 makes outstanding in lane 0, with v1, v2 and so on given; and its split's next state. -/
def writesOf (sl : Slice) (regs : List (Nat × Word)) (ins : Instr) : List Write :=
  ((after (exec ins (scene sl (teamR regs)))).flights.getLast?.map Flight.writes).getD []
def splitOf (sl : Slice) (s : State) : Option (Word × Mask) :=
  ((s.team? 0).bind fun tm => tget? tm.warps 0).bind fun w => ((w.slice sl).splits.head?).map fun sp => (sp.pc, sp.mask)

/-- R264: sums wrap at the width, and `.sat` clamps to the type's range. -/
theorem test_add : writesOf .c [(1, 0xFFFFFFFF), (2, 2)] (.add ifP0 .z32 false (.r 3) (.r 1) (.r 2)) = [.vec 3 0 1] ∧
    writesOf .c [(1, 0x7FFFFFFF), (2, 2)] (.add ifP0 .i32 true (.r 3) (.r 1) (.r 2)) = [.vec 3 0 0x7FFFFFFF] := by decide
/-- R265: division by zero gives all ones, its remainder the dividend; the most negative number over −1 is itself. -/
theorem test_div : writesOf .c [(1, 7)] (.div ifP0 .i32 (.r 3) (.r 1) (.r 2)) = [.vec 3 0 0xFFFFFFFF] ∧
    writesOf .c [(1, 0x80000000), (2, 0xFFFFFFFF)] (.div ifP0 .i32 (.r 3) (.r 1) (.r 2)) = [.vec 3 0 0x80000000] := by decide
theorem test_rem : writesOf .c [(1, 7)] (.rem ifP0 .z32 (.r 3) (.r 1) (.r 2)) = [.vec 3 0 7] ∧
    writesOf .c [(1, 0xFFFFFFF9), (2, 2)] (.rem ifP0 .i32 (.r 3) (.r 1) (.r 2)) = [.vec 3 0 0xFFFFFFFF] := by decide
/-- R266: a shift of the whole width gives 0, or copies of the sign; R251: an A-slice register holds it extended. -/
theorem test_shr : writesOf .c [(1, 0x80000000), (2, 32)] (.shr ifP0 .i32 (.r 3) (.r 1) (.r 2)) = [.vec 3 0 0xFFFFFFFF] ∧
    writesOf .a [(1, 0x80000000), (2, 4)] (.shr ifP0 .i32 (.r 3) (.r 1) (.r 2)) = [.vec 3 0 0xFFFFFFFFF8000000] := by decide
/-- R267: bits 11:4, and a field that reaches over the top. -/
theorem test_bfe : writesOf .c [(1, 0xABCDE), (2, 0x0804)] (.bfe ifP0 .z32 (.r 3) (.r 1) (.r 2)) = [.vec 3 0 0xCD] ∧
    writesOf .c [(1, 0x80000000), (2, 0x081C)] (.bfe ifP0 .i32 (.r 3) (.r 1) (.r 2)) = [.vec 3 0 0xFFFFFFF8] := by decide
/-- R270: −1 is less than 1 as `.i32` and not as `.z32`. -/
theorem test_cmp : writesOf .c [(1, 0xFFFFFFFF), (2, 1)] (.cmp ifP0 .i32 2 1 (.r 1) (.r 2)) = [.pred 1 0 true] ∧
    writesOf .c [(1, 0xFFFFFFFF), (2, 1)] (.cmp ifP0 .z32 2 1 (.r 1) (.r 2)) = [.pred 1 0 false] := by decide
/-- R302: 70,000 into `.f16` under RNE gives infinity, with OF and NX. -/
theorem test_cvt : convert .f16 3 0 0 false 70000 = (0x7C00, 0b00101) := by decide
/-- R299: 1 + 2^-24 in binary32 is 1 under RNE and the next value under RUP, inexact. -/
theorem test_fadd : Fmt.f32.add 0 (Fmt.f32.val 0x3F800000) (Fmt.f32.val 0x33800000) = (0x3F800000, 1) ∧
    Fmt.f32.add 2 (Fmt.f32.val 0x3F800000) (Fmt.f32.val 0x33800000) = (0x3F800001, 1) := by decide
/-- R258: a call saves the next address in the link. -/
theorem test_call : splitOf .a (after (exec (.call false 5) (scene .a (teamR [])))) = some (40, 0xFFFFFFFF) := by decide
/-- R254, R255: the lanes that do not branch keep the split, at PC + 8. -/
theorem test_br : splitOf .a (after (exec (.br ifP0 4 3) (scene .a (teamR [])))) = some (8, 0xFFFFFFFE) := by decide
/-- R260: `exit` takes lane 0 away. -/
theorem test_exit : splitOf .a (after (exec (.exit ifP0) (scene .a (teamR [])))) = some (8, 0xFFFFFFFE) := by decide
/-- R263: USER_TRAP with its code. -/
theorem test_trap : ((after (exec (.trap ifP0 0xBEEF) (scene .a (teamR [])))).team? 0).map (fun tm =>
    (tm.status, tm.primary.map fun t => (t.code, t.sub, t.detail))) = some (.trapping, some (9, 0x48, 0xBEEF)) := by decide
/-- R17, R315: a store to the last word of the tidepool, low byte first. -/
theorem test_st : ((after (exec (.st ifP0 .z32 .none (.r 2) (.r 1) 0x7C)
    (scene .a (teamR [(1, 0x8000000000000000), (2, 0x11223344)])))).team? 0).map Team.tide =
    some [(0x7C, 0x44), (0x7D, 0x33), (0x7E, 0x22), (0x7F, 0x11)] := by decide
/-- R316: a loaded byte of a signed type is extended in the register. -/
theorem test_loadReply :
    let f : Flight := { Flight.empty 0 (turnR []) 0xFFFFFFFF with
      op := some .load, ty := .i8, dst := .reg (.r 3), lanes := [(0, 0, [], [])],
      pieces := [⟨0, 0, 0, 1, none, 0, 0, none, .done, [0x80], false⟩] }
    ((((after (exec (.loadReply 0) (behind f (scene .a (teamR []))))).team? 0).bind fun tm => tget? tm.warps 0).map
      fun w => tget w.a.regs (32 * 3) 0) = some 0xFFFFFFFFFFFFFF80 := by decide
/-- R100: a cleared line reads as zeros. -/
theorem test_fnrstClear : memRead ((sceneR []).clearLine 32).mem 0x1007 = 0 := by decide

end Sys2Proof.Tests
end

/-! SUPPORT. What the events of clocks, temperatures, power, training and cold start do, one lemma for each, and the
statements about them. -/

namespace Sys2Proof.Machine

/-! Reset -/

/-- Settles O60: the register table is empty at reset, so every register reads its Reset column. -/
theorem resetValues : Obligations.ResetValues := by
  refine ⟨fun r _ => ?_, rfl, rfl, rfl, rfl, rfl, rfl, rfl, rfl⟩
  have unlisted : State.reset.reg r = Reg.resetValue r := rfl
  rw [unlisted]
  cases r <;> rfl

/-! Ticks -/

theorem State.mayTick_iff {s : State} {die : Nat} :
    s.mayTick die = true ↔ ∀ d < Config.dies, s.hb die ≤ s.hb d := by
  simp [State.mayTick]

/-- R2, R418: a die that no other is behind counts one tick more; die 0 samples HELD and the power with it. -/
theorem exec_heartbeatTick {s : State} {die : Nat} (hd : die < Config.dies) (hm : s.mayTick die = true) :
    exec (.heartbeatTick die) s = .next (
      let n := s.hb die + 1
      let t := { s with time := { s.time with hb := tset s.time.hb die n, since := tset s.time.since die s.agenda.next } }
      let t := if n % stretchWindow = 0 then t.closeWindow die else t
      if die = 0 then t.sampleHeld.powerTick else t) := by
  have may : ¬(decide (Config.dies ≤ die) || !s.mayTick die) = true := by simpa [hm] using hd
  show execHeartbeatTick die s = _
  rw [execHeartbeatTick, if_neg may]

/-! The clocks that have ended -/

/-- The clock of a die, where it differs from that of an older state, is noted. -/
def State.noteClock (old s : State) (d : Nat) : State :=
  if s.mhz d = old.mhz d then s
  else { s with time := { s.time with past := tset s.time.past d (s.recent d ++ [(s.hb d, old.mhz d)]) } }

theorem State.clocked_eq_foldl (s old : State) : s.clocked old = (List.range 64).foldl (State.noteClock old) s := rfl

@[simp] theorem State.noteClock_mhz (old s : State) (d k : Nat) : (State.noteClock old s d).mhz k = s.mhz k := by
  unfold State.noteClock; split <;> rfl

@[simp] theorem State.noteClock_hb (old s : State) (d k : Nat) : (State.noteClock old s d).hb k = s.hb k := by
  unfold State.noteClock; split <;> rfl

theorem State.noteClock_past_self {old s : State} {d : Nat} (h : s.mhz d ≠ old.mhz d) :
    tget (State.noteClock old s d).time.past d [] = s.recent d ++ [(s.hb d, old.mhz d)] := by
  simp [State.noteClock, h, tget, tget?_tset_self]

theorem State.noteClock_past_ne {old s : State} {d k : Nat} (h : k ≠ d) :
    tget (State.noteClock old s d).time.past k [] = tget s.time.past k [] := by
  unfold State.noteClock
  split
  · rfl
  · simp [tget, tget?_tset_ne h]

theorem State.noteClock_recent_ne {old s : State} {d k : Nat} (h : k ≠ d) :
    (State.noteClock old s d).recent k = s.recent k := by
  simp [State.recent, State.noteClock_past_ne h]

theorem State.foldl_noteClock_past_of_notMem {old : State} {k : Nat} {ds : List Nat} (s : State) (hk : k ∉ ds) :
    tget (ds.foldl (State.noteClock old) s).time.past k [] = tget s.time.past k [] := by
  induction ds generalizing s with
  | nil => rfl
  | cons d ds ih =>
    obtain ⟨hkd, hk⟩ := not_or.1 (mt List.mem_cons.2 hk)
    exact (ih _ hk).trans (State.noteClock_past_ne hkd)

/-- Each die of a list without repetition is noted once, from the clocks and ticks of the first state. -/
theorem State.foldl_noteClock_past_of_mem {old : State} {k : Nat} {ds : List Nat} (s : State) (hn : ds.Nodup) (hk : k ∈ ds)
    (h : s.mhz k ≠ old.mhz k) :
    tget (ds.foldl (State.noteClock old) s).time.past k [] = s.recent k ++ [(s.hb k, old.mhz k)] := by
  induction ds generalizing s with
  | nil => cases hk
  | cons d ds ih =>
    obtain ⟨hd, hn⟩ := List.nodup_cons.1 hn
    by_cases hkd : k = d
    · subst hkd
      exact (State.foldl_noteClock_past_of_notMem _ hd).trans (State.noteClock_past_self h)
    · have hk : k ∈ ds := (List.mem_cons.1 hk).resolve_left hkd
      rw [List.foldl_cons, ih _ hn hk (by simpa using h), State.noteClock_recent_ne hkd, State.noteClock_hb]

/-- R417, R426: the clock of a die that changes is kept with its last tick, and those of 820 ticks ago and before go. -/
theorem State.clocked_past {s old : State} {d : Nat} (hd : d < 64) (h : s.mhz d ≠ old.mhz d) :
    tget (s.clocked old).time.past d [] = s.recent d ++ [(s.hb d, old.mhz d)] := by
  rw [State.clocked_eq_foldl]
  exact State.foldl_noteClock_past_of_mem s List.nodup_range (List.mem_range.2 hd) h

/-- R417: a die's clock falls within 1.6 and 2.1 GHz. -/
theorem exec_droopStretch {s : State} {die : Nat} {f : BitVec 16} (hd : die < Config.dies) (lo : 1600 ≤ f)
    (hi : f ≤ 2100) :
    exec (.droopStretch die f) s = .next (
      let w := tget s.time.window die (0, f.toNat)
      ({ s with time := { s.time with
        stretching := tset s.time.stretching die f
        stretches := tset s.time.stretches die (tget s.time.stretches die 0 + 1)
        window := tset s.time.window die (w.1 + 1, min w.2 f.toNat) } } : State).clocked s) := by
  have inRange : ¬(decide (Config.dies ≤ die) || decide (f < 1600) || decide (2100 < f)) = true := by
    simpa using ⟨⟨hd, lo⟩, hi⟩
  show execDroopStretch die f s = _
  rw [execDroopStretch, if_neg inRange]

/-! Temperatures (R419) -/

theorem degrees_toInt {n : Nat} (h : n < 2048) : (degrees n).toInt = n * 16 := by
  simp only [degrees, BitVec.toInt_ofNat', Int.bmod]
  omega

theorem slt_degrees {c : BitVec 16} {n : Nat} (h : n < 2048) : c.slt (degrees n) = decide (c.toInt < n * 16) := by
  rw [BitVec.slt, degrees_toInt h]

theorem exec_hbmCold {s : State} {j : Nat} {c : BitVec 16} (hj : j < Config.stackCount) (hc : c.toInt < 5 * 16) :
    exec (.hbmCold j c) s = .next (({ s.setHbm j c with
      head := { (s.setHbm j c).head with warming := addOnce s.head.warming j } } : State).logAction j c.toNat) := by
  have cold : ¬(decide (Config.stackCount ≤ j) || !c.slt (degrees 5)) = true := by
    simpa [slt_degrees] using ⟨hj, hc⟩
  show execHbmCold j c s = _
  rw [execHbmCold, if_neg cold]
  rfl

theorem exec_hbmHot {s : State} {j : Nat} {c : BitVec 16} (hj : j < Config.stackCount) (hc : 95 * 16 ≤ c.toInt) :
    exec (.hbmHot j c) s = .next (({ s.setHbm j c with
      head := { (s.setHbm j c).head with hotStacks := addOnce s.head.hotStacks j } } : State).logAction j c.toNat) := by
  have hot : ¬(decide (Config.stackCount ≤ j) || c.slt (degrees 95)) = true := by
    simpa [slt_degrees] using ⟨hj, hc⟩
  show execHbmHot j c s = _
  rw [execHbmHot, if_neg hot]
  rfl

theorem exec_warmingLoadEnd {s : State} {j : Nat} (h : j ∈ s.head.warming) :
    exec (.warmingLoadEnd j) s = .next (({ s.setHbm j (degrees 10) with
      head := { (s.setHbm j (degrees 10)).head with warming := s.head.warming.erase j } } : State).logAction j
        (degrees 10).toNat) := by
  show execWarmingLoadEnd j s = _
  rw [execWarmingLoadEnd, if_pos (List.contains_iff_mem.2 h)]
  rfl

theorem exec_hbmCooled {s : State} {j : Nat} (h : j ∈ s.head.hotStacks) :
    exec (.hbmCooled j) s = .next (({ s.setHbm j (degrees 90) with
      head := { (s.setHbm j (degrees 90)).head with hotStacks := s.head.hotStacks.erase j } } : State).logAction j
        (degrees 90).toNat) := by
  show execHbmCooled j s = _
  rw [execHbmCooled, if_pos (List.contains_iff_mem.2 h)]
  rfl

theorem exec_junctionHot {s : State} {d : Nat} {c : BitVec 16} (hd : d < Config.dies) (hc : 105 * 16 ≤ c.toInt) :
    exec (.junctionHot d c) s = .next ((({ s.setDie d c with
      head := { (s.setDie d c).head with hot := addOnce s.head.hot d } } : State).clocked s).logAction d c.toNat) := by
  have hot : ¬(decide (Config.dies ≤ d) || c.slt (degrees 105)) = true := by
    simpa [slt_degrees] using ⟨hd, hc⟩
  show execJunctionHot d c s = _
  rw [execJunctionHot, if_neg hot]
  rfl

theorem exec_junctionCooled {s : State} {d : Nat} (h : d ∈ s.head.hot) :
    exec (.junctionCooled d) s = .next ((({ s.setDie d (degrees 100) with
      head := { (s.setDie d (degrees 100)).head with hot := s.head.hot.erase d } } : State).clocked s).logAction d
        (degrees 100).toNat) := by
  show execJunctionCooled d s = _
  rw [execJunctionCooled, if_pos (List.contains_iff_mem.2 h)]
  rfl

/-! Power (R419) -/

/-- RATE falls a step after a window above the cap, and rises one after a window below 95 % of it while a step is taken
away; a reading on one side of the cap ends the count of the other. -/
theorem exec_powerOverCap (s : State) (w : BitVec 16) : exec (.powerOverCap w) s = .next (
    let cap := s.head.cap.toNat
    let h : Headland := { s.head with power := w }
    if cap < w.toNat then
      if stretchWindow ≤ h.overTicks then
        ({ s with head := { h with overTicks := 0, underTicks := 0, lowered := min 15 (h.lowered + 1) } } : State).logAction
          0 w.toNat
      else { s with head := { h with underTicks := 0 } }
    else if w.toNat * 100 < cap * 95 then
      if stretchWindow ≤ h.underTicks ∧ h.lowered ≠ 0 then
        ({ s with head := { h with overTicks := 0, underTicks := 0, lowered := h.lowered - 1 } } : State).logAction 0 w.toNat
      else { s with head := { h with overTicks := 0 } }
    else { s with head := { h with overTicks := 0, underTicks := 0 } }) := by
  have raises : (decide (stretchWindow ≤ s.head.underTicks) && s.head.lowered != 0) = true ↔
      stretchWindow ≤ s.head.underTicks ∧ s.head.lowered ≠ 0 := by simp
  show execPowerOverCap w s = _
  simp only [execPowerOverCap, raises]

/-! Live retraining (R421) -/

theorem State.moved20_iff {s : State} {j c : Nat} :
    s.moved20 j c = true ↔
      320 ≤ (s.baseTemp j).toInt - (tget s.lines.trained (trainKey j c) 0).toInt ∨
      (s.baseTemp j).toInt - (tget s.lines.trained (trainKey j c) 0).toInt ≤ -320 := by
  simp [State.moved20]

/-- A pseudo-channel in service, none of whose stack trains, trains when its temperature or its eye margin asks for it. -/
theorem exec_retrainStart {s : State} {j c : Nat} (hj : j < Config.stackCount) (hc : c < 64) (hi : s.lines.inline = false)
    (ht : ∀ e ∈ s.lines.training, e.1 / 64 ≠ j)
    (asked : s.moved20 j c = true ∨ (Config.freeWord 55 s.agenda.free).getLsbD 0 = true) :
    exec (.retrainStart j c) s = .next { s.bumpFree with
      lines := { s.lines with training := tset s.lines.training (trainKey j c) (0, []) } } := by
  have starts : ¬(decide (Config.stackCount ≤ j) || decide (64 ≤ c) || s.lines.inline ||
      (s.lines.training.any fun t => t.1 / 64 == j) ||
      !(s.moved20 j c || (Config.freeWord 55 s.agenda.free).getLsbD 0)) = true := by
    have idle : (s.lines.training.any fun t => t.1 / 64 == j) = false := by simpa using ht
    rw [hi, idle, (Bool.or_eq_true _ _).mpr asked]
    simpa using ⟨hj, hc⟩
  show execRetrainStart j c s = _
  rw [execRetrainStart, if_neg starts]

theorem exec_retrainStart_unasked {s : State} {j c : Nat}
    (asked : ¬(s.moved20 j c = true ∨ (Config.freeWord 55 s.agenda.free).getLsbD 0 = true)) :
    exec (.retrainStart j c) s = .next s.bumpFree := by
  have stays : (!(s.moved20 j c || (Config.freeWord 55 s.agenda.free).getLsbD 0)) = true := by simpa using asked
  show execRetrainStart j c s = _
  rw [execRetrainStart, if_pos (by rw [stays, Bool.or_true])]

theorem exec_tsvGroupDone {s : State} {j c g : Nat} {log : List Nat}
    (h : tget? s.lines.training (trainKey j c) = some (g, log)) :
    exec (.tsvGroupDone j c) s = .next { s with lines := { s.lines with
      training := if g + 1 = 18 then tdel s.lines.training (trainKey j c)
        else tset s.lines.training (trainKey j c) (g + 1, [])
      trained := if g + 1 = 18 then tset s.lines.trained (trainKey j c) (s.baseTemp j) else s.lines.trained } } := by
  show execTsvGroupDone j c s = _
  rw [execTsvGroupDone, h]

/-! Cold start (R414 to R416) -/

theorem exec_coldStart_some {s : State} {n : Nat} (h : s.powerOn.head.order.find? s.powerOn.head.verifies = some n) :
    exec (.coldStart true) s = .next
      (({ s.powerOn with head := { s.powerOn.head with active := n, tryNext := false } } : State).toStep 3) := by
  show Host.Outcome.next (s.coldStart true) = _
  simp only [State.coldStart, h, Bool.not_true, Bool.false_eq_true, if_false]

theorem exec_coldStart_none {s : State} (h : s.powerOn.head.order.find? s.powerOn.head.verifies = none) :
    exec (.coldStart true) s = .next ((s.powerOn.toStep 2).recover 2
      (if s.powerOn.head.order.any fun n => imageSigned (s.powerOn.head.bank n).image then 3 else 2) 0) := by
  show Host.Outcome.next (s.coldStart true) = _
  simp only [State.coldStart, h, Bool.not_true, Bool.false_eq_true, if_false]

theorem State.thawed_iff {s : State} : s.thawed = true ↔ ∀ e ∈ s.head.hbmTemp, 0 ≤ e.2.toInt := by
  simp [State.thawed, BitVec.msb_eq_toInt]

theorem State.thawed_eq_false_iff {s : State} : s.thawed = false ↔ ∃ e ∈ s.head.hbmTemp, e.2.toInt < 0 := by
  simp only [← Bool.not_eq_true, State.thawed_iff, Classical.not_forall, exists_prop, Int.not_le]

theorem exec_preheatComplete {s : State} (h3 : s.head.step = 3) (hr : s.head.recovery = false) (ht : s.thawed = true) :
    exec .preheatComplete s = .next (s.toStep 4) := by
  show execPreheatComplete s = _
  rw [execPreheatComplete, h3, hr, ht]
  rfl

theorem exec_preheatTimeout {s : State} (h3 : s.head.step = 3) (hr : s.head.recovery = false) (ht : s.thawed = false) :
    exec .preheatTimeout s = .next (s.recover 3 4 0) := by
  show execPreheatTimeout s = _
  rw [execPreheatTimeout, h3, hr, ht]
  rfl

theorem exec_hbmTrainingComplete_some {s : State} (h4 : s.head.step = 4) (hr : s.head.recovery = false) (stack : Nat)
    (test : Bool) :
    exec (.hbmTrainingComplete (some (stack, test))) s = .next (s.recover 4 (if test then 6 else 5) stack) := by
  have running : ¬(s.head.step != 4 || s.head.recovery) = true := by simp [h4, hr]
  show execHbmTrainingComplete (some (stack, test)) s = _
  rw [execHbmTrainingComplete, if_neg running]

theorem exec_hbmTrainingComplete_none {s : State} (h4 : s.head.step = 4) (hr : s.head.recovery = false) :
    exec (.hbmTrainingComplete none) s = .next (
      let t := (s.loaded.toStep 6).clocked s
      { t with head := { t.head with
        rollback := max t.head.rollback (Config.imageVersion (s.head.bank s.head.active).image) } }) := by
  have running : ¬(s.head.step != 4 || s.head.recovery) = true := by simp [h4, hr]
  show execHbmTrainingComplete none s = _
  rw [execHbmTrainingComplete, if_neg running]

/-! The statement -/

/-- Settles O51, clause by clause from the lemmas above: the statement writes `State.logAction` and the model's other
names out, so each clause is its lemma by definition. -/
theorem clocksAndBoot : Obligations.ClocksAndBoot := by
  intro s acted warm
  have acted_eq : acted = State.logAction := rfl
  clear_value acted
  subst acted_eq
  refine ⟨?ticks, rfl, ?stretch, fun _ => rfl, ?past, ?hbm, ?hbmEnds, ?junction, ?junctionEnds, ?power, ?retrain, ?group,
    rfl, ?bootSome, ?bootNone, ?preheat, ?training⟩
  case ticks => exact fun die hd hm => exec_heartbeatTick hd (State.mayTick_iff.2 hm)
  case stretch => exact fun die f hd lo hi => exec_droopStretch hd lo hi
  case past => exact fun t d hd h => State.clocked_past hd h
  case hbm => exact fun j c hj => ⟨fun hc => exec_hbmCold hj hc, fun hc => exec_hbmHot hj hc⟩
  case hbmEnds => exact fun j => ⟨fun h => exec_warmingLoadEnd h, fun h => exec_hbmCooled h⟩
  case junction => exact fun d c hd hc => exec_junctionHot hd hc
  case junctionEnds => exact fun d h => exec_junctionCooled h
  case power => exact fun w => exec_powerOverCap s w
  case retrain =>
    intro j c hj hc hi ht d
    have asked_iff : s.moved20 j c = true ∨ (Config.freeWord 55 s.agenda.free).getLsbD 0 = true ↔
        320 ≤ d ∨ d ≤ -320 ∨ (Config.freeWord 55 s.agenda.free).getLsbD 0 = true := by
      rw [State.moved20_iff, or_assoc]
      rfl
    split
    · next asked => exact exec_retrainStart hj hc hi ht (asked_iff.2 asked)
    · next asked => exact exec_retrainStart_unasked (mt asked_iff.1 asked)
  case group => exact fun j c g log h => exec_tsvGroupDone h
  case bootSome => exact fun n h => exec_coldStart_some h
  case bootNone => exact fun h => exec_coldStart_none h
  case preheat =>
    exact fun h3 hr => ⟨fun ht => exec_preheatComplete h3 hr (State.thawed_iff.2 ht),
      fun ht => exec_preheatTimeout h3 hr (State.thawed_eq_false_iff.2 ht)⟩
  case training =>
    exact fun h4 hr => ⟨fun stack => ⟨exec_hbmTrainingComplete_some h4 hr stack false,
      exec_hbmTrainingComplete_some h4 hr stack true⟩, exec_hbmTrainingComplete_none h4 hr⟩

end Sys2Proof.Machine

/-! SUPPORT. What counters, fences and arriving results do, and the statements about them; and the words that compute
values. -/

namespace Sys2Proof.Machine

/-! Counters and fences (R13, R133, R319, R320) -/

theorem atLeast_eq_false_iff {x y : BitVec 32} : atLeast x y = false ↔ (x - y).toInt < 0 := by
  simp [atLeast, BitVec.msb_eq_toInt]

/-- What keeps a fence from issuing is what keeps a release that makes no access. -/
theorem mayAccess_release (s : State) (i : Issue) (sc : Scope) :
    s.mayAccess i { storing .z8 sc with rel := true } =
      if s.afterAcquires i then ((s.release i sc).1, if (s.release i sc).2 then none else some .order)
      else (s, some .order) := by
  cases acquires : s.afterAcquires i <;> simp only [State.mayAccess, acquires] <;> rfl

theorem exec_fence_idle {s : State} {i : Issue} {h : Head} (sc : Scope) (ready : s.Ready i) (idle : i.active h.guard = 0) :
    exec (.fence h sc) s = .next (s.advance i h.mark) := by
  show execFence h sc s = _
  rw [execFence, word_ready ready, if_pos idle]

theorem exec_fence {s : State} {i : Issue} {h : Head} (sc : Scope) (ready : s.Ready i) (active : i.active h.guard ≠ 0) :
    exec (.fence h sc) s = .next (match s.mayAccess i { storing .z8 sc with rel := true } with
      | (t, some w) => t.waitAt i w
      | (t, none) => (t.fence_ i sc).advance i h.mark) := by
  show execFence h sc s = _
  rw [execFence, word_ready ready, if_neg active, mayAccess_release]
  cases s.afterAcquires i
  · rfl
  · cases ok : (s.release i sc).2 <;> simp [ok]

/-- Settles O22: `wait.cnt` by its meaning, with the distance to the threshold read as a signed number; and `fence` by
what `State.mayAccess` answers a release. -/
theorem countersAndFences : Obligations.CountersAndFences := by
  intro h ctr a imm sc
  refine ⟨wordActs_of (fun s i ready idle => ?_) (fun s i ready active _ => ?_), fun s i ready =>
    ⟨exec_fence_idle sc ready, fun active => ⟨fun t w held => ?_, fun t free => ?_⟩⟩⟩
  · show execWaitCnt h ctr a imm s = _
    rw [execWaitCnt, word_ready ready, if_pos idle]
  · show execWaitCnt h ctr a imm s = _
    rw [execWaitCnt, word_ready ready, if_neg active]
    simp only [Bool.not_eq_true', atLeast_eq_false_iff]
    rfl
  · rw [exec_fence sc ready active, held]
  · rw [exec_fence sc ready active, free]

/-! Values that arrive (R174, R315) -/

theorem laneBit_getLsbD {k l : Nat} (h : l < 32) : (laneBit k).getLsbD l = decide (l = k) := by
  simp only [laneBit, BitVec.getLsbD_shiftLeft, BitVec.getLsbD_one]
  by_cases e : l = k <;> simp [e] <;> omega

theorem foldl_laneBit_getLsbD {l : Nat} (h : l < 32) (ls : List Nat) (m : Mask) :
    (ls.foldl (fun m k => m ||| laneBit k) m).getLsbD l = (m.getLsbD l || decide (l ∈ ls)) := by
  induction ls generalizing m with
  | nil => simp
  | cons k ls ih => simp [ih, laneBit_getLsbD h, Bool.or_assoc]

theorem maskBy_getLsbD {l : Nat} (h : l < 32) (p : Nat → Bool) : (maskBy p).getLsbD l = p l := by
  have bit : (maskBy p).getLsbD l = ((List.range 32).map p).getD l false := BitVec.getLsbD_ofBoolListLE
  simpa [h] using bit

theorem maskOf_eq_maskBy (p : Nat → Bool) : maskOf p = maskBy p := by
  apply BitVec.eq_of_getLsbD_eq
  intro l h
  rw [maskOf, foldl_laneBit_getLsbD h, maskBy_getLsbD h]
  simp [h]

theorem value_of_ne_accLd {f : Flight} (l : Nat) (h : f.op ≠ some .accLd) :
    f.value l = (loadWord f.ty (f.laneBytes l), f.pieces.any fun p => p.lane == l && p.bad) := by
  unfold Flight.value
  split
  · next op _ => exact absurd op h
  · rfl

theorem value_of_accLd {f : Flight} {l : Nat} {v : Word} {x y : List Byte} (h : f.op = some .accLd)
    (lane : f.lanes.find? (fun e => e.1 == l) = some (l, v, x, y)) :
    f.value l = ((accValue (f.laneBytes l) v).1,
      (f.pieces.any fun p => p.lane == l && p.bad) || (accValue (f.laneBytes l) v).2) := by
  simp only [Flight.value, h, lane]

theorem loadWord_eq (t : Ty) (bs : List Byte) :
    loadWord t bs = if Ty.signed t then (BitVec.ofNat (8 * Ty.bytes t) (leNat bs)).signExtend 64
      else BitVec.ofNat 64 (leNat bs) := by
  cases t <;> simp [loadWord, Ty.signed, Ty.bytes]

/-- R174: `acc.ld` takes the eight bytes at 96, or six bytes at its offset, whose pair's bit at 103 marks poison. -/
theorem accValue_eq (img : List Byte) (v : Word) :
    accValue img v = (let o := (v.extractLsb' 0 7).toNat
      if o = 96 then (BitVec.ofNat 64 (leNat ((img.drop 96).take 8)), false)
      else (BitVec.ofNat 64 (leNat ((img.drop o).take 6)), (leNat ((img.drop 103).take 1)).testBit (o / 12))) := by
  have is_one (n : Nat) : (n == 1) = decide (n = 1) := rfl
  simp only [accValue, bits, fieldOf, Nat.testBit_eq_decide_div_mod_eq, is_one]

/-! Results that arrive (R13, R189, R201, R209) -/

/-- The lanes of a flight that met poison. -/
def Flight.badLanes (f : Flight) : Mask := maskBy fun l => f.mask.getLsbD l && (f.value l).2

theorem exec_loadReply {s : State} {f : Flight} (held : s.flight? f.id = some f) (returns : f.returns = true) :
    exec (.loadReply f.id) s = .next (s.reply f) := by
  show execLoadReply f.id s = _
  rw [execLoadReply, held]
  exact congrArg _ (if_pos returns)

/-- R189: the results that a word has computed are made. -/
theorem reply_computed {s : State} {f : Flight} (computed : f.op = none) (plain : ∀ o c, f.dst ≠ .counter o c) :
    s.reply f = ((((s.dropFlight f.id).modWarp f.stream.team f.stream.warp fun w =>
      w.puts f.stream.slice f.writes).kill f.stream.team f.stream.warp 0).unpark f.stream.team f.stream.warp
        f.stream.slice).pump := by
  have none_die (m : Mask) : 0 &&& m = 0 := BitVec.zero_and
  simp only [State.reply, computed, Option.isNone_none, if_true, none_die]

/-- R13, R209, R316: what an access has read is written in its lanes that live and met no poison; those that met poison die,
and a counter counts. -/
theorem reply_access {s : State} {f : Flight} {op : AccOp} {w : Warp} (access : f.op = some op)
    (warp : s.flightWarp f = some w) :
    s.reply f =
      (let t := (s.dropFlight f.id).modWarp f.stream.team f.stream.warp fun x => x.puts f.stream.slice
        (f.resultWrites (f.mask &&& ~~~w.dead &&& ~~~f.badLanes))
       let t := match f.dst with
        | .counter _ n => t.modSlice f.stream.team f.stream.warp f.stream.slice (·.count n)
        | _ => t
       ((t.kill f.stream.team f.stream.warp (f.badLanes &&& ~~~w.dead)).unpark f.stream.team f.stream.warp
        f.stream.slice).pump) := by
  have known : f.op.isNone = false := by rw [access]; rfl
  simp only [State.reply, known, maskOf_eq_maskBy, warp, Option.map_some, Option.getD_some, Bool.false_eq_true, if_false]
  rfl

theorem returns_of_computed {f : Flight} (computed : f.op = none) (written : ∀ d, f.dst = .reg d → f.writes ≠ []) :
    f.returns = true := by
  cases dst : f.dst with
  | reg d => simpa [Flight.returns, computed, dst] using written d dst
  | none | queue | counter | pred => simp [Flight.returns, computed, dst]

theorem returns_of_access {f : Flight} {op : AccOp} (access : f.op = some op) (bound : f.bound = true)
    (sound : f.faulted = false)
    (dst : (∃ d, f.dst = .reg d) ∨ (∃ d n, f.dst = .counter d n) ∨ ∃ p, f.dst = .pred p) : f.returns = true := by
  obtain ⟨d, dst⟩ | ⟨d, n, dst⟩ | ⟨p, dst⟩ := dst <;> simp [Flight.returns, access, dst, bound, sound]

theorem exec_queueDataArrival {s : State} {f : Flight} {q n : Nat} (held : s.flight? f.id = some f)
    (dst : f.dst = .queue q n) (bound : f.bound = true) (sound : f.faulted = false) :
    exec (.queueDataArrival f.id) s = .next (s.arrival f q n) := by
  show execQueueDataArrival f.id s = _
  simp only [execQueueDataArrival, held, dst, bound, sound]
  rfl

theorem poisons_of_queue {f : Flight} {q n : Nat} (dst : f.dst = .queue q n) :
    f.poisons = (f.stream.slice == .a && (f.op == some .load || f.op == some .accLd)) := by
  simp [Flight.poisons, dst]

/-- Settles O32: each clause is the result's event by the lemmas above, at the destination that the clause names. -/
theorem resultsArrive : Obligations.ResultsArrive := by
  refine ⟨?computed, ?access, ?value, ?queue⟩
  case computed =>
    intro s f held computed _ written plain
    rw [exec_loadReply held (returns_of_computed computed written), reply_computed computed plain]
  case access =>
    intro s f op w k ws held access bound sound warp dst bad
    obtain ⟨d, ⟨dst, rfl⟩ | ⟨n, dst, rfl⟩, rfl⟩ | ⟨p, dst, rfl, rfl⟩ := dst
    · rw [exec_loadReply held (returns_of_access access bound sound (.inl ⟨d, dst⟩)), reply_access access warp]
      simp only [Flight.resultWrites, dst]
      rfl
    · rw [exec_loadReply held (returns_of_access access bound sound (.inr (.inl ⟨d, n, dst⟩))), reply_access access warp]
      simp only [Flight.resultWrites, dst]
      rfl
    · rw [exec_loadReply held (returns_of_access access bound sound (.inr (.inr ⟨p, dst⟩))), reply_access access warp]
      simp only [Flight.resultWrites, dst]
      rfl
  case value =>
    intro f l bs bad
    refine ⟨fun other => ?_, fun v x y accLd lane => ?_⟩
    · rw [value_of_ne_accLd l other, loadWord_eq]
    · rw [value_of_accLd accLd lane, accValue_eq]
      dsimp only
      split <;> simp [bs, bad]
  case queue =>
    intro s f w q n held dst bound sound warp bad load
    rw [exec_queueDataArrival held dst bound sound]
    simp only [State.arrival, poisons_of_queue dst, maskOf_eq_maskBy, warp, Option.map_some, Option.getD_some]
    rfl

/-! What words that compute leave (R10, R280) -/

/-- A slice that settles keeps only the offers whose split stands with a live lane: an offer goes with its split (R280). -/
theorem SliceState.shrink_offers (x : SliceState) (live : Mask) :
    (x.shrink live).offers = x.offers.filter fun o => x.splits.any fun sp => sp.num == o.split && sp.mask &&& live != 0 :=
  rfl

/-- An offer of split 1, in a slice whose only split is 0. -/
def strayOffer : Offer := { m := 0, split := 1, mask := 1, mark := false, ty := .z32, d := .r 1, a := .r 2, pd := none }

def offeringWarp : Warp := { placedWarp .a 0 with a := { (placedWarp .a 0).a with offers := [strayOffer] } }

def offeringTeam : Team := { placedTeam .a 0 with warps := [(0, offeringWarp)] }

def offeringState : State := { State.reset with teams := [(0, offeringTeam)] }

/-- Split 0 of the A-slice, whose word issues. -/
def offeringIssue : Issue := ⟨⟨0, 0, .a, 0⟩, offeringTeam, offeringWarp, offeringWarp.a, placedSplit 0⟩

/-- The turn is one of a split that stands, so the word may issue. -/
theorem offeringState_issue : offeringState.issue? offeringIssue.ref = some offeringIssue ∧ offeringIssue.allowed = true :=
  ⟨rfl, rfl⟩

/-- The slice of the warp has no offer any more once a word that writes a1 of lane 0 has issued. -/
theorem offeringState_after :
    ((((offeringState.deliver offeringIssue 1 (.r 1) 32 [(0, 7)]).advanceTo offeringIssue false 8).team? 0).bind
      fun tm => tget? tm.warps 0).map (fun wp => (wp.slice .a).offers) = some [] := rfl

/-- Refutes O59: once a word has issued its slice settles, and settling takes away the offers of `xch` whose split does not
stand, while the statement keeps a slice's offers and asks of the state no invariant that would give each of them a split. -/
theorem not_wordsLeave : ¬ Obligations.WordsLeave := by
  intro holds
  obtain ⟨-, -, -, -, inTeam⟩ := holds.1 offeringState offeringIssue 1 (.r 1) 32 [(0, 7)] false 8
  obtain ⟨tm, after, -, -, inWarp⟩ := inTeam offeringTeam rfl
  obtain ⟨wp, warp, -, -, -, slice⟩ := inWarp offeringWarp rfl
  have kept : (wp.slice .a).offers = [strayOffer] := congrArg SliceState.offers slice
  have gone : (wp.slice .a).offers = [] := by
    have offers := offeringState_after
    rw [show State.team? _ 0 = some tm from after, Option.bind_some, show tget? tm.warps 0 = some wp from warp] at offers
    exact Option.some.inj offers
  rw [kept] at gone
  cases gone

end Sys2Proof.Machine

/-! SUPPORT. What the events of engine commands do, and the statement about them. -/

namespace Sys2Proof.Machine

/-! The start of a command (R14, R342) -/

/-- What the copy engine does with a command that begins or goes on, by its kind. -/
def State.beginCommand (s : State) (c : Command) (tm : Team) : State :=
  match c.kind with
  | .cp => s.startCp c tm
  | .feed f => s.startFeed c tm f
  | .coll => s.startColl c tm
  | .put => s.startPut c tm
  | .get => s.startGet c tm
  | .accZero n => s.startAccZero c tm n
  | .accFin chk => if s.finReady c then s.startAccFin c tm chk else s
  | .mma | .twin => s

section
variable {s : State} {c : Command} {tm : Team} (held : s.cmd? c.id = some c) (team : s.cmdTeam c = some tm)
  (head : s.atHead c = true)
include held team head

theorem exec_commandStart_reply (verdict : c.verdict = some true) (running : c.st = .running) (reply : c.reply ≠ none) :
    exec (.commandStart c.id) s = .next (s.takeReply c tm) := by
  have answered : c.reply.isSome = true := Option.isSome_iff_ne_none.2 reply
  show execCommandStart c.id s = _
  simp [execCommandStart, held, team, head, verdict, running, answered]

theorem exec_commandStart_discarded (verdict : c.verdict = some false) (queued : c.st = .queued) :
    exec (.commandStart c.id) s = .next (s.signalCommand c 0) := by
  show execCommandStart c.id s = _
  simp [execCommandStart, held, team, head, verdict, queued]

/-- A command begins from its queue; a feed and a copy in pieces go on. -/
theorem exec_commandStart_begins (verdict : c.verdict = some true) (after : s.afterDone c = true)
    (stands : c.st = .queued ∨ c.st = .running ∧ c.reply = none ∧ (c.isFeed = true ∨ c.pieces ≠ [])) :
    exec (.commandStart c.id) s = .next (s.beginCommand c tm) := by
  have unanswered : (c.st == .running && c.reply.isSome) = false := by
    obtain queued | ⟨-, reply, -⟩ := stands
    · simp [queued]
    · simp [reply]
  have goes : (c.st == .queued || (c.st == .running && (c.isFeed || c.inPieces))) = true := by
    obtain queued | ⟨running, -, more⟩ := stands
    · simp [queued]
    · simpa [running, Command.inPieces] using more
  show execCommandStart c.id s = _
  simp only [execCommandStart, held, team, head, verdict, after, unanswered, goes]
  rfl

end

/-! The bytes of a copy (R350) -/

theorem copyMoves_getElem? (c : Command) (src dst : Word → Site) (n : Nat) :
    (copyMoves c src dst)[n]? =
      if n < copyBytes c.shape then some ⟨n, src (srcAddr c n), dst (dstAddr c n)⟩ else none := by
  by_cases inside : n < copyBytes c.shape <;> simp [copyMoves, inside]

theorem copyBytes_eq (r : List Word) :
    copyBytes r = if shapeKind r = 1 then shapeCols r * shapeBytes r else shapeRows r * (shapeCols r * shapeBytes r) := by
  by_cases line : shapeKind r = 1 <;> simp [copyBytes, line]

/-! The pieces of a copy (R345, R350, R351) -/

/-- The bytes of a copy that have not been performed, and the line pairs that they lie in. -/
def Command.left (c : Command) (ms : List Move) : List Move := ms.filter fun m => !c.pieces.contains m.n

def Command.units (c : Command) (ms : List Move) : List (Nat × Nat × Nat × Nat) := ((c.left ms).map Move.unit).eraseDups

/-- The bytes that the engine performs next. -/
def State.picks (s : State) (c : Command) (ms : List Move) : List Move :=
  (c.left ms).filter fun m => (nextUnits s.agenda.free (c.units ms)).contains m.unit

theorem mem_of_mem_nextUnits {free : Nat} {us : List (Nat × Nat × Nat × Nat)} {u : Nat × Nat × Nat × Nat}
    (h : u ∈ nextUnits free us) : u ∈ us := by
  unfold nextUnits at h
  dsimp only at h
  split at h
  · exact List.mem_of_mem_take h
  · obtain ⟨⟨v, k⟩, chosen, rfl⟩ := List.mem_map.1 h
    exact (List.mem_zipIdx' (List.mem_filter.1 chosen).1).2 ▸ List.getElem_mem _

theorem nextUnits_ne_nil {free : Nat} {us : List (Nat × Nat × Nat × Nat)} (h : us ≠ []) : nextUnits free us ≠ [] := by
  unfold nextUnits
  dsimp only
  split
  · simpa using h
  · next some_chosen => simpa using some_chosen

theorem State.picks_sublist (s : State) (c : Command) (ms : List Move) : (s.picks c ms).Sublist (c.left ms) :=
  List.filter_sublist

theorem Command.units_ne_nil {c : Command} {ms : List Move} (h : c.left ms ≠ []) : c.units ms ≠ [] := by
  obtain ⟨m, todo⟩ := List.exists_mem_of_ne_nil _ h
  exact List.ne_nil_of_mem (List.mem_eraseDups.2 (List.mem_map_of_mem todo))

theorem State.picks_ne_nil {s : State} {c : Command} {ms : List Move} (h : c.left ms ≠ []) : s.picks c ms ≠ [] := by
  obtain ⟨u, next⟩ := List.exists_mem_of_ne_nil _ (nextUnits_ne_nil (free := s.agenda.free) (Command.units_ne_nil h))
  obtain ⟨m, todo, rfl⟩ := List.mem_map.1 (List.mem_eraseDups.1 (mem_of_mem_nextUnits next))
  exact List.ne_nil_of_mem (List.mem_filter.2 ⟨todo, List.contains_iff_mem.2 next⟩)

/-- A line pair is performed as a whole. -/
theorem State.mem_picks_of_unit {s : State} {c : Command} {ms : List Move} {m p : Move} (todo : m ∈ c.left ms)
    (picked : p ∈ s.picks c ms) (unit : m.unit = p.unit) : m ∈ s.picks c ms :=
  List.mem_filter.2 ⟨todo, unit ▸ (List.mem_filter.1 picked).2⟩

/-- R345: the fault that stops a command is one of those it meets. -/
theorem State.meetFault_mem (s : State) (c : Command) {fs : List (XFault × Word)} (h : fs ≠ []) :
    ∃ f v, (f, v) ∈ fs ∧ s.meetFault c fs = (s.engineFault c f v).bumpFree := by
  have inside : (Config.freeWord 42 s.agenda.free).toNat % max 1 fs.length < fs.length := by
    have := List.length_pos_iff.2 h
    exact Nat.lt_of_lt_of_eq (Nat.mod_lt _ (by omega)) (by omega)
  refine ⟨_, _, List.getElem_mem inside, ?_⟩
  simp only [State.meetFault, List.getElem?_eq_getElem inside]
  rfl

/-- A byte whose source no piece of the step writes, or that stays in one tidepool allocation, gets the value that its source
had (R351). -/
theorem moveVal_eq_old {free fuel : Nat} {old : Nat → Byte} {ms : List Move} {m : Move}
    (h : (∀ x ∈ ms, x.dst.key ≠ m.src.key) ∨ ∃ a i j, m.src = .tide a i ∧ m.dst = .tide a j) :
    moveVal free old ms m fuel = old m.n := by
  cases fuel with
  | zero => rfl
  | succ fuel =>
    obtain apart | ⟨a, i, j, src, dst⟩ := h
    · cases src : m.src with
      | mem x pa =>
        simp only [moveVal, src]
        split
        · next y found =>
          have same_place := List.find?_some found
          split at same_place
          · next dst =>
            have written : y.dst.key = m.src.key := by rw [dst, src, beq_iff_eq.1 same_place]; rfl
            exact absurd written (apart y (List.mem_of_find?_eq_some found))
          · cases same_place
        · rfl
      | tide t off =>
        simp only [moveVal, src]
        split
        · next y found =>
          have same_place := List.find?_some found
          have written : y.dst.key = m.src.key := by rw [src, beq_iff_eq.1 same_place]
          exact absurd written (apart y (List.mem_of_find?_eq_some found))
        · rfl
      | passing | walk | fault => simp only [moveVal, src]
    · simp only [moveVal, src, dst]
      split <;> simp

theorem find?_n_eq_some {ms : List Move} (nodup : (ms.map Move.n).Nodup) {m : Move} (h : m ∈ ms) :
    ms.find? (fun x => x.n == m.n) = some m := by
  induction ms with
  | nil => cases h
  | cons y ms ih =>
    obtain ⟨fresh, nodup⟩ := List.nodup_cons.1 nodup
    obtain rfl | h := List.mem_cons.1 h
    · simp
    · have other : y.n ≠ m.n := fun e => fresh (e ▸ List.mem_map_of_mem h)
      simpa [other] using ih nodup h

theorem State.moveMark_eq_none {s : State} {c : Command} {refused : Move → Option Fault40} {m : Move}
    (taken : refused m = none) (clean : (s.siteByte m.src).2 = false) : s.moveMark c refused m = none := by
  simp [State.moveMark, firstMark, taken, clean]

/-- The value at the source of byte n of a step. -/
def State.sourceByte (s : State) (ms : List Move) (n : Nat) : Byte :=
  ((ms.find? fun m => m.n == n).map fun m => (s.siteByte m.src).1).getD 0

theorem State.sourceByte_eq (s : State) {ms : List Move} (nodup : (ms.map Move.n).Nodup) {m : Move} (h : m ∈ ms) :
    s.sourceByte ms m.n = (s.siteByte m.src).1 := by
  rw [State.sourceByte, find?_n_eq_some nodup h]
  rfl

/-- What a step does that performs the pieces `pick` of those that `left` counts, with the values `val`: `t` is the state
whose sources and destinations are ready, and `k` the number of free values that the step may have taken. -/
def State.performed (t : State) (c : Command) (left k : Nat) (pick : List Move) (val : Move → Byte)
    (credit : Nat → Nat) : State :=
  let u := (((t.writeSites (pick.map fun m => (m.dst, val m))).readsDone (pick.map Move.src)).tookFree k).modCmd
    c.id fun x => { x with
      pieces := c.pieces ++ pick.map Move.n, passed := c.passed + pick.length, error := c.error }
  if pick.length = left then u.moved t c (credit (c.passed + pick.length)) c.error
  else u.modCmd c.id fun x => { x with st := .running, acks := x.acks ++ u.openSince t }

section
variable {s : State} {c : Command} {tm : Team} {ms : List Move} {stop : Move → List (XFault × Word)}
  {refused : Move → Option Fault40} {credit : Nat → Nat}

/-- R345: an address of the step that faults stops the command. -/
theorem State.moveStep_stops (faulty : ∃ m ∈ s.picks c ms, stop m ≠ []) :
    ∃ f v, (∃ m ∈ s.picks c ms, (f, v) ∈ stop m) ∧
      s.moveStep c tm ms stop refused credit = (s.engineFault c f v).bumpFree := by
  have some_fault : (s.picks c ms).flatMap stop ≠ [] := by simpa [List.flatMap_eq_nil_iff] using faulty
  obtain ⟨f, v, met, stops⟩ := s.meetFault_mem c some_fault
  refine ⟨f, v, List.mem_flatMap.1 met, ?_⟩
  have stopped : (!((s.picks c ms).flatMap stop).isEmpty) = true := by simpa using some_fault
  rw [← stops]
  exact if_pos stopped

/-- R346, R350: a step whose pieces neither fault nor give a mark writes each of them. -/
theorem State.moveStep_performs {t : State} (sound : ∀ m ∈ s.picks c ms, stop m = [] ∧ refused m = none)
    (ready : s.cmdReady c tm ((s.picks c ms).map Move.src) ((s.picks c ms).map Move.dst) = (t, true))
    (clean : ∀ m ∈ s.picks c ms, (t.siteByte m.src).2 = false) :
    s.moveStep c tm ms stop refused credit = t.performed c (c.left ms).length (max 1 (c.units ms).length) (s.picks c ms)
      (fun m => moveVal t.agenda.free (t.sourceByte (s.picks c ms)) (s.picks c ms) m (s.picks c ms).length) credit := by
  have no_fault : (s.picks c ms).flatMap stop = [] := List.flatMap_eq_nil_iff.2 fun m picked => (sound m picked).1
  have live : (s.picks c ms).filter (fun m => (refused m).isNone) = s.picks c ms :=
    List.filter_eq_self.2 fun m picked => by simp [(sound m picked).2]
  have unmarked (m : Move) (picked : m ∈ s.picks c ms) : t.moveMark c refused m = none :=
    State.moveMark_eq_none (sound m picked).2 (clean m picked)
  have good : (s.picks c ms).filter (fun m => (t.moveMark c refused m).isNone) = s.picks c ms :=
    List.filter_eq_self.2 fun m picked => by simp [unmarked m picked]
  have no_mark : (s.picks c ms).findSome? (t.moveMark c refused) = none := List.findSome?_eq_none_iff.2 unmarked
  have error : firstMark c.error none = c.error := by cases c.error <;> rfl
  simp only [State.moveStep, ← Command.left.eq_1, ← Command.units.eq_1, ← State.picks.eq_1, no_fault, live, ready, good,
    no_mark, error, List.isEmpty_nil, Bool.not_true, Bool.false_eq_true, if_false]
  rfl

end

/-! Remote transfers (R356, R408, R409) -/

/-- The place of an address at the target context of a transfer within this package. -/
def State.peerSite (t : State) (c : Command) (tm : Team) (need : Need) (a : Word) : Site :=
  let ctx := (c.src2.extractLsb' 16 6).toNat
  if t.accepts ctx (t.tag tm.ctx) then t.outerSite ctx need a else .fault targetFault

/-- The bytes that a put reads, by address and place. -/
def State.putReads (s : State) (c : Command) (tm : Team) : List (Word × Site) :=
  (List.range (copyBytes c.shape)).map fun n => (srcAddr c n, s.site c tm .rd (srcAddr c n))

theorem State.putReads_sites (s : State) (c : Command) (tm : Team) : (s.putReads c tm).map Prod.snd =
    (List.range (copyBytes c.shape)).map fun n => s.site c tm .rd (srcAddr c n) := by
  simp [State.putReads]

theorem State.siteRead_eq_some {t : State} {x : Site} (clean : (t.siteByte x).2 = false) :
    t.siteRead x = some (t.siteByte x).1 := by
  simp [State.siteRead, clean]

section
variable {s : State} {c : Command} {tm : Team} (handle : badHandle c.src2 = false)
include handle

theorem State.startPut_here {t : State} (here : (c.src2.extractLsb' 0 16).toNat = s.package)
    (table : s.tableAsk (1348 + tm.core) c.id (c.src2.extractLsb' 16 6).toNat c.stamp = (t, true)) :
    s.startPut c tm = t.moveStep c tm (copyMoves c (t.site c tm .rd) (t.peerSite c tm .wr)) (Move.srcFault c)
      (fun m => m.dst.fault?.map fun _ => c.mark 0x71 (dstAddr c m.n)) id := by
  simp only [State.startPut, handle, bits, here, table, Bool.false_eq_true, if_false, if_true]
  rfl

theorem State.startGet_here {t : State} (here : (c.src2.extractLsb' 0 16).toNat = s.package)
    (table : s.tableAsk (1348 + tm.core) c.id (c.src2.extractLsb' 16 6).toNat c.stamp = (t, true)) :
    s.startGet c tm = t.moveStep c tm (copyMoves c (t.peerSite c tm .rd) (t.site c tm .wr)) (Move.dstFault c)
      (fun m => m.src.fault?.map fun _ => c.mark 0x71 (srcAddr c m.n)) id := by
  simp only [State.startGet, handle, bits, here, table, Bool.false_eq_true, if_false, bne_self_eq_false]
  rfl

theorem State.startGet_away (away : (c.src2.extractLsb' 0 16).toNat ≠ s.package) :
    s.startGet c tm = s.toFabric c tm (.get c.src2 ((List.range (copyBytes c.shape)).map (srcAddr c))) [] := by
  have sends : (bits c.src2 0 16 != s.package) = true := bne_iff_ne.2 away
  simp only [State.startGet, handle, sends, Bool.false_eq_true, if_false, if_true]

/-- R346, R356: what a put reads, none of it poisoned, goes to the peer. -/
theorem State.startPut_away {t : State} (away : (c.src2.extractLsb' 0 16).toNat ≠ s.package)
    (sound : ∀ x ∈ s.putReads c tm, x.2.fault? = none)
    (ready : s.cmdReady c tm ((s.putReads c tm).map Prod.snd) [] = (t, true))
    (clean : ∀ x ∈ s.putReads c tm, (t.siteByte x.2).2 = false) :
    s.startPut c tm = ((t.readsDone ((s.putReads c tm).map Prod.snd)).toFabric c tm
      (.put c.src2 ((List.range (copyBytes c.shape)).map (dstAddr c)))
      (((s.putReads c tm).map Prod.snd).map fun x => some (t.siteByte x).1)).modCmd c.id fun x => { x with error := none } := by
  have elsewhere : ¬bits c.src2 0 16 = s.package := away
  have no_fault : (s.putReads c tm).filterMap (fun x => x.2.fault?.map fun f => (f, x.1)) = [] :=
    List.filterMap_eq_nil_iff.2 fun x read => by simp [sound x read]
  have no_poison : (s.putReads c tm).find? (fun x => (t.siteByte x.2).2) = none :=
    List.find?_eq_none.2 fun x read => by simp [clean x read]
  have sent : (s.putReads c tm).map (fun x => t.siteRead x.2) =
      ((s.putReads c tm).map Prod.snd).map fun x => some (t.siteByte x).1 := by
    rw [List.map_map]
    exact List.map_congr_left fun x read => State.siteRead_eq_some (clean x read)
  have count : (s.putReads c tm).length = copyBytes c.shape := by simp [State.putReads]
  simp only [State.startPut, handle, elsewhere, ← State.putReads.eq_1, no_fault, ready, no_poison, sent, count,
    Bool.false_eq_true, if_false, List.isEmpty_nil, Bool.not_true, Option.map_none]

end

/-! `acc.zero` (R173) -/

/-- An `acc.zero` all of whose lines can be written, and stand in no gather buffer, writes zeros to each of their bytes. -/
theorem State.startAccZero_eq {s t u : State} {c : Command} {tm : Team} {n : Nat} {at_ : Nat → Xlat × Nat}
    (aligned : c.dst.toNat % 128 = 0)
    (sites : ∀ k < n, s.accSite c tm .accWr (tileLine c.dst k) = .mem (at_ k).1 (at_ k).2)
    (ready : s.cmdReady c tm [] (wholeLines ((List.range n).map fun k => .mem (at_ k).1 (at_ k).2)) = (t, true))
    (flushed : (List.range n).foldl (fun (acc : State × Bool) k =>
      ((acc.1.flushedLine (lineOf (at_ k).2)).1, acc.2 && (acc.1.flushedLine (lineOf (at_ k).2)).2)) (t, true) = (u, true)) :
    s.startAccZero c tm n = (u.writeSites ((List.range n).flatMap fun k => (List.range 128).map fun j =>
      (Site.mem (at_ k).1 ((at_ k).2 / 128 * 128 + j), (0 : Byte)))).moved u c (128 * n) none := by
  have starts_line : (bits c.dst 0 7 != 0) = false := by
    simpa [bits, BitVec.extractLsb'_toNat] using aligned
  have lines : (List.range n).map (fun k => (k, s.accSite c tm .accWr (tileLine c.dst k))) =
      (List.range n).map fun k => (k, Site.mem (at_ k).1 (at_ k).2) :=
    List.map_congr_left fun k inside => by rw [sites k (List.mem_range.1 inside)]
  have no_fault : ((List.range n).map fun k => (k, Site.mem (at_ k).1 (at_ k).2)).filterMap
      (fun l => l.2.fault?.map fun f => (f, tileLine c.dst l.1)) = [] := by
    simp [Site.fault?]
  have kept : (((List.range n).map fun k => (k, Site.mem (at_ k).1 (at_ k).2)).filter fun l => l.2.fault?.isNone &&
      (([] : List (XFault × Word)).isEmpty || (Config.freeWord 41 (s.agenda.free + l.1)).getLsbD 0)).map Prod.snd =
      (List.range n).map fun k => Site.mem (at_ k).1 (at_ k).2 := by
    rw [List.filter_eq_self.2 (by simp [Site.fault?]), List.map_map]
    rfl
  simp only [State.startAccZero, starts_line, lines, no_fault, kept, ready, List.foldl_map, flushed, List.flatMap_map]
  rfl

/-! `acc.fin` (R175 to R178) -/

/-- The lines of a tile, whole. -/
def State.tileWhole (s : State) (c : Command) (tm : Team) : List Site :=
  wholeLines ((List.range c.tileLines).map fun k => s.accSite c tm .accRw (tileLine c.src k))

/-- The images of a tile's lines. -/
def State.tileImages (u : State) (ls : List (Xlat × Nat)) : List (List Byte) :=
  ls.map fun l => u.homeBytes l.1.key (l.2 / 128 * 128) 128

/-- The status of line k of a tile with an image, where it stops the finalisation. -/
def State.tileStatus (u : State) (c : Command) (ls : List (Xlat × Nat)) (x : List Byte × Nat) : Option Nat :=
  lineStatus (c.src2.extractLsb' 0 32).toNat x.2 x.1 ((ls[x.2]?).any fun l => u.poisonOf (lineOf l.2) != 0)

/-- The product of the two scales of an `acc.fin`. -/
def Command.scale (c : Command) : Nat :=
  (Fmt.f48.mul 0 (Fmt.f32.val ((c.shape.getD 4 0).extractLsb' 0 32).toNat)
    (Fmt.f32.val ((c.shape.getD 4 0).extractLsb' 32 32).toNat)).1

/-- The draws of the lane that supplied the operands of a command. -/
def Team.draw (tm : Team) (c : Command) (e : Nat) : Nat :=
  ((tget? tm.warps c.warp).map fun w => w.a.draw c.lane e).getD 0

/-- The bytes that an `acc.fin` writes, by address and place. -/
def State.finWrites (u : State) (c : Command) (tm : Team) (ls : List (Xlat × Nat)) : List (Word × Site × Byte) :=
  (finBytes c (u.tileImages ls) c.scale (tm.draw c)).map fun b => (b.1, u.site c tm .wr b.1, b.2)

section
variable {s t u v : State} {c : Command} {tm : Team} {chk : Bool} {ls : List (Xlat × Nat)}
variable (tile : s.tileSites c tm .accRw c.src c.tileLines = .ok ls)
  (flushed : s.flushedOn c.team (ls.map fun l => lineOf l.2) = (t, true))
  (ready : t.cmdReady c tm (s.tileWhole c tm) [] = (u, true))
include tile flushed ready

theorem State.startAccFin_stopped {st : Nat} (stopped : (u.tileImages ls).zipIdx.findSome? (u.tileStatus c ls) = some st) :
    s.startAccFin c tm chk = u.finStatus u c st := by
  simp only [State.startAccFin, tile, flushed, ready, bits, ← State.tileWhole.eq_1, ← State.tileImages.eq_1,
    ← State.tileStatus.eq_1, stopped]

/-- A tile without fault has its lines marked FINALISED and its outputs written (R176). -/
theorem State.startAccFin_written (unstopped : (u.tileImages ls).zipIdx.findSome? (u.tileStatus c ls) = none)
    (passes : chk = true → ∀ x ∈ u.tileImages ls, checkFails x = false) (drawless : fmtRM c.fmt ≠ 4)
    (sound : ∀ x ∈ u.finWrites c tm ls, x.2.1.fault? = none)
    (writable : u.cmdReady c tm (s.tileWhole c tm)
      (s.tileWhole c tm ++ (u.finWrites c tm ls).map fun x => x.2.1) = (v, true)) :
    s.startAccFin c tm chk = ((v.writeSites (ls.flatMap fun l =>
      let stsc := fieldOf (v.homeBytes l.1.key (l.2 / 128 * 128) 128) 100 2
      [(.mem l.1 (l.2 / 128 * 128 + 101), BitVec.ofNat 8 ((stsc % 2 ^ 14 + 2 ^ 15) / 256))])).writeSites
        ((u.finWrites c tm ls).map Prod.snd)).finStatus v c 0 := by
  have unfailed : (if chk then (u.tileImages ls).zipIdx.find? (fun x => checkFails x.1) else none) = none := by
    split
    · next checked =>
      exact List.find?_eq_none.2 fun x image => by simp [passes checked x.1 (List.fst_mem_of_mem_zipIdx image)]
    · rfl
  have no_fault : (u.finWrites c tm ls).filterMap (fun x => x.2.1.fault?.map fun f => (f, x.1)) = [] :=
    List.filterMap_eq_nil_iff.2 fun x write => by simp [sound x write]
  have no_bad : (u.finWrites c tm ls).filter (fun x => x.2.1.fault?.isSome) = [] :=
    List.filter_eq_nil_iff.2 fun x write => by simp [sound x write]
  have kept : (u.finWrites c tm ls).filter (fun x => x.2.1.fault?.isNone &&
      keepPiece u.agenda.free [] (0, 0, x.1.toNat / 128, 0) (x.1.toNat / 128)) = u.finWrites c tm ls :=
    List.filter_eq_self.2 fun x write => by simp [sound x write, keepPiece]
  simp only [State.startAccFin, tile, flushed, ready, bits, ← State.tileWhole.eq_1, ← State.tileImages.eq_1,
    ← State.tileStatus.eq_1, unstopped, unfailed, ← Command.scale.eq_1, Option.map_map, Function.comp_def, ← Team.draw.eq_1]
  simp only [← State.finWrites.eq_1, no_fault, no_bad, List.map_nil, kept, writable, drawless]
  rfl

end

/-! The end of a command, and its signal -/

theorem exec_commandComplete {s : State} {c : Command} {k : Nat} (held : s.cmd? c.id = some c) (moved : c.st = .moved k)
    (applied : ∀ e ∈ s.engines.emissions, e.cmd ≠ c.id) (complete : ∀ n ∈ c.acks, s.openId n = false) :
    exec (.commandComplete c.id) s = .next ((s.finResult c).signalCommand c k) := by
  have ended : ((s.engines.emissions.any fun e => e.cmd == c.id) || c.acks.any s.openId) = false := by
    simpa using ⟨applied, complete⟩
  show execCommandComplete c.id s = _
  simp only [execCommandComplete, held, moved, ended]
  rfl

section
variable (s : State) (c : Command) (bytes : Nat)

/-- The state without the command. -/
def State.withoutCmd : State := (s.unclaimCmd c).dropCmd c.id

theorem State.withoutCmd_team? (t : Nat) : (s.withoutCmd c).team? t = s.team? t := by
  unfold State.withoutCmd State.unclaimCmd State.forget
  split <;> rfl

theorem State.signalCommand_rendezvous (target : c.tkind = 1) {r : Rv}
    (credited : (s.team? c.team).map (fun tm => (tm.rv c.tindex).credit c.phase bytes) = some (some r)) :
    s.signalCommand c bytes = ((s.withoutCmd c).modTeam c.team fun tm => tm.setRv c.tindex { r with
      marks := r.marks ++ (c.error.map fun x => (c.phase.toNat, x)).toList }).reapAll := by
  rw [← State.withoutCmd_team? s c] at credited
  simp only [State.signalCommand, ← State.withoutCmd.eq_1, target, credited]

theorem State.signalCommand_counter (target : c.tkind = 2) :
    s.signalCommand c bytes = ((s.withoutCmd c).modSlice c.team c.warp .a fun x => { x.count c.tindex with
      marks := x.marks ++ (c.error.map fun y => (c.tindex, y)).toList }).reapAll := by
  simp only [State.signalCommand, ← State.withoutCmd.eq_1, target]

theorem State.signalCommand_yield (target : c.tkind = 3) :
    s.signalCommand c bytes = ((((s.withoutCmd c).modWarp c.team c.warp fun w => { w with yields := w.yields - 1 }).modSlice
      c.team c.warp .a fun x => { x with
        marks := x.marks ++ (c.error.map fun y => (yieldMark, y)).toList }).restartYields c.team c.warp).reapAll := by
  simp only [State.signalCommand, ← State.withoutCmd.eq_1, target]

end

/-! A peer's answer (R346, R356, R408, R409) -/

/-- The state in which a command has its answer. -/
def State.answered (s : State) (c : Command) (r : Reply) : State := s.modCmd c.id fun x => { x with reply := some r }

section
variable {s : State} {c : Command} {tm : Team} (held : s.cmd? c.id = some c) (team : s.cmdTeam c = some tm)
  (awaits : c.awaitsPeer = true)
include held awaits

theorem exec_peerTimeout (kind : c.kind = .put ∨ c.kind = .get ∨ c.kind = .coll) :
    exec (.peerTimeout c.id) s = .next (s.moved s c 0 (firstMark c.error (some (c.mark 0x71 c.dst)))) := by
  show execPeerTimeout c.id s = _
  obtain kind | kind | kind := kind <;> simp [execPeerTimeout, held, kind, awaits]

include team

theorem exec_remoteResponse {r : Reply} (fits : c.fits r = true) :
    exec (.remoteResponse c.id r) s = .next ((s.answered c r).takeReply { c with reply := some r } tm) := by
  have resident : s.team? c.team = some tm := by
    obtain ⟨tm', there, here⟩ := Option.bind_eq_some_iff.1 team
    split at here
    · rw [there, here]
    · cases here
  show execRemoteResponse c.id r s = _
  simp only [execRemoteResponse, held, resident, awaits, fits]
  rfl

theorem exec_remoteResponse_refused (kind : c.kind = .put ∨ c.kind = .get ∨ c.kind = .coll) :
    exec (.remoteResponse c.id .refused) s = .next ((s.answered c .refused).moved (s.answered c .refused) c 0
      (firstMark c.error (some (c.mark 0x71 c.dst)))) := by
  have fits : c.fits .refused = true := by
    obtain kind | kind | kind := kind <;> simp only [Command.fits, kind]
  rw [exec_remoteResponse held team awaits fits]
  obtain kind | kind | kind := kind <;> simp only [State.takeReply, kind] <;> rfl

theorem exec_remoteResponse_done (kind : c.kind = .put) :
    exec (.remoteResponse c.id .done) s = .next ((s.answered c .done).moved (s.answered c .done) c
      (present (s.sentBy c.id)).length c.error) := by
  have fits : c.fits .done = true := by simp only [Command.fits, kind]
  rw [exec_remoteResponse held team awaits fits]
  simp only [State.takeReply, kind]
  rfl

theorem exec_remoteResponse_part (kind : c.kind = .put) (k : Nat) :
    exec (.remoteResponse c.id (.part k)) s = .next ((s.answered c (.part k)).moved (s.answered c (.part k)) c
      (min k (present (s.sentBy c.id)).length) (firstMark c.error (some (c.mark 0x71 c.dst)))) := by
  have fits : c.fits (.part k) = true := by simp only [Command.fits, kind]
  rw [exec_remoteResponse held team awaits fits]
  simp only [State.takeReply, kind]
  rfl

theorem exec_remoteResponse_get (kind : c.kind = .get) {bs : List (Option Byte)} (size : bs.length = copyBytes c.shape) :
    exec (.remoteResponse c.id (.data bs)) s = .next ((s.answered c (.data bs)).landReply
      { c with reply := some (.data bs) } tm (dstAddr c) bs) := by
  have fits : c.fits (.data bs) = true := by simp only [Command.fits, kind, size, beq_self_eq_true]
  rw [exec_remoteResponse held team awaits fits]
  simp only [State.takeReply, kind]
  rfl

theorem exec_remoteResponse_coll (kind : c.kind = .coll) {bs : List (Option Byte)}
    (size : bs.length = collSize (c.shape.drop 4) * copyBytes c.shape) :
    exec (.remoteResponse c.id (.data bs)) s = .next (
      let out := collResult s.agenda.free (c.shape.drop 4) (s.sentBy c.id) bs
      ((s.answered c (.data bs)).landReply { c with reply := some (.data bs) } tm
        (fun k => collDest (c.shape.drop 4) + BitVec.ofNat 64 k) out).tookFree out.length) := by
  have fits : c.fits (.data bs) = true := by simp only [Command.fits, kind, size, beq_self_eq_true]
  rw [exec_remoteResponse held team awaits fits]
  simp only [State.takeReply, kind]
  rfl

end

/-! The statement -/

/-- Settles O41: each clause is the event's lemma above. The bytes of a step are those of the line pairs that the engine
picks, and each gets the value that its source had, since the step writes no source of its own bytes. -/
theorem commandEvents : Obligations.CommandEvents := by
  intro s c tm held team
  refine ⟨?starts, ?moves, ?steps, ?remote, ?zero, ?fin, ?complete, ?signals, ?answers⟩
  case starts =>
    intro head
    refine ⟨fun verdict running reply => exec_commandStart_reply held team head verdict running reply,
      fun verdict queued => exec_commandStart_discarded held team head verdict queued, fun verdict after => ?_⟩
    have begins := exec_commandStart_begins held team head verdict after
    refine ⟨fun stands => ?_, fun queued => ?_, fun f kind stands => ?_⟩
    · have begun := begins (stands.imp_right fun ⟨running, reply, more⟩ => ⟨running, reply, .inr more⟩)
      refine ⟨fun kind => ?_, fun kind => ?_, fun kind => ?_⟩
      · rw [begun, State.beginCommand, kind]; rfl
      · rw [begun, State.beginCommand, kind]
      · rw [begun, State.beginCommand, kind]
    · have begun := begins (.inl queued)
      refine ⟨fun kind => ?_, fun k kind => ?_, fun k kind finReady => ?_⟩
      · rw [begun, State.beginCommand, kind]
      · rw [begun, State.beginCommand, kind]
      · simp only [begun, State.beginCommand, kind, finReady, if_true]
    · have feed : c.isFeed = true := by rw [Command.isFeed, kind]
      rw [begins (stands.imp_right fun ⟨running, reply⟩ => ⟨running, reply, .inl feed⟩), State.beginCommand, kind]
  case moves =>
    intro bytes row at_ src dst n
    rw [copyMoves_getElem?, copyBytes_eq]
    rfl
  case steps =>
    intro ms stop refused credit todo some_left nodup
    refine ⟨s.picks c ms, max 1 (c.units ms).length, s.picks_sublist c ms, State.picks_ne_nil some_left,
      fun m left p picked unit => State.mem_picks_of_unit left picked unit, State.moveStep_stops, ?_⟩
    intro t sound ready clean
    refine ⟨_, fun m picked apart => ?_, State.moveStep_performs sound ready clean⟩
    have once : ((s.picks c ms).map Move.n).Nodup :=
      nodup.sublist (((s.picks_sublist c ms).trans List.filter_sublist).map Move.n)
    rw [moveVal_eq_old apart, State.sourceByte_eq t once picked]
  case remote =>
    intro handle ctx mark
    refine ⟨fun here t table => ⟨State.startPut_here handle here table, State.startGet_here handle here table⟩,
      fun away => ⟨State.startGet_away handle away, ?_⟩⟩
    intro xs t sound ready clean
    have reads : (s.putReads c tm).map Prod.snd = xs := s.putReads_sites c tm
    have of_sites {p : Site → Prop} (all : ∀ x ∈ xs, p x) (x) (read : x ∈ s.putReads c tm) : p x.2 :=
      all _ (reads ▸ List.mem_map_of_mem read)
    rw [State.startPut_away handle away (of_sites sound) (reads ▸ ready) (of_sites clean), reads]
  case zero =>
    intro n at_ t u aligned sites ready flushed
    exact State.startAccZero_eq aligned sites ready flushed
  case fin =>
    intro chk ls t u v tile whole flushed ready imgs
    refine ⟨fun st stopped => State.startAccFin_stopped tile flushed ready stopped, ?_⟩
    intro unstopped passes drawless scale out dest sound writable
    have writes : (u.finWrites c tm ls).map Prod.snd = dest := by
      simp only [State.finWrites, dest, List.map_map]
      rfl
    have places : (u.finWrites c tm ls).map (fun x => x.2.1) = dest.map Prod.fst := by
      rw [← writes, List.map_map]
      rfl
    rw [State.startAccFin_written tile flushed ready (List.findSome?_eq_none_iff.2 unstopped) passes drawless
      (fun x write => sound _ (writes ▸ List.mem_map_of_mem write)) (places ▸ writable), writes]
  case complete =>
    intro k moved applied complete
    exact exec_commandComplete held moved applied complete
  case signals =>
    refine ⟨?_, ?_, ?_⟩
    · rintro k e r target credited rfl
      exact s.signalCommand_rendezvous c k target credited
    · rintro k e target rfl
      exact s.signalCommand_counter c k target
    · rintro k e target rfl
      exact s.signalCommand_yield c k target
  case answers =>
    intro running unanswered whole took mark sent
    have awaits : c.awaitsPeer = true := by
      simp [Command.awaitsPeer, Command.inPieces, running, unanswered, whole]
    exact ⟨fun kind => ⟨exec_peerTimeout held awaits kind, exec_remoteResponse_refused held team awaits kind⟩,
      fun kind => ⟨exec_remoteResponse_done held team awaits kind, exec_remoteResponse_part held team awaits kind⟩,
      fun kind _ size => exec_remoteResponse_get held team awaits kind size,
      fun kind _ size => exec_remoteResponse_coll held team awaits kind size⟩

end Sys2Proof.Machine

/-! SUPPORT. What `lea.priv`, `sr.get` and `sr.set` do, and the statement about them. -/

namespace Sys2Proof.Machine

/-! Lanes -/

theorem lowLane_maskBy_eq_none {p : Nat → Bool} (unset : ∀ l < 32, p l = false) : lowLane (maskBy p) = none := by
  simp only [lowLane, List.find?_eq_none, List.mem_range]
  intro l lane
  rw [maskBy_getLsbD lane, unset l lane]
  exact Bool.false_ne_true

/-! Private pointers (R24, R26 to R29) -/

theorem alias_eq_aliasFor (tm : Team) (x : Word) (t : Nat) : tm.alias_ x t = aliasFor tm x t := by
  have tag : bits x 60 4 = 0xA ↔ x.extractLsb' 60 4 = 0xA#4 := (BitVec.toNat_inj (y := 0xA#4))
  have offset : BitVec.ofNat 64 (bits x 0 60) = (x.extractLsb' 0 60).setWidth 64 := BitVec.ofNat_toNat 64 _
  have sum : tm.privBase + BitVec.ofNat 64 (t * tm.privSize + bits x 0 60) =
      tm.privBase + BitVec.ofNat 64 (t * tm.privSize) + (x.extractLsb' 0 60).setWidth 64 := by
    rw [BitVec.ofNat_add, offset, BitVec.add_assoc]
  have untagged : (bits x 60 4 != 0xA || decide (tm.privSize ≤ bits x 0 60)) = true ↔
      ¬(x.extractLsb' 60 4 = 0xA#4 ∧ (x.extractLsb' 0 60).toNat < tm.privSize) := by
    rw [← tag, Bool.or_eq_true, bne_iff_ne, decide_eq_true_eq, Decidable.not_and_iff_not_or_not, Nat.not_lt]
    rfl
  rw [Team.alias_, aliasFor, sum]
  by_cases sound : x.extractLsb' 60 4 = 0xA#4 ∧ (x.extractLsb' 0 60).toNat < tm.privSize
  · rw [if_pos sound, if_neg fun faults => untagged.mp faults sound]
  · rw [if_neg sound, if_pos (untagged.mpr sound)]

/-- The address that `lea.priv` gives a lane, by the thread numbers of the lanes; none when the lane faults. -/
def Issue.privAlias (i : Issue) (a : Opd) (thread : Nat → Option Nat) (l : Nat) : Option Word :=
  (thread l).bind (aliasFor i.tm (i.sl.read .a l 64 a))

/-- The active lanes of a `lea.priv` that fault. -/
def Issue.badPriv (i : Issue) (h : Head) (a : Opd) (thread : Nat → Option Nat) : Mask :=
  maskBy fun l => (i.active h.guard).getLsbD l && (i.privAlias a thread l).isNone

theorem leaPriv_eq (s : State) {i : Issue} {h : Head} (d a : Opd) (thread : Nat → Option Nat)
    (active : i.active h.guard ≠ 0) :
    s.leaPriv i h d a thread = match lowLane (i.badPriv h a thread) with
      | some l => s.raiseAt i (Trap.ofLanes i privFault (i.badPriv h a thread) (i.sl.read .a l 64 a))
      | none => (s.deliver i (i.active h.guard) d 64
          (laneVals (i.active h.guard) fun l => (i.privAlias a thread l).getD 0)).advance i h.mark := by
  have aliases (l : Nat) : ((thread l).bind fun t => i.tm.alias_ (i.sl.read .a l 64 a) t) = i.privAlias a thread l := by
    simp only [alias_eq_aliasFor]
    rfl
  simp only [State.leaPriv, if_neg active, maskOf_eq_maskBy, aliases]
  rfl

section
variable {s : State} {i : Issue} {h : Head} {d a : Opd} {thread : Nat → Option Nat}
variable (active : i.active h.guard ≠ 0)
include active

/-- R29: where no active lane faults, every one gets its address. -/
theorem leaPriv_delivers
    (all : ∀ l, (i.active h.guard).getLsbD l = true → (i.privAlias a thread l).isSome = true) :
    s.leaPriv i h d a thread = (s.deliver i (i.active h.guard) d 64
      (laneVals (i.active h.guard) fun l => (i.privAlias a thread l).getD 0)).advance i h.mark := by
  have sound : lowLane (i.badPriv h a thread) = none := lowLane_maskBy_eq_none fun l _ => by
    cases lane : (i.active h.guard).getLsbD l
    · rfl
    · rw [Bool.true_and, Option.isNone_eq_false_iff.mpr (all l lane)]
  rw [leaPriv_eq s d a thread active, sound]

/-- R26: where some lane faults, no lane gets an address. -/
theorem leaPriv_faults {l : Nat} (low : lowLane (i.badPriv h a thread) = some l) :
    s.leaPriv i h d a thread = s.raiseAt i { Trap.ofWord i 1 0x08 0 with
      lanes := i.badPriv h a thread, addr := i.sl.read .a l 64 a } := by
  rw [leaPriv_eq s d a thread active, low]
  rfl

end

/-- The thread number that `lea.priv` takes from a lane of a source; none past the launch's last thread. -/
def Issue.threadNamed (i : Issue) (b : Opd) (l : Nat) : Option Nat :=
  if (i.sl.read .a l 64 b).toNat < 32 * i.tm.nwarps * (i.tm.gx * i.tm.gy * i.tm.gz)
  then some (i.sl.read .a l 64 b).toNat else none

/-- The thread number of a lane of the issuing warp. -/
def Issue.threadOwn (i : Issue) (l : Nat) : Option Nat := some (i.tm.thread i.ref.warp l)

theorem privAlias_threadNamed (i : Issue) (a b : Opd) (l : Nat) :
    i.privAlias a (i.threadNamed b) l =
      if (i.sl.read .a l 64 b).toNat < 32 * i.tm.nwarps * (i.tm.gx * i.tm.gy * i.tm.gz)
      then aliasFor i.tm (i.sl.read .a l 64 a) (i.sl.read .a l 64 b).toNat else none := by
  rw [Issue.privAlias, Issue.threadNamed]
  split <;> rfl

theorem exec_leaPriv {s : State} {i : Issue} (h : Head) (d a b : Opd) (ready : s.Ready i) :
    exec (.leaPriv h d a b) s = .next (s.leaPriv i h d a (i.threadNamed b)) := by
  show execLeaPriv h d a b s = _
  rw [execLeaPriv, word_ready ready]
  rfl

theorem exec_leaPrivSelf {s : State} {i : Issue} (h : Head) (d a : Opd) (ready : s.Ready i) :
    exec (.leaPrivSelf h d a) s = .next (s.leaPriv i h d a i.threadOwn) := by
  show execLeaPrivSelf h d a s = _
  rw [execLeaPrivSelf, word_ready ready]
  rfl

/-! Special registers (R196, R272 to R274) -/

/-- A stream looked up is the one asked for, and its split has the number asked for. -/
theorem issue?_names {s : State} {r : StreamRef} {i : Issue} (looked : s.issue? r = some i) :
    i.ref = r ∧ i.sp.num = r.split := by
  unfold State.issue? at looked
  split at looked
  · cases looked
  · split at looked
    · cases looked
    · split at looked
      · cases looked
      · next sp found =>
        cases looked
        exact ⟨rfl, eq_of_beq (List.find?_some (p := fun x : Split => x.num == r.split) found)⟩

theorem special_eq_registerValue {i : Issue} (named : i.sp.num = i.ref.split) (s : State) (l : Nat) (n : SReg) :
    s.special i l n = registerValue s i l n := by
  cases n <;> simp only [State.special, registerValue, named] <;> rfl

theorem srWidth_eq (sl : Slice) (n : SReg) : srWidth sl n = match sl with | .a => 64 | .c => SReg.w n := by
  cases sl
  · rfl
  · cases n <;> rfl

/-- `sr.get` delivers the register's value; `$clk` goes on before it is read. -/
theorem exec_srGet {s : State} {i : Issue} {h : Head} {d : Opd} (n : SReg) (ready : s.Ready i)
    (active : i.active h.guard ≠ 0) (room : i.pushWait d = none) :
    exec (.srGet h d n) s = .next
      (let t := if n = .clk then s.tickClk (dieOf i.tm.core) else s
       (t.deliver i (i.active h.guard) d (srWidth i.ref.slice n)
        (laneVals (i.active h.guard) fun l => registerValue t i l n)).advance i h.mark) := by
  obtain ⟨-, named⟩ := issue?_names ready.looked
  show execSrGet h d n s = _
  rw [execSrGet, word_ready ready]
  dsimp only [State.lanewise]
  rw [if_neg active, room]
  dsimp only
  rw [withSources_reads (.registers rfl) active, srWidth_eq]
  simp only [special_eq_registerValue named] <;> rfl

theorem bits_eq_div_mod (v : Word) (lo n : Nat) : bits v lo n = v.toNat / 2 ^ lo % 2 ^ n := by
  rw [bits, BitVec.extractLsb'_toNat, Nat.shiftRight_eq_div_pow]

/-- The two parts of a word above its low halfword are zero when its number is below 2^16. -/
theorem upperParts_eq_zero_iff (v : Word) :
    v.extractLsb' 32 32 = 0#32 ∧ (v.setWidth 32).extractLsb' 16 16 = (0 : BitVec 16) ↔ v.toNat < 65536 := by
  rw [← BitVec.toNat_inj, ← BitVec.toNat_inj, BitVec.extractLsb'_toNat, BitVec.extractLsb'_toNat, BitVec.toNat_setWidth,
    Nat.shiftRight_eq_div_pow, Nat.shiftRight_eq_div_pow]
  have bound := v.isLt
  show v.toNat / 2 ^ 32 % 2 ^ 32 = 0 ∧ v.toNat % 2 ^ 32 / 2 ^ 16 % 2 ^ 16 = 0 ↔ v.toNat < 65536
  omega

/-- R196: `$slip` takes the values that its 32 bits and the zeros above them admit. -/
theorem slipLegal_eq (v : Word) : slipLegal v = (v.extractLsb' 32 32 == 0#32 && slipOk (v.setWidth 32)) := by
  have nibble (small : v.toNat < 65536) (k : Nat) :
      bits ((v.setWidth 32).setWidth 64) k 4 = v.toNat / 2 ^ k % 2 ^ 4 := by
    rw [bits_eq_div_mod, BitVec.toNat_setWidth_of_le (by decide), BitVec.toNat_setWidth,
      Nat.mod_eq_of_lt (a := v.toNat) (by omega)]
  rw [Bool.eq_iff_iff, slipLegal, slipOk, Bool.and_eq_true, Bool.and_eq_true, Bool.and_eq_true, decide_eq_true_eq, beq_iff_eq,
    beq_iff_eq, ← and_assoc, upperParts_eq_zero_iff]
  refine and_congr_right fun small => ?_
  simp only [nibble small]
  rfl

/-- What `sr.set` does with a value v of the lowest active lane: s is the state before its source was read, and t after. -/
def Issue.srSet (i : Issue) (h : Head) (n : SReg) (s t : State) (v : Word) : State :=
  if n = .link then (t.modIssuer i fun sp => { sp with link := v }).advance i h.mark
  else if n = .slip ∧ i.ref.slice = .a ∧ slipLegal v = true then
    (t.modWarp i.ref.team i.ref.warp fun w => { w with slip := v.setWidth 32 }).advance i h.mark
  else s.decodeTrap i 6 0x39 0

theorem srSet_slip (i : Issue) (h : Head) (s t : State) (v : Word) :
    i.srSet h .slip s t v =
      if i.ref.slice = .a && v.extractLsb' 32 32 == 0#32 && slipOk (v.setWidth 32) then
        (t.modWarp i.ref.team i.ref.warp fun w => { w with slip := v.setWidth 32 }).advance i h.mark
      else s.decodeTrap i 6 0x39 0 := by
  rw [Issue.srSet, if_neg (by decide)]
  refine ite_congr (propext ?_) (fun _ => rfl) (fun _ => rfl)
  simp only [slipLegal_eq, Bool.and_eq_true, decide_eq_true_eq, true_and, and_assoc]

theorem srSet_other {n : SReg} (link : n ≠ .link) (slip : n ≠ .slip) (i : Issue) (h : Head) (s t : State) (v : Word) :
    i.srSet h n s t v = s.decodeTrap i 6 0x39 0 := by
  rw [Issue.srSet, if_neg link, if_neg fun legal => slip legal.1]

/-- `sr.set` acts by the value of the lowest active lane. -/
theorem exec_srSet {s : State} {i : Issue} {h : Head} (n : SReg) (a : Opd) (ready : s.Ready i)
    (active : i.active h.guard ≠ 0) :
    exec (.srSet h n a) s = .next (s.withSources i (i.active h.guard) [a] fun s t m rd =>
      match lowLane m with
      | none => t.advance i h.mark
      | some l => i.srSet h n s t (rd 0 l (srWidth i.ref.slice n))) := by
  show execSrSet h n a s = _
  rw [execSrSet, word_ready ready]
  dsimp only
  rw [if_neg active]
  congr 2
  funext s t m rd
  cases lowLane m
  case none => rfl
  case some l =>
    rw [srWidth_eq]
    dsimp only
    split
    next => exact (srSet_slip ..).symm
    next => rfl
    next slip link => exact (srSet_other link slip ..).symm

/-- Settles O5: `lea.priv` in its two forms by the addresses of the lanes, `sr.get` by the table of R272, and `sr.set` by the
value of the lowest active lane. -/
theorem specialRegisters : Obligations.SpecialRegisters := by
  refine ⟨?priv, fun h d a n => ⟨?get, ?set⟩⟩
  case priv =>
    intro h d a b s i ready _ active x goal
    have reach {ins : Instr} {thread : Nat → Option Nat}
        (means : exec ins s = .next (s.leaPriv i h d a thread)) : goal ins (i.privAlias a thread) := by
      refine ⟨fun all => ?_, fun low bad lanes lowest => ?_⟩
      · rw [means, leaPriv_delivers active all]
      · subst lanes
        rw [means, leaPriv_faults active lowest]
        rfl
    have named := reach (exec_leaPriv h d a b ready)
    rw [funext (privAlias_threadNamed i a b)] at named
    exact ⟨named, reach (exec_leaPrivSelf h d a ready)⟩
  case get =>
    intro s i ready active room
    exact exec_srGet n ready active room
  case set =>
    refine wordActs_of (fun s i ready idle => ?_) fun s i ready active _ => exec_srSet n a ready active
    show execSrSet h n a s = _
    rw [execSrSet, word_ready ready, if_pos idle]

end Sys2Proof.Machine

/-! SUPPORT. What the start and the end of a range walk and the fetch of a word do, and the statement about them. -/

namespace Sys2Proof.Machine

/-! Range walks (R42 to R44) -/

/-- The cores are tried in turn: the first of them that has a walk waiting is served. -/
theorem find?_next_core {p : Nat → Bool} {last k : Nat} (inDie : k < 16) (waits : p ((last + 1 + k) % 16) = true)
    (earlier : ∀ j < k, p ((last + 1 + j) % 16) = false) :
    ((List.range 16).map fun j => (last + 1 + j) % 16).find? p = some ((last + 1 + k) % 16) := by
  have first : (List.range 16).find? (p ∘ fun j => (last + 1 + j) % 16) = some k :=
    List.find?_range_eq_some.mpr ⟨waits, List.mem_range.mpr inDie, fun j before => by
      simp only [Function.comp_apply, earlier j before, Bool.not_false]⟩
  rw [List.find?_map, first]
  rfl

/-- R42: a free walker takes the oldest waiting walk of the core served. -/
theorem exec_rangeWalkStart {s : State} {die k : Nat} {w : PendWalk} (inPackage : die < 64) (free : s.walking die < 32)
    (served : ((List.range 16).map fun j => (tget s.engines.walkLast die 15 + 1 + j) % 16).find? (fun j =>
      (s.core (die * 16 + j)).walks.any fun v => !v.started) = some k)
    (oldest : (s.core (die * 16 + k)).walks.find? (fun v => !v.started) = some w) :
    exec (.rangeWalkStart die) s = .next
      (let t := s.modCore (die * 16 + k) fun c => { c with
        walks := c.walks.map fun (v : PendWalk) => if v = w then { v with started := true } else v }
       { t with engines := { t.engines with walkLast := tset t.engines.walkLast die k } }) := by
  have able : ¬(decide (Config.dies ≤ die) || decide (32 ≤ s.walking die)) = true := by
    rw [Bool.or_eq_true, decide_eq_true_eq, decide_eq_true_eq, not_or]
    exact ⟨Nat.not_le.mpr inPackage, Nat.not_le.mpr free⟩
  show execRangeWalkStart die s = _
  simp only [execRangeWalkStart, if_neg able, served, oldest]

/-- The fault that a walk's result is, for the accesses that wait for it. -/
def walkFault (r : Except XFault RBuf) : Option XFault :=
  match r with
  | .ok _ => none
  | .error f => some f

section
variable {s : State} {core ctx region : Nat} {w : PendWalk}
variable (started : (s.core core).walks.find? (fun v => v.started && v.ctx == ctx && v.region == region) = some w)
include started

theorem exec_rangeWalkComplete_wait {t : State} (lines : s.walkLines ctx core w.va = (t, false)) :
    exec (.rangeWalkComplete core ctx region) s = .next t := by
  show execRangeWalkComplete core ctx region s = _
  simp only [execRangeWalkComplete, started, lines]

/-- R44: with the lines of the search read, a walk ends by its result. -/
theorem exec_rangeWalkComplete_ends {t : State} {r : Except XFault RBuf} (lines : s.walkLines ctx core w.va = (t, true))
    (result : t.walkResult ctx w.va = r) :
    exec (.rangeWalkComplete core ctx region) s = .next (((t.modCore core fun c => c.endWalk w r).resolveCore core
      (some (ctx, region, walkFault r))).pump) := by
  show execRangeWalkComplete core ctx region s = _
  rw [execRangeWalkComplete, started]
  dsimp only
  rw [lines]
  dsimp only
  rw [result]
  rfl

end

theorem walkResult_none {s : State} {ctx : Nat} {va : Word} (none : s.walk ctx va = none) :
    s.walkResult ctx va = .error noMap := by
  simp only [State.walkResult, none]

theorem walkResult_some {s : State} {ctx n : Nat} {va : Word} {d : Desc} {a b c e : Word}
    (found : s.walk ctx va = some n) (desc : s.descAt ctx n = (d, a, b, c, e)) :
    s.walkResult ctx va = match s.descFault? ctx d with
      | some f => .error f
      | none => .ok ⟨ctx, n, a, b, c, e, 0⟩ := by
  simp only [State.walkResult, found, desc] <;> rfl

/-! Fetched words (R378 to R380) -/

/-- The word fetched at an address joins those of its split, which waits for it no more. -/
theorem Split.fetch_eq (sp : Split) (a w : Word) :
    sp.fetch a w = { sp with
      fetched := sp.fetched ++ [(a, w)]
      wait := if a = sp.pc ∧ sp.wait = .fetch then .none else sp.wait } := by
  simp only [Split.fetch, Bool.and_eq_true, decide_eq_true_eq, beq_iff_eq]

/-- What a stream's read of code at an address that it may fetch comes to. -/
theorem exec_instructionFetchFill {s t : State} {r : StreamRef} {i : Issue} {a : Word} {read : Code}
    (looked : s.issue? r = some i) (allowed : i.allowed = true) (fetches : i.sp.mayFetch a = true)
    (code : s.code ⟨i.tm.core, i.tm.ctx, r, true⟩ a 8 4 = (t, read)) :
    exec (.instructionFetchFill r a) s = .next (match read with
      | .ok bs => (t.forget i.tm.core (.fetch r)).modSplit r fun sp => sp.fetch a (leWord bs)
      | .wait => t
      | .poison => if a = i.sp.pc then t.killSplit i else s
      | .fault f v => if a = i.sp.pc then t.fetchFault i f v else s) := by
  show execInstructionFetchFill r a s = _
  simp only [execInstructionFetchFill, looked, allowed, fetches, code]
  cases read <;> rfl

/-- Settles O33: the start of a walk by the search for the core served, its end by its result, and a fetch by what the read of
code gives. -/
theorem walksAndFetch : Obligations.WalksAndFetch := by
  refine ⟨⟨?start, ?complete⟩, ?fetch⟩
  case start =>
    intro s die k w inPackage free inDie last core earlier oldest
    have waits : (s.core (core k)).walks.any (fun v => !v.started) = true :=
      List.any_eq_true.mpr ⟨w, List.mem_of_find?_eq_some oldest, List.find?_some (p := fun v : PendWalk => !v.started) oldest⟩
    refine exec_rangeWalkStart inPackage free (find?_next_core inDie waits fun j before => ?_) oldest
    simpa only [List.any_eq_false, Bool.not_eq_true', Bool.not_eq_false] using earlier j before
  case complete =>
    intro s core ctx region w started
    refine ⟨fun t => exec_rangeWalkComplete_wait started, ?_⟩
    intro t lines done
    refine ⟨fun none => ?_, ?_⟩
    · rw [exec_rangeWalkComplete_ends started lines (walkResult_none none)]
      rfl
    · intro n d a b c e found desc
      rw [exec_rangeWalkComplete_ends started lines (walkResult_some found desc)]
      cases t.descFault? ctx d <;> rfl
  case fetch =>
    intro s t r i a looked allowed fetches read
    refine ⟨fun bs code => ?_, fun code => ?_, fun code => ?_, fun f v code => ?_⟩ <;>
      rw [exec_instructionFetchFill looked allowed fetches code]
    · simp only [Split.fetch_eq]
    · rfl
    · rfl

end Sys2Proof.Machine

/-! SUPPORT. What a write to a control register does, one lemma for each kind of register, and the statement about them. -/

namespace Sys2Proof.Machine

/-! The address map and the windows (R47, R49, R405) -/

theorem amapCtrlMask_keeps_valid (v : Word) : (v &&& amapCtrlMask).getLsbD 63 = v.getLsbD 63 := by
  rw [BitVec.getLsbD_and, show amapCtrlMask.getLsbD 63 = true from rfl, Bool.and_true]

theorem hdmhMask_keeps_valid (n : Nat) (v : Word) : (v &&& Reg.mask (.hdmh n)).getLsbD 63 = v.getLsbD 63 := by
  have valid : (Reg.mask (.hdmh n)).getLsbD 63 = true := by rw [Reg.mask]; rfl
  rw [BitVec.getLsbD_and, valid, Bool.and_true]

section
variable {s : State} {n : Nat} {v : Word}

theorem writeAmapCtrl_of_valid (valid : (s.reg (.amapCtrl n)).getLsbD 63 = true) :
    s.writeAmapCtrl n v =
      if v.getLsbD 63 then s.reject 5 n else s.setReg (.amapCtrl n) (setBits (s.reg (.amapCtrl n)) 63 1 0) := by
  simp only [State.writeAmapCtrl, valid, if_true, amapCtrlMask_keeps_valid]

theorem writeAmapCtrl_validates (invalid : (s.reg (.amapCtrl n)).getLsbD 63 = false) (sets : v.getLsbD 63 = true) :
    s.writeAmapCtrl n v =
      if s.amapCause (s.amapOf n (v &&& amapCtrlMask)) = 0 then s.setReg (.amapCtrl n) (v &&& amapCtrlMask)
      else s.reject (s.amapCause (s.amapOf n (v &&& amapCtrlMask))) n := by
  simp only [State.writeAmapCtrl, invalid, amapCtrlMask_keeps_valid, sets, if_true, Bool.false_eq_true, if_false]
  split
  next none => rw [if_pos none]
  next some => rw [if_neg some]

theorem writeHdmh_of_valid (valid : (s.reg (.hdmh n)).getLsbD 63 = true) : s.writeHdmh n v = s.reject 5 n := by
  simp only [State.writeHdmh, valid, if_true]

theorem writeHdmh_validates (invalid : (s.reg (.hdmh n)).getLsbD 63 = false) (sets : v.getLsbD 63 = true) :
    s.writeHdmh n v =
      if s.hdmCause n (v &&& Reg.mask (.hdmh n)) = 0 then s.setReg (.hdmh n) (v &&& Reg.mask (.hdmh n))
      else s.reject (s.hdmCause n (v &&& Reg.mask (.hdmh n))) n := by
  have kept : (v &&& 0x800FFFFFC0000000#64).getLsbD 63 = true := (hdmhMask_keeps_valid n v).trans sets
  simp only [State.writeHdmh, invalid, kept, if_true, Bool.false_eq_true, if_false]
  split
  next none => exact (if_pos none).symm
  next some => exact (if_neg some).symm

theorem writeAmap_of_valid {r : Reg} (valid : (s.reg (.amapCtrl n)).getLsbD 63 = true) :
    s.writeAmap n r v = s.reject 5 n := if_pos valid

theorem writeAmap_of_invalid {r : Reg} (invalid : (s.reg (.amapCtrl n)).getLsbD 63 = false) :
    s.writeAmap n r v = s.setReg r v := if_neg (by rw [invalid]; exact Bool.false_ne_true)

/-! Guarantees (R225) -/

theorem guarSum_eq_sum (s : State) (n : Nat) (v : Word) :
    s.guarSum n v = ((List.range 64).map fun k => if k = n then (v.extractLsb' 32 11).toNat else
      ((s.reg (.fnsvc k)).extractLsb' 32 11).toNat).sum := by
  rw [List.sum_eq_foldl, List.foldl_map]
  rfl

/-! The steps of a driver that reaches the control space (R404) -/

theorem exec_registerWrite {r : Reg} (reached : s.pfOpen = true) (named : Reg.inRange r = true) :
    exec (.registerWrite r v) s = .next (s.writeReg r v) := by
  show execRegisterWrite r v s = _
  rw [execRegisterWrite, reached, named]
  rfl

theorem exec_amapWerrClear (reached : s.pfOpen = true) (clears : v.getLsbD 0 = true) :
    exec (.amapWerrClear v) s = .next (s.setReg .amapStatus 0) := by
  show execAmapWerrClear v s = _
  rw [execAmapWerrClear, reached, clears]
  rfl

theorem exec_amapEntryValidate (reached : s.pfOpen = true) (named : n < 16) (sets : v.getLsbD 63 = true) :
    exec (.amapEntryValidate n v) s = .next (s.writeAmapCtrl n v) := by
  show execAmapEntryValidate n v s = _
  rw [execAmapEntryValidate, reached, decide_eq_true named, sets]
  rfl

theorem exec_hdmWindowValidate (reached : s.pfOpen = true) (named : n < 64) (sets : v.getLsbD 63 = true) :
    exec (.hdmWindowValidate n v) s = .next (s.writeHdmh n v) := by
  show execHdmWindowValidate n v s = _
  rw [execHdmWindowValidate, reached, decide_eq_true named, sets]
  rfl

theorem exec_fnsvcWrite (reached : s.pfOpen = true) (named : n < 64) :
    exec (.fnsvcWrite n v) s = .next
      (if s.guarSum n v ≤ 1024 then s.setReg (.fnsvc n) (v &&& 0x000007FF000007FF#64) else s) := by
  show execFnsvcWrite n v s = _
  rw [execFnsvcWrite, reached, decide_eq_true named]
  simp only [Bool.and_self, Bool.true_and, decide_eq_true_eq]

/-! The other registers (R91, R215, R408, R422) -/

/-- A register that a context keeps while its RUN is 1 (R215). -/
def Reg.KeptBy (c : Nat) (r : Reg) : Prop :=
  r = .ctxrt c ∨ r = .ctxrtn c ∨ r = .ctxroot c ∨ r = .ctxtrap c ∨ r = .ctxsave c

/-- A register of index n that takes any write. -/
def Reg.Plain (n : Nat) (r : Reg) : Prop := r = .l2qcfg n ∨ r = .ctxfab n ∨ r = .hlmbx n

/-- A register that ignores writes, of index n where it has one. -/
def Reg.ReadOnly (n : Nat) (r : Reg) : Prop :=
  r = .l2qocc n ∨ r = .ctxstat n ∨ r = .ctxtrapq n ∨ r = .fnheld n ∨ r = .preemptst ∨ r = .bootst

theorem writeReg_keptBy {r : Reg} (kept : Reg.KeptBy n r) :
    Reg.inRange r = decide (n < 64) ∧ s.writeReg r v = if s.ctxRun n then s else s.setReg r (v &&& Reg.mask r) := by
  obtain rfl | rfl | rfl | rfl | rfl := kept <;> exact ⟨rfl, rfl⟩

theorem writeReg_plain {r : Reg} (plain : Reg.Plain n r) :
    Reg.inRange r = decide (n < 64) ∧ s.writeReg r v = s.setReg r (v &&& Reg.mask r) := by
  obtain rfl | rfl | rfl := plain <;> exact ⟨rfl, rfl⟩

theorem writeReg_readOnly {r : Reg} (readOnly : Reg.ReadOnly n r) (named : n < 64) :
    Reg.inRange r = true ∧ s.writeReg r v = s := by
  obtain rfl | rfl | rfl | rfl | rfl | rfl := readOnly <;> exact ⟨by simp [Reg.inRange, named], rfl⟩

end

/-- Settles O50: each clause is the write's step by the lemmas above; `rejected` is what `State.reject` leaves. -/
theorem registerWrites : Obligations.RegisterWrites := by
  intro s n v rejected ctrl win reached
  refine ⟨exec_amapWerrClear reached, fun entry sets => ⟨?entryValid, ?entryInvalid⟩, fun window sets =>
    ⟨?windowValid, ?windowInvalid⟩, ?windowFixed, fun fn => ?guarantee, fun entry => ⟨?fieldsValid, ?fieldsInvalid⟩,
    fun ctx => ⟨?kept, ?plain, ?readOnly⟩⟩
  case entryValid =>
    intro valid
    rw [exec_amapEntryValidate reached entry sets, writeAmapCtrl_of_valid valid, if_pos sets]
    rfl
  case entryInvalid =>
    intro invalid
    rw [exec_amapEntryValidate reached entry sets, writeAmapCtrl_validates invalid sets]
    exact ⟨fun taken => congrArg _ (if_pos taken), fun cause => congrArg _ (if_neg cause)⟩
  case windowValid =>
    intro valid
    rw [exec_hdmWindowValidate reached window sets, writeHdmh_of_valid valid]
    rfl
  case windowInvalid =>
    intro invalid
    rw [exec_hdmWindowValidate reached window sets, writeHdmh_validates invalid sets]
    exact ⟨fun taken => congrArg _ (if_pos taken), fun cause => congrArg _ (if_neg cause)⟩
  case windowFixed =>
    intro window valid
    have named : decide (n < 64) = true := decide_eq_true window
    rw [exec_registerWrite (r := .hdmh n) reached named, exec_registerWrite (r := .hdmd n) reached named]
    exact ⟨congrArg _ (writeHdmh_of_valid valid), congrArg _ (if_pos valid)⟩
  case guarantee => rw [exec_fnsvcWrite reached fn, guarSum_eq_sum]
  case fieldsValid =>
    intro valid
    have named : decide (n < 16) = true := decide_eq_true entry
    rw [exec_registerWrite (r := .amapBase n) reached named, exec_registerWrite (r := .amapLimit n) reached named,
      exec_registerWrite (r := .amapChan n) reached named, exec_registerWrite (r := .amapCtrl n) reached named]
    have fixed (r : Reg) (w : Word) : s.writeAmap n r w = rejected 5 := writeAmap_of_valid valid
    refine ⟨congrArg _ (fixed _ _), congrArg _ (fixed _ _), congrArg _ (fixed _ _), fun clears => ?_⟩
    rw [State.writeReg, writeAmapCtrl_of_valid valid, if_neg (by rw [clears]; exact Bool.false_ne_true)]
  case fieldsInvalid =>
    intro invalid
    have named : decide (n < 16) = true := decide_eq_true entry
    rw [exec_registerWrite (r := .amapBase n) reached named, exec_registerWrite (r := .amapLimit n) reached named,
      exec_registerWrite (r := .amapChan n) reached named]
    refine ⟨congrArg _ (writeAmap_of_invalid invalid), congrArg _ (writeAmap_of_invalid invalid), congrArg _ ?_⟩
    have whole : v &&& Reg.mask (.amapChan n) = v := BitVec.and_allOnes
    rw [State.writeReg, writeAmap_of_invalid invalid, whole]
  case kept =>
    intro r kept
    obtain ⟨range, write⟩ := writeReg_keptBy (s := s) (v := v) kept
    rw [exec_registerWrite reached (range.trans (decide_eq_true ctx)), write]
  case plain =>
    intro r plain
    obtain ⟨range, write⟩ := writeReg_plain (s := s) (v := v) plain
    rw [exec_registerWrite reached (range.trans (decide_eq_true ctx)), write]
  case readOnly =>
    intro r readOnly
    obtain ⟨range, write⟩ := writeReg_readOnly (s := s) (v := v) readOnly ctx
    rw [exec_registerWrite reached range, write]

end Sys2Proof.Machine

/-! SUPPORT. What a store performed at its home changes and leaves, and the statement about it. -/

namespace Sys2Proof.Machine

/-! Bytes written one by one -/

/-- A write leaves every other byte, also where memory is not in its canonical form. -/
theorem memRead_memWrite_ne {m : List Host.Cell} {a x : Nat} {b : Byte} (other : x ≠ a) :
    memRead (memWrite m a b) x = memRead m x := by
  induction m with
  | nil =>
    rw [memWrite]
    split
    · rfl
    · exact if_neg other.symm
  | cons c m ih =>
    obtain ⟨i, d⟩ := c
    have skip (y : Byte) (l : List Host.Cell) : memRead ((a, y) :: l) x = memRead l x := if_neg other.symm
    rw [memWrite]
    split
    · split
      · rfl
      · exact skip b _
    · split
      · next here =>
        subst here
        rw [skip d]
        split
        · rfl
        · exact skip b _
      · simp only [memRead, ih]

/-- Bytes of a line written at their positions, one after another. -/
def writeBytes (m : List Host.Cell) (line : Nat) (bs : List (Nat × Byte)) : List Host.Cell :=
  bs.foldl (fun m b => memWrite m (line * 128 + b.1) b.2) m

theorem memRead_writeBytes_of_notMem {line a : Nat} {bs : List (Nat × Byte)} (m : List Host.Cell)
    (apart : ∀ b ∈ bs, a ≠ line * 128 + b.1) : memRead (writeBytes m line bs) a = memRead m a := by
  induction bs generalizing m with
  | nil => rfl
  | cons c bs ih =>
    obtain ⟨here, apart⟩ := List.forall_mem_cons.mp apart
    exact (ih _ apart).trans (memRead_memWrite_ne here)

/-- Of bytes at different positions each one stands. -/
theorem memRead_writeBytes_of_mem {m : List Host.Cell} {line : Nat} {bs : List (Nat × Byte)} (wf : Memory.wf m = true)
    (apart : bs.Pairwise fun b c => b.1 ≠ c.1) {b : Nat × Byte} (mem : b ∈ bs) :
    memRead (writeBytes m line bs) (line * 128 + b.1) = b.2 := by
  induction bs generalizing m with
  | nil => cases mem
  | cons c bs ih =>
    obtain ⟨later, apart⟩ := List.pairwise_cons.mp apart
    rcases List.mem_cons.mp mem with rfl | mem
    · have first : memRead (writeBytes (memWrite m (line * 128 + b.1) b.2) line bs) (line * 128 + b.1) = _ :=
        memRead_writeBytes_of_notMem _ fun d mem same => later d mem (Nat.add_left_cancel same)
      exact first.trans ((memRead_memWrite wf).trans (if_pos rfl))
    · exact ih (memWrite_wf wf) apart mem

/-! What homes leave of memory, teams and messages -/

/-- Memory, the teams and the network stand as they were. -/
structure Stands (s t : State) : Prop where
  mem : t.mem = s.mem
  teams : t.teams = s.teams
  net : t.net = s.net

theorem Stands.refl (s : State) : Stands s s := ⟨rfl, rfl, rfl⟩

theorem Stands.trans {s t u : State} (first : Stands s t) (second : Stands t u) : Stands s u :=
  ⟨second.mem.trans first.mem, second.teams.trans first.teams, second.net.trans first.net⟩

theorem stands_foldl {α : Type} {f : State → α → State} (keeps : ∀ s a, Stands s (f s a)) (l : List α)
    (s : State) : Stands s (l.foldl f s) := by
  induction l generalizing s with
  | nil => exact .refl s
  | cons a l ih => exact (keeps s a).trans (ih _)

theorem State.hostBack_stands (s : State) (line key : Nat) (h : Bool) : Stands s (s.hostBack line key h) := by
  unfold State.hostBack
  dsimp only
  split <;> exact ⟨rfl, rfl, rfl⟩

theorem State.dropL2_stands (s : State) (line fn : Nat) : Stands s (s.dropL2 line fn) := by
  have untagged (t : State) (l2 : Table L2Line) : Stands t { t with lines := { t.lines with l2 := l2 } } :=
    ⟨rfl, rfl, rfl⟩
  unfold State.dropL2
  split
  · exact .refl s
  · refine Stands.trans ?_ (untagged _ _)
    split
    · exact .refl s
    · split
      · exact stands_foldl (fun t h => t.hostBack_stands line _ h) _ s
      · exact ⟨rfl, rfl, rfl⟩

theorem State.endTransient_stands (s : State) (line : Nat) : Stands s (s.endTransient line) := by
  unfold State.endTransient
  split
  · split
    · exact s.dropL2_stands line _
    · exact .refl s
  · exact .refl s

/-! Bytes put in a line (R98, R121, R326) -/

/-- Taking a line over to a key slot changes memory and the marks of the lines alone. -/
theorem rekey_eq (s : State) (slot line : Nat) :
    ∃ m k, s.rekey slot line = { s with mem := m, lines := { s.lines with keyed := k } } := by
  unfold State.rekey
  split
  · exact ⟨_, _, rfl⟩
  · split
    · exact ⟨_, _, rfl⟩
    · exact ⟨_, _, rfl⟩

section
variable (s : State) (slot line : Nat)

@[simp] theorem rekey_net : (s.rekey slot line).net = s.net := by
  obtain ⟨m, k, rekeyed⟩ := rekey_eq s slot line
  rw [rekeyed]

@[simp] theorem rekey_ctl : (s.rekey slot line).ctl = s.ctl := by
  obtain ⟨m, k, rekeyed⟩ := rekey_eq s slot line
  rw [rekeyed]

@[simp] theorem rekey_teams : (s.rekey slot line).teams = s.teams := by
  obtain ⟨m, k, rekeyed⟩ := rekey_eq s slot line
  rw [rekeyed]

@[simp] theorem rekey_l2? (n : Nat) : (s.rekey slot line).l2? n = s.l2? n := by
  obtain ⟨m, k, rekeyed⟩ := rekey_eq s slot line
  rw [rekeyed]
  rfl

end

theorem rekey_mem_of_owned {s : State} {slot line : Nat}
    (owned : tget? s.lines.keyed line = none ∨ tget? s.lines.keyed line = some (s.keyId slot)) :
    (s.rekey slot line).mem = s.mem := by
  unfold State.rekey
  rcases owned with keyed | keyed <;> rw [keyed]
  exact congrArg State.mem (if_pos rfl)

/-- A value noted for a trap record leaves the warps of each team. -/
theorem noteResolve_warps {s : State} {line : Nat} {e : Nat × Team} (mem : e ∈ (s.noteResolve line).teams) :
    ∃ d ∈ s.teams, e.2.warps = d.2.warps := by
  obtain ⟨d, team, rfl⟩ := List.mem_map.mp mem
  refine ⟨d, team, ?_⟩
  split
  · split
    · split <;> rfl
    · rfl
  · rfl

/-- No LL reservation of a warp covers bytes of the line. -/
def Warp.Unreserved (w : Warp) (line : Nat) : Prop := ∀ v ∈ w.resv, v.2.tide = false → v.2.line ≠ line

theorem Warp.clearResv_unreserved (w : Warp) (line : Nat) : (w.clearResv false line).Unreserved line := by
  intro v mem plain same
  have kept : v ∈ w.resv.filter fun r => !(r.2.tide == false && r.2.line == line) := mem
  simp [List.mem_filter, plain, same] at kept

/-! The directory entry and the home of a line (R85, R101) -/

theorem dir_of_l2? {s t : State} {line : Nat} (same : t.l2? line = s.l2? line) : t.dir line = s.dir line := by
  rw [State.dir, State.dir, same]

theorem modL2_dir {f : L2Line → L2Line} (keeps : ∀ x, (f x).dir = x.dir) (s : State) (line : Nat) :
    (s.modL2 line f).dir line = s.dir line := by
  have dirs : (fun x => x.dir) ∘ f = fun x => x.dir := funext keeps
  simp only [State.dir, State.l2?, State.modL2_lines, tget?_tmod_self, Option.map_map, dirs]

theorem changed_dir (s : State) (line : Nat) : (s.changed line).dir line = s.dir line :=
  modL2_dir (f := fun x => { x with dirty := true, used := s.lines.tick + 1 }) (fun _ => rfl) ..

/-- A use of a line is noted. -/
def State.useLine (s : State) (line : Nat) : State :=
  ({ s with lines := { s.lines with tick := s.lines.tick + 1 } } : State).modL2 line fun x =>
    { x with used := s.lines.tick + 1 }

theorem useLine_dir (s : State) (line : Nat) : (s.useLine line).dir line = s.dir line :=
  modL2_dir (f := fun x => { x with used := s.lines.tick + 1 }) (fun _ => rfl) ..

/-- Which slice is a line's home stands in the registers. -/
theorem homeNode_of_ctl {s t : State} (same : t.ctl = s.ctl) (line : Nat) : t.homeNode line = s.homeNode line :=
  congrArg (fun c => ({ s with ctl := c } : State).homeNode line) same

/-! A store at its home (R105, R121, R326) -/

/-- What a store makes of its home before it is carried to the copies. -/
def State.stored (s : State) (slot line : Nat) (bs : List (Nat × Byte)) : State :=
  (((s.useLine line).clearResv line).homePut slot line bs).changed line

section
variable (s : State) (slot line : Nat) (bs : List (Nat × Byte))

theorem stored_mem (owned : tget? s.lines.keyed line = none ∨ tget? s.lines.keyed line = some (s.keyId slot)) :
    (s.stored slot line bs).mem = writeBytes s.mem line bs :=
  congrArg (writeBytes · line bs) (rekey_mem_of_owned (s := (s.useLine line).clearResv line) owned)

theorem stored_net : (s.stored slot line bs).net = s.net := rekey_net ((s.useLine line).clearResv line) slot line

theorem stored_homeNode : (s.stored slot line bs).homeNode line = s.homeNode line :=
  homeNode_of_ctl (rekey_ctl ((s.useLine line).clearResv line) slot line) line

theorem stored_dir : (s.stored slot line bs).dir line = s.dir line :=
  calc (s.stored slot line bs).dir line
    _ = (((s.useLine line).clearResv line).homePut slot line bs).dir line := changed_dir ..
    _ = (s.useLine line).dir line := dir_of_l2? (rekey_l2? ((s.useLine line).clearResv line) slot line line)
    _ = s.dir line := useLine_dir ..

theorem stored_unreserved {e : Nat × Team} (team : e ∈ (s.stored slot line bs).teams) {w : Nat × Warp}
    (warp : w ∈ e.2.warps) : w.2.Unreserved line := by
  obtain ⟨d, cleared, warps⟩ := noteResolve_warps team
  rw [warps] at warp
  obtain ⟨c, -, rfl⟩ := List.mem_map.mp (rekey_teams ((s.useLine line).clearResv line) slot line ▸ cleared)
  obtain ⟨v, -, rfl⟩ := List.mem_map.mp warp
  exact v.2.clearResv_unreserved line

end

/-! What is carried to the copies (R105, R106, R110) -/

/-- A message of one line to each of the cores, in their order. -/
theorem foldl_send_eq (s : State) (line : Nat) (dsts : List Nat) (b : Body) :
    dsts.foldl (fun (s : State) (c : Nat) => s.send (s.homeNode line) (.core c) line b) s = { s with net := { s.net with
      msgs := s.net.msgs ++ (dsts.zipIdx s.net.next).map fun c => ⟨c.2, s.homeNode line, .core c.1, line, b⟩
      next := s.net.next + dsts.length } } := by
  induction dsts generalizing s with
  | nil => simp
  | cons c dsts ih =>
    have home : (s.send (s.homeNode line) (.core c) line b).homeNode line = s.homeNode line := rfl
    rw [List.foldl_cons, ih, home, List.zipIdx_cons, List.map_cons, List.length_cons]
    simp only [State.send, List.append_assoc, List.singleton_append, Nat.add_assoc, Nat.add_comm 1]

/-- Opening a count of acknowledgements changes the network alone. -/
theorem openAck_eq (s : State) (line : Nat) (dsts : List Nat) (round gather settle : Bool) (reply : Option (Node × Req))
    (body : Nat → Body) :
    s.openAck line dsts round gather settle reply body = { s with net := { s.net with
      acks := s.net.acks ++ [⟨s.net.next, line, dsts.length, round, gather, settle, reply⟩]
      msgs := s.net.msgs ++ (dsts.zipIdx (s.net.next + 1)).map fun c =>
        ⟨c.2, s.homeNode line, .core c.1, line, body s.net.next⟩
      next := s.net.next + 1 + dsts.length } } :=
  foldl_send_eq _ line dsts _

/-- The cores that a writer's change of a line is carried to. -/
def State.targets (s : State) (line writer : Nat) : List Nat :=
  if (s.dir line).mode = 1 then (s.dir line).holders.filter (· != writer) else []

section
variable (s : State) (line : Nat) (src : Node) (r : Req) (ps : List Nat)

theorem propagate_alone (alone : s.targets line src.core? = []) :
    s.propagate line src r ps true = s.sendStack src r line false := by
  have uncarried : s.carry line r.key src.core? ps (some (src, r)) = none := if_pos (List.isEmpty_iff.mpr alone)
  simp only [State.propagate, if_true, uncarried]

theorem propagate_carries (copies : s.targets line src.core? ≠ []) :
    s.propagate line src r ps true =
      (if (s.dir line).coarse then s.block line true else s).openAck line (s.targets line src.core?) (s.dir line).coarse
        false false (some (src, r)) fun id =>
          if (s.dir line).coarse then .inv id else .upd (s.bytesNow r.key line ps) id := by
  have carried : s.carry line r.key src.core? ps (some (src, r)) = some _ := if_neg (mt List.isEmpty_iff.mp copies)
  simp only [State.propagate, if_true, carried]
  rfl

/-- Carrying a change to the copies changes messages and blocks the line at most. -/
theorem propagate_eq : ∃ n l, s.propagate line src r ps true = { s with net := n, lines := l } := by
  by_cases alone : s.targets line src.core? = []
  · exact ⟨_, _, propagate_alone s line src r ps alone⟩
  · rw [propagate_carries s line src r ps alone, openAck_eq]
    split
    · exact ⟨_, _, rfl⟩
    · exact ⟨_, _, rfl⟩

theorem propagate_mem : (s.propagate line src r ps true).mem = s.mem := by
  obtain ⟨n, l, carried⟩ := propagate_eq s line src r ps
  rw [carried]

theorem propagate_teams : (s.propagate line src r ps true).teams = s.teams := by
  obtain ⟨n, l, carried⟩ := propagate_eq s line src r ps
  rw [carried]

end

/-! A store performed (R105, R106, R110, R121, R323, R326) -/

theorem stored_targets (s : State) (slot line writer : Nat) (bs : List (Nat × Byte)) :
    (s.stored slot line bs).targets line writer = s.targets line writer := by
  simp only [State.targets, stored_dir]

section
variable {s : State} {x : Msg} {r : Req} {bs : List (Nat × Byte)} {sc z : Bool} (store : x.body = .store r bs sc z)
include store

/-- A store is made and carried to the copies; then memory, teams and messages stand. -/
theorem perform_store :
    Stands ((s.stored r.key x.line bs).propagate x.line x.src r (bs.map Prod.fst) true) (s.perform x) := by
  have performed : s.perform x =
      ((s.stored r.key x.line bs).propagate x.line x.src r (bs.map Prod.fst) true).endTransient x.line := by
    simp only [State.perform, store]
    rfl
  rw [performed]
  exact State.endTransient_stands _ _

theorem perform_store_mem
    (owned : tget? s.lines.keyed x.line = none ∨ tget? s.lines.keyed x.line = some (s.keyId r.key)) :
    (s.perform x).mem = writeBytes s.mem x.line bs :=
  (perform_store store).mem.trans ((propagate_mem ..).trans (stored_mem s r.key x.line bs owned))

theorem perform_store_unreserved {e : Nat × Team} (team : e ∈ (s.perform x).teams) {w : Nat × Warp}
    (warp : w ∈ e.2.warps) : w.2.Unreserved x.line := by
  rw [(perform_store store).teams, propagate_teams] at team
  exact stored_unreserved _ _ _ _ team warp

/-- With no copy but the writer's, STACK goes out at once. -/
theorem perform_store_net_alone (alone : s.targets x.line x.src.core? = []) :
    ∃ bytes, (s.perform x).net = { s.net with
      msgs := s.net.msgs ++ [⟨s.net.next, s.homeNode x.line, x.src, x.line, .stack r bytes false⟩]
      next := s.net.next + 1 } := by
  rw [(perform_store store).net, propagate_alone _ _ _ _ _ ((stored_targets ..).trans alone), State.sendStack,
    State.send_net, stored_net, stored_homeNode]
  exact ⟨_, rfl⟩

/-- The pointers but the writer are told the new bytes, and STACK waits for all of them. -/
theorem perform_store_net_copies (copies : s.targets x.line x.src.core? ≠ []) (pointers : (s.dir x.line).coarse = false) :
    ∃ bytes, (s.perform x).net = { s.net with
      acks := s.net.acks ++
        [⟨s.net.next, x.line, (s.targets x.line x.src.core?).length, false, false, false, some (x.src, r)⟩]
      msgs := s.net.msgs ++ ((s.targets x.line x.src.core?).zipIdx (s.net.next + 1)).map fun c =>
        ⟨c.2, s.homeNode x.line, .core c.1, x.line, .upd bytes s.net.next⟩
      next := s.net.next + 1 + (s.targets x.line x.src.core?).length } := by
  have carried : (s.stored r.key x.line bs).targets x.line x.src.core? ≠ [] := by
    rw [stored_targets]
    exact copies
  rw [(perform_store store).net, propagate_carries _ _ _ _ _ carried, stored_targets, stored_dir, pointers, openAck_eq]
  simp only [Bool.false_eq_true, if_false, stored_net, stored_homeNode]
  exact ⟨_, rfl⟩

end

/-- Settles O35: memory by the bytes written, reservations by their clearing, and messages by whether a copy but the
writer's stands. -/
theorem storesAtHome : Obligations.StoresAtHome := by
  intro s x r bs sc z store t targets
  have targets_eq : s.targets x.line x.src.core? = targets := rfl
  refine ⟨fun owned => ?memory, ?reservations, fun alone => ?alone, fun copies pointers => ?copies⟩
  case memory =>
    rw [perform_store_mem store owned]
    exact ⟨fun a => memRead_writeBytes_of_notMem s.mem, fun wf apart b => memRead_writeBytes_of_mem wf apart⟩
  case reservations => exact fun e team w warp => perform_store_unreserved store team warp
  case alone =>
    obtain ⟨bytes, net⟩ := perform_store_net_alone store alone
    rw [net]
    exact ⟨rfl, rfl, bytes, rfl⟩
  case copies =>
    obtain ⟨bytes, net⟩ := perform_store_net_copies store copies pointers
    rw [net, targets_eq, List.zipIdx_eq_map_add, List.map_map]
    exact ⟨rfl, bytes, rfl⟩

end Sys2Proof.Machine

/-! SUPPORT. What the messages that close a home's counts do, and the statement about them. -/

namespace Sys2Proof.Machine

/-! Messages that arrive (R103, R104) -/

/-- A message that may arrive is acted on as its event's row answers its kind of body. -/
theorem receives_of {ins : Nat → Instr} {kind : Body → Prop} {act : State → Msg → State}
    {row : State → Msg → Option State} (event : Nat → State → Host.Outcome State Fault Refusal)
    (dispatched : ∀ m s, exec (ins m) s = event m s) (receives : ∀ m s, event m s = s.receive m row)
    (answers : ∀ s x, kind x.body → row s x = some (act s x)) : Receives ins kind act := by
  intro s m x arrives body
  rw [dispatched, receives, State.receive, arrives]
  dsimp only
  rw [answers _ x body, Option.getD_some]

/-! Notices of eviction (R108, R109, R114) -/

/-- What makes a home ignore a notice of eviction: a round, a gather or a settle of the line is in flight. -/
theorem evnIgnored_iff {s : State} {line : Nat} :
    ((s.net.acks.any fun a => a.line == line && (a.round || a.gather || a.settle)) || (s.settle? line).isSome) = true ↔
      (∃ a ∈ s.net.acks, a.line = line ∧ (a.round = true ∨ a.gather = true ∨ a.settle = true)) ∨
        ∃ y ∈ s.net.settles, y.line = line := by
  simp only [State.settle?, Bool.or_eq_true, List.any_eq_true, Bool.and_eq_true, beq_iff_eq, List.find?_isSome, or_assoc]

theorem DirEntry.drop_eq (d : DirEntry) (core : Nat) :
    d.drop core = if d.coarse then d else { d with
      ptrs := d.ptrs.filter (· != core)
      mode := if d.ptrs.filter (· != core) = [] then 0 else d.mode } := by
  simp only [DirEntry.drop, List.isEmpty_iff]

theorem receives_evn : Receives .evn (· = .evn) fun t x =>
    if (∃ a ∈ t.net.acks, a.line = x.line ∧ (a.round = true ∨ a.gather = true ∨ a.settle = true)) ∨
      ∃ y ∈ t.net.settles, y.line = x.line then t
    else t.modDir x.line fun d => d.drop x.src.core? :=
  receives_of execEvn (fun _ _ => rfl) (fun _ _ => rfl) fun s x body => by
    rw [body]
    simp only [evnIgnored_iff]

/-! Bounced requests (R92, R115) -/

/-- A bounced request goes out again: to its home, or, as the place of an agent, into the queue when that has room. -/
def State.sendAgain (s : State) (x : Msg) : State :=
  let t := { s with net := { s.net with retries := s.net.retries.filter fun (y : Msg) => y.id != x.id } }
  match x.body with
  | .claim _ => if s.queueRoom x.line then { t with net := { t.net with forwards := t.net.forwards ++ [x] } } else s
  | _ => { t with net := { t.net with msgs := t.net.msgs ++ [x] } }

theorem sendAgain_claim {s : State} {x : Msg} {q : Req} (claim : x.body = .claim q) :
    s.sendAgain x = if s.queueRoom x.line then { s with net := { s.net with
      retries := s.net.retries.filter fun (y : Msg) => y.id != x.id, forwards := s.net.forwards ++ [x] } } else s := by
  rw [State.sendAgain, claim]

theorem sendAgain_request {s : State} {x : Msg} (request : ∀ q, x.body ≠ .claim q) :
    s.sendAgain x = { s with net := { s.net with
      retries := s.net.retries.filter fun (y : Msg) => y.id != x.id, msgs := s.net.msgs ++ [x] } } := by
  unfold State.sendAgain
  split
  · next q claim => exact absurd claim (request q)
  · rfl

/-- Once its RETRY has arrived, the oldest bounced request of its sender to the line goes out when the gateway lets it. -/
theorem exec_retryReissue {s : State} {x : Msg} (held : s.net.retries.find? (fun y => y.id == x.id) = some x)
    (arrived : ∀ y ∈ s.net.msgs, y.body ≠ .retry x.id)
    (oldest : s.net.retries.find? (fun y => y.src == x.src && y.line == x.line) = some x) :
    exec (.retryReissue x.id) s = .next (if s.retryGated x then s else s.sendAgain x) := by
  have answered : (s.net.msgs.any fun y => y.body == .retry x.id) = false := by simpa using arrived
  show execRetryReissue x.id s = _
  simp only [execRetryReissue, held, answered, oldest, Option.any_some, bne_self_eq_false, Bool.false_or]
  rfl

/-! Acknowledgements (R105, R110, R112, R118) -/

/-- A count is met: it is forgotten, what waited for it is told, and STACK goes out. -/
def State.countMet (s : State) (a : Ack) : State :=
  let t := (({ s with net := { s.net with acks := s.net.acks.filter (·.id != a.id) } } : State).partAcked a).completions
  match a.reply with
  | some (n, r) => t.sendStack n r a.line a.round
  | none => t

section
variable {s : State} {a : Ack} (held : s.net.acks.find? (·.id == a.id) = some a)
include held

theorem acked_counts (more : 1 < a.left) : s.acked a.id = { s with net := { s.net with
    acks := s.net.acks.map fun y => if y.id = a.id then { y with left := y.left - 1 } else y } } := by
  rw [State.acked, held]
  exact if_pos more

theorem acked_last (last : a.left ≤ 1) : s.acked a.id =
    (let t := s.countMet a
     let t := if a.round then t.modDir a.line fun d => { d with dies := 0, mode := 0 }
       else if a.gather || a.settle then t.modDir a.line fun d => { d with mode := 0, ptrs := [], dies := 0 } else t
     if a.round || a.gather || a.settle || (t.settle? a.line).isSome then t.close a.line else t.drain a.line) := by
  rw [State.acked, held]
  exact if_neg (Nat.not_lt.mpr last)

/-- The last acknowledgement of a count closes it: a round or a gather leaves no copy, and the line goes on. -/
theorem acked_closes (last : a.left ≤ 1) : s.acked a.id =
    (let t := s.countMet a
     if a.round then (t.modDir a.line fun d => { d with dies := 0, mode := 0 }).close a.line
     else if a.gather || a.settle then
       (t.modDir a.line fun d => { d with mode := 0, ptrs := [], dies := 0 }).close a.line
     else if (t.settle? a.line).isSome then t.close a.line
     else t.drain a.line) := by
  rw [acked_last held last]
  cases round : a.round
  case true => rfl
  case false =>
    cases whole : a.gather || a.settle
    case true => simp only [Bool.false_eq_true, if_false, if_true, Bool.false_or, whole, Bool.true_or]
    case false => simp only [Bool.false_eq_true, if_false, Bool.false_or, whole]

end

/-- Settles O37: messages by the rows of their events, and a bounced request and a closing count by the lemmas above. -/
theorem answersAtHomes : Obligations.AnswersAtHomes := by
  refine ⟨?uack, ?iack, ?nodelta, ?delta, ?dwb, ?evn, ?reissue, ?acked⟩
  case uack => exact fun ack => receives_of execUack (fun _ _ => rfl) (fun _ _ => rfl) fun s x body => by rw [body]
  case iack => exact fun ack => receives_of execIack (fun _ _ => rfl) (fun _ _ => rfl) fun s x body => by rw [body]
  case nodelta => exact fun ack => receives_of execNodelta (fun _ _ => rfl) (fun _ _ => rfl) fun s x body => by rw [body]
  case delta =>
    exact fun ack op ty ws =>
      receives_of execDelta (fun _ _ => rfl) (fun _ _ => rfl) fun s x body => by rw [body]
  case dwb => exact fun op ty ws => receives_of execDwb (fun _ _ => rfl) (fun _ _ => rfl) fun s x body => by rw [body]
  case evn => simpa only [DirEntry.drop_eq] using receives_evn
  case reissue =>
    intro s x held arrived oldest
    rw [exec_retryReissue held arrived oldest]
    refine ⟨fun gated => congrArg _ (if_pos gated), fun free => ?_⟩
    rw [if_neg (Bool.eq_false_iff.mp free)]
    exact ⟨fun request => congrArg _ (sendAgain_request request), fun q claim => congrArg _ (sendAgain_claim claim)⟩
  case acked => exact fun s a held => ⟨acked_counts held, acked_closes held⟩

end Sys2Proof.Machine

/-! SUPPORT. What losses and errors do to contexts, lanes, lines and copies, and the statement about them. -/

namespace Sys2Proof.Machine

/-! Symbol errors (R400, R421) -/

theorem le_symbolsCorrected_iff (s : State) (line k : Nat) : k ≤ s.symbolsCorrected line ↔
    if (tget? s.lines.training (s.channelOf (line * 128))).isSome then k ≤ 2 else k ≤ 4 := by
  rw [State.symbolsCorrected]
  split <;> rfl

/-- Symbol errors are treated alike whether they are met as corrected or as uncorrectable: their number decides. -/
theorem exec_symbolErrors (s : State) (line k : Nat) (hi : Bool) :
    exec (.uncorrectableError (.symbols line hi k)) s = .next (s.symbolErrors line hi k) ∧
      exec (.correctedError (.symbols line hi k)) s = .next (s.symbolErrors line hi k) := ⟨rfl, rfl⟩

theorem symbolErrors_corrected {s : State} {line k : Nat} (hi : Bool) (few : k ≤ s.symbolsCorrected line) :
    s.symbolErrors line hi k = s.logEvent 0x01 0xFF 0xFF 0xFFFF 0 0 := if_pos few

theorem symbolErrors_poison {s : State} {line k : Nat} (hi : Bool) (many : ¬k ≤ s.symbolsCorrected line) :
    s.symbolErrors line hi k = s.poisonHalves line (if hi then 2 else 1) := if_neg many

/-! Errors that no code corrects (R381, R396, R397, R400) -/

/-- A mark that a command has already stands: the first error is the one it reports. -/
theorem exec_uncorrectableError_engine (s : State) (cmd : Nat) :
    exec (.uncorrectableError (.engine cmd)) s = .next (s.modCmd cmd fun c => { c with
      error := some (c.error.getD (c.mark 0x70 c.src)) }) := by
  show Host.Outcome.next (s.modCmd cmd _) = _
  congr 2
  funext c
  cases c.error <;> rfl

theorem exec_uncorrectableError_copies {s : State} {st : StreamRef} {i : Issue} (lane : Nat) (v : Word)
    (looked : s.issue? st = some i) (watched : i.tm.watch = true) (allowed : i.allowed = true) :
    exec (.uncorrectableError (.copies st lane v)) s = .next ((s.decodeTrap i 14 0x7C v).logEvent 0x0C
      (s.ctxFn i.tm.ctx) i.tm.ctx (324 + i.tm.core) i.sp.pc (BitVec.ofNat 64 lane)) := by
  show Host.Outcome.next (s.watchMismatch st lane v) = _
  simp only [State.watchMismatch, looked, watched, allowed, Bool.and_self, if_true]

theorem exec_correctedError_unless_symbols {e : ErrSite} (s : State) (other : ∀ line hi k, e ≠ .symbols line hi k) :
    exec (.correctedError e) s = .next ((s.dropCopy e).logEvent 0x01 0xFF 0xFF (s.errorAgent e) 0 0) := by
  cases e
  case symbols line hi k => exact absurd rfl (other line hi k)
  all_goals rfl

/-- Settles O46: losses, removals, poison and dropped copies are their events' meanings; what depends on a count of symbol
errors, on an earlier mark, on the stream or on the site is in the lemmas above. -/
theorem lossesAndErrors : Obligations.LossesAndErrors := by
  intro s
  refine ⟨fun l => rfl, fun n => rfl, fun c => rfl, fun t w l => rfl, fun line hi => rfl, ?symbols, fun line => rfl,
    exec_uncorrectableError_engine s, ?copies, ?copy, fun e => exec_correctedError_unless_symbols s⟩
  case symbols =>
    intro line hi k fits
    obtain ⟨uncorrectable, corrected⟩ := exec_symbolErrors s line k hi
    rw [uncorrectable, corrected, and_self, and_self]
    have fits_iff : k ≤ s.symbolsCorrected line ↔ fits := le_symbolsCorrected_iff s line k
    exact ⟨fun few => congrArg _ (symbolErrors_corrected hi (fits_iff.mpr few)),
      fun many => congrArg _ (symbolErrors_poison hi (mt fits_iff.mp many))⟩
  case copies => exact fun st i lane v => exec_uncorrectableError_copies lane v
  case copy => rintro e (⟨core, n, rfl⟩ | ⟨core, line, rfl⟩ | ⟨core, line, rfl⟩) <;> rfl

end Sys2Proof.Machine

/-! SUPPORT. What a stream's earlier accesses hold back, what the maintenance words and the privileged words do, and the
statements about them. -/

namespace Sys2Proof.Machine

/-! The order of a stream's accesses (R132, R133, R390) -/

theorem Flight.ended_iff (f : Flight) : f.ended = true ↔ f.bound = true ∧ f.faulted = false := by
  simp [Flight.ended]

theorem afterAcquires_iff {s : State} {i : Issue} :
    s.afterAcquires i = true ↔ ∀ e ∈ s.earlier i, e.acq = true → e.bound = true ∧ e.faulted = false := by
  simp only [State.afterAcquires, List.all_eq_true, Bool.or_eq_true, Bool.not_eq_true', Flight.ended_iff]
  refine forall₂_congr fun e _ => ?_
  cases e.acq <;> simp

/-- R133: a release narrower than .cluster changes nothing; the stream's earlier loads are bound and its other accesses sent. -/
theorem release_narrow {s : State} {i : Issue} {sc : Scope} (narrow : Scope.wide sc = false) :
    s.release i sc = (s, decide (∀ e ∈ s.earlier i, e.faulted = false ∧ (if e.isLoad then e.bound else e.allSent) = true)) := by
  have holds : ((s.earlier i).all fun e => !e.faulted && if e.isLoad then e.bound else e.allSent) =
      decide (∀ e ∈ s.earlier i, e.faulted = false ∧ (if e.isLoad then e.bound else e.allSent) = true) := by
    rw [Bool.eq_iff_iff]
    simp only [List.all_eq_true, decide_eq_true_eq, Bool.and_eq_true, Bool.not_eq_true']
  simp only [State.release, narrow, Bool.false_eq_true, if_false, holds]

/-- R133, R137: a wider release flushes the team's gathered reductions; they and every earlier access are complete. -/
theorem release_wide {s : State} {i : Issue} {sc : Scope} (wide : Scope.wide sc = true) :
    s.release i sc = (s.flushTeam i.ref.team, decide ((∀ e ∈ s.earlier i, e.bound = true ∧ e.faulted = false) ∧
      (s.flushTeam i.ref.team).gathering i.ref.team = false)) := by
  have holds : ((s.earlier i).all Flight.ended && !(s.flushTeam i.ref.team).gathering i.ref.team) =
      decide ((∀ e ∈ s.earlier i, e.bound = true ∧ e.faulted = false) ∧
        (s.flushTeam i.ref.team).gathering i.ref.team = false) := by
    rw [Bool.eq_iff_iff]
    simp only [List.all_eq_true, decide_eq_true_eq, Bool.and_eq_true, Bool.not_eq_true', Flight.ended_iff]
  simp only [State.release, wide, if_true, holds]

theorem mayAccess_behindAcquire {s : State} {i : Issue} (a : Ask) (behind : s.afterAcquires i = false) :
    s.mayAccess i a = (s, some .order) := by
  simp [State.mayAccess, behind]

theorem mayAccess_queueFull {s : State} {i : Issue} {a : Ask} {q n : Nat} (after : s.afterAcquires i = true)
    (dst : a.dst = .queue q n) (full : i.wp.loadWaits q = true) : s.mayAccess i a = (s, some (.push q true)) := by
  simp [State.mayAccess, after, dst, full]

/-- Past its stream's acquires and with room for its result, only a release has something to wait for. -/
theorem mayAccess_roomy {s : State} {i : Issue} {a : Ask} (after : s.afterAcquires i = true)
    (room : ∀ q n, a.dst = .queue q n → i.wp.loadWaits q = false) :
    s.mayAccess i a = if a.rel then ((s.release i a.scope).1, if (s.release i a.scope).2 then none else some .order)
      else (s, none) := by
  cases dst : a.dst with
  | queue q n => simp [State.mayAccess, after, dst, room q n dst]
  | none | reg | counter | pred => simp [State.mayAccess, after, dst]

theorem mayAccess_releasing {s : State} {i : Issue} {a : Ask} (after : s.afterAcquires i = true)
    (room : ∀ q n, a.dst = .queue q n → i.wp.loadWaits q = false) (rel : a.rel = true) {t : State} {p : Prop}
    [Decidable p] (release : s.release i a.scope = (t, decide p)) :
    s.mayAccess i a = (t, if p then none else some .order) := by
  simp [mayAccess_roomy after room, rel, release]

/-- Settles O21: the stream's acquires, then the room in the queue, then the release at its scope. -/
theorem accessOrder : Obligations.AccessOrder := by
  intro s i a earlier ended room
  have roomy (given : room) : ∀ q n, a.dst = .queue q n → i.wp.loadWaits q = false := by
    intro q n dst
    simpa only [room, dst] using given
  refine ⟨fun ⟨e, mem, acq, open_⟩ => ?behind, fun acquires => ?past⟩
  case behind =>
    refine mayAccess_behindAcquire a (Bool.eq_false_iff.2 fun after => ?_)
    exact open_ (afterAcquires_iff.1 after e mem acq)
  case past =>
    have after : s.afterAcquires i = true := afterAcquires_iff.2 acquires
    refine ⟨fun q n dst full => mayAccess_queueFull after dst full, fun given plain => ?_, fun given rel narrow => ?_,
      fun given rel wide => ?_⟩
    · simp [mayAccess_roomy after (roomy given), plain]
    · have scope : Scope.wide a.scope = false := by obtain e | e := narrow <;> rw [e] <;> rfl
      exact mayAccess_releasing after (roomy given) rel (release_narrow scope)
    · have scope : Scope.wide a.scope = true := by obtain e | e | e | e := wide <;> rw [e] <;> rfl
      exact mayAccess_releasing after (roomy given) rel (release_wide scope)

/-! Spans (R142, R363, R364, R366) -/

theorem spanLen_eq (b : Opd) (i : Issue) (l : Nat) :
    i.spanLen b l = (i.sl.read i.ref.slice l (if i.ref.slice = .a then 64 else 32) b).toNat := by
  unfold Issue.spanLen
  cases i.ref.slice <;> rfl

/-- A word whose meaning is `spanWord`. -/
theorem spans_of {ins : Instr} {h : Head} {need : Need} {a : Opd} {len : Issue → Nat → Nat}
    {k : State → Issue → List Piece → State} {act : Issue → State → List Piece → State}
    (meaning : ∀ s, exec ins s = s.spanWord h need a len k) (acts : ∀ s i ps, k s i ps = act i s ps) :
    Spans ins h need a len act := by
  intro s i ready
  rw [meaning, State.spanWord, word_ready ready]
  refine ⟨fun idle => ?_, fun l lane => ⟨fun empty => ?_, fun long t r span => ?_⟩⟩
  · rw [idle]
  · simp only [lane, if_pos empty]
  · have span' : s.wordSpan i need l (i.reg a l) (len i l) (len i l) [] = (t, r) := span
    simp only [lane, if_neg long, span']
    cases r with
    | walk | fault => rfl
    | ok ps => exact congrArg _ (acts _ i ps)

/-- Settles O28: `cp.yield` and `fbar` by their meanings, and the three span words by `spans_of`. -/
theorem maintenanceWords : Obligations.MaintenanceWords := by
  intro h mark ofs a b len
  have lens : (fun i l => Issue.spanLen i b l) = len := funext fun i => funext (spanLen_eq b i)
  refine ⟨fun s i ready => ⟨word_ready ready _, word_ready ready _⟩, ?wb, ?ii, ?discard⟩
  case wb =>
    rw [← lens]
    refine spans_of (fun s => (by show execWb h a b s = _; rfl)) fun s i ps => ?_
    simp only [Bool.or_eq_true, Bool.not_eq_true']
  case ii =>
    rw [← lens]
    exact spans_of (fun s => (by show execIi h a b s = _; rfl)) fun _ _ _ => rfl
  case discard =>
    refine spans_of (fun s => (by show execDiscard h a b s = _; rfl)) fun s i ps => ?_
    cases ps.find? fun p => p.xl.any fun x => x.acc && p.len != 128 with
    | some p => rfl
    | none => cases s.afterAcquires i <;> rfl

/-! Privileged words (R136, R367 to R370) -/

theorem privWord_denied {s : State} {i : Issue} (ready : s.Ready i) (denied : s.ctxPriv i.tm.ctx = false)
    (k : Issue → State) : privWord s k = .next (s.decodeTrap i 5 0x38 0) := by
  rw [privWord, word_ready ready, denied]; rfl

theorem privWord_granted {s : State} {i : Issue} (ready : s.Ready i) (priv : s.ctxPriv i.tm.ctx = true)
    (k : Issue → State) : privWord s k = .next (k i) := by
  rw [privWord, word_ready ready, if_pos priv]

theorem inUse_iff (s : State) (us : List User) :
    s.inUse us = true ↔ (∃ f ∈ s.flights, .access f.id ∈ us ∧ f.bound = false) ∨
      (∃ e ∈ s.engines.emissions, .access e.id ∈ us) ∨
      (∃ b ∈ s.engines.buffers, ∃ e ∈ b.2, .access e.id ∈ us) ∨ ∃ m ∈ s.underWay, .request m.id ∈ us := by
  simp only [State.inUse, Bool.or_eq_true, List.any_eq_true, Bool.and_eq_true, List.contains_iff_mem, Bool.not_eq_true',
    or_assoc]

section granted

variable {s : State} {i : Issue} (ready : s.Ready i) (priv : s.ctxPriv i.tm.ctx = true)
include ready priv

/-- R368: the images of an existing context are invalidated, and what they have translated is noted for `rng.sync`. -/
theorem rngInv_exists {h : Head} {a : Opd} {l : Nat} (all : Bool) (lane : lowLane (i.active h.guard) = some l)
    (there : s.ctxExists ((regA a i l).extractLsb' 58 6).toNat = true) :
    s.rngInv h a all =
      (let ctx := ((regA a i l).extractLsb' 58 6).toNat
       let index := if all then none else some ((regA a i l).extractLsb' 0 14).toNat
       .next (((s.invalidate ctx index).modSlice i.ref.team i.ref.warp i.ref.slice fun y =>
        { y with invs := y.invs ++ s.imageUsers ctx index }).advance i h.mark)) := by
  have there' : s.ctxExists (bits (i.reg a l) 58 6) = true := there
  rw [State.rngInv, privWord_granted ready priv]
  simp only [lane, there', Bool.not_true, Bool.false_eq_true, if_false]
  rfl

theorem rngInv_absent {h : Head} {a : Opd} {l : Nat} (all : Bool) (lane : lowLane (i.active h.guard) = some l)
    (absent : s.ctxExists ((regA a i l).extractLsb' 58 6).toNat = false) :
    s.rngInv h a all = .next (s.advance i h.mark) := by
  have absent' : s.ctxExists (bits (i.reg a l) 58 6) = false := absent
  rw [State.rngInv, privWord_granted ready priv]
  simp only [lane, absent', Bool.not_false, if_true]

theorem exec_ebbStat {h : Head} {l : Nat} (d a : Opd) (lane : lowLane (i.active h.guard) = some l) :
    exec (.ebbStat h d a) s = .next ((s.deliver i (i.active h.guard) d 64 (laneVals (i.active h.guard)
      fun _ => (s.slot ((regA a i l).toNat % 256)).status)).advance i h.mark) := by
  show execEbbStat h d a s = _
  rw [execEbbStat, privWord_granted ready priv]
  simp only [lane]
  rfl

theorem exec_rngSync (mark : Bool) :
    exec (.rngSync mark) s = .next (if (s.flushUsers i.sl.invs).inUse i.sl.invs then
        (s.flushUsers i.sl.invs).waitAt i .order
      else ((s.flushUsers i.sl.invs).modSlice i.ref.team i.ref.warp i.ref.slice fun y =>
        { y with invs := [] }).advance i mark) :=
  privWord_granted ready priv _

/-- R369: `zline` is a word with an access. -/
theorem exec_zline (h : Head) (a : Opd) :
    exec (.zline h a) s = .next (s.memWord i h.mark { storing .z64 .none with op := .zline } (i.active h.guard)
      (operands (regA a) nothing nothing i (i.active h.guard))) :=
  privWord_granted ready priv _

/-- R136: a `fence.hb` that has not begun its wait for a tick waits as a .sys release does, and then for the tick. -/
theorem exec_fenceHb_first (mark : Bool) (first : ∀ n, i.sp.wait ≠ .heartbeat n) :
    exec (.fenceHb mark) s = .next ((s.mayAccess i (storing .z8 .sys)).1.waitAt i
      ((s.mayAccess i (storing .z8 .sys)).2.getD
        (.heartbeat ((s.mayAccess i (storing .z8 .sys)).1.hb (i.tm.core / 16))))) := by
  show execFenceHb mark s = _
  rw [execFenceHb, privWord_granted ready priv,
    show storing .z8 .sys = { storing .z8 .sys with rel := true } from rfl, mayAccess_release]
  cases wait : i.sp.wait with
  | heartbeat n => exact absurd wait (first n)
  | _ =>
    cases s.afterAcquires i
    · rfl
    · cases complete : (s.release i .sys).2 <;> simp [complete, dieOf]

theorem exec_fenceHb_waiting {n : Nat} (mark : Bool) (waiting : i.sp.wait = .heartbeat n) :
    exec (.fenceHb mark) s = .next (if n < s.hb (i.tm.core / 16) then (s.fence_ i .sys).advance i mark else s) := by
  show execFenceHb mark s = _
  rw [execFenceHb, privWord_granted ready priv]
  simp only [waiting]
  rfl

theorem exec_halt (h : Head) :
    exec (.halt h) s = .next (if i.active h.guard = 0 then s.advance i h.mark else s.decodeTrap i 13 0x7E 0) :=
  privWord_granted ready priv _

end granted

theorem memWord_idle (s : State) (i : Issue) (mark : Bool) (a : Ask) (lanes : Lanes) :
    s.memWord i mark a 0 lanes = s.advance i mark := rfl

theorem memWord_held {s t : State} {i : Issue} {a : Ask} {m : Mask} {w : Wait} (mark : Bool) (lanes : Lanes) (active : m ≠ 0)
    (held : s.mayAccess i a = (t, some w)) : s.memWord i mark a m lanes = t.waitAt i w := by
  rw [State.memWord, if_neg active, held]

theorem memWord_free {s t : State} {i : Issue} {a : Ask} {m : Mask} (mark : Bool) (lanes : Lanes) (active : m ≠ 0)
    (free : s.mayAccess i a = (t, none)) : s.memWord i mark a m lanes = (t.launch i a m lanes).advance i mark := by
  rw [State.memWord, if_neg active, free]

/-- Settles O29: `privWord` traps or acts, and each word acts by its lemma above. -/
theorem privilegedWords : Obligations.PrivilegedWords := by
  intro h mark d a b c
  refine ⟨fun ins word s i ready denied => ?denied, fun s i ready priv => ?granted⟩
  case denied =>
    obtain rfl | rfl | rfl | rfl | rfl | rfl | rfl | rfl := word <;> exact privWord_denied ready denied _
  case granted =>
    refine ⟨fun l lane => ⟨fun there => ?inv, fun absent => ?noInv, exec_ebbStat ready priv d a lane⟩, ?sync,
      fun idle => ?zlineIdle, fun t w held active => ?zlineHeld, fun t free active => ?zline,
      fun first => ⟨fun t w held => ?fenceHeld, fun t free => ?fence⟩,
      fun n waiting => ⟨fun due => ?tick, fun early => ?noTick⟩, fun idle => ?haltIdle, fun active => ?halt⟩
    case inv => exact ⟨rngInv_exists ready priv false lane there, rngInv_exists ready priv true lane there⟩
    case noInv => exact ⟨rngInv_absent ready priv false lane absent, rngInv_absent ready priv true lane absent⟩
    case sync =>
      rw [exec_rngSync ready priv]
      exact ⟨fun used => by rw [if_pos ((inUse_iff _ _).2 used)], fun unused => by rw [if_neg (mt (inUse_iff _ _).1 unused)]⟩
    case zlineIdle => rw [exec_zline ready priv, idle, memWord_idle]
    case zlineHeld => rw [exec_zline ready priv, memWord_held _ _ active held]
    case zline => rw [exec_zline ready priv, memWord_free _ _ active free]
    case fenceHeld => rw [exec_fenceHb_first ready priv mark first, held]; rfl
    case fence => rw [exec_fenceHb_first ready priv mark first, free]; rfl
    case tick => rw [exec_fenceHb_waiting ready priv mark waiting, if_pos (show n < s.hb (i.tm.core / 16) from due)]
    case noTick =>
      rw [exec_fenceHb_waiting ready priv mark waiting, if_neg (show ¬n < s.hb (i.tm.core / 16) from Nat.not_lt.2 early)]
    case haltIdle => rw [exec_halt ready priv, if_pos idle]
    case halt => rw [exec_halt ready priv, if_neg active]; rfl

end Sys2Proof.Machine

/-! SUPPORT. What `acc.zero`, `acc.fin` and `mma.bud` do at issue, and the statement about them. -/

namespace Sys2Proof.Machine

/-! Shape records (R341, R347) -/

/-- The four words of a record. -/
def recordOf (bs : List Byte) : List Word := (List.range 4).map fun j => leWord ((bs.drop (8 * j)).take 8)

/-- A record that has been read is checked, and the word goes on or traps. -/
theorem State.withShape_read {s t : State} {i : Issue} {k : Nat} {bs : List Byte}
    (read : s.code ⟨i.tm.core, i.tm.ctx, i.ref, false⟩ (i.tm.shapeAddr i.wp.stage k) 32 6 = (t, .ok bs))
    (w : Word) (u : ShapeUse) (go : State → List Word → State) :
    s.withShape i w u k go = if shapeOk u (recordOf bs) then go (t.forget i.tm.core (.word i.ref)) (recordOf bs)
      else (t.forget i.tm.core (.word i.ref)).decodeTrap i 4 0x37 w := by
  rw [State.withShape, read]
  rfl

/-! `acc.zero` (R173, R362) -/

section
variable {s : State} {i : Issue} {h : Head} {dst : BitVec 6} {slot : Option (BitVec 4)} {kind : BitVec 2} {index : BitVec 5}

theorem State.accZeroWord_idle (ready : s.Ready i) (idle : lowLane (i.active h.guard) = none) (n : Issue → Nat → Nat) :
    s.accZeroWord h dst slot kind index n = .next (s.advance i h.mark) := by
  rw [State.accZeroWord, word_ready ready, idle]

/-- The lowest active lane gives the address and the number of lines. -/
theorem State.accZeroWord_enqueues {l : Nat} (ready : s.Ready i) (lane : lowLane (i.active h.guard) = some l)
    (n : Issue → Nat → Nat) : s.accZeroWord h dst slot kind index n = .next (s.enqueue i h.mark
      (commandOf s i l (.accZero (n i l)) [] (cmdReg dst i l) 0 0 slot .none kind index)) := by
  rw [State.accZeroWord, word_ready ready, lane]
  rfl

end

/-! `acc.fin` (R175, R362) -/

/-- The result that the lanes of a split await from its `acc.fin`. -/
def State.finAwaited (s : State) (i : Issue) (d : Opd) : Flight :=
  { Flight.empty s.agenda.next i i.sp.mask with dst := .reg d }

/-- The state in which the result is outstanding. -/
def State.awaitFin (s : State) (i : Issue) (d : Opd) : State :=
  { s.bump with flights := s.flights ++ [s.finAwaited i d] }

section
variable {s t : State} {i : Issue} {h : Head} {chk : Bool} {shape : BitVec 5} {d a b c : Opd} {bs : List Byte}
variable (ready : s.Ready i)
  (read : s.code ⟨i.tm.core, i.tm.ctx, i.ref, false⟩ (i.tm.shapeAddr i.wp.stage shape.toNat) 32 6 = (t, .ok bs))
include ready read

theorem exec_accFin_refused (unfit : shapeOk .fin (recordOf bs) = false) : exec (.accFin h chk shape d a b c) s =
    .next ((t.forget i.tm.core (.word i.ref)).decodeTrap i 4 0x37 (encode (.accFin h chk shape d a b c))) := by
  show execAccFin h chk shape d a b c s = _
  rw [execAccFin, word_ready ready, State.withShape_read read, unfit]
  rfl

variable (fit : shapeOk .fin (recordOf bs) = true)
include fit

theorem exec_accFin_idle (idle : lowLane (i.active h.guard) = none) : exec (.accFin h chk shape d a b c) s =
    .next ((t.forget i.tm.core (.word i.ref)).advance i h.mark) := by
  show execAccFin h chk shape d a b c s = _
  rw [execAccFin, word_ready ready, State.withShape_read read, if_pos fit]
  simp only [idle]

variable {l : Nat} (lane : lowLane (i.active h.guard) = some l)
include lane

theorem exec_accFin_full
    (full : 16 ≤ ((t.forget i.tm.core (.word i.ref)).queueOf i.ref.team i.ref.warp false).length) :
    exec (.accFin h chk shape d a b c) s = .next ((t.forget i.tm.core (.word i.ref)).waitAt i .engine) := by
  show execAccFin h chk shape d a b c s = _
  rw [execAccFin, word_ready ready, State.withShape_read read, if_pos fit]
  simp only [lane, full, if_true]

/-- The command enters its queue, and its status is an outstanding result. -/
theorem exec_accFin_enqueues
    (room : ((t.forget i.tm.core (.word i.ref)).queueOf i.ref.team i.ref.warp false).length < 16) :
    exec (.accFin h chk shape d a b c) s = .next (
      let t := t.forget i.tm.core (.word i.ref)
      ((t.awaitFin i d).addCommand i
        { commandOf (t.awaitFin i d) i l (.accFin chk) (recordOf bs ++ [regA (Opd.next c) i l]) (regA b i l) (regA a i l)
            (regA c i l) none .none 0 0 with
          reg := some d, mask := i.active h.guard, result := some (t.finAwaited i d).id }).advance i h.mark) := by
  show execAccFin h chk shape d a b c s = _
  rw [execAccFin, word_ready ready, State.withShape_read read, if_pos fit]
  simp only [lane, Nat.not_le.2 room, if_false]
  rfl

end

/-- Settles O26. `acc.zero` and `acc.fin` go by the lemmas above; `mma.bud` is its meaning, once its turn has come. -/
theorem accumulatorWords : Obligations.AccumulatorWords := by
  intro h dst src n slot kind index chk shape d a b c s i ready
  refine ⟨fun idle => ?zeroIdle, fun l lane => ?zero, fun t bs read => ?fin, fun mark => word_ready ready _⟩
  case zeroIdle => exact ⟨State.accZeroWord_idle ready idle _, State.accZeroWord_idle ready idle _⟩
  case zero => exact ⟨State.accZeroWord_enqueues ready lane _, State.accZeroWord_enqueues ready lane _⟩
  case fin =>
    exact ⟨exec_accFin_refused ready read, fun fit => ⟨exec_accFin_idle ready read fit, fun l lane =>
      ⟨exec_accFin_full ready read fit lane, exec_accFin_enqueues ready read fit lane⟩⟩⟩

end Sys2Proof.Machine

/-! SUPPORT. What the events of matrix runs and of their emissions do, and the statement about them. -/

namespace Sys2Proof.Machine

/-! Cores and commands after a change -/

theorem State.core_modCore_self (s : State) (n : Nat) (f : Core → Core) : (s.modCore n f).core n = f (s.core n) := by
  simp only [State.core, State.modCore_cores, tget, tget?_tset_self, Option.getD_some]

theorem State.core_modCore_ne (s : State) {n k : Nat} (f : Core → Core) (other : k ≠ n) :
    (s.modCore n f).core k = s.core k := by
  simp only [State.core, State.modCore_cores, tget, tget?_tset_ne other]

/-- The first command of an identity is still the first, as changed, when the change keeps identities. -/
theorem State.cmd?_modCmd {s : State} {id : Nat} {c : Command} {f : Command → Command} (held : s.cmd? id = some c)
    (keeps : ∀ x, (f x).id = x.id) : (s.modCmd id f).cmd? id = some (f c) := by
  have named : c.id = id := by simpa using List.find?_some held
  have same : (fun x : Command => x.id == id) ∘ (fun x : Command => if x.id = id then f x else x) = fun x => x.id == id := by
    funext x
    by_cases own : x.id = id <;> simp [own, keeps]
  show List.find? _ (List.map _ s.engines.cmds) = _
  rw [List.find?_map, same, show s.engines.cmds.find? (fun x => x.id == id) = some c from held]
  simp [named]

/-! The bytes that a run takes (R357, R358) -/

section
variable (s : State) (core : Nat) (c : Command)

/-- The bytes of its A stream that a run takes from the FIFO. -/
def State.takenA : List FifoByte := (s.core core).fifoA.take (c.run.lenA - c.gotA.length)

/-- The run with those bytes. -/
def State.fedA : Command := { c with gotA := c.gotA ++ s.takenA core c }

/-- The run then has its whole A stream. -/
abbrev State.wholeA : Prop := c.run.lenA ≤ c.gotA.length + (s.takenA core c).length

/-- The bytes that it takes of its B stream, and of the odd core's B stream. -/
def State.takenB : List FifoByte :=
  if s.wholeA core c then (s.core core).fifoB.take (c.run.lenB - c.gotB.length) else []
def State.takenOdd : List FifoByte :=
  if s.wholeA core c ∧ c.isTwin = true then (s.core (core + 1)).fifoB.take (c.run.lenB - c.gotOdd.length) else []

/-- The run with the bytes of every stream. -/
def State.fed : Command :=
  { c with gotA := c.gotA ++ s.takenA core c, gotB := c.gotB ++ s.takenB core c, gotOdd := c.gotOdd ++ s.takenOdd core c }

/-- The FIFOs without them. -/
def State.drained : State :=
  let t := s.modCore core fun x => { x with
    fifoA := x.fifoA.drop (s.takenA core c).length, fifoB := x.fifoB.drop (s.takenB core c).length }
  if c.isTwin then t.modCore (core + 1) fun x => { x with fifoB := x.fifoB.drop (s.takenOdd core c).length } else t

theorem State.needA_fedA : (s.fedA core c).needA = 0 ↔ s.wholeA core c := by
  rw [Command.needA, Nat.sub_eq_zero_iff_le, State.fedA, List.length_append]
  rfl

theorem State.takenB_eq :
    s.takenB core c = if (s.fedA core c).needA = 0 then (s.core core).fifoB.take (s.fedA core c).needB else [] :=
  (ite_congr (propext (s.needA_fedA core c)) (fun _ => rfl) (fun _ => rfl)).symm

/-- A run that is no twin needs nothing of the odd core. -/
theorem State.takenOdd_eq : s.takenOdd core c =
    if (s.fedA core c).needA = 0 then (s.core (core + 1)).fifoB.take (s.fedA core c).needOdd else [] := by
  have needOdd : (s.fedA core c).needOdd = if c.isTwin then c.run.lenB - c.gotOdd.length else 0 := rfl
  rw [ite_congr (propext (s.needA_fedA core c)) (fun _ => rfl) (fun _ => rfl), State.takenOdd, needOdd]
  by_cases twin : c.isTwin = true <;> simp [twin]

theorem State.consume_eq : s.consume core c = (s.drained core c).modCmd c.id fun x => { x with
    gotA := (s.fed core c).gotA, gotB := (s.fed core c).gotB, gotOdd := (s.fed core c).gotOdd } := by
  simp only [State.fed, State.drained, State.takenB_eq, State.takenOdd_eq]
  rfl

theorem State.drained_engines : (s.drained core c).engines = s.engines := by
  unfold State.drained
  split <;> rfl

theorem State.core_consume : (s.consume core c).core core = { s.core core with
    fifoA := (s.core core).fifoA.drop (s.takenA core c).length
    fifoB := (s.core core).fifoB.drop (s.takenB core c).length } := by
  rw [State.consume_eq]
  show (s.drained core c).core core = _
  unfold State.drained
  split
  · rw [State.core_modCore_ne _ _ (Nat.ne_of_lt core.lt_succ_self), State.core_modCore_self]
  · rw [State.core_modCore_self]

variable {s c} in
theorem State.cmd?_consume (held : s.cmd? c.id = some c) : (s.consume core c).cmd? c.id = some (s.fed core c) := by
  have still : (s.drained core c).cmd? c.id = some c := by rw [State.cmd?, State.drained_engines]; exact held
  rw [State.consume_eq, State.cmd?_modCmd still (by intro; rfl)]
  rfl

end

/-! The start of a run (R163, R357 to R360, R400) -/

/-- A run that stands at the head of its queue, in a team that runs. -/
structure State.AtStart (s : State) (c : Command) (tm : Team) : Prop where
  held : s.cmd? c.id = some c
  team : s.cmdTeam c = some tm
  matrix : c.matrix = true
  queued : c.st = .queued
  verdict : c.verdict = some true
  running : tm.status = .running
  after : s.afterDone c = true
  head : s.atHead c = true

/-- The state in which the array chooses its next run: what is ready is noted, and the buckets have filled. -/
def State.choosing (s : State) (core : Nat) (cores : List Nat) : State :=
  (cores.foldl State.fillBucket (s.noteReady core)).bumpFree

/-- The buckets have paid a charge. -/
def State.charged (s : State) (cores : List Nat) (te charge : Nat) : State :=
  cores.foldl (fun (s : State) k => s.modCore k fun x => { x with budget := x.budget.take te charge }) s

/-- The chosen run runs, and those that it goes before have been passed over. -/
def State.startRun (s : State) (core id : Nat) : State :=
  { s with engines := { s.engines with
    cmds := s.engines.cmds.map fun (x : Command) => x.started id (((s.readyRuns core).filter s.runnable).map Command.id) } }

/-- A run whose duplicate differs ends in a trap (R400). -/
def State.duplicateTrap (s : State) (c : Command) (tm : Team) : State :=
  ((s.modCmd c.id fun x => { x with st := .faulted }).raise c.team (Trap.ofCommand c 12 0x73 0 0)).logEvent 0x0E
    (s.ctxFn tm.ctx) tm.ctx (2372 + tm.core) c.dst c.pc

theorem Budget.covers_iff {b : Budget} {charge : Nat} : b.covers charge = true ↔ charge ≤ b.level ∨ b.level = 65535 := by
  simp [Budget.covers]

section
variable {s : State} {c : Command} {tm : Team} (start : s.AtStart c tm) (dup : Bool)
include start

theorem State.AtStart.passes : (!c.matrix || c.st != .queued || c.verdict != some true || tm.status != .running ||
    !s.afterDone c || !s.atHead c) = false := by
  simp [start.matrix, start.queued, start.verdict, start.running, start.after, start.head]

theorem exec_mmaRunStart_twinless (twin : c.isTwin = true) (single : tm.twin = false) : exec (.mmaRunStart c.id dup) s =
    .next ((s.modCmd c.id fun x => { x with st := .faulted }).raise c.team (Trap.ofCommand c 12 0x72 0 0)) := by
  show execMmaRunStart c.id dup s = _
  simp only [execMmaRunStart, start.held, start.team, start.passes, twin, single]
  rfl

variable (seated : (c.isTwin && !tm.twin) = false)
include seated

theorem exec_mmaRunStart_fault {f : XFault} {a : Word}
    (tile : s.tileSites c tm .accWr c.dst c.tileLines = .fault f a) :
    exec (.mmaRunStart c.id dup) s = .next (s.engineFault c f a) := by
  show execMmaRunStart c.id dup s = _
  simp only [execMmaRunStart, start.held, start.team, start.passes, seated, tile]
  rfl

theorem exec_mmaRunStart_walk {gs : List Word} (tile : s.tileSites c tm .accWr c.dst c.tileLines = .walk gs) :
    exec (.mmaRunStart c.id dup) s = .next (s.joinTile c tm gs) := by
  show execMmaRunStart c.id dup s = _
  simp only [execMmaRunStart, start.held, start.team, start.passes, seated, tile]
  rfl

/-- The array's next run, on a free array whose buckets cover its charge, pays and starts. -/
theorem exec_mmaRunStart_chosen {ls : List (Xlat × Nat)} {u : State} {d : Command} {te charge : Nat}
    (tile : s.tileSites c tm .accWr c.dst c.tileLines = .ok ls)
    (fifos : (c.arrays tm.core).foldl (fun (acc : Option State) k => acc.bind fun s => s.takeFifos k c.team)
      (some (s.usedTile c tm ls)) = some u)
    (next : (u.choosing tm.core (c.arrays tm.core)).nextRun tm.core = some d) (same : d.id = c.id)
    (twins : d.isTwin = c.isTwin) (estimate : d.te = some (te, charge))
    (free : ∀ k ∈ c.arrays tm.core, (u.choosing tm.core (c.arrays tm.core)).arrayBusy k = false ∧
      ((u.choosing tm.core (c.arrays tm.core)).core k).budget.covers charge = true) :
    exec (.mmaRunStart c.id dup) s = .next (
      let v := (u.choosing tm.core (c.arrays tm.core)).charged (c.arrays tm.core) te charge
      if dup then v.duplicateTrap d tm else v.startRun tm.core d.id) := by
  have arrays : d.arrays tm.core = c.arrays tm.core := by rw [Command.arrays, twins, ← Command.arrays.eq_1]
  have chosen : ((u.choosing tm.core (c.arrays tm.core)).nextRun tm.core).filter (fun x => x.id == c.id) = some d := by
    simp [next, same]
  have pays : ((c.arrays tm.core).any fun k => (u.choosing tm.core (c.arrays tm.core)).arrayBusy k ||
      !((u.choosing tm.core (c.arrays tm.core)).core k).budget.covers charge) = false :=
    List.any_eq_false.2 fun k array => by simp [free k array]
  show execMmaRunStart c.id dup s = _
  simp only [execMmaRunStart, start.held, start.team, start.passes, seated, tile, fifos, ← State.choosing.eq_1, chosen, arrays,
    estimate, Option.map_some, Option.getD_some, pays]
  rfl

end

/-! The end of a run (R167, R309, R358) -/

/-- A run that has its streams sends its emissions, and has then moved its tile. -/
def State.emitRun (u : State) (c : Command) (tm : Team) (ls : List (Xlat × Nat)) : State :=
  let es := u.emissionsOf c tm ls
  let v := ({ u with
    engines := { u.engines with emissions := u.engines.emissions ++ es }
    agenda := { u.agenda with next := u.agenda.next + es.length } } : State).tookFree es.length
  (v.moved v c (128 * c.tileLines) none).modCmd c.id fun x => { x with gotA := [], gotB := [], gotOdd := [] }

/-- What a run does that has its streams: its tile awaits a walk, faults, or receives the emissions. -/
def State.endRun (u : State) (c : Command) (tm : Team) : State :=
  match u.tileSites c tm .accWr c.dst c.tileLines with
  | .walk gs => u.joinTile c tm gs
  | .fault f v => u.engineFault c f v
  | .ok ls => (u.usedTile c tm ls).emitRun c tm ls

section
variable {u : State} {c : Command} {tm : Team}

theorem State.endRun_fault {f : XFault} {v : Word} (tile : u.tileSites c tm .accWr c.dst c.tileLines = .fault f v) :
    u.endRun c tm = u.engineFault c f v := by
  rw [State.endRun, tile]

theorem State.endRun_walk {gs : List Word} (tile : u.tileSites c tm .accWr c.dst c.tileLines = .walk gs) :
    u.endRun c tm = u.joinTile c tm gs := by
  rw [State.endRun, tile]

theorem State.endRun_ok {ls : List (Xlat × Nat)} (tile : u.tileSites c tm .accWr c.dst c.tileLines = .ok ls) :
    u.endRun c tm = (u.usedTile c tm ls).emitRun c tm ls := by
  rw [State.endRun, tile]

end

/-- A run that its array has started. -/
structure State.AtEnd (s : State) (c : Command) (tm : Team) : Prop where
  held : s.cmd? c.id = some c
  team : s.cmdTeam c = some tm
  matrix : c.matrix = true
  running : c.st = .running

/-- The bytes that a run still takes. -/
def Command.need (c : Command) : Nat := c.needA + c.needB + c.needOdd

section
variable {s : State} {c : Command} {tm : Team} (started : s.AtEnd c tm)
include started

theorem State.AtEnd.passes : (!c.matrix || c.st != .running) = false := by
  simp [started.matrix, started.running]

theorem exec_mmaRunEnd_lacks (lacks : (s.fed tm.core c).need ≠ 0) :
    exec (.mmaRunEnd c.id) s = .next (s.consume tm.core c) := by
  show execMmaRunEnd c.id s = _
  simp only [execMmaRunEnd, started.held, started.team, started.passes, State.cmd?_consume, ← Command.need.eq_1,
    bne_iff_ne.2 lacks]
  rfl

theorem exec_mmaRunEnd_whole (whole : (s.fed tm.core c).need = 0) :
    exec (.mmaRunEnd c.id) s = .next ((s.consume tm.core c).endRun (s.fed tm.core c) tm) := by
  show execMmaRunEnd c.id s = _
  simp only [execMmaRunEnd, started.held, started.team, started.passes, State.cmd?_consume, ← Command.need.eq_1, whole]
  rfl

end

/-! The application of an emission (R168, R171) -/

section
variable {s t : State} {e : Emission} {pa : Nat}
  (held : s.engines.emissions.find? (fun x => x.id == e.id) = some e) (here : s.spot e.xl e.off = .at_ pa)
  (home : e.scope ≠ 1)
include held here home

theorem exec_emissionApply_waits
    (asked : s.askAll (2372 + e.core) e.id (s.stampOf (2372 + e.core) e.id) (e.lines pa) = (t, false)) :
    exec (.emissionApply e.id) s = .next t := by
  show execEmissionApply e.id s = _
  simp only [execEmissionApply, held, here, home, asked, if_false]

theorem exec_emissionApply_applies
    (asked : s.askAll (2372 + e.core) e.id (s.stampOf (2372 + e.core) e.id) (e.lines pa) = (t, true)) :
    exec (.emissionApply e.id) s = .next ((t.homeEmission e.xl.key e.xl.fn pa (e.vals.map BitVec.toNat) e.poison
      e.tag.toNat e.scope e.check.toNat e.count).dropEmission e.id) := by
  show execEmissionApply e.id s = _
  simp only [execEmissionApply, held, here, home, asked, if_false]

end

/-! The statement -/

/-- Settles O42: each clause is the event's lemma above. The bytes that a run takes are those of `State.consume_eq`. -/
theorem matrixEvents : Obligations.MatrixEvents := by
  intro s c tm held team matrix cores
  refine ⟨fun queued verdict running after head => ?starts, fun running => ?ends, fun e pa t held here home => ?applies⟩
  case starts =>
    have start : s.AtStart c tm := ⟨held, team, matrix, queued, verdict, running, after, head⟩
    refine ⟨fun twin single dup => exec_mmaRunStart_twinless start dup twin single, fun placed => ?_⟩
    have seated : (c.isTwin && !tm.twin) = false := by
      obtain single | twin := placed
      · simp [single]
      · simp [twin]
    refine ⟨fun f a tile dup => exec_mmaRunStart_fault start dup seated tile,
      fun gs tile dup => exec_mmaRunStart_walk start dup seated tile, ?_⟩
    intro ls u tile fifos t d te charge next same twins estimate free
    have chosen (dup : Bool) := exec_mmaRunStart_chosen start dup seated tile fifos next same twins estimate
      fun k array => (free k array).imp_right Budget.covers_iff.2
    exact ⟨chosen false, chosen true⟩
  case ends =>
    have started : s.AtEnd c tm := ⟨held, team, matrix, running⟩
    have left := State.core_consume s tm.core c
    refine ⟨State.cmd?_consume tm.core held, congrArg Core.fifoA left, congrArg Core.fifoB left,
      exec_mmaRunEnd_lacks started, fun whole => ?_⟩
    have ended := exec_mmaRunEnd_whole started whole
    exact ⟨fun f v tile => ended.trans (congrArg _ (State.endRun_fault tile)),
      fun gs tile => ended.trans (congrArg _ (State.endRun_walk tile)),
      fun ls tile => ended.trans (congrArg _ (State.endRun_ok tile))⟩
  case applies =>
    exact ⟨exec_emissionApply_waits held here home, exec_emissionApply_applies held here home⟩

end Sys2Proof.Machine

/-! SUPPORT. What branches, drop sets, divergence, merging, `exit` and `trap` do, and the statements about them. -/

namespace Sys2Proof.Machine

/-! Branches and their queues (R193, R194, R254, R255, R257) -/

/-- No split number is free when the four of them are taken. -/
theorem freeNum_isNone (x : SliceState) :
    x.freeNum.isNone = [0, 1, 2, 3].all fun n => x.splits.any (·.num == n) := by
  rw [Bool.eq_iff_iff, Option.isNone_iff_eq_none, SliceState.freeNum, List.find?_eq_none, List.all_eq_true]
  simp only [Bool.not_eq_true', Bool.not_eq_false]

theorem overflow_iff {i : Issue} {t : Mask} :
    i.overflow t = true ↔ t ≠ 0 ∧ t ≠ i.sp.mask ∧ 32 < i.sl.stack.length + 1 +
      (if ([0, 1, 2, 3].all fun n => i.sl.splits.any (·.num == n)) then 1 else 0) := by
  simp only [Issue.overflow, SliceState.overflows, freeNum_isNone, Bool.and_eq_true, bne_iff_ne, decide_eq_true_eq,
    and_assoc]

/-- A queue of `cap` entries holds a push back while it is full and the stream that pops it has not ended (R194). -/
theorem full_iff {ended : Bool} {cap n : Nat} : (!ended && decide (cap ≤ n)) = true ↔ ended = false ∧ cap ≤ n := by
  rw [Bool.and_eq_true, Bool.not_eq_true', decide_eq_true_eq]

theorem not_full_of_room {ended : Bool} {cap n : Nat} (room : ended = true ∨ n < cap) :
    ¬(!ended && decide (cap ≤ n)) = true := by
  intro full
  obtain ⟨running, full⟩ := full_iff.1 full
  obtain done | free := room
  · exact Bool.false_ne_true (running.symm.trans done)
  · exact Nat.not_le.2 free full

/-- A branch that has its outcome: it traps when its divergence finds no stack entry, and goes its ways otherwise. -/
def State.branchOrTrap (s : State) (i : Issue) (mark : Bool) (rc : BitVec 14) (tgt : BitVec 26) (t : Mask)
    (f : Warp → Warp) : State :=
  if i.overflow t then s.decodeTrap i 7 0x3A 0
  else (s.modWarp i.ref.team i.ref.warp f).branch i mark (i.target tgt) (i.recon rc) t

section
variable {s : State} {i : Issue} (mark : Bool) (rc : BitVec 14) (tgt : BitVec 26) {t : Mask} (f : Warp → Warp)

theorem branchOrTrap_traps (many : i.overflow t = true) :
    s.branchOrTrap i mark rc tgt t f = s.decodeTrap i 7 0x3A 0 := if_pos many

theorem branchOrTrap_goes (few : ¬i.overflow t = true) : s.branchOrTrap i mark rc tgt t f =
    (s.modWarp i.ref.team i.ref.warp f).branch i mark (i.target tgt) (i.recon rc) t := if_neg few

end

section
variable {s : State} {i : Issue} {h : Head} (dropT dropF : BitVec 5) (rc : BitVec 14) (tgt : BitVec 26)
  (ready : s.Ready i)
include ready

theorem exec_br_full (guarded : h.guard ≠ ⟨false, 7⟩) (running : i.wp.c.ended = false) (full : 16 ≤ i.wp.boq.length) :
    exec (.br h rc tgt) s = .next (s.waitAt i (.push 5 false)) := by
  show execBr h rc tgt s = _
  rw [execBr, word_ready ready, if_neg guarded]
  exact congrArg _ (if_pos (full_iff.2 ⟨running, full⟩))

theorem exec_br (guarded : h.guard ≠ ⟨false, 7⟩) (room : i.wp.c.ended = true ∨ i.wp.boq.length < 16) :
    exec (.br h rc tgt) s = .next (s.branchOrTrap i h.mark rc tgt (i.active h.guard)
      (·.pushOutcome i.sp.mask (i.active h.guard))) := by
  show execBr h rc tgt s = _
  rw [execBr, word_ready ready, if_neg guarded]
  exact congrArg _ (if_neg (not_full_of_room room))

theorem exec_brB_full (running : i.wp.a.ended = false) (full : 8 ≤ i.wp.back.length) :
    exec (.brB h dropT dropF rc tgt) s = .next (s.waitAt i (.push 6 false)) := by
  show execBrB h dropT dropF rc tgt s = _
  rw [execBrB, word_ready ready]
  exact congrArg _ (if_pos (full_iff.2 ⟨running, full⟩))

theorem exec_brB (room : i.wp.a.ended = true ∨ i.wp.back.length < 8) :
    exec (.brB h dropT dropF rc tgt) s = .next (s.branchOrTrap i h.mark rc tgt (i.active h.guard) fun w =>
      (w.pushBack i.sp.mask (i.active h.guard) (i.sl.dropLimit i.sp.mask)).dropSides (i.sl.dropLimit i.sp.mask) dropT
        dropF i.sp.mask (i.active h.guard)) := by
  show execBrB h dropT dropF rc tgt s = _
  rw [execBrB, word_ready ready]
  exact congrArg _ (if_neg (not_full_of_room room))

theorem exec_brQ_empty (mark : Bool) (none_ : findOutcome i.wp.boq i.sp.mask = none) :
    exec (.brQ mark dropT dropF rc tgt) s = .next (s.waitAt i (.pop 5 i.sp.mask)) := by
  show execBrQ mark dropT dropF rc tgt s = _
  rw [execBrQ, word_ready ready, none_]

theorem exec_brQ (mark : Bool) {e : Outcome} (found : findOutcome i.wp.boq i.sp.mask = some e) :
    exec (.brQ mark dropT dropF rc tgt) s = .next (s.branchOrTrap i mark rc tgt (i.sp.mask &&& e.taken) fun w =>
      ({ w with boq := takeOutcome w.boq i.sp.mask, c := w.c.popped i.sp.mask e.num } : Warp).dropSides e.num dropT
        dropF i.sp.mask (i.sp.mask &&& e.taken)) := by
  show execBrQ mark dropT dropF rc tgt s = _
  rw [execBrQ, word_ready ready, found]
  rfl

theorem exec_brBack_empty (mark : Bool) (none_ : findOutcome i.wp.back i.sp.mask = none) :
    exec (.brBack mark dropT dropF rc tgt) s = .next (s.waitAt i (.pop 6 i.sp.mask)) := by
  show execBrBack mark dropT dropF rc tgt s = _
  rw [execBrBack, word_ready ready, none_]

theorem exec_brBack (mark : Bool) {e : Outcome} (found : findOutcome i.wp.back i.sp.mask = some e) :
    exec (.brBack mark dropT dropF rc tgt) s = .next (s.branchOrTrap i mark rc tgt (i.sp.mask &&& e.taken) fun w =>
      ({ w with back := takeOutcome w.back i.sp.mask } : Warp).dropSides e.num dropT dropF i.sp.mask
        (i.sp.mask &&& e.taken)) := by
  show execBrBack mark dropT dropF rc tgt s = _
  rw [execBrBack, word_ready ready, found]
  rfl

end

/-- Settles O9: a branch waits for its queue or comes to `State.branchOrTrap`, whose two cases are the statement's. -/
theorem divergingBranches : Obligations.DivergingBranches := by
  intro h dropT dropF rc tgt s i ready target recon tooMany sent change t
  have many {u : Mask} : tooMany u → i.overflow u = true := overflow_iff.2
  have few {u : Mask} (fits : ¬tooMany u) : ¬i.overflow u = true := mt overflow_iff.1 fits
  refine ⟨fun guarded => ⟨exec_br_full rc tgt ready guarded, fun room overfull => ?_, fun room fits => ?_⟩,
    exec_brB_full dropT dropF rc tgt ready, fun room overfull => ?_, fun room fits => ?_,
    exec_brQ_empty dropT dropF rc tgt ready h.mark, exec_brBack_empty dropT dropF rc tgt ready h.mark,
    fun e found => ⟨fun overfull => ?_, fun fits => ?_⟩, fun e found => ⟨fun overfull => ?_, fun fits => ?_⟩⟩
  · rw [exec_br rc tgt ready guarded room, branchOrTrap_traps _ _ _ _ (many overfull)]
  · rw [exec_br rc tgt ready guarded room, branchOrTrap_goes _ _ _ _ (few fits)]
    rfl
  · rw [exec_brB dropT dropF rc tgt ready room, branchOrTrap_traps _ _ _ _ (many overfull)]
  · rw [exec_brB dropT dropF rc tgt ready room, branchOrTrap_goes _ _ _ _ (few fits)]
    rfl
  · rw [exec_brQ dropT dropF rc tgt ready h.mark found, branchOrTrap_traps _ _ _ _ (many overfull)]
  · rw [exec_brQ dropT dropF rc tgt ready h.mark found, branchOrTrap_goes _ _ _ _ (few fits)]
    rfl
  · rw [exec_brBack dropT dropF rc tgt ready h.mark found, branchOrTrap_traps _ _ _ _ (many overfull)]
  · rw [exec_brBack dropT dropF rc tgt ready h.mark found, branchOrTrap_goes _ _ _ _ (few fits)]
    rfl

/-! Drop sets (R193) -/

/-- An entry without the lanes of a mask when it is old enough. -/
def QEntry.dropped (limit : Nat) (m : Mask) (e : QEntry) : QEntry :=
  if e.stamp ≤ limit then { e with tag := e.tag &&& ~~~m } else e

theorem QEntry.dropped_tag (limit : Nat) (m : Mask) (e : QEntry) :
    (e.dropped limit m).tag = if e.stamp ≤ limit then e.tag &&& ~~~m else e.tag := apply_ite QEntry.tag _ _ _

theorem QEntry.dropped_id (limit : Nat) (m : Mask) (e : QEntry) : (e.dropped limit m).id = e.id :=
  (apply_ite QEntry.id _ _ _).trans (ite_self _)

theorem QEntry.dropped_stamp (limit : Nat) (m : Mask) (e : QEntry) : (e.dropped limit m).stamp = e.stamp :=
  (apply_ite QEntry.stamp _ _ _).trans (ite_self _)

theorem QEntry.dropped_vals (limit : Nat) (m : Mask) (e : QEntry) : (e.dropped limit m).vals = e.vals :=
  (apply_ite QEntry.vals _ _ _).trans (ite_self _)

theorem mem_dropUpTo {limit : Nat} {m : Mask} {q : List QEntry} {e : QEntry} :
    e ∈ dropUpTo limit q m ↔ e.tag ≠ 0 ∧ ∃ e' ∈ q, e'.dropped limit m = e := by
  simp only [dropUpTo, List.mem_filter, List.mem_map, bne_iff_ne, and_comm]
  rfl

/-! Divergence and merging (R204 to R206, R259) -/

theorem within_zero_iff {m : Mask} : within_ m 0 = true ↔ m = 0 := by
  rw [within_, show ~~~(0 : Mask) = BitVec.allOnes 32 from rfl, BitVec.and_allOnes, beq_iff_eq]

theorem lowLane_eq_none_iff {m : Mask} : lowLane m = none ↔ m = 0#32 := by
  simp only [lowLane, List.find?_eq_none, List.mem_range, Bool.not_eq_true]
  exact ⟨fun unset => BitVec.eq_of_getLsbD_eq fun l hl => by rw [unset l hl, BitVec.getLsbD_zero],
    fun zero l _ => by rw [zero, BitVec.getLsbD_zero]⟩

theorem within_self (m : Mask) : within_ m m = true := by simp [within_]

theorem settleLoop_parks {x y : SliceState} (n : Nat) (parks : x.parkOne = some y) :
    x.settleLoop (n + 1) = y.settleLoop n := by
  rw [SliceState.settleLoop, parks]

theorem settleLoop_merges {x y : SliceState} (n : Nat) (parked : x.parkOne = none) (merges : x.mergeOne = some y) :
    x.settleLoop (n + 1) = y.settleLoop n := by
  rw [SliceState.settleLoop, parked, merges]

theorem settleLoop_settled {x : SliceState} (n : Nat) (parked : x.parkOne = none) (merged : x.mergeOne = none)
    (started : x.startOne = none) : x.settleLoop n = x := by
  cases n with
  | zero => rfl
  | succ n => rw [SliceState.settleLoop, parked, merged, started]

/-- What the split of one side of a divergence has of its own. -/
structure Way where
  pc : Word
  fmt : BitVec 32
  link : Word
  fetched : List (Word × Word)

/-- The split of a side, with the lanes `m` and `recon` ahead of it. -/
def Way.split (a : Way) (num : Nat) (recon : Word) (m : Mask) : Split :=
  ⟨num, a.pc, m, some recon, a.fmt, a.link, a.fetched, false, none, .none, none⟩

/-- A slice with one join entry, of the lanes `m` at `recon`, and the splits and the parked lanes given. -/
def SliceState.joining (x : SliceState) (recon : Word) (m : Mask) (fmt : BitVec 32) (sps : List Split)
    (parked : List Parked) : SliceState :=
  { x with splits := sps, parked := parked, stack := [.join recon m none fmt] }

/-- A slice whose split of the lanes `m` has diverged: its lanes `t` are the side b, the others the side a. -/
def SliceState.forked (x : SliceState) (recon : Word) (m t : Mask) (fmt : BitVec 32) (a b : Way) : SliceState :=
  x.joining recon m fmt [a.split 0 recon (m &&& ~~~t), b.split 1 recon (m &&& t)] []

/-- A slice with one split, of the lanes `m` at `recon`, and nothing parked or on its stack. -/
def SliceState.merged (x : SliceState) (recon : Word) (m : Mask) (fmt : BitVec 32) (link : Word) : SliceState :=
  { x with splits := [⟨0, recon, m, none, fmt, link, [], false, none, .none, none⟩], parked := [], stack := [] }

theorem joining_eq {x : SliceState} (bare : x.parked = []) {recon : Word} {m : Mask} {fmt : BitVec 32} {sps : List Split} :
    x.joining recon m fmt sps [] = { x with splits := sps, stack := [.join recon m none fmt] } := by
  rw [← bare]
  rfl

theorem merged_eq {x : SliceState} (bare : x.parked = []) {recon : Word} {m : Mask} {fmt : BitVec 32} {link : Word} :
    x.merged recon m fmt link =
      { x with splits := [⟨0, recon, m, none, fmt, link, [], false, none, .none, none⟩], stack := [] } := by
  rw [SliceState.merged, ← bare]

/-- The slice with the offers of the splits 0 and 1 alone. -/
def SliceState.offers01 (x : SliceState) : SliceState :=
  { x with offers := x.offers.filter fun o => o.split == 0 || o.split == 1 }

section
variable (x : SliceState) (recon : Word) (m : Mask) (fmt : BitVec 32)

/-- R204: a new split takes the lowest free number. -/
theorem joining_start {f : Split} (zero : f.num = 0) (ps : List Parked) (b : Way) (fresh : b.fetched = []) (n : Mask) :
    (x.joining recon m fmt [f] ps).start b.pc n (some recon) b.fmt b.link false =
      x.joining recon m fmt [f, b.split 1 recon n] ps := by
  have free : (x.joining recon m fmt [f] ps).freeNum = some 1 := by
    simp [SliceState.freeNum, SliceState.joining, zero]
  rw [SliceState.start, free, Way.split, fresh]
  rfl

theorem joining_startOne (sps : List Split) (ps : List Parked) : (x.joining recon m fmt sps ps).startOne = none := by
  cases free : (x.joining recon m fmt sps ps).freeNum with
  | none => rw [SliceState.startOne, free]
  | some n => rw [SliceState.startOne, free]; rfl

/-- A side that stands at the join parks there. -/
theorem joining_parkOne {a : Way} (at_ : a.pc = recon) {num : Nat} {n : Mask} {rest : List Split} (ps : List Parked)
    (others : ∀ sp ∈ rest, sp.num ≠ num) :
    (x.joining recon m fmt (a.split num recon n :: rest) ps).parkOne =
      some (x.joining recon m fmt rest (⟨recon, n, a.link⟩ :: ps)) := by
  have kept : rest.filter (fun sp => sp.num != num) = rest :=
    List.filter_eq_self.2 fun sp mem => bne_iff_ne.2 (others sp mem)
  simp [SliceState.parkOne, SliceState.joining, Way.split, at_, kept]

theorem joining_joinReady (sps : List Split) (ps : List Parked) : (x.joining recon m fmt sps ps).joinReady =
    if within_ m ((x.joining recon m fmt sps ps).parkedAt recon) then some (recon, m, none, fmt) else none := by
  simp [SliceState.joinReady, SliceState.joining]

theorem merged_settled (link : Word) (n : Nat) : (x.merged recon m fmt link).settleLoop n = x.merged recon m fmt link :=
  settleLoop_settled n rfl rfl rfl

end

section
variable (x : SliceState) {live m t : Mask} {recon : Word} (fmt : BitVec 32) (a b : Way) (one : m &&& t ≠ 0#32)
include one

theorem whole_ne_zero : m ≠ 0#32 := by
  rintro rfl
  exact one BitVec.zero_and

/-- R205, R206: where neither side stands at the join, nothing parks, merges or starts. -/
theorem forked_settled (offA : a.pc ≠ recon) (offB : b.pc ≠ recon) (n : Nat) :
    (x.forked recon m t fmt a b).settleLoop n = x.forked recon m t fmt a b := by
  have apart : ¬within_ m ((x.forked recon m t fmt a b).parkedAt recon) = true :=
    mt within_zero_iff.1 (whole_ne_zero one)
  refine settleLoop_settled n ?_ ?_ (joining_startOne ..)
  · simp [SliceState.forked, SliceState.parkOne, SliceState.joining, Way.split, offA.symm, offB.symm]
  · rw [SliceState.forked] at apart ⊢
    rw [SliceState.mergeOne, joining_joinReady, if_neg apart]

/-- R206, R259: the lanes of both sides are parked at the join, and merge with the link of the lowest. -/
theorem joining_mergeOne (link0 link1 : Word) :
    (x.joining recon m fmt [] [⟨recon, m &&& t, link1⟩, ⟨recon, m &&& ~~~t, link0⟩]).mergeOne =
      some (x.merged recon m fmt (if (lowLane m).any fun l => t.getLsbD l then link1 else link0)) := by
  have all : (x.joining recon m fmt [] [⟨recon, m &&& t, link1⟩, ⟨recon, m &&& ~~~t, link0⟩]).parkedAt recon = m := by
    apply BitVec.eq_of_getLsbD_eq
    intro l hl
    simp [SliceState.parkedAt, SliceState.joining, hl, ← Bool.and_or_distrib_left]
  have gone (n : Mask) : m &&& n &&& ~~~m = 0#32 := by
    rw [BitVec.and_comm m, BitVec.and_assoc, show m &&& ~~~m = 0#32 by simp, BitVec.and_zero]
  cases low : lowLane m with
  | none => exact absurd (lowLane_eq_none_iff.1 low) (whole_ne_zero one)
  | some l =>
    have lane : m.getLsbD l = true := by simpa using List.find?_some low
    rw [SliceState.mergeOne, joining_joinReady, all, if_pos (within_self m)]
    have below : l < 32 := BitVec.lt_of_getLsbD lane
    rw [BitVec.getLsbD_eq_getElem below] at lane
    cases side : t[l] <;>
      simp [low, side, lane, below, gone, SliceState.joining, SliceState.merged, SliceState.start, SliceState.freeNum]

variable (other : m &&& ~~~t ≠ 0#32) (lives : m &&& live = m)
include other lives

/-- The lanes of both sides are alive, so a slice that settles keeps them, and the offers of their splits. -/
theorem forked_shrink : (x.forked recon m t fmt a b).shrink live = x.offers01.forked recon m t fmt a b := by
  have alive (n : Mask) : m &&& n &&& live = m &&& n := by
    rw [BitVec.and_assoc, BitVec.and_comm n, ← BitVec.and_assoc, lives]
  simp [SliceState.shrink, SliceState.forked, SliceState.joining, SliceState.offers01, Way.split, alive, lives,
    bne_iff_ne.2 one, bne_iff_ne.2 other, whole_ne_zero one, BEq.comm (a := 0), BEq.comm (a := 1)]

theorem diverge_settles (fresh : b.fetched = []) (offA : a.pc ≠ recon) (offB : b.pc ≠ recon) :
    ((x.joining recon m fmt [a.split 0 recon (m &&& ~~~t)] []).start b.pc (m &&& t) (some recon) b.fmt b.link
      false).settle live = x.offers01.forked recon m t fmt a b := by
  rw [joining_start x recon m fmt rfl [] b fresh]
  exact (congrArg (SliceState.settleLoop · 160) (forked_shrink x fmt a b one other lives)).trans
    (forked_settled _ fmt a b one offA offB _)

theorem merge_settles (atA : a.pc = recon) (atB : b.pc = recon) : (x.forked recon m t fmt a b).settle live =
    x.offers01.merged recon m fmt (if (lowLane m).any fun l => t.getLsbD l then b.link else a.link) := by
  rw [SliceState.settle, forked_shrink x fmt a b one other lives, SliceState.forked,
    settleLoop_parks _ (joining_parkOne _ _ _ _ atA _ (by simp [Way.split])),
    settleLoop_parks _ (joining_parkOne _ _ _ _ atB _ (by simp)),
    settleLoop_merges _ rfl (joining_mergeOne _ fmt one a.link b.link), merged_settled]

end

/-- Settles O10: the drop set by `mem_dropUpTo`; the divergence starts a split and nothing parks; and the two sides at
the join park one after the other and merge. -/
theorem divergeAndMerge : Obligations.DivergeAndMerge := by
  refine ⟨fun limit m q => ⟨fun e mem => ?dropped, fun e' mem left => ?kept⟩,
    fun x live m t pc target recon link0 link1 fmt fmt0 fmt1 fe0 fe1 lives one other bare => ⟨fun off0 off1 => ?diverge, ?merge⟩⟩
  case dropped =>
    obtain ⟨left, e', mem', rfl⟩ := mem_dropUpTo.1 mem
    exact ⟨left, e', mem', e'.dropped_id .., e'.dropped_stamp .., e'.dropped_vals .., e'.dropped_tag ..⟩
  case kept =>
    have tag : (e'.dropped limit m).tag ≠ 0 := fun gone => left ((e'.dropped_tag ..).symm.trans gone)
    exact ⟨e'.dropped limit m, mem_dropUpTo.2 ⟨tag, e', mem, rfl⟩, e'.dropped_id .., e'.dropped_tag ..⟩
  case diverge =>
    have settles := diverge_settles x fmt ⟨pc, fmt, link0, []⟩ ⟨target, fmt, link0, []⟩ one other lives rfl off0 off1
    rw [joining_eq bare, SliceState.forked, joining_eq (x := x.offers01) bare] at settles
    exact settles
  case merge =>
    have settles := merge_settles x fmt ⟨recon, fmt0, link0, fe0⟩ ⟨recon, fmt1, link1, fe1⟩ one other lives rfl rfl
    rw [SliceState.forked, joining_eq bare, merged_eq (x := x.offers01) bare] at settles
    exact settles

/-! `exit` and `trap` (R208, R260, R263) -/

section
variable {s : State} {i : Issue} {h : Head} (ready : s.Ready i)
include ready

theorem exec_exit_idle (idle : i.active h.guard = 0) : exec (.exit h) s = .next (s.advance i h.mark) := by
  show execExit h s = _
  rw [execExit, word_ready ready, if_pos idle]

theorem exec_exit (active : i.active h.guard ≠ 0) : exec (.exit h) s = .next (
    let m := i.active h.guard
    let left := s.modSlice i.ref.team i.ref.warp i.ref.slice fun x =>
      ({ x with exited := x.exited ||| m } : SliceState).modSplit i.ref.split fun sp => { sp with mask := sp.mask &&& ~~~m }
    (if m = i.sp.mask then (left.counted i.ref).settle i.ref.team i.ref.warp i.ref.slice
      else left.advance i h.mark).closed i.ref.team i.ref.warp) := by
  show execExit h s = _
  rw [execExit, word_ready ready, if_neg active]

theorem exec_trap (code : BitVec 16) : exec (.trap h code) s = .next (if i.active h.guard = 0 then s.advance i h.mark
    else s.decodeTrap i 9 0x48 (code.setWidth 64)) :=
  word_ready ready _

end

/-- Settles O11: both words by their meanings, with and without an active lane. -/
theorem exitAndTrap : Obligations.ExitAndTrap := by
  intro h code s i ready m
  refine ⟨fun idle => ⟨exec_exit_idle ready idle, ?_⟩, fun active => ?_, fun active => exec_exit ready active⟩
  · rw [exec_trap ready, if_pos idle]
    rfl
  · rw [exec_trap ready, if_neg active]
    rfl

end Sys2Proof.Machine

/-! SUPPORT. What commands, guard slots and soft interrupts meet at issue, and the statements about them. -/

namespace Sys2Proof.Machine

/-! Commands at issue (R198, R200, R330, R332, R341, R342) -/

theorem guardCommand_resolved {w : Warp} {g : Nat} {b : Bool} {bs : List Bool} (cmd : Nat)
    (resolved : (w.slot g).res = b :: bs) : ∃ x, w.guardCommand g cmd = (x, some b) := by
  simp only [Warp.guardCommand, resolved, Prod.mk.injEq, and_true, exists_eq']

theorem guardCommand_unresolved {w : Warp} {g : Nat} (cmd : Nat) (unresolved : (w.slot g).res = []) :
    ∃ x, w.guardCommand g cmd = (x, none) := by
  simp only [Warp.guardCommand, unresolved, Prod.mk.injEq, and_true, exists_eq']

/-- The command stands in its queue, and one that restarts a `cp.yield` is counted by its warp. -/
def State.queued (s : State) (i : Issue) (c : Command) : State :=
  let u : State := { s.bump with engines := { s.engines with cmds := s.engines.cmds ++ [c] } }
  if c.tkind = 3 then u.modWarp i.ref.team i.ref.warp fun w => { w with yields := w.yields + 1 } else u

section
variable (s : State) {i : Issue} {c : Command}

theorem addCommand_unguarded (free : c.slot = none) : s.addCommand i c = s.queued i c := by
  rw [State.addCommand, free]
  rfl

variable {g : Nat} (guarded : c.slot = some g)
include guarded

/-- R198: a guarded command takes the oldest resolution of its slot. -/
theorem addCommand_matched {b : Bool} {bs : List Bool} (resolved : (i.wp.slot g).res = b :: bs) : s.addCommand i c =
    ((s.queued i c).modWarp i.ref.team i.ref.warp fun w => (w.guardCommand g c.id).1).modCmd c.id
      fun x => { x with verdict := some b } := by
  obtain ⟨x, meets⟩ := guardCommand_resolved c.id resolved
  simp only [State.addCommand, guarded, meets]
  rfl

/-- R198: without a resolution it stays unmatched. -/
theorem addCommand_unmatched (unresolved : (i.wp.slot g).res = []) (running : i.wp.c.ended = false) : s.addCommand i c =
    ((s.queued i c).modWarp i.ref.team i.ref.warp fun w => (w.guardCommand g c.id).1).modCmd c.id
      fun x => { x with verdict := none } := by
  obtain ⟨x, meets⟩ := guardCommand_unresolved c.id unresolved
  simp only [State.addCommand, guarded, meets, running]
  rfl

/-- R200: once the C-slice has ended no resolution can come. -/
theorem addCommand_dropped (unresolved : (i.wp.slot g).res = []) (ended : i.wp.c.ended = true) : s.addCommand i c =
    (s.queued i c).modCmd c.id fun x => { x with verdict := some false } := by
  obtain ⟨x, meets⟩ := guardCommand_unresolved c.id unresolved
  simp only [State.addCommand, guarded, meets, ended]
  rfl

end

section
variable (s : State) {i : Issue} (mark : Bool) {c : Command}

theorem enqueue_noPoint (credits : c.tkind = 1) (absent : i.tm.nrv ≤ c.tindex) :
    s.enqueue i mark c = s.decodeTrap i 10 0x50 (BitVec.ofNat 64 c.tindex) := by
  rw [State.enqueue, if_pos (by simp [credits, absent])]

variable (point : c.tkind = 1 → c.tindex < i.tm.nrv)
include point

theorem pointless : ¬(decide (c.tkind = 1) && decide (i.tm.nrv ≤ c.tindex)) = true := by
  simpa using point

theorem enqueue_full (full : 16 ≤ (s.queueOf i.ref.team i.ref.warp c.matrix).length) :
    s.enqueue i mark c = s.waitAt i .engine := by
  rw [State.enqueue, if_neg (pointless point), if_pos full]

variable (room : (s.queueOf i.ref.team i.ref.warp c.matrix).length < 16)
include room

theorem enqueue_slotFull {g : Nat} (guarded : c.slot = some g) (full : 4 ≤ (i.wp.slot g).cmds.length) :
    s.enqueue i mark c = s.waitAt i (.guard g) := by
  rw [State.enqueue, if_neg (pointless point), if_neg (Nat.not_le.2 room), if_pos (by simp [guarded, full]), guarded]
  rfl

/-- Past the waits for its queue and slot a command credits a phase, or enters its queue. -/
theorem enqueue_roomy (slotRoom : ∀ g, c.slot = some g → (i.wp.slot g).cmds.length < 4) : s.enqueue i mark c =
    if c.tkind = 1 then
      match (i.tm.rv c.tindex).creditPhase i.ref.warp with
      | none => s.waitAt i (.rendezvous c.tindex none)
      | some p => (s.addCommand i { c with phase := p }).advance i mark
    else (s.addCommand i c).advance i mark := by
  have free : ¬(c.slot.any fun g => decide (4 ≤ (i.wp.slot g).cmds.length)) = true := by
    rw [Option.any_eq_true]
    rintro ⟨g, guarded, full⟩
    exact Nat.not_le.2 (slotRoom g guarded) (of_decide_eq_true full)
  exact (if_neg (pointless point)).trans ((if_neg (Nat.not_le.2 room)).trans (if_neg free))

end

/-! Command words (R340 to R342, R347, R350 to R358) -/

/-- A word whose meaning is `cmdWord`. -/
theorem queues_of {ins : Instr} {h : Head} {use : ShapeUse} {c : Cmd} {kind : CmdKind}
    {build : Issue → Nat → Command → Command} {ops : Issue → Nat → Word × Word × Word}
    (meaning : ∀ s, exec ins s = s.cmdWord h ins use c kind build)
    (built : ∀ s i l r, build i l { Command.blank s i l kind r with
        slot := c.slot.map BitVec.toNat, scope := c.scope, tkind := c.kind.toNat, tindex := c.index.toNat } =
      commandOf s i l kind r (ops i l).1 (ops i l).2.1 (ops i l).2.2 c.slot c.scope c.kind c.index) :
    Queues ins h use c kind ops := by
  intro s t i bs ready read
  rw [meaning, State.cmdWord, word_ready ready, State.withShape_read read]
  refine ⟨fun unfit => ?_, fun fit => ⟨fun idle => ?_, fun l lane => ?_⟩⟩
  · rw [show shapeOk use (recordOf bs) = false from unfit]
    rfl
  · rw [if_pos (show shapeOk use (recordOf bs) = true from fit), idle]
  · rw [if_pos (show shapeOk use (recordOf bs) = true from fit), lane]
    exact congrArg (fun x => Host.Outcome.next (State.enqueue _ i h.mark x)) (built ..)

/-- Settles O27: a command by what `State.enqueue` and `State.addCommand` meet, and each command word by `queues_of`. -/
theorem commands : Obligations.Commands := by
  refine ⟨fun s i mark c => ?issue, fun h c => ⟨?cp, ?feed, ?coll, ?put, ?get, ?mma, ?twin⟩⟩
  case issue =>
    intro point room slotRoom added
    refine ⟨fun absent => ?_, fun there full => ?_, fun there free full => ?_, fun there free open_ credits busy => ?_,
      fun there free open_ bare => ⟨fun plain => ?_, fun p credits phase => ?_⟩, fun g there free open_ guarded plain =>
        ⟨fun b bs resolved => ?_, fun unresolved running => ?_, fun unresolved ended => ?_⟩⟩
    · obtain ⟨credits, beyond⟩ := Classical.not_imp.1 absent
      exact enqueue_noPoint s mark credits (Nat.not_lt.1 beyond)
    · exact enqueue_full s mark there (Nat.not_lt.1 full)
    · obtain ⟨g, full⟩ := Classical.not_forall.1 full
      obtain ⟨guarded, full⟩ := Classical.not_imp.1 full
      rw [enqueue_slotFull s mark there free guarded (Nat.not_lt.1 full), guarded]
      rfl
    · rw [enqueue_roomy s mark there free open_, if_pos credits, busy]
    · rw [enqueue_roomy s mark there free open_, if_neg plain, addCommand_unguarded s bare]
      rfl
    · rw [enqueue_roomy s mark there free open_, if_pos credits, phase]
      exact congrArg (State.advance · i mark) (addCommand_unguarded s bare)
    · rw [enqueue_roomy s mark there free open_, if_neg plain, addCommand_matched s guarded resolved]
      rfl
    · rw [enqueue_roomy s mark there free open_, if_neg plain, addCommand_unmatched s guarded unresolved running]
      rfl
    · rw [enqueue_roomy s mark there free open_, if_neg plain, addCommand_dropped s guarded unresolved ended]
      rfl
  case cp => exact queues_of (fun s => (by show execCp h c s = _; rfl)) fun _ _ _ _ => rfl
  case feed => exact queues_of (fun s => (by show execCpFeed h c s = _; rfl)) fun _ _ _ _ => rfl
  case coll => exact queues_of (fun s => (by show execCpColl h c s = _; rfl)) fun _ _ _ _ => rfl
  case put => exact queues_of (fun s => (by show execCpPut h c s = _; rfl)) fun _ _ _ _ => rfl
  case get => exact queues_of (fun s => (by show execCpGet h c s = _; rfl)) fun _ _ _ _ => rfl
  case mma => exact queues_of (fun s => (by show execMma h c s = _; rfl)) fun _ _ _ _ => rfl
  case twin => exact queues_of (fun s => (by show execMmaTwin h c s = _; rfl)) fun _ _ _ _ => rfl

/-! Guard slots (R198 to R200, R335) -/

theorem not_ended_and_empty {ended : Bool} {cmds : List Nat} (open_ : ended = false ∨ cmds ≠ []) :
    ¬(ended = true ∧ cmds = []) := by
  rintro ⟨rfl, rfl⟩
  simp at open_

theorem lowLane_of_idle {m : Mask} (idle : m = 0) : lowLane m = none := lowLane_eq_none_iff.2 idle

section
variable {s : State} {i : Issue} {h : Head} (ready : s.Ready i)
include ready

theorem exec_gSet_idle (slot : BitVec 4) (ap : BitVec 3) (idle : lowLane (i.active h.guard) = none) :
    exec (.gSet h slot ap) s = .next (s.advance i h.mark) := by
  show execGSet h slot ap s = _
  rw [execGSet, word_ready ready, idle]

theorem exec_gSet {l : Nat} (slot : BitVec 4) (ap : BitVec 3) (lane : lowLane (i.active h.guard) = some l) :
    exec (.gSet h slot ap) s = .next (
      if i.wp.a.ended = true ∧ (i.wp.slot slot.toNat).cmds = [] then s.advance i h.mark
      else if 4 ≤ (i.wp.slot slot.toNat).res.length then s.waitAt i (.guard slot.toNat)
      else (s.resolve i.ref.team i.ref.warp slot.toNat (i.sl.pred ap.toNat l)).advance i h.mark) := by
  show execGSet h slot ap s = _
  rw [execGSet, word_ready ready, lane]
  simp only [Bool.and_eq_true, List.isEmpty_iff]

/-! Soft interrupts (R336) -/

theorem exec_sigq_idle (a d : Opd) (idle : lowLane (i.active h.guard) = none) :
    exec (.sigq h a d) s = .next (s.advance i h.mark) := by
  show execSigq h a d s = _
  rw [execSigq, word_ready ready, idle]

end

/-- The target of a `sigq` is Headland, or an existing running context of the issuer's own function, which is not in reset. -/
def State.CanSignal (s : State) (i : Issue) (target : Nat) : Prop :=
  target = 64 ∨ (target < 64 ∧ s.ctxExists target = true ∧ s.ctxRun target = true ∧ s.ctxFn target = s.ctxFn i.tm.ctx ∧
    s.fnInReset (s.ctxFn target) = false)

/-- The OR of a `sigq` that has waited as a release: at Headland, or sent to the home of the target's wake word. -/
def State.signalled (s : State) (i : Issue) (target : Nat) (v : Word) : State × Bool :=
  if target = 64 then
    ({ s with head := { s.head with wakes := tset s.head.wakes i.tm.ctx (tget s.head.wakes i.tm.ctx 0 ||| v) } }, true)
  else s.sendWake i target v

/-- The model's check that a context below 64 may be signalled. -/
theorem canSignal_of_lt {s : State} {i : Issue} {target : Nat} (below : target < 64) : s.CanSignal i target ↔
    (s.ctxExists target && s.ctxRun target && s.ctxFn target == s.ctxFn i.tm.ctx && !s.fnInReset (s.ctxFn target)) =
      true := by
  have other : target ≠ 64 := Nat.ne_of_lt below
  simp only [State.CanSignal, other, below, false_or, true_and, Bool.and_eq_true, beq_iff_eq, Bool.not_eq_true', and_assoc]

section
variable {s : State} {i : Issue} {h : Head} (ready : s.Ready i) {l : Nat} {a d : Opd}
  (lane : lowLane (i.active h.guard) = some l)
include ready lane

theorem exec_sigq_noTarget (invalid : ¬s.CanSignal i (regA a i l).toNat) :
    exec (.sigq h a d) s = .next (s.decodeTrap i 1 0x09 0) := by
  show execSigq h a d s = _
  rw [execSigq, word_ready ready, lane]
  show Host.Outcome.next (ite (64 < (regA a i l).toNat) _ _) = _
  by_cases beyond : 64 < (regA a i l).toNat
  · rw [if_pos beyond]
  · have other : (regA a i l).toNat ≠ 64 := fun headland => invalid (.inl headland)
    have below : (regA a i l).toNat < 64 := Nat.lt_of_le_of_ne (Nat.not_lt.1 beyond) other
    rw [if_neg beyond]
    refine congrArg _ (if_pos ?_)
    rw [Bool.and_eq_true, bne_iff_ne, Bool.not_eq_true', Bool.eq_false_iff]
    exact ⟨other, mt (canSignal_of_lt below).2 invalid⟩

theorem exec_sigq (valid : s.CanSignal i (regA a i l).toNat) :
    exec (.sigq h a d) s = .next (match s.mayAccess i (storing .z8 .sys) with
      | (t, some w) => t.waitAt i w
      | (t, none) => match t.signalled i (regA a i l).toNat (regA d i l) with
        | (u, true) => (u.fence_ i .sys).advance i h.mark
        | (u, false) => u.waitAt i .order) := by
  have within : ¬64 < (regA a i l).toNat := by
    obtain headland | ⟨below, -⟩ := valid
    · exact Nat.not_lt.2 (Nat.le_of_eq headland)
    · exact Nat.not_lt.2 (Nat.le_of_lt below)
  have there : ¬((regA a i l).toNat != 64 && !(s.ctxExists (regA a i l).toNat && s.ctxRun (regA a i l).toNat &&
      s.ctxFn (regA a i l).toNat == s.ctxFn i.tm.ctx && !s.fnInReset (s.ctxFn (regA a i l).toNat))) = true := by
    rw [Bool.and_eq_true, bne_iff_ne, Bool.not_eq_true', Bool.eq_false_iff]
    rintro ⟨other, invalid⟩
    exact invalid ((canSignal_of_lt (Nat.lt_of_le_of_ne (Nat.not_lt.1 within) other)).1 valid)
  show execSigq h a d s = _
  rw [execSigq, word_ready ready, lane, show storing .z8 .sys = { storing .z8 .sys with rel := true } from rfl,
    mayAccess_release]
  show Host.Outcome.next (ite (64 < (regA a i l).toNat) _ (ite _ _ _)) = _
  rw [if_neg within]
  refine congrArg _ ((if_neg there).trans ?_)
  cases s.afterAcquires i
  · rfl
  · cases complete : (s.release i .sys).2 <;> simp [complete] <;> rfl

end

section
variable {s : State} (i : Issue) {ctx : Nat} (v : Word) (inWindow : (s.wakeAddr ctx).toNat < 2 ^ 56)
include inWindow

theorem wakeAddr_window : bits (s.wakeAddr ctx) 56 8 = 0 := by
  rw [bits, BitVec.extractLsb'_toNat, Nat.shiftRight_eq_div_pow, Nat.div_eq_of_lt inWindow, Nat.zero_mod]

/-- A fault loses the signal, once it is logged. -/
theorem sendWake_fault {f : XFault} (fault : s.lookWalk ctx (s.wakeAddr ctx) .wr = .fault f) :
    s.sendWake i ctx v = (s.orWake ctx v, true) := by
  simp [State.sendWake, wakeAddr_window inWindow, fault]

theorem sendWake_sends {x : Xlat} (hit : s.lookWalk ctx (s.wakeAddr ctx) .wr = .hit x) (wide : 8 ≤ x.align)
    (aligned : (s.wakeAddr ctx).toNat % 8 = 0) (still : x.moving = false) (unslid : s.slideOf x.ctx x.index = none)
    (open_ : s.gated i.tm.core ((x.pa + (s.wakeAddr ctx - x.base).toNat) / 128) x.fn = false) :
    let off := (s.wakeAddr ctx - x.base).toNat
    let pa := x.pa + off
    s.sendWake i ctx v = (s.send (.core i.tm.core) (s.homeNode (pa / 128)) (pa / 128) (.reduce
      ⟨none, x.ctx, x.index, off, pa % 128, false, x.key, x.fn, x.cache, s.stamp (i.tm.core / 16), 324 + i.tm.core⟩ 2 .z64
      [(pa % 128, leBytes 8 v.toNat)]), true) := by
  have fits : ¬x.align < 8 := Nat.not_lt.2 wide
  simp [-BitVec.toNat_sub, State.sendWake, wakeAddr_window inWindow, hit, fits, aligned, still, unslid, lineOf, open_, dieOf]

end

/-- Settles O25: `g.set` by its meaning; `sigq` by what a release waits for and by what becomes of the OR. -/
theorem slotsAndSignals : Obligations.SlotsAndSignals := by
  intro h slot ap a d s i ready
  refine ⟨fun idle => ?idle, fun l lane => ⟨fun ended empty => ?_, fun open_ => ⟨fun full => ?_, fun room => ?_⟩,
    fun invalid => exec_sigq_noTarget ready lane invalid, fun valid => ?sigq⟩⟩
  case idle =>
    have idle := lowLane_of_idle idle
    exact ⟨exec_gSet_idle ready slot ap idle, exec_sigq_idle ready a d idle⟩
  · rw [exec_gSet ready slot ap lane, if_pos ⟨ended, empty⟩]
  · rw [exec_gSet ready slot ap lane, if_neg (not_ended_and_empty open_), if_pos full]
  · rw [exec_gSet ready slot ap lane, if_neg (not_ended_and_empty open_), if_neg (Nat.not_le.2 room)]
  case sigq =>
    have sigq := exec_sigq (d := d) ready lane valid
    refine ⟨fun t w held => by rw [sigq, held], fun t free => ⟨fun headland => ?_, fun below => ?_⟩⟩
    · rw [sigq, free]
      simp only [State.signalled, if_pos (show (regA a i l).toNat = 64 from headland)]
      rfl
    · have other : (regA a i l).toNat ≠ 64 := Nat.ne_of_lt below
      refine ⟨fun u sent => ?_, fun u kept => ?_, fun f inWindow fault => sendWake_fault i _ inWindow fault,
        fun x inWindow hit wide aligned still unslid open_ => sendWake_sends i _ inWindow hit wide aligned still unslid open_⟩
      · rw [sigq, free]
        simp only [State.signalled, if_neg other, show t.sendWake i (regA a i l).toNat (regA d i l) = (u, true) from sent]
      · rw [sigq, free]
        simp only [State.signalled, if_neg other, show t.sendWake i (regA a i l).toNat (regA d i l) = (u, false) from kept]

end Sys2Proof.Machine

/-! SUPPORT. Whose turn it is and what a stream does in it, and the statement about them. -/

namespace Sys2Proof.Machine

theorem step_of_turn {s u : State} {t : Turn} (turn : s.takeTurn = (t, u)) : step s = u.turn t := by
  rw [step, turn]

theorem takeTurn_of_tape {s : State} {t : Turn} {rest : List Turn} (tape : s.agenda.tape = t :: rest) :
    s.takeTurn = (t, { s with agenda := { s.agenda with tape := rest } }) := by
  rw [State.takeTurn, tape]

/-! A stream's turn (R231, R232, R248, R379) -/

section
variable {u : State} {i : Issue} (looked : u.issue? i.ref = some i)
include looked

theorem nextInstr_eq : u.nextInstr i.ref = (i.sp.word? i.sp.pc).map (decodeIn i.ref.slice) := by
  rw [State.nextInstr, looked]

theorem runStream_fetched {w : Word} (fetched : i.sp.word? i.sp.pc = some w) :
    u.runStream i.ref = exec (decodeIn i.ref.slice w) (u.issuing i.ref) := by
  rw [State.runStream, nextInstr_eq looked, fetched]
  rfl

theorem runStream_unfetched (unfetched : i.sp.word? i.sp.pc = none) : u.runStream i.ref = u.fetchTurn i.ref := by
  rw [State.runStream, nextInstr_eq looked, unfetched]
  rfl

theorem fetchTurn_barred (barred : i.allowed = false) : u.fetchTurn i.ref = .next u := by
  simp [State.fetchTurn, looked, barred]

theorem fetchTurn_fetches (allowed : i.allowed = true) {t : State}
    (fill : exec (.instructionFetchFill i.ref i.sp.pc) u = .next t) :
    u.fetchTurn i.ref = .next (t.modSplit i.ref fun sp =>
      if sp.pc = i.sp.pc ∧ sp.wait = Wait.none ∧ (sp.word? sp.pc).isNone = true then { sp with wait := .fetch }
      else sp) := by
  simp [State.fetchTurn, looked, allowed, fill, and_assoc]

end

/-! The favoured stream (R188) -/

section
variable {s : State} {r : StreamRef} {i : Issue} (looked : s.issue? r = some i)
include looked

theorem issuer_favoured {f : StreamRef}
    (favoured : tget? (s.core i.tm.core).favour (favourKey i.wp.quarter r.slice) = some f)
    (present : f ∈ s.streamsOn i.tm.core i.wp.quarter r.slice) (ready : s.couldIssue f = true) : s.issuer r = f := by
  by_cases own : f = r <;> simp [State.issuer, looked, favoured, own, present, ready]

theorem issuer_unfavoured (unready : ∀ f, ¬(tget? (s.core i.tm.core).favour (favourKey i.wp.quarter r.slice) = some f ∧
    f ∈ s.streamsOn i.tm.core i.wp.quarter r.slice ∧ s.couldIssue f = true)) : s.issuer r = r := by
  cases favoured : tget? (s.core i.tm.core).favour (favourKey i.wp.quarter r.slice) with
  | none => simp only [State.issuer, looked, favoured]
  | some f =>
    simp only [State.issuer, looked, favoured]
    refine if_neg fun goes => unready f ⟨favoured, ?_⟩
    obtain ⟨found, ready⟩ := Bool.and_eq_true_iff.1 goes
    exact ⟨List.contains_iff_mem.1 (Bool.and_eq_true_iff.1 found).2, ready⟩

/-- The favoured stream's own turn is its own, ready or not. -/
theorem issuer_own (favoured : tget? (s.core i.tm.core).favour (favourKey i.wp.quarter r.slice) = some r) :
    s.issuer r = r := by
  simp [State.issuer, looked, favoured]

end

/-! Events -/

section
variable {u : State} {ins : Instr}

theorem turn_event {t : State} (next : exec ins u.idle = .next t) : u.turn (.event ins) = endTurn (.next t) := by
  simp only [State.turn, next]

theorem turn_noEvent (refused : exec ins u.idle = .refused .noStream) : u.turn (.event ins) = .next u.idle := by
  simp only [State.turn, refused]

end

/-! A placed word -/

theorem decodeIn_of_ok {sl : Slice} {w : Word} {ins : Instr} (ok : decode sl w = .ok ins) : decodeIn sl w = ins := by
  rw [decodeIn, ok]

theorem decodeIn_of_error {sl : Slice} {w : Word} {e : Illegal} (error : decode sl w = .error e) :
    decodeIn sl w = .illegalInstrWord w e := by
  rw [decodeIn, error]

/-- A table word is decoded in the slice that it is placed in. -/
theorem decodeIn_placedIn {n w : Nat} {ins : Instr} (decoded : decodeTableWord n w = some ins) :
    decodeIn (placedIn (BitVec.ofNat 64 w)) (BitVec.ofNat 64 w) = ins := by
  unfold decodeTableWord at decoded
  cases inA : decode .a (BitVec.ofNat 64 w) with
  | ok x =>
    have named : x = ins := by simpa [inA] using decoded
    rw [placedIn, inA, ← named]
    exact decodeIn_of_ok inA
  | error e =>
    cases inC : decode .c (BitVec.ofNat 64 w) with
    | ok x =>
      have named : x = ins := by simpa [inA, inC] using decoded
      rw [placedIn, inA, ← named]
      exact decodeIn_of_ok inC
    | error e => simp [inA, inC] at decoded

/-- The machine with a word placed, once the placed turn is taken. -/
def State.placedTurn (s : State) (w : Word) : State :=
  { s.placeWord w with agenda := { (s.placeWord w).agenda with tape := [] } }

/-- The split of the placed word. -/
def State.placedIssue (s : State) (w : Word) : Issue :=
  ⟨⟨s.agenda.next, 0, placedIn w, 0⟩, placedTeam (placedIn w) w, placedWarp (placedIn w) w, placedSlice [placedSplit w],
    placedSplit w⟩

section
variable (s : State) (w : Word)

theorem takeTurn_placeWord : (s.placeWord w).takeTurn = (.issue (s.placedIssue w).ref, s.placedTurn w) := rfl

theorem placedWarp_slice (sl : Slice) : (placedWarp sl w).slice sl = placedSlice [placedSplit w] := by
  cases sl <;> rfl

theorem placedTurn_issue? : (s.placedTurn w).issue? (s.placedIssue w).ref = some (s.placedIssue w) := by
  have team : (s.placedTurn w).team? s.agenda.next = some (placedTeam (placedIn w) w) := tget?_tset_self ..
  have warp : tget? (placedTeam (placedIn w) w).warps 0 = some (placedWarp (placedIn w) w) := rfl
  have split : (placedSlice [placedSplit w]).splits.find? (·.num == 0) = some (placedSplit w) := rfl
  simp only [State.issue?, State.placedIssue, team, warp, placedWarp_slice, split]

theorem placedIssue_allowed : (s.placedIssue w).allowed = true := rfl

theorem placedTurn_issuer : (s.placedTurn w).issuer (s.placedIssue w).ref = (s.placedIssue w).ref := by
  refine issuer_own (placedTurn_issue? s w) ?_
  show tget? ((s.placeWord w).core 0).favour (favourKey 0 (placedIn w)) = _
  rw [State.placeWord, State.favour, State.core_modCore_self]
  exact tget?_tset_self ..

end

/-- Settles O55: a turn of a stream by its next word, an event by what `exec` answers, and a placed word by its decoding. -/
theorem stepRunsDecoded : Obligations.StepRunsDecoded := by
  refine ⟨fun s u r i turn issues looked => ?stream, fun t => rfl, fun s r i looked => ?favour, fun s u ins turn => ?event,
    fun s t rest tape => takeTurn_of_tape tape, fun s n w ins decoded => ?placed⟩
  case stream =>
    have runs : step s = endTurn (u.runStream i.ref) := by
      rw [step_of_turn turn, State.turn, State.issueTurn, issues]
    refine ⟨fun w ins fetched ok => ?_, fun w e fetched error => ?_, fun unfetched barred => ?_,
      fun unfetched allowed t fill => ?_⟩
    · rw [runs, runStream_fetched looked fetched, decodeIn_of_ok ok]
    · rw [runs, runStream_fetched looked fetched, decodeIn_of_error error]
    · rw [runs, runStream_unfetched looked unfetched, fetchTurn_barred looked barred]
    · rw [runs, runStream_unfetched looked unfetched, fetchTurn_fetches looked allowed fill]
  case favour =>
    exact ⟨fun f ⟨favoured, present, ready⟩ => issuer_favoured looked favoured present ready, issuer_unfavoured looked⟩
  case event =>
    exact ⟨fun t next => (step_of_turn turn).trans (turn_event next),
      fun refused => (step_of_turn turn).trans (turn_noEvent refused)⟩
  case placed =>
    let v : Word := BitVec.ofNat 64 w
    refine ⟨s.placedTurn v, s.placedIssue v, placedTurn_issue? s v, placedIssue_allowed s v, rfl, rfl, ?_⟩
    have turn : (s.withFetchWord n w).takeTurn = (.issue (s.placedIssue v).ref, s.placedTurn v) := takeTurn_placeWord s v
    rw [step_of_turn turn, State.turn, State.issueTurn, placedTurn_issuer,
      runStream_fetched (placedTurn_issue? s v) (w := v) rfl]
    rw [show decodeIn (s.placedIssue v).ref.slice v = ins from decodeIn_placedIn decoded]

end Sys2Proof.Machine

/-! SUPPORT. What a trap's entry and the events that follow it do, and the statement about them. -/

namespace Sys2Proof.Machine

/-! Entry, halt and stalemate (R213, R338, R339, R383 to R385) -/

/-- R383: the split of a decode trap issues no more. -/
theorem not_allowed_of_trapped {i : Issue} (trapped : i.sp.wait = .trapped) : i.allowed = false := by
  simp [Issue.allowed, trapped]

/-- R385: the later cause of a warp, where it has none yet. -/
def Warp.noteCause (w : Warp) (tr : Trap) : Warp := { w with cause := some (w.cause.getD (tr.code, tr.sub)) }

theorem noteCause_eq (tr : Trap) : (fun w : Warp => { w with
      cause := match w.cause with | some c => some c | none => some (tr.code, tr.sub) }) = fun w => w.noteCause tr := by
  funext w
  rw [Warp.noteCause]
  cases w.cause <;> rfl

theorem Team.trap_eq (tm : Team) (tr : Trap) : tm.trap tr =
    (let first := { tm with status := .trapping, primary := some tr }
     match tm.status with
     | .running => first
     | .saving => first
     | .trapping => { tm with warps := tmod tm.warps tr.warp fun w => w.noteCause tr }
     | .saved _ => tm
     | .trapped .. => tm) := by
  unfold Team.trap
  cases tm.status with
  | trapping =>
    exact congrArg (fun f => { tm with status := .trapping, warps := tmod tm.warps tr.warp f }) (noteCause_eq tr)
  | running | saving | saved | trapped => rfl

theorem exec_haltArrival {s : State} {t w : Nat} {sl : Slice} {tm : Team} (k : Nat) (team : s.team? t = some tm)
    (halting : tm.status = .trapping ∨ tm.status = .saving) :
    exec (.haltArrival t w sl k) s = .next (s.modSlice t w sl fun x =>
      if x.ended = true ∨ x.halt ≠ none then x
      else { x with halt := some (min k (12 - s.pastFault t w sl)), skid := min (s.pastFault t w sl) 12, offers := [] }) := by
  show execHaltArrival t w sl k s = _
  have halts : (tm.status == .trapping || tm.status == .saving) = true := by simpa using halting
  simp only [execHaltArrival, team, halts, if_true, Bool.or_eq_true, Option.isSome_iff_ne_none]

/-- The trap of a stalemate, from the first of a team's streams that has not ended. -/
def stalemateTrap (w : Nat) (wp : Warp) (sl : Slice) (code : Nat) : Trap :=
  { code := 11, sub := code, addr := 0, lanes := 0xFFFFFFFF, warp := w, slice := sl, engine := false, pop := false,
    pc := ((wp.slice sl).splits.head?.map Split.pc).getD (((wp.slice sl).parked.map Parked.at_).headD 0), apc := 0,
    detail := 0, split := ((wp.slice sl).splits.head?.map Split.num).getD 0, access := none }

theorem exec_stalemateDetect {s : State} {t w code : Nat} {sl : Slice} {wp : Warp} {tm : Team}
    {rest : List (Nat × Warp × Slice)} (team : s.team? t = some tm) (running : tm.status = .running)
    (streams : tm.streams = (w, wp, sl) :: rest) (stuck : s.stuckStream t tm w wp sl = some code)
    (others : ∀ x ∈ rest, s.stuckStream t tm x.1 x.2.1 x.2.2 ≠ none) :
    exec (.stalemateDetect t) s = .next (s.raise t (stalemateTrap w wp sl code)) := by
  show execStalemateDetect t s = _
  have runs : (tm.status != .running) = false := by rw [running]; rfl
  have none_goes : (((w, wp, sl), some code) :: rest.map fun x => (x, s.stuckStream t tm x.1 x.2.1 x.2.2)).any
      (fun x => x.2.isNone) = false := by
    simpa [Option.isSome_iff_ne_none] using others
  simp only [execStalemateDetect, team, runs, streams, List.map_cons, stuck, none_goes, Bool.false_eq_true, if_false]
  rfl

theorem stalemateTrap_pc {w code : Nat} {wp : Warp} {sl : Slice} {sp : Split}
    (first : (wp.slice sl).splits.head? = some sp) : (stalemateTrap w wp sl code).pc = sp.pc := by
  rw [stalemateTrap, first]
  rfl

/-! Records (R386, R389, R391) -/

section
variable {s : State} {t : Nat} {tm : Team} {tr : Trap} (bs : List Nat) (team : s.team? t = some tm)
include team

/-- R389: a settled team's image goes to the chosen blocks; without room for it its header goes to the final block, and
without that block its context fails. -/
theorem exec_trapRecordWrite_settled (trapping : tm.status = .trapping) (primary : tm.primary = some tr)
    (gathered : (s.flushTeam t).gathering t = false) (settled : (s.flushTeam t).settled t tm = true) :
    exec (.trapRecordWrite t bs) s = .next (
      let u := s.flushTeam t
      let last := u.saveSize tm.ctx - 1
      if tm.imageBlocks ≤ u.openBlocks tm.ctx then
        if u.blocksOk tm.ctx tm.imageBlocks bs then u.recordTrap t tm tr bs true else u
      else if u.saveSize tm.ctx = 0 ∨ last ∈ u.takenBlocks tm.ctx then u.contextFatal tm.ctx
      else u.recordTrap t tm tr [last] false) := by
  show execTrapRecordWrite t bs s = _
  simp only [execTrapRecordWrite, team, trapping, primary, gathered, settled, Bool.not_true, Bool.or_self,
    Bool.false_eq_true, if_false, Bool.or_eq_true, decide_eq_true_eq, List.contains_iff_mem]

variable {r : Word} {blocks ids : List Nat} {image : Bool} (recorded : tm.status = .trapped r blocks image)
  (telling : tm.telling = some ids)
include recorded telling

theorem exec_trapRecordWrite_recorded : exec (.trapRecordWrite t bs) s = .next (
    if ids.any s.openId then s
    else match s.agentAsk 3396 (4 * t + 3) (s.handTouches tm) with
      | (s, false) => s
      | (s, true) => (s.handTrap tm r).modTeam t fun x => { x with telling := none }) := by
  show execTrapRecordWrite t bs s = _
  simp only [execTrapRecordWrite, team, recorded, State.tellTrap, telling, teamSerial, Nat.mul_comm t 4] <;> rfl

theorem exec_trapRecordWrite_incomplete (open_ : ∃ x ∈ ids, s.openId x = true) :
    exec (.trapRecordWrite t bs) s = .next s := by
  rw [exec_trapRecordWrite_recorded bs team recorded telling, if_pos (List.any_eq_true.2 open_)]

theorem exec_trapRecordWrite_hands (closed : ∀ x ∈ ids, s.openId x = false) {u : State}
    (asked : s.agentAsk 3396 (4 * t + 3) (s.handTouches tm) = (u, true)) :
    exec (.trapRecordWrite t bs) s = .next ((u.handTrap tm r).modTeam t fun x => { x with telling := none }) := by
  have complete : ¬ids.any s.openId = true := by simpa using closed
  rw [exec_trapRecordWrite_recorded bs team recorded telling, if_neg complete, asked]

end

/-! Resolution (R390, R393) -/

/-- A team once the device has looked at RESOLVE of its record after a write to a line. -/
def Team.noted (s : State) (line : Nat) (tm : Team) : Team :=
  match tm.status, tm.resolve with
  | .trapped r _ _, none => (match s.resolveWord tm.ctx r line with
    | some v => if 1 ≤ v ∧ v ≤ 3 then { tm with resolve := some v } else tm
    | none => tm)
  | _, _ => tm

theorem tget?_map {α β : Type} (f : α → β) (t : Table α) (k : Nat) :
    tget? (t.map fun e => (e.1, f e.2)) k = (tget? t k).map f := by
  induction t with
  | nil => rfl
  | cons e t ih =>
    obtain ⟨n, a⟩ := e
    by_cases own : n = k
    · simp [tget?, own]
    · simpa [tget?, own] using ih

theorem noteResolve_team? {s : State} {line t : Nat} {tm : Team} (team : s.team? t = some tm) :
    (s.noteResolve line).team? t = some (tm.noted s line) := by
  have each : (s.noteResolve line).teams = s.teams.map fun e => (e.1, e.2.noted s line) := by
    refine List.map_congr_left fun e _ => ?_
    obtain ⟨n, x⟩ := e
    unfold Team.noted
    cases status : x.status with
    | trapped r bs image =>
      cases x.resolve with
      | none =>
        cases word : s.resolveWord x.ctx r line with
        | none => simp only [word]
        | some v => simp only [status, word, apply_ite (Prod.mk n)]
      | some v => rfl
    | running | trapping | saving | saved => rfl
  rw [State.team?, each, tget?_map, show tget? s.teams t = some tm from team]
  rfl

section
variable {s : State} {line v : Nat} {tm : Team} {r : Word} {bs : List Nat} {image : Bool}
  (recorded : tm.status = .trapped r bs image)
include recorded

/-- The first value from 1 to 3 is the one acted on. -/
theorem noted_first (word : s.resolveWord tm.ctx r line = some v) (unresolved : tm.resolve = none) (low : 1 ≤ v)
    (high : v ≤ 3) : tm.noted s line = { tm with resolve := some v } := by
  simp only [Team.noted, recorded, unresolved, word, low, high, and_self, if_true]

theorem noted_later (resolved : tm.resolve ≠ none) : tm.noted s line = tm := by
  obtain ⟨v, resolved⟩ := Option.ne_none_iff_exists'.1 resolved
  simp only [Team.noted, recorded, resolved]

end

section
variable {s u : State} {ctx t v : Nat} {r : Word} {tm : Team}

theorem resolving_resolve (resolving : s.resolving ctx r v = (u, some (t, tm))) : tm.resolve = some v := by
  unfold State.resolving at resolving
  split at resolving
  · cases resolving
  · next n m found =>
    have resolve : m.resolve = some v := by
      have met := List.find?_some found
      simp only [Bool.and_eq_true, beq_iff_eq] at met
      exact met.1.1.2
    have same : m = tm := by
      split at resolving
      · exact (Prod.mk.inj (Option.some.inj (Prod.mk.inj resolving).2)).2
      · cases (Prod.mk.inj resolving).2
    exact same ▸ resolve

theorem exec_resolveDiscard (resolving : s.resolving ctx r 3 = (u, some (t, tm))) :
    exec (.resolveDiscard ctx r) s = .next (u.discardTeam t tm r) := by
  show execResolveDiscard ctx r s = _
  rw [execResolveDiscard, resolving]

theorem exec_resolveResume (resolving : s.resolving ctx r 1 = (u, some (t, tm))) :
    exec (.resolveResume ctx r) s = .next (u.resolveRecord t tm false) := by
  show execResolveResume ctx r s = _
  rw [execResolveResume, resolving]

theorem exec_resolveSkip (resolving : s.resolving ctx r 2 = (u, some (t, tm))) :
    exec (.resolveSkip ctx r) s = .next (u.resolveRecord t tm true) := by
  show execResolveSkip ctx r s = _
  rw [execResolveSkip, resolving]

end

section
variable (u : State) {t : Nat} {tm : Team} {r : Word} {bs : List Nat}

theorem resolveRecord_resumes (whole : tm.status = .trapped r bs true) :
    u.resolveRecord t tm false = (u.reloadFor t tm).resume t tm r bs := by
  simp only [State.resolveRecord, whole, Bool.false_eq_true, if_false]

theorem resolveRecord_skips (whole : tm.status = .trapped r bs true) {tr : Trap} (primary : tm.primary = some tr) :
    u.resolveRecord t tm true = (u.passOver t tr).resume t tm r bs := by
  simp only [State.resolveRecord, whole, primary, if_true]

/-- R389, R390: a record of a header alone can only be discarded. -/
theorem resolveRecord_discards (bare : tm.status = .trapped r bs false) (skip : Bool) :
    u.resolveRecord t tm skip = u.discardTeam t tm r := by
  simp only [State.resolveRecord, bare]

end

/-- Settles O45: each clause is its event's lemma above; the entry of a trap is `Team.trap_eq`. -/
theorem trapEvents : Obligations.TrapEvents := by
  refine ⟨fun s i tr => ?entry, fun i trapped => not_allowed_of_trapped trapped,
    fun s t w k sl tm team halting => exec_haltArrival k team halting,
    fun s t w code sl wp tm rest team running streams stuck others => ?stalemate,
    fun s t bs tm tr team trapping primary => ?record, fun s t bs blocks tm r image ids team recorded telling => ?handed,
    fun s line t v tm r bs image team recorded word => ⟨fun unresolved low high => ?_, fun resolved => ?_⟩,
    fun s u ctx t r tm => ⟨fun v => resolving_resolve, exec_resolveDiscard, fun bs whole => ?whole, fun bs bare => ?bare⟩⟩
  case entry =>
    exact congrArg (State.modTeam _ i.ref.team) (funext fun tm => tm.trap_eq tr)
  case stalemate =>
    exact ⟨stalemateTrap w wp sl code, exec_stalemateDetect team running streams stuck others, rfl, rfl, rfl, rfl, rfl,
      fun sp first => stalemateTrap_pc first⟩
  case record =>
    intro u last gathered settled
    have record := exec_trapRecordWrite_settled bs team trapping primary gathered settled
    refine ⟨fun room chosen => ?_, fun full noBlock => ?_, fun full area final => ?_⟩
    · rw [record]
      simp only [if_pos (show tm.imageBlocks ≤ (s.flushTeam t).openBlocks tm.ctx from room)]
      exact congrArg _ (if_pos chosen)
    · rw [record]
      simp only [if_neg (Nat.not_le.2 (show (s.flushTeam t).openBlocks tm.ctx < tm.imageBlocks from full))]
      exact congrArg _ (if_pos noBlock)
    · rw [record]
      simp only [if_neg (Nat.not_le.2 (show (s.flushTeam t).openBlocks tm.ctx < tm.imageBlocks from full))]
      exact congrArg _ (if_neg (not_or.2 ⟨area, final⟩))
  case handed =>
    exact ⟨exec_trapRecordWrite_incomplete bs team recorded telling, fun closed u asked =>
      exec_trapRecordWrite_hands bs team recorded telling closed asked⟩
  · rw [noteResolve_team? team, noted_first recorded word unresolved low high]
  · rw [noteResolve_team? team, noted_later recorded resolved]
  case whole =>
    exact ⟨fun resolving => (exec_resolveResume resolving).trans (congrArg _ (resolveRecord_resumes u whole)),
      fun tr primary resolving => (exec_resolveSkip resolving).trans (congrArg _ (resolveRecord_skips u whole primary))⟩
  case bare =>
    exact ⟨fun resolving => (exec_resolveResume resolving).trans (congrArg _ (resolveRecord_discards u bare false)),
      fun resolving => (exec_resolveSkip resolving).trans (congrArg _ (resolveRecord_discards u bare true))⟩

end Sys2Proof.Machine

/-! SUPPORT. What the words that only move their split, calls and returns do, and the statement about them. -/

namespace Sys2Proof.Machine

/-! Calls and returns (R231, R258) -/

section
variable (s : State) (i : Issue) (mark : Bool) {addr : Word} (link : Word)

theorem bits_low_eq (v : Word) (n : Nat) : bits v 0 n = v.toNat % 2 ^ n := by
  simp [bits, BitVec.extractLsb'_toNat]

theorem jump_aligned (aligned : addr.toNat % 8 = 0) :
    s.jump i mark addr link = (s.modSplit i.ref fun sp => { sp with link := link }).advanceTo i mark addr := by
  simp [State.jump, bits_low_eq, aligned]

theorem jump_misaligned (misaligned : addr.toNat % 8 ≠ 0) :
    s.jump i mark addr link = s.raiseAt i { Trap.ofWord i 2 0x10 0 with addr := addr } := by
  simp [State.jump, bits_low_eq, misaligned]

theorem exec_jump {s : State} {ins : Instr} (e : exec ins s = .next (s.jump i mark addr link)) :
    (addr.toNat % 8 = 0 →
      exec ins s = .next ((s.modSplit i.ref fun sp => { sp with link := link }).advanceTo i mark addr)) ∧
    (addr.toNat % 8 ≠ 0 → exec ins s = .next (s.raiseAt i { Trap.ofWord i 2 0x10 0 with addr := addr })) :=
  ⟨fun aligned => e.trans (congrArg _ (jump_aligned s i mark link aligned)),
    fun misaligned => e.trans (congrArg _ (jump_misaligned s i mark link misaligned))⟩

end

/-- Settles O8: the words that only move their split by their meanings, calls and returns by `State.jump`. -/
theorem controlTransfers : Obligations.ControlTransfers := by
  intro mark rc tgt a s i ready target goes
  have jumps {ins : Instr} {addr link : Word} : exec ins s = .next (s.jump i mark addr link) → goes ins addr link :=
    exec_jump i mark link
  exact ⟨word_ready ready _, word_ready ready _, word_ready ready _, jumps (word_ready ready _),
    jumps (word_ready ready _), jumps (word_ready ready _), jumps (word_ready ready _), word_ready ready _,
    word_ready ready _⟩

end Sys2Proof.Machine

/-! SUPPORT. What the halves of a short pair compute, and the statement about pairs and illegal words. -/

namespace Sys2Proof.Machine

/-! Integers of 32 bits (R246, R264 to R266) -/

theorem ofInt_eq (n : Nat) (z : Int) : ofInt n z = (BitVec.ofInt n z).toNat := by
  simp [ofInt, BitVec.toNat_ofInt]

/-- The integer types of 32 bits. -/
def Word32 (t : Ty) : Prop := t = .i32 ∨ t = .z32

section
variable {t : Ty} (x y : BitVec 32)

theorem int_eq_numOf (h : Word32 t) : Ty.int t x.toNat = numOf t x := by
  have below := x.isLt
  obtain rfl | rfl := h
  · simp only [Ty.int, numOf, Ty.signed, Ty.ibits, toInt, BitVec.toInt_eq_toNat_cond, if_true]
    split_ifs <;> omega
  · simp [Ty.int, numOf, Ty.signed, Ty.ibits, Nat.mod_eq_of_lt below]

theorem ofInt_numOf (h : Word32 t) : ofInt (Ty.ibits t) (numOf t x) = x.toNat := by
  obtain rfl | rfl := h <;> simp [ofInt_eq, numOf, Ty.signed, Ty.ibits]

theorem less_iff : less t x y = true ↔ numOf t x < numOf t y := by
  unfold less numOf
  split <;> simp [BitVec.slt_iff_toInt_lt, BitVec.ult_iff_toNat_lt]

theorem intAdd_i32 : intAdd .i32 false x.toNat y.toNat = (x + y).toNat := by
  rw [intAdd, int_eq_numOf x (.inl rfl), int_eq_numOf y (.inl rfl), wrapSat, if_neg Bool.false_ne_true, ofInt_eq]
  simp [numOf, Ty.signed, Ty.ibits, BitVec.ofInt_add]

theorem intSub_i32 : intSub .i32 false x.toNat y.toNat = (x - y).toNat := by
  rw [intSub, int_eq_numOf x (.inl rfl), int_eq_numOf y (.inl rfl), wrapSat, if_neg Bool.false_ne_true, ofInt_eq]
  simp [numOf, Ty.signed, Ty.ibits, Int.sub_eq_add_neg, BitVec.ofInt_add, BitVec.ofInt_neg, BitVec.sub_eq_add_neg]

theorem intMul_i32 : intMul .i32 x.toNat y.toNat = (x * y).toNat := by
  rw [intMul, int_eq_numOf x (.inl rfl), int_eq_numOf y (.inl rfl), ofInt_eq]
  simp [numOf, Ty.signed, Ty.ibits, BitVec.ofInt_mul]

theorem intMin_eq (h : Word32 t) : intMin t x.toNat y.toNat = (if less t y x then y else x).toNat := by
  rw [intMin, int_eq_numOf x h, int_eq_numOf y h]
  by_cases lt : numOf t y < numOf t x
  · rw [if_pos ((less_iff y x).2 lt), min_eq_right lt.le, ofInt_numOf y h]
  · rw [if_neg (mt (less_iff y x).1 lt), min_eq_left (not_lt.1 lt), ofInt_numOf x h]

theorem intMax_eq (h : Word32 t) : intMax t x.toNat y.toNat = (if less t x y then y else x).toNat := by
  rw [intMax, int_eq_numOf x h, int_eq_numOf y h]
  by_cases lt : numOf t x < numOf t y
  · rw [if_pos ((less_iff x y).2 lt), max_eq_right lt.le, ofInt_numOf y h]
  · rw [if_neg (mt (less_iff x y).1 lt), max_eq_left (not_lt.1 lt), ofInt_numOf x h]

variable (c : Nat)

theorem shiftLeft_eq_leftBy : shiftLeft 32 x.toNat c = (leftBy x c).toNat := by
  by_cases all : 32 ≤ c
  · simp [shiftLeft, leftBy, all]
  · simp [shiftLeft, leftBy, all, Nat.shiftLeft_eq]

theorem shiftRight_eq_rightBy (h : Word32 t) : shiftRight t x.toNat c = (rightBy t x c).toNat := by
  have below := x.isLt
  rw [shiftRight, int_eq_numOf x h]
  by_cases all : 32 ≤ c
  · obtain rfl | rfl := h
    · simp [rightBy, numOf, Ty.signed, Ty.ibits, all, ofInt, BitVec.msb_eq_toInt]
      have : x.toInt < 2 ^ 31 := x.toInt_lt
      have : -2 ^ 31 ≤ x.toInt := x.le_toInt
      split <;> simp <;> omega
    · simp [rightBy, numOf, Ty.signed, Ty.ibits, all, ofInt]
      omega
  · have part := (not_le.1 all).le
    obtain rfl | rfl := h
    · simp [rightBy, numOf, Ty.signed, Ty.ibits, all, min_eq_left part, ofInt_eq, BitVec.sshiftRight,
        Int.shiftRight_eq_div_pow]
    · have low : x.toNat / 2 ^ c < 2 ^ 32 := Nat.lt_of_le_of_lt (Nat.div_le_self ..) below
      have value : numOf .z32 x / ((2 ^ min c (Ty.ibits .z32) : Nat) : Int) = ((x.toNat / 2 ^ c : Nat) : Int) := by
        simp [numOf, Ty.signed, Ty.ibits, min_eq_left part]
      rw [value, ofInt, ← Int.natCast_emod, Int.toNat_natCast]
      simp [rightBy, Ty.signed, Ty.ibits, all, Nat.shiftRight_eq_div_pow]
      exact low

end

/-! Floats of 32 bits -/

theorem signBit_f32_le (neg : Bool) : Fmt.f32.signBit neg ≤ 2 ^ 31 := by cases neg <;> decide

theorem infCode_f32_lt : Fmt.f32.infCode < 2 ^ 31 := by decide

theorem maxCode_f32_lt : Fmt.f32.maxCode < 2 ^ 31 := by decide

theorem signed_infCode_f32_lt (neg : Bool) : Fmt.f32.signBit neg + Fmt.f32.infCode < 2 ^ 32 := by
  have := signBit_f32_le neg
  have := infCode_f32_lt
  omega

theorem put_f32_lt (mode : Mode) (r : Nat) (neg : Bool) (m : Nat) (e : Int) :
    (Fmt.f32.put mode r neg m e).1 < 2 ^ 32 := by
  have sign := signBit_f32_le neg
  have largest := maxCode_f32_lt
  unfold Fmt.put
  split
  · exact Nat.lt_of_le_of_lt sign (by decide)
  · dsimp only
    split
    · split
      · exact signed_infCode_f32_lt neg
      · dsimp only
        omega
    · next fits =>
      have code : (Fmt.f32.round mode r neg m e).code ≤ Fmt.f32.maxCode := by simpa [Fmt.round] using fits
      dsimp only
      omega

theorem putSum_f32_lt (mode : Mode) (z1 z2 : Bool) (v : Int × Int) : (Fmt.f32.putSum mode z1 z2 v).1 < 2 ^ 32 := by
  unfold Fmt.putSum
  split
  · exact Nat.lt_of_le_of_lt (signBit_f32_le _) (by decide)
  · exact put_f32_lt ..

theorem nan_f32_lt (nv : Bool) : (Fmt.f32.nan nv).1 < 2 ^ 32 := show Fmt.f32.nanCode < 2 ^ 32 by decide

theorem add_f32_lt (mode : Mode) (x y : Val) : (Fmt.f32.add mode x y).1 < 2 ^ 32 := by
  unfold Fmt.add
  split
  · exact nan_f32_lt _
  · exact nan_f32_lt _
  · exact nan_f32_lt _
  · split
    · exact signed_infCode_f32_lt _
    · exact nan_f32_lt _
  · exact signed_infCode_f32_lt _
  · exact signed_infCode_f32_lt _
  · exact putSum_f32_lt ..

theorem mul_f32_lt (mode : Mode) (x y : Val) : (Fmt.f32.mul mode x y).1 < 2 ^ 32 := by
  unfold Fmt.mul
  split
  · exact nan_f32_lt _
  · exact signed_infCode_f32_lt _
  · exact put_f32_lt ..

theorem minmax_f32_lt (greater : Bool) (x y : BitVec 32) : (Fmt.f32.minmax greater x.toNat y.toNat).1 < 2 ^ 32 := by
  unfold Fmt.minmax
  dsimp only
  split
  · exact nan_f32_lt false
  · split
    · exact y.isLt
    · split
      · exact x.isLt
      · dsimp only
        split
        · exact x.isLt
        · exact y.isLt

/-! Short pairs (R244 to R246) -/

/-- The full instruction of a half computes 32 bits and its exceptions. -/
theorem eval_eq_halfOf (op : ShortOp) (x y : BitVec 32) :
    ShortOp.eval op x.toNat y.toNat = ((halfOf op x y).1.toNat, (halfOf op x y).2) := by
  have whole {r : Nat × Fl} (h : r.1 < 2 ^ 32) : r = ((BitVec.ofNat 32 r.1).toNat, r.2) :=
    Prod.ext (by rw [BitVec.toNat_ofNat, Nat.mod_eq_of_lt h]) rfl
  cases op with
  | nop | mov | movI => rfl
  | and | andI => exact congrArg (·, 0) (BitVec.toNat_and x y).symm
  | or | orI => exact congrArg (·, 0) (BitVec.toNat_or x y).symm
  | xor | xorI => exact congrArg (·, 0) (BitVec.toNat_xor x y).symm
  | add | addI => exact congrArg (·, 0) (intAdd_i32 x y)
  | sub => exact congrArg (·, 0) (intSub_i32 x y)
  | mul | mulI => exact congrArg (·, 0) (intMul_i32 x y)
  | min => exact congrArg (·, 0) (intMin_eq x y (.inl rfl))
  | max => exact congrArg (·, 0) (intMax_eq x y (.inl rfl))
  | minu => exact congrArg (·, 0) (intMin_eq x y (.inr rfl))
  | maxu => exact congrArg (·, 0) (intMax_eq x y (.inr rfl))
  | shl | shlI => exact congrArg (·, 0) (shiftLeft_eq_leftBy x y.toNat)
  | shr | shrI => exact congrArg (·, 0) (shiftRight_eq_rightBy x y.toNat (.inr rfl))
  | sarI => exact congrArg (·, 0) (shiftRight_eq_rightBy x y.toNat (.inl rfl))
  | fadd => exact whole (add_f32_lt ..)
  | fsub => exact whole (add_f32_lt ..)
  | fmul => exact whole (mul_f32_lt ..)
  | fmin => exact whole (minmax_f32_lt false x y)
  | fmax => exact whole (minmax_f32_lt true x y)

section
variable (i : Issue) (x : Half)

theorem read32_eq {l : Nat} (lane : l < 32) (o : Opd) :
    (i.sl.read .c l 32 o).toNat = ((i.sl.read .c l 32 o).setWidth 32).toNat := by
  rw [BitVec.toNat_setWidth, Nat.mod_eq_of_lt (read_lt lane o)]

theorem half_eval {l : Nat} (lane : l < 32) : Half.eval i x l = ((halfIn i x l).1.toNat, (halfIn i x l).2) := by
  unfold Half.eval halfIn
  rw [read32_eq i lane, ← eval_eq_halfOf]
  congr 1
  unfold Half.bVal
  split
  · exact read32_eq i lane _
  · rfl

theorem half_writes : Half.writes i x = halfResults i x := by
  unfold Half.writes halfResults
  split
  · rfl
  · refine List.map_congr_left fun l mem => ?_
    rw [half_eval i x (lane_of_mem mem), BitVec.ofNat_toNat]

end

/-! Exceptions of a word's lanes (R293) -/

theorem foldl_raised_getLsbD {l : Nat} (lane : l < 32) (bit : Nat) (rs : List (Nat × Word × Fl)) (m : Mask) :
    (rs.foldl (fun m r => if r.2.2.getLsbD bit then m ||| laneBit r.1 else m) m).getLsbD l =
      (m.getLsbD l || rs.any fun r => r.1 == l && r.2.2.getLsbD bit) := by
  induction rs generalizing m with
  | nil => simp
  | cons r rs ih =>
    rw [List.foldl_cons, ih, List.any_cons]
    by_cases raised : r.2.2.getLsbD bit = true
    · simp [raised, laneBit_getLsbD lane, Bool.or_assoc, eq_comm (a := l), beq_eq_decide]
    · simp [raised]

theorem raisedIn_eq_maskBy (rs : List (Nat × Word × Fl)) (bit : Nat) :
    raisedIn rs bit = maskBy fun l => rs.any fun r => r.1 == l && r.2.2.getLsbD bit := by
  apply BitVec.eq_of_getLsbD_eq
  intro l lane
  rw [raisedIn, foldl_raised_getLsbD lane, maskBy_getLsbD lane, show (0 : Mask).getLsbD l = false from
    BitVec.getLsbD_zero, Bool.false_or]

theorem fpTrap_eq_trapOf (fmt : BitVec 32) (rs : List (Nat × Word × Fl)) : fpTrap fmt rs = trapOf fmt rs := by
  have order : List.range 5 = [0, 1, 2, 3, 4] := rfl
  simp [fpTrap, trapOf, fmtTraps, order, raisedIn_eq_maskBy, List.findSome?_cons]

/-- The lanes of a pair with the exceptions of both halves. -/
def pairRaised (i : Issue) (x y : Half) : List (Nat × Word × Fl) :=
  (lanesOf i.sp.mask).map fun l => (l, 0, (halfIn i x l).2 ||| (halfIn i y l).2)

theorem eval_pairRaised (i : Issue) (x y : Half) :
    (lanesOf i.sp.mask).map (fun l => (l, (0 : Word), (Half.eval i x l).2 ||| (Half.eval i y l).2)) = pairRaised i x y :=
  List.map_congr_left fun l mem => by rw [half_eval i x (lane_of_mem mem), half_eval i y (lane_of_mem mem)]

section
variable {s : State} {i : Issue} (ready : s.Ready i) (mark : Bool) (x y : Half)
include ready

theorem exec_shortPair_trap {sub : Nat} {lanes : Mask} (trap : trapOf i.sp.fmt (pairRaised i x y) = some (sub, lanes)) :
    exec (.shortPair mark x y) s = .next ((s.modSlice i.ref.team i.ref.warp i.ref.slice fun z =>
      (flagWrites (pairRaised i x y)).foldl SliceState.put z).raiseAt i
        { Trap.ofWord i 8 sub (lanes.setWidth 64) with lanes := lanes }) := by
  show execShortPair mark x y s = _
  rw [execShortPair, word_ready ready, eval_pairRaised]
  dsimp only
  rw [fpTrap_eq_trapOf, trap]

theorem exec_shortPair (fine : trapOf i.sp.fmt (pairRaised i x y) = none) : exec (.shortPair mark x y) s =
    .next ((s.results i (halfResults i x ++ halfResults i y ++ flagWrites (pairRaised i x y))).advance i mark) := by
  show execShortPair mark x y s = _
  rw [execShortPair, word_ready ready, eval_pairRaised]
  dsimp only
  rw [fpTrap_eq_trapOf, fine, half_writes, half_writes]

end

/-- Settles O31: a pair by its meaning, with the exceptions of both halves together; an illegal word by its meaning. -/
theorem pairsAndIllegalWords : Obligations.PairsAndIllegalWords := by
  refine ⟨fun mark x y s i ready => ⟨fun sub lanes => exec_shortPair_trap ready mark x y, exec_shortPair ready mark x y⟩,
    fun w why s i ready => ?_⟩
  cases why <;> exact word_ready ready _

end Sys2Proof.Machine

/-! SUPPORT. A word that loses its SCOPE (R237): what the decoder reads of it. -/

namespace Sys2Proof

/-- `Scope.ofCode` reads code 7, which R237 makes no scope, as no scope at all: its last `none` is `Scope.none`. -/
theorem Scope.ofCode_seven : Scope.ofCode 7 = some .none := rfl

/-- `ld.z32 a0, [a0]` with SCOPE 7 in SUB bits 29:27, where R237 and R248 refuse the word. -/
def loadOfScope7 : Word := encI ⟨false, noGuard⟩ 0x80 ⟨0, 0, Ty.z32.code, 7#3 ++ 0#1, 0⟩

theorem decode_loadOfScope7 :
    decode .a loadOfScope7 = .ok (.ld ⟨false, noGuard⟩ .z32 .none (.r 0) (.r 0) 0) := by rfl

theorem encode_ne_loadOfScope7 : encode (.ld ⟨false, noGuard⟩ .z32 .none (.r 0) (.r 0) 0) ≠ loadOfScope7 := by decide

end Sys2Proof

namespace Sys2Proof.Machine

/-- Refutes O53: SCOPE 7, which is no scope (R237), decodes as SCOPE 0, so that a load of SCOPE 7 is the encoding of no
instruction that it decodes to. -/
theorem not_encodeDecode : ¬ Obligations.EncodeDecode :=
  fun same => encode_ne_loadOfScope7 (same .a loadOfScope7 _ decode_loadOfScope7).2

end Sys2Proof.Machine

/-! SUPPORT. From an instruction to its word and back (R233 to R248): one lemma for each form of word, which reads back the
fields that the encoder writes. -/

namespace Sys2Proof

/-! The opcode, slice and guard of an encoded word (R234, R235, R247, R248) -/

/-- Checks 2 to 4 of R248 pass: the opcode is legal in the slice under the guard. -/
def Fits (sl : Slice) (op : BitVec 8) (h : Head) : Prop :=
  opReserved op = false ∧ opSlice sl op = true ∧ guardOk sl op h.guard = true

/-- The legal opcodes whose words may be guarded in both slices. -/
def opGuarded (op : BitVec 8) : Bool := !opReserved op && !opUnguarded op && op != 0x02

section
variable {sl : Slice} {op : BitVec 8} {h : Head}

theorem decode_fits {b : BitVec 50} {ins : Instr} (fits : Fits sl op h) (body : decodeBody sl op h b = .ok ins) :
    decode sl (fullWord h.mark op h.guard.bits b) = .ok ins :=
  (decode_full sl h op b fits.1 fits.2.1 fits.2.2).trans body

theorem guardOk_of_guarded (guarded : opGuarded op = true) : guardOk sl op h.guard = h.ok := by
  simp only [opGuarded, Bool.and_eq_true, Bool.not_eq_true', bne_iff_ne] at guarded
  obtain ⟨⟨-, may⟩, other⟩ := guarded
  simp only [guardOk, may, beq_eq_false_iff_ne.2 other, Bool.false_and, Bool.or_false, Bool.not_false, Bool.true_or,
    Bool.and_true, Head.ok]

/-- A guarded word of a slice. -/
theorem fits_slice (guarded : opGuarded op = true) (slice : opSlice sl op = true) (ok : h.ok = true) :
    Fits sl op h := by
  refine ⟨?_, slice, (guardOk_of_guarded guarded).trans ok⟩
  simp only [opGuarded, Bool.and_eq_true, Bool.not_eq_true'] at guarded
  exact guarded.1.1

theorem opSlice_both (a : opOnlyA op = false) (c : opOnlyC op = false) : opSlice sl op = true := by
  cases sl
  · exact congrArg not c
  · exact congrArg not a

/-- A guarded word of both slices. -/
theorem fits_both (guarded : opGuarded op = true) (a : opOnlyA op = false) (c : opOnlyC op = false)
    (ok : h.ok = true) : Fits sl op h :=
  fits_slice guarded (opSlice_both a c) ok

/-- An unguarded word of both slices. -/
theorem fits_bare {mark : Bool} (legal : opReserved op = false) (a : opOnlyA op = false) (c : opOnlyC op = false) :
    Fits sl op ⟨mark, noGuard⟩ := by
  refine ⟨legal, opSlice_both a c, ?_⟩
  simp only [guardOk, show noGuard.ok = true from rfl, show noGuard.always = true from rfl, Bool.or_true, Bool.and_true]

/-- A guarded word of the A-slice alone. -/
theorem fits_a (guarded : opGuarded op = true) (slice : opSlice .a op = true) (pre : (h.ok && sl == .a) = true) :
    Fits sl op h := by
  rw [Bool.and_eq_true, beq_iff_eq] at pre
  obtain ⟨ok, rfl⟩ := pre
  exact fits_slice guarded slice ok

/-- A guarded word of the C-slice alone. -/
theorem fits_c (guarded : opGuarded op = true) (slice : opSlice .c op = true) (pre : (h.ok && sl == .c) = true) :
    Fits sl op h := by
  rw [Bool.and_eq_true, beq_iff_eq] at pre
  obtain ⟨ok, rfl⟩ := pre
  exact fits_slice guarded slice ok

end

/-! Checks that pass -/

theorem ok_bind {α β : Type} (a : α) (f : α → Except Illegal β) : (Except.ok a >>= f) = f a := rfl

theorem bind_eq_of_ok {α β : Type} {x : Except Illegal α} {f : α → Except Illegal β} {u : α} {y : Except Illegal β}
    (ok : x = .ok u) (rest : f u = y) : (x >>= f) = y := by
  rw [ok, ok_bind, rest]

theorem need_true (e : Illegal) : need true e = .ok () := rfl

theorem zeroF_zero {n : Nat} : zeroF (0 : BitVec n) = .ok () := by simp [zeroF, need]

theorem zeroM_zero {n : Nat} : zeroM (0 : BitVec n) = .ok () := by simp [zeroM, need]

theorem plain_masked {d a b c : BitVec 8} {t : BitVec 4} {x mask : BitVec 9} (low : x &&& ~~~mask = 0) :
    plain ⟨d, a, b, c, t, 0, 0, x⟩ mask = .ok () := by
  simp only [plain, zeroM_zero, low, ok_bind]

/-! Fields that meet (R235) -/

/-- Two fields that meet read as one. -/
theorem field_append {n p q s t : Nat} {w : BitVec n} {x : BitVec p} {y : BitVec q} (high : w.extractLsb' t p = x)
    (low : w.extractLsb' s q = y) (meet : t = s + q) : w.extractLsb' s (p + q) = x ++ y := by
  rw [← high, ← low]
  exact (BitVec.extractLsb'_append_extractLsb'_eq_extractLsb' meet).symm

theorem halves_append (v : BitVec 16) : v.extractLsb' 8 8 ++ v.extractLsb' 0 8 = v :=
  (field_append rfl rfl rfl).symm.trans (field_whole v)

section
variable (r : RBody)

theorem RBody.bits_da : r.bits.extractLsb' 34 16 = r.d ++ r.a :=
  field_append (congrArg RBody.d r.ofBits_bits) (congrArg RBody.a r.ofBits_bits) rfl

/-- TYPE, SCOPE, ORD and OP. -/
theorem RBody.bits_mods : r.bits.extractLsb' 0 18 = r.ty ++ (r.scope ++ (r.ord ++ r.op)) :=
  field_append (congrArg RBody.ty r.ofBits_bits) (field_append (congrArg RBody.scope r.ofBits_bits)
    (field_append (congrArg RBody.ord r.ofBits_bits) (congrArg RBody.op r.ofBits_bits) rfl) rfl) rfl

/-- All but field d. -/
theorem RBody.bits_rest : r.bits.extractLsb' 0 42 = r.a ++ (r.b ++ (r.c ++ (r.ty ++ (r.scope ++ (r.ord ++ r.op))))) :=
  field_append (congrArg RBody.a r.ofBits_bits) (field_append (congrArg RBody.b r.ofBits_bits)
    (field_append (congrArg RBody.c r.ofBits_bits) r.bits_mods rfl) rfl) rfl
end

/-! OP fields (R235) -/

theorem zero_masked (mask : BitVec 9) : (0 : BitVec 9) &&& ~~~mask = 0 := BitVec.zero_and

theorem sat_masked : ∀ v : Bool, (0#8 ++ BitVec.ofBool v : BitVec 9) &&& ~~~1 = 0 := by decide
theorem sat_bit : ∀ v : Bool, (0#8 ++ BitVec.ofBool v : BitVec 9).getLsbD 0 = v := by decide
theorem low3_masked : ∀ v : BitVec 3, (0#6 ++ v : BitVec 9) &&& ~~~7 = 0 := by decide
theorem low3_field : ∀ v : BitVec 3, (0#6 ++ v : BitVec 9).extractLsb' 0 3 = v := by decide

/-! Register operations (R235, R240 to R243) -/

section
variable {sl : Slice} {w wd wa wb : Wd} {t : Ty} {d a b c : Opd} {ty : BitVec 4} {sc : BitVec 3} {od : BitVec 2}
  {x mask : BitVec 9} {h : Head} {op : BitVec 8} {ok : Ty → Bool}

theorem dab_code (hd : dstOk sl wd d = true) (ha : srcOk sl wa a = true) (hb : srcOk sl wb b = true)
    (pops : popsDistinct [a, b] = true) :
    dab sl wd wa wb ⟨d.code, a.code, b.code, 0, ty, sc, od, x⟩ = .ok (d, a, b) := by
  simp only [dab, dstF_code hd, srcF_code ha, srcF_code hb, zeroF_zero, pops, need_true, ok_bind]
  rfl

theorem dabc_code (hd : dstOk sl w d = true) (ha : srcOk sl w a = true) (hb : srcOk sl w b = true)
    (hc : srcOk sl w c = true) (pops : popsDistinct [a, b, c] = true) :
    dabc sl w ⟨d.code, a.code, b.code, c.code, ty, sc, od, x⟩ = .ok (d, a, b, c) := by
  simp only [dabc, dstF_code hd, srcF_code ha, srcF_code hb, srcF_code hc, pops, need_true, ok_bind]
  rfl

theorem da_code (hd : dstOk sl wd d = true) (ha : srcOk sl wa a = true) :
    da sl wd wa ⟨d.code, a.code, 0, 0, ty, sc, od, x⟩ = .ok (d, a) := by
  simp only [da, dstF_code hd, srcF_code ha, zeroF_zero, ok_bind]
  rfl

theorem op3_code {mk : Ty → Opd → Opd → Opd → Instr} (low : x &&& ~~~mask = 0) (typed : ok t = true)
    (hd : dstOk sl t.wd d = true) (ha : srcOk sl t.wd a = true) (hb : srcOk sl t.wd b = true)
    (pops : popsDistinct [a, b] = true) :
    op3 sl ⟨d.code, a.code, b.code, 0, t.code, 0, 0, x⟩ ok mask mk = .ok (mk t d a b) := by
  simp only [op3, Ty.ofCode_code, dab_code hd ha hb pops, typed, need_true, plain_masked low, ok_bind]
  rfl

theorem op4_code {mk : Ty → Opd → Opd → Opd → Opd → Instr} (low : x &&& ~~~mask = 0) (typed : ok t = true)
    (hd : dstOk sl t.wd d = true) (ha : srcOk sl t.wd a = true) (hb : srcOk sl t.wd b = true)
    (hc : srcOk sl t.wd c = true) (pops : popsDistinct [a, b, c] = true) :
    op4 sl ⟨d.code, a.code, b.code, c.code, t.code, 0, 0, x⟩ ok mask mk = .ok (mk t d a b c) := by
  simp only [op4, Ty.ofCode_code, dabc_code hd ha hb hc pops, typed, need_true, plain_masked low, ok_bind]
  rfl

theorem op2_code {mk : Ty → Opd → Opd → Instr} (low : x &&& ~~~mask = 0) (typed : ok t = true)
    (hd : dstOk sl t.wd d = true) (ha : srcOk sl t.wd a = true) :
    op2 sl ⟨d.code, a.code, 0, 0, t.code, 0, 0, x⟩ ok mask mk = .ok (mk t d a) := by
  simp only [op2, Ty.ofCode_code, da_code hd ha, typed, need_true, plain_masked low, ok_bind]
  rfl

end

/-! Words of two, three and four registers (R264 to R267, R299, R300). Each lemma serves the words of one form: `arm` is
the opcode's arm of the decoder, and `wf` what `Instr.wf` asks of the word, in its order. -/

section
variable {sl : Slice} {op : BitVec 8} {h : Head} {pre : Bool} {t : Ty} {d a b c : Opd} {rm : BitVec 3} {ok : Ty → Bool}
  (fits : pre = true → Fits sl op h)
include fits

theorem decode_op3 {mk : Ty → Opd → Opd → Opd → Instr}
    (arm : ∀ body, decodeBody sl op h body = op3 sl (RBody.ofBits body) ok 0 mk)
    (wf : (pre && ok t && dstOk sl t.wd d && srcOk sl t.wd a && srcOk sl t.wd b && popsDistinct [a, b]) = true) :
    decode sl (encP h op d.code a.code b.code 0 t 0) = .ok (mk t d a b) := by
  simp only [Bool.and_eq_true] at wf
  obtain ⟨⟨⟨⟨⟨guard, typed⟩, hd⟩, ha⟩, hb⟩, pops⟩ := wf
  refine decode_fits (fits guard) ?_
  rw [arm, RBody.ofBits_bits, op3_code (zero_masked _) typed hd ha hb pops]

theorem decode_sat3 {mk : Ty → Bool → Opd → Opd → Opd → Instr} {sat : Bool}
    (arm : ∀ body, decodeBody sl op h body = op3 sl (RBody.ofBits body) ok 1
      fun t => mk t ((RBody.ofBits body).op.getLsbD 0))
    (wf : (pre && ok t && dstOk sl t.wd d && srcOk sl t.wd a && srcOk sl t.wd b && popsDistinct [a, b]) = true) :
    decode sl (encP h op d.code a.code b.code 0 t (0#8 ++ BitVec.ofBool sat)) = .ok (mk t sat d a b) := by
  simp only [Bool.and_eq_true] at wf
  obtain ⟨⟨⟨⟨⟨guard, typed⟩, hd⟩, ha⟩, hb⟩, pops⟩ := wf
  refine decode_fits (fits guard) ?_
  rw [arm, RBody.ofBits_bits, op3_code (sat_masked _) typed hd ha hb pops, sat_bit]

theorem decode_rm3 {mk : Ty → BitVec 3 → Opd → Opd → Opd → Instr}
    (arm : ∀ body, decodeBody sl op h body =
      op3 sl (RBody.ofBits body) (fun t => ok t && rmOk (rmode (RBody.ofBits body))) 7 fun t =>
        mk t (rmode (RBody.ofBits body)))
    (wf : (pre && ok t && rmOk rm && dstOk sl t.wd d && srcOk sl t.wd a && srcOk sl t.wd b &&
      popsDistinct [a, b]) = true) :
    decode sl (encP h op d.code a.code b.code 0 t (0#6 ++ rm)) = .ok (mk t rm d a b) := by
  simp only [Bool.and_eq_true] at wf
  obtain ⟨⟨⟨⟨⟨⟨guard, typed⟩, rounds⟩, hd⟩, ha⟩, hb⟩, pops⟩ := wf
  refine decode_fits (fits guard) ?_
  rw [arm, RBody.ofBits_bits, rmode, low3_field,
    op3_code (low3_masked _) (by rw [typed, rounds]; rfl) hd ha hb pops]

theorem decode_op4 {mk : Ty → Opd → Opd → Opd → Opd → Instr}
    (arm : ∀ body, decodeBody sl op h body = op4 sl (RBody.ofBits body) ok 0 mk)
    (wf : (pre && ok t && dstOk sl t.wd d && srcOk sl t.wd a && srcOk sl t.wd b && srcOk sl t.wd c &&
      popsDistinct [a, b, c]) = true) :
    decode sl (encP h op d.code a.code b.code c.code t 0) = .ok (mk t d a b c) := by
  simp only [Bool.and_eq_true] at wf
  obtain ⟨⟨⟨⟨⟨⟨guard, typed⟩, hd⟩, ha⟩, hb⟩, hc⟩, pops⟩ := wf
  refine decode_fits (fits guard) ?_
  rw [arm, RBody.ofBits_bits, op4_code (zero_masked _) typed hd ha hb hc pops]

theorem decode_rm4 {mk : Ty → BitVec 3 → Opd → Opd → Opd → Opd → Instr}
    (arm : ∀ body, decodeBody sl op h body =
      op4 sl (RBody.ofBits body) (fun t => ok t && rmOk (rmode (RBody.ofBits body))) 7 fun t =>
        mk t (rmode (RBody.ofBits body)))
    (wf : (pre && ok t && rmOk rm && dstOk sl t.wd d && srcOk sl t.wd a && srcOk sl t.wd b && srcOk sl t.wd c &&
      popsDistinct [a, b, c]) = true) :
    decode sl (encP h op d.code a.code b.code c.code t (0#6 ++ rm)) = .ok (mk t rm d a b c) := by
  simp only [Bool.and_eq_true] at wf
  obtain ⟨⟨⟨⟨⟨⟨⟨guard, typed⟩, rounds⟩, hd⟩, ha⟩, hb⟩, hc⟩, pops⟩ := wf
  refine decode_fits (fits guard) ?_
  rw [arm, RBody.ofBits_bits, rmode, low3_field,
    op4_code (low3_masked _) (by rw [typed, rounds]; rfl) hd ha hb hc pops]

theorem decode_op2 {mk : Ty → Opd → Opd → Instr}
    (arm : ∀ body, decodeBody sl op h body = op2 sl (RBody.ofBits body) ok 0 mk)
    (wf : (pre && ok t && dstOk sl t.wd d && srcOk sl t.wd a) = true) :
    decode sl (encP h op d.code a.code 0 0 t 0) = .ok (mk t d a) := by
  simp only [Bool.and_eq_true] at wf
  obtain ⟨⟨⟨guard, typed⟩, hd⟩, ha⟩ := wf
  refine decode_fits (fits guard) ?_
  rw [arm, RBody.ofBits_bits, op2_code (zero_masked _) typed hd ha]

theorem decode_sat2 {mk : Ty → Bool → Opd → Opd → Instr} {sat : Bool}
    (arm : ∀ body, decodeBody sl op h body = op2 sl (RBody.ofBits body) ok 1
      fun t => mk t ((RBody.ofBits body).op.getLsbD 0))
    (wf : (pre && ok t && dstOk sl t.wd d && srcOk sl t.wd a) = true) :
    decode sl (encP h op d.code a.code 0 0 t (0#8 ++ BitVec.ofBool sat)) = .ok (mk t sat d a) := by
  simp only [Bool.and_eq_true] at wf
  obtain ⟨⟨⟨guard, typed⟩, hd⟩, ha⟩ := wf
  refine decode_fits (fits guard) ?_
  rw [arm, RBody.ofBits_bits, op2_code (sat_masked _) typed hd ha, sat_bit]

theorem decode_rm2 {mk : Ty → BitVec 3 → Opd → Opd → Instr}
    (arm : ∀ body, decodeBody sl op h body =
      op2 sl (RBody.ofBits body) (fun t => ok t && rmOk (rmode (RBody.ofBits body))) 7 fun t =>
        mk t (rmode (RBody.ofBits body)))
    (wf : (pre && ok t && rmOk rm && dstOk sl t.wd d && srcOk sl t.wd a) = true) :
    decode sl (encP h op d.code a.code 0 0 t (0#6 ++ rm)) = .ok (mk t rm d a) := by
  simp only [Bool.and_eq_true] at wf
  obtain ⟨⟨⟨⟨guard, typed⟩, rounds⟩, hd⟩, ha⟩ := wf
  refine decode_fits (fits guard) ?_
  rw [arm, RBody.ofBits_bits, rmode, low3_field, op2_code (low3_masked _) (by rw [typed, rounds]; rfl) hd ha]

end

/-- A pair of 16-bit elements fills one register. -/
theorem wd_of_isPair {t : Ty} (pair : t.isPair = true) : t.wd = .w32 := by
  cases t
  case f16x2 => rfl
  case bf16x2 => rfl
  all_goals cases pair

theorem none_code : Ty.none.code = 0 := rfl

theorem Guard.always_iff (g : Guard) : g.always = true ↔ g = noGuard := by
  have all : ∀ n : Bool, ∀ p : BitVec 3, Guard.always ⟨n, p⟩ = true ↔ (⟨n, p⟩ : Guard) = noGuard := by decide
  exact all g.neg g.p

/-- A well-formed instruction's word decodes to it. -/
def RoundTrips (sl : Slice) (ins : Instr) : Prop := ins.wf sl = true → decode sl (encode ins) = .ok ins

section
variable {sl : Slice} {op : BitVec 8} {h : Head} {t : Ty} {d a b c : Opd} {rm : BitVec 3}

theorem decode_pair3 {mk : Ty → BitVec 3 → Opd → Opd → Opd → Instr}
    (fits : (h.ok && sl == .c) = true → Fits sl op h)
    (arm : ∀ body, decodeBody sl op h body =
      op3 sl (RBody.ofBits body) (fun t => t.isPair && rmOk (rmode (RBody.ofBits body))) 7 fun t =>
        mk t (rmode (RBody.ofBits body)))
    (wf : (h.ok && sl == .c && t.isPair && rmOk rm && dstOk sl .w32 d && srcOk sl .w32 a && srcOk sl .w32 b &&
      popsDistinct [a, b]) = true) :
    decode sl (encP h op d.code a.code b.code 0 t (0#6 ++ rm)) = .ok (mk t rm d a b) := by
  have pair : t.isPair = true := by simp only [Bool.and_eq_true] at wf; exact wf.1.1.1.1.1.2
  rw [← wd_of_isPair pair] at wf
  exact decode_rm3 fits arm wf

theorem hfma2_roundTrips : RoundTrips sl (.hfma2 h t rm d a b c) := by
  intro (wf : (_ && _) = true)
  have pair : t.isPair = true := by simp only [Bool.and_eq_true] at wf; exact wf.1.1.1.1.1.1.2
  rw [← wd_of_isPair pair] at wf
  exact decode_rm4 (fits_c rfl rfl) (fun _ => rfl) wf

theorem fdot2_roundTrips : RoundTrips sl (.fdot2 h t rm d a b c) := by
  intro (wf : (_ && _) = true)
  simp only [Bool.and_eq_true, beq_iff_eq] at wf
  obtain ⟨⟨⟨⟨⟨⟨⟨⟨ok, rfl⟩, pair⟩, rounds⟩, hd⟩, ha⟩, hb⟩, hc⟩, pops⟩ := wf
  refine decode_fits (fits_slice rfl rfl ok) ?_
  show (_ >>= _ : Except Illegal Instr) = _
  rw [RBody.ofBits_bits]
  simp only [Ty.ofCode_code, wd_of_isPair pair, dstF_code hd, srcF_code ha, srcF_code hb, srcF_code hc, pops, pair,
    rmode, low3_field, rounds, Bool.and_true, need_true, plain_masked (low3_masked _), ok_bind]
  rfl

theorem fscale_roundTrips : RoundTrips sl (.fscale h t rm d a b) := by
  intro (wf : (_ && _) = true)
  simp only [Bool.and_eq_true, beq_iff_eq] at wf
  obtain ⟨⟨⟨⟨⟨⟨⟨ok, rfl⟩, typed⟩, rounds⟩, hd⟩, ha⟩, hb⟩, pops⟩ := wf
  refine decode_fits (fits_slice rfl rfl ok) ?_
  show (_ >>= _ : Except Illegal Instr) = _
  rw [RBody.ofBits_bits]
  simp only [Ty.ofCode_code, dab_code hd ha hb pops, typed, rmode, low3_field, rounds, Bool.and_true, need_true,
    plain_masked (low3_masked _), ok_bind]
  rfl

/-- Sources of the A-slice are no queues. -/
theorem popsDistinct_a {w v : Wd} (ha : srcOk .a w a = true) (hb : srcOk .a v b = true) :
    popsDistinct [a, b] = true := by
  cases a with
  | f n => cases ha
  | r n | s n | k n | sa =>
    cases b with
    | f n => cases hb
    | r n | s n | k n | sa => rfl

theorem lea_roundTrips {s : BitVec 3} : RoundTrips sl (.lea h t s d a b) := by
  intro (wf : (_ && _) = true)
  simp only [Bool.and_eq_true, beq_iff_eq] at wf
  obtain ⟨⟨⟨⟨⟨⟨ok, rfl⟩, typed⟩, -⟩, hd⟩, ha⟩, hb⟩ := wf
  refine decode_fits (fits_slice rfl rfl ok) ?_
  show (_ >>= _ : Except Illegal Instr) = _
  rw [RBody.ofBits_bits]
  simp only [dab_code hd ha hb (popsDistinct_a ha hb), Ty.ofCode_code, typed, need_true, rmode, low3_field,
    plain_masked (low3_masked _), ok_bind]
  rfl

theorem cmp_roundTrips {cc dp : BitVec 3} : RoundTrips sl (.cmp h t cc dp a b) := by
  intro (wf : (_ && _) = true)
  simp only [Bool.and_eq_true] at wf
  obtain ⟨⟨⟨⟨⟨⟨ok, typed⟩, cond⟩, hp⟩, ha⟩, hb⟩, pops⟩ := wf
  refine decode_fits (fits_both rfl rfl rfl ok) ?_
  show (_ >>= _ : Except Illegal Instr) = _
  rw [RBody.ofBits_bits]
  simp only [Ty.ofCode_code, pdF_predCode hp, srcF_code ha, srcF_code hb, zeroF_zero, pops, typed, rmode, low3_field,
    cond, Bool.and_true, need_true, plain_masked (low3_masked _), ok_bind]
  rfl

theorem fcmp_roundTrips {cc dp : BitVec 3} : RoundTrips sl (.fcmp h t cc dp a b) := by
  intro (wf : (_ && _) = true)
  simp only [Bool.and_eq_true, beq_iff_eq] at wf
  obtain ⟨⟨⟨⟨⟨⟨ok, rfl⟩, typed⟩, hp⟩, ha⟩, hb⟩, pops⟩ := wf
  refine decode_fits (fits_slice rfl rfl ok) ?_
  show (_ >>= _ : Except Illegal Instr) = _
  rw [RBody.ofBits_bits]
  simp only [Ty.ofCode_code, pdF_predCode hp, srcF_code ha, srcF_code hb, zeroF_zero, pops, typed, rmode, low3_field,
    need_true, plain_masked (low3_masked _), ok_bind]
  rfl

theorem sel_roundTrips {cp : BitVec 3} : RoundTrips sl (.sel h t d a b cp) := by
  intro (wf : (_ && _) = true)
  simp only [Bool.and_eq_true] at wf
  obtain ⟨⟨⟨⟨⟨ok, typed⟩, hd⟩, ha⟩, hb⟩, pops⟩ := wf
  refine decode_fits (fits_both rfl rfl rfl ok) ?_
  show (_ >>= _ : Except Illegal Instr) = _
  rw [RBody.ofBits_bits]
  simp only [Ty.ofCode_code, dstF_code hd, srcF_code ha, srcF_code hb, pops, psF_predCode, typed, need_true,
    plain_masked (zero_masked _), ok_bind]
  rfl

theorem matchLanes_roundTrips : RoundTrips sl (.matchLanes h t d a) := by
  intro (wf : (_ && _) = true)
  simp only [Bool.and_eq_true] at wf
  obtain ⟨⟨⟨ok, typed⟩, hd⟩, ha⟩ := wf
  refine decode_fits (fits_both rfl rfl rfl ok) ?_
  show (_ >>= _ : Except Illegal Instr) = _
  rw [RBody.ofBits_bits]
  simp only [Ty.ofCode_code, da_code hd ha, typed, need_true, plain_masked (zero_masked _), ok_bind]
  rfl

theorem fclass_roundTrips : RoundTrips sl (.fclass h t d a) := by
  intro (wf : (_ && _) = true)
  simp only [Bool.and_eq_true, beq_iff_eq] at wf
  obtain ⟨⟨⟨⟨ok, rfl⟩, typed⟩, hd⟩, ha⟩ := wf
  refine decode_fits (fits_slice rfl rfl ok) ?_
  show (_ >>= _ : Except Illegal Instr) = _
  rw [RBody.ofBits_bits]
  simp only [Ty.ofCode_code, da_code hd ha, typed, need_true, plain_masked (zero_masked _), ok_bind]
  rfl

/-! The I layout (R238, R268) -/

theorem low1_bit : ∀ v : Bool, (0#3 ++ BitVec.ofBool v : BitVec 4).getLsbD 0 = v := by decide

theorem opI_code {mk : Ty → Opd → Opd → Instr} {sub : BitVec 4} {subOk : BitVec 4 → Bool} {imm : BitVec 26}
    {immOk : Ty → BitVec 26 → Bool} (typed : t.isInt4 = true) (hs : subOk sub = true) (hi : immOk t imm = true)
    (hd : dstOk sl t.wd d = true) (ha : srcOk sl t.wd a = true) :
    opI sl ⟨d.code, a.code, t.code, sub, imm⟩ subOk immOk mk = .ok (mk t d a) := by
  simp only [opI, Ty.ofCode_code, dstF_code hd, srcF_code ha, typed, hs, hi, Bool.and_true, need_true, ok_bind]
  rfl

theorem decode_imm {mk : Ty → Opd → Opd → BitVec 26 → Instr} {imm : BitVec 26} (fits : h.ok = true → Fits sl op h)
    (arm : ∀ body, decodeBody sl op h body = opI sl (IBody.ofBits body) (· == 0) (fun _ _ => true) fun t d a =>
      mk t d a (IBody.ofBits body).imm)
    (wf : (h.ok && t.isInt4 && dstOk sl t.wd d && srcOk sl t.wd a) = true) :
    decode sl (encI h op ⟨d.code, a.code, t.code, 0, imm⟩) = .ok (mk t d a imm) := by
  simp only [Bool.and_eq_true] at wf
  obtain ⟨⟨⟨ok, typed⟩, hd⟩, ha⟩ := wf
  refine decode_fits (fits ok) ?_
  rw [arm, IBody.ofBits_bits, opI_code typed rfl rfl hd ha]

theorem decode_shiftImm {mk : Ty → Opd → Opd → BitVec 26 → Instr} {imm : BitVec 26} (fits : h.ok = true → Fits sl op h)
    (arm : ∀ body, decodeBody sl op h body = opI sl (IBody.ofBits body) (· == 0) shiftImm fun t d a =>
      mk t d a (IBody.ofBits body).imm)
    (wf : (h.ok && t.isInt4 && dstOk sl t.wd d && srcOk sl t.wd a && shiftImm t imm) = true) :
    decode sl (encI h op ⟨d.code, a.code, t.code, 0, imm⟩) = .ok (mk t d a imm) := by
  simp only [Bool.and_eq_true] at wf
  obtain ⟨⟨⟨⟨ok, typed⟩, hd⟩, ha⟩, count⟩ := wf
  refine decode_fits (fits ok) ?_
  rw [arm, IBody.ofBits_bits, opI_code typed rfl count hd ha]

theorem addImm_roundTrips {sat : Bool} {imm : BitVec 26} : RoundTrips sl (.addImm h t sat d a imm) := by
  intro (wf : (_ && _) = true)
  simp only [Bool.and_eq_true] at wf
  obtain ⟨⟨⟨ok, typed⟩, hd⟩, ha⟩ := wf
  have sub : ((0#3 ++ BitVec.ofBool sat : BitVec 4) &&& 0xE == 0) = true := by revert sat; decide
  refine decode_fits (fits_both rfl rfl rfl ok) ?_
  have arm (b : BitVec 50) : decodeBody sl 0x11 h b = opI sl (IBody.ofBits b) (fun s => s &&& 0xE == 0)
      (fun _ _ => true) fun t d a => .addImm h t ((IBody.ofBits b).sub.getLsbD 0) d a (IBody.ofBits b).imm := rfl
  rw [arm, IBody.ofBits_bits, opI_code (subOk := fun s => s &&& 0xE == 0) typed sub rfl hd ha, low1_bit]

theorem movhi_roundTrips {hi52 : Bool} {imm : BitVec 26} : RoundTrips sl (.movhi h t hi52 d a imm) := by
  intro (wf : (_ && _) = true)
  simp only [Bool.and_eq_true] at wf
  obtain ⟨⟨⟨⟨⟨ok, typed⟩, hd⟩, ha⟩, wide⟩, value⟩ := wf
  have sub : ((0#3 ++ BitVec.ofBool hi52 : BitVec 4) == 0 || ((0#3 ++ BitVec.ofBool hi52 : BitVec 4) == 1 &&
      t.wd == .w64)) = true := by
    cases hi52 with
    | false => rfl
    | true => exact wide
  refine decode_fits (fits_both rfl rfl rfl ok) ?_
  have arm (b : BitVec 50) : decodeBody sl 0x21 h b = opI sl (IBody.ofBits b)
      (fun s => s == 0 || (s == 1 && (Ty.ofCode (IBody.ofBits b).ty).wd == .w64))
      (fun t v => movhiImm t ((IBody.ofBits b).sub.getLsbD 0) v)
      fun t d a => .movhi h t ((IBody.ofBits b).sub.getLsbD 0) d a (IBody.ofBits b).imm := rfl
  rw [arm, IBody.ofBits_bits, low1_bit, Ty.ofCode_code, opI_code typed sub value hd ha]

theorem movImm_roundTrips {imm : BitVec 26} : RoundTrips sl (.movImm h t d imm) := by
  intro (wf : (_ && _) = true)
  simp only [Bool.and_eq_true] at wf
  obtain ⟨⟨ok, typed⟩, hd⟩ := wf
  refine decode_fits (fits_both rfl rfl rfl ok) ?_
  show (_ >>= _ : Except Illegal Instr) = _
  rw [IBody.ofBits_bits]
  simp only [Ty.ofCode_code, dstF_code hd, typed, zeroF_zero, ok_bind]
  rfl

theorem cmpImm_roundTrips {cc dp : BitVec 3} {imm : BitVec 26} : RoundTrips sl (.cmpImm h t cc dp a imm) := by
  intro (wf : (_ && _) = true)
  simp only [Bool.and_eq_true] at wf
  obtain ⟨⟨⟨⟨ok, typed⟩, cond⟩, hp⟩, ha⟩ := wf
  have low : ∀ v : BitVec 3, (0#1 ++ v : BitVec 4).extractLsb' 0 3 = v := by decide
  have top : ∀ v : BitVec 3, (0#1 ++ v : BitVec 4).getLsbD 3 = false := by decide
  refine decode_fits (fits_both rfl rfl rfl ok) ?_
  show (_ >>= _ : Except Illegal Instr) = _
  rw [IBody.ofBits_bits]
  simp only [Ty.ofCode_code, pdF_predCode hp, srcF_code ha, typed, low, top, cond, ok_bind]
  rfl

theorem srGet_roundTrips {n : SReg} : RoundTrips sl (.srGet h d n) := by
  intro (wf : (_ && _) = true)
  simp only [Bool.and_eq_true] at wf
  obtain ⟨ok, hd⟩ := wf
  refine decode_fits (fits_both rfl rfl rfl ok) ?_
  show (_ >>= _ : Except Illegal Instr) = _
  rw [IBody.ofBits_bits]
  simp only [SReg.ofNum_num, Option.map_some, Option.getD_some, dstF_code hd, zeroF_zero, zeroM_zero, ok_bind]
  rfl

theorem srSet_roundTrips {n : SReg} : RoundTrips sl (.srSet h n a) := by
  intro (wf : (_ && _) = true)
  simp only [Bool.and_eq_true] at wf
  obtain ⟨ok, ha⟩ := wf
  refine decode_fits (fits_both rfl rfl rfl ok) ?_
  show (_ >>= _ : Except Illegal Instr) = _
  rw [IBody.ofBits_bits]
  simp only [SReg.ofNum_num, Option.map_some, Option.getD_some, srcF_code ha, zeroF_zero, zeroM_zero, ok_bind]
  rfl

theorem trap_roundTrips {code : BitVec 16} : RoundTrips sl (.trap h code) := by
  intro ok
  refine decode_fits (fits_both rfl rfl rfl ok) ?_
  show (_ >>= _ : Except Illegal Instr) = _
  rw [IBody.ofBits_bits]
  have high : (0#10 ++ code : BitVec 26).extractLsb' 16 10 = 0 := by
    rw [append_field_high _ _ _ (by decide)]; rfl
  have low : (0#10 ++ code : BitVec 26).extractLsb' 0 16 = code := by
    rw [append_field_low _ _ _ (by decide), field_whole]
  simp only [high, low]
  rfl

/-! Control flow (R239, R253 to R258) -/

theorem br_roundTrips {rec : BitVec 14} {tgt : BitVec 26} : RoundTrips sl (.br h rec tgt) := by
  intro (wf : (if h.guard.always then rec == 0 else h.ok && sl == .a && rec != 0) = true)
  have read (fits : Fits sl 0x02 h) (goes : h.guard.always = (rec == 0)) :
      decode sl (encode (.br h rec tgt)) = .ok (.br h rec tgt) := by
    refine decode_fits fits ?_
    show (_ >>= _ : Except Illegal Instr) = _
    rw [BBody.ofBits_bits]
    simp only [goes, beq_self_eq_true, Bool.and_true]
    rfl
  cases always : h.guard.always with
  | true =>
    rw [if_pos always] at wf
    have unguarded : h.guard = noGuard := (Guard.always_iff _).1 always
    exact read ⟨rfl, opSlice_both rfl rfl, unguarded ▸ by cases sl <;> rfl⟩ (always.trans wf.symm)
  | false =>
    rw [if_neg (Bool.not_eq_true _ ▸ always), Bool.and_eq_true, Bool.and_eq_true, beq_iff_eq] at wf
    obtain ⟨⟨ok, rfl⟩, ahead⟩ := wf
    exact read ⟨rfl, rfl, (Bool.and_true _).trans ok⟩ (always.trans (Bool.not_eq_true' _ ▸ ahead).symm)

theorem call_roundTrips {mark : Bool} {tgt : BitVec 26} : RoundTrips sl (.call mark tgt) := by
  intro _
  refine decode_fits (fits_bare rfl rfl rfl) ?_
  show (_ >>= _ : Except Illegal Instr) = _
  rw [BBody.ofBits_bits]
  rfl

section
variable {dropT dropF : BitVec 5} {rec : BitVec 14} {tgt : BitVec 26} {mark : Bool}

theorem decode_branch {mk : BitVec 5 → BitVec 5 → BitVec 14 → BitVec 26 → Instr} (fits : Fits sl op h)
    (arm : ∀ body, decodeBody sl op h body = (do
      need ((BBody.ofBits body).recon != 0) .operand
      return mk (BBody.ofBits body).dropT (BBody.ofBits body).dropF (BBody.ofBits body).recon (BBody.ofBits body).tgt))
    (ahead : (rec != 0) = true) : decode sl (encB h op ⟨dropT, dropF, rec, tgt⟩) = .ok (mk dropT dropF rec tgt) := by
  refine decode_fits fits ?_
  rw [arm, BBody.ofBits_bits]
  simp only [ahead, need_true, ok_bind]
  rfl

theorem brQ_roundTrips : RoundTrips sl (.brQ mark dropT dropF rec tgt) := by
  intro (wf : (_ && _) = true)
  rw [Bool.and_eq_true, beq_iff_eq] at wf
  obtain ⟨rfl, ahead⟩ := wf
  exact decode_branch ⟨rfl, rfl, rfl⟩ (fun _ => rfl) ahead

theorem brBack_roundTrips : RoundTrips sl (.brBack mark dropT dropF rec tgt) := by
  intro (wf : (_ && _) = true)
  rw [Bool.and_eq_true, beq_iff_eq] at wf
  obtain ⟨rfl, ahead⟩ := wf
  exact decode_branch ⟨rfl, rfl, rfl⟩ (fun _ => rfl) ahead

theorem brB_roundTrips : RoundTrips sl (.brB h dropT dropF rec tgt) := by
  intro (wf : (_ && _) = true)
  rw [Bool.and_eq_true] at wf
  exact decode_branch (fits_c rfl rfl wf.1) (fun _ => rfl) wf.2

end

theorem field_code {o : Opd} {ok : Opd → Bool} (h : ok o = true) : field (Opd.ofCode o.code) ok = .ok o := by
  simp only [field, Opd.ofCode_code, h, if_true]

theorem decode_indirect {mk : Opd → Instr} (fits : Fits sl op h)
    (arm : ∀ body, decodeBody sl op h body = (do
      zeroF (RBody.ofBits body).d
      let a ← field (Opd.ofCode (RBody.ofBits body).a) (scalarOk sl)
      zeroF (RBody.ofBits body).b; zeroF (RBody.ofBits body).c; zeroM (RBody.ofBits body).ty
      plain (RBody.ofBits body) 0
      return mk a))
    (scalar : scalarOk sl a = true) : decode sl (encP h op 0 a.code 0 0 .none 0) = .ok (mk a) := by
  refine decode_fits fits ?_
  rw [arm, RBody.ofBits_bits]
  simp only [field_code scalar, zeroF_zero, none_code, zeroM_zero, plain_masked (zero_masked _), ok_bind]
  rfl

/-! Predicates (R271, R277) -/

section
variable {ap bp dp : BitVec 3}

theorem decode_logic {mk : BitVec 3 → BitVec 3 → BitVec 3 → Instr} (fits : h.ok = true → Fits sl op h)
    (arm : ∀ body, decodeBody sl op h body = opP (RBody.ofBits body) mk) (wf : (h.ok && pdOk dp) = true) :
    decode sl (encP h op (predCode dp) (predCode ap) (predCode bp) 0 .none 0) = .ok (mk dp ap bp) := by
  rw [Bool.and_eq_true] at wf
  refine decode_fits (fits wf.1) ?_
  rw [arm, RBody.ofBits_bits]
  simp only [opP, pdF_predCode wf.2, psF_predCode, zeroF_zero, none_code, zeroM_zero,
    plain_masked (zero_masked _), ok_bind]
  rfl

theorem decode_logic1 {mk : BitVec 3 → BitVec 3 → Instr} (fits : h.ok = true → Fits sl op h)
    (arm : ∀ body, decodeBody sl op h body = (do
      let d ← pdF (RBody.ofBits body).d
      let a ← psF (RBody.ofBits body).a
      zeroF (RBody.ofBits body).b; zeroF (RBody.ofBits body).c; zeroM (RBody.ofBits body).ty
      plain (RBody.ofBits body) 0
      return mk d a))
    (wf : (h.ok && pdOk dp) = true) :
    decode sl (encP h op (predCode dp) (predCode ap) 0 0 .none 0) = .ok (mk dp ap) := by
  rw [Bool.and_eq_true] at wf
  refine decode_fits (fits wf.1) ?_
  rw [arm, RBody.ofBits_bits]
  simp only [pdF_predCode wf.2, psF_predCode, zeroF_zero, none_code, zeroM_zero, plain_masked (zero_masked _), ok_bind]
  rfl

theorem voteBallot_roundTrips : RoundTrips sl (.voteBallot h d ap) := by
  intro (wf : (_ && _) = true)
  rw [Bool.and_eq_true] at wf
  refine decode_fits (fits_both rfl rfl rfl wf.1) ?_
  show (_ >>= _ : Except Illegal Instr) = _
  rw [RBody.ofBits_bits]
  simp only [dstF_code wf.2, psF_predCode, zeroF_zero, none_code, zeroM_zero, plain_masked (zero_masked _), ok_bind]
  rfl

theorem elect_roundTrips : RoundTrips sl (.elect h dp) := by
  intro (wf : (_ && _) = true)
  rw [Bool.and_eq_true] at wf
  refine decode_fits (fits_both rfl rfl rfl wf.1) ?_
  show (_ >>= _ : Except Illegal Instr) = _
  rw [RBody.ofBits_bits]
  simp only [pdF_predCode wf.2, zeroF_zero, none_code, zeroM_zero, plain_masked (zero_masked _), ok_bind]
  rfl

theorem gSet_roundTrips {slot : BitVec 4} : RoundTrips sl (.gSet h slot ap) := by
  intro wf
  have masked : ∀ v : BitVec 4, (0#5 ++ v : BitVec 9) &&& ~~~0xF = 0 := by decide
  have low : ∀ v : BitVec 4, (0#5 ++ v : BitVec 9).extractLsb' 0 4 = v := by decide
  refine decode_fits (fits_c rfl rfl wf) ?_
  show (_ >>= _ : Except Illegal Instr) = _
  rw [RBody.ofBits_bits]
  simp only [psF_predCode, zeroF_zero, none_code, zeroM_zero, plain_masked (masked _), low, ok_bind]
  rfl

end

/-! Cross-lane words (R275 to R280) -/

section
variable {pd : Option (BitVec 3)} {seg opc : BitVec 3}

theorem decode_shfl {mk : Ty → BitVec 3 → Opd → Opd → Opd → Option (BitVec 3) → Instr}
    (fits : h.ok = true → Fits sl op h) (arm : ∀ body, decodeBody sl op h body = opShfl sl (RBody.ofBits body) mk)
    (wf : (h.ok && t.isInt4 && decide (seg ≤ 4) && dstOk sl t.wd d && srcOk sl t.wd a && srcOk sl .w32 b &&
      popsDistinct [a, b] && pdOpt pd) = true) :
    decode sl (encP h op d.code a.code b.code (pdOptCode pd) t (0#5 ++ seg ++ BitVec.ofBool pd.isSome)) =
      .ok (mk t seg d a b pd) := by
  simp only [Bool.and_eq_true] at wf
  obtain ⟨⟨⟨⟨⟨⟨⟨ok, typed⟩, hs⟩, hd⟩, ha⟩, hb⟩, pops⟩, hp⟩ := wf
  have masked : ∀ (v : BitVec 3) (p : Bool), (0#5 ++ v ++ BitVec.ofBool p : BitVec 9) &&& ~~~0xF = 0 := by decide
  have field : ∀ (v : BitVec 3) (p : Bool), (0#5 ++ v ++ BitVec.ofBool p : BitVec 9).extractLsb' 1 3 = v := by decide
  have bit : ∀ (v : BitVec 3) (p : Bool), (0#5 ++ v ++ BitVec.ofBool p : BitVec 9).getLsbD 0 = p := by decide
  refine decode_fits (fits ok) ?_
  rw [arm, RBody.ofBits_bits]
  simp only [opShfl, Ty.ofCode_code, dstF_code hd, srcF_code ha, srcF_code hb, pops, need_true, bit, pdOptF_code hp,
    field, typed, hs, Bool.and_true, plain_masked (masked _ _), ok_bind]
  rfl

theorem decode_scan {mk : Ty → BitVec 3 → Opd → Opd → Instr} (fits : h.ok = true → Fits sl op h)
    (arm : ∀ body, decodeBody sl op h body = opScan sl (RBody.ofBits body) mk)
    (wf : (h.ok && t.isInt4 && ccOk opc && dstOk sl t.wd d && srcOk sl t.wd a) = true) :
    decode sl (encP h op d.code a.code 0 0 t (0#6 ++ opc)) = .ok (mk t opc d a) := by
  simp only [Bool.and_eq_true] at wf
  obtain ⟨⟨⟨⟨ok, typed⟩, ho⟩, hd⟩, ha⟩ := wf
  refine decode_fits (fits ok) ?_
  rw [arm, RBody.ofBits_bits]
  simp only [opScan, Ty.ofCode_code, da_code hd ha, rmode, low3_field, typed, ho, Bool.and_true, need_true,
    plain_masked (low3_masked _), ok_bind]
  rfl

theorem xch_roundTrips {m : BitVec 2} : RoundTrips sl (.xch h t m d a pd) := by
  intro (wf : (_ && _) = true)
  simp only [Bool.and_eq_true] at wf
  obtain ⟨⟨⟨⟨⟨ok, typed⟩, hm⟩, hd⟩, ha⟩, hp⟩ := wf
  have masked : ∀ (p : Bool) (v : BitVec 2), (0#6 ++ BitVec.ofBool p ++ v : BitVec 9) &&& ~~~7 = 0 := by decide
  have field : ∀ (p : Bool) (v : BitVec 2), (0#6 ++ BitVec.ofBool p ++ v : BitVec 9).extractLsb' 0 2 = v := by decide
  have bit : ∀ (p : Bool) (v : BitVec 2), (0#6 ++ BitVec.ofBool p ++ v : BitVec 9).getLsbD 2 = p := by decide
  refine decode_fits (fits_both rfl rfl rfl ok) ?_
  show (_ >>= _ : Except Illegal Instr) = _
  rw [RBody.ofBits_bits]
  simp only [Ty.ofCode_code, dstF_code hd, srcF_code ha, zeroF_zero, bit, pdOptF_code hp, field, typed, hm,
    Bool.and_true, need_true, plain_masked (masked _ _), ok_bind]
  rfl

end

/-! Conversions and the format register (R294 to R296, R302 to R308) -/

section
variable {fmt : BitVec 3}

theorem cvt_roundTrips {sty : BitVec 4} {sat : Bool} : RoundTrips sl (.cvt h t sty rm sat d a) := by
  intro (wf : (_ && _) = true)
  simp only [Bool.and_eq_true, beq_iff_eq] at wf
  obtain ⟨⟨⟨⟨ok, rfl⟩, mods⟩, hd⟩, ha⟩ := wf
  have masked : ∀ (v : BitVec 4) (r : BitVec 3) (p : Bool),
      (0#1 ++ BitVec.ofBool p ++ r ++ v : BitVec 9) &&& ~~~0xFF = 0 := by decide
  have source : ∀ (v : BitVec 4) (r : BitVec 3) (p : Bool),
      (0#1 ++ BitVec.ofBool p ++ r ++ v : BitVec 9).extractLsb' 0 4 = v := by decide
  have mode : ∀ (v : BitVec 4) (r : BitVec 3) (p : Bool),
      (0#1 ++ BitVec.ofBool p ++ r ++ v : BitVec 9).extractLsb' 4 3 = r := by decide
  have bit : ∀ (v : BitVec 4) (r : BitVec 3) (p : Bool),
      (0#1 ++ BitVec.ofBool p ++ r ++ v : BitVec 9).getLsbD 7 = p := by decide
  refine decode_fits (fits_slice rfl rfl ok) ?_
  show (_ >>= _ : Except Illegal Instr) = _
  rw [RBody.ofBits_bits]
  simp only [Ty.ofCode_code, source, mode, bit, da_code hd ha, mods, need_true, plain_masked (masked _ _ _), ok_bind]
  rfl

theorem popsDistinct_r (n : BitVec 7) : popsDistinct [a, b, .r n] = popsDistinct [a, b] := by
  cases a with
  | f m =>
    cases b with
    | f k => simp [popsDistinct]
    | r k | s k | k k | sa => simp [popsDistinct]
  | r m | s m | k m | sa =>
    cases b with
    | f k => rfl
    | r k | s k | k k | sa => rfl

theorem pkWide_of_pkByte : ∀ f, pkByte f = true → pkWide f = false := by decide

theorem cvtPk_roundTrips {hi : Bool} : RoundTrips sl (.cvtPk h fmt hi rm d a b c) := by
  intro (wf : (_ && _) = true)
  simp only [Bool.and_eq_true, beq_iff_eq] at wf
  obtain ⟨⟨⟨⟨⟨⟨ok, rfl⟩, rounds⟩, hd⟩, ha⟩, hb⟩, kind⟩ := wf
  have masked : ∀ (f r : BitVec 3) (p : Bool), (0#2 ++ r ++ BitVec.ofBool p ++ f : BitVec 9) &&& ~~~0x7F = 0 := by
    decide
  have target : ∀ (f r : BitVec 3) (p : Bool), (0#2 ++ r ++ BitVec.ofBool p ++ f : BitVec 9).extractLsb' 0 3 = f := by
    decide
  have mode : ∀ (f r : BitVec 3) (p : Bool), (0#2 ++ r ++ BitVec.ofBool p ++ f : BitVec 9).extractLsb' 4 3 = r := by
    decide
  have bit : ∀ (f r : BitVec 3) (p : Bool), (0#2 ++ r ++ BitVec.ofBool p ++ f : BitVec 9).getLsbD 3 = p := by decide
  have third : srcOk .c .w32 c = true ∧ (popsDistinct [a, b, c] && (!pkWide fmt || c.code == 0)) = true ∧
      (pkByte fmt || (pkWide fmt && !hi)) = true := by
    rw [Bool.or_eq_true] at kind
    obtain byte | wide := kind
    · simp only [Bool.and_eq_true] at byte
      obtain ⟨⟨byte, hc⟩, pops⟩ := byte
      exact ⟨hc, by rw [pops, pkWide_of_pkByte _ byte]; rfl, by rw [byte]; rfl⟩
    · simp only [Bool.and_eq_true, beq_iff_eq] at wide
      obtain ⟨⟨⟨wide, low⟩, rfl⟩, pops⟩ := wide
      exact ⟨rfl, by rw [popsDistinct_r, pops, wide]; rfl, by rw [wide, low, Bool.and_self, Bool.or_true]⟩
  obtain ⟨hc, fields, typed⟩ := third
  refine decode_fits (fits_slice rfl rfl ok) ?_
  show (_ >>= _ : Except Illegal Instr) = _
  rw [RBody.ofBits_bits]
  simp only [dstF_code hd, srcF_code ha, srcF_code hb, srcF_code hc, rmode, target, mode, bit, fields, typed, rounds,
    beq_self_eq_true, Bool.and_true, need_true, plain_masked (masked _ _ _), ok_bind]
  rfl

theorem cvtUnpk_roundTrips {idx : BitVec 3} : RoundTrips sl (.cvtUnpk h fmt idx d a) := by
  intro (wf : (_ && _) = true)
  simp only [Bool.and_eq_true, beq_iff_eq] at wf
  obtain ⟨⟨⟨⟨ok, rfl⟩, source⟩, hd⟩, ha⟩ := wf
  have masked : ∀ f k : BitVec 3, (0#3 ++ k ++ f : BitVec 9) &&& ~~~0x3F = 0 := by decide
  have low : ∀ f k : BitVec 3, (0#3 ++ k ++ f : BitVec 9).extractLsb' 0 3 = f := by decide
  have index : ∀ f k : BitVec 3, (0#3 ++ k ++ f : BitVec 9).extractLsb' 3 3 = k := by decide
  refine decode_fits (fits_slice rfl rfl ok) ?_
  show (_ >>= _ : Except Illegal Instr) = _
  rw [RBody.ofBits_bits]
  simp only [da_code hd ha, rmode, low, index, source, beq_self_eq_true, Bool.and_true, need_true,
    plain_masked (masked _ _), ok_bind]
  rfl

theorem decode_mx {mk : BitVec 3 → Opd → Opd → Opd → Instr} (fits : (h.ok && sl == .c) = true → Fits sl op h)
    (arm : ∀ body, decodeBody sl op h body = (do
      let (d, a, b) ← dab sl .w32 .w32 .w32 (RBody.ofBits body)
      need ((RBody.ofBits body).ty == Ty.f32.code && mxFmt (rmode (RBody.ofBits body))) .modifier
      plain (RBody.ofBits body) 7
      return mk (rmode (RBody.ofBits body)) d a b))
    (wf : (h.ok && sl == .c && mxFmt fmt && dstOk sl .w32 d && srcOk sl .w32 a && srcOk sl .w32 b &&
      popsDistinct [a, b]) = true) :
    decode sl (encP h op d.code a.code b.code 0 .f32 (0#6 ++ fmt)) = .ok (mk fmt d a b) := by
  rw [Bool.and_eq_true, Bool.and_eq_true, Bool.and_eq_true, Bool.and_eq_true, Bool.and_eq_true] at wf
  obtain ⟨⟨⟨⟨⟨guard, format⟩, hd⟩, ha⟩, hb⟩, pops⟩ := wf
  refine decode_fits (fits guard) ?_
  rw [arm, RBody.ofBits_bits]
  simp only [dab_code hd ha hb pops, rmode, low3_field, format, beq_self_eq_true, Bool.and_true, need_true,
    plain_masked (low3_masked _), ok_bind]
  rfl

theorem mxScale_roundTrips : RoundTrips sl (.mxScale h fmt d a) := by
  intro (wf : (_ && _) = true)
  simp only [Bool.and_eq_true, beq_iff_eq] at wf
  obtain ⟨⟨⟨⟨ok, rfl⟩, format⟩, hd⟩, ha⟩ := wf
  refine decode_fits (fits_slice rfl rfl ok) ?_
  show (_ >>= _ : Except Illegal Instr) = _
  rw [RBody.ofBits_bits]
  simp only [da_code hd ha, rmode, low3_field, format, beq_self_eq_true, Bool.and_true, need_true,
    plain_masked (low3_masked _), ok_bind]
  rfl

theorem cvtF6_roundTrips {e : Bool} : RoundTrips sl (.cvtF6 h e d a) := by
  intro (wf : (_ && _) = true)
  simp only [Bool.and_eq_true, beq_iff_eq] at wf
  obtain ⟨⟨⟨ok, rfl⟩, hd⟩, ha⟩ := wf
  refine decode_fits (fits_slice rfl rfl ok) ?_
  show (_ >>= _ : Except Illegal Instr) = _
  rw [RBody.ofBits_bits]
  simp only [da_code hd ha, none_code, zeroM_zero, plain_masked (sat_masked _), sat_bit, ok_bind]
  rfl

theorem cvtI4_roundTrips {sg hi : Bool} : RoundTrips sl (.cvtI4 h sg hi d a) := by
  intro (wf : (_ && _) = true)
  simp only [Bool.and_eq_true, beq_iff_eq] at wf
  obtain ⟨⟨⟨ok, rfl⟩, hd⟩, ha⟩ := wf
  have masked : ∀ p q : Bool, (0#7 ++ BitVec.ofBool p ++ BitVec.ofBool q : BitVec 9) &&& ~~~3 = 0 := by decide
  have low : ∀ p q : Bool, (0#7 ++ BitVec.ofBool p ++ BitVec.ofBool q : BitVec 9).getLsbD 0 = q := by decide
  have high : ∀ p q : Bool, (0#7 ++ BitVec.ofBool p ++ BitVec.ofBool q : BitVec 9).getLsbD 1 = p := by decide
  refine decode_fits (fits_slice rfl rfl ok) ?_
  show (_ >>= _ : Except Illegal Instr) = _
  rw [RBody.ofBits_bits]
  simp only [da_code hd ha, none_code, zeroM_zero, plain_masked (masked _ _), low, high, ok_bind]
  rfl

theorem fmtSetImm_roundTrips {v : BitVec 20} : RoundTrips sl (.fmtSetImm h v) := by
  intro (wf : (_ && _) = true)
  rw [Bool.and_eq_true] at wf
  have high : (0#6 ++ v : BitVec 26).extractLsb' 20 6 = 0 := by
    rw [append_field_high _ _ _ (by decide)]; rfl
  have low : (0#6 ++ v : BitVec 26).extractLsb' 0 20 = v := by
    rw [append_field_low _ _ _ (by decide), field_whole]
  refine decode_fits (fits_both rfl rfl rfl wf.1) ?_
  show (_ >>= _ : Except Illegal Instr) = _
  rw [IBody.ofBits_bits]
  simp only [high, low, wf.2]
  rfl

theorem fmtSetReg_roundTrips : RoundTrips sl (.fmtSetReg h a) := by
  intro (wf : (_ && _) = true)
  rw [Bool.and_eq_true] at wf
  refine decode_fits (fits_both rfl rfl rfl wf.1) ?_
  show (_ >>= _ : Except Illegal Instr) = _
  rw [IBody.ofBits_bits]
  simp only [srcF_code wf.2, zeroF_zero, beq_self_eq_true, if_true, ok_bind]
  rfl

/-- The three forms of `fmt.get`, which bits 1:0 of OP tell apart. -/
theorem decode_fmtGet {x : BitVec 9} {ins : Instr} (low : x &&& ~~~3 = 0)
    (form : (if x.getLsbD 1 = true then Instr.fmtGetFlagsClr h d
      else if x.getLsbD 0 = true then .fmtGetFlags h d else .fmtGet h d) = ins)
    (legal : (!(x.getLsbD 1 && !x.getLsbD 0)) = true) (wf : (h.ok && dstOk sl .w32 d) = true) :
    decode sl (encP h 0x79 d.code 0 0 0 .none x) = .ok ins := by
  rw [Bool.and_eq_true] at wf
  refine decode_fits (fits_both rfl rfl rfl wf.1) ?_
  show (_ >>= _ : Except Illegal Instr) = _
  rw [RBody.ofBits_bits]
  simp only [dstF_code wf.2, zeroF_zero, none_code, zeroM_zero, plain_masked low, legal, need_true, ok_bind, ← form,
    apply_ite Except.ok]
  rfl

theorem fmtSeed_roundTrips : RoundTrips sl (.fmtSeed h a) := by
  intro (wf : (_ && _) = true)
  rw [Bool.and_eq_true] at wf
  refine decode_fits (fits_both rfl rfl rfl wf.1) ?_
  show (_ >>= _ : Except Illegal Instr) = _
  rw [RBody.ofBits_bits]
  simp only [srcF_code wf.2, zeroF_zero, none_code, zeroM_zero, plain_masked (zero_masked _), ok_bind]
  rfl

end

/-! Loads and stores (R312 to R318) -/

section
variable {s : Scope} {imm : BitVec 26} {ok : Ty → Bool} {sh : BitVec 3}

theorem decode_load {mk : Ty → Scope → Opd → Opd → BitVec 26 → Instr} (fits : (h.ok && sl == .a) = true → Fits sl op h)
    (arm : ∀ body, decodeBody sl op h body = (do
      let d ← dstF sl (Ty.ofCode (IBody.ofBits body).ty).wd (IBody.ofBits body).d
      let a ← anyF (IBody.ofBits body).a
      need (ok (Ty.ofCode (IBody.ofBits body).ty)) .modifier
      let s ← memScope (IBody.ofBits body).sub
      return mk (Ty.ofCode (IBody.ofBits body).ty) s d a (IBody.ofBits body).imm))
    (wf : (h.ok && sl == .a && ok t && dstOk sl t.wd d && aAny a) = true) :
    decode sl (encI h op ⟨d.code, a.code, t.code, memSub s, imm⟩) = .ok (mk t s d a imm) := by
  rw [Bool.and_eq_true, Bool.and_eq_true, Bool.and_eq_true] at wf
  obtain ⟨⟨⟨guard, typed⟩, hd⟩, ha⟩ := wf
  refine decode_fits (fits guard) ?_
  rw [arm, IBody.ofBits_bits]
  simp only [Ty.ofCode_code, dstF_code hd, anyF_code ha, typed, need_true, memScope_memSub, ok_bind]
  rfl

theorem st_roundTrips : RoundTrips sl (.st h t s d a imm) := by
  intro (wf : (_ && _) = true)
  simp only [Bool.and_eq_true, beq_iff_eq] at wf
  obtain ⟨⟨⟨⟨ok, rfl⟩, typed⟩, hd⟩, ha⟩ := wf
  refine decode_fits (fits_slice rfl rfl ok) ?_
  show (_ >>= _ : Except Illegal Instr) = _
  rw [IBody.ofBits_bits]
  simp only [Ty.ofCode_code, srcF_code hd, anyF_code ha, typed, need_true, memScope_memSub, ok_bind]
  rfl

theorem ldx_roundTrips {ctr : BitVec 4} : RoundTrips sl (.ldx h t ctr d a imm) := by
  intro (wf : (_ && _) = true)
  simp only [Bool.and_eq_true, beq_iff_eq] at wf
  obtain ⟨⟨⟨⟨⟨ok, rfl⟩, typed⟩, reg⟩, hd⟩, ha⟩ := wf
  have dest : (aReg d && dstOk .a t.wd d) = true := by rw [reg, hd]; rfl
  refine decode_fits (fits_slice rfl rfl ok) ?_
  show (_ >>= _ : Except Illegal Instr) = _
  rw [IBody.ofBits_bits]
  simp only [Ty.ofCode_code, field_code (ok := fun o => aReg o && dstOk .a t.wd o) dest, anyF_code ha, typed, need_true,
    ok_bind]
  rfl

theorem idxScope_acq {da aa ba ca : BitVec 8} {ty : BitVec 4} {x : BitVec 9} :
    idxScope ⟨da, aa, ba, ca, ty, s.code, if s = .none then 0 else 1, x⟩ .acq = .ok s := by cases s <;> rfl

theorem idxScope_rel {da aa ba ca : BitVec 8} {ty : BitVec 4} {x : BitVec 9} :
    idxScope ⟨da, aa, ba, ca, ty, s.code, if s = .none then 0 else 2, x⟩ .rel = .ok s := by cases s <;> rfl

theorem low3_high : ∀ v : BitVec 3, (0#6 ++ v : BitVec 9) &&& 0x1F8 = 0 := by decide

theorem ldIdx_roundTrips : RoundTrips sl (.ldIdx h t s sh d a b) := by
  intro (wf : (_ && _) = true)
  simp only [Bool.and_eq_true, beq_iff_eq] at wf
  obtain ⟨⟨⟨⟨⟨⟨ok, rfl⟩, typed⟩, shift⟩, hd⟩, ha⟩, hb⟩ := wf
  refine decode_fits (fits_slice rfl rfl ok) ?_
  show (_ >>= _ : Except Illegal Instr) = _
  rw [RBody.ofBits_bits]
  simp only [Ty.ofCode_code, dstF_code hd, anyF_code ha, anyF_code hb, zeroF_zero, typed, rmode, low3_field, shift,
    Bool.and_true, need_true, idxScope_acq, low3_high, zeroM_zero, ok_bind]
  rfl

theorem stIdx_roundTrips : RoundTrips sl (.stIdx h t s sh d a b) := by
  intro (wf : (_ && _) = true)
  simp only [Bool.and_eq_true, beq_iff_eq] at wf
  obtain ⟨⟨⟨⟨⟨⟨ok, rfl⟩, typed⟩, shift⟩, hd⟩, ha⟩, hb⟩ := wf
  refine decode_fits (fits_slice rfl rfl ok) ?_
  show (_ >>= _ : Except Illegal Instr) = _
  rw [RBody.ofBits_bits]
  simp only [Ty.ofCode_code, srcF_code hd, anyF_code ha, anyF_code hb, zeroF_zero, typed, rmode, low3_field, shift,
    Bool.and_true, need_true, idxScope_rel, low3_high, zeroM_zero, ok_bind]
  rfl

theorem pf_roundTrips {l2 : Bool} : RoundTrips sl (.pf h l2 a imm) := by
  intro (wf : (_ && _) = true)
  rw [Bool.and_eq_true] at wf
  have masked : ∀ v : Bool, (0#3 ++ BitVec.ofBool v : BitVec 4) &&& 0xE = 0 := by decide
  refine decode_fits (fits_a rfl rfl wf.1) ?_
  show (_ >>= _ : Except Illegal Instr) = _
  rw [IBody.ofBits_bits]
  simp only [zeroF_zero, anyF_code wf.2, zeroM_zero, masked, low1_bit, ok_bind]
  rfl

/-! Queue stores, reductions and atomics (R313, R317, R321 to R327) -/

theorem stq_roundTrips {ce : Bool} {ctr : BitVec 4} : RoundTrips sl (.stq h t s ce ctr d) := by
  intro (wf : (_ && _) = true)
  simp only [Bool.and_eq_true, beq_iff_eq] at wf
  obtain ⟨⟨⟨ok, rfl⟩, typed⟩, hd⟩ := wf
  have masked : ∀ (v : BitVec 4) (p : Bool), (v ++ BitVec.ofBool p ++ 0#4 : BitVec 9) &&& 0xF = 0 := by decide
  have counter : ∀ (v : BitVec 4) (p : Bool), (v ++ BitVec.ofBool p ++ 0#4 : BitVec 9).extractLsb' 5 4 = v := by decide
  have bit : ∀ (v : BitVec 4) (p : Bool), (v ++ BitVec.ofBool p ++ 0#4 : BitVec 9).getLsbD 4 = p := by decide
  refine decode_fits (fits_slice rfl rfl ok) ?_
  show (_ >>= _ : Except Illegal Instr) = _
  rw [RBody.ofBits_bits]
  simp only [Ty.ofCode_code, srcF_code hd, beq_self_eq_true, zeroF_zero, typed, need_true, idxScope_rel, masked,
    counter, bit, zeroM_zero, ok_bind]
  rfl

theorem redScope_code {near rel : Bool} {da aa ba ca : BitVec 8} {ty : BitVec 4} {x : BitVec 9}
    (mods : redMods near rel s = true) (bit : x.getLsbD 3 = near) :
    redScope ⟨da, aa, ba, ca, ty, s.code, if rel then 2 else 0, x⟩ = .ok (s, near, rel) := by
  have code : ∀ od : BitVec 2, (od == 2) = rel → (od == 0 || rel) = true →
      redScope ⟨da, aa, ba, ca, ty, s.code, od, x⟩ = .ok (s, near, rel) := by
    intro od order legal
    simp only [redScope, scopeM_code (ok := fun _ => true) rfl, order, legal, bit, mods, Bool.and_self, need_true,
      ok_bind]
    rfl
  cases rel with
  | false => exact code 0 rfl rfl
  | true => exact code 2 rfl rfl

theorem redQ_roundTrips {o : BitVec 3} {near rel ce : Bool} {ctr : BitVec 4} :
    RoundTrips sl (.redQ h t o near rel s ce ctr d) := by
  intro (wf : (_ && _) = true)
  simp only [Bool.and_eq_true, beq_iff_eq] at wf
  obtain ⟨⟨⟨⟨ok, rfl⟩, typed⟩, mods⟩, hd⟩ := wf
  have code : ∀ (v : BitVec 4) (p q : Bool) (k : BitVec 3),
      (v ++ BitVec.ofBool p ++ BitVec.ofBool q ++ k : BitVec 9).extractLsb' 0 3 = k := by decide
  have counter : ∀ (v : BitVec 4) (p q : Bool) (k : BitVec 3),
      (v ++ BitVec.ofBool p ++ BitVec.ofBool q ++ k : BitVec 9).extractLsb' 5 4 = v := by decide
  have nearBit : ∀ (v : BitVec 4) (p q : Bool) (k : BitVec 3),
      (v ++ BitVec.ofBool p ++ BitVec.ofBool q ++ k : BitVec 9).getLsbD 3 = q := by decide
  have bit : ∀ (v : BitVec 4) (p q : Bool) (k : BitVec 3),
      (v ++ BitVec.ofBool p ++ BitVec.ofBool q ++ k : BitVec 9).getLsbD 4 = p := by decide
  refine decode_fits (fits_slice rfl rfl ok) ?_
  show (_ >>= _ : Except Illegal Instr) = _
  rw [RBody.ofBits_bits]
  simp only [Ty.ofCode_code, srcF_code hd, beq_self_eq_true, zeroF_zero, rmode, code, typed, need_true,
    redScope_code mods (nearBit _ _ _ _), counter, bit, ok_bind]
  rfl

theorem red_roundTrips {o : BitVec 3} {near rel : Bool} : RoundTrips sl (.red h t o near rel s d a) := by
  intro (wf : (_ && _) = true)
  simp only [Bool.and_eq_true, beq_iff_eq] at wf
  obtain ⟨⟨⟨⟨⟨ok, rfl⟩, typed⟩, mods⟩, hd⟩, ha⟩ := wf
  have masked : ∀ (q : Bool) (k : BitVec 3), (0#5 ++ BitVec.ofBool q ++ k : BitVec 9) &&& 0x1F0 = 0 := by decide
  have code : ∀ (q : Bool) (k : BitVec 3), (0#5 ++ BitVec.ofBool q ++ k : BitVec 9).extractLsb' 0 3 = k := by decide
  have nearBit : ∀ (q : Bool) (k : BitVec 3), (0#5 ++ BitVec.ofBool q ++ k : BitVec 9).getLsbD 3 = q := by decide
  refine decode_fits (fits_slice rfl rfl ok) ?_
  show (_ >>= _ : Except Illegal Instr) = _
  rw [RBody.ofBits_bits]
  simp only [Ty.ofCode_code, srcF_code hd, anyF_code ha, zeroF_zero, rmode, code, typed, need_true,
    redScope_code mods (nearBit _ _), masked, zeroM_zero, ok_bind]
  rfl

section
variable {od : Ordering}

theorem atom_roundTrips {o : BitVec 3} : RoundTrips sl (.atom h t o s od d a b) := by
  intro (wf : (_ && _) = true)
  simp only [Bool.and_eq_true, beq_iff_eq] at wf
  obtain ⟨⟨⟨⟨⟨⟨ok, rfl⟩, typed⟩, order⟩, hd⟩, ha⟩, hb⟩ := wf
  refine decode_fits (fits_slice rfl rfl ok) ?_
  show (_ >>= _ : Except Illegal Instr) = _
  rw [RBody.ofBits_bits]
  simp only [Ty.ofCode_code, dstF_code hd, anyF_code ha, srcF_code hb, zeroF_zero, rmode, low3_field, typed, need_true,
    Ordering.ofCode_code, scopeM_code (ok := fun s => atomOrd s od) order, low3_high, zeroM_zero, ok_bind]
  rfl

theorem cas_roundTrips : RoundTrips sl (.cas h t s od d a b c) := by
  intro (wf : (_ && _) = true)
  simp only [Bool.and_eq_true, beq_iff_eq (b := Slice.a)] at wf
  obtain ⟨⟨⟨⟨⟨⟨⟨ok, rfl⟩, typed⟩, order⟩, hd⟩, ha⟩, hb⟩, hc⟩ := wf
  refine decode_fits (fits_slice rfl rfl ok) ?_
  show (_ >>= _ : Except Illegal Instr) = _
  rw [RBody.ofBits_bits]
  simp only [Ty.ofCode_code, dstF_code hd, anyF_code ha, srcF_code hb, srcF_code hc, typed, need_true,
    Ordering.ofCode_code, scopeM_code (ok := fun s => atomOrd s od) order, zeroM_zero, ok_bind]
  rfl

theorem sc_roundTrips {pd : BitVec 3} : RoundTrips sl (.sc h t s od d a pd) := by
  intro (wf : (_ && _) = true)
  simp only [Bool.and_eq_true, beq_iff_eq (b := Slice.a)] at wf
  obtain ⟨⟨⟨⟨⟨⟨ok, rfl⟩, typed⟩, order⟩, hd⟩, ha⟩, hp⟩ := wf
  refine decode_fits (fits_slice rfl rfl ok) ?_
  show (_ >>= _ : Except Illegal Instr) = _
  rw [RBody.ofBits_bits]
  simp only [Ty.ofCode_code, srcF_code hd, anyF_code ha, zeroF_zero, pdF_predCode hp, typed, need_true,
    Ordering.ofCode_code, scopeM_code (ok := fun s => scMods s od) order, zeroM_zero, ok_bind]
  rfl

end

/-! Fences, counters and waits (R319, R320, R328) -/

theorem fence_roundTrips : RoundTrips sl (.fence h s) := by
  intro (wf : (_ && _) = true)
  rw [Bool.and_eq_true] at wf
  refine decode_fits (fits_both rfl rfl rfl wf.1) ?_
  show (_ >>= _ : Except Illegal Instr) = _
  rw [RBody.ofBits_bits]
  simp only [zeroF_zero, zeroM_zero, scopeM_code (ok := (· != .none)) wf.2, ok_bind]
  rfl

theorem waitAddr_roundTrips {cc dp : BitVec 3} : RoundTrips sl (.waitAddr h t cc s dp a b c) := by
  intro (wf : (_ && _) = true)
  simp only [Bool.and_eq_true, beq_iff_eq] at wf
  obtain ⟨⟨⟨⟨⟨⟨⟨⟨ok, rfl⟩, typed⟩, cond⟩, scopeOk⟩, hp⟩, ha⟩, hb⟩, hc⟩ := wf
  refine decode_fits (fits_slice rfl rfl ok) ?_
  show (_ >>= _ : Except Illegal Instr) = _
  rw [RBody.ofBits_bits]
  simp only [Ty.ofCode_code, pdF_predCode hp, anyF_code ha, anyF_code hb, anyF_code hc, rmode, low3_field, typed, cond,
    Bool.and_true, need_true, scopeM_code (ok := (· != .none)) scopeOk, low3_high, zeroM_zero, ok_bind]
  rfl

theorem waitCnt_roundTrips {ctr : BitVec 4} {o : Option Opd} : RoundTrips sl (.waitCnt h ctr o imm) := by
  intro (wf : (_ && _) = true)
  rw [Bool.and_eq_true] at wf
  obtain ⟨guard, ho⟩ := wf
  cases o with
  | none =>
    refine decode_fits (fits_both rfl rfl rfl guard) ?_
    show (_ >>= _ : Except Illegal Instr) = _
    rw [IBody.ofBits_bits]
    rfl
  | some o =>
    refine decode_fits (fits_both rfl rfl rfl guard) ?_
    show (_ >>= _ : Except Illegal Instr) = _
    rw [IBody.ofBits_bits]
    simp only [zeroF_zero, beq_self_eq_true, if_true, srcF_code ho, ok_bind]
    rfl

end

end

section
variable {sl : Slice} {op : BitVec 8} {h : Head} {d a b c : Opd}

/-! Rendezvous words (R330 to R334): bits 4:0 of OP hold the index, bits 6 and 5 say which counts are immediates. -/

section
variable {rv : BitVec 5} {da aa ba ca : BitVec 8} {ty : BitVec 4} {sc : BitVec 3} {ord : BitVec 2} {x mask : BitVec 9}
  {n : ImmOr 16}

theorem rvIndex_code (legal : rvOk rv = true) (index : x.extractLsb' 0 5 = rv) (low : x &&& ~~~(mask ||| 0x1F) = 0) :
    rvIndex ⟨da, aa, ba, ca, Ty.none.code, 0, 0, x⟩ mask = .ok rv := by
  simp only [rvIndex, none_code, index, legal, beq_self_eq_true, Bool.and_self, need_true, plain_masked low, ok_bind]
  rfl

theorem rvPhaseF_code (ok : immOrOk sl 65535 n = true) (form : x.getLsbD 6 = (rvPhaseBits n).2.getLsbD 0) :
    rvPhaseF sl ⟨da, aa, (rvPhaseBits n).1.extractLsb' 8 8, (rvPhaseBits n).1.extractLsb' 0 8, ty, sc, ord, x⟩ =
      .ok n := by
  cases n with
  | imm v =>
    simp only [rvPhaseF, form, rvPhaseBits, halves_append]
    rfl
  | reg o =>
    have high : (o.code ++ 0#8).extractLsb' 8 8 = o.code := by
      rw [append_field_high _ _ _ (by decide), field_whole]
    have low : (o.code ++ 0#8).extractLsb' 0 8 = 0 := by
      rw [append_field_low _ _ _ (by decide), field_whole]; rfl
    simp only [rvPhaseF, form]
    simp only [rvPhaseBits, high, low, srcF_code (show srcOk sl .w32 o = true from ok), zeroF_zero, ok_bind]
    rfl

theorem rvArr_roundTrips : RoundTrips sl (.rvArr h rv) := by
  intro (wf : (_ && _) = true)
  rw [Bool.and_eq_true] at wf
  have masked : ∀ v : BitVec 5, (0#4 ++ v : BitVec 9) &&& ~~~(0 ||| 0x1F) = 0 := by decide
  have index : ∀ v : BitVec 5, (0#4 ++ v : BitVec 9).extractLsb' 0 5 = v := by decide
  refine decode_fits (fits_both rfl rfl rfl wf.1) ?_
  show (_ >>= _ : Except Illegal Instr) = _
  rw [RBody.ofBits_bits]
  simp only [zeroF_zero, rvIndex_code wf.2 (index _) (masked _), ok_bind]
  rfl

/-- OP of `rv.wait` and `rv.test`. -/
theorem rvPhase_op : ∀ (p : BitVec 1) (v : BitVec 5), (0#2 ++ p ++ 0#1 ++ v : BitVec 9).extractLsb' 0 5 = v ∧
    (0#2 ++ p ++ 0#1 ++ v : BitVec 9) &&& ~~~(0x40 ||| 0x1F) = 0 ∧
    (0#2 ++ p ++ 0#1 ++ v : BitVec 9).getLsbD 6 = p.getLsbD 0 := by decide

theorem rvWait_roundTrips : RoundTrips sl (.rvWait h rv n) := by
  intro (wf : (_ && _) = true)
  rw [Bool.and_eq_true, Bool.and_eq_true] at wf
  obtain ⟨⟨guard, legal⟩, hn⟩ := wf
  obtain ⟨index, masked, form⟩ := rvPhase_op (rvPhaseBits n).2 rv
  refine decode_fits (fits_both rfl rfl rfl guard) ?_
  show (_ >>= _ : Except Illegal Instr) = _
  rw [RBody.ofBits_bits]
  simp only [zeroF_zero, rvPhaseF_code hn form, rvIndex_code legal index masked, ok_bind]
  rfl

theorem rvTest_roundTrips {dp : BitVec 3} : RoundTrips sl (.rvTest h rv dp n) := by
  intro (wf : (_ && _) = true)
  rw [Bool.and_eq_true, Bool.and_eq_true, Bool.and_eq_true] at wf
  obtain ⟨⟨⟨guard, legal⟩, hp⟩, hn⟩ := wf
  obtain ⟨index, masked, form⟩ := rvPhase_op (rvPhaseBits n).2 rv
  refine decode_fits (fits_both rfl rfl rfl guard) ?_
  show (_ >>= _ : Except Illegal Instr) = _
  rw [RBody.ofBits_bits]
  simp only [pdF_predCode hp, zeroF_zero, rvPhaseF_code hn form, rvIndex_code legal index masked, ok_bind]
  rfl

theorem rvInit_roundTrips {na : ImmOr 8} : RoundTrips sl (.rvInit h rv na n) := by
  intro (wf : (_ && _) = true)
  rw [Bool.and_eq_true, Bool.and_eq_true, Bool.and_eq_true, Bool.and_eq_true] at wf
  obtain ⟨⟨⟨⟨guard, legal⟩, ha⟩, hb⟩, pops⟩ := wf
  have fields : ∀ (p q : BitVec 1) (v : BitVec 5), (0#2 ++ p ++ q ++ v : BitVec 9).extractLsb' 0 5 = v ∧
      (0#2 ++ p ++ q ++ v : BitVec 9) &&& ~~~(0x60 ||| 0x1F) = 0 ∧
      (0#2 ++ p ++ q ++ v : BitVec 9).getLsbD 6 = p.getLsbD 0 ∧
      (0#2 ++ p ++ q ++ v : BitVec 9).getLsbD 5 = q.getLsbD 0 := by decide
  cases na with
  | imm v =>
    obtain ⟨index, masked, form, count⟩ := fields (rvPhaseBits n).2 1 rv
    refine decode_fits (fits_both rfl rfl rfl guard) ?_
    show (_ >>= _ : Except Illegal Instr) = _
    rw [RBody.ofBits_bits]
    simp only [zeroF_zero, count, rvPhaseF_code hb form, rvIndex_code legal index masked, ok_bind, ha, need_true]
    rfl
  | reg o =>
    obtain ⟨index, masked, form, count⟩ := fields (rvPhaseBits n).2 0 rv
    refine decode_fits (fits_both rfl rfl rfl guard) ?_
    show (_ >>= _ : Except Illegal Instr) = _
    rw [RBody.ofBits_bits]
    simp only [zeroF_zero, count, srcF_code (show srcOk sl .w32 o = true from ha), rvPhaseF_code hb form,
      rvIndex_code legal index masked, ok_bind]
    show (need _ Illegal.field >>= _ : Except Illegal Instr) = _
    rw [pops]
    simp only [ha, need_true, ok_bind]
    rfl

end

/-! Commands (R340, R341, R353, R362) -/

section
variable {dst src : BitVec 6} {slot : Option (BitVec 4)} {kind : BitVec 2} {index : BitVec 5}

/-- The command words but `acc.zero`; `wf` is what `Instr.wf` asks of them, in its order. -/
theorem decode_command {cmd : Cmd} {dstOk srcOk : BitVec 6 → Bool} {scope : Scope → Bool} {mk : Cmd → Instr}
    (fits : (h.ok && sl == .a) = true → Fits sl op h)
    (arm : ∀ body, decodeBody sl op h body = opCmd (CBody.ofBits body) dstOk srcOk scope mk)
    (wf : (h.ok && sl == .a && dstOk cmd.dst && srcOk cmd.src && scope cmd.scope &&
      targetOk cmd.kind cmd.index) = true) :
    decode sl (encC h op cmd) = .ok (mk cmd) := by
  rw [Bool.and_eq_true, Bool.and_eq_true, Bool.and_eq_true, Bool.and_eq_true] at wf
  obtain ⟨⟨⟨⟨guard, hd⟩, hs⟩, scopeOk⟩, target⟩ := wf
  refine decode_fits (fits guard) ?_
  rw [arm, CBody.ofBits_bits]
  simp only [opCmd, hd, hs, Bool.and_self, zeroM_zero, scopeM_code scopeOk, slotM_slot, target, need_true, ok_bind]
  rfl

theorem cpYield_roundTrips {mark : Bool} {ofs : BitVec 16} : RoundTrips sl (.cpYield mark ofs) := by
  intro wf
  obtain rfl : sl = .a := eq_of_beq wf
  have arm (body) : decodeBody .a 0xA2 ⟨mark, noGuard⟩ body = (do
      zeroF (body.extractLsb' 34 16)
      zeroF (body.extractLsb' 0 18)
      return .cpYield mark ((RBody.ofBits body).b ++ (RBody.ofBits body).c)) := rfl
  refine decode_fits ⟨rfl, rfl, rfl⟩ ?_
  rw [arm, RBody.ofBits_bits, RBody.bits_da, RBody.bits_mods]
  show (_ >>= _ : Except Illegal Instr) = _
  simp only [halves_append]
  rfl

theorem mmaBud_roundTrips {mark : Bool} : RoundTrips sl (.mmaBud mark d) := by
  intro (wf : (_ && _) = true)
  rw [Bool.and_eq_true, beq_iff_eq] at wf
  obtain ⟨rfl, hd⟩ := wf
  have arm (body) : decodeBody .a 0xA8 ⟨mark, noGuard⟩ body = (do
      let d ← regF (RBody.ofBits body).d
      zeroF (body.extractLsb' 0 42)
      return .mmaBud mark d) := rfl
  refine decode_fits ⟨rfl, rfl, rfl⟩ ?_
  rw [arm, RBody.ofBits_bits, RBody.bits_rest]
  simp only [regF_code hd, ok_bind]
  rfl

/-- `acc.zero` of the word's fields. -/
theorem opAccZero_code {ofs : BitVec 10} {low : BitVec 2} (hd : cmdReg dst = true)
    (form : (!low.getLsbD 0 || (cmdReg src && ofs == 0)) = true) (legal : (!low.getLsbD 1) = true)
    (target : targetOk kind index = true) :
    opAccZero h ⟨dst, src, ofs, 0, BitVec.ofBool slot.isSome, slot.getD 0, 0, 0, 0, kind, index, low⟩ =
      .ok (if low.getLsbD 0 then .accZeroReg h dst src slot kind index
        else .accZeroImm h dst (src ++ ofs) slot kind index) := by
  simp only [opAccZero, hd, form, beq_self_eq_true, Bool.and_self, zeroM_zero, legal, slotM_slot, target, need_true,
    ok_bind, apply_ite Except.ok]
  rfl

theorem accZeroReg_roundTrips : RoundTrips sl (.accZeroReg h dst src slot kind index) := by
  intro (wf : (_ && _) = true)
  rw [Bool.and_eq_true, Bool.and_eq_true, Bool.and_eq_true] at wf
  obtain ⟨⟨⟨guard, hd⟩, hs⟩, target⟩ := wf
  have arm (body) : decodeBody sl 0xA9 h body = opAccZero h (CBody.ofBits body) := rfl
  refine decode_fits (fits_a rfl rfl guard) ?_
  rw [arm, CBody.ofBits_bits, opAccZero_code hd (by rw [hs]; rfl) rfl target]
  rfl

theorem accZeroImm_roundTrips {n : BitVec 16} : RoundTrips sl (.accZeroImm h dst n slot kind index) := by
  intro (wf : (_ && _) = true)
  rw [Bool.and_eq_true, Bool.and_eq_true] at wf
  obtain ⟨⟨guard, hd⟩, target⟩ := wf
  have arm (body) : decodeBody sl 0xA9 h body = opAccZero h (CBody.ofBits body) := rfl
  have count : n.extractLsb' 10 6 ++ n.extractLsb' 0 10 = n := (field_append rfl rfl rfl).symm.trans (field_whole n)
  refine decode_fits (fits_a rfl rfl guard) ?_
  rw [arm, CBody.ofBits_bits, opAccZero_code hd rfl rfl target, count]
  rfl

end

theorem accLd_roundTrips : RoundTrips sl (.accLd h d a) := by
  intro (wf : (_ && _) = true)
  rw [Bool.and_eq_true, Bool.and_eq_true] at wf
  obtain ⟨⟨guard, hd⟩, ha⟩ := wf
  refine decode_fits (fits_a rfl rfl guard) ?_
  show (_ >>= _ : Except Illegal Instr) = _
  rw [RBody.ofBits_bits]
  refine bind_eq_of_ok (field_code (ok := fun o => aReg o || (match o with | .f _ => true | _ => false)) hd) ?_
  simp only [anyF_code ha, zeroF_zero, none_code, zeroM_zero, plain_masked (zero_masked _), ok_bind]
  rfl

theorem accFin_roundTrips {chk : Bool} {shape : BitVec 5} : RoundTrips sl (.accFin h chk shape d a b c) := by
  intro (wf : (_ && _) = true)
  rw [Bool.and_eq_true, Bool.and_eq_true, Bool.and_eq_true, Bool.and_eq_true, Bool.and_eq_true] at wf
  obtain ⟨⟨⟨⟨⟨guard, hd⟩, ha⟩, hb⟩, hc⟩, even⟩ := wf
  have masked : ∀ (v : BitVec 5) (p : Bool), (v ++ BitVec.ofBool p ++ 0#3 : BitVec 9) &&& ~~~0x1F8 = 0 := by decide
  have shapeField : ∀ (v : BitVec 5) (p : Bool), (v ++ BitVec.ofBool p ++ 0#3 : BitVec 9).extractLsb' 4 5 = v := by
    decide
  have check : ∀ (v : BitVec 5) (p : Bool), (v ++ BitVec.ofBool p ++ 0#3 : BitVec 9).getLsbD 3 = p := by decide
  have pair : (aReg c && regOk .a .w128 c) = true := by rw [hc, even]; rfl
  refine decode_fits (fits_a rfl rfl guard) ?_
  show (_ >>= _ : Except Illegal Instr) = _
  rw [RBody.ofBits_bits]
  simp only [regF_code hd, anyF_code ha, anyF_code hb, field_code (ok := fun o => aReg o && regOk .a .w128 o) pair,
    none_code, zeroM_zero, plain_masked (masked _ _), shapeField, check, ok_bind]
  rfl

/-! Cache, range and ebb words (R363 to R369) -/

theorem decode_range {mk : Opd → Opd → Instr} (fits : h.ok = true → Fits sl op h)
    (arm : ∀ body, decodeBody sl op h body = (do
      zeroF (RBody.ofBits body).d
      let a ← field (Opd.ofCode (RBody.ofBits body).a) (wbAddrOk sl)
      let b ← field (Opd.ofCode (RBody.ofBits body).b) (wbLenOk sl)
      zeroF (RBody.ofBits body).c; zeroM (RBody.ofBits body).ty; plain (RBody.ofBits body) 0
      return mk a b))
    (wf : (h.ok && wbAddrOk sl a && wbLenOk sl b) = true) :
    decode sl (encP h op 0 a.code b.code 0 .none 0) = .ok (mk a b) := by
  rw [Bool.and_eq_true, Bool.and_eq_true] at wf
  obtain ⟨⟨guard, ha⟩, hb⟩ := wf
  refine decode_fits (fits guard) ?_
  rw [arm, RBody.ofBits_bits]
  simp only [zeroF_zero, field_code ha, field_code hb, none_code, zeroM_zero, plain_masked (zero_masked _), ok_bind]
  rfl

theorem decode_addr {mk : Opd → Instr} (fits : (h.ok && sl == .a) = true → Fits sl op h)
    (arm : ∀ body, decodeBody sl op h body = opAddr (RBody.ofBits body) mk)
    (wf : (h.ok && sl == .a && aAny a) = true) : decode sl (encP h op 0 a.code 0 0 .none 0) = .ok (mk a) := by
  rw [Bool.and_eq_true] at wf
  refine decode_fits (fits wf.1) ?_
  rw [arm, RBody.ofBits_bits]
  simp only [opAddr, zeroF_zero, anyF_code wf.2, none_code, zeroM_zero, plain_masked (zero_masked _), ok_bind]
  rfl

theorem discard_roundTrips : RoundTrips sl (.discard h a b) := by
  intro (wf : (_ && _) = true)
  rw [Bool.and_eq_true, Bool.and_eq_true] at wf
  obtain ⟨⟨guard, ha⟩, hb⟩ := wf
  refine decode_fits (fits_a rfl rfl guard) ?_
  show (_ >>= _ : Except Illegal Instr) = _
  rw [RBody.ofBits_bits]
  simp only [zeroF_zero, anyF_code ha, anyF_code hb, none_code, zeroM_zero, plain_masked (zero_masked _), ok_bind]
  rfl

/-- Both forms of `rng.inv`, which bit 0 of OP tells apart. -/
theorem decode_rngInv {all : Bool} (wf : (h.ok && sl == .a && aAny a) = true) :
    decode sl (encP h 0xF0 0 a.code 0 0 .none (0#8 ++ BitVec.ofBool all)) =
      .ok (if all then .rngInvAll h a else .rngInv h a) := by
  rw [Bool.and_eq_true] at wf
  refine decode_fits (fits_a rfl rfl wf.1) ?_
  show (_ >>= _ : Except Illegal Instr) = _
  rw [RBody.ofBits_bits]
  simp only [zeroF_zero, anyF_code wf.2, none_code, zeroM_zero, plain_masked (sat_masked _), sat_bit, ok_bind,
    apply_ite Except.ok]
  rfl

theorem sigq_roundTrips : RoundTrips sl (.sigq h a d) := by
  intro (wf : (_ && _) = true)
  rw [Bool.and_eq_true, Bool.and_eq_true] at wf
  obtain ⟨⟨guard, ha⟩, hd⟩ := wf
  refine decode_fits (fits_a rfl rfl guard) ?_
  show (_ >>= _ : Except Illegal Instr) = _
  rw [RBody.ofBits_bits]
  simp only [anyF_code hd, anyF_code ha, zeroF_zero, none_code, zeroM_zero, plain_masked (zero_masked _), ok_bind]
  rfl

theorem ebbSlide_roundTrips : RoundTrips sl (.ebbSlide h d a b c) := by
  intro (wf : (_ && _) = true)
  rw [Bool.and_eq_true, Bool.and_eq_true, Bool.and_eq_true, Bool.and_eq_true] at wf
  obtain ⟨⟨⟨⟨guard, hd⟩, ha⟩, hb⟩, hc⟩ := wf
  refine decode_fits (fits_a rfl rfl guard) ?_
  show (_ >>= _ : Except Illegal Instr) = _
  rw [RBody.ofBits_bits]
  simp only [regF_code hd, anyF_code ha, anyF_code hb, anyF_code hc, none_code, zeroM_zero,
    plain_masked (zero_masked _), ok_bind]
  rfl

theorem ebbStat_roundTrips : RoundTrips sl (.ebbStat h d a) := by
  intro (wf : (_ && _) = true)
  rw [Bool.and_eq_true, Bool.and_eq_true] at wf
  obtain ⟨⟨guard, hd⟩, ha⟩ := wf
  refine decode_fits (fits_a rfl rfl guard) ?_
  show (_ >>= _ : Except Illegal Instr) = _
  rw [RBody.ofBits_bits]
  simp only [regF_code hd, anyF_code ha, zeroF_zero, none_code, zeroM_zero, plain_masked (zero_masked _), ok_bind]
  rfl

theorem leaPriv_roundTrips : RoundTrips sl (.leaPriv h d a b) := by
  intro (wf : (_ && _) = true)
  rw [Bool.and_eq_true, Bool.and_eq_true, Bool.and_eq_true] at wf
  obtain ⟨⟨⟨guard, hd⟩, ha⟩, hb⟩ := wf
  refine decode_fits (fits_a rfl rfl guard) ?_
  show (_ >>= _ : Except Illegal Instr) = _
  rw [RBody.ofBits_bits]
  simp only [regF_code hd, anyF_code ha, anyF_code hb, show (0 : BitVec 9).getLsbD 0 = false from rfl, Bool.not_false,
    Bool.true_or, need_true, zeroF_zero, none_code, zeroM_zero, plain_masked (zero_masked _), ok_bind]
  rfl

theorem leaPrivSelf_roundTrips : RoundTrips sl (.leaPrivSelf h d a) := by
  intro (wf : (_ && _) = true)
  rw [Bool.and_eq_true, Bool.and_eq_true] at wf
  obtain ⟨⟨guard, hd⟩, ha⟩ := wf
  refine decode_fits (fits_a rfl rfl guard) ?_
  show (_ >>= _ : Except Illegal Instr) = _
  rw [RBody.ofBits_bits]
  simp only [regF_code hd, anyF_code ha, show anyF 0 = .ok (.r 0) from rfl,
    show (1 : BitVec 9).getLsbD 0 = true from rfl, if_true, beq_self_eq_true, Bool.or_true, need_true, zeroF_zero,
    none_code, zeroM_zero, plain_masked (show (1 : BitVec 9) &&& ~~~1 = 0 from rfl), ok_bind]
  rfl

/-! Short pairs (R244 to R246) -/

/-- The low bits of field b of a half. -/
theorem half_reg (o : Opd) : (0#3 ++ o.code : BitVec 11).extractLsb' 8 3 = 0 ∧
    (0#3 ++ o.code : BitVec 11).extractLsb' 0 8 = o.code := by
  constructor
  · rw [append_field_high _ _ _ (by decide)]; rfl
  · rw [append_field_low _ _ _ (by decide), field_whole]

theorem ShortOp.ofCode_num (op : ShortOp) : ShortOp.ofCode (BitVec.ofNat 6 op.num).toNat = some op := by
  cases op <;> rfl

theorem ShortOp.regForm_excludes {op : ShortOp} (reg : op.regForm = true) :
    (op == .nop || op == .mov) = false ∧ op.shiftForm = false := by
  revert reg; cases op <;> decide

theorem decodeHalf_encHalf {x : Half} (ok : x.ok = true) : decodeHalf (encHalf x) = .ok x := by
  obtain ⟨op, d, a, b⟩ := x
  simp only [Half.ok, Bool.and_eq_true] at ok
  obtain ⟨⟨hb, nop⟩, movI⟩ := ok
  cases b with
  | imm v =>
    simp only [Bool.and_eq_true, Bool.not_eq_true'] at hb
    obtain ⟨⟨imm, shift⟩, zero⟩ := hb
    simp only [decodeHalf, encHalf, HBody.ofBits_bits, ShortOp.ofCode_num, imm, nop, movI, zero, shift, need_true]
    rfl
  | reg o =>
    simp only [Bool.and_eq_true] at hb
    obtain ⟨reg, legal⟩ := hb
    obtain ⟨other, shift⟩ := ShortOp.regForm_excludes reg
    obtain ⟨high, low⟩ := half_reg o
    simp only [decodeHalf, encHalf, HBody.ofBits_bits, ShortOp.ofCode_num, reg, nop, movI, other, shift, high, low,
      need_true, zeroF_zero, Bool.not_false, Bool.true_or, if_true, ok_bind]
    refine bind_eq_of_ok (field_code (ok := fun o => match o with | .r _ | .s _ | .k _ => true | _ => false) legal) ?_
    rfl

theorem bit_of_field {n s : Nat} {w : BitVec n} {v : Bool} (field : w.extractLsb' s 1 = BitVec.ofBool v) :
    w.getLsbD s = v := by
  have bit := congrArg (fun u => u.getLsbD 0) field
  simpa [BitVec.getLsbD_extractLsb'] using bit

section
variable (mark : Bool) (x y : BitVec 31)

theorem pairWord_mark : (BitVec.ofBool mark ++ 1#1 ++ x ++ y : BitVec (1 + 1 + 31 + 31)).getLsbD 63 = mark := by
  apply bit_of_field
  simp (disch := decide) only [append_field_high, field_whole, Nat.reduceSub]

theorem pairWord_pair : (BitVec.ofBool mark ++ 1#1 ++ x ++ y : BitVec (1 + 1 + 31 + 31)).getLsbD 62 = true := by
  apply bit_of_field
  simp (disch := decide) only [append_field_low, append_field_high, field_whole, Nat.reduceSub]
  rfl

theorem pairWord_high : (BitVec.ofBool mark ++ 1#1 ++ x ++ y : BitVec (1 + 1 + 31 + 31)).extractLsb' 31 31 = x := by
  simp (disch := decide) only [append_field_low, append_field_high, field_whole, Nat.reduceSub]

theorem pairWord_low : (BitVec.ofBool mark ++ 1#1 ++ x ++ y : BitVec (1 + 1 + 31 + 31)).extractLsb' 0 31 = y := by
  simp (disch := decide) only [append_field_low, field_whole]

end

theorem shortPair_roundTrips {mark : Bool} {x y : Half} : RoundTrips sl (.shortPair mark x y) := by
  intro (wf : (_ && _) = true)
  simp only [Bool.and_eq_true, beq_iff_eq] at wf
  obtain ⟨⟨⟨rfl, hx⟩, hy⟩, banks⟩ := wf
  show decode .c (BitVec.ofBool mark ++ 1#1 ++ encHalf x ++ encHalf y : BitVec (1 + 1 + 31 + 31)) = _
  unfold decode
  rw [pairWord_mark, pairWord_pair, pairWord_high, pairWord_low]
  simp only [if_true, decodeHalf_encHalf hx, decodeHalf_encHalf hy, banks, beq_self_eq_true, need_true, ok_bind]
  rfl

end

end Sys2Proof

namespace Sys2Proof.Machine

/-- Settles O52, by the instruction: words of one form share the lemma of that form. -/
theorem decodeEncode : Obligations.DecodeEncode := by
  intro sl ins wf
  cases ins with
  | nop m | ret m | join m | yield m | splitYield m | fbar m | fenceHb m =>
    exact decode_fits (fits_bare rfl rfl rfl) rfl
  | rngSync m =>
    obtain rfl : sl = .a := eq_of_beq wf
    exact decode_fits ⟨rfl, rfl, rfl⟩ rfl
  | exit h | halt h => exact decode_fits (fits_both rfl rfl rfl wf) rfl
  | br h rec tgt => exact br_roundTrips wf
  | brQ m dropT dropF rec tgt => exact brQ_roundTrips wf
  | brB h dropT dropF rec tgt => exact brB_roundTrips wf
  | brBack m dropT dropF rec tgt => exact brBack_roundTrips wf
  | call m tgt => exact call_roundTrips wf
  | brInd m a | callInd m a => exact decode_indirect (fits_bare rfl rfl rfl) (fun _ => rfl) wf
  | trap h code => exact trap_roundTrips wf
  | mul h t d a b | mulhi h t d a b | div h t d a b | rem h t d a b | min h t d a b | max h t d a b | and h t d a b
  | or h t d a b | xor h t d a b | shl h t d a b | shr h t d a b | bfe h t d a b =>
    exact decode_op3 (fits_both rfl rfl rfl) (fun _ => rfl) wf
  | rot h t d a b =>
    exact decode_op3 (ok := fun t => t == .z32 || t == .z64) (fits_both rfl rfl rfl) (fun _ => rfl) wf
  | add h t sat d a b | sub h t sat d a b => exact decode_sat3 (fits_both rfl rfl rfl) (fun _ => rfl) wf
  | mad h t d a b c | sad h t d a b c | bfi h t d a b c => exact decode_op4 (fits_both rfl rfl rfl) (fun _ => rfl) wf
  | mov h t d a | not h t d a | popc h t d a | clz h t d a | brev h t d a =>
    exact decode_op2 (fits_both rfl rfl rfl) (fun _ => rfl) wf
  | abs h t sat d a | neg h t sat d a => exact decode_sat2 (fits_both rfl rfl rfl) (fun _ => rfl) wf
  | mulImm h t d a imm | andImm h t d a imm | orImm h t d a imm | xorImm h t d a imm =>
    exact decode_imm (fits_both rfl rfl rfl) (fun _ => rfl) wf
  | shlImm h t d a imm | shrImm h t d a imm => exact decode_shiftImm (fits_both rfl rfl rfl) (fun _ => rfl) wf
  | addImm h t sat d a imm => exact addImm_roundTrips wf
  | lea h t s d a b => exact lea_roundTrips wf
  | movImm h t d imm => exact movImm_roundTrips wf
  | movhi h t hi d a imm => exact movhi_roundTrips wf
  | cmp h t cc dp a b => exact cmp_roundTrips wf
  | cmpImm h t cc dp a imm => exact cmpImm_roundTrips wf
  | sel h t d a b cp => exact sel_roundTrips wf
  | pand h dp ap bp | por h dp ap bp | pxor h dp ap bp => exact decode_logic (fits_both rfl rfl rfl) (fun _ => rfl) wf
  | pnot h dp ap | voteAny h dp ap | voteAll h dp ap => exact decode_logic1 (fits_both rfl rfl rfl) (fun _ => rfl) wf
  | voteBallot h d ap => exact voteBallot_roundTrips wf
  | elect h dp => exact elect_roundTrips wf
  | leaPriv h d a b => exact leaPriv_roundTrips wf
  | leaPrivSelf h d a => exact leaPrivSelf_roundTrips wf
  | srGet h d n => exact srGet_roundTrips wf
  | srSet h n a => exact srSet_roundTrips wf
  | shflIdx h t seg d a b pd | shflUp h t seg d a b pd | shflDown h t seg d a b pd | shflXor h t seg d a b pd =>
    exact decode_shfl (fits_both rfl rfl rfl) (fun _ => rfl) wf
  | scan h t o d a | scanEx h t o d a | wred h t o d a => exact decode_scan (fits_both rfl rfl rfl) (fun _ => rfl) wf
  | xch h t m d a pd => exact xch_roundTrips wf
  | matchLanes h t d a => exact matchLanes_roundTrips wf
  | fadd h t rm d a b | fsub h t rm d a b | fmul h t rm d a b | fdiv h t rm d a b =>
    exact decode_rm3 (fits_c rfl rfl) (fun _ => rfl) wf
  | ffma h t rm d a b c => exact decode_rm4 (fits_c rfl rfl) (fun _ => rfl) wf
  | fmin h t d a b | fmax h t d a b => exact decode_op3 (fits_c rfl rfl) (fun _ => rfl) wf
  | fabs h t d a | fneg h t d a =>
    exact decode_op2 (ok := fun t => t.isFloat || t.isPair) (fits_c rfl rfl) (fun _ => rfl) wf
  | frcp h t d a | frsqrt h t d a | fexp2 h t d a | flog2 h t d a | fsin h t d a | fcos h t d a | ftanh h t d a =>
    exact decode_op2 (fits_c rfl rfl) (fun _ => rfl) wf
  | fsqrt h t rm d a | frnd h t rm d a => exact decode_rm2 (fits_c rfl rfl) (fun _ => rfl) wf
  | fcmp h t cc dp a b => exact fcmp_roundTrips wf
  | fclass h t d a => exact fclass_roundTrips wf
  | fdot2 h t rm d a b c => exact fdot2_roundTrips wf
  | hfma2 h t rm d a b c => exact hfma2_roundTrips wf
  | fscale h t rm d a b => exact fscale_roundTrips wf
  | hadd2 h t rm d a b | hmul2 h t rm d a b => exact decode_pair3 (fits_c rfl rfl) (fun _ => rfl) wf
  | cvt h t sty rm sat d a => exact cvt_roundTrips wf
  | cvtPk h fmt hi rm d a b c => exact cvtPk_roundTrips wf
  | cvtUnpk h fmt idx d a => exact cvtUnpk_roundTrips wf
  | mxPack h fmt d a b | mxUnpk h fmt d a b => exact decode_mx (fits_c rfl rfl) (fun _ => rfl) wf
  | mxScale h fmt d a => exact mxScale_roundTrips wf
  | cvtF6 h e d a => exact cvtF6_roundTrips wf
  | cvtI4 h sg hi d a => exact cvtI4_roundTrips wf
  | fmtSetImm h v => exact fmtSetImm_roundTrips wf
  | fmtSetReg h a => exact fmtSetReg_roundTrips wf
  | fmtGet h d | fmtGetFlags h d | fmtGetFlagsClr h d => exact decode_fmtGet rfl rfl rfl wf
  | fmtSeed h a => exact fmtSeed_roundTrips wf
  | ld h t s d a imm | ll h t s d a imm => exact decode_load (fits_a rfl rfl) (fun _ => rfl) wf
  | st h t s d a imm => exact st_roundTrips wf
  | ldx h t ctr d a imm => exact ldx_roundTrips wf
  | ldIdx h t s sh d a b => exact ldIdx_roundTrips wf
  | stIdx h t s sh d a b => exact stIdx_roundTrips wf
  | stq h t s ce ctr d => exact stq_roundTrips wf
  | redQ h t o near rel s ce ctr d => exact redQ_roundTrips wf
  | pf h l2 a imm => exact pf_roundTrips wf
  | waitCnt h ctr o imm => exact waitCnt_roundTrips wf
  | fence h s => exact fence_roundTrips wf
  | atom h t o s od d a b => exact atom_roundTrips wf
  | cas h t s od d a b c => exact cas_roundTrips wf
  | red h t o near rel s d a => exact red_roundTrips wf
  | sc h t s od d a pd => exact sc_roundTrips wf
  | waitAddr h t cc s dp a b c => exact waitAddr_roundTrips wf
  | rvInit h rv na nb => exact rvInit_roundTrips wf
  | rvArr h rv => exact rvArr_roundTrips wf
  | rvWait h rv n => exact rvWait_roundTrips wf
  | rvTest h rv dp n => exact rvTest_roundTrips wf
  | gSet h slot ap => exact gSet_roundTrips wf
  | sigq h a d => exact sigq_roundTrips wf
  | cp h c => exact decode_command (scope := (· == .none)) (fits_a rfl rfl) (fun _ => rfl) wf
  | cpFeed h c =>
    exact decode_command (dstOk := fun d => decide (d ≤ 2)) (scope := (· == .none)) (fits_a rfl rfl) (fun _ => rfl) wf
  | cpColl h c | cpPut h c | cpGet h c =>
    exact decode_command (scope := (· == .sys)) (fits_a rfl rfl) (fun _ => rfl) wf
  | mma h c | mmaTwin h c => exact decode_command (srcOk := (· == 0)) (fits_a rfl rfl) (fun _ => rfl) wf
  | cpYield m ofs => exact cpYield_roundTrips wf
  | mmaBud m d => exact mmaBud_roundTrips wf
  | accZeroImm h dst n slot kind index => exact accZeroImm_roundTrips wf
  | accZeroReg h dst src slot kind index => exact accZeroReg_roundTrips wf
  | accLd h d a => exact accLd_roundTrips wf
  | accFin h chk shape d a b c => exact accFin_roundTrips wf
  | wb h a b | ii h a b => exact decode_range (fits_both rfl rfl rfl) (fun _ => rfl) wf
  | nodePost h a | zline h a => exact decode_addr (fits_a rfl rfl) (fun _ => rfl) wf
  | discard h a b => exact discard_roundTrips wf
  | rngInv h a => exact decode_rngInv (all := false) wf
  | rngInvAll h a => exact decode_rngInv (all := true) wf
  | ebbSlide h d a b c => exact ebbSlide_roundTrips wf
  | ebbStat h d a => exact ebbStat_roundTrips wf
  | shortPair m x y => exact shortPair_roundTrips wf
  | _ => cases wf

end Sys2Proof.Machine

namespace Sys2Proof.Machine

/-- Settles O54: each word that decodes is the encoding of its instruction, which decodes to it; each other word is
refused by its guard, opcode or slice, before its fields are read. -/
theorem decodedWords : Obligations.DecodedWords := by
  refine ⟨?_, ?_, ?_, ?_, ?_, ?_, ?_, ?_, rfl, rfl, rfl⟩
  · exact decodeEncode .a (.addImm ⟨true, ⟨false, 7⟩⟩ .z64 false (.r 3) (.r 1) 100) rfl
  · exact decodeEncode .a (.st ⟨false, ⟨true, 3⟩⟩ .z32 .none (.r 3) (.r 2) 16) rfl
  · exact decodeEncode .a (.br ⟨false, ⟨false, 1⟩⟩ 4 3) rfl
  · exact decodeEncode .a (.br ⟨false, ⟨false, 7⟩⟩ 0 2) rfl
  · exact decodeEncode .c (.brQ false 0 0 1 1) rfl
  · exact decodeEncode .a (.srGet ⟨true, ⟨false, 7⟩⟩ (.r 1) .lane) rfl
  · exact decodeEncode .a (.scanEx ⟨true, ⟨false, 7⟩⟩ .z64 0 (.r 5) (.r 3)) rfl
  · exact decodeEncode .a (.leaPriv ⟨false, ⟨false, 7⟩⟩ (.r 5) (.r 2) (.r 3)) rfl

end Sys2Proof.Machine

/-! SUPPORT. The model's integer arithmetic, which is of numbers, as arithmetic of bit vectors at every operand width. -/

namespace Sys2Proof.Machine

/-! Numbers of a type (R251) -/

/-- The four integer types have the width of their operands. -/
theorem ibits_of_isInt4 {t : Ty} (int4 : t.isInt4 = true) : Ty.ibits t = Ty.w t :=
  match t, int4 with
  | .z32, _ | .i32, _ | .z64, _ | .i64, _ => rfl

theorem w_cases (t : Ty) : Ty.w t = 32 ∨ Ty.w t = 64 := by cases t <;> simp [Ty.w]

theorem w_pos (t : Ty) : 0 < Ty.w t := by have := w_cases t; omega

theorem toInt_toNat {n : Nat} (x : BitVec n) : toInt n x.toNat = x.toInt := by
  rw [toInt, BitVec.toInt_eq_toNat_cond, Nat.mod_eq_of_lt x.isLt]
  cases n with
  | zero => simp [BitVec.of_length_zero]
  | succ n =>
    rw [Nat.add_sub_cancel, Nat.pow_succ]
    split_ifs <;> omega

theorem ofInt_numOf_self (t : Ty) {n : Nat} (x : BitVec n) : BitVec.ofInt n (numOf t x) = x := by
  unfold numOf
  split <;> simp

theorem less_iff_numOf (t : Ty) {n : Nat} (x y : BitVec n) : less t x y = true ↔ numOf t x < numOf t y := by
  unfold less numOf
  split <;> simp [BitVec.slt_iff_toInt_lt, BitVec.ult_iff_toNat_lt]

theorem numOf_eq_zero_iff (t : Ty) {n : Nat} (x : BitVec n) : numOf t x = 0 ↔ x = 0#n := by
  unfold numOf
  split
  · exact ⟨fun zero => BitVec.eq_of_toInt_eq (by simpa using zero), fun zero => by simp [zero]⟩
  · exact ⟨fun zero => BitVec.eq_of_toNat_eq (by simpa using zero), fun zero => by simp [zero]⟩

theorem ofInt_sub (n : Nat) (a b : Int) : BitVec.ofInt n (a - b) = BitVec.ofInt n a - BitVec.ofInt n b := by
  rw [Int.sub_eq_add_neg, BitVec.ofInt_add, BitVec.ofInt_neg, BitVec.sub_eq_add_neg]

theorem ofInt_tdiv_numOf (t : Ty) {n : Nat} (x y : BitVec n) (nonzero : y ≠ 0#n) :
    BitVec.ofInt n ((numOf t x).tdiv (numOf t y)) = quotient t x y := by
  rw [quotient, if_neg nonzero]
  unfold numOf
  split
  · exact BitVec.eq_of_toInt_eq (by rw [BitVec.toInt_ofInt, BitVec.toInt_sdiv])
  · rw [← Int.ofNat_tdiv, BitVec.ofInt_natCast]
    exact BitVec.eq_of_toNat_eq (by simp [Nat.mod_eq_of_lt (Nat.lt_of_le_of_lt (Nat.div_le_self ..) x.isLt)])

theorem ofInt_tmod_numOf (t : Ty) {n : Nat} (x y : BitVec n) (nonzero : y ≠ 0#n) :
    BitVec.ofInt n ((numOf t x).tmod (numOf t y)) = remainder t x y := by
  rw [remainder, if_neg nonzero]
  unfold numOf
  split
  · rw [← BitVec.toInt_srem, BitVec.ofInt_toInt]
  · rw [← Int.ofNat_tmod, BitVec.ofInt_natCast]
    exact BitVec.eq_of_toNat_eq (by simp [Nat.mod_eq_of_lt (Nat.lt_of_le_of_lt (Nat.mod_le ..) x.isLt)])

/-- The high half of a number's bits is what the number has above its low half. -/
theorem extractLsb'_ofInt_high (n : Nat) (z : Int) :
    (BitVec.ofInt (2 * n) z).extractLsb' n n = BitVec.ofInt n (z / ((2 ^ n : Nat) : Int)) := by
  have square : 2 ^ (2 * n) = 2 ^ n * 2 ^ n := by rw [two_mul, pow_add]
  have high : z % ((2 ^ n * 2 ^ n : Nat) : Int) / ((2 ^ n : Nat) : Int) % ((2 ^ n : Nat) : Int) =
      z / ((2 ^ n : Nat) : Int) % ((2 ^ n : Nat) : Int) := by
    have unit : ((2 ^ n : Nat) : Int) ≠ 0 := by positivity
    rw [Nat.cast_mul]
    generalize ((2 ^ n : Nat) : Int) = u at unit
    have cut : z % (u * u) = z + u * (u * -(z / (u * u))) := by rw [Int.emod_def]; ring
    rw [cut, Int.add_mul_ediv_left _ _ unit, Int.add_mul_emod_self_left]
  obtain ⟨m, value⟩ := Int.eq_ofNat_of_zero_le (Int.emod_nonneg z (b := ((2 ^ n * 2 ^ n : Nat) : Int)) (by positivity))
  apply BitVec.eq_of_toNat_eq
  rw [value] at high
  rw [BitVec.extractLsb'_toNat, BitVec.toNat_ofInt, BitVec.toNat_ofInt, square, value, ← high, Nat.shiftRight_eq_div_pow,
    ← Int.natCast_ediv, ← Int.natCast_emod, Int.toNat_natCast, Int.toNat_natCast]

theorem highHalf_eq (t : Ty) {n : Nat} (x y : BitVec n) :
    highHalf t x y = BitVec.ofInt n (numOf t x * numOf t y / ((2 ^ n : Nat) : Int)) := by
  rw [← extractLsb'_ofInt_high, BitVec.ofInt_mul]
  unfold highHalf numOf
  split
  · rfl
  · rw [BitVec.ofInt_natCast, BitVec.ofInt_natCast, BitVec.ofNat_toNat, BitVec.ofNat_toNat]

/-! Integer arithmetic (R264, R265) -/

section
variable {t : Ty} {n : Nat} (width : Ty.ibits t = n) (x y z : BitVec n)
include width

theorem int_toNat : Ty.int t x.toNat = numOf t x := by
  unfold Ty.int numOf
  rw [width, toInt_toNat, Nat.mod_eq_of_lt x.isLt]

theorem intAdd_toNat : intAdd t false x.toNat y.toNat = (x + y).toNat := by
  rw [intAdd, wrapSat, if_neg Bool.false_ne_true, int_toNat width, int_toNat width, width, ofInt_eq, BitVec.ofInt_add,
    ofInt_numOf_self, ofInt_numOf_self]

theorem intMul_toNat : intMul t x.toNat y.toNat = (x * y).toNat := by
  rw [intMul, int_toNat width, int_toNat width, width, ofInt_eq, BitVec.ofInt_mul, ofInt_numOf_self, ofInt_numOf_self]

theorem intMulhi_toNat : intMulhi t x.toNat y.toNat = (highHalf t x y).toNat := by
  rw [intMulhi, int_toNat width, int_toNat width, width, ofInt_eq, highHalf_eq]

theorem intMad_toNat : intMad t x.toNat y.toNat z.toNat = (x * y + z).toNat := by
  rw [intMad, int_toNat width, int_toNat width, int_toNat width, width, ofInt_eq, BitVec.ofInt_add, BitVec.ofInt_mul,
    ofInt_numOf_self, ofInt_numOf_self, ofInt_numOf_self]

theorem intDiv_toNat : intDiv t x.toNat y.toNat = (quotient t x y).toNat := by
  rw [intDiv, int_toNat width, int_toNat width, width]
  split
  · next zero => rw [quotient, if_pos ((numOf_eq_zero_iff t y).1 zero), BitVec.toNat_allOnes]
  · next nonzero => rw [ofInt_eq, ofInt_tdiv_numOf t x y (mt (numOf_eq_zero_iff t y).2 nonzero)]

theorem intRem_toNat : intRem t x.toNat y.toNat = (remainder t x y).toNat := by
  rw [intRem, int_toNat width, int_toNat width, width]
  split
  · next zero => rw [remainder, if_pos ((numOf_eq_zero_iff t y).1 zero), ofInt_eq, ofInt_numOf_self]
  · next nonzero => rw [ofInt_eq, ofInt_tmod_numOf t x y (mt (numOf_eq_zero_iff t y).2 nonzero)]

theorem intMin_toNat : intMin t x.toNat y.toNat = (if less t y x then y else x).toNat := by
  rw [intMin, int_toNat width, int_toNat width, width, ofInt_eq]
  by_cases lt : numOf t y < numOf t x
  · rw [if_pos ((less_iff_numOf t y x).2 lt), min_eq_right lt.le, ofInt_numOf_self]
  · rw [if_neg (mt (less_iff_numOf t y x).1 lt), min_eq_left (not_lt.1 lt), ofInt_numOf_self]

theorem intMax_toNat : intMax t x.toNat y.toNat = (if less t x y then y else x).toNat := by
  rw [intMax, int_toNat width, int_toNat width, width, ofInt_eq]
  by_cases lt : numOf t x < numOf t y
  · rw [if_pos ((less_iff_numOf t x y).2 lt), max_eq_right lt.le, ofInt_numOf_self]
  · rw [if_neg (mt (less_iff_numOf t x y).1 lt), max_eq_left (not_lt.1 lt), ofInt_numOf_self]

theorem intSad_toNat :
    intSad t x.toNat y.toNat z.toNat = ((if less t x y then y - x else x - y) + z).toNat := by
  rw [intSad, int_toNat width, int_toNat width, int_toNat width, width, ofInt_eq, BitVec.ofInt_add, ofInt_numOf_self]
  by_cases lt : numOf t x < numOf t y
  · have distance : ((numOf t x - numOf t y).natAbs : Int) = numOf t y - numOf t x := by omega
    rw [if_pos ((less_iff_numOf t x y).2 lt), distance, ofInt_sub, ofInt_numOf_self, ofInt_numOf_self]
  · have distance : ((numOf t x - numOf t y).natAbs : Int) = numOf t x - numOf t y := by omega
    rw [if_neg (mt (less_iff_numOf t x y).1 lt), distance, ofInt_sub, ofInt_numOf_self, ofInt_numOf_self]

theorem intNot_toNat : intNot t x.toNat = (~~~x).toNat := by
  rw [intNot, width, Nat.mod_eq_of_lt x.isLt, BitVec.toNat_not]

end

/-! Saturation (R265) -/

theorem leastOf_le_greatestOf (t : Ty) : leastOf t ≤ greatestOf t := by
  have half : (0 : Int) < 2 ^ (Ty.w t - 1) := by positivity
  have whole : (0 : Int) < 2 ^ Ty.w t := by positivity
  unfold leastOf greatestOf
  split <;> omega

theorem clampTo_eq {t : Ty} (width : Ty.ibits t = Ty.w t) (z : Int) :
    clampTo t z = (BitVec.ofInt (Ty.w t) (max (leastOf t) (min (greatestOf t) z))).toNat := by
  simp only [clampTo, leastOf, greatestOf, width, ofInt_eq, Nat.cast_pow, Nat.cast_ofNat]

theorem wrapSat_eq_fit {t : Ty} (width : Ty.ibits t = Ty.w t) (sat : Bool) (z : Int) :
    wrapSat t sat z = (fit t sat z).toNat := by
  cases sat with
  | false => rw [wrapSat, fit, if_neg Bool.false_ne_true, if_neg Bool.false_ne_true, width, ofInt_eq]
  | true =>
    have order := leastOf_le_greatestOf t
    rw [wrapSat, fit, if_pos rfl, if_pos rfl, clampTo_eq width]
    congr 2
    split_ifs <;> omega

/-! Shifts and rotation (R266) -/

section
variable {n : Nat} (x : BitVec n) (c : Nat)

theorem shiftLeft_toNat : shiftLeft n x.toNat c = (leftBy x c).toNat := by
  unfold shiftLeft leftBy
  split
  · rfl
  · rw [BitVec.toNat_shiftLeft, Nat.shiftLeft_eq]

theorem ofInt_div_eq_sshiftRight : BitVec.ofInt n (x.toInt / ((2 ^ c : Nat) : Int)) = x.sshiftRight c := by
  rw [BitVec.sshiftRight, Int.shiftRight_eq_div_pow]

/-- A signed shift by the whole width leaves copies of the sign. -/
theorem sshiftRight_width : x.sshiftRight n = if x.msb then BitVec.allOnes n else 0#n := by
  ext i below
  rw [← BitVec.getLsbD_eq_getElem, BitVec.getLsbD_sshiftRight]
  cases x.msb <;> simp [below]

theorem shiftRight_toNat {t : Ty} (width : Ty.ibits t = n) : shiftRight t x.toNat c = (rightBy t x c).toNat := by
  rw [shiftRight, int_toNat width, width, ofInt_eq]
  unfold rightBy numOf
  split
  · rw [ofInt_div_eq_sshiftRight]
    split
    · next all => rw [Nat.min_eq_right all, sshiftRight_width]
    · next part => rw [Nat.min_eq_left (Nat.le_of_not_le part)]
  · rw [← Int.natCast_ediv, BitVec.ofInt_natCast, BitVec.toNat_ofNat,
      Nat.mod_eq_of_lt (Nat.lt_of_le_of_lt (Nat.div_le_self ..) x.isLt)]
    split
    · next all => rw [Nat.min_eq_right all, Nat.div_eq_of_lt x.isLt, BitVec.toNat_zero]
    · next part => rw [Nat.min_eq_left (Nat.le_of_not_le part), BitVec.toNat_ushiftRight, Nat.shiftRight_eq_div_pow]

/-- The bits that leave a rotation at the top come in below the others, which they do not meet. -/
theorem rotateLeft_toNat (pos : 0 < n) : rotateLeft n x.toNat c = (x.rotateLeft c).toNat := by
  have turn : c % n < n := Nat.mod_lt c pos
  have parts : 2 ^ n = 2 ^ (n - c % n) * 2 ^ (c % n) := by rw [← pow_add, Nat.sub_add_cancel turn.le]
  have high : x.toNat / 2 ^ (n - c % n) < 2 ^ (c % n) := Nat.div_lt_of_lt_mul (parts ▸ x.isLt)
  have low : x.toNat * 2 ^ (c % n) % 2 ^ n = (x.toNat % 2 ^ (n - c % n)) <<< (c % n) := by
    rw [parts, Nat.mul_mod_mul_right, Nat.shiftLeft_eq]
  have short : x.toNat / 2 ^ (n - c % n) % 2 ^ n = x.toNat / 2 ^ (n - c % n) :=
    Nat.mod_eq_of_lt (Nat.lt_of_le_of_lt (Nat.div_le_self ..) x.isLt)
  have fits : x.toNat * 2 ^ (c % n) % 2 ^ n + x.toNat / 2 ^ (n - c % n) % 2 ^ n < 2 ^ n := by
    have kept : x.toNat % 2 ^ (n - c % n) < 2 ^ (n - c % n) := Nat.mod_lt _ (by positivity)
    rw [short, low, Nat.shiftLeft_eq, parts]
    linarith [Nat.mul_le_mul_right (2 ^ (c % n)) (Nat.succ_le_of_lt kept),
      Nat.succ_mul (x.toNat % 2 ^ (n - c % n)) (2 ^ (c % n))]
  rw [rotateLeft, BitVec.toNat_rotateLeft, Nat.mod_eq_of_lt x.isLt, Nat.add_mod_of_add_mod_lt fits, short, low,
    Nat.shiftLeft_add_eq_or_of_lt high, ← low, Nat.shiftLeft_eq, Nat.shiftRight_eq_div_pow]

/-! Bit counts (R266) -/

theorem length_filter_bits (k : Nat) :
    ((List.range k).filter fun i => x.toNat / 2 ^ i % 2 == 1).length = x.cpopNatRec k 0 := by
  induction k with
  | zero => rfl
  | succ k ih =>
    have bit : x.getLsbD k = (x.toNat / 2 ^ k % 2 == 1) := by
      rw [BitVec.getLsbD, Nat.testBit_eq_decide_div_mod_eq, beq_eq_decide]
    rw [List.range_succ, List.filter_append, List.length_append, ih, BitVec.cpopNatRec_succ, bit,
      BitVec.cpopNatRec_eq (acc := _ + _)]
    cases odd : x.toNat / 2 ^ k % 2 == 1 <;> simp [odd]

theorem popcount_toNat : popcount n x.toNat = x.cpop.toNat := by
  rw [popcount, length_filter_bits, BitVec.cpop, BitVec.toNat_ofNat,
    Nat.mod_eq_of_lt (Nat.lt_of_le_of_lt (BitVec.cpopNatRec_zero_le x n) Nat.lt_two_pow_self)]

theorem leadingZeros_toNat (pos : 0 < n) : leadingZeros n x.toNat = x.clz.toNat := by
  rw [leadingZeros, Nat.mod_eq_of_lt x.isLt, bitLen]
  have most : x.clz.toNat ≤ n := by simpa [BitVec.le_def, Nat.mod_eq_of_lt Nat.lt_two_pow_self] using x.clz_le
  split
  · next zero =>
    rw [BitVec.clz_eq_iff_eq_zero.2 (BitVec.eq_of_toNat_eq (by simpa using zero)), BitVec.natCast_eq_ofNat,
      BitVec.toNat_ofNat, Nat.mod_eq_of_lt Nat.lt_two_pow_self, Nat.sub_zero]
  · next nonzero =>
    have differs : x ≠ 0#n := fun zero => nonzero (by simp [zero])
    have fewer : x.clz.toNat < n := by
      simpa [BitVec.lt_def, Nat.mod_eq_of_lt Nat.lt_two_pow_self] using BitVec.clz_lt_iff_ne_zero.2 differs
    have top : Nat.log2 x.toNat = n - 1 - x.clz.toNat := by
      rw [Nat.log2_eq_iff nonzero, show n - 1 - x.clz.toNat + 1 = n - x.clz.toNat by omega]
      exact ⟨BitVec.two_pow_sub_clz_le_toNat_of_ne_zero pos differs, BitVec.toNat_lt_two_pow_sub_clz⟩
    omega

theorem testBit_foldl_reverse (x k j : Nat) :
    ((List.range k).foldl (fun r i => 2 * r + x / 2 ^ i % 2) 0).testBit j = (decide (j < k) && x.testBit (k - 1 - j)) := by
  induction k generalizing j with
  | zero => simp
  | succ k ih =>
    rw [List.range_succ, List.foldl_append]
    cases j with
    | zero => simp [Nat.testBit_eq_decide_div_mod_eq]
    | succ j =>
      have half (r b : Nat) : (2 * r + b % 2) / 2 = r := by omega
      rw [List.foldl_cons, List.foldl_nil, Nat.testBit_succ, half, ih, Nat.add_sub_cancel, Nat.sub_sub, Nat.add_comm 1 j]
      simp

theorem bitReverse_toNat : bitReverse n x.toNat = x.reverse.toNat := by
  apply Nat.eq_of_testBit_eq
  intro j
  rw [bitReverse, testBit_foldl_reverse, ← BitVec.getLsbD, ← BitVec.getLsbD, BitVec.getLsbD_reverse, BitVec.getMsbD]

end

/-! Bit fields (R267, R268) -/

section
variable {n : Nat} (x y desc : BitVec n)

theorem fieldBits_toNat : fieldBits n desc.toNat = fieldAt n desc := by
  simp [fieldBits, fieldAt, BitVec.extractLsb'_toNat, Nat.shiftRight_eq_div_pow]

theorem fieldAt_fst : (fieldAt n desc).1 = desc.toNat % 256 := by
  rw [← fieldBits_toNat]; rfl

theorem fieldAt_length : (fieldAt n desc).2 = min (desc.toNat % 256 + desc.toNat / 256 % 256) n - desc.toNat % 256 := by
  rw [← fieldBits_toNat]; rfl

/-- The test of an empty field. -/
theorem emptyField_iff : (decide (desc.toNat / 256 % 256 = 0) || decide (n ≤ (fieldAt n desc).1)) = true ↔
    (fieldAt n desc).2 = 0 := by
  rw [fieldAt_fst, fieldAt_length]
  simp only [Bool.or_eq_true, decide_eq_true_eq]
  omega

theorem field_of_length_zero {t : Ty} (empty : (fieldAt n desc).2 = 0) : field t x desc = 0#n := by
  unfold field
  generalize (fieldAt n desc).2 = k at *
  subst empty
  split <;> simp [BitVec.of_length_zero, BitVec.signExtend]

theorem bitExtract_toNat {t : Ty} (width : Ty.ibits t = n) : bitExtract t x.toNat desc.toNat = (field t x desc).toNat := by
  rw [bitExtract, width, fieldBits_toNat]
  dsimp only
  split
  · next empty => rw [field_of_length_zero x desc ((emptyField_iff desc).1 empty), BitVec.toNat_zero]
  · have bits : x.toNat % 2 ^ n / 2 ^ (fieldAt n desc).1 % 2 ^ (fieldAt n desc).2 =
        (x.extractLsb' (fieldAt n desc).1 (fieldAt n desc).2).toNat := by
      rw [Nat.mod_eq_of_lt x.isLt, BitVec.extractLsb'_toNat, Nat.shiftRight_eq_div_pow]
    have short : (fieldAt n desc).2 ≤ n := by rw [fieldAt_length]; omega
    rw [bits, field]
    split
    · rw [toInt_toNat, ofInt_eq, BitVec.signExtend]
    · rw [BitVec.toNat_setWidth_of_le short]

/-- The bits from q on of a number give way to the k lowest bits of another. -/
theorem bitsPut_toNat {q k : Nat} (inside : q + k ≤ n) :
    x.toNat % 2 ^ q + y.toNat % 2 ^ k * 2 ^ q + x.toNat / 2 ^ (q + k) * 2 ^ (q + k) =
      (x &&& ~~~((BitVec.allOnes k).setWidth n <<< q) ||| y <<< q &&& (BitVec.allOnes k).setWidth n <<< q).toNat := by
  have parts : x.toNat % 2 ^ q + y.toNat % 2 ^ k * 2 ^ q + x.toNat / 2 ^ (q + k) * 2 ^ (q + k) =
      2 ^ q * (2 ^ k * (x.toNat / 2 ^ (q + k)) + y.toNat % 2 ^ k) + x.toNat % 2 ^ q := by ring
  apply Nat.eq_of_testBit_eq
  intro j
  rw [parts, Nat.testBit_two_pow_mul_add _ (Nat.mod_lt _ (by positivity)),
    Nat.testBit_two_pow_mul_add _ (Nat.mod_lt _ (by positivity)), ← BitVec.getLsbD]
  rcases lt_or_ge j q with below | above
  · simp [below, BitVec.testBit_toNat, show j < n by omega]
  rcases lt_or_ge (j - q) k with taken | beyond
  · simp [above.not_gt, taken, BitVec.testBit_toNat, show j < n by omega, show j - q < n by omega]
  · rw [if_neg above.not_gt, if_neg beyond.not_gt, Nat.testBit_div_two_pow, show j - q - k + (q + k) = j by omega,
      BitVec.testBit_toNat]
    rcases lt_or_ge j n with inner | outer
    · simp [inner, beyond.not_gt]
    · simp [outer]

theorem bitInsert_toNat : bitInsert n x.toNat y.toNat desc.toNat = (inserted x y desc).toNat := by
  rw [bitInsert, fieldBits_toNat, Nat.mod_eq_of_lt x.isLt]
  dsimp only [inserted]
  split
  · next empty =>
    have length : (fieldAt n desc).2 = 0 := (emptyField_iff desc).1 empty
    rw [length]
    simp
  · next filled =>
    have inside : (fieldAt n desc).1 + (fieldAt n desc).2 ≤ n := by
      have nonempty := mt (emptyField_iff desc).2 filled
      rw [fieldAt_length] at nonempty
      rw [fieldAt_fst, fieldAt_length]
      omega
    rw [bitsPut_toNat x y inside]

/-- A value above the lowest p bits of another. -/
theorem setHigh_toNat {p r w : Nat} (v : BitVec w) (room : p + r = n) :
    ((x.extractLsb' 0 p).setWidth n ||| (v.setWidth n <<< p)).toNat = x.toNat % 2 ^ p + v.toNat % 2 ^ r * 2 ^ p := by
  apply Nat.eq_of_testBit_eq
  intro j
  rw [Nat.add_comm, Nat.mul_comm, Nat.testBit_two_pow_mul_add _ (Nat.mod_lt _ (by positivity)), ← BitVec.getLsbD]
  rcases lt_or_ge j p with below | above
  · simp [below, BitVec.testBit_toNat, show j < n by omega]
  · have top : (decide (j < n) && decide (j - p < n)) = decide (j - p < r) := by
      rw [← Bool.decide_and, decide_eq_decide]; omega
    simp [above, above.not_gt, BitVec.testBit_toNat, ← top, Bool.and_assoc]

end

theorem movhiOf_toNat {t : Ty} {hi52 : Bool} (imm : BitVec 26) (wide : hi52 = true → Ty.w t = 64) (x : BitVec (Ty.w t)) :
    movhiOf t hi52 imm x.toNat = (withHigh t hi52 imm x).toNat := by
  unfold movhiOf withHigh
  split
  · next high => rw [setHigh_toNat (r := 12) x imm (wide high).symm]
  · split
    · next long =>
      rw [setHigh_toNat (r := 38) x imm long.symm, Nat.mod_eq_of_lt (Nat.lt_trans imm.isLt (by decide))]
    · next short => rw [setHigh_toNat (r := 6) x imm ((w_cases t).resolve_right short).symm]

end Sys2Proof.Machine

/-! SUPPORT. What the integer words compute from their operands, and the statements about them. -/

namespace Sys2Proof.Machine

/-! Conditions and immediates (R268 to R270) -/

theorem code3_cases : ∀ c : BitVec 3, c = 0 ∨ c = 1 ∨ c = 2 ∨ c = 3 ∨ c = 4 ∨ c = 5 ∨ c = 6 ∨ c = 7 := by decide

theorem immOf_eq {t : Ty} (width : Ty.ibits t = Ty.w t) (imm : BitVec 26) : immOf t imm = (immBits t imm).toNat := by
  rw [immOf, width, ofInt_eq, immBits, BitVec.signExtend]

theorem condInt_toNat {t : Ty} {n : Nat} (width : Ty.ibits t = n) (cc : BitVec 3) (x y : BitVec n) :
    condInt t cc x.toNat y.toNat = meets t cc x y := by
  have equal : (numOf t x == numOf t y) = (x == y) := by
    rw [beq_eq_beq]
    exact ⟨fun same => by rw [← ofInt_numOf_self t x, same, ofInt_numOf_self], fun same => by rw [same]⟩
  have below (x y : BitVec n) : decide (numOf t x < numOf t y) = less t x y := by
    rw [← Bool.decide_coe (less t x y), decide_eq_decide, less_iff_numOf]
  have atMost (x y : BitVec n) : decide (numOf t x ≤ numOf t y) = !less t y x := by
    rw [← below, ← decide_not, decide_eq_decide, not_lt]
  unfold condInt
  rw [int_toNat width, int_toNat width]
  rcases code3_cases cc with rfl | rfl | rfl | rfl | rfl | rfl | rfl | rfl
  · exact equal
  · exact congrArg (!·) equal
  · exact below x y
  · exact atMost x y
  · exact below y x
  all_goals exact atMost y x

theorem shiftLeft_eq_mul_pow {n : Nat} (x : BitVec n) (c : Nat) : x <<< c = x * 2#n ^ c := by
  apply BitVec.eq_of_toNat_eq
  rw [BitVec.toNat_shiftLeft, BitVec.toNat_mul, BitVec.toNat_pow, BitVec.toNat_ofNat, Nat.shiftLeft_eq, Nat.mul_mod,
    Nat.pow_mod, Nat.mul_mod x.toNat (_ % _)]
  simp

/-! Operands and results of a type (R251) -/

theorem Rd.val_toNat {rd : Rd} (bound : ∀ k l, l < 32 → (rd k l 32).toNat < 2 ^ 32) (t : Ty) (k : Nat) {l : Nat}
    (lane : l < 32) : (rd.val t k l).toNat = (rd k l (Ty.w t)).toNat := by
  rw [Rd.val, BitVec.toNat_ofNat]
  apply Nat.mod_eq_of_lt
  rcases w_cases t with short | long
  · rw [short]; exact bound k l lane
  · rw [long]; exact (rd k l 64).isLt

theorem Rd.val_eq_iff {rd : Rd} (bound : ∀ k l, l < 32 → (rd k l 32).toNat < 2 ^ 32) (t : Ty) (k : Nat) {j l : Nat}
    (lane : j < 32) (lane' : l < 32) : rd k j (Ty.w t) = rd k l (Ty.w t) ↔ rd.val t k j = rd.val t k l := by
  rw [← BitVec.toNat_inj, ← BitVec.toNat_inj, Rd.val_toNat bound t k lane, Rd.val_toNat bound t k lane']

theorem extendTo_toNat (sl : Slice) (t : Ty) (v : BitVec (Ty.w t)) : extendTo sl t v.toNat = regOf sl t v := by
  cases sl with
  | c => exact BitVec.ofNat_toNat 64 v
  | a =>
    unfold extendTo regOf
    dsimp only
    generalize width : Ty.w t = n at v
    rcases width ▸ w_cases t with rfl | rfl <;> simp

/-- A word whose meaning computes numbers that are bits of its type. -/
theorem computesBits_of {ins : Instr} {h : Head} {srcs : List Opd} {d : Opd} {t : Ty} {f : Issue → Rd → Nat → Nat}
    {g : Issue → Rd → Nat → BitVec (Ty.w t)}
    (e : ∀ s, exec ins s = word s fun i => s.lanewise i h srcs d (Ty.w t) fun _ rd l => extendTo i.ref.slice t (f i rd l))
    (value : ∀ i rd l, (∀ k, (rd k l (Ty.w t)).toNat = (rd.val t k l).toNat) → f i rd l = (g i rd l).toNat) :
    ComputesBits ins h srcs d t g :=
  (computes_of e).congr fun i _ rd bound l lane => by
    rw [value i rd l fun k => (Rd.val_toNat bound t k lane).symm, extendTo_toNat]

theorem computesBits_int1 {ins : Instr} {h : Head} {d a : Opd} {t : Ty} {f : Nat → Nat}
    {g : Issue → Rd → Nat → BitVec (Ty.w t)} (e : ∀ s, exec ins s = word s fun i => s.int1 i h t d a f)
    (value : ∀ i rd l, f (rd.val t 0 l).toNat = (g i rd l).toNat) : ComputesBits ins h [a] d t g :=
  computesBits_of e fun i rd l read => by rw [read]; exact value i rd l

theorem computesBits_int2 {ins : Instr} {h : Head} {d a b : Opd} {t : Ty} {f : Nat → Nat → Nat}
    {g : Issue → Rd → Nat → BitVec (Ty.w t)} (e : ∀ s, exec ins s = word s fun i => s.int2 i h t d a b f)
    (value : ∀ i rd l, f (rd.val t 0 l).toNat (rd.val t 1 l).toNat = (g i rd l).toNat) :
    ComputesBits ins h [a, b] d t g :=
  computesBits_of e fun i rd l read => by rw [read, read]; exact value i rd l

theorem computesBits_int3 {ins : Instr} {h : Head} {d a b c : Opd} {t : Ty} {f : Nat → Nat → Nat → Nat}
    {g : Issue → Rd → Nat → BitVec (Ty.w t)} (e : ∀ s, exec ins s = word s fun i => s.int3 i h t d a b c f)
    (value : ∀ i rd l, f (rd.val t 0 l).toNat (rd.val t 1 l).toNat (rd.val t 2 l).toNat = (g i rd l).toNat) :
    ComputesBits ins h [a, b, c] d t g :=
  computesBits_of e fun i rd l read => by rw [read, read, read]; exact value i rd l

/-! The statements -/

/-- Settles O1: the operands are read as numbers, and what is computed from them is brought into the type's bits. -/
theorem integerArithmetic : Obligations.IntegerArithmetic := by
  refine ⟨fun h t sat d a b c imm int4 => ?_, fun h t d a b int4 => ?_⟩
  · have width := ibits_of_isInt4 int4
    have num := @int_toNat t _ width
    have wraps := wrapSat_eq_fit width sat
    have imm_eq := immOf_eq width imm
    refine ⟨?add, ?addImm, ?sub, ?mul, ?mulImm, ?mulhi, ?mad, ?abs, ?neg, ?sad⟩
    case add => exact computesBits_int2 (fun _ => rfl) fun _ _ _ => by rw [intAdd, num, num, wraps]
    case addImm => exact computesBits_int1 (fun _ => rfl) fun _ _ _ => by rw [imm_eq, intAdd, num, num, wraps]
    case sub => exact computesBits_int2 (fun _ => rfl) fun _ _ _ => by rw [intSub, num, num, wraps]
    case mul => exact computesBits_int2 (fun _ => rfl) fun _ _ _ => intMul_toNat width _ _
    case mulImm => exact computesBits_int1 (fun _ => rfl) fun _ _ _ => by rw [imm_eq, intMul_toNat width]
    case mulhi => exact computesBits_int2 (fun _ => rfl) fun _ _ _ => intMulhi_toNat width _ _
    case mad => exact computesBits_int3 (fun _ => rfl) fun _ _ _ => intMad_toNat width _ _ _
    case abs => exact computesBits_int1 (fun _ => rfl) fun _ _ _ => by rw [intAbs, num, wraps]
    case neg => exact computesBits_int1 (fun _ => rfl) fun _ _ _ => by rw [intNeg, num, wraps]
    case sad => exact computesBits_int3 (fun _ => rfl) fun _ _ _ => intSad_toNat width _ _ _
  · have width := ibits_of_isInt4 int4
    refine ⟨?div, ?rem, ?min, ?max⟩
    case div => exact computesBits_int2 (fun _ => rfl) fun _ _ _ => intDiv_toNat width _ _
    case rem => exact computesBits_int2 (fun _ => rfl) fun _ _ _ => intRem_toNat width _ _
    case min => exact computesBits_int2 (fun _ => rfl) fun _ _ _ => intMin_toNat width _ _
    case max => exact computesBits_int2 (fun _ => rfl) fun _ _ _ => intMax_toNat width _ _

/-- Settles O2: the logic of numbers is that of their bits; `movhi` sets the bits above those it keeps, and `lea` multiplies by
shifting. -/
theorem movesAndLogic : Obligations.MovesAndLogic := by
  intro h t hi52 s d a b imm int4
  have width := ibits_of_isInt4 int4
  have imm_eq := immOf_eq width imm
  refine ⟨?mov, ?movImm, ?movhi, ?and, ?andImm, ?or, ?orImm, ?xor, ?xorImm, ?not, ?lea⟩
  case mov => exact computesBits_int1 (fun _ => rfl) fun _ _ _ => rfl
  case movImm => exact computesBits_of (fun _ => rfl) fun _ _ _ _ => imm_eq
  case movhi => exact fun _ wide => computesBits_int1 (fun _ => rfl) fun _ _ _ => movhiOf_toNat imm wide _
  case and => exact computesBits_int2 (fun _ => rfl) fun _ _ _ => (BitVec.toNat_and _ _).symm
  case andImm => exact computesBits_int1 (fun _ => rfl) fun _ _ _ => by rw [imm_eq]; exact (BitVec.toNat_and _ _).symm
  case or => exact computesBits_int2 (fun _ => rfl) fun _ _ _ => (BitVec.toNat_or _ _).symm
  case orImm => exact computesBits_int1 (fun _ => rfl) fun _ _ _ => by rw [imm_eq]; exact (BitVec.toNat_or _ _).symm
  case xor => exact computesBits_int2 (fun _ => rfl) fun _ _ _ => (BitVec.toNat_xor _ _).symm
  case xorImm => exact computesBits_int1 (fun _ => rfl) fun _ _ _ => by rw [imm_eq]; exact (BitVec.toNat_xor _ _).symm
  case not => exact computesBits_int1 (fun _ => rfl) fun _ _ _ => intNot_toNat width _
  case lea =>
    refine Computes.congr (computes_of fun _ => rfl) fun i m rd bound l lane => ?_
    rw [← Rd.val_toNat bound t 1 lane, extendTo_toNat, shiftLeft_eq_mul_pow]
    rfl

/-- Settles O3: each word by the lemma about its function of numbers. -/
theorem shiftsAndBits : Obligations.ShiftsAndBits := by
  intro h t d a b c imm int4
  have width := ibits_of_isInt4 int4
  refine ⟨?shl, ?shlImm, ?shr, ?shrImm, ?rot, ?popc, ?clz, ?brev, ?bfe, ?bfi⟩
  case shl => exact computesBits_int2 (fun _ => rfl) fun _ _ _ => by rw [width, shiftLeft_toNat]
  case shlImm => exact computesBits_int1 (fun _ => rfl) fun _ _ _ => by rw [width, shiftLeft_toNat]
  case shr => exact computesBits_int2 (fun _ => rfl) fun _ _ _ => shiftRight_toNat _ _ width
  case shrImm => exact computesBits_int1 (fun _ => rfl) fun _ _ _ => shiftRight_toNat _ _ width
  case rot => exact computesBits_int2 (fun _ => rfl) fun _ _ _ => by rw [width, rotateLeft_toNat _ _ (w_pos t)]
  case popc => exact computesBits_int1 (fun _ => rfl) fun _ _ _ => by rw [width, popcount_toNat]
  case clz => exact computesBits_int1 (fun _ => rfl) fun _ _ _ => by rw [width, leadingZeros_toNat _ (w_pos t)]
  case brev => exact computesBits_int1 (fun _ => rfl) fun _ _ _ => by rw [width, bitReverse_toNat]
  case bfe => exact computesBits_int2 (fun _ => rfl) fun _ _ _ => bitExtract_toNat _ _ width
  case bfi => exact computesBits_int3 (fun _ => rfl) fun _ _ _ => by rw [width, bitInsert_toNat]

/-- Settles O4: comparisons by the order of the operands' numbers; selection and predicate logic are the words' meanings. -/
theorem comparesAndPredicates : Obligations.ComparesAndPredicates := by
  intro h t cc dp ap bp d a b imm
  refine ⟨fun int4 _ => ⟨?cmp, ?cmpImm⟩, fun _ => ?sel, ?pand, ?por, ?pxor, ?pnot, fun _ _ => rfl⟩
  case cmp =>
    refine Decides.congr (decides_of fun _ => rfl) fun i m rd bound l mem => ?_
    rw [← Rd.val_toNat bound t 0 (lane_of_mem mem), ← Rd.val_toNat bound t 1 (lane_of_mem mem),
      condInt_toNat (ibits_of_isInt4 int4)]
  case cmpImm =>
    refine Decides.congr (decides_of fun _ => rfl) fun i m rd bound l mem => ?_
    rw [← Rd.val_toNat bound t 0 (lane_of_mem mem), immOf_eq (ibits_of_isInt4 int4),
      condInt_toNat (ibits_of_isInt4 int4)]
  case sel =>
    refine computesBits_of (fun _ => rfl) fun i rd l read => ?_
    rw [read]
    split <;> rfl
  case pand => exact decides_of fun _ => rfl
  case por => exact decides_of fun _ => rfl
  case pxor => exact decides_of fun _ => rfl
  case pnot => exact decides_of fun _ => rfl

end Sys2Proof.Machine

/-! SUPPORT. What shuffles, votes, scans, election and matching compute, and the statement about them. -/

namespace Sys2Proof.Machine

/-! Lanes of a mask -/

theorem mem_lanesOf {m : Mask} {l : Nat} : l ∈ lanesOf m ↔ l < 32 ∧ m.getLsbD l = true := by
  simp [lanesOf]

theorem maskBy_eq_iff {p q : Nat → Bool} : maskBy p = maskBy q ↔ ∀ l < 32, p l = q l := by
  refine ⟨fun same l lane => ?_, fun same => BitVec.eq_of_getLsbD_eq fun l lane => ?_⟩
  · rw [← maskBy_getLsbD lane p, same, maskBy_getLsbD lane]
  · rw [maskBy_getLsbD lane, maskBy_getLsbD lane, same l lane]

theorem maskBy_getLsbD_self (m : Mask) : maskBy m.getLsbD = m :=
  BitVec.eq_of_getLsbD_eq fun _ lane => maskBy_getLsbD lane _

/-- The lowest lane is the one with none below it. -/
theorem lowLane_beq_some {m : Mask} {l : Nat} (mem : l ∈ lanesOf m) :
    (lowLane m == some l) = (List.range l).all fun j => !m.getLsbD j := by
  obtain ⟨lane, active⟩ := mem_lanesOf.1 mem
  rw [Bool.eq_iff_iff, beq_iff_eq, lowLane, List.find?_range_eq_some]
  simp [lane, active]

/-! Votes (R277) -/

theorem ballot_eq_maskBy (x : SliceState) (m : Mask) (p : BitVec 3) :
    x.ballot m p = maskBy fun l => m.getLsbD l && x.pred p.toNat l := maskOf_eq_maskBy _

theorem ballot_ne_zero (x : SliceState) (m : Mask) (p : BitVec 3) :
    (x.ballot m p != 0) = (lanesOf m).any fun l => x.pred p.toNat l := by
  have none : maskBy (fun _ => false) = 0 := by decide
  rw [ballot_eq_maskBy, ← none, Bool.eq_iff_iff, bne_iff_ne, Ne, maskBy_eq_iff]
  simp [mem_lanesOf, and_assoc]

theorem ballot_eq_self (x : SliceState) (m : Mask) (p : BitVec 3) :
    (x.ballot m p == m) = (lanesOf m).all fun l => x.pred p.toNat l := by
  have own : x.ballot m p = m ↔ ∀ l < 32, (m.getLsbD l && x.pred p.toNat l) = m.getLsbD l := by
    have lanes := maskBy_eq_iff (p := fun l => m.getLsbD l && x.pred p.toNat l) (q := m.getLsbD)
    rwa [maskBy_getLsbD_self, ← ballot_eq_maskBy] at lanes
  rw [Bool.eq_iff_iff, beq_iff_eq, own]
  simp [mem_lanesOf]

/-! Scans (R278) -/

section
variable {t : Ty} (op : BitVec 3)

theorem scanOp_toNat {n : Nat} (width : Ty.ibits t = n) (x y : BitVec n) :
    scanOp op t x.toNat y.toNat = (combined t op x y).toNat := by
  rcases code3_cases op with rfl | rfl | rfl | rfl | rfl | rfl | rfl | rfl
  · exact intAdd_toNat width x y
  · exact intMin_toNat width x y
  · exact intMax_toNat width x y
  · exact (BitVec.toNat_and x y).symm
  · exact (BitVec.toNat_or x y).symm
  all_goals exact (BitVec.toNat_xor x y).symm

theorem scanUnit_eq (int4 : t.isInt4 = true) : scanUnit op t = (unitOf t op).toNat := by
  rcases code3_cases op with rfl | rfl | rfl | rfl | rfl | rfl | rfl | rfl
  · rfl
  · match t, int4 with
    | .z32, _ | .i32, _ | .z64, _ | .i64, _ => rfl
  · match t, int4 with
    | .z32, _ | .i32, _ | .z64, _ | .i64, _ => rfl
  · show 2 ^ Ty.ibits t - 1 = (BitVec.allOnes (Ty.w t)).toNat
    rw [BitVec.toNat_allOnes, ibits_of_isInt4 int4]
  all_goals rfl

theorem scanOver_eq (int4 : t.isInt4 = true) (m : Mask) {val : Nat → Nat} {v : Nat → BitVec (Ty.w t)}
    (same : ∀ l < 32, val l = (v l).toNat) (p : Nat → Bool) :
    scanOver op t m val p = (combination t op m v p).toNat := by
  have lanes : ∀ (acc : Nat), ∀ l ∈ (lanesOf m).filter p, scanOp op t acc (val l) = scanOp op t acc (v l).toNat :=
    fun acc l mem => by rw [same l (lane_of_mem (List.mem_filter.1 mem).1)]
  rw [scanOver, List.foldl_ext _ _ _ lanes, scanUnit_eq op int4, combination]
  exact List.foldl_hom BitVec.toNat fun acc l => scanOp_toNat op (ibits_of_isInt4 int4) acc (v l)

end

/-! Shuffles (R276) -/

/-- The source lane of a shuffle, where it is valid. -/
def validLane (source : Nat × Bool) : Option Nat := if source.2 then some source.1 else none

theorem validLane_any (p : Nat → Bool) (source : Nat × Bool) : (validLane source).any p = (source.2 && p source.1) := by
  obtain ⟨_, _ | _⟩ := source <;> rfl

theorem segment_base (w l : Nat) : l - l % w = l / w * w := by
  have := Nat.div_add_mod' l w
  omega

theorem idxLane_eq (w l e : Nat) : idxLane w l e = validLane (shflLane 0 w l e) := by
  rw [idxLane, ← segment_base]; rfl

theorem upLane_eq (w l e : Nat) : upLane w l e = validLane (shflLane 1 w l e) := by
  have below := Nat.mod_le l w
  have within : e ≤ l % w ↔ l - l % w + e ≤ l := by omega
  simp only [upLane, validLane, shflLane, within, decide_eq_true_eq]

theorem downLane_eq (w l e : Nat) : downLane w l e = validLane (shflLane 2 w l e) := by
  have below := Nat.mod_le l w
  have within : l % w + e < w ↔ l + e < l - l % w + w := by omega
  simp only [downLane, validLane, shflLane, within, decide_eq_true_eq]

theorem xorLane_eq (w l e : Nat) : xorLane w l e = validLane (shflLane 3 w l e) := by
  have own : l - (l - l % w) = l % w := Nat.sub_sub_self (Nat.mod_le l w)
  show some (l / w * w + (l % w ^^^ e % w)) = some (l - l % w + (l - (l - l % w) ^^^ e % w))
  rw [own, segment_base]

/-- A place within a segment is a lane. -/
theorem segment_lt {w l r : Nat} (divides : w ∣ 32) (lane : l < 32) (inner : r < w) : l / w * w + r < 32 := by
  obtain ⟨c, whole⟩ := divides
  have segment : l / w < c := Nat.div_lt_of_lt_mul (whole ▸ lane)
  calc l / w * w + r < (l / w + 1) * w := by rw [Nat.succ_mul]; omega
    _ ≤ c * w := Nat.mul_le_mul_right w segment
    _ = 32 := by rw [whole, Nat.mul_comm]

/-- The segments of R275 have a power of two of lanes. -/
theorem segment_width {seg : BitVec 3} (legal : seg.toNat < 5) : ∃ k, segWidth seg = 2 ^ k ∧ 2 ^ k ∣ 32 := by
  refine ⟨5 - seg.toNat, ?_, Nat.pow_dvd_pow 2 (by omega : 5 - seg.toNat ≤ 5)⟩
  exact Nat.pow_div (x := 2) (by omega : seg.toNat ≤ 5) (by decide)

theorem upLane_lt {w l e j : Nat} (lane : l < 32) (source : upLane w l e = some j) : j < 32 := by
  obtain ⟨_, same⟩ := Option.ite_none_right_eq_some.1 source
  have := Option.some.inj same
  omega

section
variable {k l e j : Nat} (divides : 2 ^ k ∣ 32) (lane : l < 32)
include divides lane

theorem idxLane_lt (source : idxLane (2 ^ k) l e = some j) : j < 32 := by
  obtain rfl := Option.some.inj source
  exact segment_lt divides lane (Nat.mod_lt e (Nat.two_pow_pos k))

theorem downLane_lt (source : downLane (2 ^ k) l e = some j) : j < 32 := by
  obtain ⟨⟨_, inner⟩, same⟩ := Option.ite_none_right_eq_some.1 source
  have place := Nat.div_add_mod' l (2 ^ k)
  have below := segment_lt divides lane inner
  have := Option.some.inj same
  omega

theorem xorLane_lt (source : xorLane (2 ^ k) l e = some j) : j < 32 := by
  obtain rfl := Option.some.inj source
  exact segment_lt divides lane (Nat.xor_lt_two_pow (Nat.mod_lt l (Nat.two_pow_pos k)) (Nat.mod_lt e (Nat.two_pow_pos k)))

end

theorem Delivers.congr {ins : Instr} {h : Head} {srcs : List Opd} {d : Opd}
    {act act' : Issue → State → State → Mask → Rd → State} (c : Delivers ins h srcs d act)
    (e : ∀ i s t m rd, (∀ k l, l < 32 → (rd k l 32).toNat < 2 ^ 32) → act i s t m rd = act' i s t m rd) :
    Delivers ins h srcs d act' :=
  ⟨c.full, c.delivers.congr e⟩

/-- A word whose meaning is `shfl`, of a kind whose source lanes are those of a rule of R276. -/
theorem shuffles_of {ins : Instr} {kind : Nat} {h : Head} {t : Ty} {seg : BitVec 3} {d a b : Opd} {pd : Option (BitVec 3)}
    {lane : Nat → Nat → Nat → Option Nat} (legal : seg.toNat < 5)
    (e : ∀ s, exec ins s = word s fun i => s.shfl i kind h t seg d a b pd)
    (source : ∀ w l e, lane w l e = validLane (shflLane kind w l e))
    (inside : ∀ {k l e j}, 2 ^ k ∣ 32 → l < 32 → lane (2 ^ k) l e = some j → j < 32) :
    Machine.Shuffles ins h t seg d a b pd lane := by
  refine Delivers.congr (delivers_of e) fun i _ s m rd bound => ?_
  obtain ⟨k, width, divides⟩ := segment_width legal
  have isLane {l e j : Nat} : l < 32 → lane (segWidth seg) l e = some j → j < 32 := by rw [width]; exact inside divides
  have value {l : Nat} (lane : l < 32) :
      extendTo i.ref.slice t (rd 0 l (Ty.w t)).toNat = regOf i.ref.slice t (rd.val t 0 l) := by
    rw [← Rd.val_toNat bound t 0 lane, extendTo_toNat]
  have zero : extendTo i.ref.slice t (0 : Word).toNat = regOf i.ref.slice t (0 : BitVec (Ty.w t)) :=
    extendTo_toNat i.ref.slice t 0
  dsimp only
  congr 2
  · refine laneVals_congr fun l lane_l => ?_
    have read : lane (32 / 2 ^ seg.toNat) l (rd 1 l 32).toNat =
        validLane (shflLane kind (segWidth seg) l (rd 1 l 32).toNat) := source ..
    cases valid : (shflLane kind (segWidth seg) l (rd 1 l 32).toNat).2 with
    | false =>
      rw [validLane, if_neg (by rw [valid]; exact Bool.false_ne_true)] at read
      simp only [read]
      exact value lane_l
    | true =>
      rw [validLane, if_pos valid] at read
      have lane_j := isLane lane_l read
      simp only [read]
      generalize (shflLane kind (segWidth seg) l (rd 1 l 32).toNat).1 = j at lane_j
      generalize (i.wp.dead ||| i.active h.guard &&& ~~~m).getLsbD j = gone
      generalize ((Opd.queue? a).isSome && !m.getLsbD j) = unread
      cases gone with
      | true => exact zero
      | false =>
        cases unread with
        | true => exact zero
        | false => exact value lane_j
  · funext l
    rw [source, validLane_any, segWidth]

/-! The statement -/

/-- Settles O6: the shuffles by the source lanes of R276; the others lane by lane, the scans by the model's combinations, which
are those of bit vectors. -/
theorem shufflesVotesScans : Obligations.ShufflesVotesScans := by
  refine ⟨fun h t seg d a b pd _ legal => ?shuffles, fun h t op dp ap d a int4 _ => ?_⟩
  case shuffles =>
    exact ⟨shuffles_of legal (fun _ => rfl) idxLane_eq idxLane_lt,
      shuffles_of legal (fun _ => rfl) upLane_eq fun _ => upLane_lt,
      shuffles_of legal (fun _ => rfl) downLane_eq downLane_lt, shuffles_of legal (fun _ => rfl) xorLane_eq xorLane_lt⟩
  have scans (i : Issue) (m : Mask) {rd : Rd} (bound : ∀ k l, l < 32 → (rd k l 32).toNat < 2 ^ 32) (p : Nat → Bool) :
      extendTo i.ref.slice t (scanOver op t m (fun k => (rd 0 k (Ty.w t)).toNat) p) =
        regOf i.ref.slice t (combination t op m (fun k => rd.val t 0 k) p) := by
    rw [scanOver_eq op int4 m (fun l lane => (Rd.val_toNat bound t 0 lane).symm), extendTo_toNat]
  refine ⟨?any, ?all, ?ballot, ?scan, ?scanEx, ?wred, ?elect, ?equal⟩
  case any => exact Decides.congr (decides_of fun _ => rfl) fun i m _ _ _ _ => ballot_ne_zero i.sl m ap
  case all => exact Decides.congr (decides_of fun _ => rfl) fun i m _ _ _ _ => ballot_eq_self i.sl m ap
  case ballot => exact Computes.congr (computes_of fun _ => rfl) fun i m _ _ _ _ => by rw [ballot_eq_maskBy]
  case scan => exact Computes.congr (computes_of fun _ => rfl) fun i m _ bound _ _ => scans i m bound _
  case scanEx => exact Computes.congr (computes_of fun _ => rfl) fun i m _ bound _ _ => scans i m bound _
  case wred => exact Computes.congr (computes_of fun _ => rfl) fun i m _ bound _ _ => scans i m bound _
  case elect => exact Decides.congr (decides_of fun _ => rfl) fun _ _ _ _ _ mem => lowLane_beq_some mem
  case equal =>
    refine Computes.congr (computes_of fun _ => rfl) fun i m rd bound l lane => ?_
    rw [maskOf_eq_maskBy]
    refine congrArg _ (maskBy_eq_iff.2 fun j lane' => ?_)
    rw [beq_eq_beq.2 (Rd.val_eq_iff bound t 0 lane' lane)]

end Sys2Proof.Machine

/-! SUPPORT. What the cluster exchange does, and the statement about it. -/

namespace Sys2Proof.Machine

/-! The partner of an exchange (R280, R281) -/

/-- The team with which a word of a team exchanges under the offset m. -/
def State.exchangePartner (s : State) (tm : Team) (m : Nat) : Option Nat :=
  if tm.share then s.peer? tm (Nat.xor (tm.core % 4) m) else none

theorem State.exchangePartner_eq_none {s : State} {tm : Team} {m : Nat}
    (peerless : tm.share = false ∨ s.peer? tm (tm.core % 4 ^^^ m) = none) : s.exchangePartner tm m = none := by
  rcases peerless with unshared | absent
  · rw [State.exchangePartner, unshared, if_neg Bool.false_ne_true]
  · exact ite_eq_right_iff.2 fun _ => absent

theorem State.exchangePartner_eq_some {s : State} {tm : Team} {m pt : Nat} (share : tm.share = true)
    (peer : s.peer? tm (tm.core % 4 ^^^ m) = some pt) : s.exchangePartner tm m = some pt := by
  rw [State.exchangePartner, if_pos share]
  exact peer

/-- The oldest offer for m in the partner's slice. -/
def State.partnerOffer (s : State) (pt : Nat) (r : StreamRef) (m : Nat) : Option Offer :=
  ((s.team? pt).bind fun tm => tget? tm.warps r.warp).bind fun w => (w.slice r.slice).offer? m

/-- An exchange waits with its offer recorded. -/
def State.offerWaits (s : State) (i : Issue) (o : Offer) : State :=
  (s.modSlice i.ref.team i.ref.warp i.ref.slice fun x =>
    if x.offers.any fun z => z.split == i.ref.split then x else { x with offers := x.offers ++ [o] }).waitAt i
    (.exchange o.m)

/-! The three outcomes -/

theorem exec_xch {s : State} {i : Issue} (ready : s.Ready i) (h : Head) (t : Ty) (m : BitVec 2) (d a : Opd)
    (pd : Option (BitVec 3)) : exec (.xch h t m d a pd) s =
      .next (s.xch i ⟨m.toNat, i.ref.split, i.active h.guard, h.mark, t, d, a, pd⟩) :=
  word_ready ready fun i => s.xch i ⟨m.toNat, i.ref.split, i.active h.guard, h.mark, t, d, a, pd⟩

section
variable {s : State} {i : Issue} {o : Offer}

/-- Without SHARE or a partner team an exchange that waits goes on waiting, and one that issues traps. -/
theorem State.xch_peerless (alone : s.exchangePartner i.tm o.m = none) :
    s.xch i o = if i.sp.wait == .exchange o.m then s else s.decodeTrap i 1 0x07 0 := by
  rw [State.exchangePartner] at alone
  unfold State.xch
  simp only [alone]

variable {pt : Nat} {w : Warp} {es : List QEntry} {died : Mask} (partner : s.exchangePartner i.tm o.m = some pt)
  (room : i.pushWait o.d = none)
  (pops : i.wp.pops o.mask (if o.mask = 0 then [] else (Opd.queue? o.a).toList) = .ok w es died)
include partner room pops

/-- The first of a pair waits with its offer. -/
theorem State.xch_first (unmet : s.partnerOffer pt i.ref o.m = none) : s.xch i o = s.offerWaits i o := by
  rw [State.exchangePartner] at partner
  rw [State.partnerOffer] at unmet
  unfold State.xch
  simp only [partner, room, pops, unmet]
  rfl

/-- The second of a pair completes both sides. -/
theorem State.xch_second {po : Offer} {j : Issue} {s1 s2 : State} {x y : Side}
    (met : s.partnerOffer pt i.ref o.m = some po) (own : i.sl.offer? o.m = none)
    (issued : s.issue? ⟨pt, i.ref.warp, i.ref.slice, po.split⟩ = some j) (partnerRoom : j.pushWait po.d = none)
    (reads : s.side i.ref o.mask o.ty o.a = some (s1, x))
    (partnerReads : s1.side ⟨pt, i.ref.warp, i.ref.slice, po.split⟩ po.mask po.ty po.a = some (s2, y)) :
    s.xch i o = ((s2.sideDone x y o).sideDone y x po).reapAll := by
  rw [State.exchangePartner] at partner
  rw [State.partnerOffer] at met
  unfold State.xch
  simp only [partner, room, pops, met, own, issued, reads, partnerReads, Option.any_none, Option.any_some, partnerRoom,
    Option.isNone_none, Bool.not_true, Bool.or_self, Bool.false_eq_true, if_false]

end

/-- Settles O7: `State.xch` by its partner, and with one by the partner's offer. -/
theorem clusterExchange : Obligations.ClusterExchange := by
  intro h t m d a pd s i ready o
  rw [exec_xch ready]
  refine ⟨fun peerless => ?alone, fun pt w es died share peer room pops => ?paired⟩
  case alone =>
    have outcome := State.xch_peerless (o := o) (State.exchangePartner_eq_none peerless)
    exact ⟨fun issues => by rw [outcome, if_neg (by simpa using issues)],
      fun waits => by rw [outcome, if_pos (by simpa using waits)]⟩
  case paired =>
    have partner : s.exchangePartner i.tm o.m = some pt := State.exchangePartner_eq_some share peer
    exact ⟨fun unmet => congrArg _ (State.xch_first partner room pops unmet),
      fun po j s1 s2 x y met own issued partnerRoom reads partnerReads =>
        congrArg _ (State.xch_second partner room pops met own issued partnerRoom reads partnerReads)⟩

end Sys2Proof.Machine

/-! SUPPORT. The floating-point words: what they read, compute, flag and trap, and the statements about them. -/

namespace Sys2Proof.Machine

/-! Words that compute values and exceptions (R289, R293, R297) -/

/-- What a word does once its lanes' values and exceptions `rs` stand: `s` and `t` are the states before and after its pops. -/
def Issue.fpEnd (i : Issue) (mark : Bool) (draws : Nat) (mk : List (Nat × Word) → List Write) (s t : State) (m : Mask)
    (rs : List (Nat × Word × Fl)) : State :=
  match trapOf i.sp.fmt rs with
  | some (sub, lanes) =>
    (s.modSlice i.ref.team i.ref.warp i.ref.slice fun x => (flagWrites rs).foldl SliceState.put x).raiseAt i
      { Trap.ofWord i 8 sub (lanes.setWidth 64) with lanes := lanes }
  | none =>
    ((t.modSlice i.ref.team i.ref.warp i.ref.slice (·.drew m draws)).results i
      (mk (rs.map fun r => (r.1, r.2.1)) ++ flagWrites rs)).advance i mark

theorem State.fpWord_active {i : Issue} {h : Head} (active : i.active h.guard ≠ 0) (s : State) (srcs : List Opd)
    (draws : Nat) (mk : List (Nat × Word) → List Write) (g : Mask → Rd → Nat → Word × Fl) :
    s.fpWord i h srcs draws mk g = s.withSources i (i.active h.guard) srcs fun s t m rd =>
      i.fpEnd h.mark draws mk s t m ((lanesOf m).map fun l => (l, g m rd l)) := by
  rw [State.fpWord, if_neg active]
  simp only [fpTrap_eq_trapOf]
  rfl

/-- A word whose meaning is `fpWord`. -/
theorem floatActs_of {ins : Instr} {h : Head} {srcs : List Opd} {draws : Issue → Nat}
    {mk : Issue → List (Nat × Word) → List Write} {f : Issue → Mask → Rd → Nat → Nat × Fl}
    {g : Issue → Mask → Rd → Nat → Word × Fl}
    (meaning : ∀ s, exec ins s = word s fun i => s.fpWord i h srcs (draws i) (mk i) (g i))
    (value : ∀ i m rd, (∀ k l, l < 32 → (rd k l 32).toNat < 2 ^ 32) → ∀ l < 32, g i m rd l = fpOut (f i m rd l)) :
    FloatActs ins h srcs draws mk f := by
  refine WordActs.congr (wordActs_of
    (act := fun i s t m rd => i.fpEnd h.mark (draws i) (mk i) s t m ((lanesOf m).map fun l => (l, g i m rd l)))
    (fun s i ready idle => ?idle) fun s i ready active _ => ?active) fun i s t m rd bound => ?congr
  case idle => rw [meaning, word_ready ready, State.fpWord, if_pos idle]
  case active => rw [meaning, word_ready ready, State.fpWord_active active]
  case congr =>
    have lanes : ((lanesOf m).map fun l => (l, g i m rd l)) =
        (lanesOf m).map fun l => (l, BitVec.ofNat 64 (f i m rd l).1, (f i m rd l).2) :=
      List.map_congr_left fun l mem => by rw [value i m rd bound l (lane_of_mem mem)]; rfl
    rw [lanes]
    rfl

/-- A source of a floating type is read at the width of its element (R297). -/
theorem fpCode_eq_bits (rd : Rd) (t : Ty) (k l : Nat) : fpCode t (rd k l (Ty.w t)) = Rd.bits rd t k l := by
  cases t <;> rfl

section
variable {ins : Instr} {h : Head} {t : Ty} {d a b c : Opd} {w : Nat} {g : Issue → Rd → Nat → Nat × Fl}
  (width : Ty.w t = w)
include width

/-- A word of one source of a floating type. -/
theorem floatComputes_fp1 {f : Issue → Nat → Nat × Fl} (meaning : ∀ s, exec ins s = word s fun i => s.fp1 i h t d a (f i))
    (value : ∀ i rd l, l < 32 → (rd 0 l w).toNat < 2 ^ w → f i (Rd.bits rd t 0 l) = g i rd l) :
    FloatComputes ins h [a] d w g := by
  subst width
  refine floatActs_of meaning fun i m rd bound l lane => ?_
  rw [fpCode_eq_bits, value i rd l lane]
  obtain short | long := w_cases t
  · rw [short]; exact bound 0 l lane
  · rw [long]; exact (rd 0 l 64).isLt

/-- A word of two sources of a floating type. -/
theorem floatComputes_fp2 {f : Issue → Nat → Nat → Nat × Fl}
    (meaning : ∀ s, exec ins s = word s fun i => s.fp2 i h t d a b (f i))
    (value : ∀ i rd l, f i (Rd.bits rd t 0 l) (Rd.bits rd t 1 l) = g i rd l) : FloatComputes ins h [a, b] d w g := by
  subst width
  refine floatActs_of meaning fun i m rd _ l _ => ?_
  rw [fpCode_eq_bits, fpCode_eq_bits, value]

/-- A word of three sources of a floating type. -/
theorem floatComputes_fp3 {f : Issue → Nat → Nat → Nat → Nat × Fl}
    (meaning : ∀ s, exec ins s = word s fun i => s.fp3 i h t d a b c (f i))
    (value : ∀ i rd l, f i (Rd.bits rd t 0 l) (Rd.bits rd t 1 l) (Rd.bits rd t 2 l) = g i rd l) :
    FloatComputes ins h [a, b, c] d w g := by
  subst width
  refine floatActs_of meaning fun i m rd _ l _ => ?_
  rw [fpCode_eq_bits, fpCode_eq_bits, fpCode_eq_bits, value]

end

/-- The mode of an arithmetic word: `.dyn` takes RM, and STOCH reads as RNE (R297). -/
theorem arithMode_eq_modeOf (i : Issue) (rm : BitVec 3) : arithMode i.sp.fmt rm = modeOf i rm := by
  have stoch : fmtRM i.sp.fmt = 4 ↔ i.sp.fmt.extractLsb' 15 3 = 4#3 := by rw [← BitVec.toNat_inj]; rfl
  simp only [arithMode, modeOf, stoch]
  rfl

/-! Pairs of 16-bit elements (R297, R299) -/

theorem w_of_isPair {t : Ty} (pair : t.isPair = true) : Ty.w t = 32 :=
  match t, pair with
  | .f16x2, _ | .bf16x2, _ => rfl

theorem bits_of_isPair {t : Ty} (pair : t.isPair = true) (rd : Rd) (k l : Nat) : Rd.bits rd t k l = (rd k l 32).toNat :=
  match t, pair with
  | .f16x2, _ | .bf16x2, _ => rfl

theorem Rd.half_zero (rd : Rd) (t : Ty) (k l : Nat) : rd.half t k l 0 = (Ty.fmt t).val ((rd k l 32).toNat % 65536) := by
  rw [Rd.half, Nat.pow_zero, Nat.div_one]

theorem Rd.half_one (rd : Rd) (t : Ty) (k l : Nat) :
    rd.half t k l 1 = (Ty.fmt t).val ((rd k l 32).toNat / 65536 % 65536) := by
  rw [Rd.half, Nat.pow_one]

/-- Settles O12: each word by its sources' values under the word's mode; a pair's words by both elements of each source. -/
theorem floatArithmetic : Obligations.FloatArithmetic := by
  intro h t rm d a b c
  have mode := fun i => arithMode_eq_modeOf i rm
  refine ⟨fun _ => ⟨?fadd, ?fsub, ?fmul, ?ffma, ?fdiv, ?fsqrt, ?frnd, ?fscale⟩, fun pair => ?pairs⟩
  case fadd => exact floatComputes_fp2 rfl (fun _ => rfl) fun _ _ _ => by rw [mode]; rfl
  case fsub => exact floatComputes_fp2 rfl (fun _ => rfl) fun _ _ _ => by rw [mode]; rfl
  case fmul => exact floatComputes_fp2 rfl (fun _ => rfl) fun _ _ _ => by rw [mode]; rfl
  case ffma => exact floatComputes_fp3 rfl (fun _ => rfl) fun _ _ _ => by rw [mode]; rfl
  case fdiv => exact floatComputes_fp2 rfl (fun _ => rfl) fun _ _ _ => by rw [mode]; rfl
  case fsqrt => exact floatComputes_fp1 rfl (fun _ => rfl) fun _ _ _ _ _ => by rw [mode]; rfl
  case frnd => exact floatComputes_fp1 rfl (fun _ => rfl) fun _ _ _ _ _ => by rw [mode]; rfl
  case fscale =>
    refine floatActs_of (fun _ => rfl) fun i m rd bound l lane => ?_
    have exponent : toInt 32 (rd 1 l 32).toNat = ((rd 1 l 32).setWidth 32).toInt := by
      rw [← toInt_toNat, BitVec.toNat_setWidth, Nat.mod_eq_of_lt (bound 1 l lane)]
    rw [fpCode_eq_bits, mode, exponent]
    rfl
  case pairs =>
    have width := w_of_isPair pair
    have read := bits_of_isPair pair
    refine ⟨?fdot2, ?hadd2, ?hmul2, ?hfma2⟩
    case fdot2 =>
      exact floatComputes_fp3 width (fun _ => rfl) fun _ _ _ => by
        simp only [read, mode, dot2, Rd.half_zero, Rd.half_one]
    case hadd2 =>
      exact floatComputes_fp2 width (fun _ => rfl) fun _ _ _ => by
        simp only [read, mode, pairwise, both, Rd.half_zero, Rd.half_one]
    case hmul2 =>
      exact floatComputes_fp2 width (fun _ => rfl) fun _ _ _ => by
        simp only [read, mode, pairwise, both, Rd.half_zero, Rd.half_one]
    case hfma2 =>
      exact floatComputes_fp3 width (fun _ => rfl) fun _ _ _ => by
        simp only [read, mode, pairwise, both, Rd.half_zero, Rd.half_one]

end Sys2Proof.Machine

/-! SUPPORT. Signs, comparisons, minima and classes of floating-point values, and the statement about them. -/

namespace Sys2Proof.Machine

/-! Sign operations on the bits (R299) -/

/-- Clearing the top bit of n + 1 bits leaves the n below it. -/
theorem clearTop_eq_mod {n x : Nat} (bound : x < 2 ^ (n + 1)) :
    (if x / 2 ^ n % 2 = 1 then x - 2 ^ n else x) = x % 2 ^ n := by
  have parts := Nat.div_add_mod x (2 ^ n)
  have top : x / 2 ^ n < 2 := Nat.div_lt_of_lt_mul (by rwa [Nat.pow_succ] at bound)
  obtain clear | set := Nat.le_one_iff_eq_zero_or_eq_one.1 (Nat.lt_succ_iff.1 top)
  · rw [clear] at parts ⊢
    simpa using parts.symm
  · rw [set, Nat.mul_one] at parts
    rw [set]
    simp only [Nat.mod_succ, if_true]
    omega

/-- Inverting the top bit of n + 1 bits. -/
theorem flipTop_eq_xor {n x : Nat} (bound : x < 2 ^ (n + 1)) :
    (if x / 2 ^ n % 2 = 1 then x - 2 ^ n else x + 2 ^ n) = x ^^^ 2 ^ n := by
  have low : (x ^^^ 2 ^ n) % 2 ^ n = x % 2 ^ n := by simp [Nat.xor_mod_two_pow]
  have high : (x ^^^ 2 ^ n) / 2 ^ n = x / 2 ^ n ^^^ 1 := by simp [Nat.xor_div_two_pow]
  have parts := Nat.div_add_mod x (2 ^ n)
  have flipped := Nat.div_add_mod (x ^^^ 2 ^ n) (2 ^ n)
  have top : x / 2 ^ n < 2 := Nat.div_lt_of_lt_mul (by rwa [Nat.pow_succ] at bound)
  rw [low, high] at flipped
  obtain clear | set := Nat.le_one_iff_eq_zero_or_eq_one.1 (Nat.lt_succ_iff.1 top)
  · rw [clear] at parts flipped ⊢
    simp only [Nat.zero_mod, Nat.zero_ne_one, if_false, Nat.zero_xor, Nat.mul_one, Nat.mul_zero] at parts flipped ⊢
    omega
  · rw [set] at parts flipped ⊢
    simp only [Nat.mod_succ, if_true, Nat.xor_self, Nat.mul_one, Nat.mul_zero] at parts flipped ⊢
    omega

/-- The codes of a floating type, or of a pair, as a source gives them. -/
def Ty.codes (t : Ty) : Nat := if t = .f16 ∨ t = .bf16 then 65536 else 2 ^ Ty.w t

theorem Rd.bits_lt {rd : Rd} {t : Ty} {k l : Nat} (bound : (rd k l (Ty.w t)).toNat < 2 ^ Ty.w t) :
    rd.bits t k l < Ty.codes t := by
  unfold Rd.bits Ty.codes
  split
  · exact Nat.mod_lt _ (by decide)
  · exact bound

/-- The types of `fabs` and `fneg` (R299): their elements have 16, 32 or 64 bits. -/
theorem signTypes {t : Ty} (typed : t.isFloat = true ∨ t.isPair = true) :
    (t = .f16 ∨ t = .bf16) ∨ (t = .f16x2 ∨ t = .bf16x2) ∨ t = .f32 ∨ t = .f64 := by
  cases t <;> simp_all [Ty.isFloat, Sys2Proof.Ty.isPair]

theorem land_half {x m : Nat} (bound : x < 65536) (low : m % 65536 = 2 ^ 15 - 1) : Nat.land x m = x % 2 ^ 15 := by
  have short : x &&& m < 2 ^ 16 := Nat.lt_of_le_of_lt Nat.and_le_left bound
  calc Nat.land x m = (x &&& m) % 2 ^ 16 := (Nat.mod_eq_of_lt short).symm
    _ = x &&& (2 ^ 15 - 1) := by rw [Nat.and_mod_two_pow, Nat.mod_eq_of_lt bound, ← low]
    _ = x % 2 ^ 15 := Nat.and_two_pow_sub_one_eq_mod x 15

/-- R299: `fabs` clears the sign bits. -/
theorem signOp_abs {t : Ty} (typed : t.isFloat = true ∨ t.isPair = true) {x : Nat} (bound : x < Ty.codes t) :
    signOp t false x = Nat.land x (2 ^ Ty.w t - 1 - signMask t) := by
  have low : x % 65536 < 2 ^ (15 + 1) := Nat.mod_lt _ (by decide)
  have high : x / 65536 % 65536 < 2 ^ (15 + 1) := Nat.mod_lt _ (by decide)
  obtain (rfl | rfl) | (rfl | rfl) | rfl | rfl := signTypes typed
  case inl.inl | inl.inr =>
    exact (clearTop_eq_mod (n := 15) bound).trans (land_half bound rfl).symm
  case inr.inl.inl | inr.inl.inr =>
    have short : x / 65536 < 65536 := Nat.div_lt_of_lt_mul bound
    have lower : Nat.land x 0x7FFF7FFF % 2 ^ 16 = x % 65536 % 2 ^ 15 := by
      rw [← land_half (m := 0x7FFF) low rfl]; exact Nat.and_mod_two_pow
    have upper : Nat.land x 0x7FFF7FFF / 2 ^ 16 = x / 65536 % 65536 % 2 ^ 15 := by
      rw [← land_half (m := 0x7FFF) high rfl, Nat.mod_eq_of_lt short]; exact Nat.and_div_two_pow
    have parts := Nat.mod_add_div (Nat.land x 0x7FFF7FFF) (2 ^ 16)
    rw [lower, upper, ← clearTop_eq_mod low, ← clearTop_eq_mod high] at parts
    exact parts
  case inr.inr.inl => exact (clearTop_eq_mod (n := 31) bound).trans (Nat.and_two_pow_sub_one_eq_mod x 31).symm
  case inr.inr.inr => exact (clearTop_eq_mod (n := 63) bound).trans (Nat.and_two_pow_sub_one_eq_mod x 63).symm

/-- R299: `fneg` inverts the sign bits. -/
theorem signOp_neg {t : Ty} (typed : t.isFloat = true ∨ t.isPair = true) {x : Nat} (bound : x < Ty.codes t) :
    signOp t true x = x ^^^ signMask t := by
  have low : x % 65536 < 2 ^ (15 + 1) := Nat.mod_lt _ (by decide)
  have high : x / 65536 % 65536 < 2 ^ (15 + 1) := Nat.mod_lt _ (by decide)
  obtain (rfl | rfl) | (rfl | rfl) | rfl | rfl := signTypes typed
  case inl.inl | inl.inr => exact flipTop_eq_xor (n := 15) bound
  case inr.inl.inl | inr.inl.inr =>
    have short : x / 65536 < 65536 := Nat.div_lt_of_lt_mul bound
    have lower : (x ^^^ 0x80008000) % 2 ^ 16 = x % 65536 ^^^ 2 ^ 15 := Nat.xor_mod_two_pow
    have upper : (x ^^^ 0x80008000) / 2 ^ 16 = x / 65536 % 65536 ^^^ 2 ^ 15 := by
      rw [Nat.mod_eq_of_lt short]; exact Nat.xor_div_two_pow
    have parts := Nat.mod_add_div (x ^^^ 0x80008000) (2 ^ 16)
    rw [lower, upper, ← flipTop_eq_xor low, ← flipTop_eq_xor high] at parts
    exact parts
  case inr.inr.inl => exact flipTop_eq_xor (n := 31) bound
  case inr.inr.inr => exact flipTop_eq_xor (n := 63) bound

/-! The order of values (R300) -/

/-- The exact sum of two finite values. -/
theorem sumExact_fst (n1 : Bool) (m1 : Nat) (e1 : Int) (n2 : Bool) (m2 : Nat) (e2 : Int) :
    ((sumExact n1 m1 e1 n2 m2 e2).1 : Rat) * 2 ^ (min e1 e2) = ratOf (.fin n1 m1 e1) + ratOf (.fin n2 m2 e2) := by
  have scaled (neg : Bool) (m : Nat) {e q : Int} (le : q ≤ e) :
      (signed neg (m * 2 ^ (e - q).toNat) : Rat) * 2 ^ q = ratOf (.fin neg m e) := by
    have power : (2 : Rat) ^ (e - q).toNat * 2 ^ q = 2 ^ e := by
      rw [← zpow_natCast, ← zpow_add₀ (by norm_num), Int.toNat_of_nonneg (by omega), Int.sub_add_cancel]
    cases neg <;> simp [signed, ratOf, ← power, mul_assoc]
  rw [← scaled n1 m1 (min_le_left e1 e2), ← scaled n2 m2 (min_le_right e1 e2), ← add_mul]
  simp [sumExact]

theorem ratOf_not (neg : Bool) (m : Nat) (e : Int) : ratOf (.fin (!neg) m e) = -ratOf (.fin neg m e) := by
  cases neg <;> simp [ratOf]

theorem cmpVal_fin (n1 : Bool) (m1 : Nat) (e1 : Int) (n2 : Bool) (m2 : Nat) (e2 : Int) :
    (cmpVal (.fin n1 m1 e1) (.fin n2 m2 e2) : Rat) * 2 ^ (min e1 e2) =
      ratOf (.fin n1 m1 e1) - ratOf (.fin n2 m2 e2) := by
  rw [sub_eq_add_neg, ← ratOf_not]
  exact sumExact_fst ..

theorem cmpVal_neg_iff {x y : Val} (hx : x.isNan = false) (hy : y.isNan = false) : cmpVal x y < 0 ↔ before x y := by
  match x, y with
  | .inf a, .inf b => cases a <;> cases b <;> simp [cmpVal, before]
  | .inf a, .fin .. => cases a <;> simp [cmpVal, before]
  | .fin .., .inf b => cases b <;> simp [cmpVal, before]
  | .fin n1 m1 e1, .fin n2 m2 e2 =>
    have pos : (0 : Rat) < 2 ^ (min e1 e2) := zpow_pos (by norm_num) _
    show _ ↔ ratOf _ < ratOf _
    rw [← sub_neg (a := ratOf (.fin n1 m1 e1)), ← cmpVal_fin, ← Int.not_le, ← not_le (b := _ * _),
      mul_nonneg_iff_of_pos_right pos, Int.cast_nonneg_iff]

theorem cmpVal_pos_iff {x y : Val} (hx : x.isNan = false) (hy : y.isNan = false) : 0 < cmpVal x y ↔ before y x := by
  match x, y with
  | .inf a, .inf b => cases a <;> cases b <;> simp [cmpVal, before]
  | .inf a, .fin .. => cases a <;> simp [cmpVal, before]
  | .fin .., .inf b => cases b <;> simp [cmpVal, before]
  | .fin n1 m1 e1, .fin n2 m2 e2 =>
    have pos : (0 : Rat) < 2 ^ (min e1 e2) := zpow_pos (by norm_num) _
    show _ ↔ ratOf _ < ratOf _
    rw [← sub_pos (b := ratOf (.fin n2 m2 e2)), ← cmpVal_fin, mul_pos_iff_of_pos_right pos, Int.cast_pos]

/-- Settles O13: minima, maxima and classes are their words' meanings; signs by the bits of each element, and conditions by
the sign of the exact difference. -/
theorem floatComparisons : Obligations.FloatComparisons := by
  intro h t cc dp d a b
  refine ⟨fun _ => ⟨?fmin, ?fmax, ?fclass, ?fcmp⟩, fun typed => ⟨?fabs, ?fneg⟩, fun x y => ⟨fun ⟨hx, hy⟩ => ?ordered,
    fun nan => ?unordered, ?invalid⟩⟩
  case fmin => exact floatComputes_fp2 rfl (fun _ => rfl) fun _ _ _ => rfl
  case fmax => exact floatComputes_fp2 rfl (fun _ => rfl) fun _ _ _ => rfl
  case fclass => exact floatActs_of (fun _ => rfl) fun i m rd _ l _ => by rw [fpCode_eq_bits]
  case fcmp =>
    refine floatActs_of (fun _ => rfl) fun i m rd _ l _ => ?_
    dsimp only
    rw [fpCode_eq_bits, fpCode_eq_bits]
    cases holds : (fcond cc (Rd.float rd t 0 l) (Rd.float rd t 1 l)).1 <;> simp_all [Rd.float, fpOut]
  case fabs =>
    exact floatComputes_fp1 rfl (fun _ => rfl) fun _ rd l _ bound => by rw [signOp_abs typed (Rd.bits_lt bound)]
  case fneg =>
    exact floatComputes_fp1 rfl (fun _ => rfl) fun _ rd l _ bound => by rw [signOp_neg typed (Rd.bits_lt bound)]
  case ordered =>
    rw [← cmpVal_neg_iff hx hy, ← cmpVal_pos_iff hx hy]
    simp only [fcond, hx, hy]
    simp
    omega
  case unordered =>
    have un : (x.isNan || y.isNan) = true := by simpa using nan
    simp only [fcond, un]
    rcases code3_cases cc with rfl | rfl | rfl | rfl | rfl | rfl | rfl | rfl <;> rfl
  case invalid => simp [fcond]

end Sys2Proof.Machine

/-! SUPPORT. Rounding to units, the special operands of arithmetic and of the functions with an error bound, and the statements
about them. -/

namespace Sys2Proof.Machine

/-! Rounding to units (R287, R288) -/

theorem lt_two_pow_bitLen (m : Nat) : m < 2 ^ bitLen m := by
  unfold bitLen
  split
  · next zero => simp [zero]
  · exact Nat.lt_log2_self

theorem roundsUp_stoch (mode r : Nat) (neg : Bool) (k rem sh : Nat) :
    roundsUp (mode + 4) r neg k rem sh = decide (65536 ≤ rem * 65536 / 2 ^ sh + r) := rfl

section
variable {mode r m : Nat} {neg : Bool} {e q : Int}

theorem roundUnits_exact (coarse : q ≤ e) : roundUnits mode r neg m e q = (m * 2 ^ (e - q).toNat, false) := if_pos coarse

/-- A magnitude is rounded by its whole units and the remainder. A remainder far below the unit gives what the stand-in for it
gives, which no mode tells from it. -/
theorem roundUnits_fine (draw : r < 65536) (fine : e < q) :
    roundUnits mode r neg m e q =
      (m / 2 ^ (q - e).toNat + (if roundsUp mode r neg (m / 2 ^ (q - e).toNat) (m % 2 ^ (q - e).toNat) (q - e).toNat
        then 1 else 0), m % 2 ^ (q - e).toNat != 0) := by
  generalize sh : (q - e).toNat = k
  have near : roundUnits mode r neg m e q = if bitLen m + 20 < k then
      (if m = 0 then (0, false) else ((if roundsUp mode r neg 0 1 24 then 1 else 0), true))
    else (if roundsUp mode r neg (m / 2 ^ k) (m % 2 ^ k) k then m / 2 ^ k + 1 else m / 2 ^ k, m % 2 ^ k != 0) := by
    rw [← sh]; exact if_neg (not_le.2 fine)
  rw [near]
  split
  case isFalse => split <;> rfl
  case isTrue far =>
    have small : m * 2 ^ 20 < 2 ^ k :=
      calc m * 2 ^ 20 < 2 ^ bitLen m * 2 ^ 20 := by have := lt_two_pow_bitLen m; omega
        _ = 2 ^ (bitLen m + 20) := (Nat.pow_add ..).symm
        _ ≤ 2 ^ k := Nat.pow_le_pow_right (by decide) far.le
    have below : m < 2 ^ k := by omega
    rw [Nat.div_eq_of_lt below, Nat.mod_eq_of_lt below]
    by_cases zero : m = 0
    · subst zero
      have same : roundsUp mode r neg 0 0 k = false := by
        match mode with
        | 0 | 1 | 2 | 3 => simp [roundsUp]
        | mode + 4 =>
          rw [roundsUp_stoch, Nat.zero_mul, Nat.zero_div, Nat.zero_add, decide_eq_false_iff_not]
          exact not_le.2 draw
      simp [same]
    · have same : roundsUp mode r neg 0 1 24 = roundsUp mode r neg 0 m k := by
        have low : m * 65536 / 2 ^ k = 0 := 
          Nat.div_eq_of_lt (Nat.lt_of_le_of_lt (Nat.mul_le_mul_left m (by norm_num)) small)
        match mode with
        | 0 => simp [roundsUp]; omega
        | 1 => rfl
        | 2 | 3 => simp [roundsUp, zero]
        | mode + 4 => 
          have stand_in : 1 * 65536 / 2 ^ 24 = 0 := by norm_num
          rw [roundsUp_stoch, roundsUp_stoch, low, stand_in]
      simp [same, zero]

end

theorem ceil_div {m u : Nat} (pos : 0 < u) : (m + u - 1) / u = m / u + (if m % u != 0 then 1 else 0) := by
  have parts := Nat.div_add_mod m u
  have small := Nat.mod_lt m pos
  by_cases whole : m % u = 0
  · rw [if_neg (by simpa using whole)]
    refine Nat.div_eq_of_lt_le ?_ ?_ <;> rw [Nat.mul_comm] <;> simp only [Nat.add_zero, Nat.mul_succ] <;> omega
  · rw [if_pos (bne_iff_ne.2 whole)]
    refine Nat.div_eq_of_lt_le ?_ ?_ <;> rw [Nat.mul_comm] <;> simp only [Nat.mul_succ] <;> omega

/-- R287: RNE gives the nearer count of units, and of two that are equally near the even one. -/
theorem roundsUp_nearest {m u k : Nat} {sh r : Nat} {neg : Bool} (unit : u = 2 ^ sh)
    (rounded : k = m / u + if roundsUp 0 r neg (m / u) (m % u) sh then 1 else 0) :
    2 * (k * u - m) ≤ u ∧ 2 * (m - k * u) ≤ u ∧ (2 * (k * u - m) = u ∨ 2 * (m - k * u) = u → k % 2 = 0) := by
  have parts := Nat.div_add_mod' m u
  have small := Nat.mod_lt m (unit ▸ Nat.two_pow_pos sh : 0 < u)
  have up : roundsUp 0 r neg (m / u) (m % u) sh = true ↔ u < 2 * (m % u) ∨ 2 * (m % u) = u ∧ m / u % 2 = 1 := by
    simp [roundsUp, unit]
  simp only [up] at rounded
  generalize m / u = n at *
  generalize m % u = rem at *
  split at rounded
  · subst rounded
    rw [Nat.add_mul, Nat.one_mul]
    omega
  · subst rounded
    omega

/-- The units of every mode (R287, R288). -/
theorem roundUnits_spec {r m : Nat} {neg : Bool} {e q : Int} (draw : r < 65536) (fine : e < q) :
    let u := 2 ^ (q - e).toNat
    (∀ mode, (roundUnits mode r neg m e q).2 = decide (m % u ≠ 0)) ∧
    (∀ k, k = (roundUnits 0 r neg m e q).1 → 2 * (k * u - m) ≤ u ∧ 2 * (m - k * u) ≤ u ∧
      (2 * (k * u - m) = u ∨ 2 * (m - k * u) = u → k % 2 = 0)) ∧
    (roundUnits 1 r neg m e q).1 = m / u ∧
    (roundUnits 2 r neg m e q).1 = (if neg then m / u else (m + u - 1) / u) ∧
    (roundUnits 3 r neg m e q).1 = (if neg then (m + u - 1) / u else m / u) ∧
    (roundUnits 4 r neg m e q).1 = m / u + (if 65536 ≤ m % u * 65536 / u + r then 1 else 0) := by
  intro u
  have units (mode : Nat) := roundUnits_fine (mode := mode) (m := m) (neg := neg) draw fine
  have ceil := ceil_div (m := m) (Nat.two_pow_pos (q - e).toNat)
  refine ⟨fun mode => ?lost, fun k rounded => ?nearest, ?down, ?up, ?up', ?stoch⟩
  case lost => rw [units]; exact Bool.eq_iff_iff.2 (by rw [bne_iff_ne, decide_eq_true_eq])
  case nearest => exact roundsUp_nearest rfl (rounded.trans (congrArg Prod.fst (units 0)))
  case down => rw [units]; rfl
  case up => rw [units, ceil]; cases neg <;> rfl
  case up' => rw [units, ceil]; cases neg <;> rfl
  case stoch => rw [units]; simp only [roundsUp, decide_eq_true_eq]; rfl

/-! Special operands (R298) -/

section
variable {f : Fmt} {mode : Nat} {x y z : Val}

theorem Fmt.add_nan (nan : x.isNan = true ∨ y.isNan = true) : f.add mode x y = f.nan (x.isSig || y.isSig) := by
  cases x <;> cases y <;> simp_all [Fmt.add, Val.isNan, Val.isSig]

theorem mulVal_nan (nan : x.isNan = true ∨ y.isNan = true) : mulVal x y = (.nan false, x.isSig || y.isSig) := by
  cases x <;> cases y <;> simp_all [mulVal, Val.isNan, Val.isSig]

theorem Fmt.mul_nan (nan : x.isNan = true ∨ y.isNan = true) : f.mul mode x y = f.nan (x.isSig || y.isSig) := by
  rw [Fmt.mul, mulVal_nan nan]

theorem Fmt.div_nan (nan : x.isNan = true ∨ y.isNan = true) : f.div mode x y = f.nan (x.isSig || y.isSig) := by
  cases x <;> cases y <;> simp_all [Fmt.div, Val.isNan, Val.isSig]

theorem Fmt.fma_nan (nan : x.isNan = true ∨ y.isNan = true ∨ z.isNan = true) : (f.fma mode x y z).1 = f.nanCode := by
  have sum : (mulVal x y).1.isNan = true ∨ z.isNan = true := by
    obtain nan | nan | nan := nan
    · exact .inl (by rw [mulVal_nan (.inl nan)]; rfl)
    · exact .inl (by rw [mulVal_nan (.inr nan)]; rfl)
    · exact .inr nan
  show (f.add mode (mulVal x y).1 z).1 = _
  rw [Fmt.add_nan sum]
  rfl

end

/-- Settles O14: the units by the remainder's place, and the special operands by the kinds of value. -/
theorem roundingAndSpecialCases : Obligations.RoundingAndSpecialCases := by
  refine ⟨fun r m neg e q draw => ⟨fun coarse _ => roundUnits_exact coarse, roundUnits_spec draw⟩,
    fun f mode x y z a b m e => ⟨fun nan => ⟨Fmt.add_nan nan, Fmt.mul_nan nan, Fmt.div_nan nan⟩, ?sqrt, Fmt.fma_nan, ?add,
      ?mul, ?mul', ?fma, ?div, ?div', fun nonzero => ⟨?sqrt', ?div''⟩⟩⟩
  case sqrt =>
    intro nan
    match x, nan with
    | .nan sig, _ => rfl
  case add => cases a <;> rfl
  case mul | mul' | div | div' => rfl
  case fma => cases sig : z.isSig <;> cases z <;> simp_all [Fmt.fma, mulVal, Fmt.add, Fmt.nan, Val.isSig, flNV]
  case sqrt' => simp [Fmt.sqrt, nonzero, Fmt.nan]
  case div'' => simp [Fmt.div, nonzero]

end Sys2Proof.Machine

namespace Sys2Proof.Machine

/-! Functions with an error bound (R299, R301) -/

/-- Settles O15: each word by its source's bits and value, and the special results by the kinds of value. -/
theorem boundedFunctions : Obligations.BoundedFunctions := by
  intro h t d a
  refine ⟨fun _ => ⟨?frcp, ?frsqrt⟩, fun _ => ⟨?fexp2, ?flog2, ?fsin, ?fcos, ?ftanh⟩, fun f x m neg e => ?special⟩
  case frcp | frsqrt | fexp2 | flog2 | fsin | fcos | ftanh =>
    exact floatComputes_fp1 rfl (fun _ => rfl) fun _ _ _ _ _ => rfl
  case special =>
    refine ⟨rfl, rfl, rfl, rfl, rfl, rfl, rfl, rfl, fun nonzero => ⟨?rsqrt, ?log2⟩, fun _ => rfl, rfl, rfl, rfl⟩
    case rsqrt => simp [Fmt.rsqrt, nonzero, Fmt.nan]
    case log2 => simp [Fmt.log2, nonzero, Fmt.nan]

end Sys2Proof.Machine

/-! SUPPORT. Conversions, the sub-byte formats, MX blocks and the words of the format register, and the statements about
them. -/

namespace Sys2Proof.Machine

/-! Conversions (R289, R302 to R304) -/

theorem cvt_acts (h : Head) (dt : Ty) (sr : BitVec 4) (rm : BitVec 3) (isat : Bool) (d a : Opd) :
    FloatActs (.cvt h dt sr rm isat d a) h [a] (fun i => stochDraws (convOf i rm) 1) (fun i => regResult i d (Ty.w dt))
      (fun i _ rd l => convert dt sr (convOf i rm) (i.sl.draw l 0) isat (rd 0 l (cvtSrcW sr)).toNat) :=
  floatActs_of (fun _ => rfl) fun _ _ _ _ _ _ => rfl

theorem cvtPk_wide {fmt : BitVec 3} (wide : fmt = 1 ∨ fmt = 2) (h : Head) (hi : Bool) (rm : BitVec 3) (d a b c : Opd) :
    FloatActs (.cvtPk h fmt hi rm d a b c) h [a, b] (fun i => stochDraws (convOf i rm) 2) (fun i => regResult i d 32)
      (fun i _ rd l => both
        ((elemFmt fmt.toNat).convert (convOf i rm) (i.sl.draw l 0) (Fmt.f32.val (rd 0 l 32).toNat))
        ((elemFmt fmt.toNat).convert (convOf i rm) (i.sl.draw l 1) (Fmt.f32.val (rd 1 l 32).toNat))) := by
  obtain rfl | rfl := wide <;> exact floatActs_of (fun _ => rfl) fun _ _ _ _ _ _ => rfl

theorem cvtPk_byte {fmt : BitVec 3} (byte : fmt = 3 ∨ fmt = 4) (h : Head) (hi : Bool) (rm : BitVec 3) (d a b c : Opd) :
    FloatActs (.cvtPk h fmt hi rm d a b c) h [a, b, c] (fun i => stochDraws (convOf i rm) 2)
      (fun i => regResult i d 32) (fun i _ rd l =>
        let p := (elemFmt fmt.toNat).convert8 (i.sp.fmt.getLsbD 14) (convOf i rm) (i.sl.draw l 0)
          (Fmt.f32.val (rd 0 l 32).toNat)
        let q := (elemFmt fmt.toNat).convert8 (i.sp.fmt.getLsbD 14) (convOf i rm) (i.sl.draw l 1)
          (Fmt.f32.val (rd 1 l 32).toNat)
        let old := (rd 2 l 32).toNat
        (if hi then old % 65536 + 65536 * (p.1 + 256 * q.1) else old / 65536 * 65536 + (p.1 + 256 * q.1),
          p.2 ||| q.2)) := by
  obtain rfl | rfl := byte <;> exact floatActs_of (fun _ => rfl) fun _ _ _ _ _ _ => rfl

theorem cvtUnpk_computes (h : Head) (fmt idx : BitVec 3) (d a : Opd) :
    FloatComputes (.cvtUnpk h fmt idx d a) h [a] d 32 (fun _ rd l =>
      Fmt.f32.convert 0 0 ((elemFmt fmt.toNat).val (elemAt fmt idx.toNat (rd 0 l 32).toNat))) :=
  floatActs_of (fun _ => rfl) fun _ _ _ _ _ _ => rfl

/-- The codes of integer types are those whose source `cvt` reads as an integer. -/
theorem cvtSrcInt_of_isInt : ∀ {code : BitVec 4}, (Ty.ofCode code).isInt = true → cvtSrcInt code = true := by decide

section
variable {t : Ty} (int4 : t.isInt4 = true)
include int4

theorem isInt_of_isInt4 : t.isInt = true :=
  match t, int4 with
  | .z32, _ | .i32, _ | .z64, _ | .i64, _ => rfl

theorem lo_eq_leastOf : Ty.lo t = leastOf t := by
  simp only [Ty.lo, leastOf, ibits_of_isInt4 int4, Nat.cast_pow, Nat.cast_ofNat]

theorem hi_eq_greatestOf : Ty.hi t = greatestOf t := by
  simp only [Ty.hi, greatestOf, ibits_of_isInt4 int4, Nat.cast_pow, Nat.cast_ofNat]

theorem ofZ_eq_ofInt (z : Int) : Ty.ofZ t z = (BitVec.ofInt (Ty.w t) z).toNat := by
  have width : max 32 (Ty.ibits t) = Ty.w t := by
    rw [ibits_of_isInt4 int4]
    have := w_cases t
    omega
  rw [Ty.ofZ, width, ofInt_eq]

/-- A number in the type's range is itself; one beyond it is brought to the nearer end. -/
theorem fit_sat_eq (z : Int) : (fit t true z).toNat = Ty.ofZ t (max (leastOf t) (min (greatestOf t) z)) := by
  have width := ibits_of_isInt4 int4
  rw [← wrapSat_eq_fit width, wrapSat, if_pos rfl, clampTo_eq width, ofZ_eq_ofInt int4]

/-- R282, R302: between integers a number is wrapped to the type's bits, which its register then holds. -/
theorem convert_int {code : BitVec 4} (source : (Ty.ofCode code).isInt = true) (mode r : Nat) (isat : Bool) (x : Nat) :
    convert t code mode r isat x = (Ty.ofZ t (if isat then max (leastOf t) (min (greatestOf t) (Ty.int (Ty.ofCode code) x))
      else Ty.int (Ty.ofCode code) x), 0) := by
  have wrap (z : Int) : Ty.ofZ t (if Ty.signed t then toInt (Ty.ibits t) (ofInt (Ty.ibits t) z) else ofInt (Ty.ibits t) z) =
      Ty.ofZ t z := by
    rw [ibits_of_isInt4 int4, ofInt_eq, toInt_toNat, ofZ_eq_ofInt int4, ofZ_eq_ofInt int4]
    exact congrArg _ (ofInt_numOf_self t (BitVec.ofInt (Ty.w t) z))
  simp only [convert, cvtSrcInt_of_isInt source, isInt_of_isInt4 int4, if_true, wrap, lo_eq_leastOf int4,
    hi_eq_greatestOf int4]

/-- R302: a float that leaves the range once it is rounded is invalid and gives the nearer end. -/
theorem floatToInt_fin (mode r : Nat) (neg : Bool) (m : Nat) (e : Int) :
    floatToInt t mode r (.fin neg m e) =
      let z := signed neg (roundUnits mode r neg m e 0).1
      ((fit t true z).toNat, if z < leastOf t ∨ greatestOf t < z then flNV
        else if (roundUnits mode r neg m e 0).2 then flNX else 0) := by
  have order := leastOf_le_greatestOf t
  simp only [floatToInt, fit_sat_eq int4, lo_eq_leastOf int4, hi_eq_greatestOf int4]
  generalize signed neg (roundUnits mode r neg m e 0).1 = z
  by_cases below : z < leastOf t
  · rw [if_pos below, if_pos (.inl below), max_eq_left (by omega)]
  by_cases above : greatestOf t < z
  · rw [if_neg below, if_pos above, if_pos (.inr above), min_eq_left above.le, max_eq_right order]
  · rw [if_neg below, if_neg above, if_neg (not_or.2 ⟨below, above⟩), min_eq_right (not_lt.1 above),
      max_eq_right (not_lt.1 below)]

end

/-- Settles O16: the words by their meanings, and the conversions to integers by the ranges of their types. -/
theorem conversions : Obligations.Conversions := by
  refine ⟨fun h dt sr rm fmt idx isat hi d a b c => ⟨cvt_acts h dt sr rm isat d a, fun wide => cvtPk_wide wide h hi rm d a b c,
    fun byte => cvtPk_byte byte h hi rm d a b c, cvtUnpk_computes h fmt idx d a⟩, fun dt sty code mode r x int4 named source => ?int,
    fun t mode r v int4 => ?float⟩
  case int =>
    subst named
    rw [convert_int int4 source, convert_int int4 source, fit_sat_eq int4, ofZ_eq_ofInt int4]
    exact ⟨rfl, rfl⟩
  case float =>
    match v with
    | .nan _ => rfl
    | .inf neg =>
      show floatToInt t mode r (.inf neg) = ((BitVec.ofInt (Ty.w t) (if neg then leastOf t else greatestOf t)).toNat, flNV)
      rw [← ofZ_eq_ofInt int4, ← lo_eq_leastOf int4, ← hi_eq_greatestOf int4]
      rfl
    | .fin neg m e => exact floatToInt_fin int4 mode r neg m e

end Sys2Proof.Machine

namespace Sys2Proof.Machine

/-! Sub-byte formats (R305) -/

theorem toNat_append_eq_add {n m : Nat} (x : BitVec n) (y : BitVec m) : (x ++ y).toNat = x.toNat * 2 ^ m + y.toNat := by
  rw [BitVec.toNat_append, ← Nat.shiftLeft_add_eq_or_of_lt y.isLt, Nat.shiftLeft_eq]

/-- Four bytes are four digits to the base 256. -/
theorem fourBytes_eq_bytes4 {f : Nat → Nat} (byte : ∀ k, f k < 256) :
    BitVec.ofNat 64 (fourBytes f) = (bytes4 fun k => BitVec.ofNat 8 (f k)).setWidth 64 := by
  have digit (k : Nat) : (BitVec.ofNat 8 (f k)).toNat = f k := Nat.mod_eq_of_lt (byte k)
  apply BitVec.eq_of_toNat_eq
  rw [BitVec.toNat_setWidth, BitVec.toNat_ofNat, bytes4, toNat_append_eq_add, toNat_append_eq_add, toNat_append_eq_add,
    digit, digit, digit, digit, fourBytes]
  congr 1
  omega

theorem f6ToE4m3_mod (e3m2 : Bool) (x : Nat) : f6ToE4m3 e3m2 (x % 64) = f6ToE4m3 e3m2 x := by
  rw [f6ToE4m3, f6ToE4m3, Nat.mod_mod]

theorem f6ToE4m3_lt {x : Nat} (six : x < 64) (e3m2 : Bool) : f6ToE4m3 e3m2 x < 256 := by
  have all : ∀ e3m2 : Bool, ∀ x < 64, f6ToE4m3 e3m2 x < 256 := by decide
  exact all e3m2 x six

/-- Values that are numbers with no difference are one number. -/
theorem ratOf_eq_of_cmpVal {x y : Val} (hx : x.isNan = false ∧ x.isInf = false) (hy : y.isNan = false ∧ y.isInf = false)
    (same : cmpVal x y = 0) : ratOf x = ratOf y := by
  obtain ⟨nanX, infX⟩ := hx
  obtain ⟨nanY, infY⟩ := hy
  match x, y with
  | .fin n1 m1 e1, .fin n2 m2 e2 =>
    have difference := cmpVal_fin n1 m1 e1 n2 m2 e2
    rw [same, Int.cast_zero, zero_mul] at difference
    exact (sub_eq_zero.1 difference.symm)

/-- Every value of a six-bit format is one of E4M3 (R305). -/
theorem f6ToE4m3_value {x : Nat} (six : x < 64) (e3m2 : Bool) :
    ratOf (Fmt.e4m3.val (f6ToE4m3 e3m2 x)) = ratOf ((if e3m2 then Fmt.e3m2 else Fmt.e2m3).val x) := by
  have all : ∀ e3m2 : Bool, ∀ x < 64,
      let v := Fmt.e4m3.val (f6ToE4m3 e3m2 x)
      let w := (if e3m2 then Fmt.e3m2 else Fmt.e2m3).val x
      (v.isNan = false ∧ v.isInf = false) ∧ (w.isNan = false ∧ w.isInf = false) ∧ cmpVal v w = 0 := by decide
  obtain ⟨number, number', same⟩ := all e3m2 x six
  exact ratOf_eq_of_cmpVal number number' same

theorem extractLsb'_toNat_eq (x : Word) (lo n : Nat) : (x.extractLsb' lo n).toNat = x.toNat / 2 ^ lo % 2 ^ n := by
  rw [BitVec.extractLsb'_toNat, Nat.shiftRight_eq_div_pow]

theorem cvtF6_computes (h : Head) (e3m2 : Bool) (d a : Opd) :
    Computes (.cvtF6 h e3m2 d a) h [a] d (fun _ => 32) (fun _ _ rd l =>
      (bytes4 fun k => BitVec.ofNat 8 (f6ToE4m3 e3m2 ((rd 0 l 32).extractLsb' (6 * k) 6).toNat)).setWidth 64) := by
  refine Computes.congr (computes_of fun _ => rfl) fun i m rd _ l _ => ?_
  have element (k : Nat) : f6ToE4m3 e3m2 ((rd 0 l 32).toNat / 64 ^ k) =
      f6ToE4m3 e3m2 ((rd 0 l 32).extractLsb' (6 * k) 6).toNat := by
    rw [extractLsb'_toNat_eq, Nat.pow_mul]
    exact (f6ToE4m3_mod e3m2 _).symm
  simp only [element]
  exact fourBytes_eq_bytes4 fun k => f6ToE4m3_lt (BitVec.isLt _) e3m2

/-- The byte of a four-bit integer, by its sign. -/
theorem nibble_byte : ∀ (sgn : Bool) (n : BitVec 4),
    (if (sgn && decide (8 ≤ n.toNat)) = true then n.toNat + 240 else n.toNat) < 256 ∧
      BitVec.ofNat 8 (if (sgn && decide (8 ≤ n.toNat)) = true then n.toNat + 240 else n.toNat) =
        if sgn then n.signExtend 8 else n.setWidth 8 := by decide

theorem cvtI4_computes (h : Head) (sgn hi : Bool) (d a : Opd) :
    Computes (.cvtI4 h sgn hi d a) h [a] d (fun _ => 32) (fun _ _ rd l =>
      (bytes4 fun k => let n := (rd 0 l 32).extractLsb' (4 * ((if hi then 4 else 0) + k)) 4
        if sgn then n.signExtend 8 else n.setWidth 8).setWidth 64) := by
  refine Computes.congr (computes_of fun _ => rfl) fun i m rd _ l _ => ?_
  have element (k : Nat) : (rd 0 l 32).toNat / 16 ^ ((if hi then 4 else 0) + k) % 16 =
      ((rd 0 l 32).extractLsb' (4 * ((if hi then 4 else 0) + k)) 4).toNat := by
    rw [extractLsb'_toNat_eq, Nat.pow_mul]
    rfl
  simp only [element]
  rw [fourBytes_eq_bytes4 fun k => (nibble_byte sgn _).1]
  simp only [(nibble_byte sgn _).2]

/-! MX blocks (R306 to R308) -/

theorem mxPack_acts (h : Head) (fmt : BitVec 3) (d a b : Opd) :
    FloatActs (.mxPack h fmt d a b) h [a, b] (fun i => stochDraws (i.sp.fmt.extractLsb' 15 3).toNat 1)
      (fun i => regResult i d 32) (fun i m rd l =>
        let q (k : Nat) : Nat × Fl := mxQuant fmt (i.sp.fmt.extractLsb' 15 3).toNat (i.sl.draw k 0)
          ((rd 1 k 32).toNat % 256) (Fmt.f32.val (rd 0 k 32).toNat)
        let g := if fmt = 7 then 8 else 4
        let base := if fmt = 7 then 16 else 256
        (((List.range g).map fun k =>
          (if m.getLsbD (l / g * g + k) then (q (l / g * g + k)).1 else 0) * base ^ k).sum % 2 ^ 64, (q l).2)) := by
  refine floatActs_of (fun _ => rfl) fun i m rd _ l _ => ?_
  have word (n : Nat) : BitVec.ofNat 64 (n % 2 ^ 64) = BitVec.ofNat 64 n :=
    BitVec.eq_of_toNat_eq (by rw [BitVec.toNat_ofNat, BitVec.toNat_ofNat, Nat.mod_mod])
  simp only [fpOut, word, List.sum_eq_foldl, List.foldl_map]
  rfl

/-- Settles O17: the expansions by their elements' digits and values, and the words of an MX block by their meanings. -/
theorem subByteAndMx : Obligations.SubByteAndMx := by
  refine ⟨fun h fmt e3m2 sgn hi d a b => ⟨cvtF6_computes h e3m2 d a, cvtI4_computes h sgn hi d a, computes_of fun _ => rfl,
    mxPack_acts h fmt d a b, floatActs_of (fun _ => rfl) fun _ _ _ _ _ _ => rfl⟩, fun x six => f6ToE4m3_value six,
    fun fmt mode r sc lane v neg => ⟨?nanScale, ?nan, ?inf, ?unpack⟩⟩
  case nanScale => simp only [mxQuant, if_true]
  case nan => intro scale; simp [mxQuant, scale]
  case inf => intro scale; simp [mxQuant, scale]
  case unpack => rw [mxUnpack, if_pos rfl]; rfl

/-! The words of the format register (R291, R294 to R296) -/

theorem fmtOfImm_eq (v : BitVec 20) : fmtOfImm v = v.setWidth 32 <<< 8 := by
  apply BitVec.eq_of_toNat_eq
  rw [fmtOfImm, toNat_append_eq_add, toNat_append_eq_add, BitVec.toNat_shiftLeft, BitVec.toNat_setWidth, Nat.shiftLeft_eq]
  have := v.isLt
  simp
  omega

theorem withSources_nil (s : State) (i : Issue) (m : Mask) (k : State → State → Mask → Rd → State) :
    s.withSources i m [] k = k s s m (reader i [] []) := rfl

section
variable {s : State} {i : Issue} {h : Head} (ready : s.Ready i)
include ready

theorem exec_fmtSetImm_idle (v : BitVec 20) (idle : i.active h.guard = 0) :
    exec (.fmtSetImm h v) s = .next (s.advance i h.mark) := by
  show execFmtSetImm h v s = _
  rw [execFmtSetImm, word_ready ready, if_pos idle]

theorem exec_fmtSetImm (v : BitVec 20) (active : i.active h.guard ≠ 0) : exec (.fmtSetImm h v) s =
    .next ((s.modIssuer i fun sp => { sp with fmt := v.setWidth 32 <<< 8 }).advance i h.mark) := by
  show execFmtSetImm h v s = _
  rw [execFmtSetImm, word_ready ready, if_neg active, fmtOfImm_eq]

theorem exec_fmtGetFlagsClr_idle (d : Opd) (idle : i.active h.guard = 0) :
    exec (.fmtGetFlagsClr h d) s = .next (s.advance i h.mark) := by
  show execFmtGetFlagsClr h d s = _
  rw [execFmtGetFlagsClr, word_ready ready]
  simp only [idle, State.lanewise, decide_true, Bool.true_or, if_true]

theorem exec_fmtGetFlagsClr_full {d : Opd} {q : Nat} (active : i.active h.guard ≠ 0) (full : i.pushWait d = some q) :
    exec (.fmtGetFlagsClr h d) s = .next (s.waitAt i (.push q false)) := by
  show execFmtGetFlagsClr h d s = _
  rw [execFmtGetFlagsClr, word_ready ready]
  simp only [State.lanewise, if_neg active, full, Option.isSome_some, Bool.or_true, if_true]

theorem exec_fmtGetFlagsClr {d : Opd} (active : i.active h.guard ≠ 0) (room : i.pushWait d = none) :
    exec (.fmtGetFlagsClr h d) s = .next (((s.modSlice i.ref.team i.ref.warp i.ref.slice fun x => { x with flags := 0 }).deliver
      i (i.active h.guard) d 32 (laneVals (i.active h.guard) fun _ => i.sl.flags.setWidth 64)).advance i h.mark) := by
  show execFmtGetFlagsClr h d s = _
  rw [execFmtGetFlagsClr, word_ready ready]
  simp only [State.lanewise, room, withSources_nil, decide_false, Option.isSome_none, Bool.or_false,
    active, Bool.false_eq_true, if_false]

end

/-- Settles O18: each word by its meaning; a seed of 0 gives the constant of R296. -/
theorem formatWords : Obligations.FormatWords := by
  intro h v d a
  refine ⟨fun s i ready => ⟨exec_fmtSetImm_idle ready v, exec_fmtSetImm ready v⟩, ?setReg, computes_of fun _ => rfl,
    computes_of fun _ => rfl, fun s i ready => ⟨exec_fmtGetFlagsClr_idle ready d,
      fun active q => exec_fmtGetFlagsClr_full ready active, exec_fmtGetFlagsClr ready⟩, ?seed⟩
  case setReg =>
    refine wordActs_of (fun s i ready idle => ?_) fun s i ready active _ => ?_
    · show execFmtSetReg h a s = _
      rw [execFmtSetReg, word_ready ready, if_pos idle]
    · show execFmtSetReg h a s = _
      rw [execFmtSetReg, word_ready ready, if_neg active]
  case seed =>
    refine wordActs_of (fun s i ready idle => ?_) fun s i ready active _ => ?_
    · show execFmtSeed h a s = _
      rw [execFmtSeed, word_ready ready, if_pos idle]
    · show execFmtSeed h a s = _
      rw [execFmtSeed, word_ready ready, if_neg active]
      rfl

end Sys2Proof.Machine

/-! SUPPORT. Words with an access: what they ask of memory, and the statements about them. -/

namespace Sys2Proof.Machine

/-! What a word asks (R133, R312, R315) -/

theorem load_eq_loading (op : AccOp) (t : Ty) (sc : Scope) (dst : Dst) : Ask.load op t sc dst = loading op t sc dst := by
  cases sc <;> rfl

theorem store_eq_storing (t : Ty) (sc : Scope) : Ask.store t sc = storing t sc := by cases sc <;> rfl

theorem atomic_eq_changing (op : AccOp) (t : Ty) (sc : Scope) (od : Sys2Proof.Ordering) (dst : Dst) :
    Ask.atomic op t sc od dst = changing op t sc od dst := by
  cases od <;> rfl

theorem ofOpd_eq_destOf (d : Opd) : Dst.ofOpd d = destOf d := by cases d <;> rfl

/-! Words whose access stands in registers (R313, R315) -/

/-- A word that answers with `memWord` once it has active lanes. -/
theorem asks_of_active {ins : Instr} {h : Head} {a : Ask} {lanes : Issue → Mask → Lanes} {idle : Issue → State → State}
    (moves : ∀ s i, s.Ready i → i.active h.guard = 0 → exec ins s = .next ((idle i s).advance i h.mark))
    (asks : ∀ s i, s.Ready i → i.active h.guard ≠ 0 →
      exec ins s = .next (s.memWord i h.mark a (i.active h.guard) (lanes i (i.active h.guard)))) :
    Asks ins h a lanes idle := by
  refine fun s i ready => ⟨moves s i ready, fun active t w held => ?_, fun active t free => ?_⟩
  · rw [asks s i ready active, State.memWord, if_neg active, held]
  · rw [asks s i ready active, State.memWord, if_neg active, free]

/-- A word whose meaning is `memWord`. -/
theorem asks_of {ins : Instr} {h : Head} {a : Ask} {lanes : Issue → Mask → Lanes}
    (meaning : ∀ s, exec ins s = word s fun i =>
      s.memWord i h.mark a (i.active h.guard) (lanes i (i.active h.guard))) : Asks ins h a lanes fun _ s => s :=
  asks_of_active (fun s i ready idle => by rw [meaning, word_ready ready, State.memWord, if_pos idle])
    fun s i ready _ => by rw [meaning, word_ready ready]

section
variable {s : State} {i : Issue} {h : Head} (ready : s.Ready i)
include ready

theorem exec_ldx_idle {t : Ty} {ctr : BitVec 4} {d a : Opd} {imm : BitVec 26} (idle : i.active h.guard = 0) :
    exec (.ldx h t ctr d a imm) s =
      .next ((s.modSlice i.ref.team i.ref.warp i.ref.slice (·.count ctr.toNat)).advance i h.mark) := by
  show execLdx h t ctr d a imm s = _
  rw [execLdx, word_ready ready, if_pos idle]

theorem exec_ldx (t : Ty) (ctr : BitVec 4) (d a : Opd) (imm : BitVec 26) (active : i.active h.guard ≠ 0) :
    exec (.ldx h t ctr d a imm) s = .next (s.memWord i h.mark (.load .load t .none (.counter d ctr.toNat))
      (i.active h.guard) (lanesWith (i.active h.guard) (i.addrM a imm) noBytes noBytes)) := by
  show execLdx h t ctr d a imm s = _
  rw [execLdx, word_ready ready, if_neg active]

theorem exec_pf_idle (l2 : Bool) (a : Opd) (imm : BitVec 26) (idle : i.active h.guard = 0) :
    exec (.pf h l2 a imm) s = .next (s.advance i h.mark) := by
  show execPf h l2 a imm s = _
  rw [execPf, word_ready ready, if_pos idle]

theorem exec_pf (l2 : Bool) (a : Opd) (imm : BitVec 26) (active : i.active h.guard ≠ 0) :
    exec (.pf h l2 a imm) s = .next ((s.launch i (.plain (.prefetch l2) .z8) (i.active h.guard)
      (lanesWith (i.active h.guard) (i.addrM a imm) noBytes noBytes)).advance i h.mark) := by
  show execPf h l2 a imm s = _
  rw [execPf, word_ready ready, if_neg active]

end

/-- Settles O19: each word by what its meaning asks of memory; `ldx` counts and `pf` waits for nothing. -/
theorem loadsAndStores : Obligations.LoadsAndStores := by
  intro h t sc sh ctr l2 d a b imm disp idx same
  refine ⟨?ld, ?ldIdx, ?st, ?stIdx, ?ldx, ?ll, ?accLd, fun s i ready => ⟨exec_pf_idle ready l2 a imm, exec_pf ready l2 a imm⟩⟩
  case ld => rw [← load_eq_loading, ← ofOpd_eq_destOf]; exact asks_of fun _ => rfl
  case ldIdx => rw [← load_eq_loading, ← ofOpd_eq_destOf]; exact asks_of fun _ => rfl
  case st => rw [← store_eq_storing]; exact asks_of fun _ => rfl
  case stIdx => rw [← store_eq_storing]; exact asks_of fun _ => rfl
  case ldx => exact asks_of_active (fun s i ready => exec_ldx_idle ready) fun s i ready => exec_ldx ready t ctr d a imm
  case ll => rw [← load_eq_loading, ← ofOpd_eq_destOf]; exact asks_of fun _ => rfl
  case accLd => rw [← ofOpd_eq_destOf]; exact asks_of fun _ => rfl

/-! Queue stores (R140, R313, R317) -/

/-- No lane is taken out of a mask by none. -/
theorem and_not_zero (m : Mask) : m &&& ~~~(0 : Mask) = m := by
  rw [show ~~~(0 : Mask) = BitVec.allOnes 32 from rfl, BitVec.and_allOnes]

theorem queuesOf_address (d : Opd) : queuesOf [.sa, d] ≠ [] := List.cons_ne_nil 4 _

/-- What a queue store does in the lanes m, its active ones of those that go on, once its address and its data are popped. -/
def State.queueAccess (s : State) (i : Issue) (h : Head) (a : Ask) (m : Mask) (rd : Rd) : State :=
  if m = 0 then
    (match a.ctr with
      | some ck => s.modSlice i.ref.team i.ref.warp i.ref.slice (·.count ck)
      | none => s).advance i h.mark
  else (s.launch i { a with after := i.addressAfter } m ((lanesOf m).map fun l =>
    (l, rd 0 l 64, leBytes (Ty.bytes a.ty) (rd 1 l (if Ty.bytes a.ty = 8 then 64 else 32)).toNat, []))).advance i h.mark

section
variable {s t : State} {i : Issue} {h : Head} {a : Ask}

theorem queueStore_held {w : Wait} (active : i.active h.guard ≠ 0) (held : s.mayAccess i a = (t, some w)) (d : Opd) :
    s.queueStore i h a d = t.waitAt i w := by
  have held' : (if i.active h.guard = 0 then (s, none) else s.mayAccess i a) = (t, some w) := by rw [if_neg active, held]
  simp only [State.queueStore, held']

theorem queueStore_free (free : if i.active h.guard = 0 then t = s else s.mayAccess i a = (t, none)) (d : Opd) :
    s.queueStore i h a d = t.withSources i i.sp.mask [.sa, d] fun _ u m rd =>
      u.queueAccess i h a (m &&& i.active h.guard) rd := by
  have free' : (if i.active h.guard = 0 then (s, none) else s.mayAccess i a) = (t, none) := by
    split
    · next idle => rw [if_pos idle] at free; rw [free]
    · next active => rw [if_neg active] at free; exact free
  simp only [State.queueStore, free']
  rfl

end

/-- A word whose meaning is `queueStore`. -/
theorem popsAndAsks_of {ins : Instr} {h : Head} {a : Ask} {d : Opd}
    (meaning : ∀ s, exec ins s = word s fun i => s.queueStore i h a d) : PopsAndAsks ins h a d := by
  intro s i ready live m
  have named := queuesOf_address d
  refine ⟨fun active t w held => ?held, fun t free => ⟨fun q pops => ?waits, fun f pops => ?faults,
    fun u died rd reads => ?acts⟩⟩
  case held => rw [meaning, word_ready ready, queueStore_held active held]
  case waits => rw [meaning, word_ready ready, queueStore_free free, withSources_wait live named pops]
  case faults => rw [meaning, word_ready ready, queueStore_free free, withSources_fault live named pops]
  case acts =>
    intro lanes act
    rw [meaning, word_ready ready, queueStore_free free]
    by_cases none : died = 0
    · subst none
      rw [withSources_reads reads live, if_pos rfl]
      simp only [act, lanes, and_not_zero]
      rfl
    · rw [withSources_kills none reads live, if_neg none]
      rfl

/-- Settles O20: the atomics and the reduction by what their meanings ask of memory, and the queue stores by their pops. -/
theorem atomicsAndQueueStores : Obligations.AtomicsAndQueueStores := by
  intro h t op sc od near rel ce ctr d a b c pd same count
  refine ⟨?atom, ?cas, ?sc, ?red, ?stq, ?redQ⟩
  case atom => rw [← atomic_eq_changing, ← ofOpd_eq_destOf]; exact asks_of fun _ => rfl
  case cas => rw [← atomic_eq_changing, ← ofOpd_eq_destOf]; exact asks_of fun _ => rfl
  case sc => rw [← atomic_eq_changing]; exact asks_of fun _ => rfl
  case red => exact asks_of fun _ => rfl
  case stq => rw [← store_eq_storing]; exact popsAndAsks_of fun _ => rfl
  case redQ => exact popsAndAsks_of fun _ => rfl

end Sys2Proof.Machine

/-! SUPPORT. Rendezvous points: how they count, what their words do, and the statement about them. -/

namespace Sys2Proof.Machine

/-! Counts (R332, R333) -/

section
variable {r : Rv} {w n : Nat} {m awaited : Mask}

theorem Rv.met_iff : r.met = true ↔ r.init = true ∧ r.arr0 = r.ea ∧ r.by0 = r.eb := by
  simp [Rv.met, and_assoc]

theorem Rv.judge_open (unmet : ¬r.met = true) : r.judge n = r := by
  cases n with
  | zero => rfl
  | succ n => exact if_neg unmet

/-- A phase completes, and the next one opens without completing. -/
theorem Rv.judge_once (met : r.met = true) (unmet : ¬r.next.met = true) : r.judge (n + 1) = r.next :=
  (if_pos met).trans (Rv.judge_open unmet)

theorem Rv.next_of_fall (fall : r.fall = 0) :
    r.next = { r with
      p := r.p + 1, arr0 := r.arr1, by0 := r.by1, lanes0 := r.lanes1, in0 := r.in1, arr1 := 0, by1 := 0, lanes1 := []
      in1 := [] } := by
  obtain ⟨⟩ := r
  cases fall
  rfl

theorem Rv.arr_both (first : r.in0.contains w = true) (second : r.in1.contains w = true) : r.arr w m awaited = none := by
  simp only [Rv.arr, first, second, Bool.not_true, Bool.false_eq_true, if_false]

theorem Rv.credit_beyond (started : r.init = true) (beyond : r.eb < r.by0 + n) : r.credit r.p n = none := by
  simp only [Rv.credit, started, beyond, decide_true, Bool.and_self, if_true]

theorem Rv.credit_within (within : r.by0 + n < r.eb) : r.credit r.p n = some { r with by0 := r.by0 + n } := by
  have unmet : ¬Rv.met { r with by0 := r.by0 + n } = true := fun met => within.ne (Rv.met_iff.1 met).2.2
  have kept : ¬r.eb < r.by0 + n := by omega
  simp only [Rv.credit, kept, decide_false, Bool.and_false, Bool.false_eq_true, if_false, if_true, Rv.judge_open unmet]

/-- Every awaited lane of a warp has come to the open phase: the warp has arrived in it. -/
theorem Rv.arr_first (first : r.in0.contains w = false) (more : r.ea ≠ r.arr0 + 1) (some_ : tget r.lanes0 w 0 ||| m ≠ 0)
    (all : within_ awaited (tget r.lanes0 w 0 ||| m) = true) (later : tget r.lanes1 w 0 = 0) :
    r.arr w m awaited = some { r with
      lanes0 := tset r.lanes0 w (tget r.lanes0 w 0 ||| m), arr0 := r.arr0 + 1, in0 := w :: r.in0 } := by
  have lanes : tget (tset r.lanes0 w (tget r.lanes0 w 0 ||| m)) w 0 = tget r.lanes0 w 0 ||| m := by
    rw [tget, tget?_tset_self]; rfl
  have arrives : Rv.arrive { r with lanes0 := tset r.lanes0 w (tget r.lanes0 w 0 ||| m) } w awaited = { r with
      lanes0 := tset r.lanes0 w (tget r.lanes0 w 0 ||| m), arr0 := r.arr0 + 1, in0 := w :: r.in0 } := by
    simp only [Rv.arrive, lanes, first, later, bne_iff_ne.2 some_, all, bne_self_eq_false, Bool.not_false, Bool.and_self,
      Bool.and_false, Bool.false_and, Bool.false_eq_true, if_true, if_false]
  have unmet : ¬Rv.met { r with
      lanes0 := tset r.lanes0 w (tget r.lanes0 w 0 ||| m), arr0 := r.arr0 + 1, in0 := w :: r.in0 } = true :=
    fun met => more (Rv.met_iff.1 met).2.1.symm
  simp only [Rv.arr, first, Bool.not_false, if_true, arrives, Rv.judge_open unmet]

end

theorem Rv.complete_eq (r : Rv) (n : BitVec 32) : r.complete n = (r.init && decide (0 ≤ (r.p - 1 - n).toInt)) := by
  rw [Rv.complete, BitVec.msb_eq_toInt, ← decide_not]
  simp only [not_lt]

/-! The words (R330, R331, R334) -/

section
variable {s : State} {i : Issue} {h : Head} {rv : BitVec 5}

theorem State.rvWord_idle (idle : i.active h.guard = 0) (k : Mask → State) : s.rvWord i h rv k = s.advance i h.mark :=
  if_pos idle

theorem State.rvWord_beyond (active : i.active h.guard ≠ 0) (beyond : i.tm.nrv ≤ rv.toNat) (k : Mask → State) :
    s.rvWord i h rv k = s.decodeTrap i 10 0x50 (rv.setWidth 64) :=
  (if_neg active).trans (if_pos beyond)

theorem State.rvWord_behind (active : i.active h.guard ≠ 0) (exists_ : rv.toNat < i.tm.nrv)
    (behind : s.behindGuard i.ref = true) (k : Mask → State) : s.rvWord i h rv k = s.waitAt i .behind :=
  (if_neg active).trans ((if_neg (not_le.2 exists_)).trans (if_pos behind))

theorem State.rvWord_acts (active : i.active h.guard ≠ 0) (exists_ : rv.toNat < i.tm.nrv)
    (first : s.behindGuard i.ref = false) (k : Mask → State) : s.rvWord i h rv k = k (i.active h.guard) :=
  (if_neg active).trans ((if_neg (not_le.2 exists_)).trans (if_neg (Bool.eq_false_iff.1 first)))

end

section
variable {ins : Instr} {h : Head} {rv : BitVec 5}

/-- What an `rv` word meets before it acts: the check of its index, and an unmatched guarded command. -/
theorem rv_precedes {k : State → Issue → Mask → State} (meaning : ∀ s, exec ins s = word s fun i => s.rvWord i h rv (k s i))
    {s : State} {i : Issue} (ready : s.Ready i) (active : i.active h.guard ≠ 0) :
    (i.tm.nrv ≤ rv.toNat → exec ins s = .next (s.decodeTrap i 10 0x50 (rv.setWidth 64))) ∧
    (rv.toNat < i.tm.nrv → s.behindGuard i.ref = true → exec ins s = .next (s.waitAt i .behind)) :=
  ⟨fun beyond => by rw [meaning, word_ready ready, State.rvWord_beyond active beyond],
    fun exists_ behind => by rw [meaning, word_ready ready, State.rvWord_behind active exists_ behind]⟩

/-- An `rv` word that reads its sources and acts. -/
theorem rv_acts {srcs : List Opd} {act : Issue → State → State → Mask → Rd → State}
    (meaning : ∀ s, exec ins s = word s fun i => s.rvWord i h rv fun m => s.withSources i m srcs (act i)) :
    WordActs ins h srcs (fun s i => rv.toNat < i.tm.nrv ∧ s.behindGuard i.ref = false) act :=
  wordActs_of (fun s i ready idle => by rw [meaning, word_ready ready, State.rvWord_idle idle])
    fun s i ready active ⟨exists_, first⟩ => by rw [meaning, word_ready ready, State.rvWord_acts active exists_ first]

end

/-- The phase that an `rv` word names: its operand's low 32 bits. -/
theorem ImmOr.val_phase (n : ImmOr 16) (rd : Rd) (m : Mask) :
    BitVec.ofNat 32 (ImmOr.val n rd m 0) = match n with
      | .imm v => v.setWidth 32
      | .reg _ => (rd 0 ((lowLane m).getD 0) 32).setWidth 32 := by
  cases n with
  | imm v => exact BitVec.eq_of_toNat_eq (by simp [ImmOr.val])
  | reg o => exact BitVec.eq_of_toNat_eq (by simp [ImmOr.val, rdLow])

/-- Settles O24: the counts by whether a phase is met, and the words by what they meet before they act. -/
theorem rendezvous : Obligations.Rendezvous := by
  refine ⟨fun r w m awaited n => ⟨?judged, ?unjudged, Rv.arr_both, Rv.credit_beyond, fun _ => Rv.credit_within, ?arrives⟩,
    fun h rv na nb n dp => ?words⟩
  case judged =>
    intro started arrived bytes fall later
    have unmet : ¬r.next.met = true := by
      rw [Rv.next_of_fall fall, Rv.met_iff]
      rintro ⟨-, arrived', bytes'⟩
      exact later.elim (· arrived') (· bytes')
    rw [Rv.judge_once (Rv.met_iff.2 ⟨started, arrived, bytes⟩) unmet, Rv.next_of_fall fall]
  case unjudged =>
    intro open_
    refine Rv.judge_open fun met => ?_
    obtain ⟨started, arrived, bytes⟩ := Rv.met_iff.1 met
    simp [started, arrived, bytes] at open_
  case arrives => exact fun first _ more some_ all later => Rv.arr_first first more some_ all later
  case words =>
    intro exists_ point phase complete
    have phase_eq (rd : Rd) (m : Mask) : BitVec.ofNat 32 (ImmOr.val n rd m 0) = phase m rd := ImmOr.val_phase n rd m
    have complete_eq (i : Issue) (ph : BitVec 32) : (i.tm.rv rv.toNat).complete ph = complete i ph := Rv.complete_eq _ ph
    refine ⟨fun s i ready active ins one => ?precedes, ?init, ?arr, ?wait, ?test⟩
    case precedes =>
      obtain rfl | rfl | rfl | rfl := one
      · exact rv_precedes (fun _ => rfl) ready active
      · exact rv_precedes (fun _ => rfl) ready active
      · exact rv_precedes (fun _ => rfl) ready active
      · exact rv_precedes (fun _ => rfl) ready active
    case init =>
      refine WordActs.congr (rv_acts fun _ => rfl) fun i s t m rd _ => ?_
      cases na <;> cases nb <;> simp only [Bool.or_eq_true, Bool.and_eq_true, decide_eq_true_eq] <;> rfl
    case arr =>
      exact wordActs_of (fun s i ready idle => (word_ready ready _).trans (congrArg _ (State.rvWord_idle idle _)))
        fun s i ready active ⟨exists_, first⟩ =>
          (word_ready ready _).trans (congrArg _ (State.rvWord_acts active exists_ first _))
    case wait =>
      refine WordActs.congr (rv_acts fun _ => rfl) fun i s t m rd _ => ?_
      simp only [phase_eq, complete_eq]
    case test =>
      refine WordActs.congr (rv_acts fun _ => rfl) fun i s t m rd _ => ?_
      simp only [phase_eq, complete_eq]

end Sys2Proof.Machine

/-! SUPPORT. `wait.addr`: what one pass comes to, and the statement about it. -/

namespace Sys2Proof.Machine

/-! The parts of a pass (R328, R329) -/

/-- The lanes whose location faults, with their faults and addresses. -/
def Issue.watchFaults (i : Issue) (a : Opd) (places : List (Nat × Watch)) : List (Nat × XFault × Word) :=
  places.filterMap fun l => match l.2 with
    | .fault f => some (l.1, f, i.reg a l.1)
    | _ => none

/-- The faults of locations, as reads of them would meet them. -/
def earlyPeeks (places : List (Nat × Watch)) : List (Nat × Peek) :=
  places.filterMap fun l => match l.2 with
    | .fault f => some (l.1, .fault f)
    | .walk | .tide .. | .range .. => none

/-- The lanes whose read faults. -/
def Issue.peekFaults (i : Issue) (a : Opd) (ps : List (Nat × Peek)) : List (Nat × XFault × Word) :=
  ps.filterMap fun v => match v.2 with
    | .fault f => some (v.1, f, i.reg a v.1)
    | .wait | .poison | .val _ => none

/-- A value was read, and it meets the condition. -/
def Peek.meets (t : Ty) (cc : BitVec 3) (y : Nat) : Peek → Bool
  | .val x => condInt t cc x y
  | .wait | .fault _ | .poison => false

/-- The end of a pass in which every lane of m was read. -/
def State.passRead (s : State) (i : Issue) (mark : Bool) (t : Ty) (cc : BitVec 3) (dp : BitVec 3) (b : Opd) (m : Mask)
    (deadline : Nat) (asleep : Wait) (ps : List (Nat × Peek)) : State :=
  let died := maskOf fun l => ps.any fun v => v.1 == l && v.2 == .poison
  let ok (l : Nat) : Bool := ps.any fun v => v.1 == l && v.2.meets t cc ((i.reg b l).toNat % 2 ^ (8 * Ty.bytes t))
  let s := if died = 0 then s else s.kill i.ref.team i.ref.warp died
  if (lanesOf (m &&& ~~~died)).all ok || deadline ≤ s.hb (dieOf i.tm.core) then
    ((s.results i (predWrites dp (m &&& ~~~died) ok)).advance i mark).reapAll
  else (s.waitAt i asleep).reapAll

/-- A pass once the lanes' places are known: `asleep` is how the split waits, woken already or not. -/
def State.passPlaced (u : State) (i : Issue) (mark : Bool) (t : Ty) (cc : BitVec 3) (sc : Scope) (dp : BitVec 3) (a b : Opd)
    (m : Mask) (deadline : Nat) (asleep : Bool → Wait) (places : List (Nat × Watch)) : State :=
  let read := u.peeks i sc (Ty.bytes t) places
  if places.any fun l => l.2 == .walk then u.waitAt i (asleep true)
  else if !(i.peekFaults a (earlyPeeks places)).isEmpty then
    (u.endPass i).raiseAt i (Trap.ofFaults i (i.peekFaults a (earlyPeeks places)))
  else if !(i.peekFaults a read.2).isEmpty then (read.1.endPass i).raiseAt i (Trap.ofFaults i (i.peekFaults a read.2))
  else if read.2.any fun v => v.2 == .wait then read.1.waitAt i (asleep true)
  else (read.1.endPass i).passRead i mark t cc dp b m deadline (asleep false) read.2

theorem waitAddrPass_eq (s : State) (i : Issue) (mark : Bool) (t : Ty) (cc : BitVec 3) (sc : Scope) (dp : BitVec 3)
    (a b : Opd) (m : Mask) (deadline : Nat) : s.waitAddrPass i mark t cc sc dp a b m deadline =
      let (u, places) := (s.modSplit i.ref fun sp => { sp with deadline := some deadline }).watches i a (Ty.bytes t) m
      let lines := u.watchedLines (Ty.bytes t) places
      u.passPlaced i mark t cc sc dp a b m deadline (.addr sc deadline lines.1 lines.2) places := rfl

theorem peekFaults_eq_nil {i : Issue} {a : Opd} {ps : List (Nat × Peek)} (sound : ∀ l ∈ ps, ∀ f, l.2 ≠ .fault f) :
    i.peekFaults a ps = [] := by
  refine List.filterMap_eq_nil_iff.2 fun l mem => ?_
  cases found : l.2 with
  | fault f => exact absurd found (sound l mem f)
  | wait | poison | val => rfl

theorem peekFaults_earlyPeeks (i : Issue) (a : Opd) (places : List (Nat × Watch)) :
    i.peekFaults a (earlyPeeks places) = i.watchFaults a places := by
  rw [Issue.peekFaults, Issue.watchFaults, earlyPeeks, List.filterMap_filterMap]
  congr 1
  funext l
  cases l.2 <;> rfl

/-! What a pass comes to -/

section
variable {u v : State} {i : Issue} {mark : Bool} {t : Ty} {cc : BitVec 3} {sc : Scope} {dp : BitVec 3} {a b : Opd}
  {m : Mask} {deadline : Nat} {asleep : Bool → Wait} {places : List (Nat × Watch)} {ps : List (Nat × Peek)}

theorem passPlaced_walk (walks : ∃ l ∈ places, l.2 = .walk) :
    u.passPlaced i mark t cc sc dp a b m deadline asleep places = u.waitAt i (asleep true) :=
  if_pos (by simpa using walks)

variable (located : ∀ l ∈ places, l.2 ≠ .walk)
include located

theorem passPlaced_fault (faulty : i.watchFaults a places ≠ []) :
    u.passPlaced i mark t cc sc dp a b m deadline asleep places =
      (u.endPass i).raiseAt i (Trap.ofFaults i (i.watchFaults a places)) := by
  have none : (places.any fun l => l.2 == .walk) = false := by simpa using located
  have some_ : (i.watchFaults a places).isEmpty = false := by simpa using faulty
  simp only [State.passPlaced, none, peekFaults_earlyPeeks, some_, Bool.false_eq_true, if_false, Bool.not_false, if_true]

variable (sound : i.watchFaults a places = []) (read : u.peeks i sc (Ty.bytes t) places = (v, ps))
  (faultless : ∀ l ∈ ps, ∀ f, l.2 ≠ .fault f)
include sound read faultless

theorem passPlaced_wait (waits : ∃ l ∈ ps, l.2 = .wait) :
    u.passPlaced i mark t cc sc dp a b m deadline asleep places = v.waitAt i (asleep true) := by
  have none : (places.any fun l => l.2 == .walk) = false := by simpa using located
  have waiting : (ps.any fun l => l.2 == .wait) = true := by simpa using waits
  simp only [State.passPlaced, none, peekFaults_earlyPeeks, sound, read, peekFaults_eq_nil faultless, waiting,
    List.isEmpty_nil, Bool.not_true, Bool.false_eq_true, if_false, if_true]

theorem passPlaced_read (ready : ∀ l ∈ ps, l.2 ≠ .wait) :
    u.passPlaced i mark t cc sc dp a b m deadline asleep places =
      (v.endPass i).passRead i mark t cc dp b m deadline (asleep false) ps := by
  have none : (places.any fun l => l.2 == .walk) = false := by simpa using located
  have waiting : (ps.any fun l => l.2 == .wait) = false := by simpa using ready
  simp only [State.passPlaced, none, peekFaults_earlyPeeks, sound, read, peekFaults_eq_nil faultless, waiting,
    List.isEmpty_nil, Bool.not_true, Bool.false_eq_true, if_false]

end

/-- The types of `wait.addr` have the width of their operands. -/
theorem bytes_of_isInt4 {t : Ty} (int4 : t.isInt4 = true) : 8 * Ty.bytes t = Ty.w t :=
  match t, int4 with
  | .z32, _ | .i32, _ | .z64, _ | .i64, _ => rfl

theorem int_mod (t : Ty) (x : Nat) : Ty.int t (x % 2 ^ Ty.ibits t) = Ty.int t x := by
  rw [Ty.int, Ty.int, toInt, toInt, Nat.mod_mod]

/-- R328: the condition of a lane is that of the operands' bits at the type's width. -/
theorem condInt_eq_meets {t : Ty} (int4 : t.isInt4 = true) (cc : BitVec 3) (x : Nat) (y : Word) :
    condInt t cc x (y.toNat % 2 ^ (8 * Ty.bytes t)) = meets t cc (BitVec.ofNat (Ty.w t) x) (y.setWidth (Ty.w t)) := by
  have width := ibits_of_isInt4 int4
  rw [← condInt_toNat width, BitVec.toNat_setWidth, BitVec.toNat_ofNat, bytes_of_isInt4 int4, ← width]
  simp only [condInt, int_mod]

section
variable {s : State} {i : Issue} {mark : Bool} {t : Ty} {cc : BitVec 3} {dp : BitVec 3} {b : Opd} {m : Mask} {deadline : Nat}
  {asleep : Wait} {x : Nat → Nat} {ok : Nat → Bool}

/-- Every lane read a value: the word ends when each meets its condition or the deadline has come, and otherwise sleeps. -/
theorem passRead_vals (int4 : t.isInt4 = true) (holds : ∀ l, ok l = (decide (l ∈ lanesOf m) &&
      meets t cc (BitVec.ofNat (Ty.w t) (x l)) ((regA b i l).setWidth (Ty.w t)))) :
    s.passRead i mark t cc dp b m deadline asleep ((lanesOf m).map fun l => (l, .val (x l))) =
      if (lanesOf m).all ok || deadline ≤ s.hb (dieOf i.tm.core) then
        ((s.results i (predWrites dp m ok)).advance i mark).reapAll
      else (s.waitAt i asleep).reapAll := by
  have alive : (maskOf fun l => ((lanesOf m).map fun l => (l, Peek.val (x l))).any fun v => v.1 == l && v.2 == .poison) =
      0 := by
    have none (l : Nat) : (((lanesOf m).map fun l => (l, Peek.val (x l))).any fun v => v.1 == l && v.2 == .poison) = false := by
      rw [List.any_map, List.any_eq_false]
      exact fun k _ => by simp
    simp only [none]
    rfl
  have met : (fun l => ((lanesOf m).map fun l => (l, Peek.val (x l))).any fun v =>
      v.1 == l && v.2.meets t cc ((i.reg b l).toNat % 2 ^ (8 * Ty.bytes t))) = ok := by
    funext l
    rw [holds, Bool.eq_iff_iff]
    simp only [List.any_map, List.any_eq_true, Function.comp_apply, Bool.and_eq_true, beq_iff_eq, Peek.meets,
      condInt_eq_meets int4, decide_eq_true_eq]
    refine ⟨fun ⟨k, mem, same, val⟩ => ?_, fun ⟨mem, val⟩ => ⟨l, mem, rfl, val⟩⟩
    subst same
    exact ⟨mem, val⟩
  simp only [State.passRead, alive, met, and_not_zero, if_true]

end

/-! The word (R328) -/

section
variable {s : State} {i : Issue} {h : Head} (ready : s.Ready i) (t : Ty) (cc : BitVec 3) (sc : Scope) (dp : BitVec 3)
  (a b c : Opd)
include ready

theorem exec_waitAddr_idle (idle : i.active h.guard = 0) :
    exec (.waitAddr h t cc sc dp a b c) s = .next (s.advance i h.mark) := by
  show execWaitAddr h t cc sc dp a b c s = _
  rw [execWaitAddr, word_ready ready, if_pos idle]

variable (active : i.active h.guard ≠ 0)
include active

theorem exec_waitAddr_behind (behind : s.afterAcquires i = false) :
    exec (.waitAddr h t cc sc dp a b c) s = .next (s.waitAt i .order) := by
  show execWaitAddr h t cc sc dp a b c s = _
  rw [execWaitAddr, word_ready ready, if_neg active, behind]
  rfl

variable (after : s.afterAcquires i = true)
include after

theorem exec_waitAddr_asleep {sc' : Scope} {d : Nat} {ls : List Nat} {t' : Bool} (asleep : i.sp.wait = .addr sc' d ls t' false)
    (early : s.hb (dieOf i.tm.core) < d) : exec (.waitAddr h t cc sc dp a b c) s = .next s := by
  show execWaitAddr h t cc sc dp a b c s = _
  rw [execWaitAddr, word_ready ready, if_neg active, after, if_neg (by decide)]
  simp only [asleep, not_le.2 early, decide_false, Bool.or_self, Bool.false_eq_true, if_false]

/-- The deadline is kept from the word's first pass on. -/
theorem exec_waitAddr_pass {deadline : Nat}
    (due : (∀ sc' d ls t' w, i.sp.wait ≠ .addr sc' d ls t' w) ∧
        deadline = i.sp.deadline.getD (s.hb (dieOf i.tm.core) +
          ((regA c i ((lowLane (i.active h.guard)).getD 0)).extractLsb' 0 32).toNat) ∨
      ∃ sc' ls t' w, i.sp.wait = .addr sc' deadline ls t' w ∧ (w = true ∨ deadline ≤ s.hb (dieOf i.tm.core))) :
    exec (.waitAddr h t cc sc dp a b c) s =
      .next (s.waitAddrPass i h.mark t cc sc dp a b (i.active h.guard) deadline) := by
  show execWaitAddr h t cc sc dp a b c s = _
  rw [execWaitAddr, word_ready ready, if_neg active, after, if_neg (by decide)]
  obtain ⟨fresh, rfl⟩ | ⟨sc', ls, t', w, asleep, woken⟩ := due
  · dsimp only
    split
    · next asleep => exact (fresh _ _ _ _ _ asleep).elim
    · rfl
  · have again : (w || decide (deadline ≤ s.hb (dieOf i.tm.core))) = true := by simpa using woken
    simp only [asleep, again, if_true]

end

/-- Settles O23: what holds the word back, and its pass by the places of its lanes and what is read there. -/
theorem waitAddr : Obligations.WaitAddr := by
  refine ⟨fun h t cc sc dp a b c s i ready typed _ => ?word, fun s r => rfl⟩
  have int4 : t.isInt4 = true := by obtain rfl | rfl | rfl | rfl := typed <;> rfl
  refine ⟨exec_waitAddr_idle ready t cc sc dp a b c, exec_waitAddr_behind ready t cc sc dp a b c,
    fun sc' d ls t' active after asleep early => exec_waitAddr_asleep ready t cc sc dp a b c active after asleep early,
    fun deadline due active after u places watched => ?pass⟩
  intro lines asleep end_ bad
  have pass : exec (.waitAddr h t cc sc dp a b c) s = .next (u.passPlaced i h.mark t cc sc dp a b (i.active h.guard) deadline
      (.addr sc deadline lines.1 lines.2) places) := by
    rw [exec_waitAddr_pass ready t cc sc dp a b c active after due, waitAddrPass_eq, watched]
  refine ⟨fun walks => ?walks, fun located => ⟨fun faulty => ?faulty, fun sound v x read => ?read,
    fun sound v ps read faultless waits => ?waits⟩⟩
  case walks => rw [pass, passPlaced_walk walks]
  case faulty => rw [pass]; exact congrArg _ (passPlaced_fault located faulty)
  case waits => rw [pass, passPlaced_wait located sound read faultless waits]
  case read =>
    intro ok
    have vals (l : Nat × Peek) (mem : l ∈ (lanesOf (i.active h.guard)).map fun l => (l, Peek.val (x l))) :
        ∃ y, l.2 = .val y := by
      obtain ⟨k, -, rfl⟩ := List.mem_map.1 mem
      exact ⟨x k, rfl⟩
    have done := pass.trans (congrArg _ ((passPlaced_read located sound read
      (fun l mem f fault => by obtain ⟨y, val⟩ := vals l mem; rw [val] at fault; cases fault)
      (fun l mem wait => by obtain ⟨y, val⟩ := vals l mem; rw [val] at wait; cases wait)).trans
      (passRead_vals int4 (ok := ok) fun l => rfl)))
    refine ⟨fun ends => ?ends, fun ⟨l, mem, fails⟩ early => ?sleeps⟩
    case ends =>
      rw [done, if_pos]
      · rfl
      · simp only [Bool.or_eq_true, List.all_eq_true, decide_eq_true_eq]
        exact ends
    case sleeps =>
      rw [done, if_neg]
      · rfl
      · simp only [Bool.or_eq_true, List.all_eq_true, decide_eq_true_eq]
        rintro (all | late)
        · exact Bool.false_ne_true (fails.symm.trans (all l mem))
        · exact absurd early (not_lt.2 late)

end Sys2Proof.Machine

/-! SUPPORT. Mailboxes: how a request is taken up, what each command answers, and the phases of an answer; and the statement
about them. -/

namespace Sys2Proof.Machine

/-! A request is taken up (R422 to R424) -/

/-- Headland has all that it asked of the host, so it asks for nothing. -/
theorem State.pull_ready {s : State} {m n : Nat} {a : Word} (ready : (s.pull m a n).2 = true) : s.pull m a n = (s, true) := by
  unfold State.pull at ready ⊢
  split at ready
  · next inside => rw [if_pos inside]
  · next outside =>
    rw [if_neg outside]
    dsimp only at ready ⊢
    rw [ready, List.isEmpty_iff.1 ready]
    rfl

theorem State.carryOut_ready {v w : State} {m : Nat} {q : Request} {k : State → State × MbxAnswer}
    (pulled : (v.pull m q.buf (if q.cmd = 16 then q.buflen else 0)).2 = true)
    (asked : v.agentAsk 3397 (64 + m) (v.answerTouches m q (k v).2) = (w, true)) :
    v.carryOut m q k = (k w).1.answer m q (k w).2 := by
  have asked' : v.agentAsk headAgent (mbxSerial m) (v.answerTouches m q (k v).2) = (w, true) := asked
  simp only [State.carryOut, State.pull_ready pulled, asked']

section
variable {s u : State} {m : Nat} {q : Request} {before : State → Request → State × Bool} {a : State → MbxAnswer}

/-- What serving a mailbox comes to once its request has been read: `t` is the state then. -/
theorem AskedWhen.serves (asked : AskedWhen s u m q before a) : ∃ t v w : State, before t q = (v, true) ∧
    (v.pull m q.buf (if q.cmd = 16 then q.buflen else 0)).2 = true ∧
    v.agentAsk 3397 (64 + m) (v.answerTouches m q (a (v.quiet m))) = (w, true) ∧ u = w.quiet m ∧
    ∀ cmd before' k, s.serveWhen m cmd before' k =
      if q.cmd = cmd then (match before' t q with
        | (s, false) => s
        | (s, true) => s.carryOut m q fun s => k (s.quiet m) q)
      else if listed.contains q.cmd then t
      else t.carryOut m q fun s => (s.quiet m, 2, []) := by
  obtain ⟨unanswered, mailbox, rings, turn, owned, pulled, r, t, b, v, ask, read, named, fresh, ready, pulled', w, ask', u_eq⟩ :=
    asked
  refine ⟨t, v, w, ready, pulled', ask', u_eq, fun cmd before' k => ?_⟩
  have none : s.head.answered.find? (fun a => a.mbx == m) = none :=
    List.find?_eq_none.2 fun x mem => by simpa using unanswered x mem
  have due : ¬(decide (hostMbx < m) || !s.rung m || !s.mbxTurn m) = true := by
    have rung : s.rung m = true := rings
    simp only [rung, turn, Bool.not_true, Bool.or_false, decide_eq_true_eq]
    exact not_lt.2 mailbox
  have addressed : ¬(decide (s.mbxAddr m = 0) && m != hostMbx) = true := by
    obtain host | address := owned
    · subst host; simp [hostMbx]
    · simp [show ¬s.mbxAddr m = 0#64 from address]
  have ask'' : s.agentAsk headAgent (mbxSerial m) (s.mbxTouch m (s.mbxAddr m) 80 true) = (r, true) := ask
  subst named
  have fresh' : ¬recField b 0 4 = recField b 4 4 := fresh
  simp only [State.serveWhen, none, if_neg due, if_neg addressed, State.pull_ready pulled, ask'', read, if_neg fresh']
  rfl

/-- A mailbox's command does what `k` says and answers what it answers. -/
theorem serveWhen_answers (asked : AskedWhen s u m q before a) {k : State → Request → State × MbxAnswer}
    (same : ∀ t, (k t q).2 = a t) : s.serveWhen m q.cmd before k = (k u q).1.answer m q (a u) := by
  obtain ⟨t, v, w, ready, pulled, ask, rfl, serves⟩ := asked.serves
  rw [serves, if_pos rfl, ready]
  refine (State.carryOut_ready pulled ?_).trans (by rw [same])
  rw [same]
  exact ask

/-- A command that is not listed is answered by any command's event (R425). -/
theorem serveWhen_unlisted (asked : Asked s u m q fun _ => (2, [])) (unlisted : q.cmd ∉ listed) {cmd : Nat}
    (other : cmd ∈ listed) (before' : State → Request → State × Bool) (k : State → Request → State × MbxAnswer) :
    s.serveWhen m cmd before' k = u.answer m q (2, []) := by
  obtain ⟨t, v, w, ready, pulled, ask, rfl, serves⟩ := asked.serves
  cases ready
  have differs : q.cmd ≠ cmd := fun same => unlisted (same ▸ other)
  rw [serves, if_neg differs, if_neg (by simpa using unlisted)]
  exact State.carryOut_ready pulled ask

end

/-! Who may issue a command (R415, R425) -/

section
variable (s : State) (p : State × MbxAnswer)

theorem State.anyone_fst : (s.anyone p).1 = if s.head.recovery then s else p.1 := by
  unfold State.anyone; split <;> rfl

theorem State.anyone_snd : (s.anyone p).2 = if s.head.recovery then (1, []) else p.2 := by
  unfold State.anyone; split <;> rfl

/-- An answer of 0 is the command's own. -/
theorem State.anyone_granted {s : State} {p : State × MbxAnswer} (granted : (s.anyone p).2 = (0, [])) : s.anyone p = p := by
  unfold State.anyone at granted ⊢
  split
  · next recovery => rw [if_pos recovery] at granted; cases granted
  · rfl

/-- A command that changes nothing when it refuses changes nothing when it is refused. -/
theorem State.anyone_refused {s : State} {p : State × MbxAnswer} (keeps : p.2 ≠ (0, []) → p.1 = s)
    (refused : (s.anyone p).2 ≠ (0, [])) : (s.anyone p).1 = s := by
  unfold State.anyone at refused ⊢
  split
  · rfl
  · next normal => rw [if_neg normal] at refused; exact keeps refused

theorem State.hostOnly_guest {m : Nat} (guest : m ≠ 64) (recovery : Bool) : s.hostOnly m recovery p = (s, 1, []) := by
  have other : (m != hostMbx) = true := bne_iff_ne.2 guest
  simp only [State.hostOnly, other, Bool.true_or, if_true]

theorem State.hostOnly_host : s.hostOnly 64 false p = s.anyone p := by
  cases recovery : s.head.recovery <;> simp [State.hostOnly, State.anyone, recovery, hostMbx]

theorem State.hostOnly_recovering : s.hostOnly 64 true p = p := by
  simp [State.hostOnly, hostMbx]

end

/-! The commands (R425 to R428) -/

/-- What ATTEST does and answers outside recovery mode. -/
def State.attested (t : State) (m : Nat) (q : Request) : State × MbxAnswer :=
  let r := t.report (t.mbxFn m) (q.arg.take 32)
  if 2 ^ 20 ≤ t.head.leaf then (t, 4, [])
  else if q.buflen < r.length then (t, 2, [])
  else ({ t with head := { t.head with leaf := t.head.leaf + 1 } }, 0, r)

/-- R428: a leaf is spent with each report that is given, and with nothing else. -/
theorem State.attested_fst (t : State) (m : Nat) (q : Request) :
    (t.anyone (t.attested m q)).1 = if (t.anyone (t.attested m q)).2.1 = 0 then
      { t with head := { t.head with leaf := t.head.leaf + 1 } } else t := by
  rw [State.anyone_fst, State.anyone_snd]
  by_cases recovery : t.head.recovery = true
  · simp only [if_pos recovery]; rfl
  · simp only [if_neg recovery, State.attested]
    split
    · rfl
    · split <;> rfl

/-- What FWSTAGE does and answers for the host. -/
def State.staged (s : State) (m : Nat) (q : Request) : State × MbxAnswer :=
  match s.mbxRead m q.buf q.buflen with
  | none => (s, 3, [])
  | some (s, bs) =>
    let off := leNat (q.arg.take 8)
    let h := s.head
    let b : Bank427 := ⟨memWrites (h.bank (1 - h.active)).bytes off bs⟩
    ({ s with head := if h.active = 0 then { h with bank1 := b } else { h with bank0 := b } }, 0, [])

/-- What KEYSWAP does and answers for the host outside recovery mode. -/
def State.swapped (s : State) (q : Request) : State × MbxAnswer :=
  let f := leNat (q.arg.take 1)
  let g := leNat ((q.arg.drop 1).take 1)
  if 64 ≤ f || 64 ≤ g then (s, 2, [])
  else if s.unrest f || s.unrest g then (s, 6, [])
  else match s.slotOf f, s.slotOf g with
    | some a, some b =>
      let s := (s.rotate a).rotate b
      ({ s with head := { s.head with slotOwner := tset (tset s.head.slotOwner a g) b f } }, 0, [])
    | _, _ => (s, 2, [])

/-- R425: both slots are rotated and exchange their owners; a swap that is refused changes nothing. -/
theorem State.swapped_granted {t : State} {q : Request} {a b : Nat} (granted : (t.swapped q).2 = (0, []))
    (slotF : t.slotOf (leNat (q.arg.take 1)) = some a) (slotG : t.slotOf (leNat ((q.arg.drop 1).take 1)) = some b) :
    (t.swapped q).1 = { (t.rotate a).rotate b with head := { ((t.rotate a).rotate b).head with
      slotOwner := tset (tset ((t.rotate a).rotate b).head.slotOwner a (leNat ((q.arg.drop 1).take 1))) b
        (leNat (q.arg.take 1)) } } := by
  simp only [State.swapped, slotF, slotG] at granted ⊢
  split at granted
  · cases granted
  · next inRange =>
    split at granted
    · cases granted
    · next atRest => rw [if_neg inRange, if_neg atRest]

theorem State.swapped_refused {t : State} {q : Request} (refused : (t.swapped q).2 ≠ (0, [])) : (t.swapped q).1 = t := by
  unfold State.swapped at refused ⊢
  dsimp only at refused ⊢
  split
  · rfl
  · next inRange =>
    rw [if_neg inRange] at refused
    split
    · rfl
    · next atRest =>
      rw [if_neg atRest] at refused
      split
      · next slotF slotG => rw [slotF, slotG] at refused; exact absurd rfl refused
      · rfl

theorem State.swapped_snd (t : State) (q : Request) : (t.swapped q).2 =
    let f := leNat (q.arg.take 1)
    let g := leNat ((q.arg.drop 1).take 1)
    if 64 ≤ f ∨ 64 ≤ g then (2, []) else if t.unrest f || t.unrest g then (6, [])
    else if (t.slotOf f).isSome ∧ (t.slotOf g).isSome then (0, []) else (2, []) := by
  simp only [State.swapped, apply_ite Prod.snd, Bool.or_eq_true, decide_eq_true_eq]
  congr 2
  cases t.slotOf (leNat (q.arg.take 1)) <;> cases t.slotOf (leNat ((q.arg.drop 1).take 1)) <;> simp

/-- What POWER does and answers for the host outside recovery mode. -/
def State.powered (s : State) (q : Request) : State × MbxAnswer :=
  let w := leNat (q.arg.take 2)
  if 2000 ≤ w && w ≤ 5600 then ({ s with head := { s.head with cap := BitVec.ofNat 16 w } }, 0, []) else (s, 2, [])

theorem State.powered_snd (t : State) (q : Request) : (t.powered q).2 =
    if 2000 ≤ leNat (q.arg.take 2) ∧ leNat (q.arg.take 2) ≤ 5600 then (0, []) else (2, []) := by
  simp only [State.powered, apply_ite Prod.snd, Bool.and_eq_true, decide_eq_true_eq]

theorem State.powered_fst (t : State) (q : Request) : (t.powered q).1 =
    if (t.powered q).2 = (0, []) then { t with head := { t.head with cap := BitVec.ofNat 16 (leNat (q.arg.take 2)) } }
    else t := by
  unfold State.powered
  dsimp only
  split <;> rfl

/-- What FWCOMMIT does and answers for the host. -/
def State.committed (s : State) : State × MbxAnswer :=
  if s.head.verifies (1 - s.head.active) then ({ s with head := { s.head with tryNext := true } }, 0, []) else (s, 5, [])

section
variable {s u : State} {m : Nat} {q : Request} {a : State → MbxAnswer}

theorem exec_sensors (cmd : q.cmd = 1) (asked : Asked s u m q a)
    (same : ∀ t, (t.anyone (t.sampled, 0, t.sampled.sensorRecord)).2 = a t) :
    exec (.sensors m) s = .next ((if u.head.recovery then u else u.sampled).answer m q (a u)) := by
  have served := serveWhen_answers asked (k := fun s _ => s.anyone (s.sampled, 0, s.sampled.sensorRecord)) same
  rw [cmd, State.anyone_fst] at served
  exact congrArg _ served

theorem exec_log (cmd : q.cmd = 2) (asked : Asked s u m q a)
    (same : ∀ t, (t.anyone (t, 0, ((t.head.log.filter fun e => decide (leNat (q.arg.take 8) ≤ e.seq) &&
      (m == hostMbx || e.fn == t.mbxFn m)).take (q.buflen / 32)).flatMap Event.bytes)).2 = a t) :
    exec (.log m) s = .next (u.answer m q (a u)) := by
  have served := serveWhen_answers asked (k := fun s q => s.anyone (s, 0, ((s.head.log.filter fun e =>
    decide (leNat (q.arg.take 8) ≤ e.seq) && (m == hostMbx || e.fn == s.mbxFn m)).take (q.buflen / 32)).flatMap
      Event.bytes)) same
  rw [cmd, State.anyone_fst, ite_self] at served
  exact congrArg _ served

theorem exec_attest (cmd : q.cmd = 3) (asked : Asked s u m q a) (same : ∀ t, (t.anyone (t.attested m q)).2 = a t) :
    exec (.attest m) s = .next ((if (a u).1 = 0 then { u with head := { u.head with leaf := u.head.leaf + 1 } }
      else u).answer m q (a u)) := by
  have served := serveWhen_answers asked (k := fun s q => s.anyone (s.attested m q)) same
  rw [cmd, State.attested_fst, same] at served
  exact congrArg _ served

theorem exec_fwstage (cmd : q.cmd = 0x10) (asked : Asked s u m q a)
    (same : ∀ t, (t.hostOnly m true (t.staged m q)).2 = a t) :
    exec (.fwstage m) s = .next ((u.hostOnly m true (u.staged m q)).1.answer m q (a u)) := by
  have served := serveWhen_answers asked (k := fun s q => s.hostOnly m true (s.staged m q)) same
  rw [cmd] at served
  exact congrArg _ served

theorem exec_keyswap (cmd : q.cmd = 0x20) (asked : AskedWhen s u m q (fun t q => t.swapReady m q) a)
    (same : ∀ t, (t.hostOnly m false (t.swapped q)).2 = a t) :
    exec (.keyswap m) s = .next ((u.hostOnly m false (u.swapped q)).1.answer m q (a u)) := by
  have served := serveWhen_answers asked (k := fun s q => s.hostOnly m false (s.swapped q)) same
  rw [cmd] at served
  exact congrArg _ served

theorem exec_power (cmd : q.cmd = 0x21) (asked : Asked s u m q a)
    (same : ∀ t, (t.hostOnly m false (t.powered q)).2 = a t) :
    exec (.power m) s = .next ((u.hostOnly m false (u.powered q)).1.answer m q (a u)) := by
  have served := serveWhen_answers asked (k := fun s q => s.hostOnly m false (s.powered q)) same
  rw [cmd] at served
  exact congrArg _ served

/-- What FWCOMMIT leaves once it is answered. -/
def State.commitOver (s w : State) : State :=
  if !w.head.tryNext then { w with head := { w.head with tryNext := s.head.tryNext } }
  else if s.head.recovery then w.coldStart true else w

theorem State.commitOver_marked {s w : State} (marked : w.head.tryNext = true) :
    s.commitOver w = if s.head.recovery then w.coldStart true else w := by
  simp only [State.commitOver, marked, Bool.not_true, Bool.false_eq_true, if_false]

theorem State.commitOver_unmarked {s w : State} (unmarked : w.head.tryNext = false) :
    s.commitOver w = { w with head := { w.head with tryNext := s.head.tryNext } } := by
  simp only [State.commitOver, unmarked, Bool.not_false, if_true]

theorem exec_fwcommit (cmd : q.cmd = 0x11)
    (asked : Asked { s with head := { s.head with tryNext := false } } u m q a)
    (same : ∀ t, (t.hostOnly m true t.committed).2 = a t) :
    exec (.fwcommit m) s = .next (s.commitOver ((u.hostOnly m true u.committed).1.answer m q (a u))) := by
  have served := serveWhen_answers asked (k := fun s _ => s.hostOnly m true s.committed) same
  rw [cmd] at served
  exact congrArg (fun w => Host.Outcome.next (s.commitOver w)) served

end

/-! The phases of an answer (R424) -/

section
variable {t w : State} {a : Answering} (k : Nat)

theorem answerOn_waits (open_ : ∃ x ∈ a.ids, t.openId x = true) : t.answerOn a (k + 1) = t.answerWaits a := by
  have any : a.ids.any t.openId = true := List.any_eq_true.2 open_
  rw [State.answerOn, if_pos any]

variable (complete : ∀ x ∈ a.ids, t.openId x = false)
include complete

theorem answerOn_writes (undone : a.done = false)
    (asked : t.agentAsk 3397 (64 + a.mbx) (t.mbxTouch a.mbx (t.mbxAddr a.mbx + 4) 4 true) = (w, true)) :
    t.answerOn a (k + 1) = (w.mbxPut a.mbx 4 (leBytes 4 a.seq)).answerOn
      { a with done := true, ids := (w.mbxPut a.mbx 4 (leBytes 4 a.seq)).openSince w } k := by
  have none : a.ids.any t.openId = false := by simpa using complete
  have asked' : t.agentAsk headAgent (mbxSerial a.mbx) (t.mbxTouch a.mbx (t.mbxAddr a.mbx + 4) 4 true) = (w, true) := asked
  simp only [State.answerOn, none, undone, asked', Bool.false_eq_true, if_false]

theorem answerOn_signals (done : a.done = true)
    (asked : t.agentAsk 3397 (64 + a.mbx) (if a.mbx = 64 then [] else [t.wakeTouch a.mbx]) = (w, true)) :
    t.answerOn a (k + 1) = w.mbxSignal a.mbx := by
  have none : a.ids.any t.openId = false := by simpa using complete
  have asked' : t.agentAsk headAgent (mbxSerial a.mbx) (if a.mbx = hostMbx then [] else [t.wakeTouch a.mbx]) = (w, true) :=
    asked
  simp only [State.answerOn, none, done, asked', Bool.false_eq_true, if_false, if_true]

end

theorem State.answer_empty (u : State) (m : Nat) (q : Request) (st : Nat) : u.answer m q (st, []) =
    let t := (u.mbxPut m 10 (leBytes 2 st)).mbxPut m 76 (leBytes 4 0)
    t.answerOn ⟨m, q.seq, false, t.openSince u⟩ 3 := by
  have nothing : (st != 0 || ([] : List Byte).isEmpty) = true := Bool.or_true _
  simp only [State.answer, nothing, if_true]

theorem exec_hldoorRing {s : State} (v : Word) (up : s.portUp 0 = true ∨ s.portUp 1 = true) :
    exec (.hldoorRing v) s = .next { s with head := { s.head with
      wakes := tset s.head.wakes 64 (tget s.head.wakes 64 0 ||| 1) } } := by
  have up' : (s.portUp 0 || s.portUp 1) = true := by simpa using up
  show execHldoorRing v s = _
  rw [execHldoorRing, if_pos up']
  rfl

/-- Settles O48: each command by what it does and answers, which the request's turn is asked for, and an answer by its
phases. -/
theorem mailboxCommands : Obligations.MailboxCommands := by
  intro m q s u unlessRecovery fn sensors log report attest refused stage f g swap w power
  have anyone (t : State) (p : State × MbxAnswer) : (t.anyone p).2 = unlessRecovery t p.2 := t.anyone_snd p
  refine ⟨exec_hldoorRing, ?sensors, ⟨rfl, rfl⟩, ?unlisted, ?log, ?attest, ?guest, ?fwstage, ?keyswap, ?power, ?fwcommit,
    u.answer_empty m q, fun t a k => ⟨answerOn_waits k, fun complete undone w asked => answerOn_writes k complete undone asked,
      fun complete done w asked => ?signals⟩⟩
  case sensors => exact fun cmd asked => exec_sensors cmd asked fun t => anyone t _
  case unlisted =>
    exact fun unlisted asked => congrArg _ (serveWhen_unlisted asked unlisted (by decide) _ _)
  case log => exact fun cmd asked => exec_log cmd asked fun t => anyone t _
  case attest =>
    have same (t : State) : (t.anyone (t.attested m q)).2 = attest t := by
      rw [anyone]
      simp only [State.attested, apply_ite Prod.snd]
      rfl
    exact fun cmd asked => exec_attest cmd asked same
  case guest =>
    intro other asked
    have denied (t : State) (recovery : Bool) (p : State × MbxAnswer) := t.hostOnly_guest p other recovery
    have unheld : (fun (t : State) q => t.swapReady m q) = fun t _ => (t, true) := by
      have guest : (m != hostMbx) = true := bne_iff_ne.2 other
      funext t q
      simp only [State.swapReady, guest, Bool.true_or, if_true]
    refine ⟨fun cmd => ?_, fun cmd => ?_, fun cmd => ?_⟩
    · rw [exec_fwstage cmd asked fun t => by rw [denied], denied]
    · rw [exec_keyswap (a := refused) cmd (by rw [unheld]; exact asked) fun t => by rw [denied], denied]
    · rw [exec_power cmd asked fun t => by rw [denied], denied]
  case fwstage =>
    rintro rfl cmd asked t bs read
    have same (t : State) : (t.hostOnly 64 true (t.staged 64 q)).2 = stage t := by
      rw [State.hostOnly_recovering, State.staged]
      simp only [stage]
      cases t.mbxRead 64 q.buf q.buflen <;> rfl
    rw [exec_fwstage cmd asked same, State.hostOnly_recovering, State.staged]
    simp only [stage, read]
    rfl
  case keyswap =>
    rintro rfl cmd asked
    have same (t : State) : (t.anyone (t.swapped q)).2 = swap t := by
      rw [anyone, State.swapped_snd]
    have runs := exec_keyswap cmd asked fun t => by rw [State.hostOnly_host, same]
    rw [State.hostOnly_host] at runs
    refine ⟨fun refusal => ?_, fun granted a b slotF slotG => ?_⟩
    · rw [runs, State.anyone_refused State.swapped_refused (by rw [same]; exact refusal)]
    · have own := State.anyone_granted ((same u).trans granted)
      have owned : (u.swapped q).2 = (0, []) := by rw [← own, same, granted]
      rw [runs, own, State.swapped_granted owned slotF slotG, granted]
  case power =>
    rintro rfl cmd asked
    have same (t : State) : (t.anyone (t.powered q)).2 = power t := by
      rw [anyone, State.powered_snd]
    have runs := exec_power cmd asked fun t => by rw [State.hostOnly_host, same]
    rw [State.hostOnly_host] at runs
    refine ⟨fun refusal => ?_, fun granted => ?_⟩
    · rw [runs, State.anyone_refused (fun refused => by rw [State.powered_fst, if_neg refused])
        (by rw [same]; exact refusal)]
    · have own := State.anyone_granted ((same u).trans granted)
      have owned : (u.powered q).2 = (0, []) := by rw [← own, same, granted]
      rw [runs, own, State.powered_fst, if_pos owned, granted]
  case fwcommit =>
    intro cmd commit asked answered
    have meaning (t : State) : t.hostOnly m true t.committed =
        (if commit t = (0, []) then { t with head := { t.head with tryNext := true } } else t, commit t) := by
      by_cases host : m = 64
      · subst host
        rw [State.hostOnly_recovering, State.committed]
        cases verified : t.head.verifies (1 - t.head.active) <;> simp [commit, verified]
      · rw [State.hostOnly_guest _ _ host]
        simp [commit, host]
    have leaves : (u.hostOnly m true u.committed).1.answer m q (commit u) = answered := by
      rw [meaning]
      by_cases granted : commit u = (0, [])
      · simp only [answered, granted, if_true]
      · simp only [answered, if_neg granted]
    have runs := exec_fwcommit cmd asked fun t => congrArg Prod.snd (meaning t)
    rw [leaves] at runs
    exact ⟨fun marked => by rw [runs, State.commitOver_marked marked],
      fun unmarked => by rw [runs, State.commitOver_unmarked unmarked]⟩
  case signals =>
    intro x
    rw [answerOn_signals k complete done asked]
    rfl

end Sys2Proof.Machine

/-! SUPPORT. No turn stops the machine: every instruction's answer is a next state, except a stream's word without its
stream; and the statement about it. -/

namespace Sys2Proof.Machine

/-- What an instruction may answer: a next state, or a refusal when no stream is there to issue. -/
inductive Answers (s : State) : Host.Outcome State Fault Refusal → Prop
  | next (t : State) : Answers s (.next t)
  | refused (streamless : s.agenda.cur.bind s.issue? = none) : Answers s (.refused .noStream)

theorem word_answers (s : State) (k : Issue → State) : Answers s (word s k) := by
  cases cur : s.agenda.cur with
  | none =>
    rw [word, cur]
    exact .refused (by rw [cur]; rfl)
  | some r =>
    cases looked : s.issue? r with
    | none =>
      simp only [word, cur, looked]
      exact .refused (by rw [cur]; exact looked)
    | some i =>
      simp only [word, cur, looked]
      exact .next _

theorem homeReduction_answers (s : State) (m : Nat) : Answers s (exec (.homeReduction m) s) := by
  show Answers s (execHomeReduction m s)
  unfold execHomeReduction
  split
  · exact .next _
  · exact .next _

/-- The words of a program answer as `word` does; messages and the other events lead to a next state always. -/
theorem exec_answers (ins : Instr) (s : State) : Answers s (exec ins s) := by
  cases ins with
  | nop | exit | br | brQ | brB | brBack | call | ret | brInd | callInd | join | yield | splitYield | trap | add
  | addImm | sub | mul | mulImm | mulhi | mad | div | rem | min | max | abs | neg | sad | lea | movImm | mov | movhi
  | and | andImm | or | orImm | xor | xorImm | not | shl | shlImm | shr | shrImm | rot | popc | clz | brev | bfe
  | bfi | cmp | cmpImm | sel | pand | por | pxor | pnot | leaPriv | leaPrivSelf | srGet | srSet | shflIdx | shflUp
  | shflDown | shflXor | voteAny | voteAll | voteBallot | scan | scanEx | wred | elect | xch | matchLanes | fadd
  | fsub | fmul | ffma | fmin | fmax | fabs | fneg | fcmp | fclass | frcp | fsqrt | frsqrt | fexp2 | flog2 | fsin
  | fcos | ftanh | fdiv | fdot2 | frnd | fscale | hadd2 | hmul2 | hfma2 | cvt | cvtPk | cvtUnpk | mxPack | mxUnpk
  | mxScale | cvtF6 | cvtI4 | fmtSetImm | fmtSetReg | fmtGet | fmtGetFlags | fmtGetFlagsClr | fmtSeed | ld | st
  | ldx | ldIdx | stIdx | stq | redQ | pf | waitCnt | fence | atom | cas | red | ll | sc | waitAddr | rvInit | rvArr
  | rvWait | rvTest | gSet | sigq | cp | cpFeed | cpYield | cpColl | cpPut | cpGet | mma | mmaTwin | mmaBud
  | accZeroImm | accZeroReg | accLd | accFin | wb | ii | fbar | nodePost | discard | rngInv | rngInvAll | rngSync
  | zline | fenceHb | ebbSlide | ebbStat | halt | shortPair | illegalInstrWord => exact word_answers _ _
  | loadReply | queueDataArrival | fairnessRotation | rangeWalkStart | rangeWalkComplete | missFill
  | instructionFetchFill | resteer | stranded | read | data | store | homeAtomic | stack | upd
  | uack | inv | iack | evn | ureq | ugrant | gather | delta | nodelta | dwb | retry | retryReissue | discardAtHome
  | memoryRequestIssue | hotRowHoldEnd | refreshWindowEnd | memoryFill | slideStartCommit | ebbStep
  | ebbStepComplete | slideCompletionCommit | slideReport | emissionApply | commandStart | commandComplete
  | mmaRunStart | mmaRunEnd | heartbeatTick | waitAddrWake | stalemateDetect | haltArrival | trapRecordWrite
  | resolveResume | resolveSkip | resolveDiscard | teamDispatch | nodeComplete | partitionPeriod | poolStarvation
  | heldCoreExpiry | preemptComplete | teamSave | fnrstQuiesce | fnrstRotate | fnrstClear | clearSpanDone
  | fnrstIdle | sensors | log | attest | fwstage | fwcommit | keyswap | power | cxlMemRead | cxlMemWrite
  | hostSharedRequest | hostOwnershipRequest | hostWriteback | backInvalidationResponse | hostSnoop | cxlCacheFill
  | portLinkDown | portLinkUp | contextFatal | dieLoss | uncorrectableError | correctedError | contextDestruction
  | coreRemovedFromService | ctxctlRunSet | ctxctlRunClear | amapEntryValidate | amapWerrClear | hdmWindowValidate
  | fnsvcWrite | preemptGo | fnrstGo | hldoorRing | registerWrite | coldStart | preheatComplete | preheatTimeout
  | hbmTrainingComplete | droopStretch | railRecover | hbmCold | warmingLoadEnd | hbmHot | hbmCooled | junctionHot
  | junctionCooled | powerOverCap | retrainStart | tsvGroupDone | remoteRequest | peerTimeout | remoteResponse
  | fabricPortLoss => exact .next _
  | homeReduction m => exact homeReduction_answers s m

/-- A stream that is there runs its word. -/
theorem exec_issuing_next {u : State} {r : StreamRef} {i : Issue} (looked : u.issue? r = some i) (ins : Instr) :
    ∃ t, exec ins (u.issuing r) = .next t := by
  match exec ins (u.issuing r), exec_answers ins (u.issuing r) with
  | _, .next t => exact ⟨t, rfl⟩
  | _, .refused streamless => exact absurd (looked.symm.trans streamless) (by simp)

theorem ref_of_issue? {u : State} {r : StreamRef} {i : Issue} (looked : u.issue? r = some i) : i.ref = r := by
  unfold State.issue? at looked
  repeat' split at looked
  all_goals cases looked
  rfl

theorem fetchTurn_next (u : State) (r : StreamRef) : ∃ t, u.fetchTurn r = .next t := by
  cases looked : u.issue? r with
  | none => exact ⟨u, by rw [State.fetchTurn, looked]⟩
  | some i =>
    obtain rfl := ref_of_issue? looked
    cases allowed : i.allowed with
    | false => exact ⟨u, fetchTurn_barred looked allowed⟩
    | true => exact ⟨_, fetchTurn_fetches looked allowed rfl⟩

/-- A stream's own turn: its word runs while the stream is there, and otherwise the fetch of one has its turn. -/
theorem runStream_next (u : State) (r : StreamRef) : ∃ t, u.runStream r = .next t := by
  cases word : u.nextInstr r with
  | none =>
    rw [State.runStream, word]
    exact fetchTurn_next u r
  | some ins =>
    rw [State.runStream, word]
    cases looked : u.issue? r with
    | none => simp [State.nextInstr, looked] at word
    | some i => exact exec_issuing_next looked ins

theorem turn_next (u : State) (t : Turn) : ∃ v, u.turn t = .next v := by
  cases t with
  | issue r =>
    obtain ⟨v, runs⟩ := runStream_next u (u.issuer r)
    exact ⟨v.idle.settleFavour, congrArg endTurn runs⟩
  | event ins =>
    generalize answer : exec ins u.idle = o
    have answers := exec_answers ins u.idle
    rw [answer] at answers
    cases answers with
    | next v => exact ⟨_, turn_event answer⟩
    | refused streamless => exact ⟨_, turn_noEvent answer⟩

/-- Settles O56: the turn that is taken, whichever it is, leads to a next state. -/
theorem stepNeverStops : Obligations.StepNeverStops :=
  fun s => turn_next s.takeTurn.2 s.takeTurn.1

end Sys2Proof.Machine

/-! SUPPORT. Memory keeps its canonical form: one lemma for each function that leads to a state, in the order of their
definitions; and the statement about a step. The hypothesis `canon` says that memory has the form before. -/

namespace Sys2Proof.Machine

section
variable {s t : State} {α β : Type}

/-! States in an answer -/

/-- Whatever state the answer leads to has its memory in canonical form. -/
def Outcome.MemOk (o : Host.Outcome State Fault Refusal) : Prop := ∀ t, o = .next t → t.MemOk

theorem next_memOk (canon : s.MemOk) : Outcome.MemOk (.next s) := by
  rintro t ⟨⟩
  exact canon

theorem refused_memOk {r : Refusal} : Outcome.MemOk (.refused r) := by
  rintro t ⟨⟩

theorem memOk_of_mem (same : t.mem = s.mem) (canon : s.MemOk) : t.MemOk := by
  unfold State.MemOk
  rw [same]
  exact canon

theorem memOk_of_fst {p : State × α} {b : α} (run : p = (s, b)) (canon : p.1.MemOk) : s.MemOk := by
  rw [run] at canon
  exact canon

theorem State.withTime_memOk {time : Time} (canon : s.MemOk) : State.MemOk { s with time := time } := canon
theorem State.withSched_memOk {sched : Sched} (canon : s.MemOk) : State.MemOk { s with sched := sched } := canon

theorem none_memOk : ∀ t ∈ (none : Option State), t.MemOk := by
  rintro t ⟨⟩

theorem some_memOk (canon : s.MemOk) : ∀ t ∈ some s, t.MemOk := by
  rintro t ⟨⟩
  exact canon

theorem none_fst_memOk : ∀ (t : State) (b : α), none = some (t, b) → t.MemOk := by
  rintro t b ⟨⟩

theorem some_fst_memOk {b : α} (canon : s.MemOk) : ∀ t b', some (s, b) = some (t, b') → t.MemOk := by
  rintro t b ⟨⟩
  exact canon

theorem getD_memOk {o : Option State} (kept : ∀ t ∈ o, t.MemOk) (canon : s.MemOk) : (o.getD s).MemOk := by
  cases o with
  | none => exact canon
  | some t => exact kept t rfl

theorem bind_memOk {o : Option α} {f : α → Option State} (keeps : ∀ a ∈ o, ∀ t ∈ f a, t.MemOk) :
    ∀ t ∈ o.bind f, t.MemOk := by
  cases o with
  | none => exact none_memOk
  | some a => exact keeps a rfl

theorem map_memOk {o : Option State} {f : State → State} (keeps : ∀ t, t.MemOk → (f t).MemOk)
    (kept : ∀ t ∈ o, t.MemOk) : ∀ t ∈ o.map f, t.MemOk := by
  cases o with
  | none => exact none_memOk
  | some t => exact some_memOk (keeps t (kept t rfl))

theorem findSome_memOk {l : List α} {f : α → Option State} (keeps : ∀ a, ∀ t ∈ f a, t.MemOk) :
    ∀ t ∈ l.findSome? f, t.MemOk := by
  intro t found
  obtain ⟨_, a, _, _, first, _⟩ := List.findSome?_eq_some_iff.1 found
  exact keeps a t first

/-! Lists of updates -/

theorem foldl_memOk {f : State → α → State} {l : List α} (keeps : ∀ t a, t.MemOk → (f t a).MemOk)
    (canon : s.MemOk) : (l.foldl f s).MemOk := by
  induction l generalizing s with
  | nil => exact canon
  | cons a l ih => exact ih (keeps s a canon)

theorem foldl_fst_memOk {f : State × β → α → State × β} {p : State × β} {l : List α}
    (keeps : ∀ p a, p.1.MemOk → (f p a).1.MemOk) (canon : p.1.MemOk) : (l.foldl f p).1.MemOk := by
  induction l generalizing p with
  | nil => exact canon
  | cons a l ih => exact ih (keeps p a canon)

theorem foldl_opt_memOk {f : State → α → Option State} {o : Option State} {l : List α}
    (keeps : ∀ t a, t.MemOk → ∀ u ∈ f t a, u.MemOk) (kept : ∀ t ∈ o, t.MemOk) :
    ∀ t ∈ l.foldl (fun o a => o.bind fun t => f t a) o, t.MemOk := by
  induction l generalizing o with
  | nil => exact kept
  | cons a l ih => exact ih (bind_memOk fun t found => keeps t a (kept t found))

/-! Choices -/

variable {c : Prop} [Decidable c]

theorem ite_memOk (then_ : s.MemOk) (else_ : t.MemOk) : (if c then s else t).MemOk := by
  split
  · exact then_
  · exact else_

theorem ite_fst_memOk {p q : State × α} (then_ : p.1.MemOk) (else_ : q.1.MemOk) : (if c then p else q).1.MemOk := by
  split
  · exact then_
  · exact else_

theorem ite_opt_memOk {o o' : Option State} (then_ : ∀ u ∈ o, u.MemOk) (else_ : ∀ u ∈ o', u.MemOk) :
    ∀ u ∈ if c then o else o', u.MemOk := by
  split
  · exact then_
  · exact else_

theorem ite_optFst_memOk {o o' : Option (State × α)} (then_ : ∀ u b, o = some (u, b) → u.MemOk)
    (else_ : ∀ u b, o' = some (u, b) → u.MemOk) : ∀ u b, (if c then o else o') = some (u, b) → u.MemOk := by
  split
  · exact then_
  · exact else_

theorem ite_out_memOk {o o' : Host.Outcome State Fault Refusal} (then_ : Outcome.MemOk o) (else_ : Outcome.MemOk o') :
    Outcome.MemOk (if c then o else o') := by
  split
  · exact then_
  · exact else_

end

section
variable {s : State}

/-! Reset -/

theorem State.reset_memOk : State.reset.MemOk :=
  rfl

/-! Operations -/

theorem State.modTeam_memOk {t f} (canon : s.MemOk) : (s.modTeam t f).MemOk := canon
theorem State.modWarp_memOk {t w f} (canon : s.MemOk) : (s.modWarp t w f).MemOk := canon
theorem State.modSlice_memOk {t w sl f} (canon : s.MemOk) : (s.modSlice t w sl f).MemOk := canon
theorem State.modSplit_memOk {r f} (canon : s.MemOk) : (s.modSplit r f).MemOk := canon
theorem State.modCore_memOk {n f} (canon : s.MemOk) : (s.modCore n f).MemOk := canon
theorem State.modFlight_memOk {id f} (canon : s.MemOk) : (s.modFlight id f).MemOk := canon
theorem State.dropFlight_memOk {id} (canon : s.MemOk) : (s.dropFlight id).MemOk := canon
theorem State.widenOwners_memOk {t w sl} (canon : s.MemOk) : (s.widenOwners t w sl).MemOk := canon
theorem State.settle_memOk {t w sl} (canon : s.MemOk) : (s.settle t w sl).MemOk := canon
theorem State.raise_memOk {t tr} (canon : s.MemOk) : (s.raise t tr).MemOk := canon
theorem State.raiseAt_memOk {i tr} (canon : s.MemOk) : (s.raiseAt i tr).MemOk := canon

theorem State.decodeTrap_memOk {i code sub detail} (canon : s.MemOk) : (s.decodeTrap i code sub detail).MemOk :=
  canon

theorem State.waitAt_memOk {i w} (canon : s.MemOk) : (s.waitAt i w).MemOk := canon
theorem State.counted_memOk {r} (canon : s.MemOk) : (s.counted r).MemOk := canon
theorem State.modIssuer_memOk {i f} (canon : s.MemOk) : (s.modIssuer i f).MemOk := canon
theorem State.advanceTo_memOk {i mark pc} (canon : s.MemOk) : (s.advanceTo i mark pc).MemOk := canon
theorem State.advance_memOk {i mark} (canon : s.MemOk) : (s.advance i mark).MemOk := canon

theorem State.holdBack_memOk {i} (canon : s.MemOk) : (s.holdBack i).MemOk := by
  unfold State.holdBack
  split
  · exact canon
  · exact waitAt_memOk canon

theorem word_memOk {k} (canon : s.MemOk) (keeps : ∀ x0, (k x0).MemOk) : Outcome.MemOk (word s k) := by
  unfold word
  split
  · exact refused_memOk
  · split
    · exact refused_memOk
    · exact next_memOk (ite_memOk (ite_memOk (State.holdBack_memOk canon) (keeps _)) canon)

theorem State.bump_memOk (canon : s.MemOk) : s.bump.MemOk := canon
theorem State.bumpFree_memOk (canon : s.MemOk) : s.bumpFree.MemOk := canon
theorem State.tookFree_memOk {n} (canon : s.MemOk) : (s.tookFree n).MemOk := canon

theorem State.results_memOk {i ws} (canon : s.MemOk) : (s.results i ws).MemOk :=
  ite_memOk canon canon

theorem State.unpark_memOk {t w sl} (canon : s.MemOk) : (s.unpark t w sl).MemOk := canon

@[simp] theorem State.logEvent_mem {s : State} {type_ fn ctx agent addr detail} :
    (s.logEvent type_ fn ctx agent addr detail).mem = s.mem := by
  obtain ⟨mem⟩ := s
  rfl

theorem State.logEvent_memOk {type_ fn ctx agent addr detail} (canon : s.MemOk) :
    (s.logEvent type_ fn ctx agent addr detail).MemOk :=
  memOk_of_mem logEvent_mem canon

/-! Registers -/

theorem State.setReg_memOk {r v} (canon : s.MemOk) : (s.setReg r v).MemOk := canon
theorem State.setCtxState_memOk {c st} (canon : s.MemOk) : (s.setCtxState c st).MemOk := canon

theorem State.signal_memOk {fn v} (canon : s.MemOk) : (s.signal fn v).MemOk :=
  ite_memOk canon (ite_memOk canon (logEvent_memOk canon))

theorem State.signalCtx_memOk {c} (canon : s.MemOk) : (s.signalCtx c).MemOk :=
  signal_memOk canon

/-! Ranges -/

theorem State.setPoison_memOk {line p} (canon : s.MemOk) : (s.setPoison line p).MemOk := canon
theorem State.noteResolve_memOk {line} (canon : s.MemOk) : (s.noteResolve line).MemOk := canon

theorem State.homeMerge_memOk {slot line bytes} (canon : s.MemOk) : (s.homeMerge slot line bytes).MemOk :=
  noteResolve_memOk (memWrite_foldl_wf _ _ bytes (rekey_memOk canon))

/-! Home slices -/

theorem State.send_memOk {src dst line b} (canon : s.MemOk) : (s.send src dst line b).MemOk := canon
theorem State.take_memOk {m} (canon : s.MemOk) : (s.take m).MemOk := canon
theorem State.setL2_memOk {line x} (canon : s.MemOk) : (s.setL2 line x).MemOk := canon
theorem State.modL2_memOk {line f} (canon : s.MemOk) : (s.modL2 line f).MemOk := canon
theorem State.modDir_memOk {line f} (canon : s.MemOk) : (s.modDir line f).MemOk := canon
theorem State.mcPush_memOk {fn line write} (canon : s.MemOk) : (s.mcPush fn line write).MemOk := canon
theorem State.wakeLine_memOk {line} (canon : s.MemOk) : (s.wakeLine line).MemOk := canon
theorem State.clearResv_memOk {line} (canon : s.MemOk) : (s.clearResv line).MemOk := canon

theorem State.combine_memOk {d} (canon : s.MemOk) : (s.combine d).MemOk :=
  clearResv_memOk (foldl_memOk (fun _ _ => homeMerge_memOk) canon)

theorem State.absorb_memOk {line} (canon : s.MemOk) : (s.absorb line).MemOk := by
  simp only [State.absorb]
  refine foldl_memOk ?_ canon
  intro _ _ kept
  split
  · exact combine_memOk (take_memOk kept)
  · exact combine_memOk kept
  · exact combine_memOk (take_memOk kept)
  · exact kept

theorem State.settleLine_memOk {line} (canon : s.MemOk) : (s.settleLine line).MemOk :=
  modDir_memOk (absorb_memOk (foldl_memOk (fun _ _ => combine_memOk) canon))

theorem State.poisonHalves_memOk {line p} (canon : s.MemOk) : (s.poisonHalves line p).MemOk :=
  logEvent_memOk (setPoison_memOk canon)

theorem State.hostBack_memOk {line key h} (canon : s.MemOk) : (s.hostBack line key h).MemOk :=
  ite_memOk canon (logEvent_memOk (poisonHalves_memOk canon))

theorem State.fetchHalf_memOk {line h} (canon : s.MemOk) : (s.fetchHalf line h).MemOk :=
  ite_memOk canon (ite_memOk canon (poisonHalves_memOk (modL2_memOk canon)))

theorem State.block_memOk {line b} (canon : s.MemOk) : (s.block line b).MemOk := canon

theorem State.openAck_memOk {line dsts round gather settle reply body} (canon : s.MemOk) :
    (s.openAck line dsts round gather settle reply body).MemOk :=
  foldl_memOk (fun _ _ => send_memOk) canon

theorem State.carry_memOk {line key writer ps reply} (canon : s.MemOk) :
    ∀ t ∈ s.carry line key writer ps reply, t.MemOk :=
  ite_opt_memOk none_memOk (some_memOk (openAck_memOk (ite_memOk (block_memOk canon) canon)))

theorem State.startGather_memOk {line} (canon : s.MemOk) : (s.startGather line).MemOk :=
  openAck_memOk (block_memOk canon)

theorem State.setHostHalf_memOk {line hi v} (canon : s.MemOk) : (s.setHostHalf line hi v).MemOk := canon

theorem State.snoopHost_memOk {line halves write stamp agent} (canon : s.MemOk) :
    (s.snoopHost line halves write stamp agent).MemOk :=
  block_memOk (foldl_memOk (fun _ _ kept => by exact ite_memOk kept kept) canon)

theorem State.dropL2_memOk {line fn} (canon : s.MemOk) : (s.dropL2 line fn).MemOk := by
  simp only [State.dropL2]
  split
  · exact canon
  · exact ite_memOk canon (ite_memOk (foldl_memOk (fun _ _ => hostBack_memOk) canon) (mcPush_memOk canon))

/-! Settling and reductions -/

theorem State.changed_memOk {line} (canon : s.MemOk) : (s.changed line).MemOk := canon
theorem State.sendStack_memOk {dst r line drop} (canon : s.MemOk) : (s.sendStack dst r line drop).MemOk := canon

theorem State.reduceAt_memOk {line r op ty ws} (canon : s.MemOk) : (s.reduceAt line r op ty ws).MemOk :=
  ite_memOk (changed_memOk (clearResv_memOk (foldl_memOk
    (fun _ _ kept => ite_memOk (logEvent_memOk kept) (homeMerge_memOk kept)) canon))) (foldl_memOk
    (fun _ _ kept => ite_memOk (logEvent_memOk kept) (homeMerge_memOk kept)) canon)

theorem State.completions_memOk (canon : s.MemOk) : s.completions.MemOk := canon

theorem State.putPart_memOk {p} (canon : s.MemOk) : (s.putPart p).MemOk := by
  simp only [State.putPart]
  refine ite_memOk ?_ canon
  refine completions_memOk ?_
  split
  · exact sendStack_memOk canon
  · exact canon

theorem State.stepPart_memOk {p k} (canon : s.MemOk) : (s.stepPart p k).MemOk := by
  simp only [State.stepPart]
  split
  · split
    next run => exact putPart_memOk (carry_memOk (reduceAt_memOk canon) _ run)
    · exact putPart_memOk (reduceAt_memOk canon)
  · exact canon

theorem State.beginPart_memOk {p} (canon : s.MemOk) : (s.beginPart p).MemOk :=
  stepPart_memOk canon

theorem State.calm_memOk {line} (canon : s.MemOk) : (s.calm line).1.MemOk :=
  foldl_memOk (fun _ _ kept => ite_memOk kept (stepPart_memOk kept)) canon

theorem State.reply__memOk {o} (canon : s.MemOk) : (s.reply_ o).MemOk := canon
theorem State.hostHas_memOk {line hi v port} (canon : s.MemOk) : (s.hostHas line hi v port).MemOk := canon
theorem State.unclaim_memOk {agent serial} (canon : s.MemOk) : (s.unclaim agent serial).MemOk := canon
theorem State.hostDone_memOk {w} (canon : s.MemOk) : (s.hostDone w).MemOk := canon
theorem State.grant_memOk {w fn a own} (canon : s.MemOk) : (s.grant w fn a own).MemOk := canon

theorem State.endSettle_memOk {x} (canon : s.MemOk) : (s.endSettle x).MemOk := by
  unfold State.endSettle
  extract_lets left net ended answered granted cleaned
  have kept : left.MemOk := ite_memOk canon (modDir_memOk canon)
  have told : answered.MemOk := by
    unfold answered
    split
    · exact send_memOk kept
    · exact kept
  have gave : granted.MemOk := by
    unfold granted
    split
    · split
      · exact grant_memOk told
      · exact told
    · exact told
  have clean : cleaned.MemOk := ite_memOk (modL2_memOk gave) gave
  exact ite_memOk (dropL2_memOk clean) clean

theorem State.settleOn_memOk {x} (canon : s.MemOk) : (s.settleOn x).1.MemOk :=
  ite_fst_memOk canon (ite_fst_memOk (startGather_memOk canon) (ite_fst_memOk (snoopHost_memOk canon)
    (ite_fst_memOk (openAck_memOk canon) (ite_fst_memOk canon (endSettle_memOk canon)))))

theorem State.startSettle_memOk {x} (canon : s.MemOk) : (s.startSettle x).1.MemOk := by
  simp only [State.startSettle]
  split
  next run => exact memOk_of_fst run (calm_memOk canon)
  next run =>
    have kept := memOk_of_fst run (calm_memOk canon)
    split
    next run => exact block_memOk (memOk_of_fst run (settleOn_memOk kept))
    next run => exact memOk_of_fst run (settleOn_memOk kept)

theorem State.makeRoom_memOk {line r} (canon : s.MemOk) : (s.makeRoom line r).1.MemOk := by
  unfold State.makeRoom
  refine ite_fst_memOk canon (ite_fst_memOk canon ?_)
  split
  · exact canon
  · exact startSettle_memOk canon

theorem State.unkey_memOk {line r} (canon : s.MemOk) : (s.unkey line r).1.MemOk :=
  ite_fst_memOk (startSettle_memOk canon) canon

theorem State.touch_memOk {line dirty} (canon : s.MemOk) : (s.touch line dirty).MemOk := canon

theorem State.startFill_memOk {line r hs} (canon : s.MemOk) : (s.startFill line r hs).1.MemOk := by
  simp only [State.startFill]
  refine ite_fst_memOk canon ?_
  split
  next run => exact memOk_of_fst run (ite_fst_memOk canon (makeRoom_memOk canon))
  next run =>
    have kept := memOk_of_fst run (ite_fst_memOk canon (makeRoom_memOk canon))
    exact ite_fst_memOk (block_memOk (foldl_memOk (fun _ _ => fetchHalf_memOk) (setL2_memOk kept))) (ite_fst_memOk
      (setL2_memOk kept) (block_memOk (mcPush_memOk (setL2_memOk kept))))

theorem State.adopt_memOk {line r} (canon : s.MemOk) : (s.adopt line r).1.MemOk := by
  unfold State.adopt
  refine ite_fst_memOk ?_ canon
  split
  next run => exact memOk_of_fst run (makeRoom_memOk canon)
  next run => exact modL2_memOk (memOk_of_fst run (makeRoom_memOk canon))

theorem State.endTransient_memOk {line} (canon : s.MemOk) : (s.endTransient line).MemOk := by
  unfold State.endTransient
  split
  · exact ite_memOk (dropL2_memOk canon) canon
  · exact canon

theorem State.claim_memOk {line r} (canon : s.MemOk) : (s.claim line r).MemOk :=
  ite_memOk canon (ite_memOk canon canon)

theorem State.roomFor_memOk {line r hs} (canon : s.MemOk) : (s.roomFor line r hs).1.MemOk := by
  simp only [State.roomFor]
  split
  · split
    next run => exact memOk_of_fst run (startFill_memOk canon)
    next run => exact memOk_of_fst run (startFill_memOk canon)
  · split
    next run => exact memOk_of_fst run (adopt_memOk canon)
    next run =>
      have kept := memOk_of_fst run (adopt_memOk canon)
      exact ite_fst_memOk kept (ite_fst_memOk (foldl_memOk (fun _ _ => fetchHalf_memOk) kept) (block_memOk
        (foldl_memOk (fun _ _ => fetchHalf_memOk) kept)))

theorem State.readyFor_memOk {line r hs write snoop near} (canon : s.MemOk) :
    (s.readyFor line r hs write snoop near).1.MemOk := by
  simp only [State.readyFor]
  split
  next run => exact memOk_of_fst run (unkey_memOk canon)
  next run =>
    have kept := memOk_of_fst run (unkey_memOk canon)
    split
    next run => exact memOk_of_fst run (roomFor_memOk kept)
    next run =>
      have kept := memOk_of_fst run (roomFor_memOk kept)
      refine ite_fst_memOk kept ?_
      split
      next run => exact memOk_of_fst run (calm_memOk kept)
      next run =>
        have kept := memOk_of_fst run (calm_memOk kept)
        exact ite_fst_memOk (startGather_memOk kept) (snoopHost_memOk kept)

theorem State.ready_memOk {line r hs write snoop} (canon : s.MemOk) : (s.ready line r hs write snoop).1.MemOk :=
  readyFor_memOk canon

theorem State.keepStamp_memOk {r} (canon : s.MemOk) : (s.keepStamp r).MemOk :=
  ite_memOk canon canon

theorem State.askAs_memOk {line r hs write snoop first} (canon : s.MemOk) :
    (s.askAs line r hs write snoop first).1.MemOk := by
  unfold State.askAs
  refine ite_fst_memOk (keepStamp_memOk canon) (ite_fst_memOk (claim_memOk (keepStamp_memOk canon)) ?_)
  split
  next run => exact memOk_of_fst run (ready_memOk canon)
  next run => exact claim_memOk (keepStamp_memOk (memOk_of_fst run (ready_memOk canon)))

theorem State.ask_memOk {line r hs write snoop} (canon : s.MemOk) : (s.ask line r hs write snoop).1.MemOk :=
  askAs_memOk canon

theorem State.homeRead_memOk {slot line lo len} (canon : s.MemOk) : (s.homeRead slot line lo len).1.MemOk :=
  endTransient_memOk (ite_memOk (settleLine_memOk canon) canon)

theorem State.homeStore_memOk {slot line bytes} (canon : s.MemOk) : (s.homeStore slot line bytes).MemOk :=
  endTransient_memOk (getD_memOk (carry_memOk (touch_memOk
    (homePut_memOk (clearResv_memOk (ite_memOk (settleLine_memOk canon) canon))))) (touch_memOk
    (homePut_memOk (clearResv_memOk (ite_memOk (settleLine_memOk canon) canon)))))

theorem State.storePieces_memOk {ps bs} (canon : s.MemOk) : (s.storePieces ps bs).MemOk := by
  induction ps generalizing s bs with
  | nil => exact canon
  | cons p ps ih =>
    obtain ⟨x, n, a, k⟩ := p
    exact ih (homeStore_memOk canon)

theorem State.readPieces_memOk {ps} (canon : s.MemOk) : (s.readPieces ps).1.MemOk := by
  induction ps generalizing s with
  | nil => exact canon
  | cons p ps ih =>
    rw [readPieces]
    exact ih (homeRead_memOk canon)

theorem State.ctxWrite_memOk {ctx v bs} (canon : s.MemOk) : ∀ t ∈ s.ctxWrite ctx v bs, t.MemOk := by
  unfold State.ctxWrite
  split
  · exact some_memOk (storePieces_memOk canon)
  · exact none_memOk

theorem State.ctxRead_memOk {ctx v n} (canon : s.MemOk) : ∀ t b, s.ctxRead ctx v n = some (t, b) → t.MemOk := by
  simp only [State.ctxRead]
  split
  · exact some_fst_memOk (readPieces_memOk canon)
  · exact none_fst_memOk

theorem State.physWrite_memOk {slot pa bs fuel} (canon : s.MemOk) : (s.physWrite slot pa bs fuel).MemOk := by
  induction fuel generalizing s pa bs with
  | zero => exact canon
  | succ fuel ih =>
    rw [physWrite]
    exact ite_memOk canon (ih (homeStore_memOk canon))

theorem State.askAll_memOk {agent serial stamp lines} (canon : s.MemOk) :
    (s.askAll agent serial stamp lines).1.MemOk := by
  simp only [State.askAll]
  split
  next run =>
    have kept := memOk_of_fst run (foldl_fst_memOk (fun _ _ kept => by exact ask_memOk kept) canon)
    exact unclaim_memOk kept
  next run => exact memOk_of_fst run (foldl_fst_memOk (fun _ _ kept => by exact ask_memOk kept) canon)

theorem State.agentAsk_memOk {agent serial spans} (canon : s.MemOk) : (s.agentAsk agent serial spans).1.MemOk := by
  simp only [State.agentAsk]
  split
  · exact ite_fst_memOk (keepStamp_memOk canon) (askAll_memOk canon)
  · exact keepStamp_memOk (askAll_memOk canon)

/-! Teams -/

theorem State.setVerdict_memOk {cmd b} (canon : s.MemOk) : (s.setVerdict cmd b).MemOk := canon

theorem State.resolve_memOk {t w g b} (canon : s.MemOk) : (s.resolve t w g b).MemOk := by
  simp only [State.resolve]
  split
  · exact canon
  · split
    · exact setVerdict_memOk (modWarp_memOk canon)
    · exact modWarp_memOk canon

theorem State.closeWarp_memOk {t w} (canon : s.MemOk) : (s.closeWarp t w).MemOk := by
  simp only [State.closeWarp]
  split
  · exact canon
  · exact ite_memOk (modWarp_memOk (ite_memOk
    (modWarp_memOk (ite_memOk (modWarp_memOk (foldl_memOk (fun _ _ => setVerdict_memOk) canon)) canon)) (ite_memOk
    (modWarp_memOk (foldl_memOk (fun _ _ => setVerdict_memOk) canon)) canon))) (ite_memOk
    (modWarp_memOk (ite_memOk (modWarp_memOk (foldl_memOk (fun _ _ => setVerdict_memOk) canon)) canon)) (ite_memOk
    (modWarp_memOk (foldl_memOk (fun _ _ => setVerdict_memOk) canon)) canon))

theorem State.kill_memOk {t w m} (canon : s.MemOk) : (s.kill t w m).MemOk := by
  simp only [State.kill]
  refine ite_memOk canon (modTeam_memOk ?_)
  split
  · exact logEvent_memOk (closeWarp_memOk canon)
  · exact closeWarp_memOk canon

theorem State.clearL1s_memOk {cluster} (canon : s.MemOk) : (s.clearL1s cluster).MemOk :=
  foldl_memOk (fun _ _ kept => ite_memOk (startSettle_memOk kept) kept) canon

theorem State.setFused_memOk {cluster b} (canon : s.MemOk) : (s.setFused cluster b).MemOk :=
  foldl_memOk (fun _ _ kept => ite_memOk kept (modCore_memOk kept)) canon

theorem State.unfuse_memOk {cluster} (canon : s.MemOk) : (s.unfuse cluster).MemOk :=
  ite_memOk canon (ite_memOk canon (ite_memOk (setFused_memOk canon) (clearL1s_memOk canon)))

/-! Gather buffers -/

theorem State.setBuffer_memOk {cluster l} (canon : s.MemOk) : (s.setBuffer cluster l).MemOk := canon

theorem State.homeReduce_memOk {key fn op ty pa x} (canon : s.MemOk) : (s.homeReduce key fn op ty pa x).MemOk :=
  ite_memOk (logEvent_memOk canon) (homeStore_memOk canon)

theorem State.homeEmission_memOk {key fn pa vals poison tag scope check count} (canon : s.MemOk) :
    (s.homeEmission key fn pa vals poison tag scope check count).MemOk := by
  unfold State.homeEmission
  exact ite_memOk (logEvent_memOk canon) (homeStore_memOk (homeRead_memOk (slot := key) (lo := 0) (len := 128) canon))

theorem State.performEntry_memOk {cluster e} (canon : s.MemOk) : (s.performEntry cluster e).MemOk := by
  unfold State.performEntry
  split
  · exact homeEmission_memOk canon
  · exact ite_memOk (foldl_memOk (fun _ _ kept => by exact beginPart_memOk kept) canon) (foldl_memOk
    (fun _ _ kept => by exact homeReduce_memOk kept) canon)

theorem State.dropEntry_memOk {cluster e} (canon : s.MemOk) : (s.dropEntry cluster e).MemOk := canon

theorem State.noteFlush_memOk {old : State} {team lines} (canon : s.MemOk) : (s.noteFlush old team lines).MemOk := by
  unfold State.noteFlush
  split <;> exact canon

theorem State.flushEntry_memOk {cluster byHome e} (canon : s.MemOk) : (s.flushEntry cluster byHome e).MemOk := by
  simp only [State.flushEntry]
  refine ite_memOk (keepStamp_memOk canon) ?_
  split
  next run =>
    have kept := memOk_of_fst run (foldl_fst_memOk (fun _ _ kept => by exact askAs_memOk kept) canon)
    exact noteFlush_memOk (performEntry_memOk (dropEntry_memOk kept))
  next run => exact memOk_of_fst run (foldl_fst_memOk (fun _ _ kept => by exact askAs_memOk kept) canon)

theorem State.flushWhere_memOk {cluster byHome p} (canon : s.MemOk) : (s.flushWhere cluster byHome p).MemOk :=
  foldl_memOk (fun _ _ => flushEntry_memOk) canon

theorem State.flushTeam_memOk {t} (canon : s.MemOk) : (s.flushTeam t).MemOk := by
  unfold State.flushTeam
  split
  · exact flushWhere_memOk canon
  · exact canon

theorem State.flushedOn_memOk {t lines} (canon : s.MemOk) : (s.flushedOn t lines).1.MemOk := by
  simp only [State.flushedOn]
  split
  · exact flushWhere_memOk canon
  · exact canon

theorem State.loseTeam_memOk {t} (canon : s.MemOk) : (s.loseTeam t).MemOk := by
  unfold State.loseTeam
  split
  · exact foldl_memOk (fun _ _ => dropEntry_memOk) canon
  · exact canon

theorem State.flushLine_memOk {line} (canon : s.MemOk) : (s.flushLine line).MemOk :=
  foldl_memOk (fun _ _ => flushWhere_memOk) canon

theorem State.flushedLine_memOk {line} (canon : s.MemOk) : (s.flushedLine line).1.MemOk :=
  flushLine_memOk canon

theorem State.dropEntries_memOk {line} (canon : s.MemOk) : (s.dropEntries line).MemOk :=
  foldl_memOk (fun _ _ kept => foldl_memOk (fun _ _ => dropEntry_memOk) kept) canon

theorem State.bufferRoom_memOk {cluster} (canon : s.MemOk) : (s.bufferRoom cluster).MemOk := by
  unfold State.bufferRoom
  refine ite_memOk canon ?_
  split
  · exact flushEntry_memOk canon
  · exact canon

theorem State.bufferPut_memOk {cluster n room} (canon : s.MemOk) : (s.bufferPut cluster n room).1.MemOk :=
  ite_fst_memOk (setBuffer_memOk canon) canon

theorem State.bufferNew_memOk {cluster n old} (canon : s.MemOk) : (s.bufferNew cluster n old).1.MemOk := by
  simp only [State.bufferNew]
  split
  · exact bufferPut_memOk (flushEntry_memOk canon)
  · exact bufferPut_memOk (bufferRoom_memOk canon)

theorem State.setEntry_memOk {cluster e x} (canon : s.MemOk) : (s.setEntry cluster e x).MemOk := canon

theorem State.bufferReduce_memOk {cluster n} (canon : s.MemOk) : (s.bufferReduce cluster n).1.MemOk := by
  unfold State.bufferReduce
  split
  · exact ite_fst_memOk (setEntry_memOk canon) (bufferNew_memOk canon)
  · exact bufferNew_memOk canon

theorem State.bufferEmission_memOk {cluster n vals poison tag check} (canon : s.MemOk) :
    (s.bufferEmission cluster n vals poison tag check).1.MemOk := by
  simp only [State.bufferEmission]
  split
  · split
    · exact setEntry_memOk canon
    · exact bufferNew_memOk canon
  · exact bufferNew_memOk canon

/-! Nodes -/

theorem State.ctxReduce_memOk {ctx v op ty x} (canon : s.MemOk) : ∀ t ∈ s.ctxReduce ctx v op ty x, t.MemOk := by
  simp only [State.ctxReduce]
  refine ite_opt_memOk none_memOk ?_
  split
  · refine ite_opt_memOk none_memOk ?_
    split
    · exact some_memOk (homeReduce_memOk canon)
    · exact none_memOk
    · exact none_memOk
  · exact none_memOk
  · exact none_memOk

theorem State.orWake_memOk {ctx v} (canon : s.MemOk) : (s.orWake ctx v).MemOk := by
  unfold State.orWake
  split
  next run => exact ctxReduce_memOk canon _ run
  · exact logEvent_memOk canon

theorem State.setRecord_memOk {ctx va state code} (canon : s.MemOk) : (s.setRecord ctx va state code).MemOk :=
  getD_memOk (ctxWrite_memOk (getD_memOk (ctxWrite_memOk canon) canon)) (getD_memOk (ctxWrite_memOk canon) canon)

theorem State.postNode_memOk {ctx va root prio} (canon : s.MemOk) : (s.postNode ctx va root prio).1.MemOk := by
  simp only [State.postNode]
  refine ite_fst_memOk (setRecord_memOk canon) ?_
  split
  · exact setRecord_memOk canon
  next run =>
    have kept := ctxRead_memOk canon _ _ run
    split <;> exact setRecord_memOk kept

theorem State.postRoot_memOk {ctx} (canon : s.MemOk) : (s.postRoot ctx).MemOk := by
  simp only [State.postRoot]
  refine ite_memOk canon ?_
  split
  next run => exact memOk_of_fst run (agentAsk_memOk canon)
  next run =>
    have kept := memOk_of_fst run (agentAsk_memOk canon)
    refine ite_memOk (signalCtx_memOk (setCtxState_memOk kept)) ?_
    split
    next run => exact memOk_of_fst run (postNode_memOk kept)
    next run => exact signalCtx_memOk (setCtxState_memOk (memOk_of_fst run (postNode_memOk kept)))

theorem State.signalTarget_memOk {ctx t} (canon : s.MemOk) : (s.signalTarget ctx t).MemOk := by
  simp only [State.signalTarget]
  split
  · exact canon
  · split
    next run => exact ctxReduce_memOk canon _ run
    · exact logEvent_memOk canon
  · exact signal_memOk canon
  · exact orWake_memOk canon

theorem State.decrement_memOk {ctx va} (canon : s.MemOk) : (s.decrement ctx va).MemOk := by
  unfold State.decrement
  split
  next run =>
    have kept := ctxRead_memOk canon _ _ run
    have wrote {bs : List Byte} := getD_memOk (ctxWrite_memOk (ctx := ctx) (v := va + 92) (bs := bs) kept) kept
    exact ite_memOk (logEvent_memOk kept) (ite_memOk (setRecord_memOk wrote) wrote)
  · exact logEvent_memOk canon

theorem State.doneNode_memOk {n} (canon : s.MemOk) : (s.doneNode n).MemOk :=
  setRecord_memOk canon

theorem State.completeNode_memOk {n} (canon : s.MemOk) : (s.completeNode n).MemOk :=
  foldl_memOk (fun _ _ => decrement_memOk) (signalTarget_memOk canon)

theorem execNodeComplete_memOk {ctx node} (canon : s.MemOk) : Outcome.MemOk (execNodeComplete ctx node s) := by
  simp only [execNodeComplete]
  refine next_memOk ?_
  split
  · exact canon
  · split
    · refine ite_memOk canon ?_
      split
      next run => exact State.doneNode_memOk (memOk_of_fst run (State.agentAsk_memOk canon))
      next run => exact memOk_of_fst run (State.agentAsk_memOk canon)
    · refine ite_memOk canon ?_
      split
      next run =>
        have kept := memOk_of_fst run (State.agentAsk_memOk canon)
        exact State.tookFree_memOk (State.completeNode_memOk kept)
      next run => exact memOk_of_fst run (State.agentAsk_memOk canon)

/-! Requests at their homes -/

theorem State.modReq_memOk {line r f} (canon : s.MemOk) : (s.modReq line r f).MemOk := by
  unfold State.modReq
  split
  · exact canon
  · exact modFlight_memOk canon

theorem State.propagate_memOk {line src r ps reply} (canon : s.MemOk) : (s.propagate line src r ps reply).MemOk := by
  unfold State.propagate
  split
  next run => exact carry_memOk canon _ run
  · exact ite_memOk (sendStack_memOk canon) canon

theorem State.bounce_memOk {m} (canon : s.MemOk) : (s.bounce m).MemOk := canon

theorem State.forward_memOk {m} (canon : s.MemOk) : (s.forward m).MemOk :=
  ite_memOk canon (bounce_memOk canon)

theorem State.performRead_memOk {m r alloc} (canon : s.MemOk) : (s.performRead m r alloc).MemOk :=
  send_memOk (ite_memOk (modDir_memOk canon) canon)

theorem State.performStore_memOk {m r bytes} (canon : s.MemOk) : (s.performStore m r bytes).MemOk :=
  propagate_memOk (changed_memOk (homePut_memOk (clearResv_memOk canon)))

theorem State.performLane_memOk {m r op ty o} (canon : s.MemOk) : (s.performLane m r op ty o).1.MemOk := by
  simp only [State.performLane]
  refine ite_fst_memOk (modReq_memOk canon) ?_
  split
  · exact modReq_memOk (modWarp_memOk canon)
  · exact modReq_memOk (modWarp_memOk (ite_memOk (homePut_memOk (clearResv_memOk canon)) canon))
  · split
    · exact modReq_memOk (homePut_memOk (clearResv_memOk canon))
    · exact modReq_memOk canon

theorem State.performAtomic_memOk {m r op ty ops} (canon : s.MemOk) : (s.performAtomic m r op ty ops).MemOk :=
  ite_memOk (sendStack_memOk (foldl_fst_memOk (fun _ _ kept => by exact performLane_memOk kept) canon))
    (propagate_memOk (changed_memOk (foldl_fst_memOk (fun _ _ kept => by exact performLane_memOk kept) canon)))

theorem State.performReduce_memOk {m r op ty ws} (canon : s.MemOk) : (s.performReduce m r op ty ws).MemOk :=
  ite_memOk (beginPart_memOk canon) (propagate_memOk (reduceAt_memOk canon))

theorem State.cutParts_memOk {line} (canon : s.MemOk) : (s.cutParts line).MemOk :=
  foldl_memOk (fun _ _ => putPart_memOk) canon

theorem State.discardLine_memOk {r line reply} (canon : s.MemOk) : (s.discardLine r line reply).MemOk := by
  simp only [State.discardLine]
  split
  · split
    · exact send_memOk (modL2_memOk (ite_memOk
      (foldl_memOk (fun _ _ => hostBack_memOk) (homePut_memOk
      (clearResv_memOk (cutParts_memOk (dropEntries_memOk canon))))) (mcPush_memOk
      (homePut_memOk (clearResv_memOk (cutParts_memOk (dropEntries_memOk canon)))))))
    · exact modL2_memOk (ite_memOk (foldl_memOk (fun _ _ => hostBack_memOk) (homePut_memOk
      (clearResv_memOk (cutParts_memOk (dropEntries_memOk canon))))) (mcPush_memOk
      (homePut_memOk (clearResv_memOk (cutParts_memOk (dropEntries_memOk canon))))))
  · exact ite_memOk (ite_memOk (foldl_memOk (fun _ _ => hostBack_memOk) (homePut_memOk
    (clearResv_memOk (cutParts_memOk (dropEntries_memOk canon))))) (mcPush_memOk
    (homePut_memOk (clearResv_memOk (cutParts_memOk (dropEntries_memOk canon)))))) (startSettle_memOk
    (modL2_memOk (ite_memOk (foldl_memOk (fun _ _ => hostBack_memOk) (homePut_memOk
    (clearResv_memOk (cutParts_memOk (dropEntries_memOk canon))))) (mcPush_memOk
    (homePut_memOk (clearResv_memOk (cutParts_memOk (dropEntries_memOk canon))))))))

theorem State.performDiscard_memOk {m r lo len} (canon : s.MemOk) : (s.performDiscard m r lo len).MemOk :=
  propagate_memOk (changed_memOk (homePut_memOk (clearResv_memOk canon)))

theorem State.performAccLd_memOk {m r} (canon : s.MemOk) : (s.performAccLd m r).MemOk :=
  sendStack_memOk (modReq_memOk canon)

theorem State.performUreq_memOk {m r op ty ws} (canon : s.MemOk) : (s.performUreq m r op ty ws).MemOk :=
  ite_memOk (performReduce_memOk canon) (send_memOk (modDir_memOk canon))

theorem State.perform_memOk {m} (canon : s.MemOk) : (s.perform m).MemOk := by
  simp only [State.perform]
  refine endTransient_memOk ?_
  split
  · exact performRead_memOk (modL2_memOk canon)
  · exact performStore_memOk (modL2_memOk canon)
  · exact performDiscard_memOk (modL2_memOk canon)
  · exact performAtomic_memOk (modL2_memOk canon)
  · exact performReduce_memOk (modL2_memOk canon)
  · exact performAccLd_memOk (modL2_memOk canon)
  · exact performUreq_memOk (modL2_memOk canon)
  · exact modL2_memOk canon

theorem State.homeGo_memOk {m r} (canon : s.MemOk) : (s.homeGo m r).MemOk := by
  unfold State.homeGo
  split
  next run => exact forward_memOk (memOk_of_fst run (readyFor_memOk canon))
  next run =>
    have kept := memOk_of_fst run (readyFor_memOk canon)
    refine ite_memOk (forward_memOk kept) ?_
    split
    · split
      next run => exact perform_memOk (memOk_of_fst run (flushedLine_memOk kept))
      next run => exact forward_memOk (memOk_of_fst run (flushedLine_memOk kept))
    · exact perform_memOk kept

theorem State.resteer_memOk {m r t} (canon : s.MemOk) : (s.resteer m r t).MemOk := by
  simp only [State.resteer]
  split <;> exact send_memOk canon

theorem State.stranded_memOk {m r} (canon : s.MemOk) : (s.stranded m r).MemOk := by
  unfold State.stranded
  split
  · exact logEvent_memOk canon
  · exact send_memOk canon

theorem State.homeTake_memOk {m} (canon : s.MemOk) : (s.homeTake m).MemOk := by
  unfold State.homeTake
  split
  · exact ite_memOk canon canon
  · split
    · exact canon
    · split
      · exact stranded_memOk canon
      · exact resteer_memOk canon
      · exact forward_memOk canon
      · exact ite_memOk (ite_memOk (discardLine_memOk canon) (forward_memOk canon)) (ite_memOk (forward_memOk canon)
        (homeGo_memOk canon))

theorem State.arrive_memOk {m} (canon : s.MemOk) : (s.arrive m).MemOk :=
  ite_memOk (bounce_memOk canon) (ite_memOk (forward_memOk canon) (homeTake_memOk canon))

theorem State.drainList_memOk {line ms} (canon : s.MemOk) : (s.drainList line ms).MemOk := by
  induction ms generalizing s with
  | nil => exact canon
  | cons m ms ih =>
    rw [drainList]
    exact ite_memOk canon (ite_memOk (homeTake_memOk canon) (ih (homeTake_memOk canon)))

theorem State.drain_memOk {line} (canon : s.MemOk) : (s.drain line).MemOk :=
  drainList_memOk canon

theorem State.drainHome_memOk {home} (canon : s.MemOk) : (s.drainHome home).MemOk :=
  foldl_memOk (fun _ _ kept => ite_memOk kept (drain_memOk kept)) canon

theorem State.sweepClaims_memOk (canon : s.MemOk) : s.sweepClaims.MemOk :=
  ite_memOk canon canon

theorem State.drainFree_memOk (canon : s.MemOk) : s.drainFree.MemOk :=
  foldl_memOk (fun _ _ kept => ite_memOk kept (drain_memOk kept)) (sweepClaims_memOk canon)

theorem State.unblock_memOk {line} (canon : s.MemOk) : (s.unblock line).MemOk :=
  drainHome_memOk (drain_memOk (block_memOk canon))

theorem State.closeLoop_memOk {line fuel} (canon : s.MemOk) : (s.closeLoop line fuel).MemOk := by
  induction fuel generalizing s with
  | zero => exact canon
  | succ fuel ih =>
    rw [closeLoop]
    split
    · exact ite_memOk canon (unblock_memOk canon)
    · split
      next run => exact ih (memOk_of_fst run (settleOn_memOk canon))
      next run => exact memOk_of_fst run (settleOn_memOk canon)

theorem State.close_memOk {line} (canon : s.MemOk) : (s.close line).MemOk :=
  closeLoop_memOk canon

theorem State.closeHome_memOk {home} (canon : s.MemOk) : (s.closeHome home).MemOk :=
  foldl_memOk (fun _ _ => close_memOk) canon

theorem State.partAcked_memOk {a} (canon : s.MemOk) : (s.partAcked a).MemOk := by
  unfold State.partAcked
  split
  · exact canon
  · exact putPart_memOk canon

theorem State.acked_memOk {id} (canon : s.MemOk) : (s.acked id).MemOk := by
  unfold State.acked
  split
  · exact canon
  · refine ite_memOk canon ?_
    extract_lets net counted whole answered closed
    have told : answered.MemOk := by
      unfold answered
      split
      · exact sendStack_memOk (completions_memOk (partAcked_memOk canon))
      · exact completions_memOk (partAcked_memOk canon)
    have shut : closed.MemOk := ite_memOk (modDir_memOk told) (ite_memOk (modDir_memOk told) told)
    exact ite_memOk (close_memOk shut) (drain_memOk shut)

/-! Retirement -/

theorem State.reserveFreed_memOk {ctx core} (canon : s.MemOk) : (s.reserveFreed ctx core).MemOk :=
  ite_memOk (modCore_memOk canon) canon

theorem State.logUnobserved_memOk {tm} (canon : s.MemOk) : (s.logUnobserved tm).MemOk :=
  foldl_memOk (fun _ _ => logEvent_memOk) canon

theorem State.removeTeam_memOk {t tm discard} (canon : s.MemOk) : (s.removeTeam t tm discard).MemOk :=
  ite_memOk (foldl_memOk (fun _ _ => reserveFreed_memOk) (ite_memOk
    (unfuse_memOk (ite_memOk (modCore_memOk (modCore_memOk (logUnobserved_memOk canon))) (modCore_memOk
    (logUnobserved_memOk canon)))) (ite_memOk (modCore_memOk (modCore_memOk (logUnobserved_memOk canon)))
    (modCore_memOk (logUnobserved_memOk canon))))) (ite_memOk
    (unfuse_memOk (ite_memOk (modCore_memOk (modCore_memOk (logUnobserved_memOk canon))) (modCore_memOk
    (logUnobserved_memOk canon)))) (ite_memOk (modCore_memOk (modCore_memOk (logUnobserved_memOk canon)))
    (modCore_memOk (logUnobserved_memOk canon))))

theorem State.reap_memOk {t} (canon : s.MemOk) : (s.reap t).MemOk := by
  simp only [State.reap]
  split
  · exact canon
  · exact ite_memOk (ite_memOk (flushTeam_memOk canon) (ite_memOk
    (signalCtx_memOk (setCtxState_memOk (removeTeam_memOk (flushTeam_memOk canon)))) (removeTeam_memOk
    (flushTeam_memOk canon)))) canon

theorem State.reapAll_memOk (canon : s.MemOk) : s.reapAll.MemOk :=
  foldl_memOk (fun _ _ => reap_memOk) canon

/-! Operands -/

theorem State.withSources_memOk {i m srcs k} (canon : s.MemOk) (keeps :
    ∀ x0 x1 x2 x3, x0.MemOk → x1.MemOk → (k x0 x1 x2 x3).MemOk) : (s.withSources i m srcs k).MemOk := by
  simp only [State.withSources]
  refine ite_memOk (keeps _ _ _ _ canon canon) ?_
  split
  · exact waitAt_memOk canon
  · exact raiseAt_memOk canon
  · exact ite_memOk (keeps _ _ _ _ canon (modWarp_memOk canon)) (reapAll_memOk
    (keeps _ _ _ _ canon (kill_memOk (modWarp_memOk canon))))

theorem State.push_memOk {t w q m vals flying} (canon : s.MemOk) : (s.push t w q m vals flying).MemOk := canon

theorem State.deliver_memOk {i m d w vals} (canon : s.MemOk) : (s.deliver i m d w vals).MemOk := by
  unfold State.deliver
  split
  · exact ite_memOk canon (push_memOk canon)
  · exact results_memOk canon

theorem State.lanewise_memOk {i h srcs d w f} (canon : s.MemOk) : (s.lanewise i h srcs d w f).MemOk := by
  simp only [State.lanewise]
  refine ite_memOk (advance_memOk canon) ?_
  split
  · exact waitAt_memOk canon
  · exact withSources_memOk canon (fun _ _ _ _ kept kept => advance_memOk (deliver_memOk kept))

theorem State.lanewisePred_memOk {i h srcs p f} (canon : s.MemOk) : (s.lanewisePred i h srcs p f).MemOk :=
  ite_memOk (advance_memOk canon) (withSources_memOk canon
    (fun _ _ _ _ kept kept => advance_memOk (results_memOk kept)))

/-! Flags -/

theorem State.fpWord_memOk {i h srcs draws mk f} (canon : s.MemOk) : (s.fpWord i h srcs draws mk f).MemOk := by
  simp only [State.fpWord]
  refine ite_memOk (advance_memOk canon) (withSources_memOk canon ?_)
  intro _ _ _ _ held held1
  split
  · exact raiseAt_memOk (modSlice_memOk held)
  · exact advance_memOk (results_memOk (modSlice_memOk held1))

/-! Translation -/

theorem State.joinWalk_memOk {core ctx v who} (canon : s.MemOk) : (s.joinWalk core ctx v who).MemOk :=
  ite_memOk (ite_memOk canon (modCore_memOk canon)) (ite_memOk (modCore_memOk canon) canon)

theorem State.forget_memOk {core who} (canon : s.MemOk) : (s.forget core who).MemOk :=
  ite_memOk (modCore_memOk canon) canon

theorem State.lookFor_memOk {core ctx who v need} (canon : s.MemOk) : (s.lookFor core ctx who v need).1.MemOk := by
  unfold State.lookFor
  split
  · exact modCore_memOk canon
  · exact forget_memOk canon
  · split
    · exact canon
    · exact forget_memOk canon
    · exact joinWalk_memOk canon

theorem State.accessFault_memOk {f x} (canon : s.MemOk) : (s.accessFault f x).MemOk := by
  unfold State.accessFault
  split
  · exact modFlight_memOk (modWarp_memOk canon)
  · exact raise_memOk (modFlight_memOk canon)

theorem State.endTranslation_memOk {id} (canon : s.MemOk) : (s.endTranslation id).MemOk := by
  unfold State.endTranslation
  split
  · exact canon
  · refine ite_memOk canon ?_
    split
    · exact modFlight_memOk canon
    · exact accessFault_memOk canon

theorem State.resolveLane_memOk {id tm op walked lane} (canon : s.MemOk) :
    (s.resolveLane id tm op walked lane).MemOk := by
  simp only [State.resolveLane]
  split
  · exact canon
  · split
    · exact modFlight_memOk canon
    · split
      · exact joinWalk_memOk canon
      · exact modFlight_memOk canon
      · refine foldl_memOk ?_ (modFlight_memOk canon)
        intro _ _ kept
        split
        · exact modCore_memOk kept
        · exact kept

theorem State.resolveFlight_memOk {id walked} (canon : s.MemOk) : (s.resolveFlight id walked).MemOk := by
  unfold State.resolveFlight
  split
  · exact canon
  · refine ite_memOk canon ?_
    split
    · exact ite_memOk canon (endTranslation_memOk (foldl_memOk (fun _ _ => resolveLane_memOk) canon))
    · exact canon

/-! Accesses -/

theorem State.sendDwb_memOk {core d} (canon : s.MemOk) : (s.sendDwb core d).MemOk := canon

theorem State.l1Room_memOk {core line} (canon : s.MemOk) : (s.l1Room core line).MemOk := by
  simp only [State.l1Room]
  refine ite_memOk canon ?_
  split
  · exact send_memOk (modCore_memOk canon)
  · exact sendDwb_memOk (modCore_memOk canon)
  · exact canon

theorem State.l1Install_memOk {core line key bytes} (canon : s.MemOk) : (s.l1Install core line key bytes).MemOk :=
  modCore_memOk (l1Room_memOk canon)

theorem State.modGroup_memOk {id g h} (canon : s.MemOk) : (s.modGroup id g h).MemOk := canon

theorem State.flushFor_memOk {tm t ps} (canon : s.MemOk) : (s.flushFor tm t ps).MemOk :=
  flushWhere_memOk canon

theorem State.sendGroup_memOk {id g l1 b} (canon : s.MemOk) : (s.sendGroup id g l1 b).MemOk := canon

theorem State.joinMiss_memOk {f l1 g ps m} (canon : s.MemOk) : (s.joinMiss f l1 g ps m).MemOk :=
  ite_memOk canon (bumpFree_memOk (modCore_memOk (ite_memOk canon (modGroup_memOk canon))))

theorem State.sendLoad_memOk {f core l1 x g ps} (canon : s.MemOk) : (s.sendLoad f core l1 x g ps).MemOk := by
  simp only [State.sendLoad]
  refine ite_memOk canon ?_
  split
  · exact modCore_memOk (modGroup_memOk canon)
  · split
    · exact joinMiss_memOk canon
    · exact ite_memOk canon (sendGroup_memOk (modCore_memOk (bump_memOk canon)))

theorem State.sendPrefetch_memOk {f core l1 x g l2} (canon : s.MemOk) : (s.sendPrefetch f core l1 x g l2).MemOk :=
  ite_memOk (modGroup_memOk canon) (ite_memOk (modGroup_memOk canon)
    (ite_memOk canon (ite_memOk (send_memOk (modGroup_memOk canon)) (ite_memOk canon
    (send_memOk (modCore_memOk (bump_memOk (modGroup_memOk canon))))))))

theorem State.addDelta_memOk {l1 d n} (canon : s.MemOk) : (s.addDelta l1 d n).MemOk :=
  ite_memOk (modCore_memOk canon) (modCore_memOk (sendDwb_memOk canon))

theorem State.sendNear_memOk {f core l1 x g op ps} (canon : s.MemOk) : (s.sendNear f core l1 x g op ps).MemOk := by
  simp only [State.sendNear]
  split
  · exact addDelta_memOk (modGroup_memOk canon)
  · exact ite_memOk canon (sendGroup_memOk canon)

theorem State.sendTeamRed_memOk {f tm x g op ps} (canon : s.MemOk) : (s.sendTeamRed f tm x g op ps).MemOk := by
  simp only [State.sendTeamRed]
  split
  next run => exact modGroup_memOk (memOk_of_fst run (bufferReduce_memOk (bump_memOk canon)))
  next run => exact memOk_of_fst run (bufferReduce_memOk (bump_memOk canon))

theorem State.sendGlobal_memOk {f tm op x g ps} (canon : s.MemOk) : (s.sendGlobal f tm op x g ps).MemOk := by
  simp only [State.sendGlobal]
  split
  · exact ite_memOk (ite_memOk canon (sendGroup_memOk canon)) (sendLoad_memOk canon)
  · exact tookFree_memOk (ite_memOk canon (sendGroup_memOk canon))
  · exact ite_memOk canon (sendGroup_memOk canon)
  · exact ite_memOk canon (sendGroup_memOk canon)
  · exact ite_memOk canon (sendGroup_memOk canon)
  · exact sendPrefetch_memOk canon
  · exact ite_memOk canon (sendGroup_memOk canon)
  · exact ite_memOk canon (sendGroup_memOk canon)
  · exact ite_memOk canon (sendGroup_memOk canon)
  · exact ite_memOk canon (sendGroup_memOk canon)
  · exact ite_memOk (sendNear_memOk canon) (ite_memOk (sendTeamRed_memOk canon)
    (ite_memOk canon (sendGroup_memOk canon)))

theorem State.clearTide_memOk {block} (canon : s.MemOk) : (s.clearTide block).MemOk := canon

theorem State.tideWrite_memOk {t bytes} (canon : s.MemOk) : (s.tideWrite t bytes).MemOk :=
  foldl_memOk (fun _ _ => clearTide_memOk) (modTeam_memOk canon)

theorem State.tideLane_memOk {f op t p c} (canon : s.MemOk) : (s.tideLane f op t p c).1.MemOk := by
  simp only [State.tideLane]
  split
  · exact tideWrite_memOk canon
  · exact modWarp_memOk canon
  · exact modWarp_memOk (ite_memOk (tideWrite_memOk canon) canon)
  · split
    · exact tideWrite_memOk canon
    · exact canon

theorem State.tidePerform_memOk {f op t g ps} (canon : s.MemOk) : (s.tidePerform f op t g ps).MemOk := by
  simp only [State.tidePerform]
  split
  · exact modGroup_memOk (tookFree_memOk (tideWrite_memOk canon))
  · exact modGroup_memOk canon
  · exact modGroup_memOk canon
  · exact modGroup_memOk (foldl_memOk (fun _ _ => tideWrite_memOk) canon)
  · exact modGroup_memOk (foldl_memOk (fun _ _ => tideWrite_memOk) canon)
  · exact modGroup_memOk canon
  · exact modGroup_memOk (foldl_memOk (fun _ _ => tideWrite_memOk) canon)
  all_goals exact foldl_memOk (fun _ _ kept => modGroup_memOk (tideLane_memOk kept)) canon

theorem State.pumpGroup_memOk {id g} (canon : s.MemOk) : (s.pumpGroup id g).MemOk := by
  simp only [State.pumpGroup]
  split
  · exact canon
  · split
    · refine ite_memOk canon (ite_memOk (ite_memOk canon (flushFor_memOk canon)) ?_)
      split
      · exact tidePerform_memOk (ite_memOk canon (flushFor_memOk canon))
      · exact sendGlobal_memOk (ite_memOk canon (flushFor_memOk canon))
      · exact ite_memOk canon (flushFor_memOk canon)
    · exact canon

theorem State.pumpFlight_memOk {id} (canon : s.MemOk) : (s.pumpFlight id).MemOk := by
  simp only [State.pumpFlight]
  split
  · exact endTranslation_memOk canon
  · exact ite_memOk (endTranslation_memOk canon) (foldl_memOk (fun _ _ => pumpGroup_memOk)
    (endTranslation_memOk canon))

theorem State.finishStores_memOk (canon : s.MemOk) : s.finishStores.MemOk := by
  simp only [State.finishStores]
  refine foldl_memOk ?_ canon
  intro _ _ kept
  split
  · exact modSlice_memOk (dropFlight_memOk kept)
  · exact dropFlight_memOk kept

theorem State.pump_memOk (canon : s.MemOk) : s.pump.MemOk :=
  drainFree_memOk (reapAll_memOk (finishStores_memOk (foldl_memOk (fun _ _ => pumpFlight_memOk) canon)))

/-! Memory words -/

theorem State.release_memOk {i sc} (canon : s.MemOk) : (s.release i sc).1.MemOk :=
  ite_fst_memOk (flushTeam_memOk canon) canon

theorem State.fence__memOk {i sc} (canon : s.MemOk) : (s.fence_ i sc).MemOk :=
  ite_memOk canon canon

theorem State.mayAccess_memOk {i a} (canon : s.MemOk) : (s.mayAccess i a).1.MemOk := by
  simp only [State.mayAccess]
  refine ite_fst_memOk canon ?_
  split
  · exact ite_fst_memOk canon (ite_fst_memOk (release_memOk canon) canon)
  · exact ite_fst_memOk (release_memOk canon) canon

theorem State.launch_memOk {i a m lanes} (canon : s.MemOk) : (s.launch i a m lanes).MemOk := by
  simp only [State.launch]
  refine pump_memOk (resolveFlight_memOk (ite_memOk ?_ ?_))
  · refine fence__memOk ?_
    split
    · exact push_memOk canon
    · exact canon
  · split
    · exact push_memOk canon
    · exact canon

theorem State.memWord_memOk {i mark a m lanes} (canon : s.MemOk) : (s.memWord i mark a m lanes).MemOk := by
  unfold State.memWord
  refine ite_memOk (advance_memOk canon) ?_
  split
  next run => exact waitAt_memOk (memOk_of_fst run (mayAccess_memOk canon))
  next run => exact advance_memOk (launch_memOk (memOk_of_fst run (mayAccess_memOk canon)))

theorem execLdx_memOk {h t ctr d a imm} (canon : s.MemOk) : Outcome.MemOk (execLdx h t ctr d a imm s) :=
  word_memOk canon (fun _ => ite_memOk (State.advance_memOk (State.modSlice_memOk canon)) (State.memWord_memOk canon))

theorem execPf_memOk {h l2 a imm} (canon : s.MemOk) : Outcome.MemOk (execPf h l2 a imm s) :=
  word_memOk canon (fun _ => ite_memOk (State.advance_memOk canon) (State.advance_memOk (State.launch_memOk canon)))

theorem State.queueStore_memOk {i h a d} (canon : s.MemOk) : (s.queueStore i h a d).MemOk := by
  simp only [State.queueStore]
  split
  next run => exact waitAt_memOk (memOk_of_fst run (ite_fst_memOk canon (mayAccess_memOk canon)))
  next run =>
    have kept := memOk_of_fst run (ite_fst_memOk canon (mayAccess_memOk canon))
    refine withSources_memOk kept ?_
    intro _ _ _ _ kept kept
    refine ite_memOk ?_ (advance_memOk (launch_memOk kept))
    refine advance_memOk ?_
    split
    · exact modSlice_memOk kept
    · exact kept

theorem State.reply_memOk {f} (canon : s.MemOk) : (s.reply f).MemOk := by
  simp only [State.reply]
  refine pump_memOk (unpark_memOk (kill_memOk ?_))
  split
  · exact modSlice_memOk (modWarp_memOk (dropFlight_memOk canon))
  · exact modWarp_memOk (dropFlight_memOk canon)

theorem execLoadReply_memOk {flight} (canon : s.MemOk) : Outcome.MemOk (execLoadReply flight s) := by
  unfold execLoadReply
  refine next_memOk ?_
  split
  · exact ite_memOk (State.reply_memOk canon) canon
  · exact canon

theorem State.arrival_memOk {f q entry} (canon : s.MemOk) : (s.arrival f q entry).MemOk :=
  pump_memOk (ite_memOk (modWarp_memOk (dropFlight_memOk canon)) (kill_memOk
    (modWarp_memOk (dropFlight_memOk canon))))

theorem execQueueDataArrival_memOk {flight} (canon : s.MemOk) : Outcome.MemOk (execQueueDataArrival flight s) := by
  unfold execQueueDataArrival
  refine next_memOk ?_
  split
  · split
    · exact ite_memOk (State.arrival_memOk canon) canon
    · exact canon
  · exact canon

theorem execRangeWalkStart_memOk {die} (canon : s.MemOk) : Outcome.MemOk (execRangeWalkStart die s) := by
  simp only [execRangeWalkStart]
  refine next_memOk (ite_memOk canon ?_)
  split
  · exact canon
  · split <;> exact canon

theorem State.resolveCore_memOk {core walked} (canon : s.MemOk) : (s.resolveCore core walked).MemOk :=
  foldl_memOk (fun _ _ => resolveFlight_memOk) canon

theorem State.walkLine_memOk {ctx core region line} (canon : s.MemOk) :
    (s.walkLine ctx core region line).1.MemOk := by
  simp only [State.walkLine]
  refine ite_fst_memOk canon ?_
  split
  next run => exact touch_memOk (memOk_of_fst run (ask_memOk canon))
  next run => exact memOk_of_fst run (ask_memOk canon)

theorem State.walkLines_memOk {ctx core v} (canon : s.MemOk) : (s.walkLines ctx core v).1.MemOk := by
  simp only [State.walkLines]
  split
  next run =>
    have kept := memOk_of_fst run (foldl_fst_memOk (fun _ _ kept => by exact walkLine_memOk kept) canon)
    exact unclaim_memOk kept
  next run => exact memOk_of_fst run (foldl_fst_memOk (fun _ _ kept => by exact walkLine_memOk kept) canon)

theorem execRangeWalkComplete_memOk {core ctx region} (canon : s.MemOk) :
    Outcome.MemOk (execRangeWalkComplete core ctx region s) := by
  simp only [execRangeWalkComplete]
  refine next_memOk ?_
  split
  · exact canon
  · split
    next run => exact memOk_of_fst run (State.walkLines_memOk canon)
    next run =>
      have kept := memOk_of_fst run (State.walkLines_memOk canon)
      exact State.pump_memOk (State.resolveCore_memOk (State.modCore_memOk kept))

/-! Messages -/

theorem State.receive_memOk {m k} (canon : s.MemOk) (keeps : ∀ x0 x1, x0.MemOk → ∀ t ∈ k x0 x1, t.MemOk) :
    Outcome.MemOk (s.receive m k) := by
  unfold State.receive
  refine next_memOk ?_
  split
  · exact canon
  · exact getD_memOk (keeps _ _ (take_memOk canon)) canon

theorem execRead_memOk {m} (canon : s.MemOk) : Outcome.MemOk (execRead m s) := by
  unfold execRead
  refine State.receive_memOk canon ?_
  intro _ _ kept
  split
  · exact some_memOk (State.arrive_memOk kept)
  · exact some_memOk (State.arrive_memOk kept)
  · exact none_memOk

theorem execStore_memOk {m} (canon : s.MemOk) : Outcome.MemOk (execStore m s) := by
  unfold execStore
  refine State.receive_memOk canon ?_
  intro _ _ kept
  split
  · exact some_memOk (State.arrive_memOk kept)
  · exact none_memOk

theorem execHomeAtomic_memOk {m} (canon : s.MemOk) : Outcome.MemOk (execHomeAtomic m s) := by
  unfold execHomeAtomic
  refine State.receive_memOk canon ?_
  intro _ _ kept
  split
  · exact some_memOk (State.arrive_memOk kept)
  · exact none_memOk

theorem execHomeReduction_memOk {m} (canon : s.MemOk) : Outcome.MemOk (execHomeReduction m s) := by
  unfold execHomeReduction
  split
  · exact next_memOk (ite_memOk canon (State.drainHome_memOk
    (State.endTransient_memOk (State.stepPart_memOk (State.bumpFree_memOk canon)))))
  · refine State.receive_memOk canon ?_
    intro _ _ kept
    split
    · exact some_memOk (State.arrive_memOk kept)
    · exact none_memOk

theorem execDiscardAtHome_memOk {m} (canon : s.MemOk) : Outcome.MemOk (execDiscardAtHome m s) := by
  unfold execDiscardAtHome
  refine State.receive_memOk canon ?_
  intro _ _ kept
  split
  · exact some_memOk (State.arrive_memOk kept)
  · exact none_memOk

theorem execUreq_memOk {m} (canon : s.MemOk) : Outcome.MemOk (execUreq m s) := by
  unfold execUreq
  refine State.receive_memOk canon ?_
  intro _ _ kept
  split
  · exact some_memOk (State.arrive_memOk kept)
  · exact none_memOk

theorem execData_memOk {m} (canon : s.MemOk) : Outcome.MemOk (execData m s) := by
  unfold execData
  refine State.receive_memOk canon ?_
  intro _ _ kept
  split
  · split
    · exact some_memOk (State.pump_memOk (State.modReq_memOk kept))
    · exact some_memOk (State.modCore_memOk kept)
  · exact none_memOk

theorem State.modMiss_memOk {e h} (canon : s.MemOk) : (s.modMiss e h).MemOk :=
  foldl_memOk (fun _ _ => modFlight_memOk) canon

theorem State.dropMiss_memOk {core e} (canon : s.MemOk) : (s.dropMiss core e).MemOk := canon

theorem execMissFill_memOk {core entry} (canon : s.MemOk) : Outcome.MemOk (execMissFill core entry s) := by
  simp only [execMissFill]
  refine next_memOk ?_
  split
  · exact canon
  · split
    · exact canon
    · exact State.pump_memOk (State.modMiss_memOk (ite_memOk (State.l1Install_memOk (State.dropMiss_memOk canon))
      (State.dropMiss_memOk canon)))

theorem execStack_memOk {m} (canon : s.MemOk) : Outcome.MemOk (execStack m s) := by
  simp only [execStack]
  refine State.receive_memOk canon ?_
  intro _ _ kept
  split
  · exact some_memOk (State.pump_memOk (State.wakeLine_memOk (State.modCore_memOk (State.modReq_memOk kept))))
  · exact none_memOk

theorem execUpd_memOk {m} (canon : s.MemOk) : Outcome.MemOk (execUpd m s) := by
  unfold execUpd
  refine State.receive_memOk canon ?_
  intro _ _ kept
  split
  · exact some_memOk (State.send_memOk (State.wakeLine_memOk (State.modCore_memOk kept)))
  · exact none_memOk

theorem execInv_memOk {m} (canon : s.MemOk) : Outcome.MemOk (execInv m s) := by
  unfold execInv
  refine State.receive_memOk canon ?_
  intro _ _ kept
  split
  · exact some_memOk (State.send_memOk (State.modCore_memOk kept))
  · exact none_memOk

theorem execResteer_memOk {m} (canon : s.MemOk) : Outcome.MemOk (execResteer m s) := by
  simp only [execResteer]
  refine State.receive_memOk canon ?_
  intro _ _ kept
  split
  · split
    · exact some_memOk (State.pump_memOk (State.modReq_memOk (State.modCore_memOk kept)))
    · split
      · exact some_memOk (State.modCore_memOk kept)
      · exact some_memOk (State.pump_memOk (State.dropMiss_memOk (State.modMiss_memOk (State.modCore_memOk kept))))
  · exact none_memOk

theorem State.strand_memOk {id bad} (canon : s.MemOk) : (s.strand id bad).MemOk := by
  simp only [State.strand]
  split
  · exact canon
  · split
    · exact canon
    · exact accessFault_memOk canon

theorem execStranded_memOk {m} (canon : s.MemOk) : Outcome.MemOk (execStranded m s) := by
  unfold execStranded
  refine State.receive_memOk canon ?_
  intro _ _ kept
  split
  · split
    · exact some_memOk (State.pump_memOk (State.strand_memOk kept))
    · split
      · exact some_memOk kept
      · exact some_memOk (State.pump_memOk (State.dropMiss_memOk (foldl_memOk (fun _ _ => State.strand_memOk) kept)))
  · exact none_memOk

theorem execUack_memOk {m} (canon : s.MemOk) : Outcome.MemOk (execUack m s) := by
  unfold execUack
  refine State.receive_memOk canon ?_
  intro _ _ kept
  split
  · exact some_memOk (State.pump_memOk (State.acked_memOk kept))
  · exact none_memOk

theorem execIack_memOk {m} (canon : s.MemOk) : Outcome.MemOk (execIack m s) := by
  unfold execIack
  refine State.receive_memOk canon ?_
  intro _ _ kept
  split
  · exact some_memOk (State.pump_memOk (State.acked_memOk kept))
  · exact none_memOk

theorem execEvn_memOk {m} (canon : s.MemOk) : Outcome.MemOk (execEvn m s) := by
  unfold execEvn
  refine State.receive_memOk canon ?_
  intro _ _ kept
  split
  · exact some_memOk (ite_memOk kept (State.modDir_memOk kept))
  · exact none_memOk

theorem execUgrant_memOk {m} (canon : s.MemOk) : Outcome.MemOk (execUgrant m s) := by
  simp only [execUgrant]
  refine State.receive_memOk canon ?_
  intro _ _ kept
  split
  · refine some_memOk (State.pump_memOk ?_)
    split
    · exact State.addDelta_memOk (State.modReq_memOk kept)
    · exact State.modCore_memOk (State.l1Room_memOk (State.modReq_memOk kept))
  · exact none_memOk

theorem execGather_memOk {m} (canon : s.MemOk) : Outcome.MemOk (execGather m s) := by
  unfold execGather
  refine State.receive_memOk canon ?_
  intro _ _ kept
  split
  · split
    · exact some_memOk (State.send_memOk (State.modCore_memOk kept))
    · exact some_memOk (State.send_memOk kept)
  · exact none_memOk

theorem State.deltaHome_memOk {line op ty ws} (canon : s.MemOk) : (s.deltaHome line op ty ws).MemOk := by
  unfold State.deltaHome
  refine ite_memOk canon ?_
  split
  · exact changed_memOk (combine_memOk canon)
  · exact canon

theorem execDelta_memOk {m} (canon : s.MemOk) : Outcome.MemOk (execDelta m s) := by
  unfold execDelta
  refine State.receive_memOk canon ?_
  intro _ _ kept
  split
  · exact some_memOk (State.acked_memOk (State.deltaHome_memOk kept))
  · exact none_memOk

theorem execNodelta_memOk {m} (canon : s.MemOk) : Outcome.MemOk (execNodelta m s) := by
  unfold execNodelta
  refine State.receive_memOk canon ?_
  intro _ _ kept
  split
  · exact some_memOk (State.acked_memOk kept)
  · exact none_memOk

theorem execDwb_memOk {m} (canon : s.MemOk) : Outcome.MemOk (execDwb m s) := by
  unfold execDwb
  refine State.receive_memOk canon ?_
  intro _ _ kept
  split
  · exact some_memOk (State.deltaHome_memOk kept)
  · exact none_memOk

theorem execRetry_memOk {m} (canon : s.MemOk) : Outcome.MemOk (execRetry m s) := by
  unfold execRetry
  refine State.receive_memOk canon ?_
  intro _ _ kept
  split
  · exact some_memOk kept
  · exact none_memOk

theorem execRetryReissue_memOk {r} (canon : s.MemOk) : Outcome.MemOk (execRetryReissue r s) := by
  simp only [execRetryReissue]
  refine next_memOk ?_
  split
  · exact canon
  · refine ite_memOk canon ?_
    split
    · exact ite_memOk canon canon
    · exact canon

theorem State.mirror_memOk {chan line} (canon : s.MemOk) : (s.mirror chan line).MemOk := canon

theorem execMemoryRequestIssue_memOk {chan bank} (canon : s.MemOk) :
    Outcome.MemOk (execMemoryRequestIssue chan bank s) := by
  simp only [execMemoryRequestIssue]
  refine next_memOk ?_
  split
  · exact canon
  · split
    · exact canon
    · exact State.drainHome_memOk (State.closeHome_memOk (ite_memOk
      (State.logEvent_memOk (ite_memOk (State.mirror_memOk canon) canon)) (ite_memOk (State.mirror_memOk canon)
      canon)))

theorem execHotRowHoldEnd_memOk {chan bank fn} (canon : s.MemOk) : Outcome.MemOk (execHotRowHoldEnd chan bank fn s) :=
  next_memOk canon

theorem execRefreshWindowEnd_memOk {chan bank} (canon : s.MemOk) : Outcome.MemOk (execRefreshWindowEnd chan bank s) :=
  next_memOk canon

theorem execMemoryFill_memOk {line} (canon : s.MemOk) : Outcome.MemOk (execMemoryFill line s) :=
  next_memOk (ite_memOk (State.close_memOk canon) canon)

/-! Integer words -/

theorem State.int1_memOk {i h t d a f} (canon : s.MemOk) : (s.int1 i h t d a f).MemOk :=
  lanewise_memOk canon

theorem State.int2_memOk {i h t d a b f} (canon : s.MemOk) : (s.int2 i h t d a b f).MemOk :=
  lanewise_memOk canon

theorem State.int3_memOk {i h t d a b c f} (canon : s.MemOk) : (s.int3 i h t d a b c f).MemOk :=
  lanewise_memOk canon

theorem State.leaPriv_memOk {i h d a thread} (canon : s.MemOk) : (s.leaPriv i h d a thread).MemOk := by
  simp only [State.leaPriv]
  refine ite_memOk (advance_memOk canon) ?_
  split
  · exact raiseAt_memOk canon
  · exact advance_memOk (deliver_memOk canon)

theorem State.tickClk_memOk {die} (canon : s.MemOk) : (s.tickClk die).MemOk := canon

theorem execSrGet_memOk {h d n} (canon : s.MemOk) : Outcome.MemOk (execSrGet h d n s) :=
  word_memOk canon (fun _ => State.lanewise_memOk (ite_memOk (State.tickClk_memOk canon) canon))

theorem execSrSet_memOk {h n a} (canon : s.MemOk) : Outcome.MemOk (execSrSet h n a s) := by
  simp only [execSrSet]
  refine word_memOk canon ?_
  intro _
  refine ite_memOk (State.advance_memOk canon) (State.withSources_memOk canon ?_)
  intro _ _ _ _ held held1
  split
  · exact State.advance_memOk held1
  · split
    · exact ite_memOk (State.advance_memOk (State.modWarp_memOk held1)) (State.decodeTrap_memOk held)
    · exact State.advance_memOk (State.modIssuer_memOk held1)
    · exact State.decodeTrap_memOk held

/-! Synchronisation -/

theorem execWaitCnt_memOk {h ctr a imm} (canon : s.MemOk) : Outcome.MemOk (execWaitCnt h ctr a imm s) := by
  simp only [execWaitCnt]
  refine word_memOk canon ?_
  intro _
  refine ite_memOk (State.advance_memOk canon) (State.withSources_memOk canon ?_)
  intro _ _ _ _ held held1
  refine ite_memOk (State.waitAt_memOk held) ?_
  split
  · exact State.raiseAt_memOk (State.modSlice_memOk held)
  · exact State.advance_memOk held1

theorem execFence_memOk {h sc} (canon : s.MemOk) : Outcome.MemOk (execFence h sc s) :=
  word_memOk canon (fun _ => ite_memOk (State.advance_memOk canon) (ite_memOk (State.waitAt_memOk canon)
    (ite_memOk (State.advance_memOk (State.fence__memOk (State.release_memOk canon))) (State.waitAt_memOk
    (State.release_memOk canon)))))

theorem State.watch_memOk {i lane v w} (canon : s.MemOk) : (s.watch i lane v w).1.MemOk := by
  unfold State.watch
  split
  · exact canon
  · exact canon
  · split
    next run => exact memOk_of_fst run (lookFor_memOk canon)
    next run => exact memOk_of_fst run (lookFor_memOk canon)
    next run => exact memOk_of_fst run (lookFor_memOk canon)

theorem State.watches_memOk {i a w m} (canon : s.MemOk) : (s.watches i a w m).1.MemOk :=
  foldl_fst_memOk (fun _ _ kept => by exact watch_memOk kept) canon

theorem State.unclaimWord_memOk {i} (canon : s.MemOk) : (s.unclaimWord i).MemOk := canon

theorem State.peekLine_memOk {i sc x o pa w} (canon : s.MemOk) : (s.peekLine i sc x o pa w).1.MemOk := by
  simp only [State.peekLine]
  refine ite_fst_memOk (flushFor_memOk canon) ?_
  split
  · exact ite_fst_memOk (flushFor_memOk canon) (modCore_memOk (flushFor_memOk canon))
  · split
    next run => exact memOk_of_fst run (ask_memOk (flushFor_memOk canon))
    next run =>
      have kept := memOk_of_fst run (ask_memOk (flushFor_memOk canon))
      exact ite_fst_memOk kept (ite_fst_memOk kept (homeRead_memOk (slot := x.key) (lo := pa % 128) (len := w)
        (touch_memOk kept)))

theorem State.peek_memOk {i sc w at_} (canon : s.MemOk) : (s.peek i sc w at_).1.MemOk := by
  unfold State.peek
  split
  · exact canon
  · exact canon
  · exact canon
  · split
    · exact canon
    · exact canon
    · dsimp only
      split
      next run =>
        have kept := memOk_of_fst run (peekLine_memOk canon)
        refine ite_fst_memOk kept ?_
        split
        next run' => exact memOk_of_fst run' (peekLine_memOk kept)
        · exact peekLine_memOk kept
      · exact peekLine_memOk canon

theorem State.peeks_memOk {i sc w ls} (canon : s.MemOk) : (s.peeks i sc w ls).1.MemOk :=
  foldl_fst_memOk (fun _ _ kept => by exact peek_memOk kept) canon

theorem State.endPass_memOk {i} (canon : s.MemOk) : (s.endPass i).MemOk :=
  forget_memOk (unclaimWord_memOk canon)

theorem State.waitAddrPass_memOk {i mark t cc sc dp a b m deadline} (canon : s.MemOk) :
    (s.waitAddrPass i mark t cc sc dp a b m deadline).MemOk :=
  ite_memOk (waitAt_memOk (watches_memOk (modSplit_memOk canon))) (ite_memOk
    (raiseAt_memOk (endPass_memOk (watches_memOk (modSplit_memOk canon)))) (ite_memOk
    (raiseAt_memOk (endPass_memOk (peeks_memOk (watches_memOk (modSplit_memOk canon))))) (ite_memOk
    (waitAt_memOk (peeks_memOk (watches_memOk (modSplit_memOk canon)))) (ite_memOk
    (reapAll_memOk (advance_memOk (results_memOk
    (ite_memOk (endPass_memOk (peeks_memOk (watches_memOk (modSplit_memOk canon)))) (kill_memOk
    (endPass_memOk (peeks_memOk (watches_memOk (modSplit_memOk canon))))))))) (reapAll_memOk
    (waitAt_memOk (ite_memOk (endPass_memOk (peeks_memOk (watches_memOk (modSplit_memOk canon)))) (kill_memOk
    (endPass_memOk (peeks_memOk (watches_memOk (modSplit_memOk canon))))))))))))

theorem execWaitAddr_memOk {h t cc sc dp a b c} (canon : s.MemOk) :
    Outcome.MemOk (execWaitAddr h t cc sc dp a b c s) := by
  simp only [execWaitAddr]
  refine word_memOk canon ?_
  intro _
  refine ite_memOk (State.advance_memOk canon) (ite_memOk (State.waitAt_memOk canon) ?_)
  split
  · exact ite_memOk (State.waitAddrPass_memOk canon) canon
  · exact State.waitAddrPass_memOk canon

theorem execWaitAddrWake_memOk {st} (canon : s.MemOk) : Outcome.MemOk (execWaitAddrWake st s) :=
  next_memOk (State.modSplit_memOk canon)

theorem State.rvWord_memOk {i h rv k} (canon : s.MemOk) (keeps : ∀ x0, (k x0).MemOk) : (s.rvWord i h rv k).MemOk :=
  ite_memOk (advance_memOk canon) (ite_memOk (decodeTrap_memOk canon) (ite_memOk (waitAt_memOk canon) (keeps _)))

theorem execRvInit_memOk {h rv na nb} (canon : s.MemOk) : Outcome.MemOk (execRvInit h rv na nb s) :=
  word_memOk canon (fun _ => State.rvWord_memOk canon (fun _ => State.withSources_memOk canon
    (fun _ _ _ _ held held1 => ite_memOk (State.decodeTrap_memOk held) (ite_memOk (State.decodeTrap_memOk held)
    (ite_memOk (State.decodeTrap_memOk held) (State.advance_memOk (State.modTeam_memOk held1)))))))

theorem execRvArr_memOk {h rv} (canon : s.MemOk) : Outcome.MemOk (execRvArr h rv s) := by
  unfold execRvArr
  refine word_memOk canon ?_
  intro _
  refine State.rvWord_memOk canon ?_
  intro _
  split
  · exact State.waitAt_memOk canon
  · exact State.advance_memOk (State.modTeam_memOk canon)

theorem State.observeRv_memOk {i rv n} (canon : s.MemOk) : ∀ t ∈ s.observeRv i rv n, t.MemOk := by
  unfold State.observeRv
  split
  · exact some_memOk (raiseAt_memOk (modTeam_memOk canon))
  · exact none_memOk

theorem execRvWait_memOk {h rv n} (canon : s.MemOk) : Outcome.MemOk (execRvWait h rv n s) := by
  simp only [execRvWait]
  refine word_memOk canon ?_
  intro _
  refine State.rvWord_memOk canon ?_
  intro _
  refine State.withSources_memOk canon ?_
  intro _ _ _ _ held held1
  refine ite_memOk ?_ (State.waitAt_memOk held)
  split
  next run2 => exact State.observeRv_memOk held _ run2
  · exact State.advance_memOk held1

theorem execRvTest_memOk {h rv dp n} (canon : s.MemOk) : Outcome.MemOk (execRvTest h rv dp n s) := by
  simp only [execRvTest]
  refine word_memOk canon ?_
  intro _
  refine State.rvWord_memOk canon ?_
  intro _
  refine State.withSources_memOk canon ?_
  intro _ _ _ _ held held1
  split
  next run2 => exact ite_opt_memOk (State.observeRv_memOk held) none_memOk _ run2
  · exact State.advance_memOk (State.results_memOk held1)

theorem execGSet_memOk {h slot ap} (canon : s.MemOk) : Outcome.MemOk (execGSet h slot ap s) := by
  unfold execGSet
  refine word_memOk canon ?_
  intro _
  split
  · exact State.advance_memOk canon
  · exact ite_memOk (State.advance_memOk canon) (ite_memOk (State.waitAt_memOk canon)
    (State.advance_memOk (State.resolve_memOk canon)))

theorem State.sendWake_memOk {i ctx v} (canon : s.MemOk) : (s.sendWake i ctx v).1.MemOk := by
  simp only [State.sendWake]
  split
  · exact orWake_memOk canon
  · exact orWake_memOk canon
  · refine ite_fst_memOk (orWake_memOk canon) (ite_fst_memOk ?_ (ite_fst_memOk canon (send_memOk canon)))
    split
    next run => exact orWake_memOk (memOk_of_fst run (agentAsk_memOk canon))
    next run => exact memOk_of_fst run (agentAsk_memOk canon)

theorem execSigq_memOk {h a d} (canon : s.MemOk) : Outcome.MemOk (execSigq h a d s) := by
  simp only [execSigq]
  refine word_memOk canon ?_
  intro _
  split
  · exact State.advance_memOk canon
  · refine ite_memOk (State.decodeTrap_memOk canon) (ite_memOk (State.decodeTrap_memOk canon)
    (ite_memOk (State.waitAt_memOk canon) (ite_memOk (State.waitAt_memOk (State.release_memOk canon)) ?_)))
    split
    next run =>
      have kept := memOk_of_fst run (ite_fst_memOk (State.release_memOk canon) (State.sendWake_memOk
        (State.release_memOk canon)))
      exact State.advance_memOk (State.fence__memOk kept)
    next run =>
      have kept := memOk_of_fst run (ite_fst_memOk (State.release_memOk canon) (State.sendWake_memOk
        (State.release_memOk canon)))
      exact State.waitAt_memOk kept

/-! Fetch and shapes -/

theorem State.codeFill_memOk {q line x hs} (canon : s.MemOk) : (s.codeFill q line x hs).1.MemOk := by
  simp only [State.codeFill]
  split
  next run => exact memOk_of_fst run (ask_memOk canon)
  next run =>
    have kept := memOk_of_fst run (ask_memOk canon)
    exact ite_fst_memOk (modCore_memOk (homeRead_memOk (slot := x.key) (lo := 0) (len := 128)
      (touch_memOk (unclaim_memOk kept)))) (homeRead_memOk (slot := x.key) (lo := 0) (len := 128)
      (touch_memOk (unclaim_memOk kept)))

theorem State.code_memOk {q v n fuel} (canon : s.MemOk) : (s.code q v n fuel).1.MemOk := by
  induction fuel generalizing s v n with
  | zero => exact canon
  | succ fuel ih =>
    rw [code]
    refine ite_fst_memOk canon (ite_fst_memOk canon ?_)
    split
    next run => exact memOk_of_fst run (lookFor_memOk canon)
    next run => exact memOk_of_fst run (lookFor_memOk canon)
    next found =>
      have kept := memOk_of_fst found (lookFor_memOk canon)
      dsimp only
      split
      · exact kept
      · exact kept
      · cases State.codeLine? _ q.core _ _ with
        | some c =>
          refine ite_fst_memOk kept ?_
          split
          next run => exact memOk_of_fst run (ih kept)
          · exact ih kept
        | none =>
          dsimp only
          split
          next run => exact memOk_of_fst run (codeFill_memOk kept)
          next run =>
            have read := memOk_of_fst run (codeFill_memOk kept)
            refine ite_fst_memOk read ?_
            split
            next run => exact memOk_of_fst run (ih read)
            · exact ih read

theorem State.killSplit_memOk {i} (canon : s.MemOk) : (s.killSplit i).MemOk :=
  reapAll_memOk (kill_memOk canon)

theorem State.fetchFault_memOk {i f v} (canon : s.MemOk) : (s.fetchFault i f v).MemOk := canon

theorem execInstructionFetchFill_memOk {st addr} (canon : s.MemOk) :
    Outcome.MemOk (execInstructionFetchFill st addr s) := by
  unfold execInstructionFetchFill
  refine next_memOk ?_
  split
  · exact canon
  · refine ite_memOk canon ?_
    split
    next run => exact State.modSplit_memOk (State.forget_memOk (memOk_of_fst run (State.code_memOk canon)))
    next run => exact memOk_of_fst run (State.code_memOk canon)
    next run => exact ite_memOk (State.killSplit_memOk (memOk_of_fst run (State.code_memOk canon))) canon
    next run => exact ite_memOk (State.fetchFault_memOk (memOk_of_fst run (State.code_memOk canon))) canon

theorem State.withShape_memOk {i w u k go} (canon : s.MemOk) (keeps : ∀ x0 x1, x0.MemOk → (go x0 x1).MemOk) :
    (s.withShape i w u k go).MemOk := by
  simp only [State.withShape]
  split
  next run => exact waitAt_memOk (memOk_of_fst run (code_memOk canon))
  next run => exact killSplit_memOk (memOk_of_fst run (code_memOk canon))
  next run => exact fetchFault_memOk (memOk_of_fst run (code_memOk canon))
  next run =>
    have kept := memOk_of_fst run (code_memOk canon)
    exact ite_memOk (keeps _ _ (forget_memOk kept)) (decodeTrap_memOk (forget_memOk kept))

/-! Commands -/

theorem State.modCmd_memOk {id f} (canon : s.MemOk) : (s.modCmd id f).MemOk := canon
theorem State.dropCmd_memOk {id} (canon : s.MemOk) : (s.dropCmd id).MemOk := canon

theorem State.addCommand_memOk {i c} (canon : s.MemOk) : (s.addCommand i c).MemOk := by
  simp only [State.addCommand]
  split
  · exact ite_memOk (modWarp_memOk canon) canon
  · split
    · exact modCmd_memOk (modWarp_memOk (ite_memOk (modWarp_memOk canon) canon))
    · exact ite_memOk (modCmd_memOk (ite_memOk (modWarp_memOk canon) canon)) (modCmd_memOk
      (modWarp_memOk (ite_memOk (modWarp_memOk canon) canon)))

theorem State.enqueue_memOk {i mark c} (canon : s.MemOk) : (s.enqueue i mark c).MemOk := by
  unfold State.enqueue
  refine ite_memOk (decodeTrap_memOk canon) (ite_memOk (waitAt_memOk canon)
    (ite_memOk (waitAt_memOk canon) (ite_memOk ?_ (advance_memOk (addCommand_memOk canon)))))
  split
  · exact waitAt_memOk canon
  · exact advance_memOk (addCommand_memOk canon)

theorem State.cmdWord_memOk {h w u c kind build} (canon : s.MemOk) :
    Outcome.MemOk (s.cmdWord h w u c kind build) := by
  unfold State.cmdWord
  refine word_memOk canon ?_
  intro _
  refine withShape_memOk canon ?_
  intro _ _ kept
  split
  · exact advance_memOk kept
  · exact enqueue_memOk kept

theorem execCp_memOk {h c} (canon : s.MemOk) : Outcome.MemOk (execCp h c s) :=
  State.cmdWord_memOk canon

theorem execCpFeed_memOk {h c} (canon : s.MemOk) : Outcome.MemOk (execCpFeed h c s) :=
  State.cmdWord_memOk canon

theorem execCpColl_memOk {h c} (canon : s.MemOk) : Outcome.MemOk (execCpColl h c s) :=
  State.cmdWord_memOk canon

theorem execCpPut_memOk {h c} (canon : s.MemOk) : Outcome.MemOk (execCpPut h c s) :=
  State.cmdWord_memOk canon

theorem execCpGet_memOk {h c} (canon : s.MemOk) : Outcome.MemOk (execCpGet h c s) :=
  State.cmdWord_memOk canon

theorem execMma_memOk {h c} (canon : s.MemOk) : Outcome.MemOk (execMma h c s) :=
  State.cmdWord_memOk canon

theorem execMmaTwin_memOk {h c} (canon : s.MemOk) : Outcome.MemOk (execMmaTwin h c s) :=
  State.cmdWord_memOk canon

theorem State.accZeroWord_memOk {h dst slot kind index n} (canon : s.MemOk) :
    Outcome.MemOk (s.accZeroWord h dst slot kind index n) := by
  unfold State.accZeroWord
  refine word_memOk canon ?_
  intro _
  split
  · exact advance_memOk canon
  · exact enqueue_memOk canon

theorem execAccZeroImm_memOk {h dst n slot kind index} (canon : s.MemOk) :
    Outcome.MemOk (execAccZeroImm h dst n slot kind index s) :=
  State.accZeroWord_memOk canon

theorem execAccZeroReg_memOk {h dst src slot kind index} (canon : s.MemOk) :
    Outcome.MemOk (execAccZeroReg h dst src slot kind index s) :=
  State.accZeroWord_memOk canon

theorem execAccFin_memOk {h chk shape d a b c} (canon : s.MemOk) :
    Outcome.MemOk (execAccFin h chk shape d a b c s) := by
  simp only [execAccFin]
  refine word_memOk canon ?_
  intro _
  refine State.withShape_memOk canon ?_
  intro _ _ kept
  split
  · exact State.advance_memOk kept
  · exact ite_memOk (State.waitAt_memOk kept) (State.advance_memOk (State.addCommand_memOk kept))

theorem State.fillBucket_memOk {core} (canon : s.MemOk) : (s.fillBucket core).MemOk := canon

theorem execMmaBud_memOk {mark d} (canon : s.MemOk) : Outcome.MemOk (execMmaBud mark d s) :=
  word_memOk canon (fun _ => State.advance_memOk (State.deliver_memOk
    (State.bumpFree_memOk (State.fillBucket_memOk canon))))

theorem State.restartYields_memOk {t w} (canon : s.MemOk) : (s.restartYields t w).MemOk := by
  simp only [State.restartYields]
  split
  · exact canon
  · refine ite_memOk canon ?_
    split
    · exact canon
    · split
      · exact raiseAt_memOk (modSlice_memOk canon)
      · exact settle_memOk (modSlice_memOk canon)

theorem execCpYield_memOk {mark ofs} (canon : s.MemOk) : Outcome.MemOk (execCpYield mark ofs s) :=
  word_memOk canon (fun _ => State.restartYields_memOk (State.advanceTo_memOk (State.modIssuer_memOk canon)))

theorem State.unclaimCmd_memOk {c} (canon : s.MemOk) : (s.unclaimCmd c).MemOk :=
  forget_memOk (unclaim_memOk canon)

theorem State.engineFault_memOk {c f addr} (canon : s.MemOk) : (s.engineFault c f addr).MemOk :=
  raise_memOk (unclaimCmd_memOk (modCmd_memOk canon))

theorem State.signalCommand_memOk {c bytes} (canon : s.MemOk) : (s.signalCommand c bytes).MemOk := by
  simp only [State.signalCommand]
  refine reapAll_memOk ?_
  split
  · split
    · exact logEvent_memOk (dropCmd_memOk (unclaimCmd_memOk canon))
    · exact dropCmd_memOk (unclaimCmd_memOk canon)
  · split
    · exact modTeam_memOk (dropCmd_memOk (unclaimCmd_memOk canon))
    · exact raise_memOk (dropCmd_memOk (unclaimCmd_memOk canon))
    · exact dropCmd_memOk (unclaimCmd_memOk canon)
  · exact modSlice_memOk (dropCmd_memOk (unclaimCmd_memOk canon))
  · exact restartYields_memOk (modSlice_memOk (modWarp_memOk (dropCmd_memOk (unclaimCmd_memOk canon))))
  · exact dropCmd_memOk (unclaimCmd_memOk canon)

theorem State.moved_memOk {old : State} {c bytes e} (canon : s.MemOk) : (s.moved old c bytes e).MemOk := canon

theorem State.finResult_memOk {c} (canon : s.MemOk) : (s.finResult c).MemOk := by
  unfold State.finResult
  split
  · exact modFlight_memOk canon
  · exact canon

theorem execCommandComplete_memOk {cmd} (canon : s.MemOk) : Outcome.MemOk (execCommandComplete cmd s) := by
  unfold execCommandComplete
  refine next_memOk ?_
  split
  · exact canon
  · split
    · exact ite_memOk canon (State.signalCommand_memOk (State.finResult_memOk canon))
    all_goals exact canon

/-! Control flow -/

theorem State.diverge_memOk {i mark target recon t} (canon : s.MemOk) : (s.diverge i mark target recon t).MemOk :=
  canon

theorem State.branch_memOk {i mark target recon t} (canon : s.MemOk) : (s.branch i mark target recon t).MemOk :=
  ite_memOk (advanceTo_memOk canon) (ite_memOk (advance_memOk canon) (diverge_memOk canon))

theorem execBr_memOk {h rc tgt} (canon : s.MemOk) : Outcome.MemOk (execBr h rc tgt s) :=
  word_memOk canon (fun _ => ite_memOk (State.advanceTo_memOk canon) (ite_memOk (State.waitAt_memOk canon)
    (ite_memOk (State.decodeTrap_memOk canon) (State.branch_memOk (State.modWarp_memOk canon)))))

theorem execBrQ_memOk {mark dropT dropF rc tgt} (canon : s.MemOk) :
    Outcome.MemOk (execBrQ mark dropT dropF rc tgt s) := by
  simp only [execBrQ]
  refine word_memOk canon ?_
  intro _
  split
  · exact State.waitAt_memOk canon
  · exact ite_memOk (State.decodeTrap_memOk canon) (State.branch_memOk (State.modWarp_memOk canon))

theorem execBrB_memOk {h dropT dropF rc tgt} (canon : s.MemOk) : Outcome.MemOk (execBrB h dropT dropF rc tgt s) :=
  word_memOk canon (fun _ => ite_memOk (State.waitAt_memOk canon) (ite_memOk (State.decodeTrap_memOk canon)
    (State.branch_memOk (State.modWarp_memOk canon))))

theorem execBrBack_memOk {mark dropT dropF rc tgt} (canon : s.MemOk) :
    Outcome.MemOk (execBrBack mark dropT dropF rc tgt s) := by
  simp only [execBrBack]
  refine word_memOk canon ?_
  intro _
  split
  · exact State.waitAt_memOk canon
  · exact ite_memOk (State.decodeTrap_memOk canon) (State.branch_memOk (State.modWarp_memOk canon))

theorem State.jump_memOk {i mark pc link} (canon : s.MemOk) : (s.jump i mark pc link).MemOk :=
  ite_memOk (raiseAt_memOk canon) (advanceTo_memOk (modSplit_memOk canon))

theorem State.closed_memOk {t w} (canon : s.MemOk) : (s.closed t w).MemOk :=
  reapAll_memOk (closeWarp_memOk (modTeam_memOk canon))

theorem execExit_memOk {h} (canon : s.MemOk) : Outcome.MemOk (execExit h s) :=
  word_memOk canon (fun _ => ite_memOk (State.advance_memOk canon) (State.closed_memOk
    (ite_memOk (State.settle_memOk (State.counted_memOk (State.modSlice_memOk canon))) (State.advance_memOk
    (State.modSlice_memOk canon)))))

theorem State.favour_memOk {core quarter sl r} (canon : s.MemOk) : (s.favour core quarter sl r).MemOk := canon
theorem State.passFavour_memOk {p} (canon : s.MemOk) : (s.passFavour p).MemOk := canon

theorem execYield_memOk {mark} (canon : s.MemOk) : Outcome.MemOk (execYield mark s) :=
  word_memOk canon (fun _ => State.passFavour_memOk (State.advance_memOk canon))

theorem execSplitYield_memOk {mark} (canon : s.MemOk) : Outcome.MemOk (execSplitYield mark s) :=
  word_memOk canon (fun _ => State.passFavour_memOk (State.advance_memOk canon))

theorem execFairnessRotation_memOk {core quarter slice} (canon : s.MemOk) :
    Outcome.MemOk (execFairnessRotation core quarter slice s) :=
  next_memOk (ite_memOk (State.passFavour_memOk canon) canon)

theorem execTrap_memOk {h code} (canon : s.MemOk) : Outcome.MemOk (execTrap h code s) :=
  word_memOk canon (fun _ => ite_memOk (State.advance_memOk canon) (State.decodeTrap_memOk canon))

/-! Floating-point words -/

theorem State.fp1_memOk {i h t d a f} (canon : s.MemOk) : (s.fp1 i h t d a f).MemOk :=
  fpWord_memOk canon

theorem State.fp2_memOk {i h t d a b f} (canon : s.MemOk) : (s.fp2 i h t d a b f).MemOk :=
  fpWord_memOk canon

theorem State.fp3_memOk {i h t d a b c f} (canon : s.MemOk) : (s.fp3 i h t d a b c f).MemOk :=
  fpWord_memOk canon

/-! Format words -/

theorem execFmtSetImm_memOk {h v} (canon : s.MemOk) : Outcome.MemOk (execFmtSetImm h v s) :=
  word_memOk canon (fun _ => State.advance_memOk (ite_memOk canon (State.modIssuer_memOk canon)))

theorem execFmtSetReg_memOk {h a} (canon : s.MemOk) : Outcome.MemOk (execFmtSetReg h a s) := by
  simp only [execFmtSetReg]
  refine word_memOk canon ?_
  intro _
  refine ite_memOk (State.advance_memOk canon) (State.withSources_memOk canon ?_)
  intro _ _ _ _ held held1
  split
  · exact State.advance_memOk held1
  · exact ite_memOk (State.advance_memOk (State.modIssuer_memOk held1)) (State.decodeTrap_memOk held)

theorem execFmtGetFlagsClr_memOk {h d} (canon : s.MemOk) : Outcome.MemOk (execFmtGetFlagsClr h d s) :=
  word_memOk canon (fun _ => State.lanewise_memOk (ite_memOk canon (State.modSlice_memOk canon)))

theorem execFmtSeed_memOk {h a} (canon : s.MemOk) : Outcome.MemOk (execFmtSeed h a s) :=
  word_memOk canon (fun _ => ite_memOk (State.advance_memOk canon) (State.withSources_memOk canon
    (fun _ _ _ _ kept kept => State.advance_memOk (State.modSlice_memOk kept))))

/-! Copies -/

theorem State.sitesAsk_memOk {agent serial stamp rd wr} (canon : s.MemOk) :
    (s.sitesAsk agent serial stamp rd wr).1.MemOk := by
  unfold State.sitesAsk
  refine ite_fst_memOk (keepStamp_memOk canon) ?_
  split
  next run =>
    have kept := memOk_of_fst run (askAll_memOk canon)
    exact foldl_memOk (fun _ _ => touch_memOk) kept
  next run => exact memOk_of_fst run (askAll_memOk canon)

theorem State.readsDone_memOk {rd} (canon : s.MemOk) : (s.readsDone rd).MemOk :=
  foldl_memOk (fun _ _ => endTransient_memOk) canon

theorem State.useRanges_memOk {core l} (canon : s.MemOk) : (s.useRanges core l).MemOk :=
  foldl_memOk (fun _ _ => modCore_memOk) canon

theorem State.cmdReady_memOk {c tm rd wr} (canon : s.MemOk) : (s.cmdReady c tm rd wr).1.MemOk := by
  simp only [State.cmdReady]
  refine ite_fst_memOk (foldl_memOk (fun _ _ => joinWalk_memOk) canon) ?_
  split
  next run => exact forget_memOk (useRanges_memOk (memOk_of_fst run (sitesAsk_memOk canon)))
  next run => exact memOk_of_fst run (sitesAsk_memOk canon)

theorem State.writeSites_memOk {ws} (canon : s.MemOk) : (s.writeSites ws).MemOk :=
  foldl_memOk (fun _ _ => homeStore_memOk) (foldl_memOk (fun _ _ => tideWrite_memOk) canon)

theorem State.meetFault_memOk {c fs} (canon : s.MemOk) : (s.meetFault c fs).MemOk := by
  unfold State.meetFault
  split
  · exact bumpFree_memOk (engineFault_memOk canon)
  · exact canon

theorem State.moveStep_memOk {c tm ms stop refused credit} (canon : s.MemOk) :
    (s.moveStep c tm ms stop refused credit).MemOk := by
  simp only [State.moveStep]
  refine ite_memOk (meetFault_memOk canon) ?_
  split
  next run => exact memOk_of_fst run (cmdReady_memOk canon)
  next run =>
    have kept := memOk_of_fst run (cmdReady_memOk canon)
    exact ite_memOk (moved_memOk (modCmd_memOk (tookFree_memOk (readsDone_memOk (writeSites_memOk kept)))))
      (modCmd_memOk (modCmd_memOk (tookFree_memOk (readsDone_memOk (writeSites_memOk kept)))))

theorem State.startCp_memOk {c tm} (canon : s.MemOk) : (s.startCp c tm).MemOk :=
  moveStep_memOk canon

theorem State.takeFifos_memOk {core t} (canon : s.MemOk) : ∀ u ∈ s.takeFifos core t, u.MemOk := by
  simp only [State.takeFifos]
  split
  · exact some_memOk (modCore_memOk canon)
  · exact ite_opt_memOk (some_memOk canon) (ite_opt_memOk (some_memOk (modCore_memOk canon)) none_memOk)

theorem State.startFeed_memOk {c tm fifo} (canon : s.MemOk) : (s.startFeed c tm fifo).MemOk := by
  simp only [State.startFeed]
  refine ite_memOk (raise_memOk (modCmd_memOk canon)) ?_
  split
  · exact canon
  next run =>
    have kept := takeFifos_memOk canon _ run
    split
    · exact engineFault_memOk kept
    · split
      next run => exact memOk_of_fst run (cmdReady_memOk kept)
      next run =>
        have kept := memOk_of_fst run (cmdReady_memOk kept)
        exact ite_memOk (moved_memOk (tookFree_memOk (modCore_memOk (readsDone_memOk kept)))) (modCmd_memOk
          (tookFree_memOk (modCore_memOk (readsDone_memOk kept))))

theorem State.startAccZero_memOk {c tm n} (canon : s.MemOk) : (s.startAccZero c tm n).MemOk := by
  unfold State.startAccZero
  refine ite_memOk (engineFault_memOk canon) ?_
  extract_lets ls faults zeroed
  split
  next run => exact memOk_of_fst run (cmdReady_memOk canon)
  next t run =>
    have kept := memOk_of_fst run (cmdReady_memOk canon)
    have flushed : (zeroed.foldl (fun (acc : State × Bool) (l : Site) => match l with
        | .mem _ pa => let (s, b) := acc.1.flushedLine (lineOf pa); (s, acc.2 && b)
        | _ => acc) (t, true)).1.MemOk := by
      refine foldl_fst_memOk (fun acc l kept => ?_) kept
      split
      · exact flushedLine_memOk kept
      · exact kept
    exact ite_memOk flushed (ite_memOk (moved_memOk (writeSites_memOk flushed))
      (meetFault_memOk (tookFree_memOk (writeSites_memOk flushed))))

theorem State.tableAsk_memOk {agent serial ctx stamp} (canon : s.MemOk) :
    (s.tableAsk agent serial ctx stamp).1.MemOk := by
  simp only [State.tableAsk]
  split
  · exact canon
  · exact keepStamp_memOk (askAll_memOk canon)

theorem State.outerAsk_memOk {ctx ticket rd wr} (canon : s.MemOk) : (s.outerAsk ctx ticket rd wr).1.MemOk := by
  unfold State.outerAsk
  split
  next run => exact memOk_of_fst run (tableAsk_memOk canon)
  next run => exact sitesAsk_memOk (memOk_of_fst run (tableAsk_memOk canon))

theorem State.remoteRead_memOk {ctx tag ticket v n} (canon : s.MemOk) :
    (s.remoteRead ctx tag ticket v n).1.MemOk := by
  simp only [State.remoteRead]
  refine ite_fst_memOk canon (ite_fst_memOk canon ?_)
  split
  next run => exact memOk_of_fst run (outerAsk_memOk canon)
  next run => exact readsDone_memOk (memOk_of_fst run (outerAsk_memOk canon))

theorem State.remoteWrite_memOk {ctx tag ticket bs} (canon : s.MemOk) :
    (s.remoteWrite ctx tag ticket bs).1.MemOk := by
  simp only [State.remoteWrite]
  refine ite_fst_memOk canon (ite_fst_memOk canon ?_)
  split
  next run => exact memOk_of_fst run (outerAsk_memOk canon)
  next run => exact writeSites_memOk (memOk_of_fst run (outerAsk_memOk canon))

theorem State.toFabric_memOk {c tm dest bs} (canon : s.MemOk) : (s.toFabric c tm dest bs).MemOk := canon

theorem State.startPut_memOk {c tm} (canon : s.MemOk) : (s.startPut c tm).MemOk := by
  simp only [State.startPut]
  refine ite_memOk (moved_memOk canon) (ite_memOk ?_ ?_)
  · split
    next run => exact memOk_of_fst run (tableAsk_memOk canon)
    next run => exact moveStep_memOk (memOk_of_fst run (tableAsk_memOk canon))
  · refine ite_memOk (meetFault_memOk canon) ?_
    split
    next run => exact memOk_of_fst run (cmdReady_memOk canon)
    next run => exact modCmd_memOk (toFabric_memOk (readsDone_memOk (memOk_of_fst run (cmdReady_memOk canon))))

theorem State.startGet_memOk {c tm} (canon : s.MemOk) : (s.startGet c tm).MemOk := by
  simp only [State.startGet]
  refine ite_memOk (moved_memOk canon) (ite_memOk (toFabric_memOk canon) ?_)
  split
  next run => exact memOk_of_fst run (tableAsk_memOk canon)
  next run => exact moveStep_memOk (memOk_of_fst run (tableAsk_memOk canon))

theorem State.landBytes_memOk {c tm at_ bs e} (canon : s.MemOk) : (s.landBytes c tm at_ bs e).MemOk := by
  simp only [State.landBytes]
  split
  next run => exact memOk_of_fst run (cmdReady_memOk canon)
  next run =>
    have kept := memOk_of_fst run (cmdReady_memOk canon)
    exact ite_memOk (moved_memOk (writeSites_memOk kept)) (meetFault_memOk (tookFree_memOk (writeSites_memOk kept)))

theorem State.bumpGroup_memOk {g} (canon : s.MemOk) : (s.bumpGroup g).MemOk := canon

theorem State.rejectColl_memOk {c tm r} (canon : s.MemOk) : (s.rejectColl c tm r).MemOk :=
  moved_memOk (ite_memOk (bumpGroup_memOk (toFabric_memOk canon)) canon)

theorem State.sendColl_memOk {c tm r} (canon : s.MemOk) : (s.sendColl c tm r).MemOk := by
  simp only [State.sendColl]
  refine ite_memOk (meetFault_memOk canon) ?_
  split
  next run => exact memOk_of_fst run (cmdReady_memOk canon)
  next run =>
    have kept := memOk_of_fst run (cmdReady_memOk canon)
    exact modCmd_memOk (bumpGroup_memOk (toFabric_memOk (readsDone_memOk (ite_memOk (writeSites_memOk kept) kept))))

theorem State.startColl_memOk {c tm} (canon : s.MemOk) : (s.startColl c tm).MemOk := by
  simp only [State.startColl]
  refine ite_memOk (engineFault_memOk canon) (ite_memOk (meetFault_memOk canon) ?_)
  split
  next run => exact memOk_of_fst run (cmdReady_memOk canon)
  next run =>
    have kept := memOk_of_fst run (cmdReady_memOk canon)
    refine ite_memOk (moved_memOk kept) (ite_memOk (rejectColl_memOk kept) ?_)
    split
    next run => exact memOk_of_fst run (askAll_memOk kept)
    next run =>
      have kept := memOk_of_fst run (askAll_memOk kept)
      exact ite_memOk (moved_memOk (bumpGroup_memOk kept)) (sendColl_memOk kept)

theorem State.landReply_memOk {c tm at_ bs} (canon : s.MemOk) : (s.landReply c tm at_ bs).MemOk :=
  landBytes_memOk canon

theorem State.takeReply_memOk {c tm} (canon : s.MemOk) : (s.takeReply c tm).MemOk := by
  simp only [State.takeReply]
  split
  · exact moved_memOk canon
  · exact moved_memOk canon
  · exact moved_memOk canon
  · exact moved_memOk canon
  · exact moved_memOk canon
  · exact landReply_memOk canon
  · exact tookFree_memOk (landReply_memOk canon)
  · exact canon

theorem execRemoteResponse_memOk {cmd r} (canon : s.MemOk) : Outcome.MemOk (execRemoteResponse cmd r s) := by
  simp only [execRemoteResponse]
  refine next_memOk ?_
  split
  · exact canon
  · split
    · exact canon
    · exact ite_memOk canon (State.takeReply_memOk (State.modCmd_memOk canon))

theorem execPeerTimeout_memOk {cmd} (canon : s.MemOk) : Outcome.MemOk (execPeerTimeout cmd s) := by
  unfold execPeerTimeout
  refine next_memOk ?_
  split
  · exact canon
  · split
    · exact ite_memOk (State.moved_memOk canon) canon
    · exact ite_memOk (State.moved_memOk canon) canon
    · exact ite_memOk (State.moved_memOk canon) canon
    all_goals exact canon

/-! Cross-lane words -/

theorem State.deliverDead_memOk {i m d w vals pd dead} (canon : s.MemOk) :
    (s.deliverDead i m d w vals pd dead).MemOk := by
  simp only [State.deliverDead]
  split
  · exact results_memOk (ite_memOk canon (push_memOk canon))
  · exact results_memOk canon

theorem State.shfl_memOk {i kind h t seg d a b pd} (canon : s.MemOk) : (s.shfl i kind h t seg d a b pd).MemOk := by
  simp only [State.shfl]
  refine ite_memOk (advance_memOk canon) ?_
  split
  · exact waitAt_memOk canon
  · exact withSources_memOk canon (fun _ _ _ _ kept kept => advance_memOk (deliverDead_memOk kept))

theorem State.side_memOk {r mask t a} (canon : s.MemOk) : ∀ u b, s.side r mask t a = some (u, b) → u.MemOk := by
  simp only [State.side]
  split
  · exact none_fst_memOk
  · split
    · exact none_fst_memOk
    · exact none_fst_memOk
    · exact some_fst_memOk (kill_memOk (modWarp_memOk canon))

theorem State.sideDone_memOk {x other o} (canon : s.MemOk) : (s.sideDone x other o).MemOk :=
  advance_memOk (deliverDead_memOk (modSlice_memOk canon))

theorem State.xch_memOk {i o} (canon : s.MemOk) : (s.xch i o).MemOk := by
  simp only [State.xch]
  split
  · exact ite_memOk canon (decodeTrap_memOk canon)
  · split
    · exact waitAt_memOk canon
    · exact waitAt_memOk canon
    · exact raiseAt_memOk canon
    · split
      · exact waitAt_memOk (modSlice_memOk canon)
      · refine ite_memOk (waitAt_memOk (modSlice_memOk canon)) ?_
        split
        · exact waitAt_memOk (modSlice_memOk canon)
        next run =>
          have kept := side_memOk canon _ _ run
          split
          · exact waitAt_memOk (modSlice_memOk canon)
          next run => exact reapAll_memOk (sideDone_memOk (sideDone_memOk (side_memOk kept _ _ run)))

/-! The matrix array -/

theorem State.consume_memOk {core c} (canon : s.MemOk) : (s.consume core c).MemOk :=
  modCmd_memOk (ite_memOk (modCore_memOk (modCore_memOk canon)) (modCore_memOk canon))

theorem State.joinTile_memOk {c tm gs} (canon : s.MemOk) : (s.joinTile c tm gs).MemOk :=
  foldl_memOk (fun _ _ => joinWalk_memOk) canon

theorem State.usedTile_memOk {c tm ls} (canon : s.MemOk) : (s.usedTile c tm ls).MemOk :=
  forget_memOk (useRanges_memOk canon)

theorem State.noteReady_memOk {core} (canon : s.MemOk) : (s.noteReady core).MemOk := canon

theorem execMmaRunStart_memOk {cmd d} (canon : s.MemOk) : Outcome.MemOk (execMmaRunStart cmd d s) := by
  unfold execMmaRunStart
  refine next_memOk ?_
  split
  · exact canon
  · split
    · exact canon
    next tm _ =>
      refine ite_memOk canon (ite_memOk (State.raise_memOk (State.modCmd_memOk canon)) ?_)
      split
      · exact State.joinTile_memOk canon
      · exact State.engineFault_memOk canon
      · dsimp only
        split
        · exact State.usedTile_memOk canon
        next t run => 
          have taken := foldl_opt_memOk (fun _ _ => State.takeFifos_memOk) (some_memOk (State.usedTile_memOk canon)) _ run
          have ready {ks : List Nat} : (ks.foldl State.fillBucket (t.noteReady tm.core)).bumpFree.MemOk :=
            State.bumpFree_memOk (foldl_memOk (fun _ _ => State.fillBucket_memOk) (State.noteReady_memOk taken))
          split
          · exact ready
          · refine ite_memOk ready (ite_memOk (State.logEvent_memOk (State.raise_memOk (State.modCmd_memOk ?_))) ?_)
            · exact foldl_memOk (fun _ _ => State.modCore_memOk) ready
            · exact foldl_memOk (fun _ _ => State.modCore_memOk) ready

theorem execMmaRunEnd_memOk {cmd} (canon : s.MemOk) : Outcome.MemOk (execMmaRunEnd cmd s) := by
  simp only [execMmaRunEnd]
  refine next_memOk ?_
  split
  · exact canon
  · split
    · exact canon
    · refine ite_memOk canon ?_
      split
      · exact State.consume_memOk canon
      · refine ite_memOk (State.consume_memOk canon) ?_
        split
        · exact State.joinTile_memOk (State.consume_memOk canon)
        · exact State.engineFault_memOk (State.consume_memOk canon)
        · exact State.modCmd_memOk (State.moved_memOk (State.tookFree_memOk
          (State.usedTile_memOk (State.consume_memOk canon))))

theorem State.dropEmission_memOk {id} (canon : s.MemOk) : (s.dropEmission id).MemOk := canon

theorem execEmissionApply_memOk {n} (canon : s.MemOk) : Outcome.MemOk (execEmissionApply n s) := by
  simp only [execEmissionApply]
  refine next_memOk ?_
  split
  · exact canon
  · split
    · exact State.keepStamp_memOk canon
    · split
      · exact State.engineFault_memOk (State.dropEmission_memOk canon)
      · exact State.dropEmission_memOk canon
    · refine ite_memOk ?_ ?_
      · split
        · exact State.dropEmission_memOk canon
        · split
          next run =>
            have kept := memOk_of_fst run (State.bufferEmission_memOk (State.bump_memOk canon))
            exact State.dropEmission_memOk kept
          next run => exact memOk_of_fst run (State.bufferEmission_memOk (State.bump_memOk canon))
      · split
        next run => exact memOk_of_fst run (State.askAll_memOk canon)
        next run =>
          have kept := memOk_of_fst run (State.askAll_memOk canon)
          exact State.dropEmission_memOk (State.homeEmission_memOk kept)

theorem State.finStatus_memOk {old : State} {c status} (canon : s.MemOk) : (s.finStatus old c status).MemOk := canon

theorem State.startAccFin_memOk {c tm chk} (canon : s.MemOk) : (s.startAccFin c tm chk).MemOk := by
  unfold State.startAccFin
  split
  · exact joinTile_memOk canon
  · exact engineFault_memOk canon
  · have begun {team whole ls} : (match s.flushedOn team ls with
        | (s, false) => (s, false)
        | (s, true) => s.cmdReady c tm whole []).1.MemOk := by
      split
      next run => exact memOk_of_fst run (flushedOn_memOk canon)
      next run => exact cmdReady_memOk (memOk_of_fst run (flushedOn_memOk canon))
    dsimp only
    split
    next run => exact memOk_of_fst run begun
    next run =>
      have kept := memOk_of_fst run begun
      split
      · exact finStatus_memOk kept
      · exact logEvent_memOk (finStatus_memOk kept)
      · split
        next run => exact memOk_of_fst run (cmdReady_memOk kept)
        next run =>
          have wrote {ws ws'} := writeSites_memOk (ws := ws') (writeSites_memOk (ws := ws) (memOk_of_fst run (cmdReady_memOk kept)))
          refine ite_memOk (finStatus_memOk ?_) (meetFault_memOk (tookFree_memOk ?_))
          · exact ite_memOk (modSlice_memOk wrote) wrote
          · exact ite_memOk (modSlice_memOk wrote) wrote

theorem execCommandStart_memOk {cmd} (canon : s.MemOk) : Outcome.MemOk (execCommandStart cmd s) := by
  unfold execCommandStart
  refine next_memOk ?_
  split
  · exact canon
  · split
    · exact canon
    · refine ite_memOk canon ?_
      split
      · exact canon
      · exact ite_memOk (State.signalCommand_memOk canon) canon
      · refine ite_memOk (State.takeReply_memOk canon) (ite_memOk canon ?_)
        split
        · exact State.startCp_memOk canon
        · exact State.startFeed_memOk canon
        · exact State.startColl_memOk canon
        · exact State.startPut_memOk canon
        · exact State.startGet_memOk canon
        · exact State.startAccZero_memOk canon
        · exact ite_memOk (State.startAccFin_memOk canon) canon
        · exact canon
        · exact canon

/-! System words -/

theorem State.wordSpan_memOk {i need lane v len fuel found} (canon : s.MemOk) :
    (s.wordSpan i need lane v len fuel found).1.MemOk := by
  induction fuel generalizing s v len found with
  | zero => exact canon
  | succ fuel ih =>
    rw [wordSpan]
    refine ite_fst_memOk canon ?_
    dsimp only
    split
    · exact canon
    · exact ih canon
    · split
      next run => exact memOk_of_fst run (lookFor_memOk canon)
      next run => exact memOk_of_fst run (lookFor_memOk canon)
      next run => exact ih (memOk_of_fst run (lookFor_memOk canon))

theorem State.spanWord_memOk {h need a len k} (canon : s.MemOk) (keeps : ∀ x0 x1 x2, x0.MemOk → (k x0 x1 x2).MemOk) :
    Outcome.MemOk (s.spanWord h need a len k) := by
  unfold State.spanWord
  refine word_memOk canon ?_
  intro _
  split
  · exact advance_memOk canon
  · refine ite_memOk (advance_memOk canon) ?_
    split
    next run => exact waitAt_memOk (memOk_of_fst run (wordSpan_memOk canon))
    next run => exact raiseAt_memOk (memOk_of_fst run (wordSpan_memOk canon))
    next run => exact keeps _ _ _ (forget_memOk (memOk_of_fst run (wordSpan_memOk canon)))

theorem execWb_memOk {h a b} (canon : s.MemOk) : Outcome.MemOk (execWb h a b s) :=
  State.spanWord_memOk canon (fun _ _ _ kept => ite_memOk (State.waitAt_memOk (State.flushFor_memOk kept))
    (State.advance_memOk (State.flushFor_memOk kept)))

theorem execIi_memOk {h a b} (canon : s.MemOk) : Outcome.MemOk (execIi h a b s) :=
  State.spanWord_memOk canon (fun _ _ _ kept => State.advance_memOk (State.modCore_memOk kept))

theorem execFbar_memOk {mark} (canon : s.MemOk) : Outcome.MemOk (execFbar mark s) :=
  word_memOk canon (fun _ => State.advance_memOk (State.modIssuer_memOk canon))

theorem execNodePost_memOk {h a} (canon : s.MemOk) : Outcome.MemOk (execNodePost h a s) := by
  simp only [execNodePost]
  refine State.spanWord_memOk canon ?_
  intro _ _ _ kept
  split
  · exact State.advance_memOk kept
  · refine ite_memOk (State.raiseAt_memOk kept) (ite_memOk (State.waitAt_memOk kept)
    (ite_memOk (State.waitAt_memOk (State.release_memOk kept)) ?_))
    split
    next run => exact State.waitAt_memOk (memOk_of_fst run (State.agentAsk_memOk (State.release_memOk kept)))
    next run =>
      have kept := memOk_of_fst run (State.agentAsk_memOk (State.release_memOk kept))
      exact State.advance_memOk (State.postNode_memOk (State.fence__memOk kept))

theorem execDiscard_memOk {h a b} (canon : s.MemOk) : Outcome.MemOk (execDiscard h a b s) := by
  simp only [execDiscard]
  refine State.spanWord_memOk canon ?_
  intro _ _ _ kept
  split
  · exact State.raiseAt_memOk kept
  · exact ite_memOk (State.waitAt_memOk kept) (State.advance_memOk (State.pump_memOk kept))

theorem privWord_memOk {k} (canon : s.MemOk) (keeps : ∀ x0, (k x0).MemOk) : Outcome.MemOk (privWord s k) :=
  word_memOk canon (fun _ => ite_memOk (keeps _) (State.decodeTrap_memOk canon))

theorem State.invalidate_memOk {ctx index} (canon : s.MemOk) : (s.invalidate ctx index).MemOk := canon

theorem State.flushUsers_memOk {us} (canon : s.MemOk) : (s.flushUsers us).MemOk :=
  foldl_memOk (fun _ _ => flushWhere_memOk) canon

theorem State.rngInv_memOk {h a all} (canon : s.MemOk) : Outcome.MemOk (s.rngInv h a all) := by
  simp only [State.rngInv]
  refine privWord_memOk canon ?_
  intro _
  split
  · exact advance_memOk canon
  · exact ite_memOk (advance_memOk canon) (advance_memOk (modSlice_memOk (invalidate_memOk canon)))

theorem execRngInv_memOk {h a} (canon : s.MemOk) : Outcome.MemOk (execRngInv h a s) :=
  State.rngInv_memOk canon

theorem execRngInvAll_memOk {h a} (canon : s.MemOk) : Outcome.MemOk (execRngInvAll h a s) :=
  State.rngInv_memOk canon

theorem execRngSync_memOk {mark} (canon : s.MemOk) : Outcome.MemOk (execRngSync mark s) :=
  privWord_memOk canon (fun _ => ite_memOk (State.waitAt_memOk (State.flushUsers_memOk canon)) (State.advance_memOk
    (State.modSlice_memOk (State.flushUsers_memOk canon))))

theorem execZline_memOk {h a} (canon : s.MemOk) : Outcome.MemOk (execZline h a s) :=
  privWord_memOk canon (fun _ => State.memWord_memOk canon)

theorem execFenceHb_memOk {mark} (canon : s.MemOk) : Outcome.MemOk (execFenceHb mark s) := by
  simp only [execFenceHb]
  refine privWord_memOk canon ?_
  intro _
  split
  · exact ite_memOk (State.advance_memOk (State.fence__memOk canon)) canon
  · exact ite_memOk (State.waitAt_memOk canon) (ite_memOk (State.waitAt_memOk (State.release_memOk canon))
    (State.waitAt_memOk (State.release_memOk canon)))

theorem execHalt_memOk {h} (canon : s.MemOk) : Outcome.MemOk (execHalt h s) :=
  privWord_memOk canon (fun _ => ite_memOk (State.advance_memOk canon) (State.decodeTrap_memOk canon))

theorem State.setSlot_memOk {n x} (canon : s.MemOk) : (s.setSlot n x).MemOk := canon

theorem State.requestSlide_memOk {i x n w} (canon : s.MemOk) : (s.requestSlide i x n w).1.MemOk := by
  simp only [State.requestSlide]
  split <;> exact canon

theorem execEbbSlide_memOk {h d a b c} (canon : s.MemOk) : Outcome.MemOk (execEbbSlide h d a b c s) := by
  simp only [execEbbSlide]
  refine privWord_memOk canon ?_
  intro _
  split
  · exact State.advance_memOk canon
  · refine ite_memOk (State.waitAt_memOk canon) ?_
    split
    next run => exact State.waitAt_memOk (memOk_of_fst run (ite_fst_memOk canon (State.wordSpan_memOk canon)))
    next run => exact State.raiseAt_memOk (memOk_of_fst run (ite_fst_memOk canon (State.wordSpan_memOk canon)))
    next run =>
      have kept := memOk_of_fst run (ite_fst_memOk canon (State.wordSpan_memOk canon))
      exact State.advance_memOk (State.deliver_memOk (State.requestSlide_memOk (State.forget_memOk kept)))

theorem execEbbStat_memOk {h d a} (canon : s.MemOk) : Outcome.MemOk (execEbbStat h d a s) := by
  simp only [execEbbStat]
  refine privWord_memOk canon ?_
  intro _
  split
  · exact State.advance_memOk canon
  · exact State.advance_memOk (State.deliver_memOk canon)

/-! Slides -/

theorem State.writeDesc_memOk {x k ws} (canon : s.MemOk) : (s.writeDesc x k ws).MemOk :=
  physWrite_memOk canon

theorem State.setMoving_memOk {x moving pa oldpa tide} (canon : s.MemOk) :
    (s.setMoving x moving pa oldpa tide).MemOk :=
  writeDesc_memOk canon

theorem State.descAsk_memOk {n x} (canon : s.MemOk) : (s.descAsk n x).1.MemOk :=
  agentAsk_memOk canon

theorem State.noteWrites_memOk {old : State} {n} (canon : s.MemOk) : (s.noteWrites old n).MemOk := canon

theorem State.reportSlide_memOk {x} (canon : s.MemOk) : (s.reportSlide x).MemOk :=
  ite_memOk (logEvent_memOk canon) (getD_memOk (ctxWrite_memOk canon) (logEvent_memOk canon))

theorem State.endSlide_memOk {n x state code} (canon : s.MemOk) : (s.endSlide n x state code).MemOk := by
  simp only [State.endSlide]
  refine ite_memOk canon ?_
  split
  next run => exact memOk_of_fst run (agentAsk_memOk canon)
  next run =>
    have kept := memOk_of_fst run (agentAsk_memOk canon)
    exact drainFree_memOk (reportSlide_memOk (setSlot_memOk kept))

theorem State.startSlide_memOk {n x} (canon : s.MemOk) : (s.startSlide n x).MemOk :=
  invalidate_memOk (noteWrites_memOk (setMoving_memOk (setSlot_memOk canon)))

theorem execSlideStartCommit_memOk {slot} (canon : s.MemOk) : Outcome.MemOk (execSlideStartCommit slot s) := by
  simp only [execSlideStartCommit]
  refine next_memOk (ite_memOk ?_ (ite_memOk
    (ite_memOk (ite_memOk (State.setSlot_memOk (ite_memOk (State.flushUsers_memOk canon) canon)) (ite_memOk
    (State.flushUsers_memOk canon) canon)) (ite_memOk
    (State.setSlot_memOk (ite_memOk (State.flushUsers_memOk canon) canon)) (ite_memOk (State.flushUsers_memOk canon)
    canon))) (ite_memOk (State.flushUsers_memOk canon) canon)))
  refine ite_memOk (ite_memOk (State.flushUsers_memOk canon) canon) ?_
  split
  next run => exact memOk_of_fst run (State.descAsk_memOk (ite_memOk (State.flushUsers_memOk canon) canon))
  next run =>
    have kept := memOk_of_fst run (State.descAsk_memOk (ite_memOk (State.flushUsers_memOk canon) canon))
    split
    · exact State.startSlide_memOk kept
    · exact State.endSlide_memOk kept

theorem State.settleFor_memOk {slot x line} (canon : s.MemOk) : (s.settleFor slot x line).1.MemOk := by
  simp only [State.settleFor]
  refine ite_fst_memOk (keepStamp_memOk canon) (ite_fst_memOk (claim_memOk (keepStamp_memOk canon)) ?_)
  split
  next run => exact claim_memOk (keepStamp_memOk (memOk_of_fst run (ready_memOk canon)))
  next run =>
    have kept := memOk_of_fst run (ready_memOk canon)
    split
    next run => exact claim_memOk (keepStamp_memOk (memOk_of_fst run (flushedLine_memOk kept)))
    next run =>
      have kept := memOk_of_fst run (flushedLine_memOk kept)
      split
      next run => exact claim_memOk (keepStamp_memOk (memOk_of_fst run (calm_memOk kept)))
      next run =>
        have kept := memOk_of_fst run (calm_memOk kept)
        refine ite_fst_memOk kept ?_
        split
        next run => exact memOk_of_fst run (startSettle_memOk kept)
        next run => exact claim_memOk (keepStamp_memOk (memOk_of_fst run (startSettle_memOk kept)))

theorem execEbbStep_memOk {slot} (canon : s.MemOk) : Outcome.MemOk (execEbbStep slot s) := by
  simp only [execEbbStep]
  refine next_memOk (ite_memOk canon ?_)
  split
  · exact canon
  · split
    next run => exact memOk_of_fst run (foldl_fst_memOk (fun _ _ kept => by exact State.settleFor_memOk kept) canon)
    next run =>
      have kept := memOk_of_fst run (foldl_fst_memOk (fun _ _ kept => by exact State.settleFor_memOk kept) canon)
      exact State.drainFree_memOk (foldl_memOk (fun _ _ => State.endTransient_memOk) (State.setSlot_memOk
        (foldl_memOk (fun _ _ => State.touch_memOk) (foldl_memOk (fun _ _ => State.clearResv_memOk)
        (State.unclaim_memOk kept)))))

theorem State.writeTide_memOk {x} (canon : s.MemOk) : (s.writeTide x).MemOk :=
  writeDesc_memOk canon

theorem State.newReady_memOk {slot x k} (canon : s.MemOk) : (s.newReady slot x k).1.MemOk := by
  simp only [State.newReady]
  split
  next run =>
    have kept := memOk_of_fst run (foldl_fst_memOk (fun _ _ kept => by exact askAs_memOk kept) canon)
    exact unclaim_memOk kept
  next run => exact memOk_of_fst run (foldl_fst_memOk (fun _ _ kept => by exact askAs_memOk kept) canon)

theorem State.writeBlock_memOk {x k bs bad} (canon : s.MemOk) : (s.writeBlock x k bs bad).MemOk :=
  ite_memOk (ite_memOk (homeStore_memOk (homeStore_memOk canon)) (homeStore_memOk canon)) (foldl_memOk
    (fun _ _ => setPoison_memOk) (ite_memOk (homeStore_memOk (homeStore_memOk canon)) (homeStore_memOk canon)))

theorem execEbbStepComplete_memOk {slot} (canon : s.MemOk) : Outcome.MemOk (execEbbStepComplete slot s) := by
  simp only [execEbbStepComplete]
  refine next_memOk (ite_memOk canon ?_)
  split
  · exact canon
  · split
    · exact canon
    · split
      next run => exact memOk_of_fst run (State.newReady_memOk canon)
      next run =>
        have kept := memOk_of_fst run (State.newReady_memOk canon)
        split
        next run => exact memOk_of_fst run (ite_fst_memOk (State.agentAsk_memOk kept) kept)
        next run =>
          have kept := memOk_of_fst run (ite_fst_memOk (State.agentAsk_memOk kept) kept)
          exact State.drainFree_memOk (State.noteWrites_memOk (State.bumpFree_memOk
            (ite_memOk (State.writeTide_memOk (State.setSlot_memOk (State.writeBlock_memOk kept)))
            (State.setSlot_memOk (State.writeBlock_memOk kept)))))

theorem execSlideCompletionCommit_memOk {slot} (canon : s.MemOk) :
    Outcome.MemOk (execSlideCompletionCommit slot s) := by
  simp only [execSlideCompletionCommit]
  refine next_memOk (ite_memOk ?_ (ite_memOk
    (ite_memOk (State.drainFree_memOk (State.setSlot_memOk (State.flushUsers_memOk canon))) (State.flushUsers_memOk
    canon)) canon))
  split
  next run => exact memOk_of_fst run (State.descAsk_memOk canon)
  next run =>
    have kept := memOk_of_fst run (State.descAsk_memOk canon)
    exact State.invalidate_memOk (State.noteWrites_memOk (State.setMoving_memOk (State.setSlot_memOk kept)))

theorem execSlideReport_memOk {slot} (canon : s.MemOk) : Outcome.MemOk (execSlideReport slot s) :=
  next_memOk (ite_memOk (State.endSlide_memOk canon) (ite_memOk (State.endSlide_memOk canon)
    (ite_memOk (State.endSlide_memOk canon) canon)))

theorem State.abandonSlides_memOk {p} (canon : s.MemOk) : (s.abandonSlides p).MemOk :=
  foldl_memOk (fun _ _ kept => ite_memOk (setSlot_memOk kept) kept) canon

/-! Dispatch and contexts -/

theorem State.endPeriod_memOk (canon : s.MemOk) : s.endPeriod.MemOk :=
  ite_memOk canon (withSched_memOk (foldl_memOk (fun _ _ => setReg_memOk) canon))

theorem State.sampleHeld_memOk (canon : s.MemOk) : s.sampleHeld.MemOk :=
  endPeriod_memOk canon

theorem execPartitionPeriod_memOk (canon : s.MemOk) : Outcome.MemOk (execPartitionPeriod s) :=
  next_memOk (State.endPeriod_memOk canon)

theorem State.seatCores_memOk {f post core restored} (canon : s.MemOk) : (s.seatCores f post core restored).MemOk :=
  ite_memOk (modCore_memOk (modCore_memOk (setFused_memOk canon))) (modCore_memOk (setFused_memOk canon))

theorem State.nextPlace_memOk (canon : s.MemOk) : s.nextPlace.MemOk := canon

theorem State.refill_memOk {t tm core} (canon : s.MemOk) : ∀ u ∈ s.refill t tm core, u.MemOk := by
  refine bind_memOk fun u taken => ?_
  have kept := ite_opt_memOk (some_memOk canon) (map_memOk (fun _ => modCore_memOk) (takeFifos_memOk canon)) u taken
  exact ite_opt_memOk (some_memOk kept) (map_memOk (fun _ => modCore_memOk) (takeFifos_memOk kept))

theorem State.reissue_memOk {t} (canon : s.MemOk) : (s.reissue t).MemOk := by
  simp only [State.reissue]
  split
  · exact pump_memOk (foldl_memOk (fun _ _ => resolveFlight_memOk) canon)
  · exact foldl_memOk (fun _ _ => restartYields_memOk) (pump_memOk
    (foldl_memOk (fun _ _ => resolveFlight_memOk) canon))

theorem State.seat_memOk {p f u ok core} (canon : s.MemOk) : ∀ t ∈ s.seat p f u ok core, t.MemOk := by
  simp only [State.seat]
  refine ite_opt_memOk none_memOk ?_
  split
  · exact none_memOk
  · split
    · exact some_memOk (seatCores_memOk canon)
    · exact map_memOk (fun _ kept => reissue_memOk (modTeam_memOk (nextPlace_memOk kept))) (refill_memOk
      (seatCores_memOk canon))

theorem State.seatGroup_memOk {p f us ok cluster} (canon : s.MemOk) : ∀ u ∈ s.seatGroup p f us ok cluster, u.MemOk :=
  foldl_opt_memOk (fun _ _ kept => ite_opt_memOk (seat_memOk kept) none_memOk) (some_memOk canon)

theorem State.seatAnywhere_memOk {p f us ok share k} (canon : s.MemOk) : ∀ u ∈ s.seatAnywhere p f us ok share k, u.MemOk :=
  findSome_memOk fun _ => ite_opt_memOk (seatGroup_memOk canon) (bind_memOk fun _ _ => seat_memOk canon)

theorem State.seatUnit_memOk {p f us ok core} (canon : s.MemOk) : ∀ u ∈ s.seatUnit p f us ok core, u.MemOk := by
  unfold State.seatUnit
  dsimp only
  split
  · exact none_memOk
  · exact map_memOk (fun _ kept => ite_memOk kept (tookFree_memOk kept))
      (foldl_opt_memOk (fun _ _ => seatAnywhere_memOk)
        (ite_opt_memOk (seatGroup_memOk canon) (bind_memOk fun _ _ => seat_memOk canon)))

theorem State.noteDispatch_memOk {p fresh} (canon : s.MemOk) : (s.noteDispatch p fresh).MemOk :=
  ite_memOk (ite_memOk (setRecord_memOk canon) canon) (ite_memOk
    (setCtxState_memOk (ite_memOk (setRecord_memOk canon) canon)) (ite_memOk (setRecord_memOk canon) canon))

theorem State.seatNode_memOk {ok core p} (canon : s.MemOk) : ∀ t ∈ s.seatNode ok core p, t.MemOk :=
  map_memOk (fun _ => noteDispatch_memOk) (seatUnit_memOk canon)

theorem State.tryDispatch_memOk {ctx ok core} (canon : s.MemOk) : ∀ t ∈ s.tryDispatch ctx ok core, t.MemOk :=
  ite_opt_memOk (findSome_memOk (fun _ => seatNode_memOk canon)) none_memOk

theorem State.freeReserved_memOk (canon : s.MemOk) : s.freeReserved.MemOk := canon

theorem State.undispatch_memOk {ctx} (canon : s.MemOk) : (s.undispatch ctx).MemOk :=
  foldl_memOk (fun _ _ => unclaim_memOk) canon

theorem execTeamDispatch_memOk {ctx core} (canon : s.MemOk) : Outcome.MemOk (execTeamDispatch ctx core s) := by
  simp only [execTeamDispatch]
  refine next_memOk (ite_memOk canon (ite_memOk (State.postRoot_memOk canon) ?_))
  split
  · exact State.undispatch_memOk canon
  · refine ite_memOk (foldl_memOk (fun _ _ => State.clearL1s_memOk) canon) ?_
    split
    next run => exact memOk_of_fst run (State.agentAsk_memOk canon)
    next run =>
      have kept := memOk_of_fst run (State.agentAsk_memOk canon)
      split
      next run => exact State.tookFree_memOk (State.freeReserved_memOk (State.seatNode_memOk kept _ run))
      · exact kept

theorem execPoolStarvation_memOk {ctx} (canon : s.MemOk) : Outcome.MemOk (execPoolStarvation ctx s) := by
  unfold execPoolStarvation
  refine next_memOk ?_
  split
  · exact canon
  · exact ite_memOk canon canon

theorem execHeldCoreExpiry_memOk {core} (canon : s.MemOk) : Outcome.MemOk (execHeldCoreExpiry core s) := by
  unfold execHeldCoreExpiry
  refine next_memOk ?_
  split
  · exact ite_memOk (State.modCore_memOk canon) canon
  · exact canon

theorem State.takeImage_memOk {t tm} (canon : s.MemOk) : (s.takeImage t tm).MemOk :=
  foldl_memOk (fun _ _ => modCore_memOk) (modTeam_memOk canon)

theorem State.holdFor_memOk {b core} (canon : s.MemOk) : (s.holdFor b core).MemOk :=
  ite_memOk canon (modCore_memOk canon)

theorem State.vacate_memOk {t tm} (canon : s.MemOk) : (s.vacate t tm).MemOk := by
  simp only [State.vacate]
  split
  · exact foldl_memOk (fun _ _ => holdFor_memOk) (ite_memOk (unfuse_memOk canon) canon)
  · exact foldl_memOk (fun _ _ => reserveFreed_memOk) (ite_memOk (unfuse_memOk canon) canon)

theorem State.discardContext_memOk {ctx} (canon : s.MemOk) : (s.discardContext ctx).MemOk := by
  simp only [State.discardContext]
  refine setReg_memOk (abandonSlides_memOk (foldl_memOk ?_ (foldl_memOk (fun _ _ => loseTeam_memOk) canon)))
  intro _ _ kept
  split
  · exact removeTeam_memOk kept
  · exact kept

theorem State.contextFatal_memOk {ctx} (canon : s.MemOk) : (s.contextFatal ctx).MemOk :=
  signalCtx_memOk (logEvent_memOk (setCtxState_memOk (discardContext_memOk canon)))

theorem State.destroyContext_memOk {ctx} (canon : s.MemOk) : (s.destroyContext ctx).MemOk :=
  setReg_memOk (setCtxState_memOk (discardContext_memOk canon))

theorem State.endSwitches_memOk (canon : s.MemOk) : s.endSwitches.MemOk :=
  foldl_memOk (fun _ _ kept => ite_memOk kept (ite_memOk (contextFatal_memOk kept) (setCtxState_memOk kept))) canon

theorem State.endPreempt_memOk (canon : s.MemOk) : s.endPreempt.MemOk := by
  simp only [State.endPreempt]
  split
  · exact canon
  · exact ite_memOk canon (signal_memOk (setReg_memOk (setReg_memOk canon)))

theorem execPreemptComplete_memOk (canon : s.MemOk) : Outcome.MemOk (execPreemptComplete s) :=
  next_memOk (State.endSwitches_memOk (State.endPreempt_memOk canon))

theorem State.writeImage_memOk {ctx blocks} (canon : s.MemOk) : (s.writeImage ctx blocks).MemOk :=
  foldl_memOk (fun _ _ kept => tookFree_memOk (getD_memOk (ctxWrite_memOk kept) kept)) canon

theorem execTeamSave_memOk {team blocks} (canon : s.MemOk) : Outcome.MemOk (execTeamSave team blocks s) := by
  simp only [execTeamSave]
  refine next_memOk ?_
  split
  · exact canon
  · refine ite_memOk canon (ite_memOk (State.flushTeam_memOk canon) ?_)
    split
    next run => exact memOk_of_fst run (State.agentAsk_memOk (State.flushTeam_memOk canon))
    next run =>
      have kept := memOk_of_fst run (State.agentAsk_memOk (State.flushTeam_memOk canon))
      exact State.endSwitches_memOk (State.vacate_memOk (State.modTeam_memOk
        (State.takeImage_memOk (State.writeImage_memOk kept))))

theorem State.haltTeams_memOk {acc : State × Preempt} {ts} (canon : acc.1.MemOk) : (State.haltTeams acc ts).1.MemOk :=
  ite_fst_memOk canon (foldl_memOk (fun _ _ => modTeam_memOk) canon)

theorem State.haltForSave_memOk {p per} (canon : s.MemOk) : (s.haltForSave p per).1.MemOk := by
  refine foldl_fst_memOk (fun acc cores kept => ?_) canon
  have halted {tss : List (List (Nat × Team))} : (tss.foldl State.haltTeams acc).1.MemOk :=
    foldl_fst_memOk (fun _ _ => haltTeams_memOk) kept
  exact ite_fst_memOk kept (ite_fst_memOk halted halted)

theorem execPreemptGo_memOk {v} (canon : s.MemOk) : Outcome.MemOk (execPreemptGo v s) := by
  simp only [execPreemptGo]
  refine next_memOk (ite_memOk canon (ite_memOk (State.setReg_memOk canon)
    (ite_memOk (State.signal_memOk (State.setReg_memOk (State.setReg_memOk (State.setReg_memOk canon)))) ?_)))
  split
  · exact foldl_memOk (fun _ _ => State.holdFor_memOk) (State.haltForSave_memOk (State.setReg_memOk canon))
  · exact State.haltForSave_memOk (State.setReg_memOk canon)

theorem execCtxctlRunSet_memOk {ctx v} (canon : s.MemOk) : Outcome.MemOk (execCtxctlRunSet ctx v s) := by
  simp only [execCtxctlRunSet]
  refine next_memOk (ite_memOk canon (ite_memOk (State.setReg_memOk canon) ?_))
  split
  · exact State.postRoot_memOk (State.setCtxState_memOk (State.setReg_memOk canon))
  · exact canon
  · exact State.setReg_memOk canon

theorem execCtxctlRunClear_memOk {ctx v} (canon : s.MemOk) : Outcome.MemOk (execCtxctlRunClear ctx v s) := by
  simp only [execCtxctlRunClear]
  refine next_memOk (ite_memOk canon (ite_memOk
    (ite_memOk (State.destroyContext_memOk (State.setReg_memOk canon)) (State.setReg_memOk canon)) ?_))
  split
  · exact State.endSwitches_memOk (State.haltForSave_memOk (State.setCtxState_memOk (State.setReg_memOk canon)))
  · exact State.endSwitches_memOk (State.haltForSave_memOk (State.setCtxState_memOk (State.setReg_memOk canon)))
  · exact State.setCtxState_memOk (State.discardContext_memOk (State.setReg_memOk canon))
  · exact State.setReg_memOk canon

/-! Traps -/

theorem execHaltArrival_memOk {team warp slice skid} (canon : s.MemOk) :
    Outcome.MemOk (execHaltArrival team warp slice skid s) := by
  simp only [execHaltArrival]
  refine next_memOk ?_
  split
  · exact canon
  · exact ite_memOk (State.modSlice_memOk canon) canon

theorem execStalemateDetect_memOk {team} (canon : s.MemOk) : Outcome.MemOk (execStalemateDetect team s) := by
  simp only [execStalemateDetect]
  refine next_memOk ?_
  split
  · exact canon
  · refine ite_memOk canon ?_
    split
    · exact ite_memOk canon (State.raise_memOk canon)
    · exact canon

theorem State.chain_memOk {ctx rec_} (canon : s.MemOk) : (s.chain ctx rec_).MemOk := by
  simp only [State.chain]
  split
  · exact setReg_memOk canon
  · exact getD_memOk (ctxWrite_memOk canon) canon

theorem State.unchain_memOk {ctx rec_} (canon : s.MemOk) : (s.unchain ctx rec_).MemOk := by
  simp only [State.unchain]
  split
  · exact setReg_memOk canon
  · exact getD_memOk (ctxWrite_memOk canon) canon

theorem State.handTrap_memOk {tm rec_} (canon : s.MemOk) : (s.handTrap tm rec_).MemOk := by
  simp only [State.handTrap]
  refine ite_memOk (signalCtx_memOk canon) ?_
  split
  · exact signalCtx_memOk canon
  next run =>
    have kept := ctxRead_memOk canon _ _ run
    refine ite_memOk kept ?_
    split
    next run =>
      exact memOk_of_fst run (postNode_memOk (setRecord_memOk
        (getD_memOk (ctxWrite_memOk (getD_memOk (ctxWrite_memOk kept) kept)) (getD_memOk (ctxWrite_memOk kept)
        kept))))
    next run =>
      have kept := memOk_of_fst run (postNode_memOk (setRecord_memOk
        (getD_memOk (ctxWrite_memOk (getD_memOk (ctxWrite_memOk kept) kept)) (getD_memOk (ctxWrite_memOk kept)
        kept))))
      exact signalCtx_memOk kept

theorem State.recordTrap_memOk {t tm tr blocks image} (canon : s.MemOk) :
    (s.recordTrap t tm tr blocks image).MemOk := by
  simp only [State.recordTrap]
  refine ite_memOk (contextFatal_memOk canon) ?_
  split
  next run => exact memOk_of_fst run (agentAsk_memOk canon)
  next run =>
    have kept := memOk_of_fst run (agentAsk_memOk canon)
    exact endSwitches_memOk (logEvent_memOk (vacate_memOk
      (modTeam_memOk (takeImage_memOk (chain_memOk
      (getD_memOk (ctxWrite_memOk (ite_memOk (writeImage_memOk kept) kept)) (ite_memOk (writeImage_memOk kept)
      kept)))))))

theorem State.tellTrap_memOk {t tm rec_} (canon : s.MemOk) : (s.tellTrap t tm rec_).MemOk := by
  unfold State.tellTrap
  split
  · exact canon
  · refine ite_memOk canon ?_
    split
    next run => exact memOk_of_fst run (agentAsk_memOk canon)
    next run => exact modTeam_memOk (handTrap_memOk (memOk_of_fst run (agentAsk_memOk canon)))

theorem execTrapRecordWrite_memOk {team blocks} (canon : s.MemOk) :
    Outcome.MemOk (execTrapRecordWrite team blocks s) := by
  simp only [execTrapRecordWrite]
  refine next_memOk ?_
  split
  · exact canon
  · split
    · exact ite_memOk (State.flushTeam_memOk canon) (ite_memOk
      (ite_memOk (State.recordTrap_memOk (State.flushTeam_memOk canon)) (State.flushTeam_memOk canon)) (ite_memOk
      (State.contextFatal_memOk (State.flushTeam_memOk canon)) (State.recordTrap_memOk
      (State.flushTeam_memOk canon))))
    · exact State.tellTrap_memOk canon
    · exact canon

theorem State.resolving_memOk {ctx rec_ v} (canon : s.MemOk) : (s.resolving ctx rec_ v).1.MemOk := by
  unfold State.resolving
  split
  · exact canon
  · split
    next run => exact memOk_of_fst run (agentAsk_memOk canon)
    next run => exact memOk_of_fst run (agentAsk_memOk canon)

theorem State.discardTeam_memOk {t tm rec_} (canon : s.MemOk) : (s.discardTeam t tm rec_).MemOk :=
  removeTeam_memOk (unchain_memOk (loseTeam_memOk canon))

theorem State.insertFlight_memOk {f id} (canon : s.MemOk) : (s.insertFlight f id).MemOk := canon

theorem State.reload_memOk {t w q e} (canon : s.MemOk) : (s.reload t w q e).MemOk :=
  modWarp_memOk (foldl_memOk (fun _ _ kept => insertFlight_memOk (bump_memOk kept)) canon)

theorem State.reloadFor_memOk {t tm} (canon : s.MemOk) : (s.reloadFor t tm).MemOk := by
  unfold State.reloadFor
  split
  · refine ite_memOk canon ?_
    split
    · exact reload_memOk canon
    · exact canon
  · exact canon

theorem State.resume_memOk {t tm rec_ blocks} (canon : s.MemOk) : (s.resume t tm rec_ blocks).MemOk :=
  unchain_memOk (modTeam_memOk canon)

theorem State.passOver_memOk {t tr} (canon : s.MemOk) : (s.passOver t tr).MemOk := by
  unfold State.passOver
  split
  · exact unpark_memOk (dropFlight_memOk canon)
  · exact ite_memOk canon (settle_memOk (modSplit_memOk canon))

theorem State.resolveRecord_memOk {t tm skip} (canon : s.MemOk) : (s.resolveRecord t tm skip).MemOk := by
  simp only [State.resolveRecord]
  split
  · refine resume_memOk (ite_memOk ?_ (reloadFor_memOk canon))
    split
    · exact passOver_memOk canon
    · exact canon
  · exact discardTeam_memOk canon
  all_goals exact canon

theorem execResolveResume_memOk {ctx rec_} (canon : s.MemOk) : Outcome.MemOk (execResolveResume ctx rec_ s) := by
  unfold execResolveResume
  refine next_memOk ?_
  split
  next run => exact State.resolveRecord_memOk (memOk_of_fst run (State.resolving_memOk canon))
  next run => exact memOk_of_fst run (State.resolving_memOk canon)

theorem execResolveSkip_memOk {ctx rec_} (canon : s.MemOk) : Outcome.MemOk (execResolveSkip ctx rec_ s) := by
  unfold execResolveSkip
  refine next_memOk ?_
  split
  next run => exact State.resolveRecord_memOk (memOk_of_fst run (State.resolving_memOk canon))
  next run => exact memOk_of_fst run (State.resolving_memOk canon)

theorem execResolveDiscard_memOk {ctx rec_} (canon : s.MemOk) : Outcome.MemOk (execResolveDiscard ctx rec_ s) := by
  unfold execResolveDiscard
  refine next_memOk ?_
  split
  next run => exact State.discardTeam_memOk (memOk_of_fst run (State.resolving_memOk canon))
  next run => exact memOk_of_fst run (State.resolving_memOk canon)

theorem execContextFatal_memOk {ctx} (canon : s.MemOk) : Outcome.MemOk (execContextFatal ctx s) :=
  next_memOk (ite_memOk (State.contextFatal_memOk canon) canon)

/-! Losses -/

theorem State.emptyCore_memOk {n} (canon : s.MemOk) : (s.emptyCore n).MemOk :=
  modCore_memOk (foldl_memOk (fun _ _ => poisonHalves_memOk) canon)

theorem State.emptyBuffer_memOk {cluster} (canon : s.MemOk) : (s.emptyBuffer cluster).MemOk :=
  setBuffer_memOk (foldl_memOk (fun _ _ kept => foldl_memOk (fun _ _ => poisonHalves_memOk) kept) canon)

theorem State.dropDie_memOk {d} (canon : s.MemOk) : (s.dropDie d).MemOk :=
  foldl_memOk (fun _ _ => emptyBuffer_memOk) (foldl_memOk (fun _ _ => emptyCore_memOk) canon)

theorem State.dropLost_memOk (canon : s.MemOk) : s.dropLost.MemOk := canon

theorem execDieLoss_memOk {l} (canon : s.MemOk) : Outcome.MemOk (execDieLoss l s) := by
  simp only [execDieLoss]
  refine next_memOk (State.dropLost_memOk ?_)
  split
  · exact State.dropDie_memOk (foldl_memOk (fun _ _ => State.contextFatal_memOk) canon)
  · exact foldl_memOk (fun _ _ => State.contextFatal_memOk) canon

theorem execCoreRemovedFromService_memOk {a} (canon : s.MemOk) : Outcome.MemOk (execCoreRemovedFromService a s) := by
  simp only [execCoreRemovedFromService]
  refine next_memOk ?_
  split
  · exact State.emptyCore_memOk (foldl_memOk (fun _ _ => State.contextFatal_memOk) canon)
  · exact State.emptyBuffer_memOk canon

theorem State.dropCopy_memOk {e} (canon : s.MemOk) : (s.dropCopy e).MemOk := by
  unfold State.dropCopy
  split
  · exact modCore_memOk canon
  · exact modCore_memOk canon
  · exact modCore_memOk canon
  all_goals exact canon

theorem State.symbolErrors_memOk {line hi n} (canon : s.MemOk) : (s.symbolErrors line hi n).MemOk :=
  ite_memOk (logEvent_memOk canon) (poisonHalves_memOk canon)

theorem State.watchMismatch_memOk {st lane folded} (canon : s.MemOk) : (s.watchMismatch st lane folded).MemOk := by
  unfold State.watchMismatch
  split
  · exact canon
  · exact ite_memOk (logEvent_memOk (decodeTrap_memOk canon)) canon

theorem execUncorrectableError_memOk {e} (canon : s.MemOk) : Outcome.MemOk (execUncorrectableError e s) := by
  unfold execUncorrectableError
  refine next_memOk ?_
  split
  · exact State.reapAll_memOk (State.kill_memOk canon)
  · exact State.poisonHalves_memOk canon
  · exact State.symbolErrors_memOk canon
  · exact State.poisonHalves_memOk (State.settleLine_memOk canon)
  · exact State.modCmd_memOk canon
  · exact State.watchMismatch_memOk canon
  all_goals exact State.dropCopy_memOk canon

theorem execCorrectedError_memOk {e} (canon : s.MemOk) : Outcome.MemOk (execCorrectedError e s) := by
  unfold execCorrectedError
  refine next_memOk ?_
  split
  · exact State.symbolErrors_memOk canon
  · exact State.logEvent_memOk (State.dropCopy_memOk canon)

theorem execContextDestruction_memOk {ctx} (canon : s.MemOk) : Outcome.MemOk (execContextDestruction ctx s) :=
  next_memOk (ite_memOk (State.destroyContext_memOk canon) canon)

/-! The host -/

theorem State.hostRefused_memOk {fn x} (canon : s.MemOk) : (s.hostRefused fn x).MemOk :=
  logEvent_memOk canon

theorem State.hostArrival_memOk {port ask addr} (canon : s.MemOk) : (s.hostArrival port ask addr).1.MemOk := by
  simp only [State.hostArrival]
  split <;> exact canon

theorem State.hostAsk_memOk {w key fn as write} (canon : s.MemOk) : (s.hostAsk w key fn as write).1.MemOk :=
  foldl_fst_memOk (fun _ _ kept => by exact ask_memOk kept) canon

theorem execCxlMemRead_memOk {port addr len tag} (canon : s.MemOk) :
    Outcome.MemOk (execCxlMemRead port addr len tag s) := by
  simp only [execCxlMemRead]
  refine next_memOk (ite_memOk canon ?_)
  split
  · exact State.hostDone_memOk (State.reply__memOk (State.hostRefused_memOk (State.hostArrival_memOk canon)))
  · split
    · exact State.hostArrival_memOk canon
    · split
      next run => exact memOk_of_fst run (State.hostAsk_memOk (State.hostArrival_memOk canon))
      next run =>
        have kept := memOk_of_fst run (State.hostAsk_memOk (State.hostArrival_memOk canon))
        exact ite_memOk (foldl_memOk (fun _ _ => State.claim_memOk) kept) (State.drainFree_memOk
          (State.hostDone_memOk (State.reply__memOk (foldl_memOk (fun _ _ => State.touch_memOk) kept))))

theorem State.replyAfter_memOk {old : State} {o} (canon : s.MemOk) : (s.replyAfter old o).MemOk := by
  unfold State.replyAfter
  split
  · exact reply__memOk canon
  · exact canon

theorem execCxlMemWrite_memOk {port addr bytes} (canon : s.MemOk) :
    Outcome.MemOk (execCxlMemWrite port addr bytes s) := by
  simp only [execCxlMemWrite]
  refine next_memOk (ite_memOk canon ?_)
  split
  · exact State.hostDone_memOk (State.hostRefused_memOk (State.hostArrival_memOk canon))
  · split
    · exact State.hostArrival_memOk canon
    · split
      next run => exact memOk_of_fst run (State.hostAsk_memOk (State.hostArrival_memOk canon))
      next run =>
        have kept := memOk_of_fst run (State.hostAsk_memOk (State.hostArrival_memOk canon))
        exact State.drainFree_memOk (State.hostDone_memOk (State.replyAfter_memOk
          (foldl_memOk (fun _ _ => State.homeStore_memOk) kept)))

theorem State.dropSnoop_memOk {line hi} (canon : s.MemOk) : (s.dropSnoop line hi).MemOk := canon

theorem State.hostMeets_memOk {w fn a own stamp agent} (canon : s.MemOk) :
    (s.hostMeets w fn a own stamp agent).MemOk :=
  ite_memOk (claim_memOk canon) (close_memOk canon)

theorem State.hostCache_memOk {port addr own} (canon : s.MemOk) : (s.hostCache port addr own).MemOk := by
  simp only [State.hostCache]
  refine ite_memOk canon ?_
  split
  · exact hostDone_memOk (reply__memOk (hostRefused_memOk (hostArrival_memOk canon)))
  · split
    · refine ite_memOk (hostDone_memOk (hostArrival_memOk canon)) ?_
      split
      · exact hostMeets_memOk (hostArrival_memOk canon)
      · split
        next run => exact memOk_of_fst run (ask_memOk (hostArrival_memOk canon))
        next run =>
          have kept := memOk_of_fst run (ask_memOk (hostArrival_memOk canon))
          refine ite_memOk (drainFree_memOk (grant_memOk (touch_memOk kept))) (ite_memOk
            (claim_memOk (touch_memOk kept)) ?_)
          split
          next run => exact drainFree_memOk (memOk_of_fst run (startSettle_memOk (touch_memOk kept)))
          next run => exact memOk_of_fst run (startSettle_memOk (touch_memOk kept))
    · exact hostArrival_memOk canon

theorem execHostSharedRequest_memOk {port addr} (canon : s.MemOk) :
    Outcome.MemOk (execHostSharedRequest port addr s) :=
  next_memOk (State.hostCache_memOk canon)

theorem execHostOwnershipRequest_memOk {port addr} (canon : s.MemOk) :
    Outcome.MemOk (execHostOwnershipRequest port addr s) :=
  next_memOk (State.hostCache_memOk canon)

theorem execHostWriteback_memOk {port addr bytes} (canon : s.MemOk) :
    Outcome.MemOk (execHostWriteback port addr bytes s) := by
  simp only [execHostWriteback]
  refine next_memOk (ite_memOk canon ?_)
  split
  · exact State.hostDone_memOk (State.hostRefused_memOk (State.hostArrival_memOk canon))
  · split
    · refine ite_memOk (State.hostDone_memOk (State.hostArrival_memOk canon)) ?_
      split
      next run => exact memOk_of_fst run (State.hostAsk_memOk (State.hostArrival_memOk canon))
      next run =>
        have kept := memOk_of_fst run (State.hostAsk_memOk (State.hostArrival_memOk canon))
        exact State.drainFree_memOk (State.hostDone_memOk (State.replyAfter_memOk
          (State.hostHas_memOk (State.homeStore_memOk kept))))
    · exact State.hostArrival_memOk canon
    · exact State.hostArrival_memOk canon

theorem execBackInvalidationResponse_memOk {line hi modified} (canon : s.MemOk) :
    Outcome.MemOk (execBackInvalidationResponse line hi modified s) := by
  simp only [execBackInvalidationResponse]
  refine next_memOk ?_
  split
  · exact canon
  · refine State.close_memOk (State.dropSnoop_memOk (State.hostHas_memOk ?_))
    split
    · refine State.hostDone_memOk (State.reply__memOk ?_)
      split
      · exact ite_memOk (State.changed_memOk (State.homePut_memOk (State.clearResv_memOk canon))) canon
      · exact canon
    · split
      · exact ite_memOk (State.changed_memOk (State.homePut_memOk (State.clearResv_memOk canon))) canon
      · exact canon

theorem State.snoopAnswer_memOk {line hi invalidate} (canon : s.MemOk) :
    (s.snoopAnswer line hi invalidate).MemOk := by
  simp only [State.snoopAnswer]
  split
  · exact reply__memOk canon
  · exact ite_memOk (reply__memOk canon) (ite_memOk canon (modL2_memOk (reply__memOk canon)))

theorem execHostSnoop_memOk {line hi invalidate} (canon : s.MemOk) :
    Outcome.MemOk (execHostSnoop line hi invalidate s) := by
  simp only [execHostSnoop]
  refine next_memOk (ite_memOk canon ?_)
  split
  · exact State.hostDone_memOk (State.snoopAnswer_memOk (State.hostArrival_memOk canon))
  · refine ite_memOk (State.claim_memOk (State.hostArrival_memOk canon)) (ite_memOk
    (State.drainFree_memOk (State.hostDone_memOk (State.snoopAnswer_memOk (State.hostArrival_memOk canon)))) ?_)
    split
    next run =>
      have kept := memOk_of_fst run (State.startSettle_memOk (State.hostArrival_memOk canon))
      exact State.drainFree_memOk (State.hostDone_memOk (State.snoopAnswer_memOk kept))
    next run =>
      have kept := memOk_of_fst run (State.startSettle_memOk (State.hostArrival_memOk canon))
      exact State.claim_memOk kept

theorem State.halfHere_memOk {line hi} (canon : s.MemOk) : (s.halfHere line hi).MemOk :=
  ite_memOk (modL2_memOk canon) (close_memOk (modL2_memOk canon))

theorem State.pulledHalf_memOk {line hi bytes} (canon : s.MemOk) : (s.pulledHalf line hi bytes).MemOk := canon

theorem execCxlCacheFill_memOk {line hi bytes} (canon : s.MemOk) : Outcome.MemOk (execCxlCacheFill line hi bytes s) :=
  next_memOk (ite_memOk canon (ite_memOk (State.pulledHalf_memOk canon) (State.halfHere_memOk
    (State.homeMerge_memOk canon))))

theorem State.fetchFailed_memOk {line hi} (canon : s.MemOk) : (s.fetchFailed line hi).MemOk :=
  halfHere_memOk (poisonHalves_memOk canon)

theorem State.ownerLost_memOk {line hi} (canon : s.MemOk) : (s.ownerLost line hi).MemOk :=
  ite_memOk (close_memOk (dropSnoop_memOk (hostHas_memOk (poisonHalves_memOk canon)))) (dropSnoop_memOk
    (hostHas_memOk (poisonHalves_memOk canon)))

theorem State.logAction_memOk {what detail} (canon : s.MemOk) : (s.logAction what detail).MemOk :=
  bumpFree_memOk (logEvent_memOk canon)

theorem execPortLinkDown_memOk {port} (canon : s.MemOk) : Outcome.MemOk (execPortLinkDown port s) :=
  next_memOk (ite_memOk canon (ite_memOk (ite_memOk (State.logAction_memOk canon) canon) (State.drainFree_memOk
    (foldl_memOk (fun _ _ => State.ownerLost_memOk) (foldl_memOk (fun _ _ => State.fetchFailed_memOk) canon)))))

theorem execPortLinkUp_memOk {port} (canon : s.MemOk) : Outcome.MemOk (execPortLinkUp port s) :=
  next_memOk (ite_memOk canon canon)

/-! Control registers -/

theorem State.reject_memOk {cause index} (canon : s.MemOk) : (s.reject cause index).MemOk :=
  ite_memOk canon (setReg_memOk canon)

theorem execAmapWerrClear_memOk {v} (canon : s.MemOk) : Outcome.MemOk (execAmapWerrClear v s) :=
  next_memOk (ite_memOk (State.setReg_memOk canon) canon)

theorem State.writeAmapCtrl_memOk {n v} (canon : s.MemOk) : (s.writeAmapCtrl n v).MemOk := by
  simp only [State.writeAmapCtrl]
  refine ite_memOk (ite_memOk (reject_memOk canon) (setReg_memOk canon)) (ite_memOk ?_ (setReg_memOk canon))
  split
  · exact setReg_memOk canon
  · exact reject_memOk canon

theorem State.writeAmap_memOk {n r v} (canon : s.MemOk) : (s.writeAmap n r v).MemOk :=
  ite_memOk (reject_memOk canon) (setReg_memOk canon)

theorem execAmapEntryValidate_memOk {n v} (canon : s.MemOk) : Outcome.MemOk (execAmapEntryValidate n v s) :=
  next_memOk (ite_memOk (State.writeAmapCtrl_memOk canon) canon)

theorem State.writeHdmh_memOk {n v} (canon : s.MemOk) : (s.writeHdmh n v).MemOk := by
  simp only [State.writeHdmh]
  refine ite_memOk (reject_memOk canon) (ite_memOk ?_ (setReg_memOk canon))
  split
  · exact setReg_memOk canon
  · exact reject_memOk canon

theorem execHdmWindowValidate_memOk {n v} (canon : s.MemOk) : Outcome.MemOk (execHdmWindowValidate n v s) :=
  next_memOk (ite_memOk (State.writeHdmh_memOk canon) canon)

theorem execFnsvcWrite_memOk {n v} (canon : s.MemOk) : Outcome.MemOk (execFnsvcWrite n v s) :=
  next_memOk (ite_memOk (State.setReg_memOk canon) canon)

theorem State.resetContext_memOk {ctx} (canon : s.MemOk) : (s.resetContext ctx).MemOk :=
  setReg_memOk (setCtxState_memOk (discardContext_memOk canon))

theorem State.writeFnrst_memOk {n v} (canon : s.MemOk) : (s.writeFnrst n v).MemOk :=
  ite_memOk canon (ite_memOk (setReg_memOk canon) (foldl_memOk (fun _ _ => resetContext_memOk) canon))

theorem execFnrstGo_memOk {n v} (canon : s.MemOk) : Outcome.MemOk (execFnrstGo n v s) :=
  next_memOk (ite_memOk (State.writeFnrst_memOk canon) canon)

theorem State.ring_memOk {m} (canon : s.MemOk) : (s.ring m).MemOk := canon

theorem State.writeReg_memOk {r v} (canon : s.MemOk) : (s.writeReg r v).MemOk := by
  cases r with
  | amapBase | amapLimit | amapChan => exact writeAmap_memOk canon
  | amapCtrl => exact writeAmapCtrl_memOk canon
  | hdmh => exact writeHdmh_memOk canon
  | hdmd => exact ite_memOk (reject_memOk canon) (setReg_memOk canon)
  | ctxrt | ctxrtn | ctxroot | ctxtrap | ctxsave => exact ite_memOk canon (setReg_memOk canon)
  | l2qcfg | fabid | ctxfab | fabgrpa | fabgrpb | hlmbx | hlhost => exact setReg_memOk canon
  | fnrst => exact ite_memOk canon (writeFnrst_memOk canon)
  | ctxctl | preempt | fnsvc | hldoor | amapStatus | l2qocc | ctxstat | ctxtrapq | fnheld | preemptst | bootst =>
    exact canon

theorem execRegisterWrite_memOk {r v} (canon : s.MemOk) : Outcome.MemOk (execRegisterWrite r v s) :=
  next_memOk (ite_memOk (State.writeReg_memOk canon) canon)

/-! Headland -/

theorem State.clocked_memOk {old : State} (canon : s.MemOk) : (s.clocked old).MemOk := by
  refine foldl_memOk (fun _ _ kept => ?_) canon
  exact ite_memOk kept kept

theorem State.dropCached_memOk {slot line} (canon : s.MemOk) : (s.dropCached slot line).MemOk :=
  ite_memOk canon (ite_memOk canon (startSettle_memOk (modL2_memOk canon)))

theorem State.dropLines_memOk {slot ls} (canon : s.MemOk) : (s.dropLines slot ls).1.MemOk :=
  foldl_memOk (fun _ _ => dropCached_memOk) canon

theorem State.dropKey_memOk {slot} (canon : s.MemOk) : (s.dropKey slot).1.MemOk :=
  dropLines_memOk canon

theorem State.rotate_memOk {slot} (canon : s.MemOk) : (s.rotate slot).MemOk := canon
theorem State.setFnState_memOk {n st} (canon : s.MemOk) : (s.setFnState n st).MemOk := canon

theorem execFnrstQuiesce_memOk {n} (canon : s.MemOk) : Outcome.MemOk (execFnrstQuiesce n s) :=
  next_memOk (ite_memOk (State.setFnState_memOk canon) canon)

theorem State.rotateOn_memOk {n} (canon : s.MemOk) : (s.rotateOn n).MemOk := by
  simp only [State.rotateOn]
  split
  · exact canon
  · split
    next run2 =>
      have kept2 := memOk_of_fst run2 (dropKey_memOk canon)
      exact kept2
    next run3 =>
      have kept3 := memOk_of_fst run3 (dropKey_memOk canon)
      exact kept3

theorem execFnrstRotate_memOk {n} (canon : s.MemOk) : Outcome.MemOk (execFnrstRotate n s) :=
  next_memOk (ite_memOk canon (ite_memOk (State.rotateOn_memOk (State.setFnState_memOk canon)) (ite_memOk
    (State.rotateOn_memOk canon) canon)))

theorem State.writeClearList_memOk {n} (canon : s.MemOk) : (s.writeClearList n).1.MemOk := by
  simp only [State.writeClearList]
  refine ite_fst_memOk canon ?_
  split
  next run => exact physWrite_memOk (memOk_of_fst run (agentAsk_memOk canon))
  next run => exact memOk_of_fst run (agentAsk_memOk canon)

theorem State.clearLine_memOk {line} (canon : s.MemOk) : (s.clearLine line).MemOk := by
  have kept := clearResv_memOk (line := line) (dropEntries_memOk (line := line) canon)
  unfold State.clearLine
  generalize List.replicate 128 memDefault = zeros
  exact modL2_memOk (setPoison_memOk (memWrites_wf _ _ kept))

theorem State.clearTurn_memOk {n line} (canon : s.MemOk) : (s.clearTurn n line).1.MemOk := by
  simp only [State.clearTurn]
  split
  next run => exact memOk_of_fst run (askAll_memOk canon)
  next run =>
    have kept := memOk_of_fst run (askAll_memOk canon)
    refine ite_fst_memOk (clearLine_memOk kept) ?_
    split
    next run => exact clearLine_memOk (memOk_of_fst run (startSettle_memOk kept))
    next run => exact memOk_of_fst run (startSettle_memOk kept)

theorem execFnrstClear_memOk {n} (canon : s.MemOk) : Outcome.MemOk (execFnrstClear n s) := by
  simp only [execFnrstClear]
  refine next_memOk (ite_memOk canon (ite_memOk ?_ ?_))
  · split
    next run =>
      have kept := memOk_of_fst run (State.writeClearList_memOk canon)
      exact State.setFnState_memOk kept
    next run1 =>
      have kept1 := memOk_of_fst run1 (State.writeClearList_memOk canon)
      exact kept1
  · refine ite_memOk ?_ canon
    split
    · exact canon
    · split
      next run4 =>
        have kept4 := memOk_of_fst run4 (State.clearTurn_memOk canon)
        exact kept4
      next run5 =>
        have kept5 := memOk_of_fst run5 (State.clearTurn_memOk canon)
        exact kept5

theorem execClearSpanDone_memOk {n} (canon : s.MemOk) : Outcome.MemOk (execClearSpanDone n s) := by
  simp only [execClearSpanDone]
  refine next_memOk (ite_memOk ?_ canon)
  split
  · exact canon
  · split
    · exact canon
    · split
      next run =>
        have kept := memOk_of_fst run (State.agentAsk_memOk canon)
        exact State.physWrite_memOk kept
      next run => exact memOk_of_fst run (State.agentAsk_memOk canon)

theorem execFnrstIdle_memOk {n} (canon : s.MemOk) : Outcome.MemOk (execFnrstIdle n s) :=
  next_memOk (ite_memOk (State.signal_memOk (State.setReg_memOk canon)) canon)

theorem State.pull_memOk {m a n} (canon : s.MemOk) : (s.pull m a n).1.MemOk :=
  ite_fst_memOk canon (foldl_memOk (fun _ _ kept => by exact ite_memOk kept kept) canon)

theorem State.pushHost_memOk {a bs} (canon : s.MemOk) : (s.pushHost a bs).MemOk :=
  foldl_memOk (fun _ _ kept => by exact kept) canon

theorem State.mbxRead_memOk {m a n} (canon : s.MemOk) : ∀ t b, s.mbxRead m a n = some (t, b) → t.MemOk :=
  ite_optFst_memOk (some_fst_memOk canon) (ite_optFst_memOk (ite_optFst_memOk (some_fst_memOk canon) none_fst_memOk)
    (ctxRead_memOk canon))

theorem State.mbxWrite_memOk {m a bs} (canon : s.MemOk) : ∀ t ∈ s.mbxWrite m a bs, t.MemOk :=
  ite_opt_memOk (some_memOk (pushHost_memOk canon)) (ite_opt_memOk
    (ite_opt_memOk (some_memOk (physWrite_memOk canon)) none_memOk) (ctxWrite_memOk canon))

theorem State.mbxPut_memOk {m off bs} (canon : s.MemOk) : (s.mbxPut m off bs).MemOk :=
  getD_memOk (mbxWrite_memOk canon) canon

theorem State.mbxSignal_memOk {m} (canon : s.MemOk) : (s.mbxSignal m).MemOk :=
  ite_memOk (signal_memOk canon) (orWake_memOk canon)

theorem State.answerWaits_memOk {a} (canon : s.MemOk) : (s.answerWaits a).MemOk := canon

theorem State.answerOn_memOk {a fuel} (canon : s.MemOk) : (s.answerOn a fuel).MemOk := by
  induction fuel generalizing s a with
  | zero => exact canon
  | succ fuel ih =>
    rw [answerOn]
    refine ite_memOk (answerWaits_memOk canon) (ite_memOk ?_ ?_)
    · split
      next run => exact answerWaits_memOk (memOk_of_fst run (agentAsk_memOk canon))
      next run => exact mbxSignal_memOk (memOk_of_fst run (agentAsk_memOk canon))
    · split
      next run => exact answerWaits_memOk (memOk_of_fst run (agentAsk_memOk canon))
      next run => exact ih (mbxPut_memOk (memOk_of_fst run (agentAsk_memOk canon)))

theorem State.answer_memOk {m q a} (canon : s.MemOk) : (s.answer m q a).MemOk := by
  simp only [State.answer]
  refine answerOn_memOk (mbxPut_memOk (mbxPut_memOk (ite_fst_memOk canon (ite_fst_memOk canon ?_))))
  split
  next run => exact mbxWrite_memOk canon _ run
  · exact canon

theorem State.carryOut_memOk {m q k} (canon : s.MemOk) (keeps : ∀ x0, x0.MemOk → (k x0).1.MemOk) :
    (s.carryOut m q k).MemOk := by
  simp only [State.carryOut]
  split
  next run => exact memOk_of_fst run (pull_memOk canon)
  next run =>
    have kept := memOk_of_fst run (pull_memOk canon)
    split
    next run => exact memOk_of_fst run (agentAsk_memOk kept)
    next run => exact answer_memOk (keeps _ (memOk_of_fst run (agentAsk_memOk kept)))

theorem State.quiet_memOk {m} (canon : s.MemOk) : (s.quiet m).MemOk := canon

theorem State.serveWhen_memOk {m cmd before k} (canon : s.MemOk) (keeps :
    ∀ x0 x1, x0.MemOk → (before x0 x1).1.MemOk) (keeps1 : ∀ x0 x1, x0.MemOk → (k x0 x1).1.MemOk) :
    (s.serveWhen m cmd before k).MemOk := by
  simp only [State.serveWhen]
  split
  · exact answerOn_memOk canon
  · refine ite_memOk canon (ite_memOk (quiet_memOk canon) ?_)
    split
    next run => exact memOk_of_fst run (pull_memOk canon)
    next run =>
      have kept := memOk_of_fst run (pull_memOk canon)
      split
      next run => exact memOk_of_fst run (agentAsk_memOk kept)
      next run =>
        have kept := memOk_of_fst run (agentAsk_memOk kept)
        split
        · exact quiet_memOk kept
        next run =>
          have kept := mbxRead_memOk kept _ _ run
          refine ite_memOk (quiet_memOk kept) (ite_memOk ?_
            (ite_memOk kept (carryOut_memOk kept (fun _ => quiet_memOk))))
          split
          next run => exact memOk_of_fst run (keeps _ _ kept)
          next run =>
            have kept := memOk_of_fst run (keeps _ _ kept)
            exact carryOut_memOk kept (fun _ kept => keeps1 _ _ (quiet_memOk kept))

theorem State.serve_memOk {m cmd k} (canon : s.MemOk) (keeps : ∀ x0 x1, x0.MemOk → (k x0 x1).1.MemOk) :
    (s.serve m cmd k).MemOk :=
  serveWhen_memOk canon (fun _ _ kept => kept) (fun _ _ => keeps _ _)

theorem State.anyone_memOk {a} (canon : s.MemOk) (canon1 : a.1.MemOk) : (s.anyone a).1.MemOk :=
  ite_fst_memOk canon canon1

theorem State.hostOnly_memOk {m recovery a} (canon : s.MemOk) (canon1 : a.1.MemOk) :
    (s.hostOnly m recovery a).1.MemOk :=
  ite_fst_memOk canon canon1

theorem State.sampled_memOk (canon : s.MemOk) : s.sampled.MemOk := canon

theorem execSensors_memOk {mbx} (canon : s.MemOk) : Outcome.MemOk (execSensors mbx s) :=
  next_memOk (State.serve_memOk canon (fun _ _ kept => State.anyone_memOk kept (State.sampled_memOk kept)))

theorem execLog_memOk {mbx} (canon : s.MemOk) : Outcome.MemOk (execLog mbx s) :=
  next_memOk (State.serve_memOk canon (fun _ _ kept => State.anyone_memOk kept kept))

theorem execAttest_memOk {mbx} (canon : s.MemOk) : Outcome.MemOk (execAttest mbx s) :=
  next_memOk (State.serve_memOk canon (fun _ _ kept => State.anyone_memOk kept
    (ite_fst_memOk kept (ite_fst_memOk kept kept))))

theorem State.recover_memOk {step cause stack} (canon : s.MemOk) : (s.recover step cause stack).MemOk := canon
theorem State.toStep_memOk {n} (canon : s.MemOk) : (s.toStep n).MemOk := canon

theorem State.powerOn_memOk (canon : s.MemOk) : s.powerOn.MemOk :=
  reset_memOk

theorem State.coldStart_memOk {selfTest} (canon : s.MemOk) : (s.coldStart selfTest).MemOk := by
  simp only [State.coldStart]
  refine ite_memOk (powerOn_memOk canon) ?_
  split
  · exact toStep_memOk (powerOn_memOk canon)
  · exact recover_memOk (toStep_memOk (powerOn_memOk canon))

theorem execColdStart_memOk {selfTest} (canon : s.MemOk) : Outcome.MemOk (execColdStart selfTest s) :=
  next_memOk (State.coldStart_memOk canon)

theorem execPreheatComplete_memOk (canon : s.MemOk) : Outcome.MemOk (execPreheatComplete s) :=
  next_memOk (ite_memOk (State.toStep_memOk canon) canon)

theorem execPreheatTimeout_memOk (canon : s.MemOk) : Outcome.MemOk (execPreheatTimeout s) :=
  next_memOk (ite_memOk (State.recover_memOk canon) canon)

theorem State.loaded_memOk : s.loaded.MemOk :=
  (rfl : Memory.wf [] = true)

theorem execHbmTrainingComplete_memOk {failure} (canon : s.MemOk) : Outcome.MemOk (execHbmTrainingComplete failure s) := by
  unfold execHbmTrainingComplete
  refine next_memOk (ite_memOk canon ?_)
  split
  · exact State.recover_memOk canon
  · have trained := State.clocked_memOk (old := s) (State.toStep_memOk (n := 6) (State.loaded_memOk (s := s)))
    generalize (s.loaded.toStep 6).clocked s = t at trained
    exact trained

theorem execFwstage_memOk {mbx} (canon : s.MemOk) : Outcome.MemOk (execFwstage mbx s) := by
  simp only [execFwstage]
  refine next_memOk (State.serve_memOk canon ?_)
  intro _ _ held
  refine State.hostOnly_memOk held ?_
  split
  · exact held
  next run2 =>
    have kept2 := State.mbxRead_memOk held _ _ run2
    exact kept2

theorem execFwcommit_memOk {mbx} (canon : s.MemOk) : Outcome.MemOk (execFwcommit mbx s) := by
  unfold execFwcommit
  extract_lets was mark t
  have served : t.MemOk :=
    State.serve_memOk canon fun _ _ kept => State.hostOnly_memOk kept (ite_fst_memOk kept kept)
  exact next_memOk (ite_memOk served (ite_memOk (State.coldStart_memOk served) served))

theorem State.swapReady_memOk {m q} (canon : s.MemOk) : (s.swapReady m q).1.MemOk := by
  simp only [State.swapReady]
  refine ite_fst_memOk canon ?_
  split
  · exact dropLines_memOk (dropLines_memOk canon)
  · exact canon

theorem execKeyswap_memOk {mbx} (canon : s.MemOk) : Outcome.MemOk (execKeyswap mbx s) := by
  simp only [execKeyswap]
  refine next_memOk (State.serveWhen_memOk canon (fun _ _ => State.swapReady_memOk) ?_)
  intro _ _ kept
  refine State.hostOnly_memOk kept (ite_fst_memOk kept (ite_fst_memOk kept ?_))
  split <;> exact kept

theorem execPower_memOk {mbx} (canon : s.MemOk) : Outcome.MemOk (execPower mbx s) :=
  next_memOk (State.serve_memOk canon (fun _ _ kept => State.hostOnly_memOk kept (ite_fst_memOk kept kept)))

/-! Peers -/

theorem State.remoteOver_memOk {w o} {old : State} (canon : s.MemOk) : (s.remoteOver w o old).MemOk :=
  drainFree_memOk (unclaim_memOk (replyAfter_memOk canon))

theorem State.remoteStays_memOk {w} (canon : s.MemOk) : (s.remoteStays w).MemOk :=
  ite_memOk canon canon

theorem State.remoteResult_memOk {w r} {old : State} (canon : s.MemOk) : (s.remoteResult w r old).MemOk := by
  unfold State.remoteResult
  split
  · exact canon
  · exact remoteOver_memOk canon
  · exact remoteOver_memOk canon

theorem execRemoteRequest_memOk {tag ctx op ticket} (canon : s.MemOk) :
    Outcome.MemOk (execRemoteRequest tag ctx op ticket s) := by
  simp only [execRemoteRequest]
  refine next_memOk ?_
  split
  · exact State.remoteResult_memOk (State.remoteRead_memOk (State.remoteStays_memOk canon))
  · exact State.remoteResult_memOk (State.remoteWrite_memOk (State.remoteStays_memOk canon))

theorem execFabricPortLoss_memOk {port} (canon : s.MemOk) : Outcome.MemOk (execFabricPortLoss port s) :=
  next_memOk (ite_memOk canon canon)

/-! Short pairs -/

theorem execShortPair_memOk {mark h1 h2} (canon : s.MemOk) : Outcome.MemOk (execShortPair mark h1 h2 s) := by
  simp only [execShortPair]
  refine word_memOk canon ?_
  intro _
  split
  · exact State.raiseAt_memOk (State.modSlice_memOk canon)
  · exact State.advance_memOk (State.results_memOk canon)

/-! Clocks and power -/

theorem State.closeWindow_memOk {die} (canon : s.MemOk) : (s.closeWindow die).MemOk := by
  unfold State.closeWindow
  refine withTime_memOk ?_
  split
  · exact logEvent_memOk canon
  · exact canon

theorem State.powerTick_memOk (canon : s.MemOk) : s.powerTick.MemOk := canon

theorem execHeartbeatTick_memOk {die} (canon : s.MemOk) : Outcome.MemOk (execHeartbeatTick die s) :=
  next_memOk (ite_memOk canon (ite_memOk (State.powerTick_memOk
    (State.sampleHeld_memOk (ite_memOk (State.closeWindow_memOk canon) canon))) (ite_memOk
    (State.closeWindow_memOk canon) canon)))

theorem execDroopStretch_memOk {die mhz} (canon : s.MemOk) : Outcome.MemOk (execDroopStretch die mhz s) :=
  next_memOk (ite_memOk canon (State.clocked_memOk canon))

theorem execRailRecover_memOk {die} (canon : s.MemOk) : Outcome.MemOk (execRailRecover die s) :=
  next_memOk (State.clocked_memOk canon)

theorem State.setHbm_memOk {stack t} (canon : s.MemOk) : (s.setHbm stack t).MemOk := canon
theorem State.setDie_memOk {die t} (canon : s.MemOk) : (s.setDie die t).MemOk := canon

theorem execHbmCold_memOk {stack temp} (canon : s.MemOk) : Outcome.MemOk (execHbmCold stack temp s) :=
  next_memOk (ite_memOk canon (State.logAction_memOk canon))

theorem execWarmingLoadEnd_memOk {stack} (canon : s.MemOk) : Outcome.MemOk (execWarmingLoadEnd stack s) :=
  next_memOk (ite_memOk (State.logAction_memOk canon) canon)

theorem execHbmHot_memOk {stack temp} (canon : s.MemOk) : Outcome.MemOk (execHbmHot stack temp s) :=
  next_memOk (ite_memOk canon (State.logAction_memOk canon))

theorem execHbmCooled_memOk {stack} (canon : s.MemOk) : Outcome.MemOk (execHbmCooled stack s) :=
  next_memOk (ite_memOk (State.logAction_memOk canon) canon)

theorem execJunctionHot_memOk {die temp} (canon : s.MemOk) : Outcome.MemOk (execJunctionHot die temp s) :=
  next_memOk (ite_memOk canon (State.logAction_memOk (State.clocked_memOk canon)))

theorem execJunctionCooled_memOk {die} (canon : s.MemOk) : Outcome.MemOk (execJunctionCooled die s) :=
  next_memOk (ite_memOk (State.logAction_memOk (State.clocked_memOk canon)) canon)

theorem execPowerOverCap_memOk {watts} (canon : s.MemOk) : Outcome.MemOk (execPowerOverCap watts s) :=
  next_memOk (ite_memOk (ite_memOk (State.logAction_memOk canon) canon) (ite_memOk
    (ite_memOk (State.logAction_memOk canon) canon) canon))

theorem execRetrainStart_memOk {stack pc} (canon : s.MemOk) : Outcome.MemOk (execRetrainStart stack pc s) :=
  next_memOk (ite_memOk (State.bumpFree_memOk canon) canon)

theorem execTsvGroupDone_memOk {stack pc} (canon : s.MemOk) : Outcome.MemOk (execTsvGroupDone stack pc s) := by
  simp only [execTsvGroupDone]
  refine next_memOk ?_
  split <;> exact canon

/-! Instructions -/

/-- Each instruction, by what its arm of `exec` does. -/
theorem exec_memOk {ins : Instr} (canon : s.MemOk) : Outcome.MemOk (exec ins s) := by
  cases ins with
  | nodeComplete => exact execNodeComplete_memOk canon
  | ld | st | ldIdx | stIdx | atom | cas | red | ll | sc | accLd =>
    exact word_memOk canon (fun _ => State.memWord_memOk canon)
  | ldx => exact execLdx_memOk canon
  | pf => exact execPf_memOk canon
  | stq | redQ => exact word_memOk canon (fun _ => State.queueStore_memOk canon)
  | loadReply => exact execLoadReply_memOk canon
  | queueDataArrival => exact execQueueDataArrival_memOk canon
  | rangeWalkStart => exact execRangeWalkStart_memOk canon
  | rangeWalkComplete => exact execRangeWalkComplete_memOk canon
  | read => exact execRead_memOk canon
  | store => exact execStore_memOk canon
  | homeAtomic => exact execHomeAtomic_memOk canon
  | homeReduction => exact execHomeReduction_memOk canon
  | discardAtHome => exact execDiscardAtHome_memOk canon
  | ureq => exact execUreq_memOk canon
  | data => exact execData_memOk canon
  | missFill => exact execMissFill_memOk canon
  | stack => exact execStack_memOk canon
  | upd => exact execUpd_memOk canon
  | inv => exact execInv_memOk canon
  | resteer => exact execResteer_memOk canon
  | stranded => exact execStranded_memOk canon
  | uack => exact execUack_memOk canon
  | iack => exact execIack_memOk canon
  | evn => exact execEvn_memOk canon
  | ugrant => exact execUgrant_memOk canon
  | gather => exact execGather_memOk canon
  | delta => exact execDelta_memOk canon
  | nodelta => exact execNodelta_memOk canon
  | dwb => exact execDwb_memOk canon
  | retry => exact execRetry_memOk canon
  | retryReissue => exact execRetryReissue_memOk canon
  | memoryRequestIssue => exact execMemoryRequestIssue_memOk canon
  | hotRowHoldEnd => exact execHotRowHoldEnd_memOk canon
  | refreshWindowEnd => exact execRefreshWindowEnd_memOk canon
  | memoryFill => exact execMemoryFill_memOk canon
  | add | sub | mul | mulhi | div | rem | min | max | and | or | xor | shl | shr | rot | bfe =>
    exact word_memOk canon (fun _ => State.int2_memOk canon)
  | addImm | mulImm | abs | neg | mov | movhi | andImm | orImm | xorImm | not | shlImm | shrImm | popc | clz
  | brev => exact word_memOk canon (fun _ => State.int1_memOk canon)
  | mad | sad | bfi => exact word_memOk canon (fun _ => State.int3_memOk canon)
  | lea | movImm | sel | cvtF6 | cvtI4 | mxScale | fmtGet | fmtGetFlags | voteBallot | scan | scanEx | wred
  | matchLanes => exact word_memOk canon (fun _ => State.lanewise_memOk canon)
  | cmp | cmpImm | pand | por | pxor | pnot | voteAny | voteAll | elect =>
    exact word_memOk canon (fun _ => State.lanewisePred_memOk canon)
  | leaPriv | leaPrivSelf => exact word_memOk canon (fun _ => State.leaPriv_memOk canon)
  | srGet => exact execSrGet_memOk canon
  | srSet => exact execSrSet_memOk canon
  | waitCnt => exact execWaitCnt_memOk canon
  | fence => exact execFence_memOk canon
  | waitAddr => exact execWaitAddr_memOk canon
  | waitAddrWake => exact execWaitAddrWake_memOk canon
  | rvInit => exact execRvInit_memOk canon
  | rvArr => exact execRvArr_memOk canon
  | rvWait => exact execRvWait_memOk canon
  | rvTest => exact execRvTest_memOk canon
  | gSet => exact execGSet_memOk canon
  | sigq => exact execSigq_memOk canon
  | instructionFetchFill => exact execInstructionFetchFill_memOk canon
  | cp => exact execCp_memOk canon
  | cpFeed => exact execCpFeed_memOk canon
  | cpColl => exact execCpColl_memOk canon
  | cpPut => exact execCpPut_memOk canon
  | cpGet => exact execCpGet_memOk canon
  | mma => exact execMma_memOk canon
  | mmaTwin => exact execMmaTwin_memOk canon
  | accZeroImm => exact execAccZeroImm_memOk canon
  | accZeroReg => exact execAccZeroReg_memOk canon
  | accFin => exact execAccFin_memOk canon
  | mmaBud => exact execMmaBud_memOk canon
  | cpYield => exact execCpYield_memOk canon
  | commandComplete => exact execCommandComplete_memOk canon
  | br => exact execBr_memOk canon
  | brQ => exact execBrQ_memOk canon
  | brB => exact execBrB_memOk canon
  | brBack => exact execBrBack_memOk canon
  | call | ret | brInd | callInd => exact word_memOk canon (fun _ => State.jump_memOk canon)
  | exit => exact execExit_memOk canon
  | join => exact word_memOk canon (fun _ => State.advanceTo_memOk canon)
  | nop => exact word_memOk canon (fun _ => State.advance_memOk canon)
  | yield => exact execYield_memOk canon
  | splitYield => exact execSplitYield_memOk canon
  | fairnessRotation => exact execFairnessRotation_memOk canon
  | trap => exact execTrap_memOk canon
  | fadd | fsub | fmul | fmin | fmax | fdiv | hadd2 | hmul2 => exact word_memOk canon (fun _ => State.fp2_memOk canon)
  | ffma | fdot2 | hfma2 => exact word_memOk canon (fun _ => State.fp3_memOk canon)
  | fabs | fneg | frcp | fsqrt | frsqrt | fexp2 | flog2 | fsin | fcos | ftanh | frnd =>
    exact word_memOk canon (fun _ => State.fp1_memOk canon)
  | fcmp | fclass | fscale | cvt | cvtPk | cvtUnpk | mxPack | mxUnpk =>
    exact word_memOk canon (fun _ => State.fpWord_memOk canon)
  | fmtSetImm => exact execFmtSetImm_memOk canon
  | fmtSetReg => exact execFmtSetReg_memOk canon
  | fmtGetFlagsClr => exact execFmtGetFlagsClr_memOk canon
  | fmtSeed => exact execFmtSeed_memOk canon
  | remoteResponse => exact execRemoteResponse_memOk canon
  | peerTimeout => exact execPeerTimeout_memOk canon
  | shflIdx | shflUp | shflDown | shflXor => exact word_memOk canon (fun _ => State.shfl_memOk canon)
  | xch => exact word_memOk canon (fun _ => State.xch_memOk canon)
  | mmaRunStart => exact execMmaRunStart_memOk canon
  | mmaRunEnd => exact execMmaRunEnd_memOk canon
  | emissionApply => exact execEmissionApply_memOk canon
  | commandStart => exact execCommandStart_memOk canon
  | wb => exact execWb_memOk canon
  | ii => exact execIi_memOk canon
  | fbar => exact execFbar_memOk canon
  | nodePost => exact execNodePost_memOk canon
  | discard => exact execDiscard_memOk canon
  | rngInv => exact execRngInv_memOk canon
  | rngInvAll => exact execRngInvAll_memOk canon
  | rngSync => exact execRngSync_memOk canon
  | zline => exact execZline_memOk canon
  | fenceHb => exact execFenceHb_memOk canon
  | halt => exact execHalt_memOk canon
  | ebbSlide => exact execEbbSlide_memOk canon
  | ebbStat => exact execEbbStat_memOk canon
  | slideStartCommit => exact execSlideStartCommit_memOk canon
  | ebbStep => exact execEbbStep_memOk canon
  | ebbStepComplete => exact execEbbStepComplete_memOk canon
  | slideCompletionCommit => exact execSlideCompletionCommit_memOk canon
  | slideReport => exact execSlideReport_memOk canon
  | partitionPeriod => exact execPartitionPeriod_memOk canon
  | teamDispatch => exact execTeamDispatch_memOk canon
  | poolStarvation => exact execPoolStarvation_memOk canon
  | heldCoreExpiry => exact execHeldCoreExpiry_memOk canon
  | preemptComplete => exact execPreemptComplete_memOk canon
  | teamSave => exact execTeamSave_memOk canon
  | preemptGo => exact execPreemptGo_memOk canon
  | ctxctlRunSet => exact execCtxctlRunSet_memOk canon
  | ctxctlRunClear => exact execCtxctlRunClear_memOk canon
  | haltArrival => exact execHaltArrival_memOk canon
  | stalemateDetect => exact execStalemateDetect_memOk canon
  | trapRecordWrite => exact execTrapRecordWrite_memOk canon
  | resolveResume => exact execResolveResume_memOk canon
  | resolveSkip => exact execResolveSkip_memOk canon
  | resolveDiscard => exact execResolveDiscard_memOk canon
  | contextFatal => exact execContextFatal_memOk canon
  | dieLoss => exact execDieLoss_memOk canon
  | coreRemovedFromService => exact execCoreRemovedFromService_memOk canon
  | uncorrectableError => exact execUncorrectableError_memOk canon
  | correctedError => exact execCorrectedError_memOk canon
  | contextDestruction => exact execContextDestruction_memOk canon
  | cxlMemRead => exact execCxlMemRead_memOk canon
  | cxlMemWrite => exact execCxlMemWrite_memOk canon
  | hostSharedRequest => exact execHostSharedRequest_memOk canon
  | hostOwnershipRequest => exact execHostOwnershipRequest_memOk canon
  | hostWriteback => exact execHostWriteback_memOk canon
  | backInvalidationResponse => exact execBackInvalidationResponse_memOk canon
  | hostSnoop => exact execHostSnoop_memOk canon
  | cxlCacheFill => exact execCxlCacheFill_memOk canon
  | portLinkDown => exact execPortLinkDown_memOk canon
  | portLinkUp => exact execPortLinkUp_memOk canon
  | amapWerrClear => exact execAmapWerrClear_memOk canon
  | amapEntryValidate => exact execAmapEntryValidate_memOk canon
  | hdmWindowValidate => exact execHdmWindowValidate_memOk canon
  | fnsvcWrite => exact execFnsvcWrite_memOk canon
  | fnrstGo => exact execFnrstGo_memOk canon
  | hldoorRing => exact next_memOk (ite_memOk (State.ring_memOk canon) canon)
  | registerWrite => exact execRegisterWrite_memOk canon
  | fnrstQuiesce => exact execFnrstQuiesce_memOk canon
  | fnrstRotate => exact execFnrstRotate_memOk canon
  | fnrstClear => exact execFnrstClear_memOk canon
  | clearSpanDone => exact execClearSpanDone_memOk canon
  | fnrstIdle => exact execFnrstIdle_memOk canon
  | sensors => exact execSensors_memOk canon
  | log => exact execLog_memOk canon
  | attest => exact execAttest_memOk canon
  | coldStart => exact execColdStart_memOk canon
  | preheatComplete => exact execPreheatComplete_memOk canon
  | preheatTimeout => exact execPreheatTimeout_memOk canon
  | hbmTrainingComplete => exact execHbmTrainingComplete_memOk canon
  | fwstage => exact execFwstage_memOk canon
  | fwcommit => exact execFwcommit_memOk canon
  | keyswap => exact execKeyswap_memOk canon
  | power => exact execPower_memOk canon
  | remoteRequest => exact execRemoteRequest_memOk canon
  | fabricPortLoss => exact execFabricPortLoss_memOk canon
  | shortPair => exact execShortPair_memOk canon
  | illegalInstrWord => exact word_memOk canon (fun _ => State.decodeTrap_memOk canon)
  | heartbeatTick => exact execHeartbeatTick_memOk canon
  | droopStretch => exact execDroopStretch_memOk canon
  | railRecover => exact execRailRecover_memOk canon
  | hbmCold => exact execHbmCold_memOk canon
  | warmingLoadEnd => exact execWarmingLoadEnd_memOk canon
  | hbmHot => exact execHbmHot_memOk canon
  | hbmCooled => exact execHbmCooled_memOk canon
  | junctionHot => exact execJunctionHot_memOk canon
  | junctionCooled => exact execJunctionCooled_memOk canon
  | powerOverCap => exact execPowerOverCap_memOk canon
  | retrainStart => exact execRetrainStart_memOk canon
  | tsvGroupDone => exact execTsvGroupDone_memOk canon

/-! Turns -/

theorem State.takeTurn_memOk (canon : s.MemOk) : s.takeTurn.2.MemOk := by
  unfold State.takeTurn
  split <;> exact canon

theorem State.issuing_memOk {r} (canon : s.MemOk) : (s.issuing r).MemOk := canon
theorem State.idle_memOk (canon : s.MemOk) : s.idle.MemOk := canon

theorem State.fetchTurn_memOk {r} (canon : s.MemOk) : Outcome.MemOk (s.fetchTurn r) := by
  unfold State.fetchTurn
  split
  · exact next_memOk canon
  · refine ite_out_memOk (next_memOk canon) ?_
    split
    next run => exact next_memOk (modSplit_memOk (exec_memOk canon _ run))
    · exact exec_memOk canon

theorem State.runStream_memOk {r} (canon : s.MemOk) : Outcome.MemOk (s.runStream r) := by
  unfold State.runStream
  split
  · exact exec_memOk (issuing_memOk canon)
  · exact fetchTurn_memOk canon

theorem State.issueTurn_memOk {r} (canon : s.MemOk) : Outcome.MemOk (s.issueTurn r) :=
  runStream_memOk canon

theorem State.giveFavour_memOk {p} (canon : s.MemOk) : (s.giveFavour p).MemOk := by
  simp only [State.giveFavour]
  split
  · exact favour_memOk canon
  · exact canon

theorem State.settleFavour_memOk (canon : s.MemOk) : s.settleFavour.MemOk :=
  foldl_memOk (fun _ _ => giveFavour_memOk) canon

theorem endTurn_memOk {o} (canon : Outcome.MemOk o) : Outcome.MemOk (endTurn o) := by
  cases o with
  | next t => exact next_memOk (State.settleFavour_memOk (State.idle_memOk (canon t rfl)))
  | fault f => cases f
  | refused r => exact refused_memOk

theorem State.turn_memOk {t} (canon : s.MemOk) : Outcome.MemOk (s.turn t) := by
  unfold State.turn
  split
  · exact endTurn_memOk (issueTurn_memOk canon)
  · split
    · exact next_memOk (idle_memOk canon)
    · exact endTurn_memOk (exec_memOk (idle_memOk canon))

/-! Steps -/

theorem step_memOk (canon : s.MemOk) : Outcome.MemOk (step s) :=
  State.turn_memOk (State.takeTurn_memOk canon)

end

/-- Settles O57: whichever turn is taken, each function that it runs keeps the form. -/
theorem stepKeepsMemory : Obligations.StepKeepsMemory := fun _ t canon runs => step_memOk canon t runs

end Sys2Proof.Machine


/-! SUPPORT. What a write of bytes at home leaves to be read, and what it does to poison; and the statement about it. -/

namespace Sys2Proof.Machine

/-! Reads after writes (R99, R100) -/

theorem tget?_tdel_self {α : Type} (t : Table α) (k : Nat) : tget? (tdel t k) k = none := by
  unfold tdel
  induction t with
  | nil => rfl
  | cons p t ih =>
    by_cases same : p.1 = k
    · simp [same, ih]
    · simp [same, tget?, ih]

theorem tget?_tdel_ne {α : Type} {t : Table α} {k n : Nat} (other : n ≠ k) : tget? (tdel t k) n = tget? t n := by
  unfold tdel
  induction t with
  | nil => rfl
  | cons p t ih =>
    by_cases same : p.1 = k
    · simp [same, tget?, ih, other.symm]
    · simp [same, tget?, ih]

/-- The last of the bytes written at a place stands there. -/
theorem memRead_writeBytes {m : List Host.Cell} {line n : Nat} {bs : List (Nat × Byte)} (wf : Memory.wf m = true) :
    memRead (writeBytes m line bs) (line * 128 + n) =
      ((bs.reverse.find? fun b => b.1 == n).map (·.2)).getD (memRead m (line * 128 + n)) := by
  induction bs generalizing m with
  | nil => rfl
  | cons c bs ih =>
    have later : memRead (writeBytes m line (c :: bs)) (line * 128 + n) =
        memRead (writeBytes (memWrite m (line * 128 + c.1) c.2) line bs) (line * 128 + n) := rfl
    rw [later, ih (memWrite_wf wf), memRead_memWrite wf, List.reverse_cons, List.find?_append]
    cases bs.reverse.find? fun b => b.1 == n with
    | some b => rfl
    | none =>
      by_cases here : c.1 = n
      · simp [here]
      · simp [here, Ne.symm here]

/-- What a slot's holder reads depends on the marks of lines, on memory, and on the keys and the address map. -/
theorem homeByte_congr {s t : State} {slot pa : Nat}
    (keyed : tget? t.lines.keyed (lineOf pa) = tget? s.lines.keyed (lineOf pa)) (head : t.head = s.head)
    (ctl : t.ctl = s.ctl) (mem : memRead t.mem pa = memRead s.mem pa) : t.homeByte slot pa = s.homeByte slot pa := by
  have id : t.keyId slot = s.keyId slot := congrArg (fun h : Headland => tget h.slotKey slot 0) head
  have host : t.isHost pa = s.isHost pa := congrArg (fun c => ({ s with ctl := c } : State).isHost pa) ctl
  rw [State.homeByte, State.homeByte, keyed, id, host, mem]

section
variable (s : State) (slot line : Nat)

@[simp] theorem rekey_head : (s.rekey slot line).head = s.head := by
  obtain ⟨m, k, rekeyed⟩ := rekey_eq s slot line
  rw [rekeyed]

@[simp] theorem rekey_poison : (s.rekey slot line).lines.poison = s.lines.poison := by
  obtain ⟨m, k, rekeyed⟩ := rekey_eq s slot line
  rw [rekeyed]

theorem rekey_keyed_self : tget? (s.rekey slot line).lines.keyed line = some (s.keyId slot) := by
  unfold State.rekey
  split
  · exact tget?_tset_self ..
  next k keyed =>
    split
    next own => exact own ▸ keyed
    · exact tget?_tset_self ..

theorem rekey_keyed_ne {l : Nat} (other : l ≠ line) :
    tget? (s.rekey slot line).lines.keyed l = tget? s.lines.keyed l := by
  unfold State.rekey
  split
  · exact tget?_tset_ne other
  · split
    · rfl
    · exact tget?_tset_ne other

end

theorem getD_map_range {f : Nat → Byte} {n k : Nat} {d : Byte} (inside : k < n) :
    ((List.range n).map f).getD k d = f k := by
  simp [List.getD, inside]

/-- A line that is taken over holds the bytes that its new holder read there before. -/
theorem memRead_rekey {s : State} {slot line n : Nat} (canon : s.MemOk) (inside : n < 128) :
    memRead (s.rekey slot line).mem (line * 128 + n) = s.homeByte slot (line * 128 + n) := by
  have here : lineOf (line * 128 + n) = line := by unfold lineOf; omega
  unfold State.rekey State.homeByte
  rw [here]
  split
  · rfl
  next k keyed =>
    split
    next own => simp [own]
    next foreign =>
      have wrote := memRead_memWrites (a := line * 128) (x := line * 128 + n)
        (bs := s.homeBytes slot (line * 128) 128) canon
      rw [wrote, if_pos (Nat.le_add_right ..), Nat.add_sub_cancel_left, State.homeBytes, getD_map_range inside,
        State.homeByte, here, keyed]

theorem memRead_rekey_ne {s : State} {slot line pa : Nat} (canon : s.MemOk) (other : lineOf pa ≠ line) :
    memRead (s.rekey slot line).mem pa = memRead s.mem pa := by
  unfold State.rekey
  split
  · rfl
  · split
    · rfl
    · have wrote := memRead_memWrites (a := line * 128) (x := pa) (bs := s.homeBytes slot (line * 128) 128) canon
      rw [wrote]
      split
      next above =>
        have past : (s.homeBytes slot (line * 128) 128).length ≤ pa - line * 128 := by
          unfold lineOf at other
          simp only [State.homeBytes, List.length_map, List.length_range]
          omega
        rw [List.getD_eq_default _ _ past]
      · rfl

/-! A write at home (R99 to R101, R121) -/

section
variable (s : State) (slot line : Nat) (bytes : List (Nat × Byte))

theorem homePut_mem : (s.homePut slot line bytes).mem = writeBytes (s.rekey slot line).mem line bytes := rfl

theorem homePut_keyed : (s.homePut slot line bytes).lines.keyed = (s.rekey slot line).lines.keyed := rfl

theorem homePut_head : (s.homePut slot line bytes).head = s.head := rekey_head s slot line

theorem homePut_ctl : (s.homePut slot line bytes).ctl = s.ctl := rekey_ctl s slot line

theorem homePut_poison : (s.homePut slot line bytes).lines.poison =
    if s.poisonAfter line bytes = 0 then tdel s.lines.poison line
    else tset s.lines.poison line (s.poisonAfter line bytes) :=
  congrArg (fun p => if s.poisonAfter line bytes = 0 then tdel p line else tset p line (s.poisonAfter line bytes))
    (rekey_poison s slot line)

theorem homePut_lost (l : Nat) : (s.homePut slot line bytes).lost l = s.lost l :=
  calc
    _ = ({ s with ctl := (s.homePut slot line bytes).ctl, head := (s.homePut slot line bytes).head } : State).lost l := rfl
    _ = s.lost l := by rw [homePut_ctl, homePut_head]

end

variable {s : State} {slot line : Nat} {bytes : List (Nat × Byte)}

/-- The holder reads the last byte written at an offset, and elsewhere what it read before. -/
theorem homePut_homeByte_self {n : Nat} (canon : s.MemOk) (inside : n < 128) :
    (s.homePut slot line bytes).homeByte slot (line * 128 + n) =
      ((bytes.reverse.find? fun b => b.1 == n).map (·.2)).getD (s.homeByte slot (line * 128 + n)) := by
  have here : lineOf (line * 128 + n) = line := by unfold lineOf; omega
  have own : (s.homePut slot line bytes).keyId slot = s.keyId slot :=
    congrArg (fun h : Headland => tget h.slotKey slot 0) (homePut_head ..)
  have holds : (s.homePut slot line bytes).homeByte slot (line * 128 + n) =
      memRead (s.homePut slot line bytes).mem (line * 128 + n) := by
    rw [State.homeByte, here, homePut_keyed, rekey_keyed_self, own]
    simp
  rw [holds, homePut_mem, memRead_writeBytes (State.rekey_memOk canon), memRead_rekey canon inside]

theorem homePut_homeByte_ne {pa : Nat} (canon : s.MemOk) (inside : ∀ b ∈ bytes, b.1 < 128) (other : lineOf pa ≠ line)
    (reader : Nat) : (s.homePut slot line bytes).homeByte reader pa = s.homeByte reader pa := by
  refine homeByte_congr (rekey_keyed_ne s slot line other) (homePut_head ..) (homePut_ctl ..) ?_
  have apart : ∀ b ∈ bytes, pa ≠ line * 128 + b.1 := by
    intro b mem same
    have := inside b mem
    unfold lineOf at other
    omega
  exact (memRead_writeBytes_of_notMem _ apart).trans (memRead_rekey_ne canon other)

theorem homePut_poisonOf_ne {l : Nat} (other : l ≠ line) :
    (s.homePut slot line bytes).poisonOf l = s.poisonOf l := by
  have stands : tget? (s.homePut slot line bytes).lines.poison l = tget? s.lines.poison l := by
    rw [homePut_poison]
    split
    · exact tget?_tdel_ne other
    · exact tget?_tset_ne other
  rw [State.poisonOf, State.poisonOf, homePut_lost, tget, tget, stands]

theorem homePut_poisonOf_self (stands : s.lost line = false) :
    (s.homePut slot line bytes).poisonOf line = s.poisonAfter line bytes := by
  have left : tget? (s.homePut slot line bytes).lines.poison line =
      if s.poisonAfter line bytes = 0 then none else some (s.poisonAfter line bytes) := by
    rw [homePut_poison]
    split
    · exact tget?_tdel_self ..
    · exact tget?_tset_self ..
  rw [State.poisonOf, homePut_lost, stands, if_neg Bool.false_ne_true, tget, left]
  split
  next clean => exact clean.symm
  · rfl

theorem getLsbD_two_bits (hi lo : Bool) : ∀ h < 2,
    (BitVec.ofBool hi ++ BitVec.ofBool lo).getLsbD h = if h = 0 then lo else hi := by
  cases hi <;> cases lo <;> decide

/-- A half stays poisoned unless each of its bytes is written. -/
theorem poisonAfter_getLsbD {h : Nat} (half : h < 2) : (s.poisonAfter line bytes).getLsbD h = true ↔
    (s.poisonOf line).getLsbD h = true ∧ ¬∀ n, n < 64 → ∃ b ∈ bytes, b.1 = 64 * h + n := by
  have covered : ((List.range 64).all fun i => bytes.any (·.1 == 64 * h + i)) = true ↔
      ∀ n, n < 64 → ∃ b ∈ bytes, b.1 = 64 * h + n := by
    simp only [List.all_eq_true, List.mem_range, List.any_eq_true, beq_iff_eq]
  rw [← covered, Bool.not_eq_true, ← Bool.not_eq_true', ← Bool.and_eq_true]
  unfold State.poisonAfter
  dsimp only
  split
  next clean => simp [clean]
  · rw [getLsbD_two_bits _ _ h half]
    split
    next low => rw [low]
    next high => rw [show h = 1 by omega]

/-- Settles O58: reads by the marks and bytes that the write leaves, and poison by the halves that it covers. -/
theorem homeMemory : Obligations.HomeMemory := by
  intro s slot line bytes canon inside
  refine ⟨State.homePut_memOk canon, fun n => homePut_homeByte_self canon,
    fun pa reader other => homePut_homeByte_ne canon inside other reader, fun l => homePut_poisonOf_ne,
    fun stands h half => ?_, fun pa acc => ?_⟩
  · rw [homePut_poisonOf_self stands]
    exact poisonAfter_getLsbD half
  · simp only [State.poisonedAt, acc, Bool.or_true, Bool.and_true, bne_iff_ne]

end Sys2Proof.Machine


/-! SUPPORT. The words that ask for slides and post nodes, and the statement about them. -/

namespace Sys2Proof.Machine

/-! Slides and posts (R59, R60, R365) -/

theorem top_half_iff (w : Word) : bits w 60 4 > 7 ↔ 2 ^ 63 ≤ w.toNat := by
  rw [bits, BitVec.extractLsb'_toNat]
  have := w.isLt
  omega

theorem requestSlide_refused {s : State} {i : Issue} {x n w : Word} (refused : s.slideCheck (dieOf i.tm.core) x n ≠ 0) :
    s.requestSlide i x n w = (s, s.slideCheck (dieOf i.tm.core) x n) := by
  simp only [State.requestSlide]
  generalize s.slideCheck (dieOf i.tm.core) x n = e at refused ⊢
  cases e with
  | zero => exact absurd rfl refused
  | succ e => rfl

theorem requestSlide_legal {s : State} {i : Issue} {x n : Word} {k : Nat} (w : Word)
    (legal : s.slideCheck (dieOf i.tm.core) x n = 0) (slot : s.slideSlot (dieOf i.tm.core) = some k) :
    s.requestSlide i x n w =
      ({ s with ebb := { s.ebb with
          next := s.ebb.next + 1
          slots := tset s.ebb.slots k { Slot.reset with
            state := 1, ctx := (x.extractLsb' 58 6).toNat, index := (x.extractLsb' 0 14).toNat
            new_ := n.toNat, cdw := w, issuer := i.tm.ctx, order := s.ebb.next
            after := ((s.earlier i).filter Flight.isStore).map fun f => .access f.id } } }, k * 256) := by
  simp only [State.requestSlide, legal, slot]
  rfl

section asked

variable {s : State} {i : Issue} {h : Head} {c : Opd} {l : Nat} (d a b : Opd) (ready : s.Ready i)
  (priv : s.ctxPriv i.tm.ctx = true) (lane : lowLane (i.active h.guard) = some l)
include ready priv lane

theorem exec_ebbSlide_order (waits : s.afterAcquires i = false) :
    exec (.ebbSlide h d a b c) s = .next (s.waitAt i .order) := by
  show execEbbSlide h d a b c s = _
  rw [execEbbSlide, privWord_granted ready priv]
  simp only [lane, waits, Bool.not_false, if_true]

theorem exec_ebbSlide_window (free : s.afterAcquires i = true) (window : 2 ^ 63 ≤ (regA c i l).toNat) :
    exec (.ebbSlide h d a b c) s = .next (s.raiseAt i { Trap.ofWord i 1 0x05 0 with addr := regA c i l }) := by
  have window' : bits (i.reg c l) 60 4 > 7 := (top_half_iff _).2 window
  show execEbbSlide h d a b c s = _
  rw [execEbbSlide, privWord_granted ready priv]
  simp only [lane, free, if_pos window', Bool.not_true, Bool.false_eq_true, if_false]
  rfl

/-- The slide is asked for once its word of status may be written. -/
theorem exec_ebbSlide_asks {t : State} {ps : List Piece} (free : s.afterAcquires i = true)
    (global : (regA c i l).toNat < 2 ^ 63) (span : s.wordSpan i .wr l (regA c i l) 8 8 [] = (t, .ok ps)) :
    exec (.ebbSlide h d a b c) s =
      (let asked := (t.forget i.tm.core (.word i.ref)).requestSlide i (regA a i l) (regA b i l) (regA c i l)
       .next ((asked.1.deliver i (i.active h.guard) d 64
        (laneVals (i.active h.guard) fun _ => BitVec.ofNat 64 asked.2)).advance i h.mark)) := by
  have global' : ¬bits (i.reg c l) 60 4 > 7 := mt (top_half_iff _).1 (Nat.not_le.2 global)
  have span' : s.wordSpan i .wr l (i.reg c l) 8 8 [] = (t, .ok ps) := span
  show execEbbSlide h d a b c s = _
  rw [execEbbSlide, privWord_granted ready priv]
  simp only [lane, free, if_neg global', span', Bool.not_true, Bool.false_eq_true, if_false]
  rfl

end asked

/-- R365: a post waits as a release of scope .pkg does. -/
theorem post_waits (s : State) (i : Issue) (f : State → State) :
    (if !s.afterAcquires i then s.waitAt i .order
      else
        let (s, ok) := s.release i .pkg
        if !ok then s.waitAt i .order else f s) =
      match s.mayAccess i (storing .z8 .pkg) with
      | (t, some w) => t.waitAt i w
      | (t, none) => f t := by
  rw [show storing .z8 .pkg = { storing .z8 .pkg with rel := true } from rfl, mayAccess_release]
  cases s.afterAcquires i
  · rfl
  · cases complete : (s.release i .pkg).2 <;> simp [complete]

/-- Settles O30: `ebb.slide` by what `State.requestSlide` answers, and `node.post` as a span word that waits as a
release. -/
theorem slidesAndPosts : Obligations.SlidesAndPosts := by
  intro h d a b c s i ready
  refine ⟨fun l priv lane => ⟨exec_ebbSlide_order d a b ready priv lane,
    exec_ebbSlide_window d a b ready priv lane, fun t ps free global span => ⟨fun e check refused => ?refused,
      fun k legal slot => ?legal⟩⟩, ?post⟩
  case refused =>
    rw [exec_ebbSlide_asks d a b ready priv lane free global span,
      requestSlide_refused (show State.slideCheck _ (dieOf i.tm.core) _ _ ≠ 0 from check ▸ refused)]
    exact check ▸ rfl
  case legal => rw [exec_ebbSlide_asks d a b ready priv lane free global span, requestSlide_legal _ legal slot]
  case post =>
    refine spans_of (fun s => (by show execNodePost h a s = _; rfl)) fun s i ps => ?_
    cases ps.head? with
    | none => rfl
    | some p =>
      cases ps.any fun q => q.tide.isSome
      · exact post_waits s i fun t =>
          match t.agentAsk nodeAgent (nodeSerial i.tm.ctx p.va 1) (recTouches i.tm.ctx p.va) with
          | (u, false) => u.waitAt i .order
          | (u, true) => ((u.fence_ i .pkg).postNode i.tm.ctx p.va false none).1.advance i h.mark
      · rfl

end Sys2Proof.Machine


/-! SUPPORT. What a home makes of the requests that reach it, and the statement about them. -/

namespace Sys2Proof.Machine

/-! Arrival (R115) -/

theorem waitingOn_isEmpty_iff (s : State) (line : Nat) :
    (s.waitingOn line).isEmpty = false ↔ ∃ y ∈ s.net.forwards, y.line = line ∧ s.stale y = false := by
  simp [State.waitingOn, List.filter_eq_nil_iff]

open Classical in
theorem arrive_eq (s : State) (x : Msg) : s.arrive x =
    if ∃ y ∈ s.net.retries, y.line = x.line ∧ y.src = x.src then s.bounce x
    else if x.wholeDiscard = false ∧ ∃ y ∈ s.net.forwards, y.line = x.line ∧ s.stale y = false then s.forward x
    else s.homeTake x := by
  rw [State.arrive]
  simp only [← waitingOn_isEmpty_iff, List.any_eq_true, Bool.and_eq_true, beq_iff_eq, Bool.not_eq_true']

/-- An event that hands the requests of a kind to their home. -/
theorem receives_arrive {ins : Nat → Instr} {kind : Body → Prop} {act : State → Msg → State}
    {row : State → Msg → Option State} (event : Nat → State → Host.Outcome State Fault Refusal)
    (dispatched : ∀ m s, exec (ins m) s = event m s) (receives : ∀ m s, event m s = s.receive m row)
    (answers : ∀ s x, kind x.body → row s x = some (s.arrive x)) (acts : ∀ s x, act s x = s.arrive x) :
    Receives ins kind act :=
  receives_of event dispatched receives fun s x body => (answers s x body).trans (congrArg some (acts s x).symm)

/-- R374: a home that has begun a paired reduction makes more of its writes, or waits behind a transaction. -/
theorem exec_homeReduction_begun {s : State} {m : Nat} {p : Part}
    (begun : s.net.parts.find? (fun q => q.m.id == m && !q.rest.isEmpty) = some p) :
    exec (.homeReduction m) s = .next (if s.busy p.m.line then s else
      ((s.bumpFree.stepPart p (s.someWrites p.rest.length)).endTransient p.m.line).drainHome
        (s.homeOf (p.m.line * 128))) := by
  show execHomeReduction m s = _
  simp only [execHomeReduction, begun]

theorem exec_homeReduction_new {s : State} {m : Nat} {x : Msg} {r : Req} {op : BitVec 3} {ty : Ty}
    {ws : List (Nat × List Byte)} (ready : ∀ p ∈ s.net.parts, p.m.id = m → p.rest = [])
    (arrives : s.deliverable m = some x) (body : x.body = .reduce r op ty ws) :
    exec (.homeReduction m) s = .next ((s.take m).arrive x) := by
  have none_begun : s.net.parts.find? (fun q => q.m.id == m && !q.rest.isEmpty) = none := by
    simpa [List.find?_eq_none] using ready
  show execHomeReduction m s = _
  simp only [execHomeReduction, none_begun, State.receive, arrives, body, Option.getD_some]

theorem someWrites_pos (s : State) (n : Nat) : 1 ≤ s.someWrites n := Nat.le_add_right ..

theorem someWrites_le (s : State) {n : Nat} (some : 0 < n) : s.someWrites n ≤ n := by
  have := Nat.mod_lt (Config.freeWord 48 s.agenda.free).toNat (show 0 < max 1 n by omega)
  unfold State.someWrites
  omega

/-! The forward queue (R104, R115) -/

theorem forward_room {s : State} {x : Msg}
    (room : (s.net.forwards.filter fun y => s.homeOf (y.line * 128) == s.homeOf (x.line * 128)).length < 64) :
    s.forward x = { s with net := { s.net with forwards := s.net.forwards ++ [x] } } :=
  if_pos (decide_eq_true room)

theorem forward_full {s : State} {x : Msg}
    (full : 64 ≤ (s.net.forwards.filter fun y => s.homeOf (y.line * 128) == s.homeOf (x.line * 128)).length) :
    s.forward x = s.bounce x :=
  if_neg (by rw [State.queueRoom, decide_eq_true_eq]; omega)

/-! Steering (R53, R54, R65, R75) -/

/-- The steering entry places the request: its offset lies in a block of the slide, and its address is the offset's NEW
or OLD one. -/
def State.Places (s : State) (x : Msg) (r : Req) (sl : Slot) : Prop :=
  s.steers sl r.off = true ∧ (x.line * 128 + r.lo = sl.new_ + r.off ∨ x.line * 128 + r.lo = sl.old + r.off)

section steering

variable {s : State} {x : Msg} {r : Req} {sl : Slot}

theorem slidesOf_none (ended : s.slideOf r.ctx r.index = none) : s.slidesOf r.ctx r.index = [] := by
  rw [State.slidesOf, ended]

theorem slidesOf_some (active : s.slideOf r.ctx r.index = some sl) :
    ∃ others, s.slidesOf r.ctx r.index = sl :: others := by
  rw [State.slidesOf, active]
  exact ⟨_, rfl⟩

theorem steering_none (ended : s.slideOf r.ctx r.index = none) :
    s.steering x r = if r.moving then .stranded else .go := by
  rw [State.steering, State.judge, slidesOf_none ended]

theorem steerBy_places (places : s.Places x r sl) :
    s.steerBy r.off (x.line * 128 + r.lo) sl =
      if sl.passing (r.off / 128) then some .hold
      else if sl.addr r.off = x.line * 128 + r.lo then some .go else some (.resteer sl.tide) := by
  obtain ⟨steers, new | old⟩ := places
  · simp [State.steerBy, steers, new]
  · simp [State.steerBy, steers, old]

theorem steerBy_elsewhere (elsewhere : ¬s.Places x r sl) : s.steerBy r.off (x.line * 128 + r.lo) sl = none := by
  refine if_pos ?_
  by_cases steers : s.steers sl r.off = true
  · have neither := not_or.1 fun place => elsewhere ⟨steers, place⟩
    simp [steers, neither]
  · simp [steers]

theorem steering_places (active : s.slideOf r.ctx r.index = some sl) (places : s.Places x r sl) :
    s.steering x r = if sl.passing (r.off / 128) then .hold
      else if sl.addr r.off = x.line * 128 + r.lo then .go else .resteer sl.tide := by
  obtain ⟨others, slides⟩ := slidesOf_some active
  simp only [State.steering, State.judge, slides, List.findSome?_cons, steerBy_places places]
  cases sl.passing (r.off / 128)
  · by_cases there : sl.addr r.off = x.line * 128 + r.lo <;> simp [there]
  · rfl

theorem steering_elsewhere (active : s.slideOf r.ctx r.index = some sl)
    (elsewhere : ∀ z ∈ s.slidesOf r.ctx r.index, ¬s.Places x r z) : s.steering x r = .go := by
  obtain ⟨others, slides⟩ := slidesOf_some active
  have none_places : (s.slidesOf r.ctx r.index).findSome? (s.steerBy r.off (x.line * 128 + r.lo)) = none :=
    List.findSome?_eq_none_iff.2 fun z mem => steerBy_elsewhere (elsewhere z mem)
  rw [slides] at none_places
  simp only [State.steering, State.judge, slides, none_places, Option.getD_none]

end steering

/-! What a home does with a request (R65, R104) -/

section taken

variable {s : State} {x : Msg} {r : Req} (asks : x.body.req? = some r) (request : ∀ q, x.body ≠ .claim q)
include asks request

theorem homeTake_eq : s.homeTake x = match s.steering x r with
    | .stranded => s.stranded x r
    | .resteer t => s.resteer x r t
    | .hold => s.forward x
    | .go =>
      if x.wholeDiscard then
        if s.isHost (x.line * 128) || s.mcRoom r.fn x.line then s.discardLine r x.line (some (x.src, r)) else s.forward x
      else if (s.l2? x.line).any (·.blocked) then s.forward x
      else s.homeGo x r := by
  unfold State.homeTake
  split
  · next q claim => exact absurd claim (request q)
  · simp only [asks] <;> rfl

theorem homeTake_go {y : L2Line} (go : s.steering x r = .go) (part : x.wholeDiscard = false)
    (here : s.l2? x.line = some y) :
    s.homeTake x = if y.blocked then s.forward x else s.homeGo x r := by
  rw [homeTake_eq asks request, go]
  simp only [part, here, Option.any_some, Bool.false_eq_true, if_false]

end taken

theorem stranded_wake {s : State} {x : Msg} {r q : Req} {op : BitVec 3} {ty : Ty} {ws : List (Nat × List Byte)}
    (agent : r.flight = none) (reduces : x.body = .reduce q op ty ws) :
    s.stranded x r = s.logEvent 0x0A r.fn r.ctx 3397 (BitVec.ofNat 64 (x.line * 128 + r.lo)) 0 := by
  rw [State.stranded, reduces, agent]

theorem stranded_sent {s : State} {x : Msg} {r : Req} (asks : x.body.req? = some r)
    (noWake : ¬(r.flight = none ∧ ∃ op ty ws, x.body = .reduce r op ty ws)) :
    s.stranded x r = s.send (s.homeNode x.line) x.src x.line (.stranded r) := by
  unfold State.stranded
  split
  · next q op ty ws reduces agent =>
    rw [reduces] at asks
    obtain rfl : q = r := Option.some.inj asks
    exact absurd ⟨agent, op, ty, ws, reduces⟩ noWake
  · rfl

theorem resteer_wake {s : State} {x : Msg} {r q : Req} {sl : Slot} {op : BitVec 3} {ty : Ty} {p : Nat} {b : List Byte}
    (t : Nat) (agent : r.flight = none) (reduces : x.body = .reduce q op ty [(p, b)])
    (active : s.slideOf r.ctx r.index = some sl) :
    s.resteer x r t = s.send x.src (s.homeNode (sl.addr r.off / 128)) (sl.addr r.off / 128)
      (.reduce { r with lo := sl.addr r.off % 128, moving := true } op ty [(sl.addr r.off % 128, b)]) := by
  rw [State.resteer, reduces, agent, active]
  rfl

theorem resteer_sent {s : State} {x : Msg} {r : Req} (t : Nat) (asks : x.body.req? = some r)
    (noWake : ¬(r.flight = none ∧ ∃ op ty ws, x.body = .reduce r op ty ws)) :
    s.resteer x r t = s.send (s.homeNode x.line) x.src x.line (.resteer r t) := by
  unfold State.resteer
  split
  · next q op ty p b sl reduces agent active =>
    rw [reduces] at asks
    obtain rfl : q = r := Option.some.inj asks
    exact absurd ⟨agent, op, ty, _, reduces⟩ noWake
  · rfl

/-! Paired reductions keep the directory entries (R101, R374) -/

section dirs

variable (s : State) (line n : Nat)

theorem modL2_dir_any {f : L2Line → L2Line} (keeps : ∀ x, (f x).dir = x.dir) : (s.modL2 line f).dir n = s.dir n := by
  by_cases same : n = line
  · rw [same, modL2_dir keeps]
  · refine dir_of_l2? ?_
    simp only [State.l2?, State.modL2_lines]
    exact tget?_tmod_ne same

theorem homeMerge_dir (slot : Nat) (bs : List (Nat × Byte)) : (s.homeMerge slot line bs).dir n = s.dir n :=
  dir_of_l2? (rekey_l2? s slot line n)

theorem changed_dir_any : (s.changed line).dir n = s.dir n :=
  modL2_dir_any { s with lines := { s.lines with tick := s.lines.tick + 1 } } line n
    (f := fun x => { x with dirty := true, used := s.lines.tick + 1 }) fun _ => rfl

theorem foldl_dir {α : Type} {f : State → α → State} (keeps : ∀ t a, (f t a).dir n = t.dir n) (l : List α) :
    (l.foldl f s).dir n = s.dir n :=
  List.foldlRecOn l f (motive := fun (t : State) => t.dir n = s.dir n) rfl fun t same a _ => (keeps t a).trans same

theorem logEvent_lines (type_ fn ctx agent : Nat) (addr detail : Word) :
    (s.logEvent type_ fn ctx agent addr detail).lines = s.lines := by
  obtain ⟨mem, lines⟩ := s
  rfl

theorem logEvent_dir (type_ fn ctx agent : Nat) (addr detail : Word) :
    (s.logEvent type_ fn ctx agent addr detail).dir n = s.dir n :=
  dir_of_l2? (congrArg (fun (l : Lines) => tget? l.l2 n) (logEvent_lines s type_ fn ctx agent addr detail))

theorem reduceAt_dir (r : Req) (op : BitVec 3) (ty : Ty) (ws : List (Nat × List Byte)) :
    (s.reduceAt line r op ty ws).dir n = s.dir n := by
  rw [State.reduceAt]
  split
  · refine (changed_dir_any (State.clearResv _ line) line n).trans (foldl_dir s n (fun t w => ?_) ws)
    exact write_dir t w
  · exact foldl_dir s n write_dir ws
where
  write_dir (t : State) (w : Nat × List Byte) :
      (if !(!s.poisonedAt (line * 128 + w.1)) then t.logEvent 0x0B r.fn r.ctx 0xFFFF (BitVec.ofNat 64 (line * 128 + w.1)) 0
        else t.homeMerge r.key line (bytesAt w.1
          (redPart op ty (t.homeBytes r.key (line * 128 + w.1) w.2.length) w.2))).dir n = t.dir n := by
    split
    · exact logEvent_dir ..
    · exact homeMerge_dir ..

theorem openAck_dir (dsts : List Nat) (round gather settle : Bool) (reply : Option (Node × Req)) (body : Nat → Body) :
    (s.openAck line dsts round gather settle reply body).dir n = s.dir n :=
  foldl_dir { s with net := { s.net with
    next := s.net.next + 1, acks := s.net.acks ++ [Ack.mk s.net.next line dsts.length round gather settle reply] } } n
    (f := fun t c => t.send (t.homeNode line) (.core c) line (body s.net.next)) (fun _ _ => rfl) dsts

theorem carry_dir {t : State} {key writer : Nat} {ps : List Nat} {reply : Option (Node × Req)}
    (carried : s.carry line key writer ps reply = some t) : t.dir n = s.dir n := by
  unfold State.carry at carried
  extract_lets d targets bytes at carried
  split at carried
  · cases carried
  · obtain rfl := Option.some.inj carried
    refine (openAck_dir ..).trans ?_
    split
    · exact modL2_dir_any _ _ _ fun _ => rfl
    · rfl

theorem putPart_dir (p : Part) : (s.putPart p).dir n = s.dir n := by
  rw [State.putPart]
  split
  · dsimp only
    split <;> rfl
  · rfl

theorem stepPart_dir (p : Part) (k : Nat) : (s.stepPart p k).dir n = s.dir n := by
  unfold State.stepPart
  split
  · dsimp only
    split
    · next carried => exact (putPart_dir ..).trans ((carry_dir _ _ _ carried).trans (reduceAt_dir ..))
    · exact (putPart_dir ..).trans (reduceAt_dir ..)
  · rfl

/-- The writes that a home makes of the reductions it has begun change no directory entry. -/
theorem calm_dir : (s.calm line).1.dir n = s.dir n := by
  rw [State.calm]
  refine foldl_dir s n (fun t p => ?_) _
  split
  · rfl
  · exact stepPart_dir ..

end dirs

/-! A line that stands ready (R104) -/

section ready

variable {s : State} {x : Msg} {r : Req} {y : L2Line} (here : s.l2? x.line = some y) (owned : y.key = r.key)
  (kept : y.transient = false ∨ r.cache = 3) (whole : s.missing x.line (s.needs x) = [])

include here owned in
theorem unkey_owned : s.unkey x.line r = (s, true) := by
  rw [State.unkey, here]
  simp [owned]

include here kept whole in
theorem roomFor_whole : s.roomFor x.line r (s.needs x) = (s, true) := by
  have stays : (r.cache != 3 && y.transient) = false := by
    rcases kept with kept | kept <;> simp [kept]
  simp only [State.roomFor, here, State.adopt, Option.any_some, stays, Bool.false_eq_true, if_false, whole,
    List.isEmpty_nil, if_true]

include here owned kept whole

theorem homeGo_gathers {t : State} (near : (s.dir x.line).mode = 2) (far : x.body.isNear = false)
    (calm : s.calm x.line = (t, true)) :
    s.homeGo x r = (t.startGather x.line).forward
      (if (t.startGather x.line).host.backInv.any fun b => b.1 == x.line then x.unkept else x) := by
  have near' : (t.dir x.line).mode = 2 := by
    rw [← near, ← calm_dir s x.line x.line, calm]
  have gathers : s.readyFor x.line r (s.needs x) x.body.writes true x.body.isNear = (t.startGather x.line, false) := by
    rw [State.readyFor, unkey_owned here owned]
    simp [roomFor_whole here kept whole, near, far, calm, near']
  rw [State.homeGo, gathers]

theorem homeGo_performs (far : (s.dir x.line).mode ≠ 2 ∨ x.body.isNear = true)
    (free : s.hostHeld x.line (s.needs x) x.body.writes = []) :
    s.homeGo x r = if s.awaitsStores x then s.forward x else
      match x.body, s.flushedLine x.line with
      | .discard .., (t, true) => t.perform x
      | .discard .., (t, false) => t.forward x
      | _, _ => s.perform x := by
  have far' : ((s.dir x.line).mode != 2 || x.body.isNear) = true := by simpa using far
  have stands : s.readyFor x.line r (s.needs x) x.body.writes true x.body.isNear = (s, true) := by
    rw [State.readyFor, unkey_owned here owned]
    simp only [roomFor_whole here kept whole, if_true, free, far', List.isEmpty_nil, Bool.and_true]
  rw [State.homeGo, stands]
  dsimp only
  cases x.body with
  | discard =>
    obtain ⟨t, flushed⟩ := s.flushedLine x.line
    cases flushed <;> rfl
  | _ => rfl

end ready

/-- Settles O34: arriving requests by `arrive_eq`, steering by what the slides of the descriptor say, and a line that
stands ready by `State.homeGo`. -/
theorem requestsAtHomes : Obligations.RequestsAtHomes := by
  unfold Obligations.RequestsAtHomes
  intro act
  have acts : ∀ s x, act s x = s.arrive x := fun s x => by
    rw [arrive_eq]
  refine ⟨?read, ?store, ?atomic, fun s m => ⟨fun x r op ty ws ready arrives body => ?new, fun p begun =>
    ⟨fun busy => ?busy, fun free => ?more⟩⟩, ?discard, ?ureq, fun s x r asks request => ?asked⟩
  case read =>
    refine receives_arrive execRead (fun _ _ => rfl) (fun _ _ => rfl) (fun s x body => ?_) acts
    obtain ⟨r, al, ho, hs, body⟩ | ⟨r, body⟩ := body <;> rw [body]
  case store =>
    refine receives_arrive execStore (fun _ _ => rfl) (fun _ _ => rfl) (fun s x body => ?_) acts
    obtain ⟨r, bs, sc, z, body⟩ := body
    rw [body]
  case atomic =>
    refine receives_arrive execHomeAtomic (fun _ _ => rfl) (fun _ _ => rfl) (fun s x body => ?_) acts
    obtain ⟨r, op, ty, ops, body⟩ := body
    rw [body]
  case discard =>
    refine receives_arrive execDiscardAtHome (fun _ _ => rfl) (fun _ _ => rfl) (fun s x body => ?_) acts
    obtain ⟨r, lo, len, w, body⟩ := body
    rw [body]
  case ureq =>
    refine receives_arrive execUreq (fun _ _ => rfl) (fun _ _ => rfl) (fun s x body => ?_) acts
    obtain ⟨r, op, ty, ws, body⟩ := body
    rw [body]
  case new => rw [exec_homeReduction_new ready arrives body, acts]
  case busy => rw [exec_homeReduction_begun begun, if_pos busy]
  case more =>
    have left : p.rest ≠ [] := (by simpa using List.find?_some begun : p.m.id = m ∧ p.rest ≠ []).2
    refine ⟨_, someWrites_pos .., someWrites_le s (List.length_pos_iff.2 left), ?_⟩
    rw [exec_homeReduction_begun begun, if_neg (Bool.eq_false_iff.1 free)]
  case asked =>
    intro there queue at_ wake places
    have take := homeTake_eq (s := s) asks request
    refine ⟨forward_room, forward_full, fun ended moving => ?stranded, fun sl active here => ?steered,
      fun y here part go => ?ready⟩
    case stranded =>
      have stranded : s.steering x r = .stranded := (steering_none ended).trans (if_pos moving)
      rw [take, stranded]
      exact ⟨stranded_sent asks, fun ⟨agent, op, ty, ws, reduces⟩ => stranded_wake agent reduces⟩
    case steered =>
      have steer := steering_places active here
      refine ⟨fun passing => ?_, fun still moved => ?_⟩
      · rw [take, steer, if_pos passing]
      · rw [take, steer, if_neg (Bool.eq_false_iff.1 still), if_neg moved]
        exact ⟨resteer_sent _ asks, fun op ty p b agent reduces => resteer_wake _ agent reduces active⟩
    case ready =>
      have goes : s.steering x r = .go := by
        obtain ⟨ended, stays⟩ | ⟨sl, active, elsewhere | ⟨still, place, same⟩⟩ := go
        · rw [steering_none ended, stays]; rfl
        · exact steering_elsewhere active elsewhere
        · rw [steering_places active place, if_neg (Bool.eq_false_iff.1 still), if_pos same]
      rw [homeTake_go asks request goes part here]
      refine ⟨fun blocked => if_pos blocked, fun free owned kept whole => ?_⟩
      rw [if_neg (Bool.eq_false_iff.1 free)]
      have entry : s.dir x.line = y.dir := by rw [State.dir, here]; rfl
      exact ⟨fun t near far calm => homeGo_gathers here owned kept whole (entry ▸ near) far calm,
        fun far => homeGo_performs here owned kept whole (entry ▸ far)⟩

end Sys2Proof.Machine


/-! SUPPORT. What the messages that reach cores do, and the statement about them. -/

namespace Sys2Proof.Machine

/-! Data (R81, R82, R104) -/

/-- What DATA brings to a demand for a whole line stands in the fill buffer's entry of the line. -/
def State.fillMisses (s : State) (core line key : Nat) (fill : List Byte × BitVec 2 × List Bool × Bool) : State :=
  s.modCore core fun c => { c with misses := c.misses.map fun (y : Miss) =>
    if y.line = line ∧ y.key = key ∧ y.fill = none then { y with fill := some fill } else y }

theorem execData_row (s : State) (x : Msg) {r : Req} {bytes : List Byte} {poison : BitVec 2} {valid : List Bool}
    {al : Bool}
    (body : x.body = .data r bytes poison valid al) :
    (match x.body with
      | .data r bytes poison valid alloc =>
        match r.flight with
        | some _ => some ((s.modReq x.line r fun p => p.answer bytes poison valid).pump)
        | none => some (s.modCore x.dst.core? fun c => { c with misses := c.misses.map fun (y : Miss) =>
            if y.line = x.line && y.key = r.key && y.fill.isNone then { y with fill := some (bytes, poison, valid, alloc) }
            else y })
      | _ => none) =
    some (if r.flight = none then s.fillMisses x.dst.core? x.line r.key (bytes, poison, valid, al)
      else (s.modReq x.line r fun p => p.answer bytes poison valid).pump) := by
  rw [body]
  dsimp only
  cases r.flight with
  | some id => rfl
  | none =>
    simp only [State.fillMisses, if_true, Bool.and_eq_true, decide_eq_true_eq, Option.isNone_iff_eq_none, and_assoc]

theorem exec_missFill {s : State} {core : Nat} {e : Miss} {bytes : List Byte} {poison : BitVec 2} {valid : List Bool}
    {al : Bool} (held : (s.core core).misses.find? (·.id == e.id) = some e) (filled : e.fill = some (bytes, poison, valid, al)) :
    exec (.missFill core e.id) s = .next
      (((if al then (s.dropMiss core e).l1Install core e.line e.key (patch bytes e.later) else s.dropMiss core e).modMiss e
        fun p => p.answer bytes poison valid).pump) := by
  show execMissFill core e.id s = _
  simp only [execMissFill, held, filled]

/-! Copies and requests (R106, R110, R113, R117, R118) -/

theorem receives_resteer {r : Req} {n : Nat} (demand : r.flight ≠ none) :
    Receives .resteer (· = .resteer r n) fun t x =>
      ((t.modCore r.core fun c => { c with ranges := c.ranges.map fun (e : RBuf) =>
        if e.ctx = r.ctx ∧ e.index = r.index then e.steerTo n else e }).modReq x.line r fun p => p.resteer n).pump := by
  refine receives_of execResteer (fun _ _ => rfl) (fun _ _ => rfl) fun s x body => ?_
  obtain ⟨id, flight⟩ := Option.ne_none_iff_exists'.1 demand
  rw [body]
  simp only [flight, Bool.and_eq_true, decide_eq_true_eq]

theorem receives_gather {ack : Nat} : Receives .gather (· = .gather ack) fun t x =>
    match (t.core x.dst.core?).deltas.find? fun d => d.line == x.line with
    | some d => (t.modCore x.dst.core? fun c => { c with deltas := c.deltas.erase d }).send x.dst x.src x.line
        (.delta ack d.op d.ty d.words)
    | none => t.send x.dst x.src x.line (.nodelta ack) := by
  refine receives_of execGather (fun _ _ => rfl) (fun _ _ => rfl) fun s x body => ?_
  rw [body]
  dsimp only
  cases (s.core x.dst.core?).deltas.find? fun d => d.line == x.line <;> rfl

/-- Settles O36: each message by the row of its event. -/
theorem answersAtCores : Obligations.AnswersAtCores := by
  refine ⟨fun r bytes poison valid al demand => ?data, fun r bytes poison valid al line => ?lineData,
    fun s core e bytes poison valid al held filled => exec_missFill held filled, fun r bytes drop => ?stack,
    fun bytes ack => ?upd, fun ack => ?inv, fun r n demand => receives_resteer demand, fun r id demand => ?stranded,
    fun r op ty ws => ?ugrant, fun ack => receives_gather, fun n => ?retry⟩
  case data =>
    refine receives_of execData (fun _ _ => rfl) (fun _ _ => rfl) fun s x body => (execData_row s x body).trans ?_
    rw [if_neg demand]
    rfl
  case lineData =>
    refine receives_of execData (fun _ _ => rfl) (fun _ _ => rfl) fun s x body => (execData_row s x body).trans ?_
    rw [if_pos line]
    rfl
  case stack => exact receives_of execStack (fun _ _ => rfl) (fun _ _ => rfl) fun s x body => by rw [body]
  case upd => exact receives_of execUpd (fun _ _ => rfl) (fun _ _ => rfl) fun s x body => by rw [body]
  case inv => exact receives_of execInv (fun _ _ => rfl) (fun _ _ => rfl) fun s x body => by rw [body]
  case stranded =>
    refine receives_of execStranded (fun _ _ => rfl) (fun _ _ => rfl) fun s x body => ?_
    rw [body]
    simp only [demand]
  case ugrant => exact receives_of execUgrant (fun _ _ => rfl) (fun _ _ => rfl) fun s x body => by rw [body]
  case retry => exact receives_of execRetry (fun _ _ => rfl) (fun _ _ => rfl) fun s x body => by rw [body]

end Sys2Proof.Machine


/-! SUPPORT. The order in which a bank serves its requests, and the statement about memory controllers. -/

namespace Sys2Proof.Machine

/-! The choice of a request (R86, R93, R95) -/

theorem findSome?_range_some {α : Type} {f : Nat → Option α} {n : Nat} {a : α}
    (found : (List.range n).findSome? f = some a) :
    ∃ k < n, f k = some a ∧ ∀ j < k, f j = none := by
  induction n with
  | zero => cases found
  | succ n ih =>
    rw [List.range_succ, List.findSome?_append] at found
    cases before : (List.range n).findSome? f with
    | some b =>
      rw [before] at found
      obtain ⟨k, inside, here, none_before⟩ := ih (before.trans found)
      exact ⟨k, by omega, here, none_before⟩
    | none =>
      rw [before] at found
      exact ⟨n, by omega, by simpa using found, fun j inside => List.findSome?_eq_none_iff.1 before j (List.mem_range.2 inside)⟩

namespace Bank

/-- A request that the bank may serve: no older one of its line stands in the queue, and a full mirror log does not
hold it. -/
def Eligible (b : Bank) (full : Bool) (p : McReq) : Prop :=
  b.reqs.find? (fun x => x.line == p.line) = some p ∧ (full = true → p.write = true → p.dropped = true)

variable {b : Bank} {full : Bool} {fn : Nat} {q : McReq}

theorem eligible_iff (p : McReq) :
    (p.fn == fn && p.free b.reqs && !(full && p.write && !p.dropped)) = true ↔ p.fn = fn ∧ b.Eligible full p := by
  have mirror : (!(full && p.write && !p.dropped)) = true ↔ (full = true → p.write = true → p.dropped = true) := by
    cases full <;> cases p.write <;> cases p.dropped <;> decide
  rw [Bool.and_eq_true, Bool.and_eq_true, mirror, beq_iff_eq, McReq.free, beq_iff_eq, Eligible, and_assoc]

theorem pick_eq_none (empty : b.pick full fn = none) : ∀ p ∈ b.reqs, p.fn = fn → ¬b.Eligible full p := by
  unfold pick at empty
  extract_lets qs at empty
  split at empty
  · cases empty
  · intro p mem same eligible
    have kept : p ∈ qs := List.mem_filter.2 ⟨mem, (eligible_iff p).2 ⟨same, eligible⟩⟩
    rw [List.head?_eq_none_iff.1 empty] at kept
    cases kept

/-- The request that a function is served first is a row hit when it has one, and the oldest of those. -/
theorem pick_eq_some (picked : b.pick full fn = some q) :
    q.fn = fn ∧ b.Eligible full q ∧
    (some q.row ≠ b.openRow → ∀ p ∈ b.reqs, p.fn = fn → b.Eligible full p → some p.row ≠ b.openRow) ∧
    ∃ older younger, b.reqs = older ++ q :: younger ∧ ∀ p ∈ older, p.fn = fn → b.Eligible full p →
      some q.row = b.openRow ∧ some p.row ≠ b.openRow := by
  unfold pick at picked
  extract_lets qs at picked
  split at picked
  · next hit found =>
    obtain rfl := Option.some.inj picked
    rw [List.find?_filter, List.find?_eq_some_iff_append] at found
    obtain ⟨this, older, younger, split, passed⟩ := found
    rw [decide_eq_true_eq, eligible_iff, beq_iff_eq] at this
    obtain ⟨⟨same, eligible⟩, row⟩ := this
    refine ⟨same, eligible, fun miss => absurd row miss, older, younger, split, fun p mem fn elig => ⟨row, fun open_ => ?_⟩⟩
    have := passed p mem
    rw [Bool.not_eq_true', Bool.eq_false_iff] at this
    exact this (decide_eq_true ⟨(eligible_iff p).2 ⟨fn, elig⟩, beq_iff_eq.2 open_⟩)
  · next misses =>
    rw [List.head?_filter, List.find?_eq_some_iff_append] at picked
    obtain ⟨this, older, younger, split, passed⟩ := picked
    obtain ⟨same, eligible⟩ := (eligible_iff _).1 this
    refine ⟨same, eligible, fun _ p mem fn elig => ?_, older, younger, split, fun p mem fn elig => ?_⟩
    · have kept : p ∈ qs := List.mem_filter.2 ⟨mem, (eligible_iff p).2 ⟨fn, elig⟩⟩
      simpa using List.find?_eq_none.1 misses p kept
    · have := passed p mem
      rw [Bool.not_eq_true', Bool.eq_false_iff] at this
      exact absurd ((eligible_iff p).2 ⟨fn, elig⟩) this

/-- The functions are served in turn, but for those that are held and those without a request that may be served. -/
theorem next_eq_some (chosen : b.next full = some q) :
    ∃ k < 64, (∀ h ∈ b.held, h.1 ≠ (b.turn + 1 + k) % 64) ∧ b.pick full ((b.turn + 1 + k) % 64) = some q ∧
      ∀ j < k, (∃ h ∈ b.held, h.1 = (b.turn + 1 + j) % 64) ∨ b.pick full ((b.turn + 1 + j) % 64) = none := by
  obtain ⟨k, inside, here, before⟩ := findSome?_range_some chosen
  dsimp only at here before
  split at here
  · cases here
  · next free =>
    refine ⟨k, inside, fun h mem held => free (List.any_eq_true.2 ⟨h, mem, beq_iff_eq.2 held⟩), here, fun j earlier => ?_⟩
    have skipped := before j earlier
    split at skipped
    · next held => exact .inl (by simpa using held)
    · exact .inr skipped

end Bank

/-! The service of a request (R86, R93, R94) -/

theorem exec_memoryRequestIssue {s : State} {chan bank : Nat} {b : Bank} {q : McReq}
    (there : tget? s.lines.banks (chan * 64 + bank) = some b) (chosen : b.next (s.mirrorFull chan) = some q) :
    let opens : Bool := !q.dropped && b.openRow != some q.row
    let count := tget b.counts q.row 0 + 1
    let hot : Bool := opens && decide (count = 1024)
    exec (.memoryRequestIssue chan bank) s = .next
      (let t := { s with lines := { s.lines with
        banks := tset s.lines.banks (chan * 64 + bank) { b with
          reqs := b.reqs.erase q, turn := q.fn, openRow := if q.dropped then b.openRow else some q.row
          counts := if opens then tset b.counts q.row count else b.counts
          held := if hot then b.held ++ [(q.fn, q.row)] else b.held }
        fills := if q.write then s.lines.fills else s.lines.fills ++ [q.line] } }
       let t := if q.write = true ∧ q.dropped = false then t.mirror chan q.line else t
       let t := if hot then t.logEvent 0x07 q.fn 0xFF 0xFFFF 0
          (BitVec.ofNat 64 (chan / 64 * 65536 + chan % 64 * 256 + bank)) else t
       (t.closeHome (t.homeOf (q.line * 128))).drainHome (t.homeOf (q.line * 128))) := by
  show execMemoryRequestIssue chan bank s = _
  simp only [execMemoryRequestIssue, there, chosen, Bool.and_eq_true q.write, Bool.not_eq_true' q.dropped]
  cases !q.dropped && b.openRow != some q.row <;> rfl

/-- Settles O38: the service of the request that the bank has chosen, and the choice by `Bank.next_eq_some`. -/
theorem memoryControllers : Obligations.MemoryControllers := by
  refine ⟨fun s chan bank b q there chosen => exec_memoryRequestIssue there chosen, fun b full q chosen => ?order,
    fun s chan bank fn => rfl, fun s chan bank => rfl, fun s line waits => ?fill⟩
  case order =>
    obtain ⟨k, inside, free, picked, before⟩ := Bank.next_eq_some chosen
    obtain ⟨fn, ⟨first, mirror⟩, hits, older, younger, split, passed⟩ := Bank.pick_eq_some picked
    rw [← fn] at free hits passed
    exact ⟨split ▸ List.mem_append_right _ (List.mem_cons_self ..), free, first, mirror, hits,
      ⟨older, younger, split, passed⟩, k, inside, fn, fun j earlier => (before j earlier).imp_right Bank.pick_eq_none⟩
  case fill =>
    show execMemoryFill line s = _
    rw [execMemoryFill, if_pos (List.contains_iff_mem.2 waits)]

end Sys2Proof.Machine


/-! SUPPORT. How the tideline of a slide advances, and the statement about it. -/

namespace Sys2Proof.Machine

namespace Slot

variable {x y z : Slot} {k : Nat}

/-! The order of copying (R53, R71) -/

theorem up_eq_true (x : Slot) : x.up = true ↔ x.new_ < x.old := decide_eq_true_iff

/-- The blocks still to move, in copy order: from the tideline up, or from it down. -/
theorem mem_unmoved_iff {j : Nat} :
    j ∈ (List.range x.left).map x.ahead ↔ if x.new_ < x.old then x.tide ≤ j ∧ j < x.n else j < x.tide := by
  simp only [List.mem_map, List.mem_range, left, ahead, up_eq_true]
  split
  · exact ⟨fun ⟨i, _, eq⟩ => by omega, fun between => ⟨j - x.tide, by omega, by omega⟩⟩
  · exact ⟨fun ⟨i, _, eq⟩ => by omega, fun below => ⟨x.tide - 1 - j, by omega, by omega⟩⟩

/-! What may be written (R54, R71) -/

theorem isSome_of_mem_keys {β : Type} {t : Table β} (key : k ∈ t.map Prod.fst) : (tget? t k).isSome = true := by
  induction t with
  | nil => cases key
  | cons e t ih =>
    obtain ⟨m, b⟩ := e
    rw [tget?]
    split
    · rfl
    · next other => exact ih ((List.mem_cons.1 key).resolve_left fun same => other (by simp [same]))

theorem writable_read (writable : k ∈ x.writable) : (tget? x.read k).isSome = true :=
  isSome_of_mem_keys (List.mem_filter.1 writable).1

theorem writable_unwritten (writable : k ∈ x.writable) : k ∉ x.written := by
  have clear := (List.mem_filter.1 writable).2
  rw [Bool.and_eq_true] at clear
  simpa using clear.1

/-- The block goes where no block lies that is still to be read. -/
theorem writable_clear {j : Nat} (writable : k ∈ x.writable) (unmoved : j ∈ (List.range x.left).map x.ahead)
    (unread : tget? x.read j = none) :
    x.new_ + 128 * k + 128 ≤ x.old + 128 * j ∨ x.old + 128 * j + 128 ≤ x.new_ + 128 * k := by
  have clear := (List.mem_filter.1 writable).2
  rw [Bool.and_eq_true, Bool.not_eq_true', Bool.not_eq_true'] at clear
  have apart := List.any_eq_false.1 clear.2 j (List.mem_filter.2 ⟨unmoved, by rw [unread]; rfl⟩)
  rw [blocksMeet, Bool.and_eq_true, decide_eq_true_eq, decide_eq_true_eq] at apart
  omega

/-! The tideline (R53, R63) -/

/-- What the advance of the tideline may make of a slide: it passes over written blocks alone, in copy order, and
forgets what was read of no other block. -/
structure Advanced (x y : Slot) : Prop where
  new_ : y.new_ = x.new_
  old : y.old = x.old
  n : y.n = x.n
  state : y.state = x.state
  inside : x.tide ≤ x.n → y.tide ≤ x.n
  written : ∀ j ∈ y.written, j ∈ x.written
  rises : x.new_ < x.old → x.tide ≤ y.tide ∧ ∀ j, x.tide ≤ j → j < y.tide → j ∈ x.written
  falls : ¬x.new_ < x.old → y.tide ≤ x.tide ∧ ∀ j, y.tide ≤ j → j < x.tide → j ∈ x.written
  read : ∀ j, tget? y.read j = none → tget? x.read j = none ∨ j ∈ x.written

theorem Advanced.refl (x : Slot) : Advanced x x where
  new_ := rfl
  old := rfl
  n := rfl
  state := rfl
  inside := id
  written _ := id
  rises _ := ⟨le_rfl, fun j _ _ => by omega⟩
  falls _ := ⟨le_rfl, fun j _ _ => by omega⟩
  read _ := .inl

theorem Advanced.trans (first : Advanced x y) (second : Advanced y z) : Advanced x z where
  new_ := second.new_.trans first.new_
  old := second.old.trans first.old
  n := second.n.trans first.n
  state := second.state.trans first.state
  inside within := first.n ▸ second.inside (first.n.symm ▸ first.inside within)
  written j mem := first.written j (second.written j mem)
  rises up := by
    obtain ⟨le, passed⟩ := first.rises up
    obtain ⟨le', passed'⟩ := second.rises (by rw [first.new_, first.old]; exact up)
    refine ⟨le.trans le', fun j lo hi => ?_⟩
    by_cases reached : j < y.tide
    · exact passed j lo reached
    · exact first.written j (passed' j (Nat.not_lt.1 reached) hi)
  falls down := by
    obtain ⟨le, passed⟩ := first.falls down
    obtain ⟨le', passed'⟩ := second.falls (by rw [first.new_, first.old]; exact down)
    refine ⟨le'.trans le, fun j lo hi => ?_⟩
    by_cases reached : j < y.tide
    · exact first.written j (passed' j lo reached)
    · exact passed j (Nat.not_lt.1 reached) hi
  read j gone := (second.read j gone).elim (first.read j) fun mem => .inr (first.written j mem)

/-- T passes over the next block in copy order. -/
def pass (x : Slot) : Slot :=
  { x with
    tide := (if x.up then x.tide + 1 else x.tide - 1)
    read := tdel x.read (x.ahead 0), written := x.written.filter (· != x.ahead 0) }

theorem advance_succ (x : Slot) (fuel : Nat) : x.advance (fuel + 1) =
    if x.left != 0 && x.written.contains (x.ahead 0) then x.pass.advance fuel else x := rfl

theorem advanced_pass (more : x.left ≠ 0) (written : x.ahead 0 ∈ x.written) : Advanced x x.pass where
  new_ := rfl
  old := rfl
  n := rfl
  state := rfl
  inside within := by
    simp only [pass, left] at more ⊢
    split at more <;> simp_all <;> omega
  written j mem := (List.mem_filter.1 mem).1
  rises up := by
    have next : x.ahead 0 = x.tide := by simp [ahead, (up_eq_true x).2 up]
    simp only [pass, (up_eq_true x).2 up, if_true]
    refine ⟨by omega, fun j lo hi => ?_⟩
    rwa [show j = x.ahead 0 by omega]
  falls down := by
    have down' : x.up = false := by simpa [up] using down
    have next : x.ahead 0 = x.tide - 1 := by simp [ahead, down']
    simp only [pass, down', Bool.false_eq_true, if_false]
    refine ⟨by omega, fun j lo hi => ?_⟩
    rwa [show j = x.ahead 0 by omega]
  read j gone := by
    by_cases same : j = x.ahead 0
    · exact .inr (same ▸ written)
    · exact .inl ((tget?_tdel_ne same).symm.trans gone)

theorem advanced_advance (x : Slot) (fuel : Nat) : Advanced x (x.advance fuel) := by
  induction fuel generalizing x with
  | zero => exact .refl x
  | succ fuel ih =>
    rw [advance_succ]
    split
    · next moves =>
      rw [Bool.and_eq_true, bne_iff_ne, List.contains_iff_mem] at moves
      exact (advanced_pass moves.1 moves.2).trans (ih _)
    · exact .refl x

end Slot

/-- Settles O40: what may be written by `Slot.writable`, and the tideline by `Slot.advanced_advance`. -/
theorem slidesAdvance : Obligations.SlidesAdvance := by
  intro x k fuel differ inside y
  have moved : Slot.Advanced { x with written := k :: x.written } y := Slot.advanced_advance ..
  refine ⟨fun writable => ⟨Slot.writable_read writable, Slot.writable_unwritten writable, fun j within unmoved unread =>
    Slot.writable_clear writable (Slot.mem_unmoved_iff.2 ?_) unread⟩, moved.new_, moved.old, moved.n, moved.state,
    moved.inside inside, fun up => ?_, fun down => ?_, fun j gone => ?_⟩
  · split
    · next up => exact ⟨by simpa only [if_pos up] using unmoved, within⟩
    · next down => simpa only [if_neg down] using unmoved
  · obtain ⟨le, passed⟩ := moved.rises up
    exact ⟨le, fun j lo hi => List.mem_cons.1 (passed j lo hi)⟩
  · obtain ⟨le, passed⟩ := moved.falls (Nat.lt_asymm down)
    exact ⟨le, fun j lo hi => List.mem_cons.1 (passed j lo hi)⟩
  · exact (moved.read j gone).imp_right List.mem_cons.1

end Sys2Proof.Machine


/-! SUPPORT. The events of a slide, and the statement about them. -/

namespace Sys2Proof.Machine

/-! Steering and the window (R53, R54, R71) -/

namespace Slot

variable {x : Slot} {k : Nat}

theorem addr_up (o : Nat) (up : x.new_ < x.old) :
    x.addr o = if o / 128 < x.tide then x.new_ + o else x.old + o := by
  simp only [addr, movedBlock, if_pos up, decide_eq_true_eq]

theorem addr_down (o : Nat) (down : x.old < x.new_) :
    x.addr o = if x.tide ≤ o / 128 then x.new_ + o else x.old + o := by
  simp only [addr, movedBlock, if_neg (Nat.lt_asymm down), decide_eq_true_eq]

/-- The next block to be read is the first of the window that has not been. -/
theorem nextBlock_eq_some (next : x.nextBlock = some k) : tget? x.read k = none ∧
    ∃ i < min 16 x.left, k = x.ahead i ∧ ∀ j < i, (tget? x.read (x.ahead j)).isSome = true := by
  rw [nextBlock, List.find?_map, Option.map_eq_some_iff] at next
  obtain ⟨i, first, rfl⟩ := next
  rw [List.find?_range_eq_some] at first
  obtain ⟨unread, inside, before⟩ := first
  exact ⟨Option.isNone_iff_eq_none.1 unread, i, List.mem_range.1 inside, rfl, fun j lt => by simpa using before j lt⟩

theorem nextBlock_up (next : x.nextBlock = some k) (up : x.new_ < x.old) :
    x.tide ≤ k ∧ k < x.tide + 16 ∧ k < x.n ∧ ∀ j, x.tide ≤ j → j < k → (tget? x.read j).isSome = true := by
  obtain ⟨-, i, inside, rfl, before⟩ := nextBlock_eq_some next
  have ahead (m : Nat) : x.ahead m = x.tide + m := if_pos (decide_eq_true up)
  have left : x.left = x.n - x.tide := if_pos (decide_eq_true up)
  rw [ahead]
  refine ⟨by omega, by omega, by omega, fun j lo hi => ?_⟩
  have read := before (j - x.tide) (by omega)
  rwa [ahead, Nat.add_sub_cancel' lo] at read

theorem nextBlock_down (next : x.nextBlock = some k) (down : x.old ≤ x.new_) :
    k < x.tide ∧ x.tide ≤ k + 16 ∧ ∀ j, k < j → j < x.tide → (tget? x.read j).isSome = true := by
  obtain ⟨-, i, inside, rfl, before⟩ := nextBlock_eq_some next
  have falls : ¬x.up = true := by simpa [up] using down
  have ahead (m : Nat) : x.ahead m = x.tide - 1 - m := if_neg falls
  have left : x.left = x.tide := if_neg falls
  rw [ahead]
  refine ⟨by omega, by omega, fun j lo hi => ?_⟩
  have read := before (x.tide - 1 - j) (by omega)
  rwa [ahead, show x.tide - 1 - (x.tide - 1 - j) = j by omega] at read

end Slot

/-! Commits (R60, R62) -/

theorem tickPast_iff (s : State) (n : Nat) (x : Slot) :
    s.tickPast n x = true ↔ ∃ k, x.tick = some k ∧ k < s.hb (n / 4) := by
  simp [State.tickPast, Option.any_eq_true]

section start

variable {s : State} {n : Nat}

section queued

variable {t : State} (queued : (s.slot n).state = 1) (kept : (s.slot n).abandoned = false)
  (next : (s.flushUsers (s.slot n).after).nextSlide n (s.slot n) = true)
  (free : (s.flushUsers (s.slot n).after).inUse (s.slot n).after = false)
include queued kept next free

theorem exec_startCommit_waits (ask : (s.flushUsers (s.slot n).after).descAsk n (s.slot n) = (t, false)) :
    exec (.slideStartCommit n) s = .next t := by
  show execSlideStartCommit n s = _
  simp only [execSlideStartCommit, queued, decide_true, Bool.true_or, if_true, kept, next, free, Bool.not_true,
    Bool.or_false, Bool.false_eq_true, if_false, ask]

variable (ask : (s.flushUsers (s.slot n).after).descAsk n (s.slot n) = (t, true)) {code : Nat}
  (check : t.slideCode (BitVec.ofNat 64 ((s.slot n).ctx * 2 ^ 58 + (s.slot n).index)) (BitVec.ofNat 64 (s.slot n).new_) true =
    code)
include ask check

theorem exec_startCommit_refused (refused : code ≠ 0) :
    exec (.slideStartCommit n) s = .next (t.endSlide n (s.slot n) 5 code) := by
  show execSlideStartCommit n s = _
  simp only [execSlideStartCommit, queued, decide_true, Bool.true_or, if_true, kept, next, free, Bool.not_true,
    Bool.or_false, Bool.false_eq_true, if_false, ask, check]

theorem exec_startCommit_legal (legal : code = 0) :
    exec (.slideStartCommit n) s = .next (t.startSlide n (s.slot n)) := by
  rw [legal] at check
  show execSlideStartCommit n s = _
  simp only [execSlideStartCommit, queued, decide_true, Bool.true_or, if_true, kept, next, free, Bool.not_true,
    Bool.or_false, Bool.false_eq_true, if_false, ask, check]

end queued

theorem exec_startCommit_ready (active : (s.slot n).state = 2) (fresh : (s.slot n).tick = none)
    (ready : (s.flushUsers (s.slot n).after).commitReady (s.slot n) = true) :
    exec (.slideStartCommit n) s = .next ((s.flushUsers (s.slot n).after).setSlot n
      { s.slot n with tick := some ((s.flushUsers (s.slot n).after).hb (n / 4)) }) := by
  show execSlideStartCommit n s = _
  simp only [execSlideStartCommit, active, decide_true, Bool.or_true, if_true, fresh, ready, Option.isSome_none,
    Bool.false_eq_true, if_false, show ¬2 = 1 by decide]

theorem exec_startCommit_ticked {k : Nat} (active : (s.slot n).state = 2) (began : (s.slot n).tick = some k)
    (ticked : k < (s.flushUsers (s.slot n).after).hb (n / 4)) :
    exec (.slideStartCommit n) s = .next ((s.flushUsers (s.slot n).after).setSlot n
      { s.slot n with state := 3, after := [], tick := none }) := by
  show execSlideStartCommit n s = _
  simp only [execSlideStartCommit, active, decide_true, Bool.or_true, if_true, (tickPast_iff _ _ _).2
    ⟨k, began, ticked⟩, show (s.slot n).tick.isSome = true by rw [began]; rfl, if_false, show ¬2 = 1 by decide]

end start

/-! Steps (R54, R55, R63, R73) -/

section steps

variable {s : State} {n : Nat}

theorem exec_ebbStep {k : Nat} {t : State} (moving : (s.slot n).state = 3) (kept : (s.slot n).abandoned = false)
    (next : (s.slot n).nextBlock = some k)
    (settled : ((s.slot n).blockLines k).foldl (fun (acc : State × Bool) l =>
      ((acc.1.settleFor n (s.slot n) l).1, acc.2 && (acc.1.settleFor n (s.slot n) l).2)) (s, true) = (t, true)) :
    exec (.ebbStep n) s = .next
      (let x := s.slot n
       let a := x.old + 128 * k
       let t := (x.blockLines k).foldl State.clearResv (t.unclaim (4 + n / 4) n)
       let t := (linesAt a).foldl (fun (t : State) l => t.touch l false) t
       let mark : BitVec 2 := if (linesAt a).any fun l => t.poisonOf l != 0 then 3 else 0
       ((x.blockLines k).foldl State.endTransient
        (t.setSlot n { t.slot n with read := tset x.read k (t.homeBytes x.key a 128, mark) })).drainFree) := by
  have guard : ((s.slot n).state != 3 || (s.slot n).abandoned) = false := by rw [moving, kept]; rfl
  show execEbbStep n s = _
  simp only [execEbbStep, guard, next, settled, Bool.false_eq_true, if_false]
  rfl

section written

variable {k : Nat} {bs : List Byte} {bad : BitVec 2} {t : State} (moving : (s.slot n).state = 3)
  (chosen : (s.slot n).writable[(Config.freeWord 45 s.agenda.free).toNat % max 1 (s.slot n).writable.length]? = some k)
  (read : tget? (s.slot n).read k = some (bs, bad)) (ready : s.newReady n (s.slot n) k = (t, true))
include moving chosen read ready

theorem exec_ebbStepComplete_early
    (early : s.tideDue (s.slot n) (({ s.slot n with written := k :: (s.slot n).written } : Slot).advance 17) = false) :
    exec (.ebbStepComplete n) s = .next ((((t.writeBlock (s.slot n) k bs bad).setSlot n
      (({ s.slot n with written := k :: (s.slot n).written } : Slot).advance 17)).bumpFree.noteWrites t n).drainFree) := by
  have guard : ((s.slot n).state != 3) = false := by rw [moving]; rfl
  show execEbbStepComplete n s = _
  simp only [execEbbStepComplete, guard, Bool.false_eq_true, if_false, chosen, read, ready, early]

theorem exec_ebbStepComplete_due {v : State}
    (due : s.tideDue (s.slot n) (({ s.slot n with written := k :: (s.slot n).written } : Slot).advance 17) = true)
    (ask : t.agentAsk (4 + n / 4) (n + 512) [t.descTouch (s.slot n) 1 1] = (v, true)) :
    exec (.ebbStepComplete n) s = .next (((((v.writeBlock (s.slot n) k bs bad).setSlot n
      (({ s.slot n with written := k :: (s.slot n).written } : Slot).advance 17)).writeTide
      (({ s.slot n with written := k :: (s.slot n).written } : Slot).advance 17)).bumpFree.noteWrites v n).drainFree) := by
  have guard : ((s.slot n).state != 3) = false := by rw [moving]; rfl
  have ask' : t.agentAsk (ebbAgent n) (n + 512) [t.descTouch (s.slot n) 1 1] = (v, true) := ask
  show execEbbStepComplete n s = _
  simp only [execEbbStepComplete, guard, Bool.false_eq_true, if_false, chosen, read, ready, due, if_true, ask']

end written

end steps

/-! The end of a slide (R62, R64, R74) -/

section ending

variable {s : State} {n : Nat}

theorem exec_completionCommit_moved {t : State} (moving : (s.slot n).state = 3) (moved : (s.slot n).left = 0)
    (kept : (s.slot n).abandoned = false) (ask : s.descAsk n (s.slot n) = (t, true)) :
    exec (.slideCompletionCommit n) s = .next
      (let y := { s.slot n with
        state := 4, after := t.imageUsers (s.slot n).ctx (some (s.slot n).index), tick := none }
       (((t.setSlot n y).setMoving y false y.new_ 0 0).noteWrites t n).invalidate (s.slot n).ctx (some (s.slot n).index)) := by
  show execSlideCompletionCommit n s = _
  simp only [execSlideCompletionCommit, moving, moved, kept, decide_true, Bool.not_false, Bool.and_self, if_true, ask]

theorem exec_completionCommit_ready (ending : (s.slot n).state = 4) (steering : (s.slot n).steering = true)
    (ready : (s.flushUsers (s.slot n).after).commitReady (s.slot n) = true) :
    exec (.slideCompletionCommit n) s = .next (((s.flushUsers (s.slot n).after).setSlot n
      { s.slot n with
        steering := false, after := [], tick := some ((s.flushUsers (s.slot n).after).hb (n / 4)) }).drainFree) := by
  show execSlideCompletionCommit n s = _
  simp only [execSlideCompletionCommit, ending, steering, ready, show ¬4 = 3 by decide, decide_false, Bool.false_and,
    Bool.false_eq_true, if_false, decide_true, Bool.and_self, if_true]

theorem exec_slideReport_done {k : Nat} (ending : (s.slot n).state = 4) (gone : (s.slot n).steering = false)
    (began : (s.slot n).tick = some k) (ticked : k < s.hb (n / 4)) :
    exec (.slideReport n) s = .next (s.endSlide n (s.slot n) 5 0) := by
  show execSlideReport n s = _
  simp only [execSlideReport, ending, gone, (tickPast_iff _ _ _).2 ⟨k, began, ticked⟩, decide_true, Bool.not_false,
    Bool.and_self, if_true]

theorem exec_slideReport_queued (queued : (s.slot n).state = 1) (abandoned : (s.slot n).abandoned = true) :
    exec (.slideReport n) s = .next (s.endSlide n { s.slot n with tide := 0 } 6 0x0A) := by
  show execSlideReport n s = _
  simp only [execSlideReport, queued, abandoned, show ¬1 = 4 by decide, decide_false, Bool.false_and,
    Bool.false_eq_true, if_false, decide_true, Bool.and_self, if_true]

theorem exec_slideReport_moving (moving : (s.slot n).state = 3) (abandoned : (s.slot n).abandoned = true)
    (out : (s.slot n).read = []) : exec (.slideReport n) s = .next (s.endSlide n (s.slot n) 6 0x0A) := by
  show execSlideReport n s = _
  simp only [execSlideReport, moving, abandoned, out, show ¬3 = 4 by decide, show ¬3 = 1 by decide, decide_false,
    Bool.false_and, Bool.and_false, Bool.false_eq_true, if_false, decide_true, Bool.and_self, List.isEmpty_nil, if_true]

theorem endSlide_open {x : Slot} (st code : Nat)
    (waits : ∃ k ∈ x.acks, s.openId k = true) : s.endSlide n x st code = s := by
  have loud : s.slideQuiet x = false := by rw [State.slideQuiet, List.any_eq_true.2 waits, Bool.not_true]
  simp only [State.endSlide, loud, Bool.not_false, if_true]

theorem endSlide_quiet {x : Slot} {t : State} {asked : Bool} (st code : Nat)
    (complete : ∀ k ∈ x.acks, s.openId k = false)
    (ask : s.agentAsk (4 + n / 4) (n + 512) (s.reportTouches x) = (t, asked)) : s.endSlide n x st code =
      if asked then
        (let y := { x with state := st, code := code, steering := false, read := [], written := [], after := [], acks := [] }
         ((t.setSlot n y).reportSlide y).drainFree)
      else t := by
  have quiet : s.slideQuiet x = true := by simpa [State.slideQuiet] using complete
  have ask' : s.agentAsk (ebbAgent n) (n + 512) (s.reportTouches x) = (t, asked) := ask
  simp only [State.endSlide, quiet, Bool.not_true, Bool.false_eq_true, if_false, ask']
  cases asked <;> rfl

end ending

/-- Settles O39: each event of a slide by its meaning. -/
theorem slideEvents : Obligations.SlideEvents := by
  intro s n x u image
  refine ⟨fun o => ⟨Slot.addr_up o, Slot.addr_down o⟩,
    fun k next => ⟨(Slot.nextBlock_eq_some next).1, Slot.nextBlock_up next, Slot.nextBlock_down next⟩,
    fun queued kept next free t => ⟨fun ask => ?waits, fun ask => ⟨fun refused => ?refused, fun legal => ?starts⟩⟩,
    fun active => ⟨exec_startCommit_ready active, fun k => exec_startCommit_ticked active⟩,
    fun k t moving kept next settled => ?step,
    fun k bs bad moving chosen read t ready => ⟨fun early => ?written, fun due v ask => ?tide⟩,
    fun moving moved kept t => exec_completionCommit_moved moving moved kept, exec_completionCommit_ready,
    fun k => exec_slideReport_done, exec_slideReport_queued, exec_slideReport_moving,
    fun t st code => ⟨endSlide_open st code, fun complete =>
      ⟨fun ask => (endSlide_quiet st code complete ask).trans (if_neg Bool.false_ne_true),
        fun ask => (endSlide_quiet st code complete ask).trans (if_pos rfl)⟩⟩⟩
  case waits => exact exec_startCommit_waits queued kept next free ask
  case refused => exact exec_startCommit_refused queued kept next free ask rfl refused
  case starts => exact exec_startCommit_legal queued kept next free ask rfl legal
  case step =>
    rw [exec_ebbStep moving kept next settled]
    simp only [List.any_eq_true, bne_iff_ne]
    rfl
  case written => exact exec_ebbStepComplete_early moving chosen read ready early
  case tide => exact exec_ebbStepComplete_due moving chosen read ready due ask

end Sys2Proof.Machine


/-! SUPPORT. The events of dispatch, and the statement about them. -/

namespace Sys2Proof.Machine

/-! Seats (R188, R220, R223, R224) -/

theorem foldl_add_eq_sum {α : Type} (f : α → Nat) (l : List α) (n : Nat) :
    l.foldl (fun acc e => acc + f e) n = n + (l.map f).sum := by
  induction l generalizing n with
  | nil => rfl
  | cons e l ih => rw [List.foldl_cons, ih, List.map_cons, List.sum_cons, Nat.add_assoc]

theorem claimable_iff {s : State} {ctx core : Nat} : s.claimable ctx core = true ↔
    core < 1024 ∧ (s.core core).inService = true ∧ s.vacating core = false ∧
    (∀ h, (s.core core).heldFor = some h → h.1 = s.ctxFn ctx) ∧ ∀ c, s.reserved core = some c → c = ctx := by
  have inside : decide (core < Config.cores) = true ↔ core < 1024 := decide_eq_true_iff
  simp only [State.claimable, Option.all_eq_true, and_assoc, Bool.and_eq_true, inside, Bool.not_eq_true', beq_iff_eq]

/-- What a core has room for. -/
theorem fits_room {s : State} {f : Fit} {core : Nat} (fits : s.fits f core = true) :
    s.claimable f.ctx core = true ∧ (∀ e ∈ s.coreTeams core, e.2.ctx = f.ctx) ∧ (s.coreTeams core).length < 8 ∧
    ((s.coreTeams core).map fun e => e.2.fit.warps).sum + f.warps ≤ 32 ∧
    ((s.coreTeams core).map fun e => e.2.fit.vgran).sum + f.vgran ≤ 256 ∧
    ((s.coreTeams core).map fun e => e.2.fit.agran).sum + f.agran ≤ 128 ∧
    ((s.coreTeams core).map fun e => e.2.fit.tide).sum + f.tide ≤ 1572864 := by
  simp only [State.fits, foldl_add_eq_sum, Nat.zero_add, Bool.and_eq_true, decide_eq_true_eq, List.all_eq_true,
    beq_iff_eq] at fits
  obtain ⟨⟨⟨⟨⟨⟨⟨⟨⟨claim, ctx⟩, teams⟩, -⟩, warps⟩, vgran⟩, agran⟩, tide⟩, -⟩, -⟩ := fits
  exact ⟨claim, ctx, teams, warps, vgran, agran, tide⟩

/-! Dispatch (R216, R221 to R223) -/

section dispatch

variable {s : State} {ctx core : Nat} (may : s.dispatchable ctx = true)
include may

theorem exec_teamDispatch_root (awaited : s.rootAwaited ctx = true) :
    exec (.teamDispatch ctx core) s = .next (s.postRoot ctx) := by
  show execTeamDispatch ctx core s = _
  simp only [execTeamDispatch, may, awaited, Bool.not_true, Bool.false_eq_true, if_false, if_true]

variable {t : State} {p : PNode} (rooted : s.rootAwaited ctx = false)
  (first : (s.eligible ctx core).find? (fun p => (s.seatNode (s.granted (s.ctxFn ctx)) core p).isSome) = some p)
  (seat : s.seatNode (s.granted (s.ctxFn ctx)) core p = some t)
include rooted first seat

theorem exec_teamDispatch_clears (dirty : s.uncleared t ≠ []) :
    exec (.teamDispatch ctx core) s = .next ((s.uncleared t).foldl State.clearL1s s) := by
  have some_left : (s.uncleared t).isEmpty = false := by simpa using dirty
  show execTeamDispatch ctx core s = _
  simp only [execTeamDispatch, may, rooted, first, seat, Option.map_some, Option.getD_some, some_left, Bool.not_true,
    Bool.not_false, Bool.false_eq_true, if_false, if_true]

theorem exec_teamDispatch_seats {u v : State} (clear : s.uncleared t = [])
    (ask : s.agentAsk 3396 (nodeSerial ctx p.va 2) (p.touches s) = (u, true))
    (seated : u.seatNode (s.granted (s.ctxFn ctx)) core (p.now u) = some v) :
    exec (.teamDispatch ctx core) s = .next (v.freeReserved.tookFree 256) := by
  have ask' : s.agentAsk nodeAgent (nodeSerial ctx p.va 2) (p.touches s) = (u, true) := ask
  show execTeamDispatch ctx core s = _
  simp only [execTeamDispatch, may, rooted, first, seat, Option.map_some, Option.getD_some, clear, List.isEmpty_nil,
    ask', seated, Bool.not_true, Bool.false_eq_true, if_false]

end dispatch

/-! Completion (R221, R222) -/

section complete

variable {s t : State} {n : PNode} (posted : s.sched.nodes.find? (fun m => m.ctx == n.ctx && m.va == n.va) = some n)
include posted

theorem exec_nodeComplete_early (unwritten : n.ending = none)
    (early : n.ready = false ∨ n.retired ≠ n.total ∨ n.nextTeam < n.total) : exec (.nodeComplete n.ctx n.va) s = .next s := by
  have waits : (!n.ready || n.retired != n.total || decide (n.nextTeam < n.total)) = true := by
    simpa [or_assoc] using early
  show execNodeComplete n.ctx n.va s = _
  simp only [execNodeComplete, posted, unwritten, waits, if_true]

theorem exec_nodeComplete_done (unwritten : n.ending = none) (ready : n.ready = true) (retired : n.retired = n.total)
    (dispatched : n.total ≤ n.nextTeam)
    (ask : s.agentAsk nodeAgent (nodeSerial n.ctx n.va 0) (setTouches n.ctx n.va) = (t, true)) :
    exec (.nodeComplete n.ctx n.va) s = .next (t.doneNode n) := by
  have last : (!n.ready || n.retired != n.total || decide (n.nextTeam < n.total)) = false := by
    simpa [ready, retired] using dispatched
  show execNodeComplete n.ctx n.va s = _
  simp only [execNodeComplete, posted, unwritten, last, Bool.false_eq_true, if_false, ask]

variable {ids : List Nat} (written : n.ending = some ids)
include written

theorem exec_nodeComplete_open
    (waits : ∃ k ∈ ids, s.openId k = true) : exec (.nodeComplete n.ctx n.va) s = .next s := by
  show execNodeComplete n.ctx n.va s = _
  simp only [execNodeComplete, posted, written, List.any_eq_true.2 waits, if_true]

theorem exec_nodeComplete_signals (closed : ∀ k ∈ ids, s.openId k = false)
    (ask : s.agentAsk nodeAgent (nodeSerial n.ctx n.va 0) (s.completeTouches (n.now s)) = (t, true)) :
    exec (.nodeComplete n.ctx n.va) s = .next ((t.completeNode (n.now s)).tookFree 256) := by
  have quiet : ids.any s.openId = false := by simpa using closed
  show execNodeComplete n.ctx n.va s = _
  simp only [execNodeComplete, posted, written, quiet, Bool.false_eq_true, if_false, ask]

end complete

/-! Periods (R223, R225, R226) -/

theorem exec_poolStarvation {s : State} {ctx : Nat} {p : PNode} (first : (s.pool ctx).head? = some p)
    (waited : p.tick + 820 ≤ s.now) :
    exec (.poolStarvation ctx) s = .next { s with sched := { s.sched with
      nodes := s.sched.nodes.map fun (m : PNode) =>
        if m.ctx = p.ctx ∧ m.va = p.va then { m with starved := true } else m } } := by
  show execPoolStarvation ctx s = _
  simp only [execPoolStarvation, first, period, if_pos waited, Bool.and_eq_true, decide_eq_true_eq]

theorem exec_heldCoreExpiry {s : State} {core fn since : Nat} (held : (s.core core).heldFor = some (fn, since))
    (waited : since + 820 ≤ tget s.time.hb (core / 16) 0) :
    exec (.heldCoreExpiry core) s = .next (s.modCore core fun c => { c with heldFor := none }) := by
  have waited' : since + period ≤ s.hb (dieOf core) := waited
  show execHeldCoreExpiry core s = _
  simp only [execHeldCoreExpiry, held, if_pos waited']

theorem exec_partitionPeriod {s : State} (ended : 820 ≤ s.sched.samples) :
    exec .partitionPeriod s = .next
      (let t := (List.range 64).foldl (fun (t : State) n => t.setReg (.fnheld n) (setBits (t.reg (.fnheld n)) 32 12
          (4096 + t.guar n - tget t.sched.sums n 0 / 820))) s
       { t with sched := { t.sched with samples := 0, sums := [] } }) :=
  congrArg Host.Outcome.next (if_neg (Nat.not_lt.2 ended))

/-! Favour (R84) -/

theorem exec_fairnessRotation {s : State} {core q : Nat} (sl : Slice) (coreLt : core < 1024) (qLt : q < 4) :
    exec (.fairnessRotation core q sl) s = .next { s with agenda := { s.agenda with
      passes := s.agenda.passes ++ [⟨core, q, sl, tget? (s.core core).favour (favourKey q sl), false⟩] } } := by
  have inside : (decide (core < Config.cores) && decide (q < 4)) = true := by
    rw [Bool.and_eq_true, decide_eq_true_eq, decide_eq_true_eq]
    exact ⟨coreLt, qLt⟩
  show execFairnessRotation core q sl s = _
  rw [execFairnessRotation, if_pos inside]
  rfl

theorem giveFavour_first {s : State} {core q : Nat} {sl : Slice} {r : StreamRef}
    (could : (s.streamsOn core q sl).find? s.couldIssue = some r) :
    s.giveFavour ⟨core, q, sl, none, false⟩ = s.favour core q sl r := by
  have first : ((s.streamsOn core q sl).filter s.couldIssue).head? = some r := List.head?_filter.trans could
  have none_ne (x : StreamRef) : (none == some x) = false := rfl
  simp only [State.giveFavour, none_ne, Bool.not_false, Bool.true_or, Bool.and_true, Bool.false_or, first]

theorem mem_of_nextAfter {l : List StreamRef} {r x : StreamRef} (next : nextAfter l r = some x) : x ∈ l := by
  rcases List.mem_append.1 (List.mem_of_head? next) with later | earlier
  · exact (List.dropWhile_sublist _).mem (List.mem_of_mem_drop later)
  · exact (List.takeWhile_sublist _).mem earlier

theorem giveFavour_cases (s : State) (p : Pass) : s.giveFavour p = s ∨ ∃ r ∈ s.streamsOn p.core p.quarter p.slice,
    (p.after = some r ∨ s.couldIssue r = true) ∧ s.giveFavour p = s.favour p.core p.quarter p.slice r := by
  unfold State.giveFavour
  extract_lets mate l
  split
  · next x chosen =>
    have mem : x ∈ l := by
      split at chosen
      · exact mem_of_nextAfter chosen
      · exact List.mem_of_head? chosen
    obtain ⟨there, may⟩ := List.mem_filter.1 mem
    rw [Bool.or_eq_true, Bool.and_eq_true, beq_iff_eq] at may
    exact .inr ⟨x, there, may.imp_right And.left, rfl⟩
  · exact .inl rfl

/-- Settles O43: each event of dispatch by its meaning, and the room of a core by `fits_room`. -/
theorem dispatchEvents : Obligations.DispatchEvents := by
  refine ⟨fun s ctx core may awaited => exec_teamDispatch_root may awaited,
    fun s t ctx core p may rooted first seat => ⟨exec_teamDispatch_clears may rooted first seat,
      fun clear u ask v seated => exec_teamDispatch_seats may rooted first seat clear ask seated⟩,
    fun s f core fits => ?room,
    fun s n posted => ⟨fun unwritten => ⟨exec_nodeComplete_early posted unwritten, fun ready retired dispatched t ask => ?done⟩,
      fun ids written => ⟨exec_nodeComplete_open posted written, fun closed t ask => ?signals⟩⟩,
    fun s ctx p => exec_poolStarvation, fun s core fn since => exec_heldCoreExpiry, fun s => exec_partitionPeriod,
    fun s core q sl coreLt qLt => ⟨exec_fairnessRotation sl coreLt qLt, fun none r could => ?favour,
      giveFavour_cases s⟩⟩
  case room =>
    obtain ⟨claim, ctx, teams, warps, vgran, agran, tide⟩ := fits_room fits
    obtain ⟨lt, service, -, held, reserved⟩ := claimable_iff.1 claim
    exact ⟨service, lt, ctx, teams, warps, vgran, agran, tide, held, reserved⟩
  case done =>
    rw [exec_nodeComplete_done posted unwritten ready retired dispatched ask]
    simp only [State.doneNode, Bool.and_eq_true, decide_eq_true_eq]
  case signals => exact exec_nodeComplete_signals posted written closed ask
  case favour =>
    rw [none]
    exact giveFavour_first could

end Sys2Proof.Machine


/-! SUPPORT. The events that take contexts off the package and bring them back, and the statement about them. -/

namespace Sys2Proof.Machine

/-! The control register of a context (R215, R216) -/

section control

variable {s : State} {ctx : Nat} (v : Word)

/-- The state once the write of a context's control register has been made. -/
def State.writeCtxctl (s : State) (ctx : Nat) (v : Word) : State :=
  s.setReg (.ctxctl ctx) (ctxctlAfter (s.reg (.ctxctl ctx)) v)

variable {v} (isOpen : s.pfOpen = true) (inside : ctx < 64)
include isOpen inside

theorem exec_runSet (run : v.getLsbD 61 = true) : exec (.ctxctlRunSet ctx v) s = .next
    (if s.ctxRun ctx || !(s.writeCtxctl ctx v).ctxExists ctx then s.writeCtxctl ctx v
      else match (s.writeCtxctl ctx v).ctxState ctx with
        | 0 => ((s.writeCtxctl ctx v).setCtxState ctx 1).postRoot ctx
        | 4 =>
          let t := (s.writeCtxctl ctx v).setCtxState ctx 2
          { t with sched := { t.sched with resumed := t.sched.resumed ++ [ctx] } }
        | _ => s.writeCtxctl ctx v) := by
  have allowed : (!s.pfOpen || decide (64 ≤ ctx) || !v.getLsbD 61) = false := by
    rw [run, isOpen, decide_eq_false (Nat.not_le.2 inside)]
    rfl
  show execCtxctlRunSet ctx v s = _
  rw [execCtxctlRunSet, allowed]
  rfl

theorem exec_runClear (stop : v.getLsbD 61 = false) : exec (.ctxctlRunClear ctx v) s = .next
    (if !s.ctxRun ctx then
        if s.ctxExists ctx && !(s.writeCtxctl ctx v).ctxExists ctx then (s.writeCtxctl ctx v).destroyContext ctx
        else s.writeCtxctl ctx v
      else match (s.writeCtxctl ctx v).ctxState ctx with
        | 1 | 2 =>
          let p : Preempt := { ctx := ctx, ben := none, want := 0, cores := (s.writeCtxctl ctx v).coresByAge ctx
                               teams := [], nospace := false, full := true }
          let x := ((s.writeCtxctl ctx v).setCtxState ctx 3).haltForSave p false
          ({ x.1 with sched := { x.1.sched with switches := x.1.sched.switches ++ [x.2] } } : State).endSwitches
        | 5 => ((s.writeCtxctl ctx v).discardContext ctx).setCtxState ctx 0
        | _ => s.writeCtxctl ctx v) := by
  have allowed : (!s.pfOpen || decide (64 ≤ ctx) || v.getLsbD 61) = false := by
    rw [stop, isOpen, decide_eq_false (Nat.not_le.2 inside)]
    rfl
  show execCtxctlRunClear ctx v s = _
  rw [execCtxctlRunClear, allowed]
  rfl

end control

theorem exec_contextDestruction {s : State} {ctx : Nat} (isOpen : s.pfOpen = true) (there : s.ctxExists ctx = true)
    (stopped : s.ctxRun ctx = false) : exec (.contextDestruction ctx) s = .next (s.destroyContext ctx) := by
  show execContextDestruction ctx s = _
  rw [execContextDestruction, isOpen, there, stopped]
  rfl

theorem exec_contextFatal {s : State} {ctx : Nat} (there : s.ctxExists ctx = true) (alive : s.ctxState ctx ≠ 0) :
    exec (.contextFatal ctx) s = .next (s.contextFatal ctx) := by
  show execContextFatal ctx s = _
  rw [execContextFatal, there, Bool.true_and, if_pos (bne_iff_ne.2 alive)]

/-! Pre-emption (R227, R228, R230) -/

section preemption

variable {s : State} {v : Word} (isOpen : s.pfOpen = true) (idle : (s.reg .preempt).getLsbD 63 = false)
include isOpen idle

theorem exec_preemptGo_write (still : v.getLsbD 63 = false) :
    exec (.preemptGo v) s = .next (s.setReg .preempt (v &&& 0xFFFC0000000007FF#64)) := by
  show execPreemptGo v s = _
  rw [execPreemptGo, isOpen, idle, still]
  rfl

variable {u : State} {ctx n : Nat} (wrote : s.setReg .preempt (v &&& 0xFFFC0000000007FF#64) = u)
  (hctx : bits v 56 6 = ctx) (hn : bits v 0 11 = n) (go : v.getLsbD 63 = true)
include wrote hctx hn go

theorem exec_preemptGo_badCtx (bad : u.ctxExists ctx = false ∨ (u.ctxState ctx ≠ 1 ∧ u.ctxState ctx ≠ 2) ∨ n = 0) :
    exec (.preemptGo v) s = .next
      (((u.setReg .preemptst (setBits 0 60 4 3)).setReg .preempt (setBits (u.reg .preempt) 63 1 0)).signal 0 0) := by
  have bad' : (!u.ctxExists ctx || !(u.ctxState ctx == 1 || u.ctxState ctx == 2) || decide (n = 0)) = true := by
    simpa [or_assoc] using bad
  show execPreemptGo v s = _
  rw [execPreemptGo, isOpen, idle]
  simp only [wrote, go, hctx, hn, bad', if_true, Bool.not_true, Bool.or_self, Bool.false_eq_true, if_false]

theorem exec_preemptGo_halts {t : State} {q : Preempt} (there : u.ctxExists ctx = true)
    (alive : u.ctxState ctx = 1 ∨ u.ctxState ctx = 2) (some_ : n ≠ 0)
    (halts : u.haltForSave { ctx := ctx, ben := if v.getLsbD 62 then some (bits v 50 6) else none, want := n
                             cores := u.choose ctx n, teams := [], nospace := false, full := false } true = (t, q)) :
    exec (.preemptGo v) s = .next
      (let w := match q.ben with
        | some b => q.cores.foldl (fun (t : State) c => t.holdFor b c) t
        | none => t
       { w with sched := { w.sched with preempt := some q } }) := by
  have good : (!u.ctxExists ctx || !(u.ctxState ctx == 1 || u.ctxState ctx == 2) || decide (n = 0)) = false := by
    simpa [there, some_, or_iff_not_imp_left] using alive
  show execPreemptGo v s = _
  rw [execPreemptGo, isOpen, idle]
  simp only [wrote, go, hctx, hn, good, Bool.not_true, Bool.or_self, Bool.false_eq_true, if_false, halts] <;> rfl

end preemption

theorem exec_preemptComplete {s : State} {p : Preempt} (begun : s.sched.preempt = some p) (left : s.leaving p = []) :
    exec .preemptComplete s = .next
      (let code := if p.nospace then 2 else if p.cores.length < p.want then 1 else 0
       let t := { s with sched := { s.sched with preempt := none } }
       (((t.setReg .preemptst (setBits (setBits 0 60 4 code) 0 11 p.cores.length)).setReg .preempt
          (setBits (t.reg .preempt) 63 1 0)).signal 0 0).endSwitches) := by
  show execPreemptComplete s = _
  rw [execPreemptComplete, State.endPreempt, begun]
  simp only [left, List.isEmpty_nil, Bool.not_true, Bool.false_eq_true, if_false]

/-! Saving (R229, R394) -/

theorem exec_teamSave {s u : State} {t : Nat} {tm : Team} {bs : List Nat} (team : s.team? t = some tm)
    (saving : tm.status = .saving) (blocks : s.blocksOk tm.ctx tm.imageBlocks bs = true)
    (quiet : (s.flushTeam t).gathering t = false) (settled : (s.flushTeam t).settled t tm = true)
    (ask : (s.flushTeam t).agentAsk 3396 (4 * t + 3) ((s.flushTeam t).imageTouches tm.ctx bs) = (u, true)) :
    exec (.teamSave t bs) s = .next (((((u.writeImage tm.ctx bs).takeImage t tm).modTeam t fun x => { x with
      status := .saved bs }).vacate t tm).endSwitches) := by
  have ask' : (s.flushTeam t).agentAsk nodeAgent (teamSerial t) ((s.flushTeam t).imageTouches tm.ctx bs) = (u, true) := by
    rw [teamSerial, Nat.mul_comm]
    exact ask
  show execTeamSave t bs s = _
  simp only [execTeamSave, team, saving, blocks, quiet, settled, ask', bne_self_eq_false, Bool.not_true, Bool.or_self,
    Bool.false_eq_true, if_false]

/-- Settles O44: each event by its meaning. -/
theorem contextEvents : Obligations.ContextEvents := by
  intro s ctx v old wrote
  refine ⟨fun isOpen inside => ⟨fun run => ⟨fun still => ?keeps, fun stopped there => ⟨fun idle => ?starts, fun saved => ?resumes⟩⟩,
      fun stop => ⟨fun ran => ⟨fun alive t q halts => ?switches, fun fatal => ?clears⟩, fun stopped => ?destroys⟩⟩,
    exec_contextDestruction, exec_contextFatal,
    fun isOpen idle => ⟨exec_preemptGo_write isOpen idle, fun go => ⟨exec_preemptGo_badCtx isOpen idle rfl rfl rfl go,
      fun there alive some t q halts => exec_preemptGo_halts isOpen idle rfl rfl rfl go there alive some halts⟩⟩,
    fun p => exec_preemptComplete, fun t tm bs team saving blocks quiet settled u =>
      exec_teamSave team saving blocks quiet settled⟩
  case keeps =>
    have guard : (s.ctxRun ctx || !(s.writeCtxctl ctx v).ctxExists ctx) = true := by
      rw [Bool.or_eq_true, Bool.not_eq_true']
      exact still
    rw [exec_runSet isOpen inside run, if_pos guard]
    rfl
  case starts =>
    have idle' : (s.writeCtxctl ctx v).ctxState ctx = 0 := idle
    have there' : (s.writeCtxctl ctx v).ctxExists ctx = true := there
    rw [exec_runSet isOpen inside run, stopped, there', idle']
    rfl
  case resumes =>
    have saved' : (s.writeCtxctl ctx v).ctxState ctx = 4 := saved
    have there' : (s.writeCtxctl ctx v).ctxExists ctx = true := there
    rw [exec_runSet isOpen inside run, stopped, there', saved']
    rfl
  case switches =>
    have alive' : (s.writeCtxctl ctx v).ctxState ctx = 1 ∨ (s.writeCtxctl ctx v).ctxState ctx = 2 := alive
    rw [exec_runClear isOpen inside stop, ran]
    have switch := congrArg (fun x : State × Preempt => Host.Outcome.next (φ := Fault) (ρ := Refusal)
      ({ x.1 with sched := { x.1.sched with switches := x.1.sched.switches ++ [x.2] } } : State).endSwitches) halts
    rcases alive' with state | state <;> rw [state] <;> exact switch
  case clears =>
    have fatal' : (s.writeCtxctl ctx v).ctxState ctx = 5 := fatal
    rw [exec_runClear isOpen inside stop, ran, fatal']
    rfl
  case destroys =>
    rw [exec_runClear isOpen inside stop, stopped]
    simp only [Bool.not_false, if_true, Bool.and_eq_true, Bool.not_eq_true']
    rfl

end Sys2Proof.Machine


/-! SUPPORT. The events of a function-level reset, and the statement about them. -/

namespace Sys2Proof.Machine

/-! GO (R411) -/

theorem writeFnrst_clist {s : State} {n : Nat} {v : Word} (idle : s.fnInReset n = false)
    (plain : n = 0 ∨ v.getLsbD 63 = false) :
    s.writeFnrst n v = s.setReg (.fnrst n) (v &&& 0x000FFFFFFFFFFFF0#64) := by
  have alone : (decide (n = 0) || !v.getLsbD 63) = true := by simpa using plain
  rw [State.writeFnrst, idle, if_neg Bool.false_ne_true]
  exact if_pos alone

/-- The spans of a clear list that stands at an address, or of one that is not asked for. -/
def clearSpans (s : State) (n : Nat) (clist : Word) : List Span :=
  ((s.ctxsOf n).flatMap s.ctxSpans).zipIdx.map fun x =>
    ⟨n, x.1.1, x.1.2, 0, if clist = 0 then none else some (clist.toNat + 16 * x.2)⟩

theorem writeFnrst_go {s : State} {n : Nat} {v : Word} (idle : s.fnInReset n = false) (guest : n ≠ 0)
    (go : v.getLsbD 63 = true) :
    s.writeFnrst n v =
      (let clist : Word := v &&& 0x000FFFFFFFFFFFF0#64
       let t := s.setReg (.fnrst n) (clist ||| (9#64 <<< 60))
       let t := { t with head := { t.head with spans := t.head.spans ++ clearSpans s n clist } }
       (t.ctxsOf n).foldl (fun (t : State) c => t.resetContext c) t) := by
  have started : (decide (n = 0) || !v.getLsbD 63) = false := by simp [guest, go]
  have zero_iff (w : Word) : w.toNat = 0 ↔ w = 0 := BitVec.toNat_inj (y := 0)
  rw [State.writeFnrst, idle, if_neg Bool.false_ne_true]
  simp only [started, Bool.false_eq_true, if_false, zero_iff, clearSpans]

theorem exec_fnrstGo {s : State} {n : Nat} {v : Word} (isOpen : s.pfOpen = true) (inside : n < 64)
    (go : v.getLsbD 63 = true) :
    exec (.fnrstGo n v) s = .next (s.writeFnrst n v) := by
  show execFnrstGo n v s = _
  rw [execFnrstGo, isOpen, go, decide_eq_true inside]
  rfl

theorem exec_fnrstGo_again {s : State} {n : Nat} (v : Word) (reset : s.fnInReset n = true) :
    exec (.fnrstGo n v) s = .next s := by
  show execFnrstGo n v s = _
  rw [execFnrstGo, State.writeFnrst, if_pos reset, ite_self]

theorem exec_registerWrite_fnrst {s : State} {n : Nat} {v : Word} (isOpen : s.pfOpen = true) (inside : n < 64)
    (idle : s.fnInReset n = false) (plain : v.getLsbD 63 = false) :
    exec (.registerWrite (.fnrst n) v) s = .next (s.setReg (.fnrst n) (v &&& 0x000FFFFFFFFFFFF0#64)) := by
  have there : (Reg.inRange (.fnrst n) && (s.pfOpen || (Reg.fnrst n == .hlhost && s.portUp 0))) = true := by
    rw [isOpen, Bool.true_or, Bool.and_true]
    exact decide_eq_true inside
  show execRegisterWrite (.fnrst n) v s = _
  rw [execRegisterWrite, if_pos there, ← writeFnrst_clist idle (.inr plain)]
  exact congrArg _ (if_neg (by rw [plain]; exact Bool.false_ne_true))

/-! The states that follow (R412) -/

theorem length_leBytes (n v : Nat) : (leBytes n v).length = n := by
  induction n generalizing v with
  | zero => rfl
  | succ n ih => rw [leBytes, List.length_cons, ih]

/-- A span's record with DONE 1 begins with its base and that bit. -/
theorem record_done_take (p : Span) : (p.record_ true).take 8 = leBytes 8 (p.base + 2 ^ 63) :=
  List.take_left' (length_leBytes 8 _)

section reset

variable {s : State} {n : Nat} (reset : s.fnInReset n = true)
include reset

theorem exec_fnrstQuiesce (discard : s.fnState n = 1) (still : s.sliding n = false) :
    exec (.fnrstQuiesce n) s = .next (s.setFnState n 2) := by
  show execFnrstQuiesce n s = _
  rw [execFnrstQuiesce, reset, discard, still]
  rfl

theorem exec_fnrstRotate_begins (quiesced : s.fnState n = 2) : exec (.fnrstRotate n) s = .next
    ((({ s with head := { s.head with rotating := addOnce s.head.rotating n } } : State).setFnState n 3).rotateOn n) := by
  show execFnrstRotate n s = _
  rw [execFnrstRotate, reset, quiesced]
  rfl

theorem exec_fnrstRotate_goesOn (rotates : s.fnState n = 3) (under : n ∈ s.head.rotating) :
    exec (.fnrstRotate n) s = .next (s.rotateOn n) := by
  have under' : s.head.rotating.contains n = true := List.contains_iff_mem.2 under
  show execFnrstRotate n s = _
  rw [execFnrstRotate, reset, rotates, under']
  rfl

theorem exec_fnrstClear_begins (rotates : s.fnState n = 3) (ended : n ∉ s.head.rotating) :
    exec (.fnrstClear n) s = .next (if (s.writeClearList n).2 then (s.writeClearList n).1.setFnState n 4
      else (s.writeClearList n).1) := by
  have ended' : s.head.rotating.contains n = false := by simpa using ended
  show execFnrstClear n s = _
  rw [execFnrstClear, reset, rotates, ended']
  obtain ⟨t, wrote⟩ := s.writeClearList n
  cases wrote <;> rfl

theorem exec_fnrstClear_line {p : Span} {t : State} {cleared : Bool} (clears : s.fnState n = 4)
    (next : s.openSpan n = some p) (turn : s.clearTurn n (p.base / 128 + p.cleared) = (t, cleared)) :
    exec (.fnrstClear n) s = .next
      (if cleared then { t with head := { t.head with
          spans := t.head.spans.map fun q => if q = p then { q with cleared := q.cleared + 1 } else q } }
        else t) := by
  have turn' : s.clearTurn n (lineOf p.base + p.cleared) = (t, cleared) := turn
  have past : (s.fnState n == 3 && !s.head.rotating.contains n) = false := by rw [clears]; rfl
  have now : (s.fnState n == 4) = true := beq_iff_eq.2 clears
  show execFnrstClear n s = _
  simp only [execFnrstClear, reset, past, now, next, turn', Bool.not_true, Bool.false_eq_true, if_false, if_true]
  cases cleared <;> rfl

section spanDone

variable {p : Span} (clears : s.fnState n = 4)
  (cleared : s.head.spans.find? (fun p => p.fn == n && p.cleared == p.lines) = some p)
include clears cleared

theorem exec_clearSpanDone_unlisted (unlisted : p.record = none) :
    exec (.clearSpanDone n) s = .next { s with head := { s.head with spans := s.head.spans.erase p } } := by
  have now : (s.fnState n == 4) = true := beq_iff_eq.2 clears
  show execClearSpanDone n s = _
  simp only [execClearSpanDone, reset, now, Bool.and_self, if_true, cleared, unlisted]

theorem exec_clearSpanDone_listed {a : Nat} {t : State} {asked : Bool} (listed : p.record = some a)
    (ask : s.agentAsk 3397 n [.phys 0 0 a 8 true] = (t, asked)) :
    exec (.clearSpanDone n) s = .next
      (if asked then ({ t with head := { t.head with spans := t.head.spans.erase p } } : State).physWrite 0 a
          ((p.record_ true).take 8) 2
        else t) := by
  have now : (s.fnState n == 4) = true := beq_iff_eq.2 clears
  have ask' : s.agentAsk headAgent n [.phys 0 0 a 8 true] = (t, asked) := ask
  show execClearSpanDone n s = _
  simp only [execClearSpanDone, reset, now, Bool.and_self, if_true, cleared, listed, ask']
  cases asked
  · simp only [Bool.false_eq_true, if_false]
  · simp only [if_true]

end spanDone

theorem exec_fnrstIdle (clears : s.fnState n = 4) (all : ∀ p ∈ s.head.spans, p.fn ≠ n) : exec (.fnrstIdle n) s =
    .next ((s.setReg (.fnrst n) (setBits (setBits (s.reg (.fnrst n)) 60 3 0) 63 1 0)).signal 0 1) := by
  have all' : (s.head.spans.any fun p => p.fn == n) = false := by simpa using all
  have ended : (s.fnInReset n && s.fnState n == 4 && !(s.head.spans.any fun p => p.fn == n)) = true := by
    rw [reset, clears, all']
    rfl
  show execFnrstIdle n s = _
  rw [execFnrstIdle, if_pos ended]

end reset

/-- A rotation goes on, and ends once no copy under the slot is left. -/
theorem rotateOn_eq {s t : State} {n k : Nat} {gone : Bool}
    (drops : s.dropKey k = (t, gone)) (slot : s.slotOf n = some k) :
    s.rotateOn n = if gone then { t.rotate k with
      head := { (t.rotate k).head with rotating := (t.rotate k).head.rotating.erase n } } else t := by
  simp only [State.rotateOn, slot, drops]
  cases gone <;> rfl

/-- The rotation of a slot leaves no copy in an L1 that is keyed by it. -/
theorem rotate_cores (s : State) (k : Nat) {c : Nat × Core} (core : c ∈ (s.rotate k).cores) :
    (∀ x ∈ c.2.l1, x.key ≠ k) ∧ ∀ x ∈ c.2.deltas, x.key ≠ k := by
  obtain ⟨d, -, rfl⟩ := List.mem_map.1 core
  exact ⟨fun x mem => bne_iff_ne.1 (List.mem_filter.1 mem).2, fun x mem => bne_iff_ne.1 (List.mem_filter.1 mem).2⟩

/-! Clearing (R99, R100, R413) -/

theorem clearTurn_free {s t : State} {n line : Nat}
    (ask : s.askAll 3398 n (s.stampOf 3398 n) [(line, (s.slotOf n).getD 0, n, 0, [false, true], true)] = (t, true))
    (uncached : (t.dir line).mode = 0) : s.clearTurn n line = (t.clearLine line, true) := by
  have ask' : s.askAll clearAgent n (s.stampOf clearAgent n) [(line, (s.slotOf n).getD 0, n, 0, [false, true], true)] =
    (t, true) := ask
  simp only [State.clearTurn, ask', if_pos uncached]

theorem clearLine_mem (s : State) (line : Nat) : (s.clearLine line).mem =
    memWrites ((s.dropEntries line).clearResv line).mem (line * 128) (List.replicate 128 memDefault) := by
  simp only [State.clearLine, State.modL2, State.setPoison]

theorem clearLine_reads {s : State} (canon : s.MemOk) (a : Nat) : memRead (s.clearLine (a / 128)).mem a = 0 := by
  have dropped : Memory.wf ((s.dropEntries (a / 128)).clearResv (a / 128)).mem = true :=
    State.dropEntries_memOk canon
  have from_ : a / 128 * 128 ≤ a := by omega
  have inside : a - a / 128 * 128 < 128 := by omega
  rw [clearLine_mem, memRead_memWrites dropped, if_pos from_, List.getD_replicate _ inside]
  rfl

theorem clearLine_keyed (s : State) (line : Nat) : tget? (s.clearLine line).lines.keyed line = none :=
  tget?_tdel_self _ line

/-- Settles O47: each event of a reset by its meaning. -/
theorem functionReset : Obligations.FunctionReset := by
  intro s n go st
  refine ⟨fun v isOpen inside guest idle bit => ?go, fun v reset => exec_fnrstGo_again v reset,
    fun v isOpen inside idle => ⟨fun host bit => ?host, exec_registerWrite_fnrst isOpen inside (Bool.eq_false_iff.2 idle)⟩,
    exec_fnrstQuiesce, fun reset k t slot => ⟨fun quiesced => ⟨fun waits => ?begins, fun ends => ?ends⟩,
      fun rotates under => ⟨fun waits => ?goesOn, fun ends => ?goneOn⟩⟩,
    fun k => ⟨rfl, rfl, rfl, fun c => rotate_cores s k⟩,
    fun reset rotates ended t => ⟨fun wrote => ?written, fun waits => ?unwritten⟩,
    fun reset clears p t next => ⟨fun waits => ?uncleared, fun cleared => ?cleared⟩,
    fun line t => clearTurn_free,
    fun reset clears p cleared => ⟨fun unlisted => ?unlisted, fun a listed t => ⟨fun ask => ?marked, fun ask => ?unmarked⟩⟩,
    exec_fnrstIdle, clearLine_reads, clearLine_keyed s⟩
  case go => rw [exec_fnrstGo isOpen inside bit, writeFnrst_go (Bool.eq_false_iff.2 idle) guest bit]; rfl
  case host => rw [exec_fnrstGo isOpen inside bit, writeFnrst_clist (Bool.eq_false_iff.2 idle) (.inl host)]
  case begins =>
    rw [exec_fnrstRotate_begins reset quiesced]
    exact congrArg Host.Outcome.next ((rotateOn_eq waits slot).trans (if_neg Bool.false_ne_true))
  case ends =>
    rw [exec_fnrstRotate_begins reset quiesced]
    exact congrArg Host.Outcome.next ((rotateOn_eq ends slot).trans (if_pos rfl))
  case goesOn =>
    rw [exec_fnrstRotate_goesOn reset rotates under]
    exact congrArg Host.Outcome.next ((rotateOn_eq waits slot).trans (if_neg Bool.false_ne_true))
  case goneOn =>
    rw [exec_fnrstRotate_goesOn reset rotates under]
    exact congrArg Host.Outcome.next ((rotateOn_eq ends slot).trans (if_pos rfl))
  case written => rw [exec_fnrstClear_begins reset rotates ended, wrote]; rfl
  case unwritten => rw [exec_fnrstClear_begins reset rotates ended, waits]; rfl
  case uncleared =>
    exact (exec_fnrstClear_line reset clears next waits).trans (congrArg _ (if_neg Bool.false_ne_true))
  case cleared => exact (exec_fnrstClear_line reset clears next cleared).trans (congrArg _ (if_pos rfl))
  case unlisted => exact exec_clearSpanDone_unlisted reset clears cleared unlisted
  case marked =>
    rw [← record_done_take]
    exact (exec_clearSpanDone_listed reset clears cleared listed ask).trans (congrArg _ (if_pos rfl))
  case unmarked =>
    exact (exec_clearSpanDone_listed reset clears cleared listed ask).trans
      (congrArg _ (if_neg Bool.false_ne_true))

end Sys2Proof.Machine


/-! SUPPORT. What the host, its caches and the fabric's peers do, and the statement about them. -/

namespace Sys2Proof.Machine

/-! CXL.mem (R143, R406) -/

theorem inHalf_eq_true {x len : Nat} (some_ : 1 ≤ len) (inside : x % 64 + len ≤ 64) : inHalf x len = true :=
  decide_eq_true ⟨some_, inside⟩

section accesses

variable {s t : State} {port : Nat} {x : BitVec 52} {w : HostWait} (up : s.portUp port = true)
include up

section read

variable {len tag : Nat} (some_ : 1 ≤ len) (inside : x.toNat % 64 + len ≤ 64)
  (arrives : s.hostArrival port (.read len tag) x.toNat = (t, w))
include some_ inside arrives

theorem exec_cxlMemRead_refused {fn : Nat} (refused : t.reach x.toNat len = .refused fn) :
    exec (.cxlMemRead port x len tag) s = .next (((t.hostRefused fn x.toNat).reply_ (.read tag [] true)).hostDone w) := by
  have half := inHalf_eq_true some_ inside
  show execCxlMemRead port x len tag s = _
  simp only [execCxlMemRead, up, half, Bool.not_true, Bool.or_self, Bool.false_eq_true, if_false, arrives, refused]

variable {fn pa : Nat} {as : List Nat} {u : State} (leads : t.reach x.toNat len = .at_ fn pa)
  (places : t.hostPlaces pa len = some as)
include leads places

theorem exec_cxlMemRead_asks (ask : t.hostAsk w (t.hostSlot fn) (t.hostOwner pa) as false = (u, false)) :
    exec (.cxlMemRead port x len tag) s = .next u := by
  have half := inHalf_eq_true some_ inside
  show execCxlMemRead port x len tag s = _
  simp only [execCxlMemRead, up, half, Bool.not_true, Bool.or_self, Bool.false_eq_true, if_false, arrives, leads,
    places, ask]

variable (ask : t.hostAsk w (t.hostSlot fn) (t.hostOwner pa) as false = (u, true))
include ask

theorem exec_cxlMemRead_open (stores : ∃ l ∈ linesOf as, u.storesOpen l = true) :
    exec (.cxlMemRead port x len tag) s = .next
      ((linesOf as).foldl (fun (v : State) l => v.claim l (w.req (t.hostSlot fn) (v.hostOwner pa))) u) := by
  have half := inHalf_eq_true some_ inside
  have stores' := List.any_eq_true.2 stores
  show execCxlMemRead port x len tag s = _
  simp only [execCxlMemRead, up, half, Bool.not_true, Bool.or_self, Bool.false_eq_true, if_false, arrives, leads,
    places, ask, stores', if_true]

theorem exec_cxlMemRead_reads (complete : ∀ l ∈ linesOf as, u.storesOpen l = false) :
    exec (.cxlMemRead port x len tag) s = .next
      (let v := (linesOf as).foldl (fun (v : State) l => v.touch l false) u
       let bad := as.any v.poisonedAt
       ((v.reply_ (.read tag (if bad then [] else as.map fun a => v.homeByte (t.hostSlot fn) a) bad)).hostDone w).drainFree) := by
  have half := inHalf_eq_true some_ inside
  have complete' : (linesOf as).any u.storesOpen = false := by simpa using complete
  show execCxlMemRead port x len tag s = _
  simp only [execCxlMemRead, up, half, Bool.not_true, Bool.or_self, Bool.false_eq_true, if_false, arrives, leads,
    places, ask, complete']

end read

section write

variable {bs : List Byte} (some_ : 1 ≤ bs.length) (inside : x.toNat % 64 + bs.length ≤ 64)
  (arrives : s.hostArrival port (.write bs) x.toNat = (t, w))
include some_ inside arrives

theorem exec_cxlMemWrite_refused {fn : Nat} (refused : t.reach x.toNat bs.length = .refused fn) :
    exec (.cxlMemWrite port x bs) s = .next ((t.hostRefused fn x.toNat).hostDone w) := by
  have half := inHalf_eq_true some_ inside
  show execCxlMemWrite port x bs s = _
  simp only [execCxlMemWrite, up, half, Bool.not_true, Bool.or_self, Bool.false_eq_true, if_false, arrives, refused]

variable {fn pa : Nat} {as : List Nat} {u : State} (leads : t.reach x.toNat bs.length = .at_ fn pa)
  (places : t.hostPlaces pa bs.length = some as)
include leads places

theorem exec_cxlMemWrite_asks (ask : t.hostAsk w (t.hostSlot fn) (t.hostOwner pa) as true = (u, false)) :
    exec (.cxlMemWrite port x bs) s = .next u := by
  have half := inHalf_eq_true some_ inside
  show execCxlMemWrite port x bs s = _
  simp only [execCxlMemWrite, up, half, Bool.not_true, Bool.or_self, Bool.false_eq_true, if_false, arrives, leads,
    places, ask]

theorem exec_cxlMemWrite_writes (ask : t.hostAsk w (t.hostSlot fn) (t.hostOwner pa) as true = (u, true)) :
    exec (.cxlMemWrite port x bs) s = .next
      (let v := (linesOf as).foldl (fun (v : State) l => v.homeStore (v.hostSlot fn) l
        (((as.zip bs).filter fun b => lineOf b.1 == l).map fun b => (b.1 % 128, b.2))) u
       ((v.replyAfter u (.written x)).hostDone w).drainFree) := by
  have half := inHalf_eq_true some_ inside
  show execCxlMemWrite port x bs s = _
  simp only [execCxlMemWrite, up, half, Bool.not_true, Bool.or_self, Bool.false_eq_true, if_false, arrives, leads,
    places, ask]

end write

end accesses

/-! Caching by the host (R122 to R127) -/

theorem find?_backInv_none {t : State} {line : Nat} {hi : Bool}
    (clear : ∀ b ∈ t.host.backInv, ¬(b.1 = line ∧ b.2.1 = hi)) :
    (t.host.backInv.find? fun b => b.1 == line && b.2.1 == hi) = none :=
  List.find?_eq_none.2 fun b mem there => clear b mem (by
    rw [Bool.and_eq_true, beq_iff_eq, beq_iff_eq] at there
    exact there)

section caching

variable {s t : State} {port : Nat} {x : BitVec 52} {own : Bool} {w : HostWait} (up : s.portUp port = true)
  (arrives : s.hostArrival port (if own then .own else .shared) (x.toNat / 64 * 64) = (t, w))
include up arrives

theorem hostCache_refused {fn : Nat} (refused : t.reach (x.toNat / 64 * 64) 64 = .refused fn) : s.hostCache port x own =
    ((t.hostRefused fn (x.toNat / 64 * 64)).reply_
      (.granted (BitVec.ofNat 52 (x.toNat / 64 * 64)) own [] true)).hostDone w := by
  simp only [State.hostCache, up, Bool.not_true, Bool.false_eq_true, if_false, arrives, refused]

variable {fn pa a : Nat} (leads : t.reach (x.toNat / 64 * 64) 64 = .at_ fn pa) (first : t.hostSpot pa = .at_ a)
  (last : t.hostSpot (pa + 63) = .at_ (a + 63)) (aligned : a % 64 = 0) (device : t.isHost a = false)
include leads first last aligned device

/-- A host request for a half of device memory meets a back-invalidation of it, or asks for its turn at the home. -/
theorem hostCache_eq : s.hostCache port x own =
    (let line := lineOf a
     let r := w.req (t.hostSlot fn) (t.hostOwner a)
     match t.host.backInv.find? fun b => b.1 == line && b.2.1 == decide (64 ≤ a % 128) with
     | some b => t.hostMeets w fn a own b.2.2.2.1 b.2.2.2.2
     | none => match t.ask line r [decide (64 ≤ a % 128)] own false with
       | (u, false) => u
       | (u, true) =>
        let v := u.touch line false
        if !own then (v.grant w fn a own).drainFree
        else if v.storesOpen line then v.claim line r
        else match v.startSettle (w.settle r line fn a own) with
          | (y, true) => y.drainFree
          | (y, false) => y) := by
  have half : (a % 64 != 0 || a + 63 != a + 63 || t.isHost a) = false := by
    simp [aligned, device]
  simp only [State.hostCache, up, Bool.not_true, Bool.false_eq_true, if_false, arrives, leads, first, last,
    half] <;> rfl

section clear

variable (clear : ∀ b ∈ t.host.backInv, ¬(b.1 = lineOf a ∧ b.2.1 = decide (64 ≤ a % 128)))
include clear

theorem hostCache_waits {u : State}
    (ask : t.ask (lineOf a) (w.req (t.hostSlot fn) (t.hostOwner a)) [decide (64 ≤ a % 128)] own
    false = (u, false)) : s.hostCache port x own = u := by
  rw [hostCache_eq up arrives leads first last aligned device]
  simp only [find?_backInv_none clear, ask]

variable {u : State} (ask : t.ask (lineOf a) (w.req (t.hostSlot fn) (t.hostOwner a)) [decide (64 ≤ a % 128)] own
  false = (u, true))
include ask

theorem hostCache_shares (shared : own = false) :
    s.hostCache port x own = ((u.touch (lineOf a) false).grant w fn a own).drainFree := by
  subst shared
  rw [hostCache_eq up arrives leads first last aligned device]
  simp only [find?_backInv_none clear, ask, Bool.not_false, if_true]

theorem hostCache_open (owned : own = true) (stores : (u.touch (lineOf a) false).storesOpen (lineOf a) = true) :
    s.hostCache port x own =
      (u.touch (lineOf a) false).claim (lineOf a) (w.req (t.hostSlot fn) (t.hostOwner a)) := by
  subst owned
  rw [hostCache_eq up arrives leads first last aligned device]
  simp only [find?_backInv_none clear, ask, Bool.not_true, Bool.false_eq_true, if_false, stores, if_true]

theorem hostCache_settles {y : State} {done : Bool} (owned : own = true)
    (complete : (u.touch (lineOf a) false).storesOpen (lineOf a) = false)
    (settle : (u.touch (lineOf a) false).startSettle
      (w.settle (w.req (t.hostSlot fn) (t.hostOwner a)) (lineOf a) fn a own) = (y, done)) :
    s.hostCache port x own = if done then y.drainFree else y := by
  subst owned
  rw [hostCache_eq up arrives leads first last aligned device]
  simp only [find?_backInv_none clear, ask, Bool.not_true,
    Bool.false_eq_true, if_false, complete, settle]
  cases done <;> rfl

end clear

/-- R126: the older of a host request and a back-invalidation goes first. -/
theorem hostCache_meets {write : Bool} {stamp : BitVec 32} {agent : Nat}
    (met : t.host.backInv.find? (fun b => b.1 == lineOf a && b.2.1 == decide (64 ≤ a % 128)) =
      some (lineOf a, decide (64 ≤ a % 128), write, stamp, agent)) :
    s.hostCache port x own = t.hostMeets w fn a own stamp agent := by
  rw [hostCache_eq up arrives leads first last aligned device]
  simp only [met]

end caching

theorem older_iff {w : HostWait} {stamp : BitVec 32} {agent : Nat} :
    ((w.stamp - stamp).msb || (w.stamp == stamp && decide (w.agent < agent))) = true ↔
      (w.stamp - stamp).msb = true ∨ (w.stamp = stamp ∧ w.agent < agent) := by
  rw [Bool.or_eq_true, Bool.and_eq_true, beq_iff_eq, decide_eq_true_eq]

section meets

variable {t : State} {w : HostWait} {stamp : BitVec 32} {agent : Nat} (fn a : Nat) (own : Bool)

theorem hostMeets_younger (younger : ¬((w.stamp - stamp).msb = true ∨ (w.stamp = stamp ∧ w.agent < agent))) :
    t.hostMeets w fn a own stamp agent = t.claim (lineOf a) (w.req (t.hostSlot fn) (t.hostOwner a)) :=
  if_pos (by rw [Bool.eq_false_iff.2 (mt older_iff.1 younger)]; rfl)

theorem hostMeets_older (older : (w.stamp - stamp).msb = true ∨ (w.stamp = stamp ∧ w.agent < agent)) :
    t.hostMeets w fn a own stamp agent =
      (let v := t.dropSnoop (lineOf a) (decide (64 ≤ a % 128))
       ({ v with net := { v.net with
          settles := w.settle (w.req (t.hostSlot fn) (t.hostOwner a)) (lineOf a) fn a own :: v.net.settles } } :
        State).close (lineOf a)) :=
  if_neg (by rw [older_iff.2 older]; exact Bool.false_ne_true)

end meets

/-- The end of a settling that a host request has won grants the request. -/
theorem endSettle_grants {s : State} {w : HostWait} {x : Settle} {fn a : Nat} {own : Bool}
    (waits : s.host.waits.find? (fun v => v.id == w.id) = some w) (silent : x.reply = none) (keeps : x.drop = false)
    (stays : x.evict = false) (grant : x.grant = some (w.id, fn, a, own)) :
    s.endSettle x =
      (let v := if x.keep then s else s.modDir x.line fun d => { d with mode := 0, coarse := false, ptrs := [], dies := 0 }
       ({ v with net := { v.net with settles := v.net.settles.erase x } } : State).grant w fn a own) := by
  have waits' : (if x.keep then s else s.modDir x.line fun d =>
      { d with mode := 0, coarse := false, ptrs := [], dies := 0 }).host.waits.find? (fun v => v.id == w.id) = some w := by
    split <;> exact waits
  simp only [State.endSettle, silent, keeps, stays, grant, waits', Bool.false_eq_true, if_false]

section writeback

variable {s t : State} {port : Nat} {x : BitVec 52} {bs : List Byte} {w : HostWait} {fn pa a : Nat}
  (up : s.portUp port = true)
  (half : bs.length = 64) (arrives : s.hostArrival port (.back bs) (x.toNat / 64 * 64) = (t, w))
  (leads : t.reach (x.toNat / 64 * 64) 64 = .at_ fn pa) (spot : t.hostSpot pa = .at_ a)
include up half arrives leads spot

theorem exec_hostWriteback_unowned (unowned : t.hostHalf (lineOf a) (decide (64 ≤ a % 128)) ≠ 2) :
    exec (.hostWriteback port x bs) s = .next (t.hostDone w) := by
  have refused : (a % 64 != 0 || t.hostHalf (lineOf a) (decide (64 ≤ a % 128)) != 2) = true := by
    rw [bne_iff_ne.2 unowned, Bool.or_true]
  show execHostWriteback port x bs s = _
  simp only [execHostWriteback, up, half, bne_self_eq_false, Bool.not_true, Bool.or_self, Bool.false_eq_true,
    if_false, arrives, leads, spot, refused, if_true]

section owned

variable {u : State} (aligned : a % 64 = 0) (owned : t.hostHalf (lineOf a) (decide (64 ≤ a % 128)) = 2)
include aligned owned

theorem exec_hostWriteback_waits
    (ask : t.hostAsk w (t.hostSlot fn) (t.hostOwner pa) ((List.range 64).map (a + ·)) true = (u, false)) :
    exec (.hostWriteback port x bs) s = .next u := by
  have accepted : (a % 64 != 0 || t.hostHalf (lineOf a) (decide (64 ≤ a % 128)) != 2) = false := by
    rw [owned, aligned]
    rfl
  show execHostWriteback port x bs s = _
  simp only [execHostWriteback, up, half, bne_self_eq_false, Bool.not_true, Bool.or_self, Bool.false_eq_true,
    if_false, arrives, leads, spot, accepted, ask]

theorem exec_hostWriteback_writes
    (ask : t.hostAsk w (t.hostSlot fn) (t.hostOwner pa) ((List.range 64).map (a + ·)) true = (u, true)) :
    exec (.hostWriteback port x bs) s = .next
      ((((u.homeStore (u.hostSlot fn) (lineOf a) (bytesAt (a % 128) bs)).hostHas (lineOf a) (decide (64 ≤ a % 128)) 0
        none).replyAfter u (.written x)).hostDone w).drainFree := by
  have accepted : (a % 64 != 0 || t.hostHalf (lineOf a) (decide (64 ≤ a % 128)) != 2) = false := by
    rw [owned, aligned]
    rfl
  show execHostWriteback port x bs s = _
  simp only [execHostWriteback, up, half, bne_self_eq_false, Bool.not_true, Bool.or_self, Bool.false_eq_true,
    if_false, arrives, leads, spot, accepted, ask]

end owned

end writeback

/-- R122, R95: a half that was owned comes back with its modified data, unless a discard drops them. -/
theorem exec_backInvalidationResponse {s : State} {line : Nat} {hi write : Bool} (modified : Option (List Byte))
    {stamp : BitVec 32} {agent : Nat}
    (asked : s.host.backInv.find? (fun b => b.1 == line && b.2.1 == hi) = some (line, hi, write, stamp, agent)) :
    exec (.backInvalidationResponse line hi modified) s = .next
      (let back := s.waitingBack line hi
       let t := match modified.orElse fun _ => back.map Prod.snd with
        | some bs =>
          if s.hostHalf line hi = 2 ∧ bs.length = 64 ∧ (∀ x, s.settle? line = some x → x.drop = false) then
            (((s.clearResv line).homePut (((s.l2? line).map L2Line.key).getD 0) line
              (bytesAt (if hi then 64 else 0) bs)).changed line)
          else s
        | none => s
       let t := match back with
        | some (w, _) => (t.reply_ (.written (BitVec.ofNat 52 w.addr))).hostDone w
        | none => t
       ((t.hostHas line hi (if write = true ∨ back ≠ none then 0 else 1) none).dropSnoop line hi).close line) := by
  have modifies (bs : List Byte) :
      (s.hostHalf line hi == 2 && bs.length == 64 && !((s.settle? line).any Settle.drop)) = true ↔
        s.hostHalf line hi = 2 ∧ bs.length = 64 ∧ ∀ x, s.settle? line = some x → x.drop = false := by
    simp [Option.any_eq_false, and_assoc]
  have gone : (write || (s.waitingBack line hi).isSome) = true ↔ write = true ∨ s.waitingBack line hi ≠ none := by
    rw [Bool.or_eq_true, Option.isSome_iff_ne_none]
  show execBackInvalidationResponse line hi modified s = _
  simp only [execBackInvalidationResponse, asked, modifies, gone] <;> rfl

/-! Host memory cached by the device (R125) -/

section snoop

variable {s t : State} {line : Nat} {hi inv : Bool} {w : HostWait} (host : s.isHost (line * 128) = true)
  (arrives : s.hostArrival (s.portOf (line * 128)) (.snoop inv) (halfAddr line hi) = (t, w))
include host arrives

theorem exec_hostSnoop_uncached (absent : t.l2? line = none) : exec (.hostSnoop line hi inv) s =
    .next ((t.reply_ (.answer (t.hostAddr (halfAddr line hi)) [])).hostDone w) := by
  show execHostSnoop line hi inv s = _
  simp only [execHostSnoop, host, Bool.not_true, Bool.false_eq_true, if_false, arrives, absent, State.snoopAnswer]

variable {y : L2Line} (cached : t.l2? line = some y) (turn : t.turnOf line (w.req y.key y.owner) = true)
  (complete : t.storesOpen line = false)
include cached turn complete

theorem exec_hostSnoop_alone (alone : (t.dir line).mode = 0) : exec (.hostSnoop line hi inv) s =
    .next ((t.snoopAnswer line hi inv).hostDone w).drainFree := by
  show execHostSnoop line hi inv s = _
  simp only [execHostSnoop, host, Bool.not_true, Bool.false_eq_true, if_false, arrives, cached, turn, complete,
    Bool.or_self, if_pos alone]

theorem exec_hostSnoop_settles {u : State} {done : Bool} (copies : (t.dir line).mode ≠ 0)
    (settle : t.startSettle (Settle.ofReq line (w.req y.key y.owner) [] false) = (u, done)) :
    exec (.hostSnoop line hi inv) s = .next (if done then ((u.snoopAnswer line hi inv).hostDone w).drainFree
      else u.claim line (w.req y.key y.owner)) := by
  show execHostSnoop line hi inv s = _
  simp only [execHostSnoop, host, Bool.not_true, Bool.false_eq_true, if_false, arrives, cached, turn, complete,
    Bool.or_self, if_neg copies, settle]
  cases done <;> rfl

end snoop

/-- A line with one half gone. -/
def L2Line.dropHalf (y : L2Line) (hi : Bool) : L2Line := if hi then { y with vhi := false } else { y with vlo := false }

theorem L2Line.dropHalf_valid (y : L2Line) (hi : Bool) :
    (y.dropHalf hi).valid hi = false ∧ (y.dropHalf hi).valid (!hi) = y.valid (!hi) := by
  cases hi <;> exact ⟨rfl, rfl⟩

section answer

variable {s : State} {line : Nat} {y : L2Line} (hi : Bool) (cached : s.l2? line = some y)
include cached

theorem snoopAnswer_shares : s.snoopAnswer line hi false = s.reply_ (.answer (s.hostAddr (halfAddr line hi))
    (if y.dirty && y.valid hi then s.homeBytes y.key (halfAddr line hi) 64 else [])) := by
  simp only [State.snoopAnswer, cached, Bool.not_false, if_true]

/-- What an invalidating snoop leaves of a line: its other half, or nothing. -/
theorem snoopAnswer_takes : ∃ o, s.snoopAnswer line hi true =
    (let t := (s.reply_ o).modL2 line (·.dropHalf hi)
     if (t.l2? line).any fun y => !y.vlo && !y.vhi then { t with lines := { t.lines with l2 := tdel t.lines.l2 line } }
     else t) := by
  simp only [State.snoopAnswer, cached, Bool.not_true, Bool.false_eq_true, if_false]
  exact ⟨_, rfl⟩

theorem snoopAnswer_invalidates {z : L2Line} (left : (s.snoopAnswer line hi true).l2? line = some z) :
    z.valid hi = false ∧ z.valid (!hi) = y.valid (!hi) := by
  obtain ⟨o, takes⟩ := snoopAnswer_takes hi cached
  have modified : ((s.reply_ o).modL2 line (·.dropHalf hi)).l2? line = some (y.dropHalf hi) :=
    tget?_tmod_self.trans (congrArg (Option.map _) cached)
  rw [takes] at left
  dsimp only at left
  split at left
  · exact absurd ((tget?_tdel_self _ _).symm.trans left) (Option.some_ne_none z).symm
  · obtain rfl := Option.some.inj (modified.symm.trans left)
    exact y.dropHalf_valid hi

end answer

section fill

variable {s : State} {line : Nat} {hi : Bool} {bs : List Byte}
  (asked : (line, hi) ∈ s.host.fetches) (half : bs.length = 64)
include asked half

theorem exec_cxlCacheFill : exec (.cxlCacheFill line hi bs) s = .next (if s.head.recovery then s.pulledHalf line hi bs
    else (s.homeMerge (((s.l2? line).map L2Line.key).getD 0) line (bytesAt (if hi then 64 else 0) bs)).halfHere line hi) := by
  have wanted : (!s.host.fetches.contains (line, hi) || bs.length != 64) = false := by
    rw [List.contains_iff_mem.2 asked, half]
    rfl
  show execCxlCacheFill line hi bs s = _
  rw [execCxlCacheFill, wanted, if_neg Bool.false_ne_true]

end fill

/-- R403: bytes that come from the host leave the POISON bits of the line. -/
theorem homeMerge_poisonOf (s : State) (slot line : Nat) (bs : List (Nat × Byte)) :
    (s.homeMerge slot line bs).poisonOf line = s.poisonOf line := by
  obtain ⟨m, k, rekeyed⟩ := rekey_eq s slot line
  rw [State.homeMerge, rekeyed]
  rfl

/-! The ports (R403, R414) -/

section ports

variable {s : State} {port : Nat} (there : port < 2)
include there

theorem exec_portLinkDown_down (down : s.portUp port = false) :
    exec (.portLinkDown port) s = .next (if s.head.step == 6 then s.logAction port 6 else s) := by
  show execPortLinkDown port s = _
  rw [execPortLinkDown, if_neg (Nat.not_le.2 there), down]
  rfl

theorem exec_portLinkDown_up (up : s.portUp port = true) : exec (.portLinkDown port) s = .next
    (let t := { s with host := { s.host with
      ports := tset s.host.ports port false, waits := s.host.waits.filter fun w => w.agent != port } }
     ((s.host.owners.filter fun o => o.2.2 == port).foldl (fun (t : State) o => t.ownerLost o.1 o.2.1)
      ((s.host.fetches.filter fun f => s.portOf (f.1 * 128) == port).foldl (fun (t : State) f =>
        t.fetchFailed f.1 f.2) t)).drainFree) := by
  show execPortLinkDown port s = _
  rw [execPortLinkDown, if_neg (Nat.not_le.2 there), up]
  rfl

theorem exec_portLinkUp (trains : s.head.step = 6 ∨ s.head.recovery = true ∧ port = 0) :
    exec (.portLinkUp port) s = .next { s with host := { s.host with ports := tset s.host.ports port true } } := by
  have trains' : (decide (port < 2) && (s.head.step == 6 || (s.head.recovery && port == 0))) = true := by
    rw [decide_eq_true there, Bool.true_and, Bool.or_eq_true, Bool.and_eq_true, beq_iff_eq, beq_iff_eq]
    exact trains
  show execPortLinkUp port s = _
  rw [execPortLinkUp, if_pos trains']

end ports

/-! The fabric's peers (R408, R409) -/

theorem exec_remoteRequest {s t : State} {tag : BitVec 16} {ctx ticket : Nat} {op : RemoteOp} {r : Remote}
    (performs : (match op with
      | .read va len => (s.remoteStays ⟨tag, ctx, op, ticket⟩).remoteRead ctx tag.toNat ticket va len
      | .write va bytes => (s.remoteStays ⟨tag, ctx, op, ticket⟩).remoteWrite ctx tag.toNat ticket
        (bytes.zipIdx.map fun b => (va + BitVec.ofNat 64 b.2, b.1))) = (t, r)) :
    exec (.remoteRequest tag ctx op ticket) s =
      .next (t.remoteResult ⟨tag, ctx, op, ticket⟩ r (s.remoteStays ⟨tag, ctx, op, ticket⟩)) := by
  show execRemoteRequest tag ctx op ticket s = _
  cases op <;> exact congrArg (fun x : State × Remote => Host.Outcome.next (φ := Fault) (ρ := Refusal)
    (x.1.remoteResult _ x.2 (s.remoteStays _))) performs

theorem exec_fabricPortLoss {s : State} {port : Nat} (there : port < 32) (up : port ∉ s.host.fabricDown) :
    exec (.fabricPortLoss port) s =
      .next { s with host := { s.host with fabricDown := s.host.fabricDown ++ [port] } } := by
  have acts : (decide (32 ≤ port) || s.host.fabricDown.contains port) = false := by
    rw [decide_eq_false (Nat.not_le.2 there), Bool.false_or]
    simpa using up
  show execFabricPortLoss port s = _
  rw [execFabricPortLoss, acts, if_neg Bool.false_ne_true]

/-- Settles O49: each request and event by its meaning. -/
theorem hostAndFabric : Obligations.HostAndFabric := by
  intro s out logged answers
  have answers_eq (t old : State) (o : Out) : answers t old o = t.replyAfter old o := rfl
  refine ⟨fun port x len tag t w up some_ inside arrives => ⟨fun fn => exec_cxlMemRead_refused up some_ inside arrives,
      fun fn pa as u leads places => ⟨exec_cxlMemRead_asks up some_ inside arrives leads places,
        fun ask => ⟨exec_cxlMemRead_open up some_ inside arrives leads places ask,
          exec_cxlMemRead_reads up some_ inside arrives leads places ask⟩⟩⟩,
    fun port x bs t w up some_ inside arrives => ⟨fun fn => exec_cxlMemWrite_refused up some_ inside arrives,
      fun fn pa as u leads places => ⟨exec_cxlMemWrite_asks up some_ inside arrives leads places,
        fun ask => ?writes⟩⟩,
    fun port x => ⟨rfl, rfl⟩,
    fun port x own t w up arrives => ⟨fun fn => hostCache_refused up arrives, fun fn pa a leads first last aligned device =>
      ⟨fun clear => ⟨fun u => hostCache_waits up arrives leads first last aligned device clear,
        fun u ask => ⟨hostCache_shares up arrives leads first last aligned device clear ask,
          hostCache_open up arrives leads first last aligned device clear ask, fun owned complete y =>
            ⟨fun settle => ?settled, fun settle => ?unsettled⟩⟩⟩,
        fun write stamp agent met => ⟨fun younger => ?younger, fun older => ?older⟩⟩⟩,
    fun w x fn a own => endSettle_grants,
    fun port x bs t w fn pa a up half arrives leads spot aligned =>
      ⟨exec_hostWriteback_unowned up half arrives leads spot, fun owned u =>
        ⟨fun ask => ?backWaits, fun ask => ?backWrites⟩⟩,
    fun line hi modified write stamp agent => exec_backInvalidationResponse modified,
    fun line hi inv t w host arrives => ⟨exec_hostSnoop_uncached host arrives, fun y cached turn complete =>
      ⟨exec_hostSnoop_alone host arrives cached turn complete, fun copies u =>
        ⟨fun settle => ?snooped, fun settle => ?unsnooped⟩⟩⟩,
    fun line hi y cached => ⟨snoopAnswer_shares hi cached, fun z => snoopAnswer_invalidates hi cached⟩,
    fun line hi bs asked half => ⟨fun normal => ?fills, fun recovery => ?pulls⟩,
    homeMerge_poisonOf s,
    fun port there => ⟨fun down running => ?down, fun down starting => ?logs, exec_portLinkDown_up there, exec_portLinkUp there⟩,
    fun tag ctx op ticket t r performs => ?remote,
    fun port => exec_fabricPortLoss⟩
  case writes =>
    intro v
    rw [answers_eq]
    exact exec_cxlMemWrite_writes up some_ inside arrives leads places ask
  case settled =>
    exact (hostCache_settles up arrives leads first last aligned device clear ask owned complete settle).trans (if_pos rfl)
  case unsettled =>
    exact (hostCache_settles up arrives leads first last aligned device clear ask owned complete settle).trans
      (if_neg Bool.false_ne_true)
  case snooped =>
    exact (exec_hostSnoop_settles host arrives cached turn complete copies settle).trans (congrArg _ (if_pos rfl))
  case unsnooped =>
    exact (exec_hostSnoop_settles host arrives cached turn complete copies settle).trans
      (congrArg _ (if_neg Bool.false_ne_true))
  case younger =>
    rw [hostCache_meets up arrives leads first last aligned device met]
    exact hostMeets_younger fn a own younger
  case older =>
    rw [hostCache_meets up arrives leads first last aligned device met]
    exact hostMeets_older fn a own older
  case backWaits => exact exec_hostWriteback_waits up half arrives leads spot aligned owned ask
  case backWrites =>
    rw [answers_eq]
    exact exec_hostWriteback_writes up half arrives leads spot aligned owned ask
  case fills => rw [exec_cxlCacheFill asked half, normal, if_neg Bool.false_ne_true]
  case pulls => rw [exec_cxlCacheFill asked half, if_pos recovery]; rfl
  case down => rw [exec_portLinkDown_down there down, if_neg (by simpa using running)]
  case logs =>
    rw [exec_portLinkDown_down there down, if_pos (beq_iff_eq.2 starting)]
    rfl
  case remote =>
    have served : exec (.remoteRequest tag ctx op ticket) s =
        .next (t.remoteResult ⟨tag, ctx, op, ticket⟩ r (s.remoteStays ⟨tag, ctx, op, ticket⟩)) :=
      exec_remoteRequest (by cases op <;> exact performs)
    rw [served]
    exact ⟨fun waits => by rw [waits]; rfl, fun refused => by rw [refused]; rfl, fun bs done => by rw [done]; rfl⟩

end Sys2Proof.Machine
